-- ==== Sys2Proof/Word.lean ====
section
/-! DEFINITION. The words of DN-OX12: bytes, the core's register words, packets, and the sparse tables that hold
everything of which the device has many. -/

namespace Sys2Proof

/-- A byte (R10: all addresses are byte addresses). -/
abbrev Byte := BitVec 8
/-- A scalar register or any 32-bit register (R49). -/
abbrev Word := BitVec 32
/-- An address register or a device address (R49, R175). -/
abbrev Addr := BitVec 48
/-- A 64-bit register, flag or semaphore (R12, R294). -/
abbrev DWord := BitVec 64
/-- A 64-byte packet, bit 0 the least significant bit of byte 0 (R10, R376, R377). -/
abbrev Packet := BitVec 512

/-- A sparse table: keys strictly rising, and no entry equal to the table's default. -/
abbrev Tbl (α : Type) := List (Nat × α)

end Sys2Proof
end

