-- ==== Sys2Proof/Syntax.lean ====
section
/-! DEFINITION. The commands of DN-OX12: one constructor of `Instr` for each row of the command table, with the
structures that their operands need. -/

namespace Sys2Proof

/-- A physical core p.c.k (R5, R7, R8). -/
structure CoreId where
  p : Fin 4
  c : Fin 10
  k : Fin 9
  deriving DecidableEq, Repr

/-- A cluster Cc of partition Pp (R5). -/
structure ClusterId where
  p : Fin 4
  c : Fin 10
  deriving DecidableEq, Repr

/-- A bank unit s.d.u, the four spares U64 to U67 included (R5, R7). -/
structure UnitId where
  s : Fin 12
  d : Fin 16
  u : Fin 68
  deriving DecidableEq, Repr

/-- One DRAM row of one bank of one pair (R165, R166). -/
structure RowId where
  s : Fin 12
  d : Fin 16
  pair : Fin 64
  bank : Fin 2
  row : BitVec 14
  deriving DecidableEq, Repr

/-- The engines that a macro slot feeds (R41, R46): DMA slot 3, MAT slot 4, VEC slot 5. -/
inductive Engine where
  | dma | mat | vec
  deriving DecidableEq, Repr

/-- The engines whose clocks are gated one by one (R24). -/
inductive Gated where
  | me (c : CoreId) | ve (c : CoreId) | dma (cl : ClusterId) | trav (cl : ClusterId)
  | vcore (s : Fin 12) (n : Fin 4) | bankUnit (u : UnitId)
  deriving DecidableEq, Repr

/-- What arrives at a partition (R26). -/
inductive ArrivalKind where
  | hostRequest | linkMessage | bridge | hkcCommand | refresh
  deriving DecidableEq, Repr

/-- The bundle of R45: header fields and the raw slot words, absent slots included as they would stand (R46). In a
NORMAL bundle only bits [31:0] of `adr` and `scl` are read. -/
structure Bundle where
  mask : BitVec 6
  kind : BitVec 2
  len : BitVec 5
  rsv : BitVec 3
  ctl : BitVec 32
  adr : BitVec 64
  scl : BitVec 64
  dma : BitVec 64
  mat : BitVec 64
  vec : BitVec 64
  deriving DecidableEq, Repr

/-- One sensor's front end at a round: its reading in units of 0.125 °C and whether the front end reports an open, a
short or a stuck reading (R453). -/
structure Reading where
  temp : BitVec 12
  opened : Bool
  shorted : Bool
  stuck : Bool
  deriving DecidableEq, Repr

/-- What one housekeeping round samples (R448, R460, R461): 332 sensors in the order of `TH_TEMP_n`, 64 voltage and 32
current channels, the two key pads and the fault found at each pin of `HK_SB_PINS`. -/
structure Round where
  temps : List Reading
  volts : List (BitVec 16)
  currs : List (BitVec 16)
  keyA : Bool
  keyB : Bool
  pins : List (BitVec 2)
  deriving DecidableEq, Repr

/-- What trips the package (R454, R456): a working sensor at or above trip for 10 µs, or a second broken sensor. -/
inductive TripCause where
  | hot (sensor : Fin 332)
  | broken (sensor : Fin 332)
  deriving DecidableEq, Repr

/-- The two reset inputs (R459, R462). -/
inductive ResetPin where
  | cold | warm
  deriving DecidableEq, Repr

/-- The two registers whose write sets the watchdog count to 0 (R306). -/
inductive WdogReg where
  | period | ctrl
  deriving DecidableEq, Repr

/-- The registers with W1C fields, all in the global block (R392). -/
inductive W1cReg where
  | hiErr | evStatus (e : Fin 8) | sbFault | thStatus
  deriving DecidableEq, Repr

/-- A Cadastre entry (R430). -/
structure CadEntry where
  kind : BitVec 8
  origin : BitVec 4
  locA : BitVec 32
  locB : BitVec 32
  startNo : BitVec 32
  deriving DecidableEq, Repr

/-- What the IMAGE phase has read (R422, R423): whole image bytes and their length; `none` when a flash slot's header
is malformed or no flash answers. -/
structure ImageRead where
  bytes : List Byte
  noFlash : Bool
  deriving DecidableEq, Repr

/-- The values of the configuration part of the image that the registers take (R40, R423). Its encoding belongs to
Vorlos, so the image is named by what it says. -/
structure ImageValues where
  role : BitVec 3
  share : BitVec 7
  budget : BitVec 12
  spill : Bool
  rowsPart : List (BitVec 5)
  rowsDev : BitVec 5
  reserve : List (BitVec 8)
  devId : BitVec 12
  linkEnable : List Bool
  linkExpect : List (BitVec 19)
  linkHalfOk : List Bool
  linkPrecode : List Bool
  laneLimit : List (BitVec 16)
  guarded : List (Option (Fin 48))
  cmpWarn : BitVec 8
  cmpThrottle : BitVec 8
  dramThrottle : BitVec 8
  hyst : BitVec 4
  repairMs : BitVec 16
  injection : Bool
  deriving DecidableEq, Repr

/-- What the start tests found (R427, R429): defects; the stacks whose base die fails; whether another block that no spare covers
fails. -/
structure TestResult where
  found : List CadEntry
  badBases : BitVec 12
  uncovered : Bool
  tsvOver : Bool
  sramOver : Bool
  deriving DecidableEq, Repr

/-- How the flash write of the merged Cadastre went (R434): a flash is present, and the first and second check. -/
structure FlashWrite where
  present : Bool
  first : Bool
  second : Bool
  deriving DecidableEq, Repr

/-- What a step does (R204). -/
inductive StepKind where
  | read | copy | write
  deriving DecidableEq, Repr

/-- A step of an in-bank program (R204): `outer` is the mode, `slots` the accumulator slot of each column, the first one in
outer mode, `fmt` the element format of the columns (R203); `paged` says that the scale buffer holds the FP16 scales of a page
(R154). -/
structure Step where
  kind : StepKind
  bank : Fin 2
  row : BitVec 14
  first : BitVec 6
  count : Nat
  outer : Bool
  slots : List (BitVec 8)
  fmt : BitVec 4
  paged : Bool
  runBegin : Bool
  runEnd : Bool
  /-- lanes in use, so vectors accumulated (R221: lane m for activation vector m) -/
  lanes : Nat
  /-- WRITE steps: for each column written, the bytes that are written (R205); bit i is byte i -/
  bytes : List (BitVec 32)
  deriving DecidableEq, Repr

/-- A flit (R209). -/
structure Flit where
  unit : Fin 68
  kind : BitVec 2
  poison : Bool
  seq : BitVec 6
  payload : BitVec 128
  deriving DecidableEq, Repr

/-- A down beat (R208, R211): 4,096 bits for the units of a wave, or for one unit. -/
structure Beat where
  /-- `none` is a broadcast to the units of `wave`; `some u` is addressed -/
  dest : Option (Fin 68)
  wave : List (Fin 68)
  /-- 0 operands for the register file, 1 scales for the scale buffer, 2 a half of the program -/
  what : BitVec 2
  half : Bool
  data : BitVec 4096
  program : List Step
  deriving DecidableEq, Repr

/-- Who asks the home slice for an operation (R190): a running instance of a core, or a packet (`FLAG_SET`, `FLAG_WAIT`,
a join flag, a release flag). -/
inductive HomeAgent where
  | inst (c : CoreId) (n : Nat)
  | packet (q : Fin 256) (i : Word)
  deriving DecidableEq, Repr

/-- A link message (R324): the 32-byte header and `LEN` × 32 bytes of data. -/
structure Msg where
  hdr : BitVec 256
  data : List Byte
  deriving DecidableEq, Repr

/-- A link frame as received (R315): the 32-byte header, 608 bytes of messages, and whether the codeword was
uncorrectable. -/
structure Frame where
  hdr : BitVec 256
  body : List Byte
  uncorrectable : Bool
  deriving DecidableEq, Repr

/-- The commands, in the order of the table. -/
inductive Instr where
  /-- `CTL_NOP` (R52). The CTL slot does nothing for the bundle. -/
  | ctlNop (c : CoreId) (b : Bundle)
  /-- `JMP` (R51). An unconditional branch to the absolute halfword target in IMM16, followed by 2 idle core cycles. -/
  | jmp (c : CoreId) (b : Bundle)
  /-- `BRZ` (R52). A branch taken when X[REG] is 0. -/
  | brz (c : CoreId) (b : Bundle)
  /-- `BRNZ` (R52). A branch taken when X[REG] is not 0. -/
  | brnz (c : CoreId) (b : Bundle)
  /-- `DBNZ` (R52). Decrements X[REG] and branches if the result is not 0. -/
  | dbnz (c : CoreId) (b : Bundle)
  /-- `WAITT` (R52). The bundle issues once T[REG] reaches the count, and consumes the count if C is 1. -/
  | waitt (c : CoreId) (b : Bundle)
  /-- `MTAG` (R52). Sets the macro tag from IMM16. -/
  | mtag (c : CoreId) (b : Bundle)
  /-- `TRACE` (R52). Writes a MARK trace record that carries X[REG]. -/
  | trace (c : CoreId) (b : Bundle)
  /-- `END` (R67). Stops issue; the share completes when every macro-operation and every write in flight has finished. -/
  | endShare (c : CoreId) (b : Bundle)
  /-- `ADR_NOP` (R53). The ADR slot does nothing. -/
  | adrNop (c : CoreId) (b : Bundle)
  /-- `ADR_MOVI` (R53). A[D] takes IMM12, or IMM48 in a WIDE bundle. -/
  | adrMovi (c : CoreId) (b : Bundle)
  /-- `ADR_ADDI` (R53). A[D] takes A[S] plus IMM12. -/
  | adrAddi (c : CoreId) (b : Bundle)
  /-- `ADDX` (R53). A[D] takes A[S] plus a sign-extended X register. -/
  | addx (c : CoreId) (b : Bundle)
  /-- `ADDIN` (R53). A[D] takes A[S] plus an increment register. -/
  | addin (c : CoreId) (b : Bundle)
  /-- `SETI` (R53). I[D] takes an immediate. -/
  | seti (c : CoreId) (b : Bundle)
  /-- `MOVXI` (R53). I[D] takes X[S]. -/
  | movxi (c : CoreId) (b : Bundle)
  /-- `SETJ` (R53). J[D] takes an immediate. -/
  | setj (c : CoreId) (b : Bundle)
  /-- `MOVXJ` (R53). J[D] takes the low 16 bits of X[S]. -/
  | movxj (c : CoreId) (b : Bundle)
  /-- `BIND` (R53). Binds A[D] at one level to increment register I[S]. -/
  | bind (c : CoreId) (b : Bundle)
  /-- `SCL_NOP` (R54). The SCL slot does nothing. -/
  | sclNop (c : CoreId) (b : Bundle)
  /-- `ADD` (R54). Integer add modulo 2^32. -/
  | add (c : CoreId) (b : Bundle)
  /-- `SUB` (R54). Integer subtract modulo 2^32. -/
  | sub (c : CoreId) (b : Bundle)
  /-- `SCL_ADDI` (R54). X[D] takes X[S1] plus IMM9. -/
  | sclAddi (c : CoreId) (b : Bundle)
  /-- `AND` (R54). Bitwise AND. -/
  | andX (c : CoreId) (b : Bundle)
  /-- `OR` (R54). Bitwise OR. -/
  | orX (c : CoreId) (b : Bundle)
  /-- `XOR` (R54). Bitwise XOR. -/
  | xorX (c : CoreId) (b : Bundle)
  /-- `SHL` (R54). Shift left. -/
  | shl (c : CoreId) (b : Bundle)
  /-- `SHR` (R54). Logical shift right. -/
  | shr (c : CoreId) (b : Bundle)
  /-- `SRA` (R54). Arithmetic shift right. -/
  | sra (c : CoreId) (b : Bundle)
  /-- `CMPLT` (R54). Signed less-than compare, giving 1 or 0. -/
  | cmplt (c : CoreId) (b : Bundle)
  /-- `CMPLTU` (R54). Unsigned less-than compare, giving 1 or 0. -/
  | cmpltu (c : CoreId) (b : Bundle)
  /-- `CMPEQ` (R54). Equality compare, giving 1 or 0. -/
  | cmpeq (c : CoreId) (b : Bundle)
  /-- `MUL` (R54). The low 32 bits of a product. -/
  | mul (c : CoreId) (b : Bundle)
  /-- `SCL_MOVI` (R54). X[D] takes IMM32, in a WIDE bundle only. -/
  | sclMovi (c : CoreId) (b : Bundle)
  /-- `FADD` (R54). FP32 add. -/
  | fadd (c : CoreId) (b : Bundle)
  /-- `FMUL` (R54). FP32 multiply. -/
  | fmul (c : CoreId) (b : Bundle)
  /-- `FFMA` (R54). FP32 fused multiply-add with one rounding. -/
  | ffma (c : CoreId) (b : Bundle)
  /-- `FCVTI` (R54). Saturating conversion of FP32 to INT32. -/
  | fcvti (c : CoreId) (b : Bundle)
  /-- `ICVTF` (R54). Conversion of INT32 to FP32. -/
  | icvtf (c : CoreId) (b : Bundle)
  /-- `LDX` (R54). Loads an SP word into X[D], after the address is checked at issue. -/
  | ldx (c : CoreId) (b : Bundle)
  /-- `STX` (R54). Stores X[S2] into an SP word. -/
  | stx (c : CoreId) (b : Bundle)
  /-- `MOVAX` (R54). X[D] takes the low 32 bits of A[S1]. -/
  | movax (c : CoreId) (b : Bundle)
  /-- `RDTAG` (R54). X[D] takes the work tag. -/
  | rdtag (c : CoreId) (b : Bundle)
  /-- `RDCYC` (R54). X[D] takes the cluster cycle count. -/
  | rdcyc (c : CoreId) (b : Bundle)
  /-- `WRITE_LANDS` (R60). A register write of latency L lands at the end of core cycle c + L - 1, in the order set by R61. -/
  | writeLands (cl : ClusterId)
  /-- `LOAD` (R82). Issues a load of a device-memory block into SP, with its descriptor copied at issue. -/
  | load (c : CoreId) (b : Bundle)
  /-- `STORE` (R82). Issues a store of an SP block into device memory. -/
  | store (c : CoreId) (b : Bundle)
  /-- `PICK` (R89). Issues a gather of table rows, named by an index list, into SP. -/
  | pick (c : CoreId) (b : Bundle)
  /-- `SPCOPY` (R90). Issues a copy of bytes between this core's SP and another core's SP. -/
  | spcopy (c : CoreId) (b : Bundle)
  /-- `TRAV` (R91). Issues a permutation of an SP block through the Traverse network. -/
  | trav (c : CoreId) (b : Bundle)
  /-- `REDUCE` (R92). Issues an element-wise reduction of an SP block into device memory. -/
  | reduce (c : CoreId) (b : Bundle)
  /-- `ATOM` (R93). Issues one atomic word operation for each instance. -/
  | atom (c : CoreId) (b : Bundle)
  /-- `SIGNAL` (R96). Issues a release followed by a flag add, local or remote. -/
  | signal (c : CoreId) (b : Bundle)
  /-- `WAIT` (R96). Issues a wait until a flag reaches its target, followed by an acquire. -/
  | waitFlag (c : CoreId) (b : Bundle)
  /-- `FENCE` (R96). Issues a release and/or acquire at a scope. -/
  | fence (c : CoreId) (b : Bundle)
  /-- `SEMTAKE` (R299). Issues a take of a semaphore at its home slice. -/
  | semtake (c : CoreId) (b : Bundle)
  /-- `SEMGIVE` (R300). Issues a release followed by freeing the semaphore, or handing it to the oldest waiter. -/
  | semgive (c : CoreId) (b : Bundle)
  /-- `MMA` (R98). Issues a matrix multiply-accumulate into an ACC tile. -/
  | mma (c : CoreId) (b : Bundle)
  /-- `MDRAIN` (R101). Issues the conversion of an ACC tile, written to SP. -/
  | mdrain (c : CoreId) (b : Bundle)
  /-- `VADD` (R104). Issues an element-wise add. -/
  | vadd (c : CoreId) (b : Bundle)
  /-- `VSUB` (R104). Issues an element-wise subtract. -/
  | vsub (c : CoreId) (b : Bundle)
  /-- `VMUL` (R104). Issues an element-wise multiply. -/
  | vmul (c : CoreId) (b : Bundle)
  /-- `VFMA` (R104). Issues an element-wise fused multiply-add. -/
  | vfma (c : CoreId) (b : Bundle)
  /-- `VMAX` (R104). Issues an element-wise maximum. -/
  | vmax (c : CoreId) (b : Bundle)
  /-- `VMIN` (R104). Issues an element-wise minimum. -/
  | vmin (c : CoreId) (b : Bundle)
  /-- `VADDS` (R104). Issues the addition of a scalar. -/
  | vadds (c : CoreId) (b : Bundle)
  /-- `VMULS` (R104). Issues the multiplication by a scalar. -/
  | vmuls (c : CoreId) (b : Bundle)
  /-- `VCVT` (R104). Issues a conversion of FP32 to a narrow format. -/
  | vcvt (c : CoreId) (b : Bundle)
  /-- `VWIDEN` (R104). Issues a widening of a narrow format to FP32. -/
  | vwiden (c : CoreId) (b : Bundle)
  /-- `VCOPY` (R104). Issues a copy. -/
  | vcopy (c : CoreId) (b : Bundle)
  /-- `VZERO` (R104). Issues a zero fill. -/
  | vzero (c : CoreId) (b : Bundle)
  /-- `VEXP2` (R104). Issues 2 to the power of each element. -/
  | vexp2 (c : CoreId) (b : Bundle)
  /-- `VLOG2` (R104). Issues log2 of each element. -/
  | vlog2 (c : CoreId) (b : Bundle)
  /-- `VRCP` (R104). Issues the reciprocal of each element. -/
  | vrcp (c : CoreId) (b : Bundle)
  /-- `VRSQRT` (R104). Issues the reciprocal square root of each element. -/
  | vrsqrt (c : CoreId) (b : Bundle)
  /-- `VTANH` (R104). Issues tanh of each element. -/
  | vtanh (c : CoreId) (b : Bundle)
  /-- `VGMAX` (R104). Issues a group maximum. -/
  | vgmax (c : CoreId) (b : Bundle)
  /-- `VGSUM` (R104). Issues a group sum in ascending order. -/
  | vgsum (c : CoreId) (b : Bundle)
  /-- `VGSUB` (R104). Issues the subtraction of a per-group value. -/
  | vgsub (c : CoreId) (b : Bundle)
  /-- `VGMUL` (R104). Issues the multiplication by a per-group value. -/
  | vgmul (c : CoreId) (b : Bundle)
  /-- `MACRO_INSTANCE_START` (R81). A queued macro-operation instance starts once its token wait and queue order allow, and its operands are checked. -/
  | macroInstanceStart (c : CoreId) (e : Engine)
  /-- `MACRO_COMPLETE` (R109). A macro-operation completes and signals its token under SIG_MODE. -/
  | macroComplete (c : CoreId) (n : Nat)
  /-- `WAIT_TIMEOUT` (R68). A wait held longer than LIMIT x 1,024 core cycles halts the core. -/
  | waitTimeout (c : CoreId)
  /-- `CUT_POINT_REACHED` (R113). A running operation reaches its next cut point after a cut request and stops there. -/
  | cutPointReached (c : CoreId) (n : Nat) (amount : Nat)
  /-- `LOST` (R74). A LOST trace record is written once buffer room returns after records were dropped. -/
  | lost (cl : ClusterId)
  /-- `TRACE_ENABLE` (R72). Setting ENABLE from 0 to 1 in CL_TRACE_CTRL clears NEXT, WRAPPED and the lost count, and restarts SEQ. -/
  | traceEnable (cl : ClusterId) (v : Word)
  /-- `ENGINE_WAKE` (R24). A gated engine starts work that arrived, within 64 cycles of its own clock. -/
  | engineWake (g : Gated)
  /-- `IDLE_DELAY_EXPIRY` (R27). A partition with no contexts, busy engines or arrivals for IDLE_DELAY goes to STOPPING. -/
  | idleDelayExpiry (p : Fin 4)
  /-- `STOP_DRAIN_COMPLETE` (R27). Once the drain completes, the core PLL stops and the partition is STOPPED. -/
  | stopDrainComplete (p : Fin 4)
  /-- `ARRIVAL` (R27). An arrival cancels a stop, starts the PLL, or is held behind earlier arrivals. -/
  | arrival (p : Fin 4) (a : ArrivalKind)
  /-- `PLL_LOCKED` (R27). The PLL locks, the partition is RUNNING, and held arrivals are released in order. -/
  | pllLocked (p : Fin 4)
  /-- `HOUSEKEEPING_ROUND` (R448). Every 2 ms all 428 channels are sampled and the governor and thermal rules are applied. -/
  | housekeepingRound (r : Round)
  /-- `THERMAL_TRIP` (R456). A sensor at or above trip for 10 µs, or a second broken sensor, trips the package and cuts the rails. -/
  | thermalTrip (t : TripCause)
  /-- `COOLED_RESTART` (R457). After 10 s with every working sensor below 80 °C, the package runs a cold start. -/
  | cooledRestart
  /-- `POWER_GOOD_RISE` (R447). A power-good input rises and the next rail enable group is asserted. -/
  | powerGoodRise (g : Fin 6)
  /-- `POWER_GOOD_FALL` (R447). A power-good input that falls while its group is enabled trips the package. -/
  | powerGoodFall (g : Fin 6)
  /-- `POWER_GOOD_TIMEOUT` (R447). A power-good that does not rise within 50 ms of its enable fails the start. -/
  | powerGoodTimeout (g : Fin 6)
  /-- `ENABLE_RELEASE_TIMEOUT` (R447). During power-down, an enable is released 20 ms after the previous release if the next power-good has not fallen. -/
  | enableReleaseTimeout (g : Fin 6)
  /-- `RESET_PIN_RELEASE` (R462). Releasing a filtered COLD_RST_N or WARM_RST_N assertion begins the reset. -/
  | resetPinRelease (r : ResetPin)
  /-- `RESET_PIN_HOLD_TIMEOUT` (R462). A reset pin still asserted 1 s after assertion begins its reset. -/
  | resetPinHoldTimeout (r : ResetPin)
  /-- `RESET_PIN_STUCK` (R461). A reset input still asserted 2 s after assertion is marked shorted to ground. -/
  | resetPinStuck (r : ResetPin)
  /-- `RESET_PIN_REARM` (R462). A reset pin that has read deasserted for 10 ms is accepted again. -/
  | resetPinRearm (r : ResetPin)
  /-- `GET_INFO` (R381). Writes the 64-byte device information block. -/
  | getInfo (k : Packet)
  /-- `SET_ROLE` (R31). Changes the role, removes any split override and rewrites PS_THIN_MAX. -/
  | setRole (k : Packet)
  /-- `PARTITION_START` (R340). Starts or resumes a partition's scheduler. -/
  | partitionStart (k : Packet)
  /-- `PARTITION_STOP` (R340). Suspends every context of the partition. -/
  | partitionStop (k : Packet)
  /-- `CONTEXT_CREATE` (R341). Creates a context and allocates its save area. -/
  | contextCreate (k : Packet)
  /-- `CONTEXT_DESTROY` (R361). Cuts the context's work, breaks its semaphores, frees its sequences, regions and grants. -/
  | contextDestroy (k : Packet)
  /-- `REGION_MAP` (R178). Checks the parameters and writes a region-table entry, filling its Datum array. -/
  | regionMap (k : Packet)
  /-- `REGION_UNMAP` (R179). Invalidates a region entry once its accesses and translation cache entries are gone. -/
  | regionUnmap (k : Packet)
  /-- `QUEUE_CREATE` (R374). Creates a work queue for a context. -/
  | queueCreate (k : Packet)
  /-- `QUEUE_DESTROY` (R380). Destroys a work queue. -/
  | queueDestroy (k : Packet)
  /-- `RESET_CORE` (R441). Resets one IDLE or HALTED core. -/
  | resetCore (k : Packet)
  /-- `RESET_CLUSTER` (R441). Resets a cluster, zeroes its SP and ACC, and brings in the spare. -/
  | resetCluster (k : Packet)
  /-- `RESET_PARTITION` (R443). Cuts, drains and empties a partition, and returns it to OFF. -/
  | resetPartition (k : Packet)
  /-- `RESET_WARM` (R444). Writes its reply, disables the links and runs a warm start. -/
  | resetWarm (k : Packet)
  /-- `RESET_COLD` (R444). Takes every domain but housekeeping down and runs a cold start. -/
  | resetCold (k : Packet)
  /-- `CADASTRE_READ` (R435). Writes the current Cadastre list to a host buffer. -/
  | cadastreRead (k : Packet)
  /-- `CADASTRE_IMPORT` (R436). Checks and merges an imported list, extends MEAS6 and writes it to flash. -/
  | cadastreImport (k : Packet)
  /-- `MEMTEST_FULL` (R437). Runs the slice test over every row of the selected stacks. -/
  | memtestFull (k : Packet)
  /-- `RETENTION_TEST` (R438). MEMTEST_FULL runs the retention test when RETENTION was set as it started. -/
  | retentionTest (k : Packet)
  /-- `MEMTEST_COMPLETE` (R437). The memory test ends, its defects are applied, the stacks are zero-filled and the command completes. -/
  | memtestComplete (found : List CadEntry)
  /-- `REPAIR_BLOCK` (R400). Rewrites a 4 KiB block from host memory, clears its poison and resumes parked operations. -/
  | repairBlock (k : Packet)
  /-- `POWER_SPLIT` (R33). Overrides the compute share, the package budget and the spill flag. -/
  | powerSplit (k : Packet)
  /-- `THERMAL_CONFIG` (R458). Sets the warn and throttle thresholds and the hysteresis. -/
  | thermalConfig (k : Packet)
  /-- `MEASURE_READ` (R425). Writes the eight measurement registers to a host buffer. -/
  | measureRead (k : Packet)
  /-- `ERRINJ_ARM` (R403). Arms the flip mask of one encoder. -/
  | errinjArm (k : Packet)
  /-- `SEQ_TABLE_SETUP` (R243). Gives a partition its descriptor range and page-table pool. -/
  | seqTableSetup (k : Packet)
  /-- `MCQ_DOORBELL` (R372). A write to HI_MCQ_TAIL makes commands available, or is refused as a doorbell error. -/
  | mcqDoorbell (v : Word)
  /-- `WQ_DOORBELL` (R374). A write to HI_WQ_TAIL_q queues packets and may make the context READY. -/
  | wqDoorbell (q : Fin 256) (v : Word)
  /-- `EV_CONS_WRITE` (R372). The host consumes event records, which frees room in the event queue. -/
  | evConsWrite (e : Fin 8) (v : Word)
  /-- `MCQ_ENABLE` (R373). Setting ENABLE of the MCQ resets its indices and starts reading it. -/
  | mcqEnable (v : Word)
  /-- `EVQ_ENABLE` (R373). Setting ENABLE of an event queue resets its indices and starts writing records into it. -/
  | evqEnable (e : Fin 8) (v : Word)
  /-- `SUSPEND` (R341). Writing SUSPEND 1 takes a context out of scheduling. -/
  | suspend (p : Fin 4) (x : Fin 16) (v : Word)
  /-- `UNSUSPEND` (R341). Writing SUSPEND 0 lets a context with queued packets become READY. -/
  | unsuspend (p : Fin 4) (x : Fin 16) (v : Word)
  /-- `LINK_ENABLE` (R311). Writing ENABLE 1 moves a disabled link to DETECT. -/
  | linkEnable (l : Fin 48) (v : Word)
  /-- `LINK_DISABLE` (R317). Writing ENABLE 0 disables a link, discards its frames and ends the contexts that wait on it. -/
  | linkDisable (l : Fin 48) (v : Word)
  /-- `RETRAIN` (R311). Writing RETRAIN takes an ACTIVE link to RETRAIN. -/
  | retrain (l : Fin 48) (v : Word)
  /-- `WDOG_CONFIG_WRITE` (R306). A write to PS_WDOG_PERIOD or PS_WDOG_CTRL sets the watchdog count to 0. -/
  | wdogConfigWrite (p : Fin 4) (r : WdogReg) (v : Word)
  /-- `W1C_CLEAR` (R392). A write of ones clears W1C status bits on the hk clock, losing to a set in the same cycle. -/
  | w1cClear (r : W1cReg) (v : Word) (sets : Word)
  /-- `REGISTER_WRITE` (R12). A write to a register with no behaviour of its own, under the access and alignment rules. -/
  | registerWrite (off : BitVec 28) (size : Nat) (v : DWord)
  /-- `HK_BOOT` (R416). The mask ROM boot completes and the start moves to IDENTITY or IMAGE. -/
  | hkBoot (keyA keyB : Bool)
  /-- `IDENTITY` (R421). The identity key pair is derived from the PUF seed. -/
  | identity
  /-- `IMAGE` (R422). The whole image has been read from flash or the mailbox. -/
  | imageRead (g : ImageRead)
  /-- `IMAGE_PIECE` (R422). One piece of a mailbox image push arrives; a piece out of order restarts the push. -/
  | imagePiece (off : Nat) (data : List Byte)
  /-- `VERIFY` (R424). The image signatures are checked, measurements extended and the alias key derived, or the next source is tried. -/
  | verifyImage
  /-- `POWER_UP` (R416). Rails and PLLs are up. -/
  | powerUp
  /-- `MEM_INIT` (R416). The stack interfaces are trained or checked. -/
  | memInit
  /-- `TEST` (R427). Every start test is done and its defects are entered. -/
  | testDone (t : TestResult)
  /-- `CADASTRE` (R433). The Cadastre is merged, compacted, measured and written to flash. -/
  | cadastrePhase (w : FlashWrite)
  /-- `APPLY` (R433). Spares are put in place for the merged list. -/
  | applyCad
  /-- `CONFIGURE` (R419). Image values are written, memories cleared, and the device reports READY. -/
  | configure (v : ImageValues)
  /-- `GET_VERSION` (R426). An SPDM request for the supported versions. -/
  | getVersion (req : List Byte)
  /-- `GET_CAPABILITIES` (R426). An SPDM capabilities request. -/
  | getCapabilities (req : List Byte)
  /-- `NEGOTIATE_ALGORITHMS` (R426). An SPDM algorithm negotiation. -/
  | negotiateAlgorithms (req : List Byte)
  /-- `GET_DIGESTS` (R426). An SPDM certificate digest request. -/
  | getDigests (req : List Byte)
  /-- `GET_CERTIFICATE` (R426). An SPDM request for the slot 0 certificate chain. -/
  | getCertificate (req : List Byte)
  /-- `CHALLENGE` (R426). An SPDM challenge, signed with the alias key. -/
  | challenge (req : List Byte)
  /-- `GET_MEASUREMENTS` (R426). An SPDM request for the signed measurement registers. -/
  | getMeasurements (req : List Byte)
  /-- `RUN` (R344). Loads a program onto N free cores and starts their shares. -/
  | runPacket (q : Fin 256) (k : Packet)
  /-- `LINEAR` (R198). Checks a matrix product and places it in the stacks or on cores. -/
  | linear (q : Fin 256) (k : Packet)
  /-- `ATTEND` (R252). Runs fused attention over a sequence or dense tensors. -/
  | attend (q : Fin 256) (k : Packet)
  /-- `ATTEND_BWD` (R260). Computes the attention gradients on cores. -/
  | attendBwd (q : Fin 256) (k : Packet)
  /-- `APPEND_KV` (R262). Appends tokens to a sequence and raises LENGTH once all of its commands complete. -/
  | appendKv (q : Fin 256) (k : Packet)
  /-- `STEP` (R357). Runs a thick lane and a thin lane of packets concurrently, with a join flag. -/
  | stepPacket (q : Fin 256) (k : Packet)
  /-- `COPY` (R384). Copies a block, or gathers rows by an index list. -/
  | copyPacket (q : Fin 256) (k : Packet)
  /-- `COLLECTIVE` (R335). Sends and receives shards with peers. -/
  | collective (q : Fin 256) (k : Packet)
  /-- `FLAG_SET` (R293). A release at its scope, then a flag add, once earlier packets have completed. -/
  | flagSet (q : Fin 256) (k : Packet)
  /-- `FLAG_WAIT` (R293). Holds its queue until a flag reaches its target, then acquires. -/
  | flagWait (q : Fin 256) (k : Packet)
  /-- `FENCE_PACKET` (R293). A queue-ordering release and/or acquire packet. -/
  | fencePacket (q : Fin 256) (k : Packet)
  /-- `NOP` (R382). A work packet that completes with OK. -/
  | nop (q : Fin 256) (k : Packet)
  /-- `OPEN` (R265). A page edit that opens a FREE sequence descriptor. -/
  | openSeq (q : Fin 256) (k : Packet)
  /-- `MAP` (R266). A page edit that maps pages VALID, or PENDING when FILL is 1. -/
  | mapPages (q : Fin 256) (k : Packet)
  /-- `COMMIT` (R266). A page edit that moves PENDING pages to VALID. -/
  | commitPages (q : Fin 256) (k : Packet)
  /-- `DROP` (R266). A page edit that drops pages into quarantine, notifying if asked. -/
  | dropPages (q : Fin 256) (k : Packet)
  /-- `FREE` (R266). A page edit that returns entries to EMPTY. -/
  | freePages (q : Fin 256) (k : Packet)
  /-- `REENCODE` (R266). A page edit that re-encodes pages into new pages. -/
  | reencodePages (q : Fin 256) (k : Packet)
  /-- `TRUNCATE` (R265). A page edit that lowers LENGTH. -/
  | truncateSeq (q : Fin 256) (k : Packet)
  /-- `SYNC` (R265). A page edit that only raises the generation. -/
  | syncSeq (q : Fin 256) (k : Packet)
  /-- `CLOSE` (R266). A page edit that moves a sequence to CLOSING and quarantines its pages. -/
  | closeSeq (q : Fin 256) (k : Packet)
  /-- `READ` (R265). A page edit that copies the 64-byte descriptor out. -/
  | readSeq (q : Fin 256) (k : Packet)
  /-- `PAGE_SERVE` (R273). Sends the pages of a sequence to a peer, re-encoding them as needed. -/
  | pageServe (q : Fin 256) (k : Packet)
  /-- `PAGE_SERVE_REQUEST` (R334). A PAGE_SERVE with REQUEST set sends one PS_REQ to the peer. -/
  | pageServeRequest (q : Fin 256) (k : Packet)
  /-- `PACKET_COMPLETE` (R375). A packet completes: release, event records, reply slot, then HEAD. -/
  | packetComplete (q : Fin 256) (i : Word)
  /-- `GEMV_B` (R221). A stack command that runs a LINEAR in the bank units. -/
  | gemvB (s : Fin 12) (q : Fin 256) (i : Word)
  /-- `ATTEND_D` (R224). A stack command that runs attention over a sequence's pages. -/
  | attendD (s : Fin 12) (q : Fin 256) (i : Word) (g : Nat)
  /-- `APPEND` (R226). A stack command that quantises and writes new key and value rows. -/
  | append (s : Fin 12) (q : Fin 256) (i : Word)
  /-- `REQUANT` (R227). A stack command that re-encodes pages. -/
  | requant (s : Fin 12) (q : Fin 256) (i : Word)
  /-- `GATHER` (R228). A stack command that gathers 32-byte groups through the pick path. -/
  | gather (s : Fin 12) (q : Fin 256) (i : Word)
  /-- `STACK_COMMAND_COMPLETE` (R229). A stack command reports OK, RECOMPUTE_NEEDED or FAILED to the sequencer. -/
  | stackCommandComplete (s : Fin 12) (n : Nat)
  /-- `READ_STEP` (R203). A bank unit opens a row and streams columns through its array. -/
  | readStep (u : UnitId) (t : Step)
  /-- `COPY_STEP` (R227). A bank unit sends columns up the Chain unprocessed. -/
  | copyStep (u : UnitId) (t : Step)
  /-- `WRITE_STEP` (R205). A bank unit writes columns from its register file with fresh check bits. -/
  | writeStep (u : UnitId) (t : Step)
  /-- `FLIT` (R209). A flit of results, scores, copied data or a report reaches the stack engine. -/
  | flit (s : Fin 12) (d : Fin 16) (f : Flit)
  /-- `BEAT` (R211). A broadcast or addressed down beat reaches a unit. -/
  | beat (s : Fin 12) (d : Fin 16) (b : Beat)
  /-- `UNIT_RUN_TIMEOUT` (R241). A run that exceeds 4 times its time fails the unit, which moves to proxy mode. -/
  | unitRunTimeout (u : UnitId)
  /-- `MIGRATION_COMPLETE` (R242). A failed pair's copy to a spare completes and its addresses lead to the spare. -/
  | migrationComplete (s : Fin 12) (d : Fin 16) (j : Fin 4)
  /-- `LEDGER_VISIT` (R235). After a unit's program ends, logged corrected words are written back and their entries freed. -/
  | ledgerVisit (u : UnitId)
  /-- `REFRESH` (R232). A refresh falls due for a bank, waiting or being postponed around steps. -/
  | refresh (s : Fin 12) (h : Fin 64) (k : Fin 32)
  /-- `SCRUB_VISIT` (R405). The scrubber visits a row, writing back or poisoning words. -/
  | scrubVisit (r : RowId)
  /-- `ROW_REMAP_COMPLETE` (R408). A live row copy into a spare row completes and the remap takes over. -/
  | rowRemapComplete (r : RowId)
  /-- `HOME_OPERATION` (R191). The home slice performs an atomic, reduction, flag or semaphore operation and retests registered waits. -/
  | homeOperation (h : HomeAgent)
  /-- `HOST_MEM_READ` (R368). A host CXL.mem read is served at the home slice or stack controller. -/
  | hostMemRead (off : Nat) (n : Nat) (excl : Bool)
  /-- `HOST_MEM_WRITE` (R368). A host CXL.mem write is performed, possibly as a flag add. -/
  | hostMemWrite (off : Nat) (data : List Byte) (poison excl : Bool)
  /-- `HOST_SNOOP` (R365). A host snoop is answered as a miss. -/
  | hostSnoop (a : Addr)
  /-- `UCIE_TRAINED` (R363). The UCIe modules finish training and the link runs at full or degraded width. -/
  | ucieTrained (m : BitVec 4) (r : BitVec 2) (rep : BitVec 16)
  /-- `DATA_FRAME` (R315). A DATA frame is received, or discarded and NAKed when bad. -/
  | dataFrame (l : Fin 48) (f : Frame)
  /-- `IDLE_FRAME` (R315). An IDLE frame carrying acknowledgement and credit is received. -/
  | idleFrame (l : Fin 48) (f : Frame)
  /-- `RD_REQ` (R325). A remote read request is checked and served. -/
  | rdReq (l : Fin 48) (m : Msg)
  /-- `RD_RSP` (R325). A read response is delivered to its requester or to the context mailbox. -/
  | rdRsp (l : Fin 48) (m : Msg)
  /-- `WR` (R325). A remote write is checked, accepted and performed. -/
  | wrMsg (l : Fin 48) (m : Msg)
  /-- `RED` (R325). A remote reduce-write is checked, expanded if coded, and performed. -/
  | redMsg (l : Fin 48) (m : Msg)
  /-- `FLAG_ADD` (R325). A remote flag add is performed at the flag's home. -/
  | flagAdd (l : Fin 48) (m : Msg)
  /-- `PS_REQ` (R334). A page-serve request is queued as a PAGE_SERVE of DCTX, or refused NOT_READY. -/
  | psReq (l : Fin 48) (m : Msg)
  /-- `SHARD` (R336). A shard box is received and its overlapping elements written or added. -/
  | shard (l : Fin 48) (m : Msg)
  /-- `ACK` (R326). An acknowledgement or refusal completes the requester's operation. -/
  | ackMsg (l : Fin 48) (m : Msg)
  /-- `DRAIN` (R320). A drain marker is returned once every earlier message is performed. -/
  | drainMsg (l : Fin 48) (m : Msg)
  /-- `DRAIN_RET` (R282). A returned drain marker completes a SPAN release. -/
  | drainRet (l : Fin 48) (m : Msg)
  /-- `IDENT` (R312). A peer identity is accepted, or the link goes to MISWIRED. -/
  | ident (l : Fin 48) (m : Msg)
  /-- `NOT_READY_RESEND` (R326). A NOT_READY-refused message is resent after 1,250 core cycles. -/
  | notReadyResend (l : Fin 48) (tag : BitVec 16)
  /-- `SIGNAL_DETECTED` (R311). Signal detected on a receive lane moves DETECT to TRAIN. -/
  | signalDetected (l : Fin 48)
  /-- `LANES_CONVERGED` (R311). Every lane in use converges in training, moving the link to ALIGN. -/
  | lanesConverged (l : Fin 48) (swapped : Bool) (pol : BitVec 2) (delay : BitVec 16)
  /-- `LANE_TRAIN_TIMEOUT` (R313). A lane that does not converge in 100 ms is retired and spared. -/
  | laneTrainTimeout (l : Fin 48) (n : Fin 2)
  /-- `CODEWORD_LOCK` (R311). Codeword lock on every lane moves ALIGN to IDENTIFY. -/
  | codewordLock (l : Fin 48)
  /-- `CODEWORD_LOCK_LOST` (R311). Loss of codeword lock sends an ACTIVE link to RETRAIN. -/
  | codewordLockLost (l : Fin 48) (n : Fin 2)
  /-- `MISWIRE_TIMEOUT` (R311). After 10 ms a MISWIRED link returns to DETECT. -/
  | miswireTimeout (l : Fin 48)
  /-- `LINK_TRAIN_TIMEOUT` (R311). After 250 ms without ALIGN the link returns to DETECT and raises LINK_DOWN. -/
  | linkTrainTimeout (l : Fin 48)
  /-- `FEC_WINDOW` (R314). At the end of each 1 ms window a lane over its corrected-symbol limit is retired. -/
  | fecWindow (l : Fin 48) (s0 s1 : Nat)
  /-- `QUANTUM_EXPIRY` (R342). The running context's quantum ends with another context READY, so a switch is due. -/
  | quantumExpiry (p : Fin 4)
  /-- `YIELD_EXPIRY` (R342). A context held only by waits for YIELD hk cycles gives up the partition. -/
  | yieldExpiry (p : Fin 4)
  /-- `HOLD_BUDGET_EXPIRY` (R352). A deferred switch breaks the context's semaphores and proceeds. -/
  | holdBudgetExpiry (p : Fin 4)
  /-- `CUT_COMPLETE` (R349). Every engine of the outgoing context has cut and drained, and the save begins. -/
  | cutComplete (p : Fin 4)
  /-- `SAVE_COMPLETE` (R341). A context's save ends and the next READY context is chosen for restore. -/
  | saveComplete (p : Fin 4) (cycles : Nat)
  /-- `RESTORE_COMPLETE` (R349). The incoming context is restored, its waits re-registered, and it is RUNNING. -/
  | restoreComplete (p : Fin 4)
  /-- `WATCHDOG_EXPIRY` (R306). The deadlock count reaches its period and the watchdog reports. -/
  | watchdogExpiry (p : Fin 4)
  /-- `REPAIR_WINDOW_EXPIRY` (R401). An unrepaired parked operation gives its context CONTAINED-X. -/
  | repairWindowExpiry (n : Nat)
  /-- `REPLAY` (R413). A failed share of a REPLAYABLE packet is restarted on a free core. -/
  | replay (c : CoreId)
  /-- `FIRMWARE_WATCHDOG_EXPIRY` (R393). Vorlos failing to service its watchdog for 100 ms is UNCONTAINED. -/
  | firmwareWatchdogExpiry
  /-- `INTERRUPT_TIMER` (R391). The moderation timer expires and the event queue's interrupt is sent. -/
  | interruptTimer (e : Fin 8)
  /-- `COLLECTIVE_END` (R337). A collective END message arrives from a peer; once END has come from every RECV peer and arrivals are performed, the COLLECTIVE packet can complete. -/
  | collectiveEnd (l : Fin 48) (m : Msg)
  /-- `LANE_OPEN_OR_SHORT` (R311). During TRAIN or RETRAIN a lane shows an open or short, and is retired and spared under R313. -/
  | laneOpenOrShort (l : Fin 48) (n : Fin 2)
  /-- `RESET_PIN_ASSERT` (R462). A filtered assertion of COLD_RST_N or WARM_RST_N arms its reset and starts the 1 s and 2 s counts. -/
  | resetPinAssert (r : ResetPin)
  /-- `PACKAGE_POWER_LOSS` (R434). The package loses power; all state is lost, including the identity key, TH_STATUS, TH_LAST_TRIP and a Cadastre flash write in progress. -/
  | packagePowerLoss
  /-- `BACK_INVALIDATION_RESPONSE` (R368). The host answers a back-invalidation snoop, and the home slice may let the device write or read of that line proceed. -/
  | backInvalidationResponse (line : Nat) (data : Option (List Byte))
  /-- `HOST_CXL_COMPLETION` (R365). The host returns the CXL completion of a device CXL.cache request, letting the next write of a queue, or an interrupt that awaits it, proceed. -/
  | hostCxlCompletion
  deriving DecidableEq, Repr

end Sys2Proof
end

