-- ==== Sys2Proof/Decode.lean ====
section
/-! DEFINITION. The block's commands come from outside: no row of the command table gives bits, so no word spells a
command. -/

namespace Sys2Proof

/-- The command that `nbits` bits `w` spell by the table's bits. No row gives bits (98_reader.md counts none), so none
does. -/
def decodeTableWord (_nbits _w : Nat) : Option Instr := none

end Sys2Proof
end

