-- ==== Sys2Proof/Config.lean ====
section
/-! DEFINITION. What an implementation fixes and the manual does not state: uninterpreted constants, none of which has
a body that a proof could see. A claim about the model holds whatever they are. -/

namespace Sys2Proof.Config

/-- The 16-bit draws of the stochastic rounding generators (R126), by the free-value counter. -/
opaque rand : Nat → BitVec 16
/-- The value that a special function returns within its bound (R125): function number (0 `VEXP2`, 1 `VLOG2`, 2 `VRCP`,
3 `VRSQRT`, 4 `VTANH`) and FP32 input. -/
opaque special : Nat → BitVec 32 → BitVec 32
/-- Whether a stream cache, whose replacement is unspecified (R277), has dropped a copy: free-value counter and group. -/
opaque evicted : Nat → Nat → Bool
/-- The set of its shared-cache slice in which a line lies, modulo 4,096 (R186 gives the number of sets and no mapping). -/
opaque cacheSet : Nat → Nat
/-- Whether a waiting request has reached its slice's arbiter (R111, R196): free-value counter and place of the word. -/
opaque arrived : Nat → Nat → Bool
/-- Where a library program ends one `MMA` instance and begins the next (R121, R344): packet draw and group number. -/
opaque tileCut : Nat → Nat → Bool
/-- The incarnation number of a warm or cold start (R312), by the free-value counter. -/
opaque incarnation : Nat → BitVec 32
/-- The column of data bit `n` in the parity-check matrix of the SECDED (39,32) code of R393, which the manual does not give. -/
opaque dataColumn : Nat → BitVec 7
/-- Whether a library program applies a row scale exactly before it rounds, as `MDRAIN` does (R101, R344), by its packet's
draw. -/
opaque libraryFused : Nat → Bool
/-- A byte of the control state that a save writes (R347, R348), whose layout the manual does not give: free-value counter
and offset. -/
opaque controlByte : Nat → Nat → BitVec 8
/-- SHA3-512 over a byte string (R424, R425): uninterpreted. -/
opaque sha3_512 : List Byte → BitVec 512
/-- SHA3-512 of the mask ROM (R425). -/
opaque maskRomDigest : BitVec 512
/-- The SHA3-512 digest of Dennine's root key that mask ROM holds (R424). -/
opaque rootKeyDigest : BitVec 512
/-- Whether an ML-DSA-87 signature over a digest verifies under a public key (R424): key, digest, signature. -/
opaque mldsaVerify : List Byte → BitVec 512 → List Byte → Bool
/-- An ML-DSA-87 signature by the alias key over a message (R426): alias key name, message. -/
opaque mldsaSign : BitVec 256 → List Byte → List Byte
/-- The seed that the unclonable function gives, corrected with the helper data (R421); none when derivation fails. -/
opaque pufSeed : Option (BitVec 256)
/-- The alias key derived from the identity key and `MEAS1` to `MEAS3` (R421). -/
opaque aliasKey : BitVec 256 → BitVec 512 → BitVec 512 → BitVec 512 → BitVec 256
/-- The first 32 bytes of the digest of the identity public key (R432), from the seed. -/
opaque identityDigest : BitVec 256 → BitVec 256
/-- The certificate chain of slot 0 (R426): identity key name, alias key name. -/
opaque certChain : BitVec 256 → BitVec 256 → List Byte
/-- The SPDM wire form that R426 takes from SPDM 1.3: response code, request, body. -/
opaque spdmFrame : Nat → List Byte → List Byte → List Byte
/-- The box into which a collective's sender cuts its tensor next (R336): send number, elements left. -/
opaque shardCut : Nat → Nat → Nat
/-- The order in which the elements of a reduction reach memory (R92), as a permutation seed by the counter. -/
opaque reduceOrder : Nat → Nat → Nat
/-- The result of a group sum whose value no rule states (the manual leaves the operand open). -/
opaque unstated : Nat → BitVec 32
/-- Array class, instance and row by which Vorlos names an SRAM row (R431): the array's number, and the 64-byte group in it. -/
opaque sramRow : Nat → Nat → BitVec 32
/-- How many bytes of a faulting instance's writes were made before the fault (R112), by the free-value counter. -/
opaque landed : Nat → Nat

/-- Whether the turns of TRANSPOSE01 go across dimension 0 before dimension 1 (R162, which states no order). -/
opaque turnsAcross : Bool

/-- A free choice among things the manual leaves to the device (which free cores a packet gets, R344; how many bytes a
frame's messages take), by the free-value counter. -/
opaque pick : Nat → Nat
/-- Where in a reserved area the firmware places an allocation (R168, R348), in units of its alignment, by the
free-value counter. -/
opaque area : Nat → Nat

/-- What this device holds to be the page size, less 4, and the head dimension, as the log2 of its multiple of 64, of a sequence of a
peer (R275): the packet's `PEER` and `SEQ`. -/
opaque farSeq : Nat → Nat → Fin 7 × Fin 3
/-- The UCIe module, among those in use, that takes the first host request (R363: requests are distributed over them in turn). -/
opaque firstModule : Nat
/-- Whether the host-line directory is full as a line is recorded, and which of its entries then makes room (R368: the manual
gives neither its size nor the choice), by the free-value counter. -/
opaque dirVictim : Nat → Option Nat
/-- Whether an array class of R431 is a parity array of a bank unit; Vorlos defines the classes. -/
opaque unitClass : Byte → Bool
/-- The lane that a repair of a UCIe module takes out (R427, R431), by the free-value counter, the module and the repair. -/
opaque ucieLane : Nat → Nat → Nat → Byte
/-- Whether a flash copy written at run time reads back well (R434, R436), by the free-value counter. -/
opaque flashOk : Nat → Bool
/-- The power that the governor computes of a compute die (R451), in units of 0.01 W, from its current and voltage
channels; the manual does not give the computation. -/
opaque diePower : List (BitVec 16) → List (BitVec 16) → Nat

end Sys2Proof.Config
end

