-- ==== Sys2Proof/Machine/Bits.lean ====
section
/-! DEFINITION. Bytes, bit fields, packet fields and the CRC: the small helpers that every other file uses. All
multi-byte fields are little-endian (R10). -/

namespace Sys2Proof.Machine

/-- The number that bytes hold, least significant byte first (R10). -/
def leNat : List Byte → Nat
  | [] => 0
  | b :: bs => b.toNat + 256 * leNat bs

/-- The `w` bytes of a number, least significant byte first (R10). -/
def leBytes : Nat → Nat → List Byte
  | 0, _ => []
  | w + 1, n => BitVec.ofNat 8 n :: leBytes w (n / 256)

/-- Bits [hi:lo] of a number, both ends included (R10). -/
def bits (n hi lo : Nat) : Nat := (n / 2 ^ lo) % 2 ^ (hi + 1 - lo)

/-- Bit `k` of a number. -/
def bit (n k : Nat) : Bool := (n / 2 ^ k) % 2 = 1

/-- The field of `w` bytes at byte offset `o` of a packet (R376, R377). -/
def pf (k : Packet) (o w : Nat) : Nat := (k.toNat / 2 ^ (8 * o)) % 2 ^ (8 * w)

/-- The field of `w` bytes at byte offset `o` of a byte list. -/
def lf (l : List Byte) (o w : Nat) : Nat := leNat ((l.drop o).take w)

/-- A signed reading of the low `w` bits. -/
def signed (w n : Nat) : Int := (BitVec.ofNat w n).toInt

/-- A bit as 0 or 1. -/
def b2n (b : Bool) : Nat := if b then 1 else 0

/-- One step of CRC-32C over one bit, reflected polynomial 0x82F6_3B78 (the name CRC-32C is R181's; the polynomial is
the standard's, log 15). -/
def crcBit (r : BitVec 32) : BitVec 32 :=
  if r.getLsbD 0 then (r >>> 1) ^^^ 0x82F63B78#32 else r >>> 1

/-- One byte of CRC-32C. -/
def crcByte (r : BitVec 32) (b : Byte) : BitVec 32 :=
  crcBit (crcBit (crcBit (crcBit (crcBit (crcBit (crcBit (crcBit (r ^^^ b.zeroExtend 32))))))))

/-- CRC-32C of a byte string (R181, R315, R329, R432). -/
def crc32c (l : List Byte) : BitVec 32 := ~~~ (l.foldl crcByte 0xFFFFFFFF#32)

/-- Ceiling division. -/
def cdiv (a b : Nat) : Nat := (a + b - 1) / b

/-- A counter that stays at its largest value once it reaches it. -/
def satAdd {w : Nat} (c : BitVec w) (n : Nat) : BitVec w :=
  if c.toNat + n < 2 ^ w then BitVec.ofNat w (c.toNat + n) else BitVec.allOnes w

/-- The lowest number of a list, if any. -/
def lowest : List Nat → Option Nat
  | [] => none
  | n :: ns => match lowest ns with
    | none => some n
    | some m => some (min n m)

/-- The first failing check's offset (R378): each check is an offset and whether it fails. -/
def firstBad (checks : List (Nat × Bool)) : Option Nat :=
  lowest ((checks.filter (fun c => c.2)).map Prod.fst)

/-- Replace the element at a position. -/
def setNth {α : Type} : List α → Nat → α → List α
  | [], _, _ => []
  | _ :: t, 0, v => v :: t
  | h :: t, n + 1, v => h :: setNth t n v

/-- Remove the element at a position. -/
def delNth {α : Type} : List α → Nat → List α
  | [], _ => []
  | _ :: t, 0 => t
  | h :: t, n + 1 => h :: delNth t n

/-- The `w` bits at bit offset `o` of bytes packed from the least significant bit upward (R116). -/
def bitsAt (l : List Byte) (o w : Nat) : Nat := (leNat ((l.drop (o / 8)).take (cdiv (o % 8 + w) 8)) / 2 ^ (o % 8)) % 2 ^ w

/-- Pack elements of `w` bits from the least significant bit upward, into whole bytes (R116). -/
def packBits (w : Nat) (es : List Nat) : List Byte :=
  leBytes (cdiv (w * es.length) 8) (es.foldr (fun e acc => e % 2 ^ w + 2 ^ w * acc) 0)

/-- The elements of `w` bits in bytes packed from the least significant bit upward (R116). -/
def unpackBits (w n : Nat) (l : List Byte) : List Nat :=
  (List.range n).map (fun k => bitsAt l (k * w) w)

/-- Lists of a given length from `start`. -/
def chunks {α : Type} (n : Nat) : Nat → List α → List (List α)
  | 0, _ => []
  | k + 1, l => if l.isEmpty then [] else l.take n :: chunks n k (l.drop n)

end Sys2Proof.Machine
end

