-- ==== Sys2Proof/Machine/Table.lean ====
section
/-! DEFINITION. Reading and writing sparse tables: the one way in which the model reads or writes anything of which
the device has many (bytes of memory, registers of a file, cores, links, stacks, queues). -/

namespace Sys2Proof

/-- The value at key `k`; `d` where nothing is listed. -/
def Tbl.get {α : Type} (d : α) : Tbl α → Nat → α
  | [], _ => d
  | (k', v) :: t, k => if k' = k then v else Tbl.get d t k

/-- Insert an entry before the first larger key, replacing an entry of the same key. -/
def Tbl.ins {α : Type} (k : Nat) (v : α) : Tbl α → Tbl α
  | [] => [(k, v)]
  | (k', v') :: t =>
    if k < k' then (k, v) :: (k', v') :: t
    else if k = k' then (k, v) :: t
    else (k', v') :: Tbl.ins k v t

/-- Remove the entry of a key. -/
def Tbl.del {α : Type} (k : Nat) : Tbl α → Tbl α
  | [] => []
  | (k', v') :: t => if k' = k then Tbl.del k t else (k', v') :: Tbl.del k t

/-- Write `v` at key `k`; writing the default removes the entry, so equal contents are equal lists. -/
def Tbl.set {α : Type} [DecidableEq α] (d : α) (t : Tbl α) (k : Nat) (v : α) : Tbl α :=
  if v = d then Tbl.del k t else Tbl.ins k v (Tbl.del k t)

/-- The keys rise strictly from `lo` on and no entry equals the default. -/
def Tbl.wfFrom {α : Type} [DecidableEq α] (d : α) : Nat → Tbl α → Bool
  | _, [] => true
  | lo, (k, v) :: t => decide (lo ≤ k) && decide (v ≠ d) && Tbl.wfFrom d (k + 1) t

/-- The canonical form of a table. -/
def Tbl.wf {α : Type} [DecidableEq α] (d : α) (t : Tbl α) : Bool := Tbl.wfFrom d 0 t

/-- Write the bytes (or other values) of a list at consecutive keys from `k`. -/
def Tbl.setMany {α : Type} [DecidableEq α] (d : α) (t : Tbl α) (k : Nat) : List α → Tbl α
  | [] => t
  | v :: vs => Tbl.setMany d (Tbl.set d t k v) (k + 1) vs

/-- The `n` values at consecutive keys from `k`. -/
def Tbl.getMany {α : Type} (d : α) (t : Tbl α) (k : Nat) : Nat → List α
  | 0 => []
  | n + 1 => Tbl.get d t k :: Tbl.getMany d t (k + 1) n

/-- Drop every entry whose key lies in `lo` to `hi - 1`. -/
def Tbl.clear {α : Type} (t : Tbl α) (lo hi : Nat) : Tbl α :=
  t.filter (fun e => e.1 < lo || hi ≤ e.1)

end Sys2Proof
end

