-- ==== Sys2Proof/Machine/State.lean ====
section
/-! DEFINITION. The state of DN-OX12 as plain data, and the state after reset. Every field names the rule that gives
it; everything of which the device has many is a sparse table keyed by its number. -/

namespace Sys2Proof.Machine

/-! ### Cores -/

/-- The register files whose writes take time to land (R49, R60, R61), numbered as `FILE` of `CO_HALT_INFO`. -/
inductive RegFile where
  | a | x | j | i | bind | mtag
  deriving DecidableEq, Repr

/-- A register write in flight (R60): it lands when `left` core cycles have ended; `slot` orders writes that land
together (R61). A binding is register `4 × A + level`. -/
structure RegWrite where
  file : RegFile
  idx : Nat
  val : BitVec 48
  slot : Nat
  left : Nat
  deriving DecidableEq, Repr

/-- A macro-operation as its bundle issued it (R57, R71, R80): the slot word, the tags, the repeat counts, the base and
increments of each operand address register, the scalar registers it names, and the descriptor copy. -/
structure MacroOp where
  /-- its number among the operations of the share, the model's own -/
  num : Nat
  word : BitVec 64
  pc : BitVec 16
  wtag : Word
  mtag : BitVec 16
  reps : List Nat
  base : List Addr
  incs : List (List Addr)
  xs : List Word
  desc : List Byte
  next : Nat
  waited : Bool
  deriving DecidableEq, Repr

/-- Where a running instance stands: running; registered or waiting at a home, a peer or the host; its home operation or
reply done; parked on poison (R399); cut (R113). -/
inductive InstSt where
  | running | waiting | ready | parked | cut
  deriving DecidableEq, Repr

/-- A running instance of a macro-operation (R112, R114): its operation, its index, its progress at the last cut, the
old value or status that its home returned, and the routing words of R160. -/
structure Inst where
  /-- the lowest number that no running instance of the core has when it starts -/
  id : Nat
  eng : Engine
  op : MacroOp
  n : Nat
  st : InstSt
  progress : Nat
  ret : DWord
  route : List Byte
  /-- bytes that replies from a peer have brought, by device address there, with the Datums that came with them (R330); of a local
  read that was cut, the bytes read that later parts name again (R147) -/
  buf : Tbl Byte
  rdats : List (Nat × Nat)
  /-- core cycles that a `WAIT` or `SEMTAKE` has waited, R68 -/
  held : Nat
  deriving DecidableEq, Repr

/-- The share a core runs (R44, R344): queue and index of its packet (with its place in a lane of a `STEP`), its context,
its index among the packet's cores and their number. -/
structure Share where
  q : Nat
  i : Word
  lane : Nat
  laneIdx : Nat
  ctx : Fin 16
  index : Nat
  count : Nat
  /-- times that the share has been replayed, R413 -/
  replays : Nat
  /-- the halt reason that makes a failed share be replayed, for `WORK_REPLAYED` (R389, R413) -/
  cause : BitVec 8
  deriving DecidableEq, Repr

/-- A running instance of a share that has been stopped: it goes on to its next cut point (R69 step 3, R113; that it
signals nothing there is DEDUCED, log 90). -/
structure Stopped where
  share : Share
  inst : Inst
  deriving DecidableEq, Repr

/-- What holds the issue unit (R62, R68): the token and count that a `WAITT` awaits, or a full queue (token 0xFF), and
the core cycles held so far. -/
structure Hold where
  tok : Nat
  want : Nat
  cycles : Nat
  deriving DecidableEq, Repr

/-- `STATE` of `CO_STATUS`; PARKED is read while an instance of a running core is parked (R399). -/
inductive CoreSt where
  | idle | running | halted
  deriving DecidableEq, Repr

/-- A physical core (R16, R49). -/
structure Core where
  a : Tbl Addr
  x : Tbl Word
  j : Tbl (BitVec 16)
  i : Tbl Word
  bind : Tbl (BitVec 6)
  tok : Tbl Nat
  mtag : BitVec 16
  wtag : Word
  /-- byte address of the next bundle; 65,536 once issue has run off the end, R48 -/
  pc : BitVec 17
  prog : Tbl Byte
  sp : Tbl Byte
  acc : Tbl Byte
  /-- error pattern of each stored SP word, R393 -/
  spErr : Tbl (BitVec 39)
  /-- bytes whose parity bit disagrees, R393 -/
  accBad : Tbl Bool
  progBad : Tbl Bool
  /-- by `regKey`: file, register and byte, R43 -/
  regBad : Tbl Bool
  inflight : List RegWrite
  /-- the bundle that issued in this core cycle, its slots that have taken effect, its descriptor copy, its address -/
  cur : Option Bundle
  curDone : BitVec 6
  curDesc : List Byte
  curPc : BitVec 16
  /-- core cycles still to pass after a taken branch, R51 -/
  idle : Nat
  hold : Option Hold
  ended : Bool
  /-- the step of R66 that the token tests of this core cycle have reached: 0 signals, 1 the `WAITT`, 2 to 4 the DMA, MAT
  and VEC queues -/
  tokPhase : Nat
  /-- macro-operations issued by the share, the model's own -/
  issued : Nat
  dmaQ : List MacroOp
  matQ : List MacroOp
  vecQ : List MacroOp
  runs : List Inst
  /-- instances of shares that have been stopped, still on their way to a cut point -/
  stopping : List Stopped
  st : CoreSt
  spare : Bool
  retired : Bool
  /-- hk counts of the parity faults inside the window of R406 -/
  parFaults : List (BitVec 48)
  hazEn : Bool
  waitLimit : BitVec 24
  hReason : BitVec 8
  hSlot : BitVec 3
  hMore : Bool
  hReg : BitVec 6
  hFile : BitVec 3
  hLevel : BitVec 2
  hPc : BitVec 16
  hWtag : Word
  hMtag : BitVec 16
  hAddr : Addr
  hIdx : DWord
  stalls : Word
  spLive : BitVec 32
  accLive : BitVec 4
  share : Option Share
  /-- whose data SP and ACC last held, R345 -/
  lastCtx : Option Nat
  /-- the clock of the ME, of the VE is gated, R24 -/
  gateMe : Bool
  gateVe : Bool
  deriving DecidableEq, Repr

/-- A core at reset (R419, R441; register values DESIGN CHOICE, log 13; gates DESIGN CHOICE, log 12). -/
def Core.reset : Core where
  a := []
  x := []
  j := []
  i := []
  bind := []
  tok := []
  mtag := 0
  wtag := 0
  pc := 0
  prog := []
  sp := []
  acc := []
  spErr := []
  accBad := []
  progBad := []
  regBad := []
  inflight := []
  cur := none
  curDone := 0
  curDesc := []
  curPc := 0
  idle := 0
  hold := none
  ended := false
  tokPhase := 0
  issued := 0
  dmaQ := []
  matQ := []
  vecQ := []
  runs := []
  stopping := []
  st := .idle
  spare := false
  retired := false
  parFaults := []
  hazEn := false
  waitLimit := 0
  hReason := 0
  hSlot := 7
  hMore := false
  hReg := 0
  hFile := 0
  hLevel := 0
  hPc := 0
  hWtag := 0
  hMtag := 0
  hAddr := 0
  hIdx := 0
  stalls := 0
  spLive := 0
  accLive := 0
  share := none
  lastCtx := none
  gateMe := true
  gateVe := true

/-! ### Clusters -/

/-- The window of an arbiter (R196): the grants made in it, those of them that went to BULK and to BACKGROUND, and the requesting
port granted last (R197). -/
structure Arbiter where
  grants : Nat
  bulk : Nat
  bg : Nat
  port : Nat
  deriving DecidableEq, Repr

/-- An arbiter that has granted nothing (DESIGN CHOICE, log 95). -/
def Arbiter.reset : Arbiter := ⟨0, 0, 0, 0⟩

/-- A stream-cache copy of one 64-byte group (R277). -/
structure Copy where
  bytes : List Byte
  sharedRO : Bool
  deriving DecidableEq, Repr

/-- A cluster (R22): cycle count, the arbiter of its DMA engine, gates, stream cache, trace registers and buffer. -/
structure Cluster where
  cycle : BitVec 48
  arb : Arbiter
  /-- cores whose DMA queue holds a request, the oldest request first, R196 -/
  dmaOrder : List Nat
  gateDma : Bool
  gateTrav : Bool
  stream : Tbl (Option Copy)
  trEnable : Bool
  trMode : Bool
  trBundles : Bool
  trCores : BitVec 9
  trTypes : BitVec 16
  trNext : BitVec 13
  trWrapped : Bool
  /-- every record of the buffer has been written since `ENABLE` was last set -/
  trFull : Bool
  trLost : Word
  trSeq : BitVec 16
  trBuf : Tbl (BitVec 256)
  /-- records dropped since the last LOST record, R73, R74 -/
  trDropped : Nat
  /-- records accepted in this core cycle, R74 -/
  trThisCycle : Nat
  disabled : Bool
  deriving DecidableEq, Repr

/-- A cluster at reset. -/
def Cluster.reset : Cluster where
  cycle := 0
  arb := Arbiter.reset
  dmaOrder := []
  gateDma := true
  gateTrav := true
  stream := []
  trEnable := false
  trMode := false
  trBundles := false
  trCores := 0x1FF
  trTypes := 0xFFFF
  trNext := 0
  trWrapped := false
  trFull := false
  trLost := 0
  trSeq := 0
  trBuf := []
  trDropped := 0
  trThisCycle := 0
  disabled := false

/-! ### Regions, contexts, partitions -/

/-- `KIND` of a region (R174). -/
inductive RegionKind where
  | part | dev | bank | host
  deriving DecidableEq, Repr

/-- A valid region-table entry (R173, registers of 06). -/
structure Region where
  kind : RegionKind
  /-- page size 2 MiB -/
  big : Bool
  cacheable : Bool
  datum : Bool
  sharedRO : Bool
  ctxMask : BitVec 16
  dbase : Addr
  size : Word
  /-- PART-space offset of the page array, R176 -/
  parray : BitVec 40
  /-- PART-space offset of the Datum array, R181; 0 when not Datum-checked -/
  darray : BitVec 40
  /-- the partition in whose reserved area the Datum array lies: another one's for a shared DEV region, R181 -/
  dpart : Fin 4
  deriving DecidableEq, Repr

/-- `STATE` of `PS_CTX_STATE_c`, R341. -/
inductive CtxSt where
  | free | waiting | ready | restoring | running | saving | faulted
  deriving DecidableEq, Repr

/-- The saved state of one core of a context that is out (R347): the core as cut, with the SP and ACC bytes that the
live masks keep. -/
structure SavedCore where
  key : Nat
  /-- its slot in the save area as it was saved, R348 -/
  slot : Nat
  core : Core
  deriving DecidableEq, Repr

/-- The work of a bank unit that a cut took off it (R230): its program without the runs done, where it goes on, and the halves that
it had still to take. -/
structure SavedUnit where
  u : UnitId
  program : Tbl (Option Step)
  pc : BitVec 6
  loads : List (Bool × List Step)
  deriving DecidableEq, Repr

/-- A wave that a cut ended, to be formed again (R230). -/
structure SavedWave where
  s : Fin 12
  die : Fin 16
  units : List (Fin 68)
  writes : Bool
  deriving DecidableEq, Repr

/-- Who awaits a reply (R319, R326): a running instance, a packet, or the SPAN release of either. -/
structure Waiter where
  agent : HomeAgent
  part : Fin 4
  ctx : Fin 16
  lane : Nat
  laneIdx : Nat
  deriving DecidableEq, Repr

/-- A request sent to a peer whose reply is outstanding. -/
structure RemoteOp where
  tag : BitVec 16
  who : Waiter
  msg : Msg
  resend : Bool
  deriving DecidableEq, Repr

/-- A reply kept for a context that is out (R354): its link, the request that it answers, and its message. An `END` answers no
request. -/
structure Mail where
  link : Fin 48
  op : RemoteOp
  msg : Msg
  deriving DecidableEq, Repr

/-- A context of a partition (R338, R341). -/
structure Ctx where
  st : CtxSt
  deferred : Bool
  /-- the semaphores it holds, each by its place and the device address that took it, R351 -/
  held : List (Nat × Addr)
  /-- `SEMTAKE` operations registered and not yet granted, R351 -/
  takes : Nat
  suspend : Bool
  quantum : BitVec 24
  /-- quantum in force since it last became RUNNING -/
  quantumNow : BitVec 24
  live : Word
  save : BitVec 40
  switchCyc : Word
  saved : List SavedCore
  mail : List Mail
  /-- the work of its bank units, and their waves, while it is out, R230 -/
  units : List SavedUnit
  waves : List SavedWave
  deriving DecidableEq, Repr

/-- A FREE context (registers of 11). -/
def Ctx.reset : Ctx where
  st := .free
  deferred := false
  held := []
  takes := 0
  suspend := false
  quantum := 100000
  quantumNow := 100000
  live := 0
  save := 0
  switchCyc := 0
  saved := []
  mail := []
  units := []
  waves := []

/-- An area of a reserved area in use: save area, page array or Datum array (R168, R348). -/
structure Area where
  base : Nat
  size : Nat
  deriving DecidableEq, Repr

/-- `PLL_STATE` of `PS_CLK_STAT`, R27. -/
inductive PllSt where
  | running | stopping | stopped | starting
  deriving DecidableEq, Repr

/-- `PSTATE` of `PS_SCHED`, R340. -/
inductive PartSt where
  | off | running | stopping | stopped | faulted
  deriving DecidableEq, Repr

/-- A quarantined page (R269): its BANK place, its sequence and the generation its edit gave. -/
structure QuarPage where
  page : Nat
  seq : Nat
  gen : Word
  deriving DecidableEq, Repr

/-- A release flag that an edit has still to raise (R269). -/
structure RelFlag where
  seq : Nat
  gen : Word
  /-- place of the flag -/
  flag : Nat
  deriving DecidableEq, Repr

/-- A shared-cache line that is present (R186). -/
inductive LineSt where
  | absent | clean | dirty
  deriving DecidableEq, Repr

/-- A page that a translation cache holds (R177): the cache, 0 to 9 a cluster's and 10 the sequencer's; the context; the region
entry and the page of it. -/
structure CachedPage where
  cache : Nat
  ctx : Fin 16
  entry : Nat
  page : Nat
  deriving DecidableEq, Repr

/-- An arrival that is held until a partition's PLL has locked (R27): one that only wakes the partition, a host read or write with the
partition at whose base die it entered (R363), or a command that the HKC has for the partition's sequencer. -/
inductive Held where
  | event (a : ArrivalKind)
  | read (entry : Fin 4) (off n : Nat) (excl : Bool)
  | store (entry : Fin 4) (off : Nat) (data : List Byte) (poison excl : Bool)
  | command (k : Packet)
  deriving DecidableEq, Repr

/-- A partition (R22). -/
structure Part where
  pll : PllSt
  idleDelay : BitVec 20
  restarts : BitVec 16
  /-- arrivals held, oldest first, R27 -/
  heldArr : List Held
  /-- a PARTITION reset has begun and is not complete, R443 -/
  resetting : Bool
  thinMax : BitVec 4
  rowsPart : BitVec 5
  reserve : BitVec 8
  regions : Tbl (Option Region)
  allocs : List Area
  freeShare : Bool
  hits : DWord
  misses : DWord
  atomics : DWord
  lines : Tbl LineSt
  /-- pages that the translation caches hold, at most 1,024 in each, R177 -/
  xlat : List CachedPage
  /-- the arbiters at the inputs of the shared-cache slices, R196 -/
  arbs : Tbl Arbiter
  st : PartSt
  cur : Option (Fin 16)
  /-- every engine of the context that is SAVING has cut and drained, R349 -/
  cut : Bool
  lastRun : Fin 16
  /-- the queues that the sequencer has visited in this turn, R343 (what a turn is: DEDUCED, log 92) -/
  turn : List Nat
  yieldHk : BitVec 16
  switches : DWord
  holdBudget : BitVec 24
  wdEn : Bool
  wdPeriod : Word
  wdArmed : Bool
  wdReports : BitVec 16
  wdCount : Word
  ctxs : Tbl Ctx
  repairMs : BitVec 16
  expired : BitVec 16
  disjoint : BitVec 16
  replays : DWord
  seqFirst : BitVec 14
  seqCount : BitVec 15
  poolBase : BitVec 40
  poolSize : BitVec 16
  quar : List QuarPage
  quarPeak : BitVec 13
  kvMisses : DWord
  relFlags : List RelFlag
  /-- page-serve requests queued, with the link each came over, R334 -/
  serveQ : List (Nat × Nat × List Byte)
  deriving DecidableEq, Repr

/-- A partition at reset (register maps of 01, 06, 08, 11, 13). -/
def Part.reset : Part where
  pll := .running
  idleDelay := 5000
  restarts := 0
  heldArr := []
  resetting := false
  thinMax := 8
  rowsPart := 0
  reserve := 0
  regions := []
  allocs := []
  freeShare := false
  hits := 0
  misses := 0
  atomics := 0
  lines := []
  xlat := []
  arbs := []
  st := .off
  cur := none
  cut := false
  lastRun := 15
  turn := []
  yieldHk := 2500
  switches := 0
  holdBudget := 10000
  wdEn := true
  wdPeriod := 500000
  wdArmed := true
  wdReports := 0
  wdCount := 0
  ctxs := []
  repairMs := 50
  expired := 0
  disjoint := 0
  replays := 0
  seqFirst := 0
  seqCount := 0
  poolBase := 0
  poolSize := 0
  quar := []
  quarPeak := 0
  kvMisses := 0
  relFlags := []
  serveQ := []

/-! ### Links -/

/-- `STATE` of `LK_STATUS`, R311. -/
inductive LinkSt where
  | disabled | detect | train | align | identify | active | retrain | miswired
  deriving DecidableEq, Repr

/-- `LK_GRANT_c` (R321, R322). -/
structure Grant where
  en : Bool
  far : BitVec 4
  deriving DecidableEq, Repr

/-- A frame in the retry buffer (R315): its sequence number, its bytes as they went out, and the messages that begin in it;
`parityBad` is the parity of R316. -/
structure TxFrame where
  seq : BitVec 12
  frame : Frame
  msgs : List Msg
  parityBad : Bool
  deriving DecidableEq, Repr

/-- A link (R309 to R323). -/
structure Link where
  enable : Bool
  halfOk : Bool
  precode : Bool
  st : LinkSt
  width : BitVec 2
  swapped : Bool
  rxpol : BitVec 2
  guarded : Bool
  spareIn : Bool
  spareLane : BitVec 3
  sparePos : Bool
  retrains : BitVec 16
  expDev : BitVec 12
  expLink : BitVec 6
  expAny : Bool
  peerDev : BitVec 12
  peerLink : BitVec 6
  peerInc : Word
  /-- the peer's end says that a spare lane guards the link, R312 -/
  peerGuards : Bool
  /-- the `IDENT` message that this end sends in IDENTIFY, R9, R312 -/
  sentIdent : Option Msg
  delay : BitVec 16
  laneLimit : BitVec 16
  grants : Tbl Grant
  fecCw : DWord
  fecSym : DWord
  fecUnc : DWord
  replays : Word
  refused : Word
  /-- lanes retired, R314 -/
  retired : BitVec 2
  /-- losses of codeword lock in this window, for each lane -/
  lockLoss : Nat × Nat
  /-- the peer last accepted: device, link, incarnation; none before the first contact, R311 (DEDUCED, log 102) -/
  met : Option (BitVec 12 × BitVec 6 × Word)
  downRaised : Bool
  misRaised : Option (BitVec 18)
  txSeq : BitVec 12
  retry : List TxFrame
  txQ : List Msg
  credReq : Nat
  credRsp : Nat
  credBulk : Nat
  credCtl : Nat
  /-- message units sent since a BULK message began to wait, and those of them that were BULK, R318 -/
  sentAll : Nat
  sentBulk : Nat
  rxSeq : BitVec 12
  /-- frames are being discarded until the expected one arrives, R315 -/
  nak : Bool
  /-- `ACK` and `NAK` of the last header sent, R315 -/
  told : BitVec 12 × Bool
  /-- the last IDLE frame sent, R315 -/
  idle : Option Frame
  retReq : Nat
  retRsp : Nat
  retBulk : Nat
  retCtl : Nat
  rspRes : Nat
  rx : List Msg
  /-- messages of `rx` that this end has accepted and acknowledged and has still to perform, R279, R322 (DEDUCED, log 100) -/
  landed : List Msg
  ops : List RemoteOp
  nextTag : BitVec 16
  /-- drain markers out, with who awaits them, R282 -/
  drains : List Waiter
  /-- messages of a Contour chunk received so far, R333 -/
  chunk : List Msg
  /-- who has sent a write over the link that no SPAN release has drained (R282): the core (360 for a packet) and its
  queue -/
  undrained : List (Nat × Nat)
  /-- requests that await room on the RSP receive buffer, R319 -/
  reqWait : List RemoteOp
  /-- bytes of a message received so far, R324 -/
  rxPart : List Byte
  deriving DecidableEq, Repr

/-- A link at reset (register map of 10; credits at the buffer sizes of R318; the rest log 14). -/
def Link.reset : Link where
  enable := false
  halfOk := true
  precode := false
  st := .disabled
  width := 0
  swapped := false
  rxpol := 0
  guarded := false
  spareIn := false
  spareLane := 0
  sparePos := false
  retrains := 0
  expDev := 0
  expLink := 0
  expAny := true
  peerDev := 0
  peerLink := 0
  peerInc := 0
  peerGuards := false
  sentIdent := none
  delay := 0
  laneLimit := 64
  grants := []
  fecCw := 0
  fecSym := 0
  fecUnc := 0
  replays := 0
  refused := 0
  retired := 0
  lockLoss := (0, 0)
  met := none
  downRaised := false
  misRaised := none
  txSeq := 0
  retry := []
  txQ := []
  credReq := 512
  credRsp := 4096
  credBulk := 4096
  credCtl := 128
  sentAll := 0
  sentBulk := 0
  rxSeq := 0
  nak := false
  told := (0xFFF, false)
  idle := none
  retReq := 0
  retRsp := 0
  retBulk := 0
  retCtl := 0
  rspRes := 0
  rx := []
  landed := []
  ops := []
  nextTag := 0
  drains := []
  chunk := []
  undrained := []
  reqWait := []
  rxPart := []

/-! ### Stacks -/

/-- `STATE` of `BU_STATE`. -/
inductive UnitSt where
  | idle | step | hold | bypassed | migrating | retired
  deriving DecidableEq, Repr

/-- A bank unit (R202). Register-file entries, scale buffer and accumulators as R202 sizes them; `outQ` is the output queue. -/
structure BankUnit where
  st : UnitSt
  /-- its clock is gated, R24 -/
  gate : Bool
  bank : Fin 2
  row : BitVec 14
  pc : BitVec 6
  ce : Word
  parity : Word
  program : Tbl (Option Step)
  regFile : Tbl (BitVec 512)
  scales : BitVec 4096
  acc : Tbl Word
  accPoison : Tbl Bool
  outQ : List Flit
  seq : BitVec 6
  inRun : Bool
  /-- the step that takes operand beats, how many it has taken, and the flits of the run still in its queue (R203, R211, R240) -/
  cur : Option Step
  beats : Nat
  emitted : Nat
  reruns : Nat
  /-- the step opened in the other bank while `cur` streams, R207 -/
  ahead : Option Step
  /-- halves of the program that arrived during a run, taken at the next run boundary, R204 -/
  loads : List (Bool × List Step)
  /-- reports of the run that have reached the stack engine, which uses them once the run has ended, R240 -/
  reports : List Nat
  /-- a run of its present program has begun, R235 -/
  begun : Bool
  /-- the last step of its wave that it opened, R216 -/
  waveStep : Nat
  /-- its place in the order in which units began to wait for their slot, R214 -/
  waited : Nat
  /-- bytes whose parity bit is wrong, by `parityKey`, R202 -/
  parBad : Tbl Bool
  /-- hk counts of the parity faults inside the window of R406 -/
  faults : List (BitVec 48)
  deriving DecidableEq, Repr

/-- A bank unit at reset (registers of 07). -/
def BankUnit.reset : BankUnit where
  st := .idle
  gate := true
  bank := 0
  row := 0
  pc := 0
  ce := 0
  parity := 0
  program := []
  regFile := []
  scales := 0
  acc := []
  accPoison := []
  outQ := []
  seq := 0
  inRun := false
  cur := none
  beats := 0
  emitted := 0
  reruns := 0
  ahead := none
  loads := []
  reports := []
  begun := false
  waveStep := 0
  waited := 0
  parBad := []
  faults := []

/-- A ledger entry (`SE_LEDGER_e`). -/
structure LedgerEntry where
  die : BitVec 4
  unit : BitVec 7
  bank : Fin 2
  row : BitVec 14
  column : BitVec 6
  word : BitVec 3
  count : BitVec 4
  deriving DecidableEq, Repr

/-- The stack commands of R220. -/
inductive StackKind where
  | gemv | attend | append | requant | gather
  deriving DecidableEq, Repr

/-- How a stack command stands: queued or running; reported `OK`, `RECOMPUTE_NEEDED` or `FAILED`; parked (R399). -/
inductive CmdSt where
  | queued | running | parked | cut
  deriving DecidableEq, Repr

/-- A stack command in a stack engine (R217, R220): what it is, its packet and its group (`ATTEND_D`). -/
structure StackCmd where
  kind : StackKind
  q : Nat
  i : Word
  lane : Nat
  laneIdx : Nat
  g : Nat
  st : CmdSt
  /-- runs done before the last cut: weight rows, appended rows, blocks of 4 KiB, or pages, R230 -/
  done : Nat
  deriving DecidableEq, Repr

/-- A wave (R216): the units of a die that run one phase of a command; whether it is the WRITE phase; `MODE` and `SE_SLOT_OFF_d` as
sampled at its start (R215); the number of its last step; whether refreshes hold it (R233). -/
structure Wave where
  die : Fin 16
  units : List (Fin 68)
  writes : Bool
  mode : BitVec 2
  off : DWord
  step : Nat
  held : Bool
  deriving DecidableEq, Repr

/-- A compute slot in use (R213, R214): its die, the slot map, its number. -/
structure SlotUse where
  die : Fin 16
  mode : BitVec 2
  n : Nat
  deriving DecidableEq, Repr

/-- A spare pair of a die (`SE_SPARE_d`): in use, failed, the unit whose pair it replaced. -/
structure SparePair where
  inUse : Bool
  failed : Bool
  replaced : BitVec 6
  deriving DecidableEq, Repr

/-- A counting entry (R406, R407): what it counts and the hk counts of its events inside the window, oldest first. -/
structure FaultCnt where
  key : Nat
  times : List (BitVec 48)
  deriving DecidableEq, Repr

/-- A live row remap (R408): the row, its spare row, and whether the copy has completed. -/
structure Remap where
  row : RowId
  spare : Nat
  done : Bool
  deriving DecidableEq, Repr

/-- A stack (R165, R217; registers of 06, 07, 13). -/
structure Stack where
  /-- bit n: the clock of vector core n of the stack engine is gated, R24 -/
  gates : BitVec 4
  /-- the SRAM and its error patterns, by byte and by word, R217 -/
  sram : Tbl Byte
  sramErr : Tbl (BitVec 39)
  /-- the waves that run, R216 -/
  waves : List Wave
  /-- the slots that compute, in the order in which they began, R214 -/
  slots : List SlotUse
  /-- counts the times that a unit began to wait for its slot, R214 -/
  turnNo : Nat
  picks : DWord
  rdBytes : DWord
  wrBytes : DWord
  queue : List StackCmd
  limit : BitVec 7
  slotMode : BitVec 2
  slotOff : Tbl DWord
  double : Bool
  refPeak : BitVec 4
  refHolds : BitVec 16
  /-- refreshes postponed, for each bank, key 32 × pseudo-channel + bank, R233 -/
  postponed : Tbl Nat
  ledger : Tbl (Option LedgerEntry)
  ledgerLost : Word
  proxyRuns : DWord
  unitFail : Tbl DWord
  spares : Tbl SparePair
  /-- pairs served in proxy mode, key 64 × die + pair, R241 -/
  proxied : Tbl Bool
  /-- pairs being copied to a spare, key 64 × die + pair, R242 -/
  migrating : Tbl Bool
  passHours : BitVec 8
  scrubEn : Bool
  /-- rows visited in the current pass, by number -/
  visited : List Nat
  passes : BitVec 16
  ceCount : DWord
  ueCount : Word
  remapLive : BitVec 16
  remapPending : BitVec 16
  remaps : List Remap
  /-- rows that stay in use until the next start, R408 -/
  pendingRows : List RowId
  /-- spare rows of each bank in use since the last start -/
  spareRows : Tbl Nat
  rowCnt : List FaultCnt
  laneCnt : List FaultCnt
  units : Tbl BankUnit
  deriving DecidableEq, Repr

/-- A spare pair that serves nothing. -/
def SparePair.reset : SparePair := ⟨false, false, 0⟩

/-- A stack at reset (registers of 06, 07, 13). -/
def Stack.reset : Stack where
  gates := 15
  sram := []
  sramErr := []
  waves := []
  slots := []
  turnNo := 0
  picks := 0
  rdBytes := 0
  wrBytes := 0
  queue := []
  limit := 32
  slotMode := 1
  slotOff := []
  double := false
  refPeak := 0
  refHolds := 0
  postponed := []
  ledger := []
  ledgerLost := 0
  proxyRuns := 0
  unitFail := []
  spares := []
  proxied := []
  migrating := []
  passHours := 24
  scrubEn := true
  visited := []
  passes := 0
  ceCount := 0
  ueCount := 0
  remapLive := 0
  remapPending := 0
  remaps := []
  pendingRows := []
  spareRows := []
  rowCnt := []
  laneCnt := []
  units := []

/-! ### Host interface, queues, packets -/

/-- `STATE` of `HI_STATUS`. -/
inductive DevSt where
  | starting | ready | faulted | resetting
  deriving DecidableEq, Repr

/-- The `HI_` registers (12) and the management queue. -/
structure HostIf where
  st : DevSt
  err : BitVec 3
  mcqBase : DWord
  mcqLog2n : BitVec 4
  mcqEnable : Bool
  mcqIrq : Bool
  mcqTail : Word
  mcqHead : Word
  mcqHeadWb : DWord
  mcqTaken : Word
  /-- the command at `HEAD` is held for a partition's sequencer whose PLL does not run, R26, R27 -/
  mcqWait : Bool
  /-- `CMD_TAG` of the management command under way, R377; 0 between commands -/
  cmdTag : Word
  dbErrors : Word
  modules : BitVec 4
  /-- host requests that the modules have taken in turn, R363 -/
  entries : Nat
  /-- host requests that wait for answers to back-invalidations, oldest first, R368 -/
  waiting : List Held
  rate : BitVec 2
  repairs : BitVec 16
  deriving DecidableEq, Repr

/-- An event queue (`EV_` registers of 12). `pend` counts pending events since the last interrupt, `lost` the records
dropped since the last `EVQ_OVERFLOW`, `kept` whether one fills the kept slot (R387, R391). -/
structure EvQ where
  base : DWord
  log2n : BitVec 5
  enable : Bool
  irqEn : Bool
  count : BitVec 8
  timer : BitVec 16
  prod : Word
  cons : Word
  prodWb : DWord
  overflow : Bool
  dropped : Word
  pend : Nat
  lost : Nat
  kept : Bool
  deriving DecidableEq, Repr

/-- An event queue at reset. -/
def EvQ.reset : EvQ where
  base := 0
  log2n := 6
  enable := false
  irqEn := false
  count := 1
  timer := 0
  prod := 0
  cons := 0
  prodWb := 0
  overflow := false
  dropped := 0
  pend := 0
  lost := 0
  kept := false

/-- An event record before it has its sequence number and hk count (R388): the work queue it concerns, the type, the
severity, the class and the fields by type. -/
structure Event where
  evq : Nat
  type : BitVec 8
  sev : BitVec 2
  cls : BitVec 3
  locmask : BitVec 8
  loc : List (BitVec 8)
  wtag : Word
  mtag : BitVec 16
  reason : Word
  addr : Addr
  detail : BitVec 128
  /-- a packet cannot complete without it, so that it waits for room, R387 -/
  work : Bool
  deriving DecidableEq, Repr

/-- An MSI-X vector (R390). -/
structure MsixVec where
  addr : DWord
  data : Word
  masked : Bool
  deriving DecidableEq, Repr

/-- A device write or interrupt on its way to the host (R365, R375, R391). -/
inductive HostReq where
  | write (addr : Nat) (bytes : List Byte)
  | irq (v : Nat)
  deriving DecidableEq, Repr

/-- A work queue (R374, R376, R380). -/
structure WorkQ where
  part : Fin 4
  ctx : Fin 16
  evq : Fin 8
  base : Nat
  log2n : Nat
  headWb : Nat
  head : Word
  tail : Word
  taken : Word
  deriving DecidableEq, Repr

/-- The fields of a sequence descriptor (R245) that are kept; `QUAR` and `INFLIGHT` are counted from the quarantine and the
packets when the descriptor is read. -/
structure SeqDesc where
  st : BitVec 2
  pageLog2 : BitVec 8
  ngroup : BitVec 8
  dcode : BitVec 8
  ctx : BitVec 4
  ndir : BitVec 16
  gen : Word
  length : Word
  table : BitVec 40
  deriving DecidableEq, Repr

/-- A FREE descriptor (R245, R419). -/
def SeqDesc.reset : SeqDesc := ⟨0, 0, 0, 0, 0, 0, 0, 0, 0⟩

/-- Which row of the work-packet table a packet is (R382). -/
inductive PktKind where
  | run | linear | attend | attendBwd | appendKv | step | copy | collective | flagSet | flagWait | fence | nop
  | edit (op : Nat) | pageServe | serveReq
  deriving DecidableEq, Repr

/-- Status codes (R385). -/
inductive Status where
  | ok | badOpcode | badParam | wrongState | busy | denied | noResource | failed | recompute
  deriving DecidableEq, Repr

/-- A packet that has been taken and has not completed (R343): its place, its words, its captures at placement (R268),
where it was placed (R200), what it still awaits and how it will end. -/
structure Pkt where
  q : Nat
  i : Word
  part : Fin 4
  ctx : Fin 16
  kind : PktKind
  pkt : Packet
  wtag : Word
  /-- a lane of a `STEP`: 0 none, 1 thick, 2 thin, and the index in its list, R357 -/
  lane : Nat
  laneIdx : Nat
  /-- held and not yet started (R263, R267, R343, R344) -/
  started : Bool
  /-- its reply has been written, and `HEAD` has not passed it, R375 -/
  done : Bool
  /-- placed in the stacks (R198, R199) -/
  inStacks : Bool
  /-- cores that its shares run on, in index order -/
  cores : List CoreId
  sharesLeft : Nat
  /-- stack commands still to complete, and those of them that no stack engine has been given yet, each by its number:
  16 × group (or 0) + stack -/
  cmdsLeft : Nat
  plan : List Nat
  gen : Word
  length : Word
  seq : Option Nat
  /-- argument block, descriptor, lists read when the packet was taken (R382) -/
  args : List Byte
  /-- what the packet's own step has done (a flag met, a home operation, an edit, a request's ACK, collective ends) -/
  effect : Bool
  status : Status
  detail : Word
  /-- missing pages met (R271): spans as first, count, group, kind -/
  spans : List (Nat × Nat × Nat × Nat)
  replayable : Bool
  /-- a parked stack command or library program, R399 -/
  parked : Bool
  /-- for a `STEP`: packets of the thick and of the thin lane that have completed; the lanes that have added to the join
  flag, 1 thick and 2 thin (R358). For a page serve or a collective, `joined` is the stage it has reached (R274, R337) -/
  laneDone : Nat × Nat
  joined : Nat
  deriving DecidableEq, Repr

/-- What a registration awaits at a home slice (R297, R299). -/
inductive WaitFor where
  | flag (target : DWord)
  | sem
  deriving DecidableEq, Repr

/-- A registration at a home slice, oldest first (R297). -/
structure WaitReg where
  agent : HomeAgent
  part : Fin 4
  ctx : Fin 16
  /-- the packet's place in a lane of a `STEP`, when the agent is a packet -/
  lane : Nat
  laneIdx : Nat
  place : Nat
  addr : Addr
  what : WaitFor
  deriving DecidableEq, Repr

/-- What parks on poison in a SHARED_RO region (R399): an instance of a core, a stack command, a library program, or a
remote read served over a link. -/
inductive Parker where
  | inst (c : CoreId) (n : Nat)
  | cmd (s : Fin 12) (q : Nat) (i : Word) (lane laneIdx : Nat)
  | prog (q : Nat) (i : Word) (lane laneIdx : Nat)
  | read (l : Fin 48) (m : Msg)
  deriving DecidableEq, Repr

/-- A parked operation (R399 to R401): its partition and context, the 4 KiB block (by its BAR2 offset over 4,096), the
block's device address, and the work tag and event queue of its packet. -/
structure ParkedOp where
  part : Fin 4
  ctx : Fin 16
  who : Parker
  block : Nat
  addr : Addr
  wtag : Word
  evq : Nat
  deriving DecidableEq, Repr

/-- A running collective (R335 to R337). -/
structure Coll where
  part : Fin 4
  ctx : Fin 16
  id : BitVec 16
  q : Nat
  i : Word
  /-- links over which `END` is owed, one for each peer sent to (R337) -/
  endOut : List Nat
  /-- peers whose `END` has still to come, by device ID and link -/
  endIn : List (Nat × Nat)
  deriving DecidableEq, Repr

/-! ### Power, heat, housekeeping, trust -/

/-- The role and the split (R31 to R38). Allowances in units of 0.01 W for a whole side. -/
structure Power where
  role : BitVec 3
  override : Bool
  spill : Bool
  shareC : BitVec 7
  budget : BitVec 12
  curC : Nat
  curS : Nat
  /-- 0 settled; 1 the falling side is due; 2 the rising side is due (R38) -/
  phase : Nat
  deriving DecidableEq, Repr

/-- `STATE` of `TH_DOMAIN_d`. -/
inductive ThermSt where
  | normal | warn | throttled | tripped
  deriving DecidableEq, Repr

/-- A thermal domain (R454). `peak` is its highest step since the step was last 0 (R455). -/
structure Domain where
  st : ThermSt
  tstep : Nat
  peak : Nat
  pstep : Nat
  nbroken : Nat
  hot : BitVec 12
  deriving DecidableEq, Repr

/-- A domain at reset. -/
def Domain.reset : Domain := ⟨.normal, 0, 0, 0, 0, 0⟩

/-- A sensor as `TH_TEMP_n` shows it. -/
structure Sensor where
  temp : BitVec 12
  broken : Bool
  cause : BitVec 3
  deriving DecidableEq, Repr

/-- The thermal registers and settings (15). -/
structure Thermal where
  status : BitVec 4
  cmpWarn : BitVec 8
  cmpThrottle : BitVec 8
  dramThrottle : BitVec 8
  hyst : BitVec 4
  tripDomain : BitVec 4
  tripSensor : BitVec 9
  tripBroken : Bool
  tripSupply : Bool
  tripValid : Bool
  tripCount : BitVec 16
  domains : Tbl Domain
  temps : Tbl Sensor
  volts : Tbl (BitVec 16)
  currs : Tbl (BitVec 16)
  tripped : Bool
  deriving DecidableEq, Repr

/-- How a reset pin stands (R461, R462): released and armed; asserted; its reset has begun while still asserted; ignored
until it has read deasserted for 10 ms. -/
inductive PinSt where
  | armed | asserted | begun | ignored | stuck
  deriving DecidableEq, Repr

/-- The phases of a start (R416). -/
inductive Phase where
  | none | hkBoot | identity | image | verify | powerUp | memInit | test | cadastre | apply | configure | ready | failed
  deriving DecidableEq, Repr

/-- Housekeeping registers and the start's progress (13, 14, 15). -/
structure Hk where
  rowWindow : BitVec 16
  unitWindow : BitVec 16
  flips : Tbl (BitVec 64)
  fired : BitVec 16
  injection : Bool
  phase : Phase
  cold : Bool
  source : Bool
  slot : Bool
  cadPersist : Bool
  foreign : Bool
  failed : Bool
  slice : BitVec 4
  startTime : Word
  startHk : BitVec 48
  retention : Bool
  mtBusy : Bool
  mtRet : Bool
  mtProgress : BitVec 8
  mtFound : BitVec 16
  mtStacks : BitVec 12
  /-- `CMD_TAG` of the `MEMTEST_FULL` under way, R377 -/
  mtTag : Word
  orient : BitVec 2
  pins : Tbl (BitVec 2)
  sbFault : BitVec 17
  resetLevel : BitVec 3
  resetSource : BitVec 3
  coldPin : PinSt
  warmPin : PinSt
  /-- a cold reset by pin is held until the temperature condition alone is met, R457 -/
  coldHeld : Bool
  /-- enables EN_UCI, EN_BASE, EN_CMP, EN_STK, EN_LNK in bits 0 to 4 -/
  rails : BitVec 5
  /-- power-good PG_HK, PG_UCI, PG_BASE, PG_CMP, PG_STK, PG_LNK in bits 0 to 5 -/
  pg : BitVec 6
  /-- rails are going down, R447 -/
  down : Bool
  thermtrip : Bool
  /-- stacks whose base die failed its start test, R381, R429 -/
  badBases : BitVec 12
  deriving DecidableEq, Repr

/-- The trust block (R420 to R425). -/
structure Trust where
  identity : Bool
  ownerSigned : Bool
  aliased : Bool
  meas : Tbl (BitVec 512)
  idKey : BitVec 256
  aliasKey : BitVec 256
  deriving DecidableEq, Repr

/-- The SPDM responder (R426): one negotiated state for both transports, and the response last built. -/
structure Spdm where
  version : Bool
  caps : Bool
  algs : Bool
  response : List Byte
  deriving DecidableEq, Repr

/-- The image under way (R422 to R424): source 0 slot A, 1 slot B, 2 mailbox; bytes read or pushed so far; flash
contents. -/
structure Image where
  source : Nat
  bytes : List Byte
  retried : Bool
  deriving DecidableEq, Repr

/-- A Cadastre list with the fields of its header that are not computed (R432). -/
structure CadList where
  seq : Word
  startCount : Word
  nextSlice : BitVec 4
  ident : List Byte
  entries : List CadEntry
  deriving DecidableEq, Repr

/-- The Cadastre (R430 to R436). -/
structure Cad where
  list : CadList
  /-- entries found at run time since the last start, R433 step 2 -/
  runtime : List CadEntry
  /-- entries found by TEST -/
  tested : List CadEntry
  /-- the spare that each applied entry of a row, a lane or an SRAM row takes, by its number in the bank, channel or array, R433 step 5 -/
  assigned : List (CadEntry × Nat)
  flash0 : Option CadList
  flash1 : Option CadList
  kept : Option CadList
  deriving DecidableEq, Repr

/-- The list that no start has written yet. -/
def CadList.empty : CadList := ⟨0, 0, 0, [], []⟩

/-! ### The machine -/

/-- The state of the device. -/
structure State where
  /-- commands waiting, first in, first out -/
  pending : List Instr
  /-- free values drawn so far (the model's own, log 3) -/
  freeCtr : Nat
  hkCount : BitVec 48
  mem : Tbl Byte
  memErr : Tbl (BitVec 39)
  hostMem : Tbl Byte
  hostErr : Tbl Bool
  cxlOut : List HostReq
  irqSent : List Nat
  hi : HostIf
  evq : Tbl EvQ
  evSeq : DWord
  /-- records of packets that wait for room, with their numbers and hk counts, R375, R387 -/
  evLate : List (Event × DWord × BitVec 48)
  msix : Tbl MsixVec
  pba : BitVec 9
  wqs : Tbl (Option WorkQ)
  pkts : List Pkt
  pw : Power
  th : Thermal
  hk : Hk
  ta : Trust
  spdm : Spdm
  img : Image
  cad : Cad
  seqs : Tbl SeqDesc
  rowsDev : BitVec 5
  devId : BitVec 12
  stepping : Byte
  fwVer : Word
  waits : List WaitReg
  /-- lines the host may hold: 1 shared, 2 exclusive (R368) -/
  hostDir : Tbl Nat
  backInv : List Nat
  parked : List ParkedOp
  weightSeen : Tbl Bool
  colls : List Coll
  /-- data and poison returned for the last host read, and the outcome of the last snoop (R365, R370) -/
  hostRsp : Option (List Byte × Bool)
  /-- incarnation drawn at the last start, R312 -/
  inc : Word
  spareGuard : Tbl (Option Nat)
  /-- the image's repair window, which the HKC keeps and a PARTITION reset writes back, R441 -/
  repairImg : BitVec 16
  parts : Tbl Part
  clusters : Tbl Cluster
  cores : Tbl Core
  links : Tbl Link
  stks : Tbl Stack
  /-- SRAM row counting tables of each partition, R407 -/
  sramCnt : Tbl (List FaultCnt)
  deriving DecidableEq, Repr

/-- Why a step stops with a fault. -/
inductive Fault where
  /-- Raised by HOST_MEM_WRITE: a host write into a reserved area outside the page-table pools. R367: "What follows any
  other host write to the reserved area is not specified." Safe: the model stops. -/
  | reservedAreaWrite
  /-- Raised by HOST_MEM_READ and HOST_MEM_WRITE for an access beyond BAR2's 1 TiB, which the spec gives no place
  (R367). Safe: the model stops. -/
  | beyondBar2
  deriving DecidableEq, Repr

/-- Why a command has no meaning. -/
inductive Refusal where
  /-- A command whose meaning has not been written. Raised by refused arms of exec only. Safe. -/
  | notModelled (mnemonic : String)
  deriving DecidableEq, Repr

/-- The host interface at reset (registers of 12). -/
def HostIf.reset : HostIf where
  st := .starting
  err := 0
  mcqBase := 0
  mcqLog2n := 4
  mcqEnable := false
  mcqIrq := false
  mcqTail := 0
  mcqHead := 0
  mcqHeadWb := 0
  mcqTaken := 0
  mcqWait := false
  cmdTag := 0
  dbErrors := 0
  modules := 0
  entries := 0
  waiting := []
  rate := 0
  repairs := 0

/-- Power at reset: `PW_ROLE` 0x0C80_06E2 and `PW_ALLOC` 0x0154_0585, so MIX at the full budget (R32, R34). -/
def Power.reset : Power where
  role := 2
  override := false
  spill := false
  shareC := 55
  budget := 3200
  curC := 141350
  curS := 102000
  phase := 0

/-- Heat at reset: `TH_CFG` 0x035F_645F. -/
def Thermal.reset : Thermal where
  status := 0
  cmpWarn := 95
  cmpThrottle := 100
  dramThrottle := 95
  hyst := 3
  tripDomain := 0
  tripSensor := 0
  tripBroken := false
  tripSupply := false
  tripValid := false
  tripCount := 0
  domains := []
  temps := []
  volts := []
  currs := []
  tripped := false

/-- Housekeeping at reset: `HK_ERR_CFG` 0x0258_0E10, `HK_START` 0x0000_0010, `HK_RESET_STAT` 0x0000_0025; power-good
inputs DESIGN CHOICE, log 8. -/
def Hk.reset : Hk where
  rowWindow := 3600
  unitWindow := 600
  flips := []
  fired := 0
  injection := false
  phase := .none
  cold := true
  source := false
  slot := false
  cadPersist := false
  foreign := false
  failed := false
  slice := 0
  startTime := 0
  startHk := 0
  retention := false
  mtBusy := false
  mtRet := false
  mtProgress := 0
  mtFound := 0
  mtStacks := 0
  mtTag := 0
  orient := 0
  pins := []
  sbFault := 0
  resetLevel := 5
  resetSource := 4
  coldPin := .armed
  warmPin := .armed
  coldHeld := false
  rails := 0
  pg := 1
  down := false
  thermtrip := false
  badBases := 0

/-- The device right after reset: power-on, with no image applied (R40) and no start phase run. Every field is at the
value of its register map; the rest is named in the assumption log. -/
def State.reset : State where
  pending := []
  freeCtr := 0
  hkCount := 0
  mem := []
  memErr := []
  hostMem := []
  hostErr := []
  cxlOut := []
  irqSent := []
  hi := HostIf.reset
  evq := []
  evSeq := 0
  evLate := []
  msix := []
  pba := 0
  wqs := []
  pkts := []
  pw := Power.reset
  th := Thermal.reset
  hk := Hk.reset
  ta := ⟨false, false, false, [], 0, 0⟩
  spdm := ⟨false, false, false, []⟩
  img := ⟨0, [], false⟩
  cad := ⟨CadList.empty, [], [], [], none, none, none⟩
  seqs := []
  rowsDev := 0
  devId := 0
  stepping := 0xB0
  fwVer := 0
  waits := []
  hostDir := []
  backInv := []
  parked := []
  weightSeen := []
  colls := []
  hostRsp := none
  inc := 0
  spareGuard := []
  repairImg := 50
  parts := []
  clusters := []
  cores := []
  links := []
  stks := []
  sramCnt := []

end Sys2Proof.Machine
end

