-- ==== Sys2Proof/Machine/Ops.lean ====
section
/-! DEFINITION. The named operations over the state: reading and writing its parts, event records (R386 to R391),
writes to the host (R365), reply slots and heads (R375, R378), and the checks that every packet goes through (R379). -/

namespace Sys2Proof

/-- Number of a core among all 360. -/
def CoreId.key (c : CoreId) : Nat := (c.p.val * 10 + c.c.val) * 9 + c.k.val
/-- Number of a cluster among all 40. -/
def ClusterId.key (c : ClusterId) : Nat := c.p.val * 10 + c.c.val
/-- Number of a unit among the 1,088 of its stack. -/
def UnitId.key (u : UnitId) : Nat := u.d.val * 68 + u.u.val
/-- The cluster of a core. -/
def CoreId.cluster (c : CoreId) : ClusterId := ⟨c.p, c.c⟩

namespace Machine

/-! ### Parts of the state -/

def State.core (s : State) (c : CoreId) : Core := s.cores.get Core.reset c.key
def State.setCore (s : State) (c : CoreId) (v : Core) : State := { s with cores := s.cores.set Core.reset c.key v }
def State.cluster (s : State) (c : ClusterId) : Cluster := s.clusters.get Cluster.reset c.key
def State.setCluster (s : State) (c : ClusterId) (v : Cluster) : State :=
  { s with clusters := s.clusters.set Cluster.reset c.key v }
def State.part (s : State) (p : Fin 4) : Part := s.parts.get Part.reset p.val
def State.setPart (s : State) (p : Fin 4) (v : Part) : State := { s with parts := s.parts.set Part.reset p.val v }
def State.link (s : State) (l : Fin 48) : Link := s.links.get Link.reset l.val
def State.setLink (s : State) (l : Fin 48) (v : Link) : State := { s with links := s.links.set Link.reset l.val v }
def State.stack (s : State) (k : Fin 12) : Stack := s.stks.get Stack.reset k.val
def State.setStack (s : State) (k : Fin 12) (v : Stack) : State := { s with stks := s.stks.set Stack.reset k.val v }
def State.queue (s : State) (q : Fin 256) : Option WorkQ := s.wqs.get none q.val
def State.setQueue (s : State) (q : Fin 256) (v : Option WorkQ) : State := { s with wqs := s.wqs.set none q.val v }
def State.eventQ (s : State) (e : Fin 8) : EvQ := s.evq.get EvQ.reset e.val
def State.setEventQ (s : State) (e : Fin 8) (v : EvQ) : State := { s with evq := s.evq.set EvQ.reset e.val v }
def State.seqd (s : State) (n : Nat) : SeqDesc := s.seqs.get SeqDesc.reset n
def State.setSeqd (s : State) (n : Nat) (v : SeqDesc) : State := { s with seqs := s.seqs.set SeqDesc.reset n v }
def Part.ctx (p : Part) (x : Fin 16) : Ctx := p.ctxs.get Ctx.reset x.val
def Part.setCtx (p : Part) (x : Fin 16) (v : Ctx) : Part := { p with ctxs := p.ctxs.set Ctx.reset x.val v }
def State.ctx (s : State) (p : Fin 4) (x : Fin 16) : Ctx := (s.part p).ctx x
def State.setCtx (s : State) (p : Fin 4) (x : Fin 16) (v : Ctx) : State := s.setPart p ((s.part p).setCtx x v)
def Stack.unit (k : Stack) (u : UnitId) : BankUnit := k.units.get BankUnit.reset u.key
def Stack.setUnit (k : Stack) (u : UnitId) (v : BankUnit) : Stack :=
  { k with units := k.units.set BankUnit.reset u.key v }
def State.unit (s : State) (u : UnitId) : BankUnit := (s.stack u.s).unit u
def State.setUnit (s : State) (u : UnitId) (v : BankUnit) : State := s.setStack u.s ((s.stack u.s).setUnit u v)

/-- Draw `n` free values: the counter moves past them. -/
def State.draw (s : State) (n : Nat) : State := { s with freeCtr := s.freeCtr + n }

/-- The partition that owns a stack, a link or a spare lane (R6). -/
def ownerOfStack (k : Fin 12) : Fin 4 := ⟨k.val / 3, by omega⟩
def ownerOfLink (l : Fin 48) : Fin 4 := ⟨l.val / 12, by omega⟩

/-- Every core of a cluster, every cluster of a partition. -/
def coresOf (cl : ClusterId) : List CoreId := (List.finRange 9).map (fun k => ⟨cl.p, cl.c, k⟩)
def clustersOf (p : Fin 4) : List ClusterId := (List.finRange 10).map (fun c => ⟨p, c⟩)
def coresOfPart (p : Fin 4) : List CoreId := (clustersOf p).flatMap coresOf
def allCores : List CoreId := (List.finRange 4).flatMap coresOfPart
def stacksOf (p : Fin 4) : List (Fin 12) := (List.finRange 12).filter (fun k => ownerOfStack k = p)
def linksOf (p : Fin 4) : List (Fin 48) := (List.finRange 48).filter (fun l => ownerOfLink l = p)

/-- Change a core, a cluster, a partition, a link, a stack. -/
def State.updCore (s : State) (c : CoreId) (f : Core → Core) : State := s.setCore c (f (s.core c))
def State.updCluster (s : State) (c : ClusterId) (f : Cluster → Cluster) : State := s.setCluster c (f (s.cluster c))
def State.updPart (s : State) (p : Fin 4) (f : Part → Part) : State := s.setPart p (f (s.part p))
def State.updLink (s : State) (l : Fin 48) (f : Link → Link) : State := s.setLink l (f (s.link l))
def State.updStack (s : State) (k : Fin 12) (f : Stack → Stack) : State := s.setStack k (f (s.stack k))
def State.updCtx (s : State) (p : Fin 4) (x : Fin 16) (f : Ctx → Ctx) : State := s.setCtx p x (f (s.ctx p x))
def State.updEventQ (s : State) (e : Fin 8) (f : EvQ → EvQ) : State := s.setEventQ e (f (s.eventQ e))
def State.updSeqd (s : State) (n : Nat) (f : SeqDesc → SeqDesc) : State := s.setSeqd n (f (s.seqd n))
def State.updUnit (s : State) (u : UnitId) (f : BankUnit → BankUnit) : State := s.setUnit u (f (s.unit u))

/-- A thermal domain (R454). -/
def State.domain (s : State) (d : Nat) : Domain := s.th.domains.get Domain.reset d

/-- 32 × r(k) (R449). -/
def rate32 : Nat → Nat
  | 0 => 32
  | 1 => 16
  | 2 => 8
  | k => 10 - k

/-- Units of a slot under a slot map (R213). -/
def slotSize (mode : BitVec 2) : Nat := if mode = 0 then 1 else if mode = 1 then 2 else 4

/-- Slots per die under the slot map (R213; `SLOTS` of `SE_LIMIT`). -/
def Stack.slotCount (k : Stack) : Nat := 64 / slotSize k.slotMode

/-- Slots of a die that may compute at once: the limit of R36 and the thermal one (R214, R450). -/
def State.slotLimit (s : State) (st : Fin 12) : Nat :=
  min (s.stack st).limit.toNat (max 1 (rate32 (s.domain (4 + st.val)).tstep))

/-- A packet that has been taken and not completed. -/
def State.pktAt (s : State) (q : Nat) (i : Word) (lane idx : Nat) : Option Pkt :=
  s.pkts.find? (fun k => k.q = q && k.i = i && k.lane = lane && k.laneIdx = idx)
/-- Change every taken packet that a test picks. -/
def State.updPkts (s : State) (t : Pkt → Bool) (f : Pkt → Pkt) : State :=
  { s with pkts := s.pkts.map (fun k => if t k then f k else k) }
/-- The packet at an index of a queue, not a member of a lane. -/
def samePkt (q : Nat) (i : Word) (k : Pkt) : Bool := k.q = q && k.i = i && k.lane = 0

/-! ### The host (R365, R375) -/

/-- Add a device write to host memory behind those already waiting (R365). -/
def State.toHost (s : State) (addr : Nat) (bytes : List Byte) : State :=
  { s with cxlOut := s.cxlOut ++ [.write addr bytes] }
/-- Add an interrupt behind the writes it announces (R391). -/
def State.sendIrq (s : State) (v : Nat) : State := { s with cxlOut := s.cxlOut ++ [.irq v] }

/-- Bytes of host memory as the device reads them. -/
def State.hostRead (s : State) (a n : Nat) : List Byte := s.hostMem.getMany 0 a n
/-- Whether a read of host memory meets poison (R370). -/
def State.hostPoison (s : State) (a n : Nat) : Bool :=
  (List.range (n / 64 + 2)).any (fun k => (a / 64 + k) * 64 < a + n && s.hostErr.get false (a / 64 + k))

/-! ### Event records (R386 to R391) -/

/-- The 64 bytes of a record (R388). -/
def Event.bytes (e : Event) (seq : DWord) (hk : BitVec 48) : List Byte :=
  [e.type, BitVec.ofNat 8 (e.sev.toNat + 4 * e.cls.toNat), e.locmask] ++ e.loc ++ leBytes 2 0
    ++ leBytes 4 e.wtag.toNat ++ leBytes 2 e.mtag.toNat ++ leBytes 2 0 ++ leBytes 4 e.reason.toNat
    ++ leBytes 8 e.addr.toNat ++ leBytes 8 seq.toNat ++ leBytes 6 hk.toNat ++ leBytes 2 0 ++ leBytes 16 e.detail.toNat

/-- Whether an event queue has room for a record (R387). -/
def EvQ.room (q : EvQ) : Bool := decide ((q.prod - q.cons).toNat + 1 < 2 ^ q.log2n.toNat)

/-- Whether pending events make the queue send its interrupt now (R391). -/
def EvQ.due (q : EvQ) (fatal : Bool) : Bool :=
  q.irqEn && decide (0 < q.pend) && (fatal || decide (q.timer = 0) || decide (q.count.toNat ≤ q.pend))

/-- Send the interrupt of an event queue if it is due. -/
def State.maybeIrq (s : State) (e : Fin 8) (fatal : Bool) : State :=
  if (s.eventQ e).due fatal then (s.updEventQ e (fun q => { q with pend := 0 })).sendIrq e.val else s

/-- Write a record's bytes at the queue's `PROD` slot and advance `PROD` (R387, R389). -/
def State.writeRecord (s : State) (e : Fin 8) (bs : List Byte) : State :=
  let q := s.eventQ e
  let slot := q.prod.toNat % 2 ^ q.log2n.toNat
  let s := s.toHost (q.base.toNat + 64 * slot) bs
  let s := if q.prodWb = 0 then s else s.toHost q.prodWb.toNat (leBytes 4 (q.prod + 1).toNat)
  s.updEventQ e (fun q => { q with prod := q.prod + 1, pend := q.pend + 1 })

/-- Write one record with the next sequence number. -/
def State.putRecord (s : State) (e : Fin 8) (ev : Event) : State :=
  let s := s.writeRecord e (ev.bytes s.evSeq s.hkCount)
  { s with evSeq := s.evSeq + 1 }

/-- The record of R387 that says how many were dropped. -/
def overflowEvent (n : Nat) : Event where
  evq := 0
  type := 0x16
  sev := 1
  cls := 0
  locmask := 0
  loc := [0, 0, 0, 0, 0, 0, 0]
  wtag := 0
  mtag := 0
  reason := BitVec.ofNat 32 n
  addr := 0
  detail := 0
  work := false

/-- The event queue number of an event. -/
def Event.queue (ev : Event) : Fin 8 := ⟨ev.evq % 8, by omega⟩

/-- Count a dropped record (R387): it keeps its sequence number. -/
def State.dropRecord (s : State) (e : Fin 8) : State :=
  let s := s.updEventQ e (fun q => { q with dropped := satAdd q.dropped 1, overflow := true, lost := q.lost + 1 })
  { s with evSeq := s.evSeq + 1 }

/-- A record of a packet waits for room in an event queue. -/
def State.lateAt (s : State) (e : Fin 8) : Bool := s.evLate.any (fun r => r.1.queue = e)

/-- Raise a record (R387): written when its queue is enabled and has room; one whose packet cannot complete without it waits
for room; any other is dropped and counted, with an `EVQ_OVERFLOW` record in the kept slot. A record that a management
command raises carries its `CMD_TAG` (R377). -/
def State.raise (s : State) (ev : Event) : State :=
  let ev := if ev.wtag = 0 then { ev with wtag := s.hi.cmdTag } else ev
  let e := ev.queue
  let q := s.eventQ e
  if !q.enable then s.dropRecord e
  else if q.room && !s.lateAt e then (s.putRecord e ev).maybeIrq e (ev.sev = 3)
  else if ev.work then { s with evLate := s.evLate ++ [(ev, s.evSeq, s.hkCount)], evSeq := s.evSeq + 1 }
  else
    let s := s.dropRecord e
    if q.kept then s
    else
      let s := s.putRecord e (overflowEvent (q.lost + 1))
      (s.updEventQ e (fun q => { q with kept := true, lost := 0 })).maybeIrq e false

/-- Records that waited are written, oldest first, while there is room (R375, R387). -/
def State.flushLate (s : State) (e : Fin 8) : Nat → State
  | 0 => s
  | n + 1 =>
    match s.evLate.find? (fun r => r.1.queue = e) with
    | none => s
    | some r =>
      if (s.eventQ e).room then
        let s := { s with evLate := s.evLate.erase r }
        ((s.writeRecord e (r.1.bytes r.2.1 r.2.2)).maybeIrq e (r.1.sev = 3)).flushLate e n
      else s

/-- Records that wait for an event queue that is disabled are counted as dropped (R387). -/
def State.dropLate (s : State) (e : Fin 8) : State :=
  let n := (s.evLate.filter (fun r => r.1.queue = e)).length
  let s := { s with evLate := s.evLate.filter (fun r => r.1.queue ≠ e) }
  if n = 0 then s
  else s.updEventQ e (fun q => { q with dropped := satAdd q.dropped n, overflow := true, lost := q.lost + n })

/-- A record with no location, tag or address. -/
def mkEvent (type : BitVec 8) (sev : BitVec 2) (cls : BitVec 3) : Event where
  evq := 0
  type := type
  sev := sev
  cls := cls
  locmask := 0
  loc := [0, 0, 0, 0, 0, 0, 0]
  wtag := 0
  mtag := 0
  reason := 0
  addr := 0
  detail := 0
  work := false

/-- Location bytes (R388): partition, cluster, core, stack, die, unit, link. -/
def Event.atPart (e : Event) (p : Fin 4) : Event :=
  { e with locmask := e.locmask ||| 1, loc := setNth e.loc 0 (BitVec.ofNat 8 p.val) }
def Event.atCore (e : Event) (c : CoreId) : Event :=
  { e with
    locmask := e.locmask ||| 7
    loc := setNth (setNth (setNth e.loc 0 (BitVec.ofNat 8 c.p.val)) 1 (BitVec.ofNat 8 c.c.val)) 2
      (BitVec.ofNat 8 c.k.val) }
def Event.atStack (e : Event) (k : Nat) : Event :=
  { e with locmask := e.locmask ||| 8, loc := setNth e.loc 3 (BitVec.ofNat 8 k) }
def Event.atUnit (e : Event) (k d u : Nat) : Event :=
  { e with
    locmask := e.locmask ||| 0x38
    loc := setNth (setNth (setNth e.loc 3 (BitVec.ofNat 8 k)) 4 (BitVec.ofNat 8 d)) 5 (BitVec.ofNat 8 u) }
def Event.atLink (e : Event) (l : Nat) : Event :=
  { e with locmask := e.locmask ||| 0x40, loc := setNth e.loc 6 (BitVec.ofNat 8 l) }
def Event.withReason (e : Event) (n : Nat) : Event := { e with reason := BitVec.ofNat 32 n }
def Event.withAddr (e : Event) (a : Nat) : Event := { e with addr := BitVec.ofNat 48 a }
def Event.withDetail (e : Event) (d : Nat) : Event := { e with detail := BitVec.ofNat 128 d }
/-- The work tag sends a record to its queue's event queue, and the packet waits for it (R386, R387). -/
def Event.withWork (e : Event) (wtag : Word) (evq : Nat) : Event := { e with wtag := wtag, evq := evq, work := true }

/-! ### Status and replies (R378, R385) -/

/-- Status codes (R385). -/
def Status.code : Status → Nat
  | .ok => 0
  | .badOpcode => 1
  | .badParam => 2
  | .wrongState => 3
  | .busy => 4
  | .denied => 5
  | .noResource => 6
  | .failed => 7
  | .recompute => 8

/-- The eight bytes of a reply slot (R378). -/
def replyBytes (st : Status) (detail : Word) : List Byte :=
  [BitVec.ofNat 8 st.code, 1, 0, 0] ++ leBytes 4 detail.toNat

/-- A management command is there to be executed: the queue is enabled, holds a packet, the device is neither STARTING nor
RESETTING, and neither a memory test nor a partition whose PLL is starting holds it (R27, R373, R379, R437). -/
def State.mcqReady (s : State) : Bool :=
  s.hi.mcqEnable && decide (s.hi.mcqHead ≠ s.hi.mcqTail) && !s.hk.mtBusy && !s.hi.mcqWait
    && (s.hi.st = .ready || s.hi.st = .faulted)

/-- Complete the management command at `HEAD`: reply slot, `HEAD`, head write-back, interrupt (R375, R390). -/
def State.mgmtDone (s : State) (st : Status) (detail : Word) : State :=
  let h := s.hi.mcqHead
  let s := s.toHost (s.hi.mcqBase.toNat + 64 * (h.toNat % 2 ^ s.hi.mcqLog2n.toNat) + 56) (replyBytes st detail)
  let s := if s.hi.mcqHeadWb = 0 then s else s.toHost s.hi.mcqHeadWb.toNat (leBytes 4 (h + 1).toNat)
  let s := { s with hi := { s.hi with mcqHead := h + 1, mcqTaken := h + 1 } }
  if s.hi.mcqIrq then s.sendIrq 8 else s

/-! ### Checks of packets (R14, R378, R379) -/

/-- Nonzero bytes among offsets `lo` to `hi - 1` that no field of `used` (offset, size) covers: reserved bytes that are
not 0 (R14). -/
def reservedBad (k : Packet) (lo hi : Nat) (used : List (Nat × Nat)) : List (Nat × Bool) :=
  ((List.range (hi - lo)).map (· + lo)).filterMap (fun o =>
    if used.any (fun u => u.1 ≤ o && o < u.1 + u.2) then none else some (o, decide (pf k o 1 ≠ 0)))

/-- A host or device address field: [63:48] reserved (R380, R382). -/
def addrBad (k : Packet) (o : Nat) : Nat × Bool := (o, decide (pf k (o + 6) 2 ≠ 0))
/-- An address field in bits [47:0]. -/
def pa (k : Packet) (o : Nat) : Nat := pf k o 6

/-- Steps 1 and 2 of R379 for a management packet: its opcode, then reserved encodings and ranges. `usesPart` is false
for a command that names no partition, whose `PART` byte must be 0 (R377). -/
def mgmtCheck (k : Packet) (op : Nat) (usesPart : Bool) (used : List (Nat × Nat)) (checks : List (Nat × Bool)) :
    Option (Status × Word) :=
  if pf k 0 1 ≠ op then some (.badOpcode, 0)
  else
    let all := reservedBad k 1 3 [] ++ [(3, if usesPart then decide (pf k 3 1 ≥ 4) else decide (pf k 3 1 ≠ 0))]
      ++ reservedBad k 8 56 used ++ checks
    match firstBad all with
    | some o => some (.badParam, BitVec.ofNat 32 o)
    | none => none

/-- The partition a management packet names (R377). -/
def mgmtPart (k : Packet) : Fin 4 := ⟨pf k 3 1 % 4, by omega⟩

/-- Run a management command: nothing where no command is there; the failing check's status; or `body` (R379). -/
def mgmt (s : State) (k : Packet) (bad : Option (Status × Word)) (body : State → State) :
    Host.Outcome State Fault Refusal :=
  if s.mcqReady then
    match bad with
    | some (st, d) =>
      -- a packet that spells another defined command is not this one; an undefined opcode is any row's (R379 step 1)
      if st = .badOpcode && 1 ≤ pf k 0 1 && pf k 0 1 ≤ 0x14 then .next s else .next (s.mgmtDone st d)
    | none =>
      let s := body { s with hi := { s.hi with cmdTag := BitVec.ofNat 32 (pf k 4 4) } }
      .next { s with hi := { s.hi with cmdTag := 0 } }
  else .next s

/-! ### Levels shared by many rules -/

/-- `ALERT_N` is asserted (R455), unless the pin is faulty and therefore released (R461). -/
def State.alert (s : State) : Bool :=
  s.hk.pins.get 0 2 = 0 && (decide (s.th.status ≠ 0) || decide (s.hk.sbFault ≠ 0) || decide (s.hi.st = .faulted))

/-- `THERMTRIP_N` is asserted (R456, R457), unless the pin is faulty and therefore released (R461). -/
def State.thermtripOut (s : State) : Bool := s.hk.thermtrip && s.hk.pins.get 0 3 = 0

/-- The I3C target answers: none of its pins is faulty (R461). -/
def State.i3cOn (s : State) : Bool := s.hk.pins.get 0 0 = 0 && s.hk.pins.get 0 1 = 0

end Machine
end Sys2Proof
end

