-- ==== Sys2Proof/Machine/Errors.lean ====
section
/-! DEFINITION. Error codes and counting: how a SECDED word reads (R393, R394), what recurring errors do (R406 to R409),
and how a part is retired. -/

namespace Sys2Proof

/-- Two entries name the same defect (R430). -/
def CadEntry.same (a b : CadEntry) : Bool := a.kind = b.kind && a.locA = b.locA && a.locB = b.locB

/-- Number of a bank of a stack. -/
def RowId.bankKey (r : RowId) : Nat := (r.d.val * 64 + r.pair.val) * 2 + r.bank.val
/-- Number of a row of a stack. -/
def RowId.key (r : RowId) : Nat := r.bankKey * 16384 + r.row.toNat
end Sys2Proof

namespace Sys2Proof.Machine

/-- How a stored SECDED word reads. -/
inductive Ecc where
  | good | corrected | poison | uncorrectable
  deriving DecidableEq, Repr

/-- The pattern of the poison syndrome: codeword bits 32 and 33 inverted (R237, R393). -/
def poisonPattern : BitVec 39 := 0x300000000#39

/-- Ones in a pattern. -/
def weight (e : BitVec 39) : Nat := ((List.range 39).filter (fun k => e.getLsbD k)).length

/-- The syndrome of an error pattern: codeword bits [38:32] are the check bits (R393), and the columns of the data bits belong to
the device (`Config.dataColumn`, log 3). -/
def syndrome (e : BitVec 39) : BitVec 7 :=
  ((List.range 32).filter (fun k => e.getLsbD k)).foldl (fun y k => y ^^^ Config.dataColumn k) ((e >>> 32).truncate 7)

/-- The codeword bit whose column a syndrome is. -/
def columnOf (y : BitVec 7) : Option Nat :=
  match (List.range 7).find? (fun k => y = BitVec.ofNat 7 (2 ^ k)) with
  | some k => some (32 + k)
  | none => (List.range 32).find? (fun k => y = Config.dataColumn k)

/-- How a word with an error pattern reads (R237, R238, R404): one wrong bit corrects; the poison syndrome reads as poison,
whichever pattern gives it; two wrong bits do not correct, and three or more do as the code has it. -/
def eccOf (e : BitVec 39) : Ecc :=
  if e = 0 then .good
  else if weight e = 1 then .corrected
  else if e = poisonPattern then .poison
  else if e = 3 then .uncorrectable
  else if syndrome e = 3 then .poison
  else if weight e = 2 then .uncorrectable
  else if syndrome e = 0 then .good
  else if (columnOf (syndrome e)).isSome then .corrected
  else .uncorrectable

/-- The data bits that a reader gets of a word stored as `w` with an error pattern. -/
def eccData (e : BitVec 39) (w : Word) : Word :=
  let raw := w ^^^ e.truncate 32
  match eccOf e with
  | .corrected =>
    if weight e = 1 then w
    else match columnOf (syndrome e) with
      | some k => if k < 32 then raw ^^^ BitVec.ofNat 32 (2 ^ k) else raw
      | none => raw
  | _ => raw

/-- Seconds of a window as hk cycles. -/
def windowHk (sec : Nat) : Nat := sec * 50000000

/-- Keep the event times that lie inside the window that ends at `now`, and add `now` (R406). -/
def pushTime (times : List (BitVec 48)) (now : BitVec 48) (win : Nat) : List (BitVec 48) :=
  times.filter (fun t => (now - t).toNat ≤ win) ++ [now]

/-- Drop the entry whose most recent event is the oldest (R407). -/
def dropOldest : List FaultCnt → List FaultCnt
  | [] => []
  | l =>
    let last (c : FaultCnt) : Nat := (c.times.getLast?.getD 0).toNat
    match lowest (l.map last) with
    | none => l
    | some m => delNth l ((l.findIdx? (fun c => last c = m)).getD 0)

/-- Count an event of `key` in a table of `cap` entries: the table, and whether the event is the `n`-th inside the window;
a lasting fault frees its entry (R406, R407). -/
def countFault (l : List FaultCnt) (cap n key : Nat) (now : BitVec 48) (win : Nat) : List FaultCnt × Bool :=
  let old := ((l.find? (fun c => c.key = key)).map FaultCnt.times).getD []
  let times := pushTime old now win
  let rest := l.filter (fun c => c.key ≠ key)
  if n ≤ times.length then (rest, true)
  else
    let rest := if cap ≤ rest.length then dropOldest rest else rest
    (rest ++ [⟨key, times⟩], false)

/-- Four location bytes (R431). -/
def locBytes (a b c d : Nat) : BitVec 32 := BitVec.ofNat 32 (a + 256 * b + 65536 * c + 16777216 * d)

/-- Location of a Cadastre entry in an event record (R431): the defective part. -/
def cadLocate (e : CadEntry) (ev : Event) : Event :=
  let byte (n : Nat) : Nat := bits e.locA.toNat (8 * n + 7) (8 * n)
  match e.kind.toNat with
  | 1 => ev.atCore ⟨⟨byte 0 % 4, by omega⟩, ⟨byte 1 % 10, by omega⟩, ⟨byte 2 % 9, by omega⟩⟩
  | 2 => { ev.atPart ⟨byte 0 % 4, by omega⟩ with
           locmask := 3
           loc := setNth (setNth ev.loc 0 (BitVec.ofNat 8 (byte 0))) 1 (BitVec.ofNat 8 (byte 1)) }
  | 3 => ev.atUnit (byte 0) (byte 1) (byte 2)
  | 4 => ev.atUnit (byte 0) (byte 1) (byte 2)
  | 5 => if bit (byte 3) 0 then ev.atStack (byte 0) else ev.atPart ⟨byte 0 % 4, by omega⟩
  | 6 => ev.atStack (byte 0)
  | 7 => ev.atLink (byte 0)
  | _ => ev

/-- Enter a defect found at run time (R409, R431): nothing where the list has it already; a record once READY. -/
def State.addDefect (s : State) (kind origin : Nat) (locA locB : BitVec 32) : State :=
  let e : CadEntry := ⟨BitVec.ofNat 8 kind, BitVec.ofNat 4 origin, locA, locB, s.cad.list.startCount⟩
  if s.cad.list.entries.any e.same || s.cad.runtime.any e.same then s
  else
    let s := { s with cad := { s.cad with runtime := s.cad.runtime ++ [e] } }
    if s.hi.st = .ready then s.raise (cadLocate e ((mkEvent 0x14 0 0).withReason kind)) else s

/-- The pair that a unit serves: its own, or the one that a spare has replaced (R213, R242). -/
def State.pairOf (s : State) (u : UnitId) : Option Nat :=
  if u.u.val < 64 then some u.u.val
  else
    let sp := (s.stack u.s).spares.get SparePair.reset (4 * u.d.val + (u.u.val - 64))
    if sp.inUse && !(s.stack u.s).migrating.get false (64 * u.d.val + sp.replaced.toNat) then some sp.replaced.toNat else none

/-- The unit that serves a row's pair, by its physical number: the pair's own, or the spare that has replaced it (R8, R242). -/
def State.servedBy (s : State) (r : RowId) : UnitId :=
  let own : UnitId := ⟨r.s, r.d, ⟨r.pair.val, by omega⟩⟩
  let spare : UnitId := ⟨r.s, r.d, ⟨64 + r.pair.val / 16, by omega⟩⟩
  if s.pairOf spare = some r.pair.val then spare else own

/-- A unit is out of service (R212, R241). -/
def BankUnit.out (x : BankUnit) : Bool := x.st = .bypassed || x.st = .migrating || x.st = .retired

/-- A unit without work: what a reset, a cut and a failure leave of it (R230, R241, R441). -/
def BankUnit.emptied (x : BankUnit) : BankUnit :=
  { x with
    program := []
    pc := 0
    loads := []
    acc := []
    accPoison := []
    outQ := []
    reports := []
    inRun := false
    begun := false
    cur := none
    ahead := none
    beats := 0
    emitted := 0
    reruns := 0
    parBad := [] }

/-- The number of a bank unit's bank in its pseudo-channel, and the pseudo-channel (R166). -/
def bankNo (die pair bank : Nat) : Nat := 32 * (4 * die + pair / 16) + 2 * (pair % 16) + bank

/-- The refreshes that waited for a unit's open steps are done (R233). -/
def State.freeBanks (s : State) (u : UnitId) (ts : List Step) : State :=
  match s.pairOf u with
  | some pair => s.updStack u.s (fun k => { k with
      postponed := ts.foldl (fun p t => p.set 0 (bankNo u.d.val pair t.bank.val) 0) k.postponed })
  | none => s

/-- A bank pair fails (R241, R242): bypassed, its bit of `SE_UNIT_FAIL_d` set, served in proxy mode, and copied to the
spare of its pseudo-channel where that is free and has not failed. A spare that fails is marked so. -/
def State.failUnit (s : State) (u : UnitId) : State :=
  if (s.unit u).out then s
  else
    let s := s.addDefect 3 1 (locBytes u.s.val u.d.val u.u.val 0) 0
    let s := s.freeBanks u ((s.unit u).cur.toList ++ (s.unit u).ahead.toList)
    let s := s.updUnit u (fun x => { x.emptied with st := .bypassed })
    let sp (j : Nat) : SparePair := (s.stack u.s).spares.get SparePair.reset (4 * u.d.val + j)
    if u.u.val < 64 then
      let j := u.u.val / 16
      let pair := 64 * u.d.val + u.u.val
      let s := s.updStack u.s (fun k => { k with
        unitFail := k.unitFail.set 0 u.d.val (k.unitFail.get 0 u.d.val ||| BitVec.ofNat 64 (2 ^ u.u.val))
        proxied := k.proxied.set false pair true })
      if (sp j).inUse || (sp j).failed then s
      else
        let s := s.updUnit u (fun x => { x with st := .migrating })
        s.updStack u.s (fun k => { k with
          migrating := k.migrating.set false pair true
          spares := k.spares.set SparePair.reset (4 * u.d.val + j) ⟨true, false, BitVec.ofNat 6 u.u.val⟩ })
    else
      let j := u.u.val - 64
      let pair := 64 * u.d.val + (sp j).replaced.toNat
      let s := s.updStack u.s (fun k => { k with
        spares := k.spares.set SparePair.reset (4 * u.d.val + j) { sp j with failed := true } })
      if (sp j).inUse then s.updStack u.s (fun k => { k with proxied := k.proxied.set false pair true }) else s

/-- A parity fault of a bank unit (R240, R406): the second inside the window retires the unit (R241). -/
def State.unitParity (s : State) (u : UnitId) : State :=
  let win := windowHk s.hk.unitWindow.toNat
  let now := s.hkCount
  let s := s.updUnit u (fun x => { x with parity := satAdd x.parity 1, faults := pushTime x.faults now win })
  if 2 ≤ (s.unit u).faults.length then
    let s := s.raise (((mkEvent 0x04 1 0).withReason 1).atUnit u.s.val u.d.val u.u.val)
    (s.updUnit u (fun x => { x with faults := [] })).failUnit u
  else s

/-- A parity fault of a core (R411): the second inside the window retires it. -/
def State.coreParity (s : State) (c : CoreId) : State :=
  let win := windowHk s.hk.unitWindow.toNat
  let now := s.hkCount
  let s := s.updCore c (fun x => { x with parFaults := pushTime x.parFaults now win })
  if 2 ≤ (s.core c).parFaults.length then
    let s := s.updCore c (fun x => { x with retired := true, parFaults := [] })
    let s := s.raise (((mkEvent 0x04 1 0).withReason 0).atCore c)
    s.addDefect 1 1 (locBytes c.p.val c.c.val c.k.val 0) 0
  else s

/-- Retire a DRAM row (R408): a live remap into a spare row, or the next start, or the pair fails; its count is freed (R407).
Records and the Cadastre name the physical unit (R8). A retired row is not retired again (DESIGN CHOICE, log 108). -/
def State.retireRow (s : State) (r : RowId) : State :=
  let k := s.stack r.s
  if k.remaps.any (fun m => m.row = r) || k.pendingRows.contains r then s
  else
    let u := s.servedBy r
    let s := s.updStack r.s (fun k => { k with rowCnt := k.rowCnt.filter (fun c => c.key ≠ r.key) })
    let s := s.addDefect 4 1 (locBytes r.s.val r.d.val u.u.val r.bank.val) (BitVec.ofNat 32 r.row.toNat)
    let live := (k.remaps.filter (fun m => m.row.d = r.d && m.row.pair = r.pair && m.row.bank = r.bank)).length
    let used := k.spareRows.get 0 r.bankKey
    let reason := r.bank.val + 2 * r.row.toNat
    let ev (late : Nat) : Event :=
      ((mkEvent 0x05 1 0).withReason (reason + 32768 * late)).atUnit r.s.val r.d.val u.u.val
    if 32 ≤ used then s.failUnit u
    else if 8 ≤ live then
      let s := s.updStack r.s (fun k => { k with
        pendingRows := k.pendingRows ++ [r], remapPending := satAdd k.remapPending 1 })
      s.raise (ev 1)
    else
      let s := s.updStack r.s (fun k => { k with
        remaps := k.remaps ++ [⟨r, used, false⟩], spareRows := k.spareRows.set 0 r.bankKey (used + 1) })
      s.raise (ev 0)

/-- Count a corrected DRAM error (R395, R406): its row, and the bit lane of a single wrong bit (lane numbering DESIGN
CHOICE, log 16). -/
def State.countCorrected (s : State) (r : RowId) (e : BitVec 39) : State :=
  let win := windowHk s.hk.rowWindow.toNat
  let k := s.stack r.s
  let (rows, lasting) := countFault k.rowCnt 256 3 r.key s.hkCount win
  let s := s.updStack r.s (fun k => { k with ceCount := satAdd k.ceCount 1, rowCnt := rows })
  let s := if lasting then s.retireRow r else s
  if weight e = 1 then
    let channel := 2 * r.d.val + r.pair.val / 32
    let lane := 39 * (r.pair.val / 16 % 2) + (lowest ((List.range 39).filter (fun b => e.getLsbD b))).getD 0
    let (lanes, lastingLane) := countFault (s.stack r.s).laneCnt 64 16 (256 * channel + lane) s.hkCount win
    let s := s.updStack r.s (fun k => { k with laneCnt := lanes })
    if lastingLane then s.addDefect 6 1 (locBytes r.s.val channel 0 0) (BitVec.ofNat 32 lane) else s
  else s

/-- An SRAM array with a SECDED code: a core's SP, the data of a shared-cache slice, a stack engine's SRAM (R393). -/
inductive SramArray where
  | sp (c : CoreId)
  | slice (p : Fin 4) (n : Nat)
  | stack (k : Fin 12)
  deriving DecidableEq, Repr

/-- The partition that tracks an array's rows (R407). -/
def SramArray.part : SramArray → Fin 4
  | .sp c => c.p
  | .slice p _ => p
  | .stack k => ownerOfStack k

/-- Number of an array. -/
def SramArray.key : SramArray → Nat
  | .sp c => c.key
  | .slice p n => 360 + 16 * p.val + n % 16
  | .stack k => 424 + k.val

/-- The location of a row of an array in the Cadastre (R431): how Vorlos names its class, instance and row is `Config.sramRow` (log 3). -/
def SramArray.place (a : SramArray) (group : Nat) : BitVec 32 × BitVec 32 :=
  let v := (Config.sramRow a.key group).toNat
  (match a with
    | .stack k => locBytes k.val (bits v 7 0) 0 1
    | _ => locBytes a.part.val (bits v 7 0) (bits v 15 8) 0, BitVec.ofNat 32 (bits v 31 16))

/-- Count an error of an SRAM row (R395, R406): the third corrected error inside the window, or the first uncorrectable one, enters
the row. -/
def State.countSram (s : State) (a : SramArray) (group : Nat) (lastingNow : Bool) : State :=
  let win := windowHk s.hk.rowWindow.toNat
  let tbl := s.sramCnt.get [] a.part.val
  let (tbl, lasting) := countFault tbl 64 (if lastingNow then 1 else 3) (a.key + 512 * group) s.hkCount win
  let s := { s with sramCnt := s.sramCnt.set [] a.part.val tbl }
  if lasting then s.addDefect 5 1 (a.place group).1 (a.place group).2 else s

end Sys2Proof.Machine
end

