-- ==== Sys2Proof/Machine/Memory.lean ====
section
/-! DEFINITION. Device memory: where the bytes of the PART, DEV and BANK spaces lie (R165 to R172), the BAR2 layout
(R367), translation (R175), reads and writes with their codes (R393 to R398), and the shared cache's counters. -/

namespace Sys2Proof.Machine

/-! ### Places -/

/-- Where a byte lies: in a stack, by the number of its physical place, or in host memory. -/
inductive Place where
  | dram (k : Nat)
  | host (a : Nat)
  deriving DecidableEq, Repr

/-- Number of the byte at a stack, die, pair, bank, row and byte in row (R165). -/
def physKey (st die pair bank row y : Nat) : Nat := ((((st * 16 + die) * 64 + pair) * 2 + bank) * 16384 + row) * 2048 + y

/-- Parts of a place. -/
def keyRow (k : Nat) : Nat := k / 2048 % 16384
def keyBank (k : Nat) : Nat := k / 33554432 % 2
def keyPair (k : Nat) : Nat := k / 67108864 % 64
def keyDie (k : Nat) : Nat := k / 4294967296 % 16
def keyStack (k : Nat) : Nat := k / 68719476736

/-- The row of a place. -/
def keyRowId (k : Nat) : RowId where
  s := ⟨keyStack k % 12, by omega⟩
  d := ⟨keyDie k, by unfold keyDie; omega⟩
  pair := ⟨keyPair k, by unfold keyPair; omega⟩
  bank := ⟨keyBank k, by unfold keyBank; omega⟩
  row := BitVec.ofNat 14 (keyRow k)

/-- Exclusive or of the five 6-bit fields of a granule index (R169). -/
def foldGranule (q : Nat) : Nat :=
  Nat.xor (q % 64) (Nat.xor (q / 64 % 64) (Nat.xor (q / 4096 % 64) (Nat.xor (q / 262144 % 64) (q / 16777216 % 64))))

/-- The place of granule index `q` of stack `st`, byte `y` of the granule, with rows counted from `row0` (R166, R169). -/
def granulePlace (st row0 q y : Nat) : Nat :=
  let pc := foldGranule q
  let w := q / 64
  let bank := w / 8 % 32
  physKey st (pc / 4) (16 * (pc % 4) + bank / 2) (bank % 2) (row0 + w / 256) (256 * (w % 8) + y)

/-- Byte `x` of the PART space of partition `p` (R169). -/
def partPlace (p x : Nat) : Nat :=
  let g := x / 256
  granulePlace (3 * p + g % 3) 0 (g / 3) (x % 256)

/-- `ROWS_PART` of the partition that owns a stack (R167). -/
def State.rowsPartOf (s : State) (st : Nat) : Nat := (s.part ⟨st / 3 % 4, by omega⟩).rowsPart.toNat

/-- Byte `x` of the DEV space (R170). -/
def State.devPlace (s : State) (x : Nat) : Nat :=
  let g := x / 256
  granulePlace (g % 12) (1024 * s.rowsPartOf (g % 12)) (g / 12) (x % 256)

/-- Sizes of the spaces in bytes (R168). -/
def State.partSize (s : State) (p : Fin 4) : Nat := (s.part p).rowsPart.toNat * 12 * 2 ^ 30
def State.devSize (s : State) : Nat := s.rowsDev.toNat * 48 * 2 ^ 30
def State.bankSize (s : State) (st : Nat) : Nat := (16 - s.rowsPartOf st - s.rowsDev.toNat) * 4 * 2 ^ 20
/-- Where the reserved area of a PART space begins (R168). -/
def State.reserveBase (s : State) (p : Fin 4) : Nat := s.partSize p - (s.part p).reserve.toNat * 2 ^ 30

/-- The place of a 40-bit BANK address (R172); `none` where it is no address. -/
def State.bankPlace (s : State) (b : Nat) : Option Nat :=
  let off := b % 2 ^ 26
  let st := b / 2 ^ 36 % 16
  if st < 12 && off < s.bankSize st && b < 2 ^ 40 then
    let r := off / 2048
    some (physKey st (b / 2 ^ 32 % 16) (b / 2 ^ 26 % 64) (r % 2)
      (1024 * (s.rowsPartOf st + s.rowsDev.toNat) + r / 2) (off % 2048))
  else none

/-- Offset in its space of a place in interleaved memory: granule index from the pseudo-channel and the granule in it,
the inverse of R169. -/
def granuleOf (row0 k : Nat) : Nat :=
  let pc := keyDie k * 4 + keyPair k / 16
  let b := 2 * (keyPair k % 16) + keyBank k
  let w := (keyRow k - row0) * 256 + b * 8 + k % 2048 / 256
  w * 64 + Nat.xor pc (foldGranule (w * 64))

/-- The BAR2 offset of a place (R367). -/
def State.bar2Of (s : State) (k : Nat) : Nat :=
  let st := keyStack k
  let p := st / 3
  let rp := s.rowsPartOf st
  let rd := s.rowsDev.toNat
  let base := rd * 48 * 2 ^ 30 + p * (16 - rd) * 12 * 2 ^ 30
  if keyRow k < 1024 * rp then base + (granuleOf 0 k * 3 + st % 3) * 256 + k % 256
  else if keyRow k < 1024 * (rp + rd) then (granuleOf (1024 * rp) k * 12 + st) * 256 + k % 256
  else
    let r := 2 * (keyRow k - 1024 * (rp + rd)) + keyBank k
    base + rp * 12 * 2 ^ 30 + ((st % 3 * 16 + keyDie k) * 64 + keyPair k) * s.bankSize st + r * 2048 + k % 2048

/-- What a BAR2 offset below 768 GiB reaches (R367): a place of DEV memory, of a PART space (with partition and offset),
or of BANK memory. -/
inductive Bar2 where
  | dev (k : Nat)
  | part (p : Fin 4) (x k : Nat)
  | bank (k : Nat)
  deriving DecidableEq, Repr

/-- The layout of R367. -/
def State.bar2At (s : State) (o : Nat) : Option Bar2 :=
  let rd := s.rowsDev.toNat
  let dev := rd * 48 * 2 ^ 30
  let share := (16 - rd) * 12 * 2 ^ 30
  if o < dev then some (.dev (s.devPlace o))
  else if 768 * 2 ^ 30 ≤ o || share = 0 then none
  else
    let p : Fin 4 := ⟨(o - dev) / share % 4, by omega⟩
    let x := (o - dev) % share
    let ps := s.partSize p
    if x < ps then some (.part p x (partPlace p.val x))
    else
      let b := x - ps
      let sz := s.bankSize (3 * p.val)
      let unit := b / sz
      match s.bankPlace (b % sz + unit % 64 * 2 ^ 26 + unit / 64 % 16 * 2 ^ 32 + (3 * p.val + unit / 1024) * 2 ^ 36) with
      | some k => some (.bank k)
      | none => none

/-- The canonical form of a memory: places strictly rising, and no entry equal to what an unlisted byte reads as (R419). -/
def Memory.wf (m : Tbl Byte) : Bool := Tbl.wf 0 m

/-! ### Errors found in place (R394 to R396) -/

/-- Home partition of a place (R187): the partition that owns its stack, for PART and DEV alike. -/
def homeOf (k : Nat) : Fin 4 := ⟨keyStack k / 3 % 4, by omega⟩

/-- The slice of its home that serves a place (R187). -/
def State.sliceOf (s : State) (k : Nat) : Nat :=
  let rp := s.rowsPartOf (keyStack k)
  let n := 2 * granuleOf (if keyRow k < 1024 * rp then 0 else 1024 * rp) k + k % 256 / 128
  (List.range 9).foldl (fun a i => Nat.xor a (n / 16 ^ i % 16)) 0

/-- The shared-cache slice that holds a word: its line is there and differs from memory, so that an error of the word is the slice's
(R393). -/
def State.inSlice (s : State) (w : Nat) : Option SramArray :=
  let p := homeOf (4 * w)
  if (s.part p).lines.get .absent (w / 32) = .dirty then some (.slice p (s.sliceOf (4 * w))) else none

/-- Poison the 64-byte group `g`, keeping the data bits as read (R396). -/
def State.poisonGroup (s : State) (g : Nat) : State :=
  (List.range 16).foldl (fun s j =>
    let w := g * 16 + j
    let e := s.memErr.get 0 w
    let v := eccData e (BitVec.ofNat 32 (leNat (s.mem.getMany 0 (4 * w) 4)))
    { s with
      mem := s.mem.setMany 0 (4 * w) (leBytes 4 v.toNat)
      memErr := s.memErr.set 0 w poisonPattern }) s

/-- One word with an error is found by the stack controller or the shared cache: a correctable one is written back and
counted, an uncorrectable one poisons its group and is reported once, for the physical unit of the pair (R8, R394 to R396,
R406). An error of a line that its slice holds dirty counts for the slice's row (log 16). A pattern that reads as good or as poison stands for what it reads as. -/
def State.fixWord (s : State) (w : Nat) : State :=
  let e := s.memErr.get 0 w
  let r := keyRowId (4 * w)
  let stands (e' : BitVec 39) : State :=
    { s with
      mem := s.mem.setMany 0 (4 * w) (leBytes 4 (eccData e (BitVec.ofNat 32 (leNat (s.mem.getMany 0 (4 * w) 4)))).toNat)
      memErr := s.memErr.set 0 w e' }
  match eccOf e with
  | .good => if e = 0 then s else stands 0
  | .poison => if e = poisonPattern then s else stands poisonPattern
  | .corrected => match s.inSlice w with
    | some a => (stands 0).countSram a (w / 16) false
    | none => (stands 0).countCorrected r e
  | .uncorrectable =>
    let at_ := s.inSlice w
    let s := s.poisonGroup (w / 16)
    let s := s.updStack r.s (fun k => { k with ueCount := if at_.isSome then k.ueCount else satAdd k.ueCount 1 })
    let s := s.raise (((mkEvent 0x06 2 0).withAddr (s.bar2Of (w / 16 * 64))).atUnit r.s.val r.d.val (s.servedBy r).u.val)
    match at_ with
    | some a => s.countSram a (w / 16) true
    | none => s.retireRow r

/-- Meet the groups of a list: every error in them is found. -/
def State.touch (s : State) (groups : List Nat) : State :=
  ((s.memErr.map Prod.fst).filter (fun w => groups.contains (w / 16))).foldl State.fixWord s

/-- Whether a group holds poison. -/
def State.groupPoisoned (s : State) (g : Nat) : Bool :=
  (List.range 16).any (fun j => s.memErr.get 0 (g * 16 + j) ≠ 0)

/-- The 64-byte groups of stack memory that places touch, each once. -/
def groupsOf (ps : List Place) : List Nat :=
  (ps.filterMap (fun p => match p with | .dram k => some (k / 64) | .host _ => none)).dedup

/-- The first place of a list whose group holds poison, or whose host line returns poison. -/
def State.firstPoison (s : State) (ps : List Place) : Option Place :=
  ps.find? (fun p => match p with
    | .dram k => s.groupPoisoned (k / 64)
    | .host a => s.hostErr.get false (a / 64))

/-- Whether the word that holds a place reads as poison, or its host line does: to a bank unit and to the stack engine poison
follows its word (R239). -/
def State.wordPoisoned (s : State) : Place → Bool
  | .dram k => s.memErr.get 0 (k / 4) ≠ 0
  | .host a => s.hostErr.get false (a / 64)

/-- One byte at a place. -/
def State.byteAt (s : State) : Place → Byte
  | .dram k => s.mem.get 0 k
  | .host a => s.hostMem.get 0 a

/-- Bytes at a list of places. -/
def State.bytesAt (s : State) (ps : List Place) : List Byte := ps.map s.byteAt

/-! ### Flip masks (R403, R404) -/

/-- Number of an encoder: target kind and location. -/
def encKey (target a b c d : Nat) : Nat := (((target * 16 + a) * 16 + b) * 128 + c) * 16 + d

/-- Fire an armed mask: the mask and the state with it cleared. -/
def State.fire (s : State) (key : Nat) : BitVec 64 × State :=
  let m := s.hk.flips.get 0 key
  if m = 0 then (0, s)
  else (m, { s with hk := { s.hk with flips := s.hk.flips.set 0 key 0, fired := satAdd s.hk.fired 1 } })

/-- Apply the flip mask that the first write of a command at a place meets. -/
def State.flipWrite (s : State) (cached : Bool) (k : Nat) : State :=
  let st := keyStack k
  if s.hk.flips.isEmpty then s
  else if cached then
    let (m, s) := s.fire (encKey 3 (st / 3) 0 0 (s.sliceOf k))
    if m = 0 then s else { s with memErr := s.memErr.set 0 (k / 4) (s.memErr.get 0 (k / 4) ^^^ m.truncate 39) }
  else
    (List.range 8).foldl (fun s wd =>
      let (m, s) := s.fire (encKey 0 st 0 (keyDie k * 4 + keyPair k / 16) wd)
      let w := k / 32 * 8 + wd
      if m = 0 then s else { s with memErr := s.memErr.set 0 w (s.memErr.get 0 w ^^^ m.truncate 39) }) s

/-! ### Writes (R183, R184, R398) -/

/-- Write bytes at places. A group written whole gets fresh check bits; a group written in part is read, merged and
rewritten, and stays poisoned if it was (R398). -/
def State.writeAt (s : State) (cached : Bool) (ps : List (Place × Byte)) : State :=
  let keys := ps.filterMap (fun p => match p.1 with | .dram k => some k | .host _ => none)
  let groups := groupsOf (ps.map Prod.fst)
  let whole (g : Nat) : Bool := (List.range 64).all (fun j => keys.contains (g * 64 + j))
  let full := groups.filter whole
  let s := s.touch (groups.filter (fun g => !whole g))
  let s := full.foldl (fun s g => { s with memErr := s.memErr.clear (g * 16) (g * 16 + 16) }) s
  let s := ps.foldl (fun s p => match p.1 with
    | .dram k => { s with mem := s.mem.set 0 k p.2 }
    | .host a => { s with hostMem := s.hostMem.set 0 a p.2 }) s
  match keys with
  | [] => s
  | k :: _ => s.flipWrite cached k

/-- Poison whole 64-byte groups (R396). -/
def State.poisonPlaces (s : State) (ps : List Place) : State := (groupsOf ps).foldl State.poisonGroup s

/-- The words of stack memory that hold places of a list, each once. -/
def wordsOf (ps : List Place) : List Nat :=
  (ps.filterMap (fun p => match p with | .dram k => some (k / 4) | .host _ => none)).dedup

/-- Write words with the poison syndrome, and no other (R237, R239). -/
def State.poisonWords (s : State) (ps : List Place) : State :=
  (wordsOf ps).foldl (fun s w => { s with memErr := s.memErr.set 0 w poisonPattern }) s

/-- The flip mask of a unit's encoder for one word (R403, R404 target 1). -/
def State.flipUnit (s : State) (u : UnitId) (wd w : Nat) : State :=
  let (m, s) := s.fire (encKey 1 u.s.val u.d.val u.u.val wd)
  if m = 0 then s else { s with memErr := s.memErr.set 0 w (s.memErr.get 0 w ^^^ m.truncate 39) }

/-- One word of a column that a WRITE step writes (R205, R237): a word that is written whole has fresh check bits; one that keeps
bytes of a poisoned word, or takes a byte that derives from poison, is poison; the rest of the column is rewritten. -/
def State.unitWord (s : State) (bs : Tbl (Byte × Bool)) (w : Nat) : State :=
  let new := (List.range 4).map (fun i => bs.get (0, false) (4 * w + i))
  let given := (List.range 4).map (fun i => bs.any (fun e => e.1 = 4 * w + i))
  let bad := new.any Prod.snd || (s.memErr.get 0 w ≠ 0 && !given.all id)
  { s with
    mem := ((new.zip given).zipIdx).foldl (fun t e => if e.1.2 then t.set 0 (4 * w + e.2) e.1.1.1 else t) s.mem
    memErr := s.memErr.set 0 w (if bad then poisonPattern else 0) }

/-- WRITE steps of bank units (R226, R227, R237): bytes of BANK memory with the poison that they derive from. A column written in
part is read first, so that its errors are found. -/
def State.unitWrite (s : State) (ps : List (Place × Byte × Bool)) : State :=
  let bs : Tbl (Byte × Bool) := ps.filterMap (fun p => match p.1 with | .dram k => some (k, p.2) | .host _ => none)
  let cols := (bs.map (fun e => e.1 / 32)).dedup
  let whole (c : Nat) : Bool := (List.range 32).all (fun i => bs.any (fun e => e.1 = 32 * c + i))
  let s := ((cols.filter (fun c => !whole c)).flatMap (fun c => (List.range 8).map (8 * c + ·))).foldl State.fixWord s
  cols.foldl (fun s c => (List.range 8).foldl (fun s j =>
    (s.unitWord bs (8 * c + j)).flipUnit (s.servedBy (keyRowId (32 * c))) j (8 * c + j)) s) s

/-! ### Banks in a step (R231) -/

/-- A step of a bank unit holds the bank of a place. -/
def State.bankOpen (s : State) (k : Nat) : Bool :=
  let r := keyRowId k
  let x := s.unit (s.servedBy r)
  (x.cur.toList ++ x.ahead.toList).any (fun t => t.bank = r.bank)

/-- An access of places waits for a bank that a step holds; a line that the shared cache holds needs no bank (R186, R231). -/
def State.banksWait (s : State) (ps : List Place) : Bool :=
  ps.any (fun p => match p with
    | .dram k => s.bankOpen k && (s.part ⟨keyStack k / 3 % 4, by omega⟩).lines.get .absent (k / 128) = .absent
    | .host _ => false)

/-- Device writes of a run of bytes at consecutive places of a PART space. -/
def State.writePart (s : State) (p x : Nat) (bs : List Byte) : State :=
  s.writeAt false (((List.range bs.length).map (fun j => Place.dram (partPlace p (x + j)))).zip bs)

/-- Bytes of a PART space. -/
def State.readPart (s : State) (p x n : Nat) : List Byte :=
  s.bytesAt ((List.range n).map (fun j => Place.dram (partPlace p (x + j))))

/-! ### Regions and translation (R173 to R177) -/

/-- Page size in bytes. -/
def Region.page (r : Region) : Nat := if r.big then 2 ^ 21 else 2 ^ 16

/-- Whether an entry covers a device address for a context (R175 step 1). -/
def Region.covers (r : Region) (x : Fin 16) (a : Nat) : Bool :=
  r.ctxMask.getLsbD x.val && r.dbase.toNat ≤ a && a < r.dbase.toNat + r.size.toNat * r.page

/-- The entry that covers a device address. -/
def State.regionAt (s : State) (p : Fin 4) (x : Fin 16) (a : Nat) : Option (Nat × Region) :=
  ((s.part p).regions.filterMap (fun e => e.2.map (fun r => (e.1, r)))).find? (fun e => e.2.covers x a)

/-- The place of byte `f` of a region's kind (R176). -/
def State.framePlace (s : State) (p : Fin 4) (k : RegionKind) (f : Nat) : Option Place :=
  match k with
  | .part => if f < s.partSize p then some (.dram (partPlace p.val f)) else none
  | .dev => if f < s.devSize then some (.dram (s.devPlace f)) else none
  | .bank => (s.bankPlace f).map Place.dram
  | .host => if f < 2 ^ 48 then some (.host f) else none

/-- Frame number of a page (R176). -/
def State.frameOf (s : State) (p : Fin 4) (r : Region) (n : Nat) : Nat :=
  leNat (s.readPart p.val (r.parray.toNat + 4 * n) 4)

/-- A translated address: the entry's number, the entry, its page and the place. -/
structure Xlat where
  entry : Nat
  region : Region
  page : Nat
  place : Place
  deriving DecidableEq, Repr

/-- Translate a device address for a context (R175); `none` is `TRANSLATION`. -/
def State.translate (s : State) (p : Fin 4) (x : Fin 16) (a : Nat) : Option Xlat :=
  match s.regionAt p x a with
  | none => none
  | some (n, r) =>
    let off := a - r.dbase.toNat
    let f := s.frameOf p r (off / r.page)
    if f = 0xFFFFFFFF then none
    else (s.framePlace p r.kind (f * 65536 + off % r.page)).map (fun pl => ⟨n, r, off / r.page, pl⟩)

/-- Translate a list of device addresses, one page at a time in effect; `none` if any is not mapped. -/
def State.translateAll (s : State) (p : Fin 4) (x : Fin 16) : List Nat → Option (List Xlat)
  | [] => some []
  | a :: as =>
    match s.translate p x a with
    | none => none
    | some t => (s.translateAll p x as).map (t :: ·)

/-- The first address of a list that does not translate. -/
def State.firstUnmapped (s : State) (p : Fin 4) (x : Fin 16) (as : List Nat) : Option Nat :=
  as.find? (fun a => (s.translate p x a).isNone)

/-- The places of translated addresses. -/
def placesOf (ts : List Xlat) : List Place := ts.map (fun t => t.place)

/-! ### The shared cache (R186 to R194) -/

/-- Add to the traffic counters of a stack (06, Registers): bytes read and written through its interface, and pick reads. -/
def State.addTraffic (s : State) (st rd wr picks : Nat) : State :=
  s.updStack ⟨st % 12, by omega⟩ (fun k => { k with
    rdBytes := satAdd k.rdBytes rd, wrBytes := satAdd k.wrBytes wr, picks := satAdd k.picks picks })

/-- A context uses a page through a translation cache (R177). A page that the cache does not hold costs one pick read of its page
array entry, and takes the place of another when the cache holds 1,024; which one, no rule states (`Config.pick`, log 3). -/
def State.walkPage (s : State) (p : Fin 4) (g : CachedPage) (r : Region) : State :=
  let held := (s.part p).xlat
  if held.contains g then s
  else
    let mine := held.filter (fun h => h.cache = g.cache)
    let gone := if mine.length < 1024 then none else mine[Config.pick s.freeCtr % 1024]?
    let s := s.addTraffic (keyStack (partPlace p.val (r.parray.toNat + 4 * g.page))) 32 0 1
    let kept := match gone with | some o => held.erase o | none => held
    (if mine.length < 1024 then s else s.draw 1).updPart p (fun q => { q with xlat := kept ++ [g] })

/-- An access of a context goes through a translation cache: cache 0 to 9 a cluster's, 10 the sequencer's (R177). -/
def State.cachePages (s : State) (p : Fin 4) (cache : Nat) (x : Fin 16) (ts : List Xlat) : State :=
  ((ts.map (fun t => (t.entry, t.page, t.region))).dedup).foldl (fun s e => s.walkPage p ⟨cache, x, e.1, e.2.1⟩ e.2.2) s

/-- The other lines present in a line's set (R186): 4,096 sets of 12 in each slice. -/
def State.rivals (s : State) (line : Nat) : List (Nat × LineSt) :=
  let near := (s.part (homeOf (128 * line))).lines.filter (fun e => e.1 ≠ line && s.sliceOf (128 * e.1) = s.sliceOf (128 * line))
  if near.length < 12 then near else near.filter (fun e => Config.cacheSet e.1 % 4096 = Config.cacheSet line % 4096)

/-- Make room for a line (R186): where its set holds 12 others, one of them is evicted, and written back if it is dirty. Which
one, no rule states (`Config.pick`, log 3). -/
def State.makeRoom (s : State) (line : Nat) : State :=
  let rs := s.rivals line
  if rs.length < 12 then s
  else match rs[Config.pick s.freeCtr % rs.length]? with
    | none => s
    | some e =>
      let s := if e.2 = .dirty then s.addTraffic (keyStack (128 * e.1)) 0 128 0 else s
      (s.draw 1).updPart (homeOf (128 * line)) (fun q => { q with lines := q.lines.set .absent e.1 .absent })

/-- One access of a line at its home: a hit or a miss, and a line allocated on every write and on reads that allocate
(R186). A miss fetches `n` bytes in `picks` pick reads from the line's stack. -/
def State.lineAccessOf (s : State) (write allocate : Bool) (n picks line : Nat) : State :=
  let p := homeOf (128 * line)
  let old := (s.part p).lines.get .absent line
  let present := old ≠ .absent
  let now : LineSt :=
    if write then .dirty else if present then old else if allocate then .clean else .absent
  let s := if present || now = .absent then s else s.makeRoom line
  let s := s.addTraffic (keyStack (128 * line)) (if present then 0 else n) 0 (if present then 0 else picks)
  s.updPart p (fun q => { q with
    hits := if present then satAdd q.hits 1 else q.hits
    misses := if present then q.misses else satAdd q.misses 1
    lines := q.lines.set .absent line now })

/-- An access of a line that fetches all of it on a miss. -/
def State.lineAccess (s : State) (write allocate : Bool) (line : Nat) : State := s.lineAccessOf write allocate 128 0 line

/-- Places of cacheable stack memory among translated addresses. -/
def cachedKeys (ts : List Xlat) : List Nat :=
  ts.filterMap (fun t => match t.place with
    | .dram k => if t.region.cacheable then some k else none
    | .host _ => none)

/-- Lines of the cacheable addresses of a translation, each once. -/
def linesTouched (ts : List Xlat) : List Nat := ((cachedKeys ts).map (· / 128)).dedup

/-- The lines of an access at their homes. A miss fetches the whole line, but nothing for a write that covers the line, and
only the 64-byte groups read where the read does not allocate (R183, R186). -/
def State.accessLines (s : State) (write allocate : Bool) (ts : List Xlat) : State :=
  (linesTouched ts).foldl (fun s l =>
    let mine := ((cachedKeys ts).filter (fun k => k / 128 = l)).dedup
    let n := if write then (if mine.length = 128 then 0 else 128)
      else if allocate then 128 else 64 * ((mine.map (· / 64)).dedup).length
    s.lineAccessOf write allocate n 0 l) s

/-- The lines of pick reads at their homes: a miss is served by the stack's pick path and allocates nothing (R194). -/
def State.pickLines (s : State) (ts : List Xlat) : State :=
  (linesTouched ts).foldl (fun s l =>
    let n := ((((cachedKeys ts).filter (fun k => k / 128 = l)).map (· / 32)).dedup).length
    s.lineAccessOf false false (32 * n) n l) s

/-- Traffic counters of the stacks (06, Registers): bytes through the interface of accesses that the cache does not
serve, and pick reads. -/
def State.countTraffic (s : State) (write picks : Bool) (ts : List Xlat) : State :=
  let keys := ts.filterMap (fun t => match t.place with
    | .dram k => if t.region.cacheable then none else some k
    | .host _ => none)
  (List.finRange 12).foldl (fun s st =>
    let mine := keys.filter (fun k => keyStack k = st.val)
    let n := mine.length
    if n = 0 then s
    else s.addTraffic st.val (if write then 0 else n) (if write then n else 0)
      (if picks then ((mine.map (· / 32)).dedup).length else 0)) s

/-- Translated addresses outside BANK memory: what a stack engine reads through its interface (R218). -/
def offBank (ts : List Xlat) : List Xlat := ts.filter (fun t => t.region.kind ≠ .bank)

/-- One operation of R190 performed at the home partition of a place. -/
def State.countAtomic (s : State) (k : Nat) : State :=
  s.updPart (homeOf k) (fun q => { q with atomics := satAdd q.atomics 1 })

/-! ### The host-line directory (R368) -/

/-- Lines of PART or DEV memory that the host holds so that this access must first back-invalidate them: any held line for
a write, an exclusive one for a read. -/
def State.hostBlocks (s : State) (write : Bool) (ps : List Place) : List Nat :=
  ((ps.filterMap (fun p => match p with | .dram k => some (k / 128) | .host _ => none)).dedup).filter (fun l =>
    let h := s.hostDir.get 0 l
    if write then h ≠ 0 else h = 2)

/-- Send back-invalidations for lines, each once (R368). -/
def State.backInvalidate (s : State) (ls : List Nat) : State :=
  { s with backInv := s.backInv ++ ls.filter (fun l => !s.backInv.contains l) }

/-! ### Stream caches (R277) -/

/-- Discard the copies of groups in one cluster's stream cache. -/
def Cluster.dropGroups (c : Cluster) (gs : List Nat) : Cluster :=
  { c with stream := c.stream.filter (fun e => !gs.contains e.1) }

/-- An acquire discards every copy that is not of a SHARED_RO region (R277, R282). -/
def Cluster.acquire (c : Cluster) : Cluster :=
  { c with stream := c.stream.filter (fun e => match e.2 with | some k => k.sharedRO | none => false) }

/-- Discard the copies of groups in every cluster's stream cache (R277). -/
def State.dropCopies (s : State) (gs : List Nat) : State :=
  { s with clusters := s.clusters.map (fun e => (e.1, e.2.dropGroups gs)) }

/-! ### The host's reach through BAR2 (R367 to R370) -/

/-- The place that an offset reaches, and whether host access to it is coherent (R368, R369). -/
def State.hostPlace (s : State) (o : Nat) : Option (Nat × Bool) :=
  match s.bar2At o with
  | some (.dev k) => some (k, true)
  | some (.part _ _ k) => some (k, true)
  | some (.bank k) => some (k, false)
  | none => none

/-- Places that a host access reaches, with the index of its byte. -/
def State.hostPlaces (s : State) (off n : Nat) : List (Nat × Nat × Bool) :=
  (List.range n).filterMap (fun j => (s.hostPlace (off + j)).map (fun e => (j, e.1, e.2)))

/-- What a host read returns: the bytes, with all ones where nothing backs them, and whether the access is poisoned. -/
def State.hostAnswer (s : State) (n : Nat) (ps : List (Nat × Nat × Bool)) : List Byte × Bool :=
  ((List.range n).map (fun j => match ps.find? (fun e => e.1 = j) with
      | some e => s.mem.get 0 e.2.1
      | none => 0xFF#8),
    ps.any (fun e => s.groupPoisoned (e.2.1 / 64)))

end Sys2Proof.Machine
end

