-- ==== Sys2Proof/Machine/Float.lean ====
section
/-! DEFINITION. The element formats of R115 and their arithmetic: exact values, rounding to nearest even and stochastic
rounding, conversion, IEEE 754 operations in FP32, and the accumulation of the matrix engines and bank units. -/

namespace Sys2Proof.Machine

/-- A value of a floating-point format: a NaN, an infinity, or sign × magnitude `m × 2^e` (with `m` 0 for the zeros). -/
inductive Val where
  | nan
  | inf (neg : Bool)
  | fin (neg : Bool) (m : Nat) (e : Int)
  deriving DecidableEq, Repr

/-- A floating-point layout (R115): exponent and mantissa widths, bias, whether the top exponent holds infinity and NaN
(`ieee`), whether only S.1111.111 is NaN (`e4m3`). -/
structure FFmt where
  ew : Nat
  mw : Nat
  bias : Nat
  ieee : Bool
  oneNan : Bool
  deriving DecidableEq, Repr

def fp32 : FFmt := ⟨8, 23, 127, true, false⟩
def bf16 : FFmt := ⟨8, 7, 127, true, false⟩
def fp16 : FFmt := ⟨5, 10, 15, true, false⟩
def e4m3 : FFmt := ⟨4, 3, 7, false, true⟩
def e5m2 : FFmt := ⟨5, 2, 15, true, false⟩
def e2m3 : FFmt := ⟨2, 3, 1, false, false⟩
def e2m1 : FFmt := ⟨2, 1, 1, false, false⟩

/-- Width of the layout in bits. -/
def FFmt.width (f : FFmt) : Nat := 1 + f.ew + f.mw

/-- The value of a bit pattern (R115). -/
def FFmt.decode (f : FFmt) (b : Nat) : Val :=
  let neg := bit b (f.ew + f.mw)
  let ex := bits b (f.ew + f.mw - 1) f.mw
  let mn := b % 2 ^ f.mw
  let top := 2 ^ f.ew - 1
  if f.ieee && ex = top then (if mn = 0 then .inf neg else .nan)
  else if f.oneNan && ex = top && mn = 2 ^ f.mw - 1 then .nan
  else if ex = 0 then .fin neg mn (1 - (f.bias : Int) - f.mw)
  else .fin neg (2 ^ f.mw + mn) ((ex : Int) - f.bias - f.mw)

/-- The canonical NaN pattern (R128): all exponent bits and, in an IEEE layout, the top mantissa bit. -/
def FFmt.nanBits (f : FFmt) : Nat :=
  if f.ieee then (2 ^ f.ew - 1) * 2 ^ f.mw + 2 ^ (f.mw - 1) else 2 ^ (f.ew + f.mw) - 1

/-- The pattern of the largest finite magnitude. -/
def FFmt.maxBits (f : FFmt) : Nat :=
  if f.ieee then (2 ^ f.ew - 1) * 2 ^ f.mw - 1
  else if f.oneNan then 2 ^ (f.ew + f.mw) - 2
  else 2 ^ (f.ew + f.mw) - 1

/-- The pattern of infinity, without sign, in an IEEE layout. -/
def FFmt.infBits (f : FFmt) : Nat := (2 ^ f.ew - 1) * 2 ^ f.mw

/-- Rounding modes of R126: nearest even, or stochastic with the draw `r`; `up`, towards +infinity on a magnitude, is used by R264 only. -/
inductive Rnd where
  | even
  | stoch (r : Nat)
  | up
  deriving DecidableEq, Repr

/-- Round the magnitude `m × 2^e` to a multiple of `2^q`: the multiple, as a count. -/
def roundTo (rnd : Rnd) (m : Nat) (e q : Int) : Nat :=
  if q ≤ e then m * 2 ^ (e - q).toNat
  else
    let sh := (q - e).toNat
    let fl := m / 2 ^ sh
    let rem := m % 2 ^ sh
    match rnd with
    | .even =>
      if 2 * rem > 2 ^ sh || (2 * rem = 2 ^ sh && fl % 2 = 1) then fl + 1 else fl
    | .stoch r => if 65536 * rem / 2 ^ sh > r then fl + 1 else fl
    | .up => if rem = 0 then fl else fl + 1

/-- The position of the top bit of a magnitude: `⌊log2 m⌋`, 0 for 0. -/
def topBit (m : Nat) : Nat := Nat.log2 m

/-- The pattern, without sign, of a finite magnitude rounded to the layout with the exponent range unbounded above; the
flag says that the magnitude exceeds the largest finite one (R127). -/
def FFmt.roundMag (f : FFmt) (rnd : Rnd) (m : Nat) (e : Int) : Nat × Bool :=
  if m = 0 then (0, false)
  else
    let emin : Int := 1 - (f.bias : Int)
    let ex : Int := max (e + topBit m) emin
    let q : Int := ex - f.mw
    let n := roundTo rnd m e q
    let b : Nat := ((ex - emin).toNat) * 2 ^ f.mw + n
    if b > f.maxBits then (b, true) else (b, false)

/-- Put a sign on a pattern. -/
def FFmt.withSign (f : FFmt) (neg : Bool) (b : Nat) : Nat := if neg then b + 2 ^ (f.ew + f.mw) else b

/-- Conversion of a value to a floating-point layout (R126, R127): `sat` is the default saturation of the FP8 formats;
FP16, BF16 and FP32 overflow to infinity as IEEE 754 prescribes. -/
def FFmt.encode (f : FFmt) (rnd : Rnd) (sat : Bool) : Val → Nat
  | .nan => f.nanBits
  | .inf neg =>
    if sat then f.withSign neg f.maxBits
    else if f.ieee then f.withSign neg f.infBits
    else f.nanBits
  | .fin neg m e =>
    match f.roundMag rnd m e with
    | (b, false) => f.withSign neg b
    | (_, true) =>
      if sat then f.withSign neg f.maxBits
      else if f.ieee then f.withSign neg f.infBits
      else f.nanBits

/-- The value of an FP32 pattern. -/
def val32 (b : Word) : Val := fp32.decode b.toNat

/-- An FP32 pattern rounded to nearest even (R123). -/
def to32 (v : Val) : Word := BitVec.ofNat 32 (fp32.encode .even false v)

/-- The signed magnitude of a finite value at exponent `e0`, as an integer count of `2^e0`. -/
def scaled (neg : Bool) (m : Nat) (e e0 : Int) : Int :=
  let n : Int := ((m * 2 ^ (e - e0).toNat : Nat) : Int)
  if neg then -n else n

/-- The exact sum of two values (R123): opposite infinities give NaN; an exact zero sum of opposite signs is +0. -/
def addVal : Val → Val → Val
  | .nan, _ => .nan
  | _, .nan => .nan
  | .inf a, .inf b => if a = b then .inf a else .nan
  | .inf a, _ => .inf a
  | _, .inf b => .inf b
  | .fin na ma ea, .fin nb mb eb =>
    let e0 := min ea eb
    let s := scaled na ma ea e0 + scaled nb mb eb e0
    if s = 0 then .fin (if ma = 0 && mb = 0 then na && nb else false) 0 0
    else .fin (decide (s < 0)) s.natAbs e0

/-- The exact product of two values: infinity times zero is NaN (R122). -/
def mulVal : Val → Val → Val
  | .nan, _ => .nan
  | _, .nan => .nan
  | .inf a, .inf b => .inf (a != b)
  | .inf a, .fin b m _ => if m = 0 then .nan else .inf (a != b)
  | .fin a m _, .inf b => if m = 0 then .nan else .inf (a != b)
  | .fin a ma ea, .fin b mb eb => .fin (a != b) (ma * mb) (ea + eb)

/-- A value with its sign reversed. -/
def negVal : Val → Val
  | .nan => .nan
  | .inf a => .inf (!a)
  | .fin a m e => .fin (!a) m e

/-- A value times a power of two. -/
def scaleVal (k : Int) : Val → Val
  | .nan => .nan
  | .inf a => .inf a
  | .fin a m e => .fin a m (e + k)

/-- A value's magnitude. -/
def absVal : Val → Val
  | .nan => .nan
  | .inf _ => .inf false
  | .fin _ m e => .fin false m e

/-- Whether one non-NaN value is less than another, −0 less than +0 (R123). -/
def ltVal : Val → Val → Bool
  | .nan, _ => false
  | _, .nan => false
  | .inf a, .inf b => a && !b
  | .inf a, _ => a
  | _, .inf b => !b
  | .fin na ma ea, .fin nb mb eb =>
    let e0 := min ea eb
    let x := scaled na ma ea e0
    let y := scaled nb mb eb e0
    decide (x < y) || (decide (x = 0) && decide (y = 0) && na && !nb)

/-- Whether a value is a NaN. -/
def Val.isNan : Val → Bool
  | .nan => true
  | _ => false

/-- Whether a value is zero. -/
def Val.isZero : Val → Bool
  | .fin _ 0 _ => true
  | _ => false

/-- Whether a value is negative (−0 and −∞ included). -/
def Val.isNeg : Val → Bool
  | .nan => false
  | .inf a => a
  | .fin a _ _ => a

/-- The quotient of two finite magnitudes as a magnitude with at least 40 significant bits and a sticky last bit, so that
rounding it to any format of R115 rounds the exact quotient. -/
def divMag (m : Nat) (e : Int) (n : Nat) (f : Int) : Nat × Int :=
  let k := topBit n + 64
  let num := m * 2 ^ k
  let q := num / n
  (2 * q + (if num % n = 0 then 0 else 1), e - f - k - 1)

/-- The quotient of two values, exact up to the sticky bit of `divMag`. -/
def divVal : Val → Val → Val
  | .nan, _ => .nan
  | _, .nan => .nan
  | .inf _, .inf _ => .nan
  | .inf a, .fin b _ _ => .inf (a != b)
  | .fin a _ _, .inf b => .fin (a != b) 0 0
  | .fin a ma ea, .fin b mb eb =>
    if mb = 0 then (if ma = 0 then .nan else .inf (a != b))
    else let (m, e) := divMag ma ea mb eb; .fin (a != b) m e

/-! ### FP32 operations of R123 -/

def fAdd (a b : Word) : Word := to32 (addVal (val32 a) (val32 b))
def fSub (a b : Word) : Word := to32 (addVal (val32 a) (negVal (val32 b)))
def fMul (a b : Word) : Word := to32 (mulVal (val32 a) (val32 b))
/-- `d + a × b` with one rounding. -/
def fFma (d a b : Word) : Word := to32 (addVal (val32 d) (mulVal (val32 a) (val32 b)))

/-- MAX of R123: the non-NaN operand when exactly one is NaN; the canonical NaN when both are. -/
def maxVal (a b : Val) : Val :=
  if a.isNan then b else if b.isNan then a else if ltVal a b then b else a

/-- MIN of R123. -/
def minVal (a b : Val) : Val :=
  if a.isNan then b else if b.isNan then a else if ltVal b a then b else a

def fMax (a b : Word) : Word := to32 (maxVal (val32 a) (val32 b))
def fMin (a b : Word) : Word := to32 (minVal (val32 a) (val32 b))

/-- The integer nearest to a value, ties to even, as an integer (R54, R126); `none` for NaN and the infinities. -/
def nearestInt (rnd : Rnd) : Val → Option Int
  | .fin neg m e => let n : Int := roundTo rnd m e 0; some (if neg then -n else n)
  | _ => none

/-- Conversion to a two's complement integer of `w` bits, saturating (R127); NaN gives 0. -/
def toIntSat (rnd : Rnd) (w : Nat) (v : Val) : Nat :=
  let hi : Int := 2 ^ (w - 1) - 1
  let lo : Int := -(2 ^ (w - 1))
  let clampTo (x : Int) : Nat := (BitVec.ofInt w (max lo (min hi x))).toNat
  match v with
  | .nan => 0
  | .inf neg => clampTo (if neg then lo else hi)
  | v => match nearestInt rnd v with
    | some x => clampTo x
    | none => 0

/-- `FCVTI` (R54, R123). -/
def fCvtI (a : Word) : Word := BitVec.ofNat 32 (toIntSat .even 32 (val32 a))

/-- The value of an integer. -/
def intVal (x : Int) : Val := .fin (decide (x < 0)) x.natAbs 0

/-- `ICVTF` (R54). -/
def iCvtF (a : Word) : Word := to32 (intVal a.toInt)

/-! ### Element formats (R115) -/

/-- Element width in bits; 0 for the Contour formats, whose elements are coded, and for reserved codes. -/
def elemWidth : Nat → Nat
  | 0x0 => 32
  | 0x1 => 16
  | 0x2 => 16
  | 0x3 => 8
  | 0x4 => 8
  | 0x5 => 8
  | 0x6 => 4
  | 0x7 => 8
  | 0x8 => 6
  | 0x9 => 4
  | 0xC => 32
  | _ => 0

/-- Whether a format carries E8M0 block scales (R118). -/
def isMx (fmt : Nat) : Bool := fmt = 7 || fmt = 8 || fmt = 9

/-- Whether a format is Contour-coded (R115). -/
def isContour (fmt : Nat) : Bool := fmt = 0xA || fmt = 0xB

/-- The width of the raw values behind a format: 16 for Contour. -/
def rawWidth (fmt : Nat) : Nat := if isContour fmt then 16 else elemWidth fmt

/-- The value of an element (R115); the Contour formats hold BF16 and FP16 values. -/
def elemVal (fmt b : Nat) : Val :=
  match fmt with
  | 0x0 => fp32.decode b
  | 0x1 => bf16.decode b
  | 0x2 => fp16.decode b
  | 0x3 => e4m3.decode b
  | 0x4 => e5m2.decode b
  | 0x5 => intVal (signed 8 b)
  | 0x6 => intVal (signed 4 b)
  | 0x7 => e4m3.decode b
  | 0x8 => e2m3.decode b
  | 0x9 => e2m1.decode b
  | 0xA => bf16.decode b
  | 0xB => fp16.decode b
  | 0xC => intVal (signed 32 b)
  | _ => .nan

/-- Narrowing conversion of a value (R126, R127); `satOff` is `SAT_OFF`. MX elements saturate at their largest finite
magnitude. -/
def narrow (fmt : Nat) (rnd : Rnd) (satOff : Bool) (v : Val) : Nat :=
  match fmt with
  | 0x0 => fp32.encode rnd false v
  | 0x1 => bf16.encode rnd false v
  | 0x2 => fp16.encode rnd false v
  | 0x3 => e4m3.encode rnd (!satOff) v
  | 0x4 => e5m2.encode rnd (!satOff) v
  | 0x5 => toIntSat rnd 8 v
  | 0x6 => toIntSat rnd 4 v
  | 0x7 => e4m3.encode rnd true v
  | 0x8 => e2m3.encode rnd true v
  | 0x9 => e2m1.encode rnd true v
  | 0xC => toIntSat rnd 32 v
  | _ => 0

/-- The exponent an E8M0 byte gives (R118); `none` for 0xFF, the NaN block. -/
def e8m0 (b : Nat) : Option Int := if b = 0xFF then none else some ((b : Int) - 127)

/-- The greatest of a list of magnitudes, as a value. -/
def amaxVal (vs : List Val) : Val := vs.foldl (fun m v => maxVal m (absVal v)) (.fin false 0 0)

/-- `⌊log2⌋` of a nonzero finite magnitude. -/
def ilog2 : Val → Int
  | .fin _ m e => e + topBit m
  | _ => 0

/-- An MX block (R129): the scale byte and the element patterns; `rnds` gives each element's rounding mode. -/
def mxBlock (fmt : Nat) (rnds : List Rnd) (vs : List Val) : Nat × List Nat :=
  let emax : Int := if fmt = 7 then 8 else 2
  if vs.any (fun v => match v with | .fin _ _ _ => false | _ => true) then (0xFF, vs.map (fun _ => 0))
  else
    let am := amaxVal vs
    let x : Int := if am.isZero then -127 else ilog2 am - emax
    let sc : Int := min 254 (max 0 (x + 127))
    (sc.toNat, List.zipWith (fun v r => narrow fmt r false (scaleVal (127 - sc) v)) vs rnds)

/-- The `n` rounding modes of a conversion: nearest even, or the draws from counter `ctr` on (R126). -/
def rndModes (stoch : Bool) (ctr n : Nat) : List Rnd :=
  if stoch then (List.range n).map (fun k => Rnd.stoch (Config.rand (ctr + k)).toNat)
  else List.replicate n .even

/-- Convert values to a format in blocks where the format has them: the element bytes, then the scale bytes in block
order (R101, R104, R129, R153). -/
def narrowList (fmt : Nat) (stoch satOff : Bool) (ctr : Nat) (vs : List Val) : List Byte :=
  let rs := rndModes stoch ctr vs.length
  if isMx fmt then
    let blks := List.zipWith (fun v r => mxBlock fmt r v) (chunks 32 vs.length vs) (chunks 32 vs.length rs)
    packBits (elemWidth fmt) (blks.flatMap Prod.snd) ++ blks.map (fun b => BitVec.ofNat 8 b.1)
  else packBits (elemWidth fmt) (List.zipWith (fun v r => narrow fmt r satOff v) vs rs)

/-! ### Accumulation (R119 to R122, R124) -/

/-- A value rounded to FP32 and flushed: a magnitude below 2^−126 becomes zero of the same sign (R121). -/
def flush32 (v : Val) : Word :=
  let w := to32 v
  if bits w.toNat 30 23 = 0 then (if w.getLsbD 31 then 0x80000000#32 else 0#32) else w

/-- The layout of the ME's running sum: the FP32 exponent range and a 32-bit significand (R120). -/
def run32 : FFmt := ⟨8, 31, 127, true, false⟩

/-- Round to the running sum and flush (R120, R121); overflow becomes infinity (R122). -/
def runRound (v : Val) : Val :=
  match run32.decode (run32.encode .even false v) with
  | .fin neg m e => if m < 2 ^ 31 then .fin neg 0 0 else .fin neg m e
  | w => w

/-- The exact sum of a group's products, scaled by a power of two if the group has scales, rounded once to FP32 and
flushed (R119, R120 steps 1 and 2, R124); `none` marks a scale of 0xFF. -/
def groupSum (sc : Option Int) (ps : List Val) : Word :=
  match sc with
  | none => flush32 .nan
  | some k => flush32 (scaleVal k (ps.foldl addVal (.fin false 0 0)))

/-- One output element of an `MMA` instance (R120 to R122): `init` is the tile value when `ACCUM` is 1. -/
def mmaElem (init : Option Word) (groups : List Word) : Word :=
  let start : Val := match init with
    | none => .fin false 0 0
    | some w => val32 (flush32 (val32 w))
  flush32 (groups.foldl (fun acc g => runRound (addVal acc (val32 g))) start)

/-- The exponent that a pair of block scales gives (R119). -/
def scalePair (a b : Option Int) : Option Int :=
  match a, b with
  | some x, some y => some (x + y)
  | _, _ => none

/-- Sum of FP32 values in list order, the first taken exactly (R104, R222, R257). -/
def sum32 : List Word → Word
  | [] => 0
  | w :: ws => ws.foldl fAdd w

end Sys2Proof.Machine
end

