-- ==== Sys2Proof/Machine/Contour.lean ====
section
/-! DEFINITION. Contour coding of BF16 and FP16 tensors (R131 to R142): the chunk, the canonical codes, the encoder of
R137 and R138, and the expander with the rules of R139. -/

namespace Sys2Proof.Machine

/-- Values in a chunk (R131). -/
def chunkValues : Nat := 32768
/-- Bits of the exponent field of a chunk's values: 5 for FP16, 8 for BF16 (R135). -/
def expBits (f16 : Bool) : Nat := if f16 then 5 else 8
/-- Bits of the mantissa (R135). -/
def manBits (f16 : Bool) : Nat := if f16 then 10 else 7
/-- The exponent of a value. -/
def expOf (f16 : Bool) (v : Nat) : Nat := bits v 14 (manBits f16)

/-! ### The encoder (R137, R138) -/

/-- A leaf or merged node: weight, 0 for a leaf or 1 for a merged node, its rank among those, and its leaves. -/
structure HNode where
  w : Nat
  merged : Nat
  rank : Nat
  leaves : List Nat
  deriving DecidableEq, Repr

/-- Which of two nodes is taken first: the lighter; on equal weight a leaf before a merged node, then the lower rank. -/
def HNode.before (a b : HNode) : Bool :=
  decide (a.w < b.w) || (a.w = b.w && (decide (a.merged < b.merged) || (a.merged = b.merged && decide (a.rank < b.rank))))

/-- Put a node in its place in a list sorted by `before`. -/
def HNode.insert (n : HNode) : List HNode → List HNode
  | [] => [n]
  | m :: ms => if n.before m then n :: m :: ms else m :: HNode.insert n ms

/-- Merge the two lightest nodes until one remains; each merge makes its leaves one deeper. -/
def huffDepths : Nat → Nat → List HNode → List (Nat × Nat) → List (Nat × Nat)
  | 0, _, _, ds => ds
  | fuel + 1, k, a :: b :: ns, ds =>
    let n : HNode := ⟨a.w + b.w, 1, k, a.leaves ++ b.leaves⟩
    huffDepths fuel (k + 1) (n.insert ns) (ds.map (fun d => if n.leaves.contains d.1 then (d.1, d.2 + 1) else d))
  | _ + 1, _, _, ds => ds

/-- Sum of `2^(11 − len)`. -/
def kraft (ds : List (Nat × Nat)) : Nat := (ds.map (fun d => 2 ^ (11 - d.2))).sum

/-- Whether symbol `a` comes after `b` in canonical order: by length, then by exponent, the escape being 256. -/
def canonAfter (a b : Nat × Nat) : Bool := decide (b.2 < a.2) || (a.2 = b.2 && decide (b.1 < a.1))

/-- Lengthen codes until the length sum fits 11 bits (R137). -/
def limitLens : Nat → List (Nat × Nat) → List (Nat × Nat)
  | 0, ds => ds
  | fuel + 1, ds =>
    if kraft ds ≤ 2048 then ds
    else
      match (ds.filter (fun d => d.2 < 11)).foldl (fun (m : Option (Nat × Nat)) d => match m with
          | none => some d
          | some x => if canonAfter d x then some d else some x) none with
      | none => ds
      | some x => limitLens fuel (ds.map (fun d => if d.1 = x.1 then (d.1, d.2 + 1) else d))

/-- Put a symbol in canonical order. -/
def canonInsert (d : Nat × Nat) : List (Nat × Nat) → List (Nat × Nat)
  | [] => [d]
  | x :: xs => if canonAfter d x then x :: canonInsert d xs else d :: x :: xs

/-- Put an exponent count in the order of `sel`: count descending, exponent ascending. -/
def selInsert (d : Nat × Nat) : List (Nat × Nat) → List (Nat × Nat)
  | [] => [d]
  | x :: xs => if x.2 < d.2 || (x.2 = d.2 && d.1 < x.1) then d :: x :: xs else x :: selInsert d xs

/-- The symbols and code lengths of a chunk, in canonical order, the escape being 256 (R137). -/
def contourLens (f16 : Bool) (vs : List Nat) : List (Nat × Nat) :=
  let counts : Tbl Nat := vs.foldl (fun (a : Tbl Nat) v => Tbl.set 0 a (expOf f16 v) (Tbl.get 0 a (expOf f16 v) + 1)) []
  let sel := ((counts.filter (fun c => decide (8 ≤ c.2))).foldl (fun l c => selInsert c l) []).take 40
  let esc := max 1 (chunkValues - (sel.map Prod.snd).sum)
  let leaves : List HNode := (sel ++ [(256, esc)]).map (fun (c : Nat × Nat) => ⟨c.2, 0, c.1, [c.1]⟩)
  let nodes := leaves.foldl (fun l n => n.insert l) []
  let ds := huffDepths 64 0 nodes (leaves.map (fun n => (n.rank, 0)))
  let ds := limitLens 512 (ds.map (fun d => (d.1, min d.2 11)))
  ds.foldl (fun l d => canonInsert d l) []

/-- The codes of symbols given by their lengths in canonical order: symbol, length, code (R136). -/
def assignCodes : Nat → Nat → List (Nat × Nat) → List (Nat × Nat × Nat)
  | _, _, [] => []
  | len, code, (sym, l) :: ds =>
    let c := code * 2 ^ (l - len)
    (sym, l, c) :: assignCodes l (c + 1) ds

/-- The `n` bits of a field, most significant first (R135). -/
def msbBits : Nat → Nat → List Bool
  | 0, _ => []
  | n + 1, v => bit v n :: msbBits n v

/-- The bits of one value (R135). -/
def valueBits (f16 : Bool) (codes : List (Nat × Nat × Nat)) (v : Nat) : List Bool :=
  let e := expOf f16 v
  let code := match codes.find? (fun c => c.1 = e) with
    | some c => msbBits c.2.1 c.2.2
    | none => match codes.find? (fun c => c.1 = 256) with
      | some c => msbBits c.2.1 c.2.2 ++ msbBits (expBits f16) e
      | none => []
  code ++ [bit v 15] ++ msbBits (manBits f16) v

/-- The bytes of a bit string, bit n being bit n mod 8 of byte n div 8 (R135). -/
def stringBytes (l : List Bool) : List Byte :=
  (chunks 8 (l.length / 8 + 1) l).map (fun c => BitVec.ofNat 8 (c.foldr (fun b a => b2n b + 2 * a) 0))

/-- Pad with zero bytes to a length. -/
def padTo (n : Nat) (l : List Byte) : List Byte := l ++ List.replicate (n - l.length) 0

/-- The bit offset at which each run of 64 values begins. -/
def blockStarts : Nat → List (List Bool) → List Nat
  | _, [] => []
  | o, b :: bs => o :: blockStarts (o + b.length) bs

/-- The chunk that the encoder writes for 32,768 values (R132 to R138). -/
def contourEncode (f16 : Bool) (vs : List Nat) : List Byte :=
  let ds := contourLens f16 vs
  let codes := assignCodes 0 0 ds
  let blocks := (chunks 64 513 vs).map (fun b => b.flatMap (valueBits f16 codes))
  let payload := blocks.flatten
  let len64 := cdiv (1600 + cdiv payload.length 8) 64
  if 1025 ≤ len64 then
    [0xC7, BitVec.ofNat 8 (1 + 2 * b2n f16)] ++ List.replicate 14 0 ++ leBytes 2 1025 ++ leBytes 3 524288
      ++ List.replicate 43 0 ++ vs.flatMap (leBytes 2)
  else
    let syms := (ds.filter (fun d => d.1 ≠ 256)).map Prod.fst
    let esc := (ds.findIdx? (fun d => d.1 = 256)).getD 0
    let head : List Byte := [0xC7, BitVec.ofNat 8 (2 * b2n f16), BitVec.ofNat 8 syms.length, BitVec.ofNat 8 esc]
      ++ (List.range 11).map (fun n => BitVec.ofNat 8 (ds.filter (fun d => d.2 = n + 1)).length)
      ++ [0] ++ leBytes 2 len64 ++ leBytes 3 payload.length ++ [0, 0, 0] ++ padTo 40 (syms.map (BitVec.ofNat 8))
    padTo (64 * len64) (head ++ (blockStarts 0 blocks).flatMap (leBytes 3) ++ stringBytes payload)

/-! ### The expander (R139, R140) -/

/-- `LEN64` of a chunk header (R133). -/
def chunkLen64 (c : List Byte) : Nat := lf c 16 2

/-- The symbols of a coded chunk in canonical order with their lengths (R136). -/
def chunkSyms (c : List Byte) : List (Nat × Nat) :=
  let n := lf c 2 1
  let esc := lf c 3 1
  let lens := (List.range 11).flatMap (fun k => List.replicate (lf c (4 + k) 1) (k + 1))
  (List.range (n + 1)).zip lens |>.map (fun p =>
    ((if p.1 = esc then 256 else lf c (24 + (if p.1 < esc then p.1 else p.1 - 1)) 1), p.2))

/-- Bit `n` of a payload held as a number. -/
def payBits (pay o w : Nat) : Nat := (List.range w).foldl (fun a i => 2 * a + b2n (bit pay (o + i))) 0

/-- Read one value at bit `o`: its pattern and the next bit; `none` when no code matches (R139). -/
def readValue (f16 : Bool) (codes : List (Nat × Nat × Nat)) (pay o : Nat) : Option (Nat × Nat) :=
  match codes.find? (fun c => payBits pay o c.2.1 = c.2.2) with
  | none => none
  | some (sym, l, _) =>
    let o := o + l
    let (e, o) := if sym = 256 then (payBits pay o (expBits f16), o + expBits f16) else (sym, o)
    let m := payBits pay (o + 1) (manBits f16)
    some (b2n (bit pay o) * 32768 + e * 2 ^ manBits f16 + m, o + 1 + manBits f16)

/-- Read `n` values from bit `o`; the values and the bit after them. -/
def readValues (f16 : Bool) (codes : List (Nat × Nat × Nat)) (pay : Nat) : Nat → Nat → Option (List Nat × Nat)
  | 0, o => some ([], o)
  | n + 1, o =>
    match readValue f16 codes pay o with
    | none => none
    | some (v, o) => (readValues f16 codes pay n o).map (fun r => (v :: r.1, r.2))

/-- Whether a chunk's header meets R139. -/
def chunkHeaderOk (f16 : Bool) (c : List Byte) : Bool :=
  let fl := lf c 1 1
  let syms := (List.range 40).map (fun k => lf c (24 + k) 1)
  let counts := (List.range 11).map (fun k => lf c (4 + k) 1)
  let n := lf c 2 1
  lf c 0 1 = 0xC7 && decide (fl < 4) && bit fl 1 = f16 && lf c 15 1 = 0 && lf c 21 3 = 0
    && (if bit fl 0 then
          n = 0 && lf c 3 1 = 0 && counts.all (· = 0) && syms.all (· = 0) && chunkLen64 c = 1025 && lf c 18 3 = 524288
        else
          decide (1 ≤ n) && decide (n ≤ 40) && decide (lf c 3 1 ≤ n) && counts.sum = n + 1
            && decide (((List.range 11).map (fun k => counts.getD k 0 * 2 ^ (10 - k))).sum ≤ 2048)
            && decide ((syms.take n).Nodup) && (!f16 || (syms.take n).all (· < 32)) && (syms.drop n).all (· = 0)
            && chunkLen64 c = cdiv (1600 + cdiv (lf c 18 3) 8) 64 && decide (chunkLen64 c ≤ 1024))

/-- Expand a chunk to its 32,768 value patterns; `none` when it breaks R139. -/
def contourExpand (f16 : Bool) (c : List Byte) : Option (List Nat) :=
  if !chunkHeaderOk f16 c then none
  else if bit (lf c 1 1) 0 then some ((List.range chunkValues).map (fun i => lf c (64 + 2 * i) 2))
  else
    let codes := assignCodes 0 0 (chunkSyms c)
    let pay := leNat (c.drop 1600)
    let start (j : Nat) : Nat := if j < 512 then lf c (64 + 3 * j) 3 else lf c 18 3
    (List.range 512).foldl (fun acc j => match acc with
      | none => none
      | some vs => match readValues f16 codes pay 64 (start j) with
        | some (ws, o) => if o = start (j + 1) then some (vs ++ ws) else none
        | none => none) (some [])

/-- Expand chunks that follow one another: the values of `n` chunks, or the offset of the first malformed header. -/
def expandChunks (f16 : Bool) : Nat → Nat → List Byte → Except Nat (List Nat)
  | 0, _, _ => .ok []
  | n + 1, o, l =>
    match contourExpand f16 (l.take (64 * chunkLen64 l)) with
    | none => .error o
    | some vs =>
      match expandChunks f16 n (o + 64 * chunkLen64 l) (l.drop (64 * chunkLen64 l)) with
      | .ok ws => .ok (vs ++ ws)
      | .error e => .error e

end Sys2Proof.Machine
end

