-- ==== Sys2Proof/Machine/Tensor.lean ====
section
/-! DEFINITION. Tensor descriptors and layouts (R143 to R157, R464, R465), and the permutations of the Traverse network
(R159 to R162). -/

namespace Sys2Proof.Machine

/-- The fields of a tensor descriptor (R143). -/
structure Desc where
  layout : Nat
  splay : Nat
  fmt : Nat
  ndim : Nat
  sharded : Bool
  lane : Nat
  tbase : Nat
  text : List Nat
  bext : List Nat
  str : List Int
  soff : Int
  deriving DecidableEq, Repr

/-- Read a descriptor from its 64 bytes (R143). -/
def Desc.ofBytes (l : List Byte) : Desc where
  layout := bits (lf l 0 1) 3 0
  splay := bits (lf l 0 1) 7 4
  fmt := bits (lf l 1 1) 3 0
  ndim := bits (lf l 1 1) 6 4
  sharded := bit (lf l 2 1) 0
  lane := bits (lf l 2 1) 1 1
  tbase := lf l 4 6
  text := (List.range 4).map (fun d => lf l (12 + 4 * d) 4)
  bext := (List.range 4).map (fun d => lf l (28 + 4 * d) 4)
  str := (List.range 4).map (fun d => signed 32 (lf l (44 + 4 * d) 4))
  soff := signed 32 (lf l 60 4)

def Desc.te (d : Desc) (k : Nat) : Nat := d.text.getD k 1
def Desc.be (d : Desc) (k : Nat) : Nat := d.bext.getD k 1
def Desc.st (d : Desc) (k : Nat) : Int := d.str.getD k 0
/-- Width of an element in bits, raw values for Contour. -/
def Desc.w (d : Desc) : Nat := rawWidth d.fmt
/-- Elements of the block, of the tensor. -/
def Desc.count (d : Desc) : Nat := d.be 0 * d.be 1 * d.be 2 * d.be 3
def Desc.total (d : Desc) : Nat := d.te 0 * d.te 1 * d.te 2 * d.te 3
/-- The lane dimension and the step dimension of TILE (R152). -/
def Desc.ld (d : Desc) : Nat := if d.lane = 0 then 1 else 0
def Desc.sd (d : Desc) : Nat := if d.lane = 0 then 0 else 1
/-- The group size of a KVPAGE tensor's scales (R154). -/
def kvGroup (fmt : Nat) : Nat := if fmt = 6 then 32 else 64
/-- Bytes of a tile of step extent `ey` (R152). -/
def tileLen (fmt ey : Nat) : Nat := 128 * ey * rawWidth fmt / 8 + (if isMx fmt then 4 * ey else 0)

/-- Which fields of a descriptor an operation reads (R144). -/
inductive DescUse where
  | all | pick | trav
  deriving DecidableEq, Repr

/-! ### Checks on descriptor fields alone (R144) -/

/-- Product of the tensor extents below dimension `k`. -/
def Desc.below (d : Desc) (k : Nat) : Nat := ((List.range k).map d.te).prod

/-- The constraints of R145, R151, R153, R464 and R465: the lowest byte offset of the fields of each, and whether it is
broken. -/
def Desc.layoutChecks (d : Desc) : List (Nat × Bool) :=
  let dims := List.range (min d.ndim 4)
  let mx := isMx d.fmt
  let row := d.layout = 0 || d.layout = 2
  let zeroStr := d.str.all (· = 0)
  let unit : Int := if d.w = 4 then 2 else if d.w = 6 then 4 else 1
  [ -- sub-byte strides, R145
    (0, row && d.fmt ≤ 0xC && d.w < 8 && (d.st 0 ≠ 1 || (dims.drop 1).any (fun k => d.st k % unit ≠ 0))),
    -- ROW, R151
    (0, d.layout = 0 && isContour d.fmt && dims.any (fun k => d.st k ≠ (d.below k : Int))),
    -- TILE, R151
    (0, d.layout = 1 && (d.ndim ≠ 2 || !zeroStr || d.te d.ld % 128 ≠ 0 || d.be d.ld % 128 ≠ 0
      || (mx && (d.te d.sd % 32 ≠ 0 || d.be d.sd % 32 ≠ 0)) || d.soff ≠ 0)),
    -- BANK, R151
    (0, d.layout = 2 && (d.tbase % 2048 ≠ 0 || d.st 0 ≠ 1 || isContour d.fmt
      || (2 ≤ d.ndim && (d.st 1 ≤ 0 || (d.st 1 * d.w) % 16384 ≠ 0))
      || (dims.drop 2).any (fun k => d.st k < 0 || d.st 1 = 0 || d.st k % d.st 1 ≠ 0))),
    -- KVPAGE, R151
    (0, d.layout = 3 && (d.ndim ≠ 2 || !([64, 128, 256].contains (d.te 0))
      || !([16, 32, 64, 128, 256, 512, 1024].contains (d.te 1)) || !zeroStr || d.soff ≠ 0
      || !([3, 5, 6].contains d.fmt) || d.tbase % 2048 ≠ 0 || d.be 0 ≠ d.te 0 || d.splay ≠ 0)),
    -- MX, R153
    (0, mx && d.splay = 0 && d.be 0 % 32 ≠ 0 && (d.layout ≠ 1 || d.lane = 0)),
    (0, mx && row && (d.st 0 ≠ 1 || (dims.drop 1).any (fun k => d.st k % 32 ≠ 0))),
    -- SP TILE, R464
    (0, d.splay = 1 && (d.ndim ≠ 2 || d.be d.ld % 128 ≠ 0 || (mx && d.be d.sd % 32 ≠ 0))),
    -- MX grouping, R465
    (0, mx && d.lane = 1 && decide ((d.layout = 1) ≠ (d.splay = 1))) ]

/-- Faults of a descriptor's fields as offsets and whether they are broken (R144), for an operation that reads the fields
of `use`; `hdr` is the shard header that follows where there is one. -/
def descChecks (use : DescUse) (l : List Byte) (hdr : Option (List Byte)) : List (Nat × Bool) :=
  let d := Desc.ofBytes l
  let nd := (1, d.ndim = 0 || decide (4 < d.ndim))
  match use with
  | .all =>
    [(0, decide (3 < d.layout) || decide (1 < d.splay)), (1, decide (0xC < d.fmt) || bit (lf l 1 1) 7), nd,
      (2, decide (4 ≤ lf l 2 1)), (3, decide (lf l 3 1 ≠ 0)), (10, decide (lf l 10 2 ≠ 0))]
    ++ (List.range 4).flatMap (fun k => [(12 + 4 * k, decide (d.te k = 0)), (28 + 4 * k, decide (d.be k = 0)),
        (12 + 4 * k, decide (d.te k < d.be k)),
        (1, decide (d.ndim ≤ k) && (d.te k ≠ 1 || d.be k ≠ 1 || d.st k ≠ 0))])
    ++ d.layoutChecks
    ++ (if d.sharded then match hdr with
        | none => [(2, true)]
        | some h => (List.range 4).flatMap (fun k =>
            [(12 + 4 * k, decide (lf h (4 * k) 4 < lf h (16 + 4 * k) 4 + d.te k)),
             (1, decide (d.ndim ≤ k) && (lf h (4 * k) 4 ≠ 1 || lf h (16 + 4 * k) 4 ≠ 0))])
          ++ [(96, decide (lf h 32 32 ≠ 0))]
      else [])
  | .pick =>
    [(0, d.layout ≠ 0 && d.layout ≠ 2), (1, decide (0xC < d.fmt) || isContour d.fmt || bit (lf l 1 1) 7), nd,
      (12, decide (d.te 0 = 0)), (16, decide (d.te 1 = 0)), (44, decide (d.st 0 ≠ 1)),
      (1, d.ndim = 1 && (d.te 1 ≠ 1 || d.st 1 ≠ 0)),
      (0, d.layout = 2 && (d.tbase % 2048 ≠ 0 || d.st 0 ≠ 1 || (2 ≤ d.ndim && (d.st 1 ≤ 0 || (d.st 1 * d.w) % 16384 ≠ 0)))),
      (0, isMx d.fmt && (d.st 0 ≠ 1 || (2 ≤ d.ndim && d.st 1 % 32 ≠ 0))),
      (0, d.fmt ≤ 0xC && d.w < 8 && (d.st 0 ≠ 1 || d.st 1 % (if d.w = 4 then 2 else 4) ≠ 0)),
      -- R89 gives the row length its bounds and names no refusal: a fault of the descriptor's fields alone (DEDUCED, log 81)
      (1, (d.te 0 * d.w) % 256 ≠ 0 || d.te 0 * d.w < 256 || decide (16384 < d.te 0 * d.w))]
  | .trav =>
    [nd] ++ (List.range 4).flatMap (fun k => [(28 + 4 * k, decide (d.be k = 0)),
        (1, decide (d.ndim ≤ k) && d.be k ≠ 1)])

/-- A descriptor has no fault. -/
def descOk (use : DescUse) (l : List Byte) (hdr : Option (List Byte)) : Bool :=
  (descChecks use l hdr).all (fun c => !c.2)

/-- The alias test of R149: dimensions of block extent above 1 by ascending |stride|. -/
def aliasSpan : Nat → List (Nat × Nat) → Bool
  | _, [] => true
  | span, (s, b) :: ds => decide (span + 1 ≤ s) && aliasSpan (span + s * (b - 1)) ds

/-- Insert a dimension by ascending |stride|. -/
def strInsert (d : Nat × Nat) : List (Nat × Nat) → List (Nat × Nat)
  | [] => [d]
  | x :: xs => if d.1 < x.1 then d :: x :: xs else x :: strInsert d xs

/-- Whether a write's strides pass the test of R149; TILE and KVPAGE are not tested. -/
def Desc.noAlias (d : Desc) : Bool :=
  if d.layout = 1 || d.layout = 3 then true
  else
    let dims := ((List.range 4).filter (fun k => 1 < d.be k)).map (fun k => ((d.st k).natAbs, d.be k))
    aliasSpan 0 (dims.foldl (fun l x => strInsert x l) [])

/-! ### Footprints and addresses (R145, R146, R152, R154, R156) -/

/-- Lowest and highest flat index of extents under the strides (R146). -/
def Desc.span (d : Desc) (ext : Nat → Nat) : Int × Int :=
  ((List.range 4).map (fun k => ((ext k : Int) - 1) * d.st k)).foldl
    (fun a x => (a.1 + min 0 x, a.2 + max 0 x)) (0, 0)

/-- First and last byte of a footprint in ROW or BANK from a base (R145, R146), as integers. -/
def Desc.foot (d : Desc) (base : Int) (ext : Nat → Nat) : Int × Int :=
  let (lo, hi) := d.span ext
  (base + lo * d.w / 8, base + (hi * d.w + d.w - 1) / 8)

/-- Bytes of the tensor: its footprint from `TBASE` (R146, R152, R154, R156). -/
def Desc.tensorFoot (d : Desc) : Int × Int :=
  if isContour d.fmt then (d.tbase, d.tbase + 65600 * (d.total / chunkValues) - 1)
  else match d.layout with
    | 1 => (d.tbase, d.tbase + (d.te d.ld / 128) * tileLen d.fmt (d.te d.sd) - 1)
    | 3 => (d.tbase, d.tbase + d.te 0 * d.te 1 * d.w / 8 + 2 * (d.te 0 * d.te 1 / kvGroup d.fmt) - 1)
    | _ => d.foot d.tbase d.te

/-- The tile and step at which a TILE block begins, from its address (R152); `none` where the address is none of the
tensor's. -/
def Desc.tileStart (d : Desc) (a : Nat) : Option (Nat × Nat) :=
  let lt := tileLen d.fmt (d.te d.sd)
  let stepB := 128 * d.w / 8
  if a < d.tbase || lt = 0 || stepB = 0 then none
  else
    let j := (a - d.tbase) / lt
    let r := (a - d.tbase) % lt
    if r % stepB = 0 && (!isMx d.fmt || r / stepB % 32 = 0) && j + d.be d.ld / 128 ≤ d.te d.ld / 128
        && r / stepB + d.be d.sd ≤ d.te d.sd then some (j, r / stepB)
    else none

/-- The device-side requirement of R81 for a block at address `a` (R146, R152, R153, R154, R156). -/
def Desc.inBounds (d : Desc) (a : Nat) : Bool :=
  if isContour d.fmt then
    d.total % chunkValues = 0 && d.count % chunkValues = 0 && a % 64 = 0 && d.tbase ≤ a
      && decide ((a : Int) ≤ d.tensorFoot.2)
  else match d.layout with
    | 1 => (d.tileStart a).isSome
    | 3 =>
      let tok := d.te 0 * d.w / 8
      decide (d.tbase ≤ a) && (a - d.tbase) % tok = 0 && decide ((a - d.tbase) / tok + d.be 1 ≤ d.te 1)
    | _ =>
      let (bl, bh) := d.foot a d.be
      let (tl, th) := d.foot d.tbase d.te
      decide (0 ≤ bl) && decide (bh < 2 ^ 48) && decide (0 ≤ tl) && decide (th < 2 ^ 48) && decide (tl ≤ bl)
        && decide (bh ≤ th)
        && (!isMx d.fmt || (((a : Int) - d.tbase) * 8 % d.w = 0 && ((a : Int) - d.tbase) * 8 / d.w % 32 = 0))

/-! ### Element by element -/

/-- Index vectors of a block, `i0` varying fastest. -/
def Desc.indices (d : Desc) : List (Nat × Nat × Nat × Nat) :=
  (List.range d.count).map (fun k =>
    (k % d.be 0, k / d.be 0 % d.be 1, k / (d.be 0 * d.be 1) % d.be 2, k / (d.be 0 * d.be 1 * d.be 2)))

/-- Component of an index vector. -/
def ix (i : Nat × Nat × Nat × Nat) : Nat → Nat
  | 0 => i.1
  | 1 => i.2.1
  | 2 => i.2.2.1
  | _ => i.2.2.2

/-- Flat index of an index vector under the strides (R145). -/
def Desc.flat (d : Desc) (i : Nat × Nat × Nat × Nat) : Int :=
  i.1 * d.st 0 + i.2.1 * d.st 1 + i.2.2.1 * d.st 2 + i.2.2.2 * d.st 3

/-- Bit position in device memory of the block element with an index vector, the block being at address `a`. -/
def Desc.memBit (d : Desc) (a : Nat) (i : Nat × Nat × Nat × Nat) : Nat :=
  match d.layout with
  | 1 =>
    let x := ix i d.ld
    let y := ix i d.sd
    8 * (a + x / 128 * tileLen d.fmt (d.te d.sd)) + (y * 128 + x % 128) * d.w
  | 3 => 8 * a + (i.2.1 * d.te 0 + i.1) * d.w
  | _ => ((8 * (a : Int)) + d.flat i * d.w).toNat

/-- Bit position in SP, from the SP offset, of element number `k` with an index vector (R153, R464). -/
def Desc.spBit (d : Desc) (k : Nat) (i : Nat × Nat × Nat × Nat) : Nat :=
  if d.splay = 1 then
    let x := ix i d.ld
    let y := ix i d.sd
    8 * (x / 128 * tileLen d.fmt (d.be d.sd)) + (y * 128 + x % 128) * d.w
  else k * d.w

/-- Index vector of block value number `n` in the value order of a Contour tensor: index order, or that of R152 for TILE
(R131, R156). -/
def Desc.valueIx (d : Desc) (n : Nat) : Nat × Nat × Nat × Nat :=
  if d.layout = 1 then
    let by' := max 1 (d.be d.sd)
    let x := n / (128 * by') * 128 + n % 128
    let y := n / 128 % by'
    if d.ld = 1 then (y, x, 0, 0) else (x, y, 0, 0)
  else (n % d.be 0, n / d.be 0 % d.be 1, n / (d.be 0 * d.be 1) % d.be 2, n / (d.be 0 * d.be 1 * d.be 2))

/-- SP bit of block value number `n` in that order: the SP layout is converted into the memory layout (R464, R465). -/
def Desc.valueSp (d : Desc) (n : Nat) : Nat :=
  let i := d.valueIx n
  d.spBit (i.1 + d.be 0 * (i.2.1 + d.be 1 * (i.2.2.1 + d.be 2 * i.2.2.2))) i

/-- The scale bytes of a block: device address and SP offset of each (R152 to R154, R464). -/
def Desc.scaleBytes (d : Desc) (a : Nat) : List (Nat × Nat) :=
  let elemB := cdiv (d.count * d.w) 8
  if d.layout = 3 then
    let g := kvGroup d.fmt
    let n := d.be 1 * d.te 0 / g * 2
    let t0 := (a - d.tbase) / (d.te 0 * d.w / 8)
    let base := d.tbase + d.te 0 * d.te 1 * d.w / 8 + 2 * (t0 * d.te 0 / g)
    (List.range n).map (fun k => (base + k, elemB + k))
  else if !isMx d.fmt then []
  else
    -- groups along the step dimension when either side is TILE, along dimension 0 otherwise (R465)
    let gd := if d.layout = 1 then d.sd else if d.splay = 1 then d.sd else 0
    ((d.indices.zipIdx).filter (fun e => ix e.1 gd % 32 = 0)).zipIdx.map (fun e =>
      let i := e.1.1
      let mem : Nat := match d.layout with
        | 1 =>
          let lt := tileLen d.fmt (d.te d.sd)
          let y0 := (a - d.tbase) % lt / (128 * d.w / 8)
          (a - d.tbase) / lt * lt + d.tbase + ix i d.ld / 128 * lt + 128 * d.te d.sd * d.w / 8
            + 128 * ((y0 + ix i d.sd) / 32) + ix i d.ld % 128
        | _ =>
          let n := ((a : Int) - d.tbase) * 8 / d.w + d.flat i
          ((d.tbase : Int) + d.soff + n / 32).toNat
      let sp : Nat :=
        if d.splay = 1 then
          ix i d.ld / 128 * tileLen d.fmt (d.be d.sd) + 128 * d.be d.sd * d.w / 8 + 128 * (ix i d.sd / 32) + ix i d.ld % 128
        else elemB + e.2
      (mem, sp))

/-- SP bytes of a raw block: elements and scales (R153, R154, R464). -/
def Desc.spBytes (d : Desc) : Nat :=
  let elemB := cdiv (d.count * d.w) 8
  if d.layout = 3 then elemB + 2 * (d.be 1 * d.te 0 / kvGroup d.fmt)
  else elemB + (if isMx d.fmt then d.count / 32 else 0)

/-- A move of `w` bits between a bit of device memory and a bit of SP. -/
structure Piece where
  mem : Nat
  sp : Nat
  w : Nat
  deriving DecidableEq, Repr

/-- Every piece of a raw block at device address `a`, elements in index order, then scales. -/
def Desc.pieces (d : Desc) (a : Nat) : List Piece :=
  d.indices.zipIdx.map (fun e => ⟨d.memBit a e.1, d.spBit e.2 e.1, d.w⟩)
    ++ (d.scaleBytes a).map (fun e => ⟨8 * e.1, 8 * e.2, 8⟩)

/-- The byte addresses that a run of `w` bits at bit `b` touches. -/
def bitBytes (b w : Nat) : List Nat := (List.range ((b % 8 + w + 7) / 8)).map (fun k => b / 8 + k)

/-- Device addresses that a block touches, each once. -/
def Desc.addrs (d : Desc) (a : Nat) : List Nat := ((d.pieces a).flatMap (fun p => bitBytes p.mem p.w)).dedup

/-- The `w` bits at bit `b` of a byte function. -/
def getBits (f : Nat → Byte) (b w : Nat) : Nat := leNat ((bitBytes b w).map f) / 2 ^ (b % 8) % 2 ^ w

/-- Put bits into a table of bytes laid over a byte function. -/
def putBits (f : Nat → Byte) (t : Tbl Byte) (b w v : Nat) : Tbl Byte :=
  let old (k : Nat) : Byte := match t.find? (fun e => e.1 = k) with | some e => e.2 | none => f k
  (bitBytes b w).foldl (fun t k =>
    let lo := 8 * k
    let x := (List.range 8).foldl (fun acc j =>
      let p := lo + j
      let bv := if b ≤ p && p < b + w then bit v (p - b) else bit (old k).toNat j
      acc + b2n bv * 2 ^ j) 0
    Tbl.ins k (BitVec.ofNat 8 x) t) t

/-! ### The Traverse network (R159 to R162) -/

/-- Bit that stage `s` pairs on (R159). -/
def travBit (s : Nat) : Nat := if s ≤ 8 then 8 - s else s - 8

/-- The switch of stage `s` that a port belongs to: the port number without bit b(s). -/
def travSwitch (s p : Nat) : Nat :=
  let b := travBit s
  p / 2 ^ (b + 1) * 2 ^ b + p % 2 ^ b

/-- Where input byte `j` leaves, given the 544 bytes of routing words (R159, R160). -/
def travRoute (words : List Byte) (j : Nat) : Nat :=
  (List.range 17).foldl (fun p s =>
    let w := travSwitch s p
    if bit (lf words (32 * s + w / 8) 1) (w % 8) then Nat.xor p (2 ^ travBit s) else p) j

/-- One 512-byte beat through the network. -/
def travBeat (words : List Byte) (beat : List Byte) : List Byte :=
  let dst := (List.range 512).map (travRoute words)
  (List.range 512).map (fun k => beat.getD ((dst.findIdx? (· = k)).getD 0) 0)

/-- The condition of a preset permutation on the block (R161), with `e` the element bytes. -/
def travCondition (perm e : Nat) (d : Desc) : Bool :=
  let r := d.be 0 * e
  match perm with
  | 0 => true
  | 1 => d.be 1 % 64 = 0 && r % 64 = 0
  | 2 => r % 64 = 0
  | 3 => r % 64 = 0
  | _ => r = 64 || r = 128 || r = 256 || r = 512

/-- Flat element number of the input that goes to output element number `k` under a preset (R161). -/
def travPick (perm : Nat) (d : Desc) (k : Nat) : Nat :=
  let e0 := d.be 0
  let e1 := d.be 1
  let e2 := d.be 2
  let e3 := d.be 3
  let row := k / e0
  let i := k % e0
  match perm with
  | 1 =>
    let o0 := k % e1
    let o1 := k / e1 % e0
    o1 + e0 * (o0 + e1 * (k / (e0 * e1)))
  | 2 =>
    let o1 := row % e2
    let o2 := row / e2 % e1
    i + e0 * (o2 + e1 * (o1 + e2 * (row / (e1 * e2))))
  | 3 =>
    let o2 := row / e1 % e3
    let o3 := row / (e1 * e3)
    i + e0 * (row % e1 + e1 * (o3 + e2 * o2))
  | 4 => row * e0 + (e0 - 1 - i)
  | 5 => row * e0 + (if i < e0 / 2 then 2 * i else 2 * (i - e0 / 2) + 1)
  | 6 => row * e0 + (if i % 2 = 0 then i / 2 else e0 / 2 + i / 2)
  | 7 => row * e0 + (if i % 2 = 0 then i + 1 else i - 1)
  | 8 => row * e0 + (i + e0 / 2) % e0
  | _ => k

/-- The formats that `TRAV` accepts (R161). -/
def travFmt (fmt : Nat) : Bool := [0, 1, 2, 3, 4, 5, 0xC].contains fmt

/-- Destination byte that byte number `w` of a `TRAV`'s work writes: beats go in order; TRANSPOSE01 goes by turns of 4 KiB, each
writing `64 / e` output rows of `64 * e` bytes (R162). Which turn follows which is the device's own (log 82). -/
def travDest (perm e : Nat) (d : Desc) (w : Nat) : Nat :=
  if perm ≠ 1 then w
  else
    let t := w / 4096
    let rows := d.be 0 * e / 64
    let cols := d.be 1 / 64
    let turn := t % max 1 (rows * cols)
    let (u, v) := if Config.turnsAcross then (turn % max 1 rows, turn / max 1 rows) else (turn / max 1 cols, turn % max 1 cols)
    let r := w % 4096 / (64 * e)
    let slab := t / max 1 (rows * cols)
    (d.be 1 * (u * (64 / e) + r + d.be 0 * slab) + 64 * v) * e + w % (64 * e)

/-- Source byte that destination byte `k` of a `TRAV` comes from, given the routing words (R159 to R161). -/
def travFrom (perm e : Nat) (d : Desc) (words : List Byte) (k : Nat) : Nat :=
  if perm = 63 then k / 512 * 512 + (((List.range 512).find? (fun j => travRoute words j = k % 512)).getD 0)
  else travPick perm d (k / e) * e + k % e

end Sys2Proof.Machine
end

