-- ==== Sys2Proof/Machine/Operands.lean ====
section
/-! DEFINITION. The operand forms of a core: slot fields (R50, R55, R82 to R103), the registers that each slot reads and
writes, and the checks on a bundle's encoding (R45 to R54, R77). -/

namespace Sys2Proof

/-- The slot word of a slot number (R46); CTL is 32 bits wide. -/
def Bundle.word (b : Bundle) : Nat → BitVec 64
  | 0 => b.ctl.zeroExtend 64
  | 1 => b.adr
  | 2 => b.scl
  | 3 => b.dma
  | 4 => b.mat
  | _ => b.vec

/-- `KIND` is WIDE (R45). -/
def Bundle.wide (b : Bundle) : Bool := b.kind = 1
/-- A slot is present. -/
def Bundle.has (b : Bundle) (n : Nat) : Bool := b.mask.getLsbD n
/-- Bytes of a slot (R46). -/
def Bundle.slotSize (b : Bundle) (n : Nat) : Nat :=
  if n = 0 then 4 else if n = 1 || n = 2 then (if b.wide then 8 else 4) else 8
/-- Byte offset in the bundle at which a slot ends, if present (R45, R46). -/
def Bundle.slotEnd (b : Bundle) (n : Nat) : Nat :=
  2 + ((List.range (n + 1)).map (fun m => if b.has m then b.slotSize m else 0)).sum
/-- The length in bytes computed from `MASK` and `KIND` (R47). -/
def Bundle.bytes (b : Bundle) : Nat := b.slotEnd 5
/-- A field of a slot's word. -/
def Bundle.f (b : Bundle) (n hi lo : Nat) : Nat := Machine.bits (b.word n).toNat hi lo
/-- The opcode of a slot (R50, R55). -/
def Bundle.op (b : Bundle) (n : Nat) : Nat := b.f n 7 0

namespace Machine

/-! ### CTL, ADR and SCL (R50 to R54) -/

/-- The immediate of an ADR slot, `IMM12` or in a WIDE bundle `IMM48` (R50). -/
def adrImm (b : Bundle) : Int := if b.wide then signed 48 (b.f 1 63 16) else signed 12 (b.f 1 31 20)
/-- `IMM9` of an SCL slot (R50). -/
def imm9 (b : Bundle) : Int := signed 9 (b.f 2 31 23)

/-- A CTL slot that R48 refuses as an undefined opcode, a reserved field or a reserved encoding (R50, R52). -/
def ctlIllegal (b : Bundle) : Bool :=
  let op := b.op 0
  decide (8 < op) || bit b.ctl.toNat 15
    || ((op = 2 || op = 3 || op = 4 || op = 7) && bit b.ctl.toNat 13)
    || (op = 5 && b.f 0 31 24 ≠ 0)

/-- An ADR slot that R48 refuses (R50, R53). -/
def adrIllegal (b : Bundle) : Bool :=
  let op := b.op 1
  let d := b.f 1 13 8
  let s := b.f 1 19 14
  let imm := adrImm b
  let dIsA := op = 1 || op = 2 || op = 3 || op = 4 || op = 9
  let badImm := (op = 5 && (imm < -2147483648 || 2147483647 < imm))
    || (op = 7 && (imm < 0 || (if b.wide then 65535 else 2047) < imm))
  if b.wide then
    !(op = 1 || op = 5 || op = 7) || b.f 1 15 14 ≠ 0 || (op = 1 && 32 ≤ d) || (op = 7 && 3 < d) || badImm
  else
    decide (9 < op) || (dIsA && 32 ≤ d)
      || ((op = 2 || op = 3 || op = 4 || op = 6 || op = 8) && 32 ≤ s)
      || ((op = 7 || op = 8) && 3 < d) || badImm

/-- The SCL opcodes of R54 that a NORMAL bundle may carry. -/
def sclNormal : List Nat :=
  [0x00, 0x01, 0x02, 0x03, 0x04, 0x05, 0x06, 0x07, 0x08, 0x09, 0x0A, 0x0B, 0x0C, 0x0D, 0x10, 0x11, 0x12, 0x13, 0x14,
    0x18, 0x19, 0x1A, 0x1B, 0x1C]

/-- An SCL slot that R48 refuses (R50, R54). -/
def sclIllegal (b : Bundle) : Bool :=
  if b.wide then b.op 2 ≠ 0x0E || b.f 2 31 23 ≠ 0 else !sclNormal.contains (b.op 2)

/-! ### Macro slots (R55, R77 to R104) -/

/-- A field of a macro slot word. -/
def mf (w : BitVec 64) (hi lo : Nat) : Nat := bits w.toNat hi lo
/-- The macro opcode. -/
def mop (w : BitVec 64) : Nat := mf w 7 0

/-- The slot whose range a macro opcode lies in (R77). -/
def macroSlot (op : Nat) : Option Nat :=
  if 1 ≤ op && op ≤ 0x3F then some 3 else if 0x40 ≤ op && op ≤ 0x7F then some 4
  else if 0x80 ≤ op && op ≤ 0xBF then some 5 else none

/-- VEC operations with a second source (R104). -/
def vecS2 (op : Nat) : Bool := op ≤ 0x85 || op = 0x9A || op = 0x9B
/-- VEC operations with a first source (R104). -/
def vecS1 (op : Nat) : Bool := op ≠ 0x8B
/-- VEC operations that use `XS` (R103, R104). -/
def vecXs (op : Nat) : Bool := op = 0x86 || op = 0x87 || 0x98 ≤ op

/-- The format pairs of R100. -/
def mmaPair (a b : Nat) : Bool :=
  let fp8 (f : Nat) : Bool := f = 3 || f = 4
  let mx (f : Nat) : Bool := f = 7 || f = 8
  let bf (f : Nat) : Bool := f = 1 || f = 0xA
  let hf (f : Nat) : Bool := f = 2 || f = 0xB
  let int (f : Nat) : Bool := f = 5 || f = 6
  (fp8 a && fp8 b) || (int a && int b) || ((mx a || a = 9) && (mx b || b = 9)) || (bf a && bf b) || (hf a && hf b)

/-- The `AOP` and `TYPE` pairs of R94. -/
def atomPair (aop ty : Nat) : Bool :=
  (aop ≤ 2 && ty ≤ 2) || (3 ≤ aop && aop ≤ 5 && ty = 0) || (aop = 6 && (ty = 0 || ty = 3)) || (aop = 7 && ty = 3)

/-- A reserved field or encoding in the operation-specific bits of a defined macro opcode (R82 to R104). R104's list of what `VWIDEN`
accepts is followed where R117 names more (DEDUCED, log 80). -/
def macroReserved (w : BitVec 64) : Bool :=
  let op := mop w
  let scope := mf w 40 38
  match op with
  | 0x01 => mf w 45 44 = 3 || mf w 53 53 = 1 || mf w 63 55 ≠ 0
  | 0x02 => mf w 45 44 = 3 || mf w 63 55 ≠ 0
  | 0x03 => mf w 50 49 = 3 || mf w 63 56 ≠ 0
  | 0x04 => 8 < mf w 41 38 || mf w 63 48 ≠ 0
  | 0x08 => (8 < mf w 43 38 && mf w 43 38 ≠ 63) || !travFmt (mf w 52 49) || mf w 63 59 ≠ 0
  | 0x10 => mf w 45 44 = 3 || mf w 57 56 = 3 || mf w 63 58 ≠ 0
  | 0x11 => !atomPair (mf w 47 44) (mf w 49 48) || mf w 63 50 ≠ 0
  | 0x18 => 4 < scope || (mf w 41 41 = 1 && scope ≠ 4) || mf w 63 47 ≠ 0
  | 0x19 => 4 < scope || mf w 33 33 = 1 || mf w 63 41 ≠ 0
  | 0x1A => 4 < scope || mf w 37 28 ≠ 0 || mf w 42 41 = 0 || mf w 63 43 ≠ 0
  | 0x1B => 4 < scope || mf w 37 33 ≠ 0 || mf w 63 41 ≠ 0
  | 0x1C => 4 < scope || mf w 37 33 ≠ 0 || mf w 63 41 ≠ 0
  | 0x40 => !mmaPair (mf w 46 43) (mf w 50 47) || mf w 63 59 ≠ 0
  | 0x41 => 9 < mf w 41 38 || mf w 63 51 ≠ 0
  | _ =>
    let fmt := mf w 49 46
    mf w 63 62 ≠ 0 || (!vecS1 op && (mf w 37 33 ≠ 0 || mf w 44 44 = 1)) || (!vecS2 op && (mf w 42 38 ≠ 0 || mf w 45 45 = 1))
      || (!vecXs op && mf w 59 55 ≠ 0) || (op ≠ 0x88 && mf w 61 61 = 1)
      || (if op = 0x88 then fmt = 0 || 9 < fmt || mf w 43 43 = 1
          else if op = 0x89 then fmt = 0 || 6 < fmt || mf w 44 44 = 1
          else 1 < fmt)

/-- The macro opcodes that R77 and R104 define. -/
def macroDefined (op : Nat) : Bool :=
  [0x01, 0x02, 0x03, 0x04, 0x08, 0x10, 0x11, 0x18, 0x19, 0x1A, 0x1B, 0x1C, 0x40, 0x41].contains op
    || (0x80 ≤ op && op ≤ 0x8B) || (0x90 ≤ op && op ≤ 0x94) || (0x98 ≤ op && op ≤ 0x9B)

/-- A reserved encoding in the fields that every macro slot has (R55). -/
def macroCommonBad (w : BitVec 64) : Bool := 4 < mf w 25 23 || mf w 27 27 = 1

/-- The reason codes with which R48 and R77 refuse a macro slot: 1 `ILLEGAL_OPCODE`, 2 `SLOT_CONFLICT`. Under an opcode of
another slot only the common fields of R55 are read (log 61). -/
def macroFaults (n : Nat) (w : BitVec 64) : List Nat :=
  match macroSlot (mop w) with
  | none => [1]
  | some m =>
    (if m ≠ n then [2] else [])
      ++ (if macroCommonBad w || (m = n && (!macroDefined (mop w) || macroReserved w)) then [1] else [])

/-- Address registers that name operands of a macro slot, in field order (R56, R78): every field that names one, whether or
not the instance goes on to use it (`RETA` without `RET`, `RWA` with a preset). -/
def macroA (w : BitVec 64) : List Nat :=
  let op := mop w
  let a := mf w 32 28
  let b := mf w 37 33
  let c := mf w 42 38
  match op with
  | 0x03 => [a, b, c]
  | 0x08 => [a, b, mf w 48 44]
  | 0x11 => [a, b, c]
  | 0x18 => [a]
  | 0x19 => [a]
  | 0x1A => []
  | 0x1B => [a]
  | 0x1C => [a]
  | 0x40 => [a, b, c]
  | _ => if op < 0x80 then [a, b] else [a] ++ (if vecS1 op then [b] else []) ++ (if vecS2 op then [c] else [])

/-- Scalar registers that a macro slot reads at issue, in a fixed order for each operation (R78): every field that names one,
`PEER` and `SX` also where `REMOTE` and `SCALE_EN` are 0. -/
def macroX (w : BitVec 64) : List Nat :=
  let op := mop w
  match op with
  | 0x01 => [mf w 52 48]
  | 0x02 => [mf w 52 48]
  | 0x03 => [mf w 55 51]
  | 0x04 => [mf w 47 43]
  | 0x10 => [mf w 51 47]
  | 0x18 => [mf w 37 33, mf w 46 42]
  | 0x19 => [mf w 37 33, mf w 37 33 + 1]
  | 0x41 => [mf w 50 46]
  | _ => if op < 0x80 then [] else mf w 54 50 :: (if vecXs op then [mf w 59 55] else [])

/-- The descriptor table entry that a macro slot names, and which fields its operation reads (R79, R144). -/
def macroDesc (w : BitVec 64) : Option (Nat × DescUse) :=
  match mop w with
  | 0x01 => some (mf w 43 38, .all)
  | 0x02 => some (mf w 43 38, .all)
  | 0x03 => some (mf w 48 43, .pick)
  | 0x08 => some (mf w 58 53, .trav)
  | 0x10 => some (mf w 43 38, .all)
  | _ => none

/-- Formats that a reduction takes (R84, R92). -/
def reduceFmt (f : Nat) : Bool := f = 0 || f = 1 || f = 0xC

/-- The descriptor that a macro slot names, if it names one, keeps R144. -/
def macroDescOk (w : BitVec 64) (desc : List Byte) : Bool :=
  match macroDesc w with
  | none => true
  | some (n, use) => descOk use (desc.take 64) (if n = 63 then none else some (desc.drop 64))

/-- A descriptor with which R84, R87, R92 or R144 refuses a macro slot. -/
def macroDescIllegal (w : BitVec 64) (desc : List Byte) : Bool :=
  match macroDesc w with
  | none => false
  | some _ =>
    let d := Desc.ofBytes desc
    let coded := isContour d.fmt
    !macroDescOk w desc
      || (match mop w with
          | 0x01 => coded != (mf w 54 54 = 1)
          | 0x02 => (!coded && mf w 54 54 = 1) || (mf w 53 53 = 1 && !reduceFmt d.fmt)
          | 0x10 => !reduceFmt d.fmt || (mf w 55 52 ≠ d.fmt && !(mf w 55 52 = 0xA && d.fmt = 1))
          | _ => false)

/-- A write whose strides R149 refuses with `WRITE_ALIAS`; the strides of a descriptor that breaks R144 say nothing. -/
def macroAlias (w : BitVec 64) (desc : List Byte) : Bool :=
  let tested := mop w = 0x10 || (mop w = 0x02 && mf w 53 53 = 0)
  tested && macroDescOk w desc && !(Desc.ofBytes desc).noAlias

/-! ### Registers read and written, for the hazard checker (R63) -/

/-- Registers that a bundle reads: file, number and slot. -/
def bundleReads (core : Core) (b : Bundle) : List (RegFile × Nat × Nat) :=
  let ctl := if b.has 0 && [2, 3, 4, 7].contains (b.op 0) then [(RegFile.x, b.f 0 12 8, 0)] else []
  let adr := if !b.has 1 then [] else
    let s := b.f 1 19 14
    match b.op 1 with
    | 2 => [(RegFile.a, s, 1)]
    | 3 => [(.a, s, 1), (.x, b.f 1 24 20, 1)]
    | 4 => [(.a, s, 1), (.i, b.f 1 25 20, 1)]
    | 6 => [(.x, s, 1)]
    | 8 => [(.x, s, 1)]
    | _ => []
  let scl := if !b.has 2 then [] else
    let s1 := b.f 2 17 13
    let s2 := b.f 2 22 18
    let op := b.op 2
    if op = 0 || op = 0x0E || op = 0x1B || op = 0x1C then []
    else if op = 3 || op = 0x13 || op = 0x14 then [(RegFile.x, s1, 2)]
    else if op = 0x18 || op = 0x1A then [(.a, s1, 2)]
    else if op = 0x19 then [(.a, s1, 2), (.x, s2, 2)]
    else if op = 0x12 then [(.x, s1, 2), (.x, s2, 2), (.x, b.f 2 12 8, 2)]
    else [(.x, s1, 2), (.x, s2, 2)]
  let mac (n : Nat) : List (RegFile × Nat × Nat) :=
    if !b.has n then [] else
      let w := b.word n
      let d := mf w 25 23
      let lv := if d = 0 then (if mf w 26 26 = 1 then [0] else []) else List.range d
      (List.range d).map (fun l => (.j, l, n))
        ++ (macroA w).flatMap (fun a => (RegFile.a, a, n) :: lv.flatMap (fun l =>
            [(.bind, 4 * a + l, n), (.i, (core.bind.get 0 (4 * a + l)).toNat, n)]))
        ++ (macroX w).map (fun x => (.x, x, n)) ++ [(.mtag, 0, n)]
  ctl ++ adr ++ scl ++ mac 3 ++ mac 4 ++ mac 5

/-- Latency of an SCL operation (R54). -/
def sclLatency (op : Nat) : Nat :=
  if op = 0x0D then 3 else if 0x10 ≤ op && op ≤ 0x14 then 4 else if op = 0x18 then 6 else 1

/-- Registers that a bundle writes: file, number, slot and latency (R52 to R54, R58). Writes to I0 are ignored. -/
def bundleWrites (b : Bundle) : List (RegFile × Nat × Nat × Nat) :=
  let ctl := if !b.has 0 then [] else match b.op 0 with
    | 4 => [(RegFile.x, b.f 0 12 8, 0, 1)]
    | 6 => [(.mtag, 0, 0, 1)]
    | _ => []
  let adr := if !b.has 1 then [] else
    let d := b.f 1 13 8
    match b.op 1 with
    | 1 => [(RegFile.a, d, 1, 1)]
    | 2 => [(.a, d, 1, 1)]
    | 3 => [(.a, d, 1, 2)]
    | 4 => [(.a, d, 1, 1)]
    | 5 => [(.i, d, 1, 1)]
    | 6 => [(.i, d, 1, 2)]
    | 7 => [(.j, d, 1, 1)]
    | 8 => [(.j, d, 1, 2)]
    | 9 => [(.bind, 4 * d + b.f 1 21 20, 1, 1)]
    | _ => []
  let scl := if !b.has 2 || b.op 2 = 0 || b.op 2 = 0x19 then [] else [(RegFile.x, b.f 2 12 8, 2, sclLatency (b.op 2))]
  let mac (n : Nat) : List (RegFile × Nat × Nat × Nat) :=
    if b.has n && mf (b.word n) 26 26 = 1 then ((macroA (b.word n)).dedup).map (fun a => (.a, a, n, 2)) else []
  (ctl ++ adr ++ scl ++ mac 3 ++ mac 4 ++ mac 5).filter (fun w => !(w.1 = .i && w.2.1 = 0))

end Machine
end Sys2Proof
end

