-- ==== Sys2Proof/Machine/Issue.lean ====
section
/-! DEFINITION. What the issue unit shares among all slots: trace records (R72 to R75), halts (R69, R70, R76), the end of
a packet that a fault ends (R360), and the opening of a bundle, with its refusals, holds and captures (R47, R48, R57, R62
to R66, R80). -/

namespace Sys2Proof

/-- The header cannot be read: `KIND` reserved or a reserved header bit set (R48). -/
def Bundle.headerBad (b : Bundle) : Bool := 2 ≤ b.kind.toNat || b.rsv ≠ 0

/-- A slot is present and lies below byte 65,536, so that it is tested (R48). -/
def Bundle.tested (b : Bundle) (pc n : Nat) : Bool := b.has n && decide (pc + b.slotEnd n ≤ 65536)

end Sys2Proof

namespace Sys2Proof.Machine

/-! ### Trace records -/

/-- The 32 bytes of a record as a number (R72). -/
def traceBytes (type core detail pc : Nat) (wtag : Word) (mtag seq : BitVec 16) (cycle : BitVec 48) (payload : Nat) :
    BitVec 256 :=
  BitVec.ofNat 256 (leNat ([BitVec.ofNat 8 (type + 16 * core), BitVec.ofNat 8 detail] ++ leBytes 2 pc
    ++ leBytes 4 wtag.toNat ++ leBytes 2 mtag.toNat ++ leBytes 2 seq.toNat ++ leBytes 4 0 ++ leBytes 6 cycle.toNat
    ++ leBytes 2 0 ++ leBytes 8 payload))

/-- Whether the buffer takes a record now (R74): room, and at most two records in a core cycle. -/
def Cluster.traceRoom (c : Cluster) : Bool := decide (c.trThisCycle < 2) && !(c.trMode && c.trFull)

/-- Put a record into the buffer. -/
def Cluster.putTrace (c : Cluster) (r : BitVec 256) : Cluster :=
  { c with
    trBuf := c.trBuf.set 0 c.trNext.toNat r
    trNext := c.trNext + 1
    trWrapped := c.trWrapped || c.trFull
    trFull := c.trFull || c.trNext = 8191
    trSeq := c.trSeq + 1
    trThisCycle := c.trThisCycle + 1 }

/-- Count a dropped record (R74); it keeps its number, so `SEQ` reveals the gap. -/
def Cluster.dropTrace (c : Cluster) : Cluster :=
  { c with trLost := satAdd c.trLost 1, trDropped := c.trDropped + 1, trSeq := c.trSeq + 1 }

/-- Write a trace record of a core if its type and core are enabled (R72 to R74). -/
def State.trace (s : State) (c : CoreId) (type detail pc : Nat) (mtag : BitVec 16) (payload : Nat) : State :=
  let cl := s.cluster c.cluster
  if cl.trEnable && cl.trTypes.getLsbD type && cl.trCores.getLsbD c.k.val && (type ≠ 1 || cl.trBundles) then
    let r := traceBytes type c.k.val detail pc (s.core c).wtag mtag cl.trSeq cl.cycle payload
    s.setCluster c.cluster (if cl.traceRoom then cl.putTrace r else cl.dropTrace)
  else s

/-! ### Packets that a fault ends (R360, R414) -/

/-- The event queue of a work queue (R386). -/
def State.evqOf (s : State) (q : Nat) : Nat :=
  match s.queue ⟨q % 256, by omega⟩ with
  | some w => w.evq.val
  | none => 0

/-- A taken packet is the one that a share belongs to. -/
def Share.of (sh : Share) (k : Pkt) : Bool := k.q = sh.q && k.i = sh.i && k.lane = sh.lane && k.laneIdx = sh.laneIdx
/-- A stack command belongs to a taken packet. -/
def StackCmd.of (m : StackCmd) (k : Pkt) : Bool := k.q = m.q && k.i = m.i && k.lane = m.lane && k.laneIdx = m.laneIdx

/-! ### Gating (R24) -/

/-- An engine of a core works on an instance of an operation that a test picks. -/
def Core.works (x : Core) (e : Engine) (f : MacroOp → Bool) : Bool :=
  x.runs.any (fun i => i.eng = e && f i.op) || x.stopping.any (fun j => j.inst.eng = e && f j.inst.op)

/-- Gate the clocks of the engines of a core and of its cluster that have no work left. -/
def State.regate (s : State) (c : CoreId) : State :=
  let s := s.updCore c (fun x => { x with
    gateMe := x.gateMe || (x.matQ.isEmpty && !(x.works .mat (fun _ => true)))
    gateVe := x.gateVe || (x.vecQ.isEmpty && !(x.works .vec (fun _ => true))) })
  let busy (f : MacroOp → Bool) : Bool := (coresOf c.cluster).any (fun d =>
    (s.core d).dmaQ.any f || (s.core d).works .dma f)
  s.updCluster c.cluster (fun k => { k with
    gateDma := k.gateDma || !(busy (fun _ => true))
    gateTrav := k.gateTrav || !(busy (fun m => mop m.word = 0x08)) })

/-- Withdraw the registrations of a core's instances (R297, R349). -/
def State.withdraw (s : State) (c : CoreId) : State :=
  { s with waits := s.waits.filter (fun w => match w.agent with | .inst d _ => d ≠ c | .packet _ _ => true) }

/-- A waiter that is gone: its replies are discarded as they arrive (R442). No packet has lane 3. -/
def deadWaiter : Waiter := ⟨.packet 0 0, 0, 0, 3, 0⟩

/-- Waiters that a test picks are gone: what links still bring for them is discarded. -/
def State.orphan (s : State) (t : Waiter → Bool) : State :=
  let op (o : RemoteOp) : RemoteOp := if t o.who then { o with who := deadWaiter } else o
  { s with links := s.links.map (fun e => (e.1, { e.2 with
      ops := e.2.ops.map op
      reqWait := e.2.reqWait.filter (fun o => !t o.who)
      drains := e.2.drains.map (fun w => if t w then deadWaiter else w) })) }

/-- An instance that has been stopped still goes on to its next cut point (R69 step 3, R113): one that an engine or a home is
working on. A `WAIT` or `SEMTAKE` is cut at once, a `FENCE` and what awaits a peer or is parked or cut have nothing more to do
here. -/
def Inst.goesOn (i : Inst) : Bool :=
  let op := mop i.op.word
  (i.st = .running || i.st = .waiting) && op ≠ 0x19 && op ≠ 0x1A && op ≠ 0x1B
    && !((op = 0x01 || op = 0x02) && mf i.op.word 47 47 = 1) && !(op = 0x10 && mf i.op.word 46 46 = 1)
    && !(op = 0x18 && mf i.op.word 41 41 = 1)

/-- The `SEMTAKE` operations of a core that count against its context and have no grant (R351). -/
def Core.semTakes (x : Core) : Nat :=
  (x.runs.filter (fun i => mop i.op.word = 0x1B && (i.st = .waiting || i.st = .cut || i.st = .parked))).length

/-- Stop what a core still does for its share: no queue entries, no registrations, no `SEMTAKE` counted; running instances go on
to their next cut point and no further (R69 step 3, R113, R351). -/
def State.stopEngines (s : State) (c : CoreId) : State :=
  let takes := (s.core c).semTakes
  -- a `SIGNAL` or `SEMGIVE` whose release still awaits a link is cut (R113)
  let releasing (i : Inst) : Bool := s.links.any (fun e => e.2.drains.any (fun w => w.agent = .inst c i.id && w.part = c.p))
  let kept : List Stopped := match (s.core c).share with
    | some sh => ((s.core c).runs.filter (fun i => i.goesOn && !releasing i)).map (fun i => ⟨sh, i⟩)
    | none => []
  let s := match (s.core c).share with
    | some sh => s.updCtx c.p sh.ctx (fun k => { k with takes := k.takes - takes })
    | none => s
  -- another context that is out may await something for instances of this core, too
  let mine (x : Fin 16) : Bool := match (s.core c).share with | some sh => x = sh.ctx | none => false
  let s := (s.withdraw c).orphan (fun w => mine w.ctx && (match w.agent with | .inst d _ => d = c | .packet _ _ => false))
  let s := { s with parked := s.parked.filter (fun k => match k.who with | .inst d _ => !(d = c && mine k.ctx) | _ => true) }
  let s := s.updCluster c.cluster (fun y => { y with dmaOrder := y.dmaOrder.erase c.k.val })
  (s.updCore c (fun x => { x with dmaQ := [], matQ := [], vecQ := [], runs := [], stopping := x.stopping ++ kept, hold := none, cur := none })).regate c

/-- Cores that run shares of a packet. -/
def State.coresOfPkt (s : State) (k : Pkt) : List CoreId :=
  (coresOfPart k.part).filter (fun c => match (s.core c).share with | some sh => sh.of k | none => false)

/-- A started packet ends `FAILED` (R360): its first record's number is its `DETAIL`, its other shares stop, its stack
commands stop, and writes already made remain. -/
def State.failPkt (s : State) (k : Pkt) (detail : Word) : State :=
  let s := (s.coresOfPkt k).foldl (fun s c =>
    (s.stopEngines c).updCore c (fun x => { x with st := if x.st = .halted then .halted else .idle, share := none })) s
  let s := (stacksOf k.part).foldl (fun s st =>
    s.updStack st (fun x => { x with queue := x.queue.filter (fun m => !m.of k) })) s
  let s := { s with
    waits := s.waits.filter (fun w => !(match w.agent with
      | .packet q i => q.val = k.q && i = k.i && w.lane = k.lane && w.laneIdx = k.laneIdx
      | .inst _ _ => false))
    parked := s.parked.filter (fun j => match j.who with
      | .cmd _ q i lane idx => !(q = k.q && i = k.i && lane = k.lane && idx = k.laneIdx)
      | .prog q i lane idx => !(q = k.q && i = k.i && lane = k.lane && idx = k.laneIdx)
      | _ => true)
    colls := s.colls.filter (fun j => !(j.q = k.q && j.i = k.i)) }
  let mine (j : SavedCore) : Bool := match j.core.share with | some sh => sh.of k | none => false
  let s := s.updCtx k.part k.ctx (fun x => { x with
    takes := x.takes - ((x.saved.filter mine).map (fun j => j.core.semTakes)).sum
    saved := x.saved.filter (fun j => !mine j) })
  let s := s.orphan (fun w => match w.agent with
    | .packet q i => q.val = k.q && i = k.i && w.lane = k.lane && w.laneIdx = k.laneIdx
    | .inst _ _ => false)
  let same (j : Pkt) : Bool := j.q = k.q && j.i = k.i && j.lane = k.lane && j.laneIdx = k.laneIdx
  -- a page serve run for a peer has no reply to write
  let s := { s with pkts := s.pkts.filter (fun j => !(same j && j.lane = 4)) }
  s.updPkts same (fun j => { j with
    status := .failed
    detail := if j.status = .failed then j.detail else detail
    sharesLeft := 0
    cmdsLeft := 0
    parked := false })

/-! ### Halts (R69, R70) -/

/-- Why a core halts: reason code, slot, further causes, register file and number and level, program address, macro tag,
failing address and repeat index. -/
structure HaltInfo where
  reason : Nat
  slot : Nat
  more : Bool
  file : Nat
  reg : Nat
  level : Nat
  pc : Nat
  mtag : BitVec 16
  addr : Nat
  idx : Nat
  deriving DecidableEq, Repr

/-- Record a halt in a core's registers (R69 step 4, R76). `CO_HALT_PC` holds 16 bits, so a bundle refused at byte 65,536
itself, where issue has run off the end, is recorded as 0 (DEDUCED, log 77). -/
def Core.recordHalt (x : Core) (h : HaltInfo) : Core :=
  { x with
    st := .halted
    hReason := BitVec.ofNat 8 h.reason
    hSlot := BitVec.ofNat 3 h.slot
    hMore := h.more
    hReg := BitVec.ofNat 6 h.reg
    hFile := BitVec.ofNat 3 h.file
    hLevel := BitVec.ofNat 2 h.level
    hPc := BitVec.ofNat 16 h.pc
    hWtag := x.wtag
    hMtag := h.mtag
    hAddr := BitVec.ofNat 48 h.addr
    hIdx := BitVec.ofNat 64 h.idx }

/-- The `CORE_HALT` record (R69 step 5, R389). -/
def haltEvent (c : CoreId) (wtag : Word) (evq : Nat) (replayed : Bool) (h : HaltInfo) : Event :=
  { (((((mkEvent 0x01 2 (if replayed then 3 else 1)).atCore c).withReason (h.reason + 256 * h.slot)).withAddr
      h.addr).withDetail (h.pc % 65536)).withWork wtag evq with mtag := h.mtag }

/-- Halt a core (R69): issue stops, queued and running operations end, the cause is recorded, a record is written, and
the packet ends `FAILED` unless its share is to be replayed (R411 to R413). A fault of an instance that still goes on to its
cut point after its core has stopped leaves the first halt as it is recorded (R76; log 77). -/
def State.haltCore (s : State) (c : CoreId) (h : HaltInfo) : State :=
  if (s.core c).st ≠ .running then s else
  let s := s.stopEngines c
  let s := s.updCore c (fun x => x.recordHalt h)
  let s := s.trace c 6 h.reason h.pc h.mtag h.addr
  let k := match (s.core c).share with
    | some sh => s.pkts.find? sh.of
    | none => none
  let again := match k, (s.core c).share with
    | some k, some sh => h.reason = 0x30 && k.replayable && decide (sh.replays < 2)
    | _, _ => false
  let evq := match k with | some k => s.evqOf k.q | none => 0
  let first := BitVec.ofNat 32 s.evSeq.toNat
  let s := s.raise (haltEvent c (s.core c).wtag evq again h)
  let s := if h.reason = 0x30 then s.coreParity c else s
  match k with
  | some k =>
    if again then s.updCore c (fun x => { x with share := x.share.map (fun sh => { sh with cause := BitVec.ofNat 8 h.reason }) })
    else s.failPkt k first
  | none => s

/-! ### SP and ACC (R41, R43, R346, R393, R403) -/

/-- SP segments that a byte range touches (R346). -/
def segMask (off n : Nat) : BitVec 32 :=
  (List.range 32).foldl (fun m k => if off < 65536 * (k + 1) && 65536 * k < off + n then m ||| BitVec.ofNat 32 (2 ^ k) else m) 0

/-- ACC tiles that a byte range touches (R346). -/
def tileMask (off n : Nat) : BitVec 4 :=
  (List.range 4).foldl (fun m k => if off < 65536 * (k + 1) && 65536 * k < off + n then m ||| BitVec.ofNat 4 (2 ^ k) else m) 0

/-- Write bytes into SP: whole words get fresh check bits, and the live mask grows (R346, R393). -/
def Core.spWrite (x : Core) (off : Nat) (bs : List Byte) : Core :=
  let lo := cdiv off 4
  let hi := (off + bs.length) / 4
  { x with
    sp := x.sp.setMany 0 off bs
    spErr := if lo < hi then x.spErr.clear lo hi else x.spErr
    spLive := if bs.isEmpty then x.spLive else x.spLive ||| segMask off bs.length }

/-- Write bytes into ACC: fresh parity, and the tile mask grows. -/
def Core.accWrite (x : Core) (off : Nat) (bs : List Byte) : Core :=
  { x with
    acc := x.acc.setMany 0 off bs
    accBad := x.accBad.clear off (off + bs.length)
    accLive := if bs.isEmpty then x.accLive else x.accLive ||| tileMask off bs.length }

/-- A write into a core's SP, with the flip mask of its encoder (R403, R404 target 2). -/
def State.spWrite (s : State) (c : CoreId) (off : Nat) (bs : List Byte) : State :=
  let s := s.updCore c (fun x => x.spWrite off bs)
  if bs.isEmpty || s.hk.flips.isEmpty then s
  else
    let (m, s) := s.fire (encKey 2 c.p.val c.c.val c.k.val 0)
    if m = 0 then s
    else s.updCore c (fun x => { x with spErr := x.spErr.set 0 (off / 4) (x.spErr.get 0 (off / 4) ^^^ m.truncate 39) })

/-- A write into a core's ACC, with the flip mask of its parity (R403, R404 target 5: bits [7:0] flip the parity bits of
the eight bytes that begin the write). -/
def State.accWrite (s : State) (c : CoreId) (off : Nat) (bs : List Byte) : State :=
  let s := s.updCore c (fun x => x.accWrite off bs)
  if bs.isEmpty || s.hk.flips.isEmpty then s
  else
    let (m, s) := s.fire (encKey 5 c.p.val c.c.val c.k.val 0)
    if m = 0 then s
    else s.updCore c (fun x => { x with
      accBad := (List.range 8).foldl (fun t k => if m.getLsbD k then t.set false (off + k) (!(t.get false (off + k))) else t)
        x.accBad })

/-- Bytes of SP and of ACC. -/
def Core.spBytes (x : Core) (off n : Nat) : List Byte := x.sp.getMany 0 off n
def Core.accBytes (x : Core) (off n : Nat) : List Byte := x.acc.getMany 0 off n

/-- Read the words of SP that `t` names: correctable words are corrected and counted; a poisoned or uncorrectable word is
reported with its reason code and SP offset (R393, R394, R397). -/
def State.spCheckIf (s : State) (c : CoreId) (t : Nat → Bool) : State × Option (Nat × Nat) :=
  let words := ((s.core c).spErr.map Prod.fst).filter t
  words.foldl (fun r w =>
    let s := r.1
    let e := (s.core c).spErr.get 0 w
    let v := eccData e (BitVec.ofNat 32 (leNat ((s.core c).spBytes (4 * w) 4)))
    let read := s.updCore c (fun x => { x with
      sp := x.sp.setMany 0 (4 * w) (leBytes 4 v.toNat), spErr := x.spErr.set 0 w 0 })
    match eccOf e with
    | .good => (read, r.2)
    | .corrected => (read.countSram (.sp c) (w / 16) false, r.2)
    | .poison => (s, r.2 <|> some (0x32, 4 * w))
    | .uncorrectable => (s.countSram (.sp c) (w / 16) true, r.2 <|> some (0x31, 4 * w))) (s, none)

/-- Read a range of SP. -/
def State.spCheck (s : State) (c : CoreId) (off n : Nat) : State × Option (Nat × Nat) :=
  s.spCheckIf c (fun w => off < 4 * w + 4 && 4 * w < off + n)

/-- A parity fault in a range of ACC: its offset (R393). -/
def Core.accCheck (x : Core) (off n : Nat) : Option Nat :=
  (x.accBad.find? (fun e => e.2 && off ≤ e.1 && e.1 < off + n)).map Prod.fst

/-! ### Causes of a refusal (R48, R63, R69) -/

/-- One cause: reason code, slot, register file, number and level, address. -/
structure Cause where
  code : Nat
  slot : Nat
  file : Nat
  reg : Nat
  level : Nat
  addr : Nat
  deriving DecidableEq, Repr

/-- A cause that names no register and no address. -/
def mkCause (code slot : Nat) : Cause := ⟨code, slot, 6, 0, 0, 0⟩

/-- `FILE` of `CO_HALT_INFO` for a register file. -/
def RegFile.code : RegFile → Nat
  | .a => 0
  | .x => 1
  | .j => 2
  | .i => 3
  | .bind => 4
  | .mtag => 7

/-- A cause about a register. -/
def regCause (code slot : Nat) (f : RegFile) (idx : Nat) : Cause :=
  if f = .bind then ⟨code, slot, 4, idx / 4, idx % 4, 0⟩ else ⟨code, slot, f.code, idx, 0, 0⟩

/-- The causes of R48 that the bundle's bytes alone give. -/
def staticCauses (b : Bundle) (pc : Nat) : List Cause :=
  let trunc := if 65536 < pc + b.bytes then [mkCause 3 7] else []
  if 65536 < pc + 2 then [mkCause 3 7]
  else if b.headerBad then [mkCause 1 7]
  else
    (if b.wide && !b.has 1 && !b.has 2 then [mkCause 2 7] else []) ++ trunc
      ++ (if 2 * b.len.toNat ≠ b.bytes then [mkCause 4 7] else [])
      ++ (if b.tested pc 0 && ctlIllegal b then [mkCause 1 0] else [])
      ++ (if b.tested pc 0 && [1, 2, 3, 4].contains (b.op 0) && b.f 0 31 31 = 1 then [mkCause 5 0] else [])
      ++ (if b.tested pc 1 && adrIllegal b then [mkCause 1 1] else [])
      ++ (if b.tested pc 2 && sclIllegal b then [mkCause 1 2] else [])
      ++ [3, 4, 5].flatMap (fun n =>
          if b.tested pc n then (macroFaults n (b.word n)).map (fun code => mkCause code n) else [])

/-- A slot carries no defined operation with legal fields (R48). -/
def slotIllegal (b : Bundle) : Nat → Bool
  | 0 => ctlIllegal b
  | 1 => adrIllegal b
  | 2 => sclIllegal b
  | n => !(macroFaults n (b.word n)).isEmpty

/-- The slots of a bundle whose operations are read: tested and legal (R48). Of the others no register is read and no
descriptor tested. -/
def legalSlots (b : Bundle) (pc : Nat) : Bundle :=
  let ok := (List.range 6).filter (fun n => b.tested pc n && !slotIllegal b n)
  { b with mask := ok.foldl (fun m n => m ||| BitVec.ofNat 6 (2 ^ n)) 0 }

/-- The SP address of an `LDX` or `STX` (R54). -/
def ldxAddr (core : Core) (b : Bundle) : Nat :=
  (core.a.get 0 (b.f 2 17 13) + BitVec.ofInt 48 (4 * imm9 b)).toNat

/-- A bundle holds an `LDX` or `STX` whose address fails (R48, R54). -/
def ldxCause (core : Core) (b : Bundle) : List Cause :=
  if !b.headerBad && b.has 2 && !b.wide && (b.op 2 = 0x18 || b.op 2 = 0x19) then
    let a := ldxAddr core b
    if a % 4 ≠ 0 || 2097152 ≤ a then [⟨0x12, 2, 6, 0, 0, a⟩] else []
  else []

/-- The descriptor that a macro slot names, with the 64 bytes after it (R79, R80, R157). -/
def Core.descOf (core : Core) (w : BitVec 64) : List Byte :=
  match macroDesc w with
  | some (n, _) => core.spBytes (0x1FF000 + 64 * n) 128
  | none => []

/-- The causes that the descriptor copies give (R84, R92, R144, R149). -/
def descCauses (core : Core) (b : Bundle) : List Cause :=
  [3, 4, 5].flatMap (fun n =>
    let w := b.word n
    if b.has n then
      (if macroDescIllegal w (core.descOf w) then [mkCause 1 n] else [])
        ++ (if macroAlias w (core.descOf w) then [mkCause 0x10 n] else [])
    else [])

/-- The causes that the hazard checker finds (R63). -/
def hazardCauses (core : Core) (b : Bundle) : List Cause :=
  if !core.hazEn then []
  else
    let rd := (bundleReads core b).filterMap (fun r =>
      if !(r.1 = .i && r.2.1 = 0) && core.inflight.any (fun w => w.file = r.1 && w.idx = r.2.1) then some (regCause 0x20 r.2.2 r.1 r.2.1) else none)
    let ws := bundleWrites b
    let wr := ws.zipIdx.filterMap (fun e =>
      let w := e.1
      let clash := core.inflight.any (fun v => v.file = w.1 && v.idx = w.2.1 && w.2.2.2 ≤ v.left)
        || (ws.take e.2).any (fun v => v.1 = w.1 && v.2.1 = w.2.1 && v.2.2.2 = w.2.2.2)
      if clash then some (regCause 0x20 w.2.2.1 w.1 w.2.1) else none)
    rd ++ wr

/-- Number of the first byte of a register of a file code, for its parity bits: one for each byte (R43). -/
def regKey (file idx : Nat) : Nat := (file * 128 + idx) * 8

/-- A byte of a register has a parity error. -/
def Core.regFault (x : Core) (file idx : Nat) : Bool :=
  (List.range 8).any (fun k => x.regBad.get false (regKey file idx + k))

/-- The parity of the program bytes of a bundle fails (R43, R393). -/
def progCauses (core : Core) (b : Bundle) : List Cause :=
  if core.progBad.any (fun e => e.2 && core.pc.toNat ≤ e.1 && e.1 < core.pc.toNat + b.bytes) then [mkCause 0x30 7] else []

/-- The causes that the parity of the registers that a bundle reads gives (R43, R393), the token of a `WAITT` among them. -/
def parityCauses (core : Core) (b : Bundle) : List Cause :=
  (bundleReads core b).filterMap (fun r =>
      if core.regFault r.1.code r.2.1 then some (regCause 0x30 r.2.2 r.1 r.2.1) else none)
    ++ (if b.has 0 && b.op 0 = 5 && core.regFault 5 (b.f 0 13 8) then [⟨0x30, 0, 5, b.f 0 13 8, 0, 0⟩] else [])

/-- The causes found as a bundle issues, in the core cycle in which it does: addresses, descriptor copies, hazards and parity
(R54, R63, R80, R149, R393). -/
def issueCauses (core : Core) (b : Bundle) : List Cause :=
  let l := legalSlots b core.pc.toNat
  ldxCause core l ++ descCauses core l ++ hazardCauses core l ++ progCauses core b ++ parityCauses core l

/-- The cause with the lowest code, the first of them (R69). -/
def lowestCause : List Cause → Option Cause
  | [] => none
  | c :: cs => match lowestCause cs with
    | none => some c
    | some d => if c.code ≤ d.code then some c else some d

/-- Refuse a bundle (R48, R69). -/
def State.refuse (s : State) (c : CoreId) (cs : List Cause) : State :=
  match lowestCause cs with
  | none => s
  | some k =>
    let x := s.core c
    s.haltCore c ⟨k.code, k.slot, decide (2 ≤ cs.length), k.file, k.reg, k.level, x.pc.toNat, x.mtag, k.addr, 0⟩

/-! ### Holds and issue (R57, R62, R64 to R66, R80) -/

/-- The queue of an engine. -/
def Core.queueOf (x : Core) : Engine → List MacroOp
  | .dma => x.dmaQ
  | .mat => x.matQ
  | .vec => x.vecQ

/-- The engine that a slot feeds (R46). -/
def slotEngine (n : Nat) : Engine := if n = 3 then .dma else if n = 4 then .mat else .vec

/-- What holds the bundle: a `WAITT` below its count, or a macro slot whose queue of 8 is full (R62, R64). R73 gives the token of
a full queue as 0xFF and states no count awaited for it: the model records 0 (DESIGN CHOICE, log 78). -/
def holdOf (core : Core) (b : Bundle) : Option (Nat × Nat) :=
  if b.has 0 && b.op 0 = 5 && core.tok.get 0 (b.f 0 13 8) < b.f 0 23 16 then some (b.f 0 13 8, b.f 0 23 16)
  else if [3, 4, 5].any (fun n => b.has n && decide (8 ≤ (core.queueOf (slotEngine n)).length)) then some (0xFF, 0)
  else none

/-- Begin or keep a hold (R62, R73). -/
def State.holdOn (s : State) (c : CoreId) (tok want : Nat) : State :=
  let x := s.core c
  match x.hold with
  | some h =>
    if h.tok = tok && h.want = want then s
    else
      let s := s.trace c 5 h.tok x.pc.toNat x.mtag h.cycles
      let s := s.trace c 4 tok x.pc.toNat x.mtag want
      s.updCore c (fun x => { x with hold := some ⟨tok, want, 0⟩ })
  | none =>
    let s := s.trace c 4 tok x.pc.toNat x.mtag want
    s.updCore c (fun x => { x with hold := some ⟨tok, want, 0⟩ })

/-- End a hold (R73). -/
def State.unhold (s : State) (c : CoreId) : State :=
  let x := s.core c
  match x.hold with
  | some h => (s.trace c 5 h.tok x.pc.toNat x.mtag h.cycles).updCore c (fun x => { x with hold := none })
  | none => s

/-- The context of a core's share is RUNNING, so that the core may issue (R339, R349). The bundles of a library program
(R344) are no commands: only a `RUN`'s share issues. -/
def State.mayIssue (s : State) (c : CoreId) : Bool :=
  let x := s.core c
  match x.share with
  | some sh => x.st = .running && (s.ctx c.p sh.ctx).st = .running && !x.ended && x.idle = 0
      && s.pkts.any (fun k => sh.of k && k.kind = .run)
  | none => false

/-- The descriptor copies of a bundle's three macro slots, 128 bytes for each (R80). -/
def copyDescs (core : Core) (b : Bundle) : List Byte :=
  [3, 4, 5].flatMap (fun n => if b.has n then padTo 128 (core.descOf (b.word n)) else List.replicate 128 0)

/-- A bundle issues: its `WAITT` consumes its count, its descriptors are copied, and the program address moves past it
(R47, R66, R80). -/
def Core.openWith (x : Core) (b : Bundle) : Core :=
  let tok := if b.has 0 && b.op 0 = 5 && b.f 0 14 14 = 1 then
      x.tok.set 0 (b.f 0 13 8) (x.tok.get 0 (b.f 0 13 8) - b.f 0 23 16)
    else x.tok
  let phase := if b.has 0 && b.op 0 = 5 then max 1 x.tokPhase else x.tokPhase
  { x with
    cur := some b
    curDone := 0
    curDesc := copyDescs x b
    curPc := x.pc.truncate 16
    pc := BitVec.ofNat 17 (x.pc.toNat + b.bytes)
    tok := tok
    tokPhase := phase }

/-- The token test of a bundle's `WAITT` comes before those of the engine queues in one core cycle (R66): once a queue has
taken a count, a `WAITT` is tested in the next. -/
def Core.tokensOpen (x : Core) (b : Bundle) : Bool := !(b.has 0 && b.op 0 = 5) || decide (x.tokPhase ≤ 1)

/-- Offer a bundle to a core: nothing while it may not issue or another bundle is open in this core cycle; a refusal; a
hold; or the bundle issues. The flag says that the bundle stands open. A bundle that its bytes refuse is refused at once with
every cause that holds in that core cycle (R48, R69); one that only its issue can refuse is held first (R62). -/
def State.openBundle (s : State) (c : CoreId) (b : Bundle) : State × Bool :=
  let x := s.core c
  match x.cur with
  | some b' => (s, decide (b' = b) && x.st = .running)
  | none =>
    if !s.mayIssue c then (s, false)
    else
      let static := staticCauses b x.pc.toNat
      if !static.isEmpty then (s.refuse c (if b.headerBad then static else static ++ issueCauses x b), false)
      else if !x.tokensOpen b then (s, false)
      else match holdOf x b with
        | some (t, n) => (s.holdOn c t n, false)
        | none =>
          if !(issueCauses x b).isEmpty then (s.refuse c (issueCauses x b), false)
          else
            let s := s.unhold c
            let s := s.trace c 1 b.mask.toNat x.pc.toNat x.mtag 0
            (s.updCore c (fun x => x.openWith b), true)

/-- A slot operation: the bundle is offered, and if it stands open the slot takes effect once, where the bundle holds
that slot with that opcode. -/
def slotOp (c : CoreId) (b : Bundle) (slot op : Nat) (eff : State → State) (s : State) :
    Host.Outcome State Fault Refusal :=
  let r := s.openBundle c b
  if r.2 && b.has slot && b.op slot = op && !(r.1.core c).curDone.getLsbD slot then
    .next (eff (r.1.updCore c (fun x => { x with curDone := x.curDone ||| BitVec.ofNat 6 (2 ^ slot) })))
  else .next r.1

/-- Put a register write in flight (R60). -/
def State.write (s : State) (c : CoreId) (file : RegFile) (idx : Nat) (v : BitVec 48) (slot lat : Nat) : State :=
  s.updCore c (fun x => { x with inflight := x.inflight ++ [⟨file, idx, v, slot, lat⟩] })

/-- Scalar register as read now. -/
def Core.xr (x : Core) (n : Nat) : Word := x.x.get 0 n
/-- Address register as read now. -/
def Core.ar (x : Core) (n : Nat) : Addr := x.a.get 0 n
/-- Increment register as read now; I0 reads 0 (R49). -/
def Core.ir (x : Core) (n : Nat) : Word := if n = 0 then 0 else x.i.get 0 n
/-- An increment sign-extended to an address (R49). -/
def Core.incr (x : Core) (n : Nat) : Addr := (x.ir n).signExtend 48
/-- Loop counter as read now. -/
def Core.jr (x : Core) (n : Nat) : BitVec 16 := x.j.get 0 n

/-- Take a branch (R51): the target, then two core cycles in which nothing issues. -/
def State.branch (s : State) (c : CoreId) (target : Nat) : State :=
  s.updCore c (fun x => { x with pc := BitVec.ofNat 17 (2 * target), idle := 3 })

end Sys2Proof.Machine
end

