-- ==== Sys2Proof/Machine/Adr.lean ====
section
/-! DEFINITION. The ADR operations (R53). -/

namespace Sys2Proof.Machine

/-- The `D` and `S` fields of an ADR slot. -/
def adrD (b : Bundle) : Nat := b.f 1 13 8
def adrS (b : Bundle) : Nat := b.f 1 19 14

/-- `ADR_NOP` (R53). -/
def execAdrNop (c : CoreId) (b : Bundle) (s : State) : Host.Outcome State Fault Refusal :=
  slotOp c b 1 0x00 id s

/-- `MOVI` (R53): A[`D`] takes the immediate. -/
def execAdrMovi (c : CoreId) (b : Bundle) (s : State) : Host.Outcome State Fault Refusal :=
  slotOp c b 1 0x01 (fun s => s.write c .a (adrD b) (BitVec.ofInt 48 (adrImm b)) 1 1) s

/-- `ADDI` (R53). -/
def execAdrAddi (c : CoreId) (b : Bundle) (s : State) : Host.Outcome State Fault Refusal :=
  slotOp c b 1 0x02 (fun s =>
    s.write c .a (adrD b) ((s.core c).ar (adrS b) + BitVec.ofInt 48 (adrImm b)) 1 1) s

/-- `ADDX` (R53): A[`S`] plus the sign-extended X[`IMM12`[4:0]], latency 2. -/
def execAddx (c : CoreId) (b : Bundle) (s : State) : Host.Outcome State Fault Refusal :=
  slotOp c b 1 0x03 (fun s =>
    s.write c .a (adrD b) ((s.core c).ar (adrS b) + ((s.core c).xr (b.f 1 24 20)).signExtend 48) 1 2) s

/-- `ADDIN` (R53): A[`S`] plus I[`IMM12`[5:0]]. -/
def execAddin (c : CoreId) (b : Bundle) (s : State) : Host.Outcome State Fault Refusal :=
  slotOp c b 1 0x04 (fun s =>
    s.write c .a (adrD b) ((s.core c).ar (adrS b) + (s.core c).incr (b.f 1 25 20)) 1 1) s

/-- `SETI` (R53). -/
def execSeti (c : CoreId) (b : Bundle) (s : State) : Host.Outcome State Fault Refusal :=
  slotOp c b 1 0x05 (fun s => s.write c .i (adrD b) (BitVec.ofInt 48 (adrImm b)) 1 1) s

/-- `MOVXI` (R53): I[`D`] takes X[`S`], latency 2. -/
def execMovxi (c : CoreId) (b : Bundle) (s : State) : Host.Outcome State Fault Refusal :=
  slotOp c b 1 0x06 (fun s => s.write c .i (adrD b) (((s.core c).xr (adrS b)).zeroExtend 48) 1 2) s

/-- `SETJ` (R53). -/
def execSetj (c : CoreId) (b : Bundle) (s : State) : Host.Outcome State Fault Refusal :=
  slotOp c b 1 0x07 (fun s => s.write c .j (adrD b) (BitVec.ofInt 48 (adrImm b)) 1 1) s

/-- `MOVXJ` (R53): J[`D`] takes X[`S`][15:0], latency 2. -/
def execMovxj (c : CoreId) (b : Bundle) (s : State) : Host.Outcome State Fault Refusal :=
  slotOp c b 1 0x08 (fun s => s.write c .j (adrD b) (((s.core c).xr (adrS b)).zeroExtend 48) 1 2) s

/-- `BIND` (R53): the binding of A[`D`] at level `IMM12`[1:0] names I[`S`]. -/
def execBind (c : CoreId) (b : Bundle) (s : State) : Host.Outcome State Fault Refusal :=
  slotOp c b 1 0x09 (fun s => s.write c .bind (4 * adrD b + b.f 1 21 20) (BitVec.ofNat 48 (adrS b)) 1 1) s

end Sys2Proof.Machine
end

