-- ==== Sys2Proof/Machine/Bridge.lean ====
section
/-! DEFINITION. The bridge ring and the routes over it (R20, R21), and arrivals at a partition whose core PLL may not run (R26 to
R28). -/

namespace Sys2Proof.Machine

/-! ### The ring (R20, R21) -/

/-- The four bridges, by the partitions that each joins (R20). -/
def bridges : List (Fin 4 × Fin 4) := [(0, 1), (1, 3), (3, 2), (2, 0)]

/-- A bridge joins two partitions. -/
def bridged (a b : Fin 4) : Bool := bridges.contains (a, b) || bridges.contains (b, a)

/-- The other partition on a partition's side of the package: P0 and P1, P2 and P3. -/
def sameSide : Fin 4 → Fin 4
  | 0 => 1
  | 1 => 0
  | 2 => 3
  | 3 => 2

/-- The partitions that a transfer passes, both ends included: the bridge between them where there is one; otherwise first the
bridge on the sender's side, then the one between the sides (R21). -/
def route (a b : Fin 4) : List (Fin 4) := if a = b then [a] else if bridged a b then [a, b] else [a, sameSide a, b]

/-! ### Arrivals (R26, R27) -/

/-- An arrival (R27): one that meets STOPPING cancels the stop, one that meets STOPPED starts the PLL and is held, one that meets
STARTING is held behind those already held. -/
def State.arriveHeld (s : State) (p : Fin 4) (h : Held) : State :=
  s.updPart p (fun q => match q.pll with
    | .running => q
    | .stopping => { q with pll := .running }
    | .stopped => { q with pll := .starting, restarts := satAdd q.restarts 1, heldArr := q.heldArr ++ [h] }
    | .starting => { q with heldArr := q.heldArr ++ [h] })

/-- An arrival that brings nothing to do by itself: what it announces waits elsewhere. -/
def State.arrive (s : State) (p : Fin 4) (a : ArrivalKind) : State := s.arriveHeld p (.event a)

/-- An arrival that its sender goes on offering (R28): it is held once. -/
def State.arriveOnce (s : State) (p : Fin 4) (h : Held) : State :=
  if (s.part p).heldArr.contains h then s else s.arriveHeld p h

/-- The partitions whose PLL must run for an access of partition `p` to places: their homes, and those that forward it (R21,
R26). -/
def onTheWay (p : Fin 4) (ps : List Place) : List (Fin 4) :=
  ((ps.flatMap (fun pl => match pl with | .dram k => route p (homeOf k) | .host _ => [])).dedup).filter (fun q => q ≠ p)

/-- Those of them that do not run: bridge traffic for each is an arrival there, and its sender is held back (R26 to R28). -/
def State.bridgeWaits (s : State) (p : Fin 4) (ps : List Place) : Option State :=
  match (onTheWay p ps).filter (fun q => (s.part q).pll ≠ .running) with
  | [] => none
  | qs => some (qs.foldl (fun s q => s.arriveOnce q (.event .bridge)) s)

end Sys2Proof.Machine
end

