-- ==== Sys2Proof/Machine/Arbiter.lean ====
section
/-! DEFINITION. Priority classes, and the arbiters that grant by them (R195 to R197). -/

namespace Sys2Proof.Machine

/-- The priority classes, highest first (R195). -/
inductive Class where
  | lc | bulk | background
  deriving DecidableEq, Repr

/-- Traffic that carries a class of its own (R195): reads and picks, and writes, reductions and atomic operations, with the `CLASS`
field of their operation; and what the device does by itself or for the host. -/
inductive Traffic where
  | read (field : Nat) | write (field : Nat) | translation | context | host | writeBack | scrub
  deriving DecidableEq, Repr

/-- A `CLASS` field (R82). -/
def Class.ofField : Nat → Class
  | 0 => .lc
  | 1 => .bulk
  | _ => .background

/-- The class that traffic carries (R195). -/
def Traffic.cls : Traffic → Class
  | .read f => Class.ofField f
  | .write f => if Class.ofField f = .background then .background else .bulk
  | .translation => .lc
  | .context => .bulk
  | .host => .bulk
  | .writeBack => .bulk
  | .scrub => .background

/-- Reads of class LC or BULK allocate a line on a miss (R186). -/
def Class.allocates (c : Class) : Bool := c ≠ .background

/-- An arbiter at its next grant: a window of 50 grants that is over gives way to a new one (R196). -/
def Arbiter.atGrant (a : Arbiter) : Arbiter := if a.grants < 50 then a else { a with grants := 0, bulk := 0, bg := 0 }

/-- The class that an arbiter grants, given the classes of the requests that wait (R196). -/
def Arbiter.choose (a : Arbiter) (waiting : List Class) : Option Class :=
  let a := a.atGrant
  let owedBulk := if waiting.contains .bulk then 5 - a.bulk else 0
  let owedBg := if waiting.contains .background then 1 - a.bg else 0
  if waiting.isEmpty then none
  else if 50 - a.grants ≤ owedBulk + owedBg then (if 0 < owedBulk then some .bulk else some .background)
  else if waiting.contains .lc then some .lc
  else if waiting.contains .bulk then some .bulk
  else some .background

/-- The port that a free-share arbiter grants: of those that request, the next one after the port granted last (R197). -/
def Arbiter.turn (a : Arbiter) (ports : List Nat) : Option Nat :=
  match ports.filter (fun p => a.port < p) with
  | [] => lowest ports
  | l => lowest l

/-- An arbiter after a grant. -/
def Arbiter.granted (a : Arbiter) (c : Class) (port : Nat) : Arbiter :=
  let a := a.atGrant
  { grants := a.grants + 1
    bulk := a.bulk + b2n (c = .bulk)
    bg := a.bg + b2n (c = .background)
    port := port }

end Sys2Proof.Machine
end

