-- ==== Sys2Proof/Machine/Land.lean ====
section
/-! DEFINITION. The end of a core cycle (R60 to R62): writes land, idle cycles pass, holds are counted, and a share that
has nothing left completes (R67). -/

namespace Sys2Proof.Machine

/-- One write lands (R49, R61): I0 ignores writes. A register written has fresh parity. -/
def Core.land (x : Core) (w : RegWrite) : Core :=
  let x := { x with regBad := x.regBad.clear (regKey w.file.code w.idx) (regKey w.file.code w.idx + 8) }
  match w.file with
  | .a => { x with a := x.a.set 0 w.idx w.val }
  | .x => { x with x := x.x.set 0 w.idx (w.val.truncate 32) }
  | .j => { x with j := x.j.set 0 w.idx (w.val.truncate 16) }
  | .i => if w.idx = 0 then x else { x with i := x.i.set 0 w.idx (w.val.truncate 32) }
  | .bind => { x with bind := x.bind.set 0 w.idx (w.val.truncate 6) }
  | .mtag => { x with mtag := w.val.truncate 16 }

/-- The writes that land at the end of this core cycle, in the order of R61: by slot, then by issue. -/
def Core.due (x : Core) : List RegWrite :=
  let ready := x.inflight.filter (fun w => w.left ≤ 1)
  (List.range 6).flatMap (fun n => ready.filter (fun w => w.slot = n))

/-- A core at the end of a core cycle (R51, R60, R62). -/
def Core.endCycle (x : Core) : Core :=
  let y := x.due.foldl Core.land x
  { y with
    inflight := (x.inflight.filter (fun w => 1 < w.left)).map (fun w => { w with left := w.left - 1 })
    cur := none
    curDone := 0
    curDesc := []
    idle := x.idle - 1
    tokPhase := 0
    runs := x.runs.map (fun i =>
      if i.st = .waiting && (mop i.op.word = 0x19 || mop i.op.word = 0x1B) then { i with held := i.held + 1 } else i)
    hold := x.hold.map (fun h => { h with cycles := h.cycles + 1 })
    stalls := if x.hold.isSome then satAdd x.stalls 1 else x.stalls }

/-- Every write in flight lands (R62, R69). -/
def Core.landAll (x : Core) : Nat → Core
  | 0 => x
  | n + 1 => if x.inflight.isEmpty then x else Core.landAll x.endCycle n

/-- A share has nothing left to do (R67). -/
def Core.finished (x : Core) : Bool :=
  x.ended && x.inflight.isEmpty && x.dmaQ.isEmpty && x.matQ.isEmpty && x.vecQ.isEmpty && x.runs.isEmpty && x.cur.isNone

/-- A finished share completes: the core returns to IDLE and its packet has one share fewer to await (R67, R375). -/
def State.shareEnd (s : State) (c : CoreId) : State :=
  let x := s.core c
  match x.share with
  | none => s
  | some sh =>
    if x.st = .running && x.finished then
      let s := s.trace c 9 0 x.curPc.toNat x.mtag 0
      let s := s.updCore c (fun x => { x with st := .idle, share := none, ended := false })
      s.updPkts sh.of (fun k => { k with sharesLeft := k.sharesLeft - 1 })
    else s

/-- Slots of the bundle that a core has open have still to take effect: all of them do in the core cycle in which it issues
(R48, R54). -/
def Core.slotsLeft (x : Core) : Bool :=
  match x.cur with
  | some b => decide (b.mask &&& ~~~x.curDone ≠ 0)
  | none => false

/-- `WRITE_LANDS` (R60, R61, R74): the end of a core cycle of a cluster, for its nine cores. No core cycle is delivered
while the partition's PLL does not run (R27), and none ends before every slot of the bundles that issued in it has taken
effect (R48). -/
def execWriteLands (cl : ClusterId) (s : State) : Host.Outcome State Fault Refusal :=
  if (s.part cl.p).pll ≠ .running || (coresOf cl).any (fun c => (s.core c).slotsLeft) then .next s
  else
    let s := (coresOf cl).foldl (fun s c => (s.updCore c Core.endCycle).shareEnd c) s
    .next (s.updCluster cl (fun k => { k with cycle := k.cycle + 1, trThisCycle := 0 }))

end Sys2Proof.Machine
end

