-- ==== Sys2Proof/Machine/MacroIssue.lean ====
section
/-! DEFINITION. The macro slots at issue (R55 to R59, R64, R65, R71, R78, R80): each queues one operation with everything
it reads, or with a repeat count of 0 issues no instance. What the operation does is its instances' start and completion. -/

namespace Sys2Proof.Machine

/-- Add 1 to a token count (R65); a count of 255 stays and halts the core with `TOKEN_OVERFLOW`. -/
def State.signalToken (s : State) (c : CoreId) (t slot pc : Nat) (mtag : BitVec 16) : State :=
  let n := (s.core c).tok.get 0 t
  if 255 ≤ n then s.haltCore c ⟨0x21, slot, false, 5, t, 0, pc, mtag, 0, 0⟩
  else s.updCore c (fun x => { x with tok := x.tok.set 0 t (n + 1) })

/-- The repeat counts of a macro slot (R56). -/
def macroReps (x : Core) (w : BitVec 64) : List Nat := (List.range (mf w 25 23)).map (fun l => (x.jr l).toNat)

/-- The increments of an address register at the levels of a macro slot (R56). -/
def macroIncs (x : Core) (w : BitVec 64) (a : Nat) : List Addr :=
  (List.range (mf w 25 23)).map (fun l => x.incr (x.bind.get 0 (4 * a + l)).toNat)

/-- The advanced address of R58: A + J × I at the outermost level, or A + I at level 0 with depth 0. -/
def advanced (x : Core) (w : BitVec 64) (a : Nat) : Addr :=
  let d := mf w 25 23
  if d = 0 then x.ar a + x.incr (x.bind.get 0 (4 * a)).toNat
  else x.ar a + BitVec.ofNat 48 (x.jr (d - 1)).toNat * x.incr (x.bind.get 0 (4 * a + (d - 1))).toNat

/-- The operation that a macro slot queues (R57, R71, R78, R80). -/
def macroCapture (x : Core) (slot : Nat) (w : BitVec 64) : MacroOp where
  num := x.issued
  word := w
  pc := x.curPc
  wtag := x.wtag
  mtag := x.mtag
  reps := macroReps x w
  base := (macroA w).map x.ar
  incs := (macroA w).map (macroIncs x w)
  xs := (macroX w).map x.xr
  desc := (x.curDesc.drop (128 * (slot - 3))).take 128
  next := 0
  waited := false

/-- Put an operation at the end of its engine's queue (R64). -/
def Core.enqueue (x : Core) (slot : Nat) (m : MacroOp) : Core :=
  let x := { x with issued := x.issued + 1 }
  if slot = 3 then { x with dmaQ := x.dmaQ ++ [m] }
  else if slot = 4 then { x with matQ := x.matQ ++ [m] }
  else { x with vecQ := x.vecQ ++ [m] }

/-- A core's DMA queue asks its cluster's DMA engine for the next instance, behind the requests that wait already (R196). -/
def State.askDma (s : State) (c : CoreId) : State :=
  s.updCluster c.cluster (fun y => if y.dmaOrder.contains c.k.val then y else { y with dmaOrder := y.dmaOrder ++ [c.k.val] })

/-- What a macro slot does when its bundle issues: the write-back of R58, then the queue entry, or with a repeat count of
0 the single signal of R59. -/
def State.issueMacro (s : State) (c : CoreId) (slot : Nat) (w : BitVec 64) : State :=
  let x := s.core c
  let s := if mf w 26 26 = 1 then
      ((macroA w).dedup).foldl (fun s a => s.write c .a a (advanced x w a) slot 2) s
    else s
  if (macroReps x w).any (· = 0) then
    if mf w 14 14 = 1 then s.signalToken c (mf w 13 8) slot x.curPc.toNat x.mtag else s
  else
    let s := s.updCore c (fun x => x.enqueue slot (macroCapture x slot w))
    if slot = 3 then s.askDma c else s

/-- `LOAD` (R82) at issue. -/
def execLoad (c : CoreId) (b : Bundle) (s : State) : Host.Outcome State Fault Refusal :=
  slotOp c b 3 0x01 (fun s => s.issueMacro c 3 (b.word 3)) s

/-- `STORE` (R82) at issue. -/
def execStore (c : CoreId) (b : Bundle) (s : State) : Host.Outcome State Fault Refusal :=
  slotOp c b 3 0x02 (fun s => s.issueMacro c 3 (b.word 3)) s

/-- `PICK` (R89) at issue. -/
def execPick (c : CoreId) (b : Bundle) (s : State) : Host.Outcome State Fault Refusal :=
  slotOp c b 3 0x03 (fun s => s.issueMacro c 3 (b.word 3)) s

/-- `SPCOPY` (R90) at issue. -/
def execSpcopy (c : CoreId) (b : Bundle) (s : State) : Host.Outcome State Fault Refusal :=
  slotOp c b 3 0x04 (fun s => s.issueMacro c 3 (b.word 3)) s

/-- `TRAV` (R91) at issue. -/
def execTrav (c : CoreId) (b : Bundle) (s : State) : Host.Outcome State Fault Refusal :=
  slotOp c b 3 0x08 (fun s => s.issueMacro c 3 (b.word 3)) s

/-- `REDUCE` (R92) at issue. -/
def execReduce (c : CoreId) (b : Bundle) (s : State) : Host.Outcome State Fault Refusal :=
  slotOp c b 3 0x10 (fun s => s.issueMacro c 3 (b.word 3)) s

/-- `ATOM` (R93) at issue. -/
def execAtom (c : CoreId) (b : Bundle) (s : State) : Host.Outcome State Fault Refusal :=
  slotOp c b 3 0x11 (fun s => s.issueMacro c 3 (b.word 3)) s

/-- `SIGNAL` (R95) at issue. -/
def execSignal (c : CoreId) (b : Bundle) (s : State) : Host.Outcome State Fault Refusal :=
  slotOp c b 3 0x18 (fun s => s.issueMacro c 3 (b.word 3)) s

/-- `WAIT` (R95) at issue. -/
def execWaitFlag (c : CoreId) (b : Bundle) (s : State) : Host.Outcome State Fault Refusal :=
  slotOp c b 3 0x19 (fun s => s.issueMacro c 3 (b.word 3)) s

/-- `FENCE` (R95) at issue. -/
def execFence (c : CoreId) (b : Bundle) (s : State) : Host.Outcome State Fault Refusal :=
  slotOp c b 3 0x1A (fun s => s.issueMacro c 3 (b.word 3)) s

/-- `SEMTAKE` (R95) at issue. -/
def execSemtake (c : CoreId) (b : Bundle) (s : State) : Host.Outcome State Fault Refusal :=
  slotOp c b 3 0x1B (fun s => s.issueMacro c 3 (b.word 3)) s

/-- `SEMGIVE` (R95) at issue. -/
def execSemgive (c : CoreId) (b : Bundle) (s : State) : Host.Outcome State Fault Refusal :=
  slotOp c b 3 0x1C (fun s => s.issueMacro c 3 (b.word 3)) s

/-- `MMA` (R98) at issue. -/
def execMma (c : CoreId) (b : Bundle) (s : State) : Host.Outcome State Fault Refusal :=
  slotOp c b 4 0x40 (fun s => s.issueMacro c 4 (b.word 4)) s

/-- `MDRAIN` (R101) at issue. -/
def execMdrain (c : CoreId) (b : Bundle) (s : State) : Host.Outcome State Fault Refusal :=
  slotOp c b 4 0x41 (fun s => s.issueMacro c 4 (b.word 4)) s

/-- `VADD` (R103, R104) at issue. -/
def execVadd (c : CoreId) (b : Bundle) (s : State) : Host.Outcome State Fault Refusal :=
  slotOp c b 5 0x80 (fun s => s.issueMacro c 5 (b.word 5)) s

/-- `VSUB` (R103, R104) at issue. -/
def execVsub (c : CoreId) (b : Bundle) (s : State) : Host.Outcome State Fault Refusal :=
  slotOp c b 5 0x81 (fun s => s.issueMacro c 5 (b.word 5)) s

/-- `VMUL` (R103, R104) at issue. -/
def execVmul (c : CoreId) (b : Bundle) (s : State) : Host.Outcome State Fault Refusal :=
  slotOp c b 5 0x82 (fun s => s.issueMacro c 5 (b.word 5)) s

/-- `VFMA` (R103, R104) at issue. -/
def execVfma (c : CoreId) (b : Bundle) (s : State) : Host.Outcome State Fault Refusal :=
  slotOp c b 5 0x83 (fun s => s.issueMacro c 5 (b.word 5)) s

/-- `VMAX` (R103, R104) at issue. -/
def execVmax (c : CoreId) (b : Bundle) (s : State) : Host.Outcome State Fault Refusal :=
  slotOp c b 5 0x84 (fun s => s.issueMacro c 5 (b.word 5)) s

/-- `VMIN` (R103, R104) at issue. -/
def execVmin (c : CoreId) (b : Bundle) (s : State) : Host.Outcome State Fault Refusal :=
  slotOp c b 5 0x85 (fun s => s.issueMacro c 5 (b.word 5)) s

/-- `VADDS` (R103, R104) at issue. -/
def execVadds (c : CoreId) (b : Bundle) (s : State) : Host.Outcome State Fault Refusal :=
  slotOp c b 5 0x86 (fun s => s.issueMacro c 5 (b.word 5)) s

/-- `VMULS` (R103, R104) at issue. -/
def execVmuls (c : CoreId) (b : Bundle) (s : State) : Host.Outcome State Fault Refusal :=
  slotOp c b 5 0x87 (fun s => s.issueMacro c 5 (b.word 5)) s

/-- `VCVT` (R103, R104) at issue. -/
def execVcvt (c : CoreId) (b : Bundle) (s : State) : Host.Outcome State Fault Refusal :=
  slotOp c b 5 0x88 (fun s => s.issueMacro c 5 (b.word 5)) s

/-- `VWIDEN` (R103, R104) at issue. -/
def execVwiden (c : CoreId) (b : Bundle) (s : State) : Host.Outcome State Fault Refusal :=
  slotOp c b 5 0x89 (fun s => s.issueMacro c 5 (b.word 5)) s

/-- `VCOPY` (R103, R104) at issue. -/
def execVcopy (c : CoreId) (b : Bundle) (s : State) : Host.Outcome State Fault Refusal :=
  slotOp c b 5 0x8A (fun s => s.issueMacro c 5 (b.word 5)) s

/-- `VZERO` (R103, R104) at issue. -/
def execVzero (c : CoreId) (b : Bundle) (s : State) : Host.Outcome State Fault Refusal :=
  slotOp c b 5 0x8B (fun s => s.issueMacro c 5 (b.word 5)) s

/-- `VEXP2` (R103, R104) at issue. -/
def execVexp2 (c : CoreId) (b : Bundle) (s : State) : Host.Outcome State Fault Refusal :=
  slotOp c b 5 0x90 (fun s => s.issueMacro c 5 (b.word 5)) s

/-- `VLOG2` (R103, R104) at issue. -/
def execVlog2 (c : CoreId) (b : Bundle) (s : State) : Host.Outcome State Fault Refusal :=
  slotOp c b 5 0x91 (fun s => s.issueMacro c 5 (b.word 5)) s

/-- `VRCP` (R103, R104) at issue. -/
def execVrcp (c : CoreId) (b : Bundle) (s : State) : Host.Outcome State Fault Refusal :=
  slotOp c b 5 0x92 (fun s => s.issueMacro c 5 (b.word 5)) s

/-- `VRSQRT` (R103, R104) at issue. -/
def execVrsqrt (c : CoreId) (b : Bundle) (s : State) : Host.Outcome State Fault Refusal :=
  slotOp c b 5 0x93 (fun s => s.issueMacro c 5 (b.word 5)) s

/-- `VTANH` (R103, R104) at issue. -/
def execVtanh (c : CoreId) (b : Bundle) (s : State) : Host.Outcome State Fault Refusal :=
  slotOp c b 5 0x94 (fun s => s.issueMacro c 5 (b.word 5)) s

/-- `VGMAX` (R103, R104) at issue. -/
def execVgmax (c : CoreId) (b : Bundle) (s : State) : Host.Outcome State Fault Refusal :=
  slotOp c b 5 0x98 (fun s => s.issueMacro c 5 (b.word 5)) s

/-- `VGSUM` (R103, R104) at issue. -/
def execVgsum (c : CoreId) (b : Bundle) (s : State) : Host.Outcome State Fault Refusal :=
  slotOp c b 5 0x99 (fun s => s.issueMacro c 5 (b.word 5)) s

/-- `VGSUB` (R103, R104) at issue. -/
def execVgsub (c : CoreId) (b : Bundle) (s : State) : Host.Outcome State Fault Refusal :=
  slotOp c b 5 0x9A (fun s => s.issueMacro c 5 (b.word 5)) s

/-- `VGMUL` (R103, R104) at issue. -/
def execVgmul (c : CoreId) (b : Bundle) (s : State) : Host.Outcome State Fault Refusal :=
  slotOp c b 5 0x9B (fun s => s.issueMacro c 5 (b.word 5)) s

end Sys2Proof.Machine
end

