-- ==== Sys2Proof/Machine/Flags.lean ====
section
/-! DEFINITION. Flags and semaphores (R294 to R301): the words, the registrations at home slices and their tests, and the
running instances and packets that a word releases. -/

namespace Sys2Proof.Machine

/-! ### Instances of a core -/

/-- A running instance by its number. -/
def Core.inst (x : Core) (n : Nat) : Option Inst := x.runs.find? (fun i => i.id = n)

/-- Change a running instance, or one that goes on to its cut point. -/
def Core.updInst (x : Core) (n : Nat) (f : Inst → Inst) : Core :=
  { x with
    runs := x.runs.map (fun i => if i.id = n then f i else i)
    stopping := x.stopping.map (fun j => if j.inst.id = n then { j with inst := f j.inst } else j) }

/-- Change a running instance of a core. -/
def State.updInst (s : State) (c : CoreId) (n : Nat) (f : Inst → Inst) : State := s.updCore c (fun x => x.updInst n f)

/-- The index vector of instance `n`, level 0 varying fastest (R56). -/
def indexVec : List Nat → Nat → List Nat
  | [], _ => []
  | j :: js, n => n % j :: indexVec js (n / j)

/-- Number of instances of an operation (R56). -/
def MacroOp.count (m : MacroOp) : Nat := m.reps.prod

/-- The address of operand `k` of instance `n` (R56). -/
def MacroOp.addr (m : MacroOp) (k n : Nat) : Nat :=
  ((List.zipWith (fun i d => BitVec.ofNat 48 i * d) (indexVec m.reps n) (m.incs.getD k [])).foldl (· + ·)
    (m.base.getD k 0)).toNat

/-- `CO_HALT_IDX` of instance `n` (R76). -/
def MacroOp.haltIdx (m : MacroOp) (n : Nat) : Nat :=
  (indexVec m.reps n).foldr (fun i a => i % 65536 + 65536 * a) 0

/-- Slot number of an engine. -/
def Engine.slot : Engine → Nat
  | .dma => 3
  | .mat => 4
  | .vec => 5

/-- Halt a core over an instance of an operation, with `MORE` where another cause arose with the one recorded (R69, R112); a Datum
mismatch adds its own record (R402). An instance of a core that has stopped already is gone. -/
def State.haltOpWith (s : State) (c : CoreId) (e : Engine) (m : MacroOp) (n reason addr : Nat) (more : Bool) : State :=
  if (s.core c).st ≠ .running then s.updCore c (fun x => { x with runs := x.runs.filter (fun i => !(i.op = m && i.n = n)) })
  else
  let evq := match (s.core c).share with
    | some sh => s.evqOf sh.q
    | none => 0
  let s := s.haltCore c ⟨reason, Engine.slot e, more, 6, 0, 0, m.pc.toNat, m.mtag, addr, m.haltIdx n⟩
  if reason = 0x33 then
    let x := s.core c
    s.raise { (((mkEvent 0x08 2 1).atPart c.p).withAddr addr).withWork x.hWtag (evq % 8) with mtag := m.mtag }
  else s

/-- Halt a core over an instance of an operation for one cause. -/
def State.haltOp (s : State) (c : CoreId) (e : Engine) (m : MacroOp) (n reason addr : Nat) : State :=
  s.haltOpWith c e m n reason addr false

/-! ### Words -/

/-- Consecutive places of stack memory. -/
def dramRun (k n : Nat) : List Place := (List.range n).map (fun j => .dram (k + j))

/-- A word of `w` bytes at a place. -/
def State.wordAt (s : State) (k w : Nat) : Nat := leNat (s.mem.getMany 0 k w)

/-- Write a word of `w` bytes at a place of a cacheable region. -/
def State.putWord (s : State) (k w v : Nat) : State := s.writeAt true ((dramRun k w).zip (leBytes w v))

/-- Number of a context among all (R298, R338). -/
def ctxNo (p : Fin 4) (x : Fin 16) : Nat := 16 * p.val + x.val

/-- A reserved field of a semaphore word is not 0 (R298). -/
def semBad (v : Nat) : Bool := bits v 7 2 ≠ 0 || bits v 31 14 ≠ 0
/-- The word after a take by a context (R299). -/
def semTaken (v owner : Nat) : Nat := 1 + 256 * owner + 4294967296 * ((v / 4294967296 + 1) % 4294967296)
/-- The word after a give that no waiter meets (R300). -/
def semFreed (v : Nat) : Nat := v - v % 2
/-- The word after a release with the BROKEN mark (R301). -/
def semBroken (v : Nat) : Nat := v - v % 4 + 2

/-! ### Registrations (R297, R299) -/

/-- Drop a registration. -/
def State.unregister (s : State) (w : WaitReg) : State := { s with waits := s.waits.filter (fun v => v ≠ w) }

/-- What a wait was for has come: its instance may complete, or its packet's step is done. That is progress, so the
watchdog may report again (R307). -/
def State.release (s : State) (w : WaitReg) : State :=
  let s := s.updPart w.part (fun q => { q with wdArmed := true, wdCount := 0 })
  match w.agent with
  | .inst c n => s.updInst c n (fun i => { i with st := .ready })
  | .packet q i => s.updPkts (fun k => k.q = q.val && k.i = i && k.lane = w.lane && k.laneIdx = w.laneIdx)
      (fun k => { k with effect := true })

/-- The halt reason of a `SEMTAKE` that meets a word, and whether both causes hold: a reserved field that is not 0 (R298) before
the BROKEN mark (R301), by the lower code (R69). -/
def semFault (v : Nat) : Option (Nat × Bool) :=
  if semBad v then some (0x14, bit v 1) else if bit v 1 then some (0x41, false) else none

/-- Halt the core of a registered `SEMTAKE`. -/
def State.haltWait (s : State) (w : WaitReg) (r : Nat × Bool) : State :=
  match w.agent with
  | .inst c n => match (s.core c).inst n with
    | some i => s.haltOpWith c i.eng i.op i.n r.1 w.addr.toNat r.2
    | none => s
  | .packet _ _ => s

/-- A context takes a semaphore (R299, R351): one more held, one `SEMTAKE` fewer outstanding. -/
def State.takeSem (s : State) (p : Fin 4) (x : Fin 16) (k : Nat) (a : Addr) : State :=
  (s.putWord k 8 (semTaken (s.wordAt k 8) (ctxNo p x))).updCtx p x (fun c => { c with
    held := c.held ++ [(k, a)], takes := c.takes - 1 })

/-- The registered operation of a core discards its cluster's copy of the group that it writes (R277). -/
def State.dropOf (s : State) (w : WaitReg) : State :=
  match w.agent with
  | .inst c _ => s.updCluster c.cluster (fun y => y.dropGroups [w.place / 64])
  | .packet _ _ => s

/-- A semaphore is granted to a waiter at its home slice (R190, R299, R300). -/
def State.grantSem (s : State) (w : WaitReg) : State :=
  (((((s.unregister w).dropOf w).lineAccess true true (w.place / 128)).takeSem w.part w.ctx w.place w.addr).countAtomic w.place).release w

/-- Test one registration against its word's present value (R295, R297, R299, R301); a read-until that ends is performed (R190). A
context whose switch is deferred takes no semaphore (R352). -/
def State.retestOne (s : State) (w : WaitReg) : State :=
  if !s.waits.contains w then s
  else match w.what with
    | .flag t => if t.toNat ≤ s.wordAt w.place 8 then ((s.unregister w).countAtomic w.place).release w else s
    | .sem =>
      let v := s.wordAt w.place 8
      match semFault v with
      | some r => (s.unregister w).haltWait w r
      | none => if bit v 0 || (s.ctx w.part w.ctx).deferred then s else s.grantSem w

/-- Test every registration once, oldest first. -/
def State.retestAll (s : State) : State := s.waits.foldl State.retestOne s

/-- Test every registration after an update of memory, and again after the takes that the tests have made: a take leaves its word
taken, so that it meets flag waits alone (R297). -/
def State.retest (s : State) : State := s.retestAll.retestAll

/-- A flag add performed at its home (R192, R294). -/
def State.addFlag (s : State) (k amount : Nat) : State :=
  let s := s.lineAccess true true (k / 128)
  ((s.putWord k 8 ((s.wordAt k 8 + amount) % 2 ^ 64)).countAtomic k).retest

/-- A flag or semaphore operation of a core discards its cluster's copy of the word's group (R277). -/
def State.dropWord (s : State) (c : CoreId) (k : Nat) : State := s.updCluster c.cluster (fun y => y.dropGroups [k / 64])

/-- Break the semaphores that a context holds (R301, R352). -/
def State.breakSems (s : State) (p : Fin 4) (x : Fin 16) : State :=
  let held := (s.ctx p x).held
  let s := s.updCtx p x (fun c => { c with held := [] })
  let s := held.foldl (fun s h =>
    let s := (s.lineAccess true true (h.1 / 128)).putWord h.1 8 (semBroken (s.wordAt h.1 8))
    s.raise (((mkEvent 0x13 1 0).atPart p).withReason x.val |>.withAddr h.2.toNat)) s
  s.retest

end Sys2Proof.Machine
end

