-- ==== Sys2Proof/Machine/Sched.lean ====
section
/-! DEFINITION. The scheduler of a partition (R339 to R342, R352), and the fault classes CONTAINED-C and CONTAINED-X on
packets and contexts (R360, R414). -/

namespace Sys2Proof.Machine

/-- The work queues of a context with their numbers. -/
def State.queuesOf (s : State) (p : Fin 4) (x : Fin 16) : List (Nat × WorkQ) :=
  (s.wqs.filterMap (fun e => e.2.map (fun w => (e.1, w)))).filter (fun e => e.2.part = p && e.2.ctx = x)

/-- A context has queued or started packets, a queued page-serve request included (R334, R341). -/
def State.hasWork (s : State) (p : Fin 4) (x : Fin 16) : Bool :=
  (s.queuesOf p x).any (fun e => decide (e.2.head ≠ e.2.tail)) || (s.part p).serveQ.any (fun r => r.2.1 = x.val)

/-- A context is out of scheduling: `SUSPEND`, or its partition has been stopped (R340; the stop sets no `SUSPEND` bit,
DEDUCED, log 17). -/
def Part.suspended (q : Part) (x : Fin 16) : Bool := (q.ctx x).suspend || q.st ≠ .running

/-- Raise `PREEMPT_DONE` (R341). -/
def State.preemptDone (s : State) (p : Fin 4) (x : Fin 16) : State :=
  s.raise (((mkEvent 0x12 0 0).atPart p).withReason x.val)

/-- Another context of the partition is READY. -/
def Part.otherReady (q : Part) (x : Fin 16) : Bool :=
  (List.finRange 16).any (fun y => y ≠ x && (q.ctx y).st = .ready)

/-- A switch of the running context is due: deferred while it holds a semaphore, and otherwise the cut begins (R341,
R349, R352). -/
def State.switchDue (s : State) (p : Fin 4) (x : Fin 16) : State :=
  if (s.ctx p x).held.isEmpty then
    (s.updCtx p x (fun c => { c with st := .saving, deferred := false })).updPart p (fun q => { q with cut := false, wdCount := 0 })
  else s.updCtx p x (fun c => { c with deferred := true })

/-- The next READY context, round robin after the one that last ran (R342). -/
def Part.nextReady (q : Part) : Option (Fin 16) :=
  ((List.finRange 16).map (fun j => q.lastRun + 1 + j)).find? (fun x => (q.ctx x).st = .ready)

/-- What the scheduler does by itself (R340 to R342, R352): contexts with work become READY; a READY context is chosen
when none is RESTORING, RUNNING or SAVING; a running context with nothing to do, a suspended one, and a deferred one
that holds no semaphore leave. -/
def State.schedule (s : State) (p : Fin 4) : State :=
  let s := (List.finRange 16).foldl (fun s x =>
    if (s.ctx p x).st = .waiting && !(s.part p).suspended x && s.hasWork p x then
      s.updCtx p x (fun c => { c with st := .ready })
    else s) s
  let q := s.part p
  match q.cur with
  | some x =>
    let c := q.ctx x
    if c.st = .running && ((c.deferred && c.held.isEmpty) || q.suspended x || (q.otherReady x && !s.hasWork p x)) then
      s.switchDue p x
    else s
  | none =>
    if q.st = .stopping then s.updPart p (fun q => { q with st := .stopped })
    else if q.st = .running then
      match q.nextReady with
      | some x => (s.updPart p (fun q => { q with cur := some x })).updCtx p x (fun c => { c with st := .restoring })
      | none => s
    else s

/-- A context leaves the partition without a save: it was faulted, destroyed or reset. -/
def State.leave (s : State) (p : Fin 4) (x : Fin 16) : State :=
  if (s.part p).cur = some x then s.updPart p (fun q => { q with cur := none, lastRun := x }) else s

/-- Every packet of a context that has been taken and has not completed. -/
def State.pktsOf (s : State) (p : Fin 4) (x : Fin 16) : List Pkt := s.pkts.filter (fun k => k.part = p && k.ctx = x && !k.done)

/-- A stack's bank units have no work any more, and no wave runs. -/
def Stack.dropUnits (k : Stack) : Stack :=
  let idle (x : BankUnit) : BankUnit := if x.out then x else { x.emptied with st := .idle, gate := true }
  { k with
    waves := []
    slots := []
    postponed := []
    units := (k.units.map Prod.fst).foldl (fun t n => t.set BankUnit.reset n (idle (t.get BankUnit.reset n))) k.units }

/-- Drop what a context has registered, parked, awaits and runs in bank units (R349, R360, R361). -/
def State.forget (s : State) (p : Fin 4) (x : Fin 16) : State :=
  let s := if (s.part p).cur = some x then (stacksOf p).foldl (fun s st => s.updStack st Stack.dropUnits) s else s
  let s := s.orphan (fun w => w.lane ≠ 3 && w.part = p && w.ctx = x)
  let s := { s with
    waits := s.waits.filter (fun w => !(w.part = p && w.ctx = x))
    parked := s.parked.filter (fun k => !(k.part = p && k.ctx = x) || (match k.who with | .read _ _ => true | _ => false))
    colls := s.colls.filter (fun k => !(k.part = p && k.ctx = x)) }
  let s := s.updPart p (fun q => { q with serveQ := q.serveQ.filter (fun r => r.2.1 ≠ x.val) })
  s.updCtx p x (fun c => { c with takes := 0, saved := [], mail := [], units := [], waves := [] })

/-- The record of a fault of a packet (R389, R414). -/
def workFault (p : Fin 4) (cls : BitVec 3) (reason addr detail : Nat) (wtag : Word) (evq : Nat) : Event :=
  ((((((mkEvent 0x02 2 cls).atPart p).withReason reason).withAddr addr).withDetail detail).withWork wtag evq)

/-- CONTAINED-C of a packet: a `WORK_FAULT` record, and the packet ends `FAILED` (R360, R414). A page serve run for a peer
has no work queue, and its record goes to event queue 0 (R386). -/
def State.faultPkt (s : State) (k : Pkt) (reason addr detail : Nat) : State :=
  let seq := BitVec.ofNat 32 s.evSeq.toNat
  (s.raise (workFault k.part 1 reason addr detail k.wtag (if k.lane = 4 then 0 else s.evqOf k.q))).failPkt k seq

/-- CONTAINED-X of a context (R352, R360, R414): one `WORK_FAULT` record; every started packet ends `FAILED` with its
number; held semaphores are broken; the context is FAULTED. -/
def State.faultCtx (s : State) (p : Fin 4) (x : Fin 16) (reason addr : Nat) (wtag : Word) (evq : Nat) : State :=
  if (s.ctx p x).st = .free || (s.ctx p x).st = .faulted then s
  else
    let seq := BitVec.ofNat 32 s.evSeq.toNat
    let s := s.raise (workFault p 2 reason addr 0 wtag evq)
    let s := (s.pktsOf p x).foldl (fun s k => s.failPkt k seq) s
    let s := (s.forget p x).breakSems p x
    let s := s.updCtx p x (fun c => { c with st := .faulted, deferred := false })
    (s.leave p x).schedule p

/-- A context of the device meets an UNCONTAINED fault (R340, R360): what it has started ends. -/
def State.endCtx (s : State) (p : Fin 4) (x : Fin 16) : State :=
  if (s.ctx p x).st = .free then s
  else
    let s := (s.pktsOf p x).foldl (fun s k => s.failPkt k 0) s
    (s.forget p x).updCtx p x (fun c => { c with st := .faulted, deferred := false })

/-- UNCONTAINED with a reason (R340, R360, R389, R414): the device and every partition and context become FAULTED; every packet
ends, without a reply, and no `HEAD` moves any more. -/
def State.uncontained (s : State) (reason : Nat) (where_ : Event → Event) : State :=
  let s := s.raise (where_ ((mkEvent 0x15 3 4).withReason reason))
  let s := (List.finRange 4).foldl (fun s p => (List.finRange 16).foldl (fun s x => s.endCtx p x) s) s
  let s := (List.finRange 4).foldl (fun s p => s.updPart p (fun q => { q with st := .faulted, cur := none })) s
  { s with pkts := [], hi := { s.hi with st := .faulted } }

end Sys2Proof.Machine
end

