-- ==== Sys2Proof/Machine/Link.lean ====
section
/-! DEFINITION. The sending side of a link (R315 to R322, R324, R325): messages, credits, the retry buffer, requests that
reserve room for their reply, drain markers, and the fresh start. -/

namespace Sys2Proof

/-- A field of a message header (R324). -/
def Msg.f (m : Msg) (o w : Nat) : Nat := m.hdr.toNat / 2 ^ (8 * o) % 2 ^ (8 * w)
def Msg.type (m : Msg) : Nat := m.f 0 1
def Msg.cls (m : Msg) : Nat := m.f 1 1 % 4
def Msg.coded (m : Msg) : Bool := Machine.bit (m.f 1 1) 2
def Msg.poison (m : Msg) : Bool := Machine.bit (m.f 1 1) 3
def Msg.rdatum (m : Msg) : Bool := Machine.bit (m.f 1 1) 4
def Msg.ext (m : Msg) : Bool := Machine.bit (m.f 1 1) 5
def Msg.src (m : Msg) : Nat := m.f 2 2 % 4096
def Msg.dctx (m : Msg) : Fin 16 := ⟨m.f 2 2 / 4096 % 16, by omega⟩
def Msg.tag (m : Msg) : Nat := m.f 4 2
def Msg.len (m : Msg) : Nat := m.f 6 2
def Msg.addr (m : Msg) : Nat := m.f 8 6
def Msg.op (m : Msg) : Nat := m.f 14 1
def Msg.fmt (m : Msg) : Nat := m.f 15 1
def Msg.value (m : Msg) : Nat := m.f 16 8
def Msg.rdat (m : Msg) : Nat := m.f 24 4
def Msg.mdat (m : Msg) : Nat := m.f 28 4

/-- The virtual channel of a message (R318, R325): 0 CTL, 1 RSP, 2 REQ, 3 BULK, in priority order. -/
def Msg.vc (m : Msg) : Nat :=
  match m.type with
  | 0x0A => 0
  | 0x0B => 0
  | 0x0C => 0
  | 0x02 => 1
  | 0x09 => 1
  | 0x01 => 2
  | 0x05 => 2
  | 0x06 => 2
  | 0x08 => 2
  | _ => 3

/-- Units of 32 bytes that a message takes on the wire; an `RD_REQ` carries no data (R318, R325). -/
def Msg.units (m : Msg) : Nat := if m.type = 1 then 1 else 1 + m.len

/-- Units of 32 bytes of the reply to a request (R319). -/
def Msg.replyUnits (m : Msg) : Nat := if m.type = 1 then 1 + m.len else 1

end Sys2Proof

namespace Sys2Proof.Machine

/-- The fields with which a message is built (R324). -/
structure MsgSpec where
  type : Nat
  flags : Nat
  dctx : Nat
  tag : Nat
  len : Nat
  addr : Nat
  op : Nat
  fmt : Nat
  value : Nat
  rdat : Nat
  data : List Byte
  deriving DecidableEq, Repr

/-- A message spec with every field 0. -/
def MsgSpec.zero : MsgSpec := ⟨0, 0, 0, 0, 0, 0, 0, 0, 0, 0, []⟩

/-- Build a message of this device (R9, R324, R329). -/
def State.mkMsg (s : State) (m : MsgSpec) : Msg where
  hdr := BitVec.ofNat 256 (leNat ([BitVec.ofNat 8 m.type, BitVec.ofNat 8 m.flags]
    ++ leBytes 2 (s.devId.toNat + 4096 * m.dctx) ++ leBytes 2 m.tag ++ leBytes 2 m.len ++ leBytes 6 m.addr
    ++ [BitVec.ofNat 8 m.op, BitVec.ofNat 8 m.fmt] ++ leBytes 8 m.value ++ leBytes 4 m.rdat
    ++ leBytes 4 (if m.data.isEmpty then 0 else (crc32c m.data).toNat)))
  data := m.data

/-- A message with another tag. -/
def retag (m : Msg) (t : BitVec 16) : Msg :=
  { m with hdr := (m.hdr &&& ~~~(0xFFFF#256 <<< 32)) ||| (t.zeroExtend 256 <<< 32) }

/-! ### Credits and frames -/

/-- Credit held for a virtual channel. -/
def Link.credit (k : Link) : Nat → Nat
  | 0 => k.credCtl
  | 1 => k.credRsp
  | 2 => k.credReq
  | _ => k.credBulk

/-- Take credit. -/
def Link.spend (k : Link) (vc n : Nat) : Link :=
  match vc with
  | 0 => { k with credCtl := k.credCtl - n }
  | 1 => { k with credRsp := k.credRsp - n }
  | 2 => { k with credReq := k.credReq - n }
  | _ => { k with credBulk := k.credBulk - n }

/-- Count credit to return to the peer (R318). -/
def Link.giveBack (k : Link) (vc n : Nat) : Link :=
  match vc with
  | 0 => { k with retCtl := k.retCtl + n }
  | 1 => { k with retRsp := k.retRsp + n }
  | 2 => { k with retReq := k.retReq + n }
  | _ => { k with retBulk := k.retBulk + n }

/-- Frames that a message fills, alone in them (R315; how messages share frames is a DESIGN CHOICE, log 18). -/
def Msg.frames (m : Msg) : Nat := cdiv (32 * m.units) 608

/-- The message at the front of a virtual channel, where it has credit and room in the retry buffer (R315, R318). -/
def Link.front (k : Link) (vc : Nat) : Option Msg :=
  match k.txQ.find? (fun m => m.vc = vc) with
  | some m => if m.units ≤ k.credit vc && k.retry.length + Msg.frames m ≤ 256 then some m else none
  | none => none

/-- A BULK message waits. -/
def Link.bulkWaits (k : Link) : Bool := k.txQ.any (fun m => m.vc = 3)

/-- The next message to send (R318): the oldest of the highest channel that holds credit for it, but BULK first where it has had less
than 10 % of the message bytes since it began to wait. -/
def Link.pick (k : Link) : Option Msg :=
  let due := if 10 * k.sentBulk < k.sentAll then [3] else []
  (due ++ List.range 4).findSome? k.front

/-- The header of a frame to send, and its bytes with their CRC (R315): `kind` 0 DATA, 1 IDLE; the credit that is due returns in it
where `pays` is set. -/
def Link.frame (k : Link) (kind : Nat) (seq : BitVec 12) (first : Nat) (pays : Bool) (body : List Byte) : Frame :=
  let ret (n : Nat) : List Byte := leBytes 2 (if pays then n else 0)
  let h := leBytes 2 (seq.toNat + 4096 * kind) ++ leBytes 2 ((k.rxSeq - 1).toNat + 4096 * b2n k.nak)
    ++ ret k.retReq ++ ret k.retRsp ++ ret k.retBulk ++ ret k.retCtl ++ leBytes 2 first ++ List.replicate 14 0
  ⟨BitVec.ofNat 256 (leNat (h ++ leBytes 4 (crc32c (h ++ body)).toNat)), body, false⟩

/-- A header has gone out: it has told what was received, and returned the credit that was due (R315). -/
def Link.headed (k : Link) : Link :=
  { k with
    told := (k.rxSeq - 1, k.nak)
    retReq := 0
    retRsp := 0
    retBulk := 0
    retCtl := 0 }

/-- Put a message into frames of the retry buffer; the headers acknowledge, and the first of them returns what credit is due
(R315). -/
def Link.transmit (k : Link) (m : Msg) (parityBad : Bool) : Link :=
  let bs := leBytes 32 m.hdr.toNat ++ m.data
  let fs := (List.range (Msg.frames m)).map (fun j =>
    let seq := k.txSeq + BitVec.ofNat 12 j
    (⟨seq, k.frame 0 seq (if j = 0 then 0 else 31) (j = 0) (padTo 608 ((bs.drop (608 * j)).take 608)),
      if j = 0 then [m] else [], parityBad && j = 0⟩ : TxFrame))
  let k' := { (k.spend m.vc m.units).headed with
    txQ := k.txQ.erase m
    retry := k.retry ++ fs
    txSeq := k.txSeq + BitVec.ofNat 12 (Msg.frames m) }
  if k'.bulkWaits then { k' with
    sentAll := k.sentAll + m.units
    sentBulk := k.sentBulk + (if m.vc = 3 then m.units else 0) }
  else { k' with sentAll := 0, sentBulk := 0 }

/-- With nothing to send, an ACTIVE link sends an IDLE frame where it has credit to return or something new to acknowledge (R315). It
takes no sequence number and is not kept. -/
def Link.sendIdle (k : Link) : Link :=
  let due := k.retReq ≠ 0 || k.retRsp ≠ 0 || k.retBulk ≠ 0 || k.retCtl ≠ 0 || k.told ≠ (k.rxSeq - 1, k.nak)
  if k.st = .active && k.pick.isNone && due then
    { k.headed with idle := some (k.frame 1 k.txSeq 31 true (List.replicate 608 0)) }
  else k

/-- Send what credit and the retry buffer allow (R318). -/
def State.pump (s : State) (l : Fin 48) : Nat → State
  | 0 => s
  | n + 1 =>
    let k := s.link l
    if k.st ≠ .active then s
    else match k.pick with
      | none => s
      | some m =>
        let (mask, s) := s.fire (encKey 7 0 0 0 l.val)
        (s.setLink l ((s.link l).transmit m (mask.truncate 8 ≠ 0#8))).pump l n

/-- Queue a message for a link and send what can be sent. -/
def State.sendMsg (s : State) (l : Fin 48) (m : Msg) : State :=
  let s := s.updLink l (fun k => { k with txQ := k.txQ ++ [m] })
  s.pump l (s.link l).txQ.length

/-- Send a request once room for its reply is reserved, and keep it until then (R319). -/
def State.request (s : State) (l : Fin 48) (who : Waiter) (m : Msg) : State :=
  let k := s.link l
  if k.reqWait.isEmpty && k.rspRes + 32 * m.replyUnits ≤ 131072 then
    let m := retag m k.nextTag
    let s := s.setLink l { k with
      rspRes := k.rspRes + 32 * m.replyUnits
      ops := k.ops ++ [⟨k.nextTag, who, m, false⟩]
      nextTag := k.nextTag + 1 }
    s.sendMsg l m
  else s.setLink l { k with reqWait := k.reqWait ++ [⟨0, who, m, false⟩] }

/-- Send the requests that now find room (R319). -/
def State.pumpReq (s : State) (l : Fin 48) : Nat → State
  | 0 => s
  | n + 1 =>
    let k := s.link l
    match k.reqWait with
    | [] => s
    | r :: rest =>
      if k.rspRes + 32 * r.msg.replyUnits ≤ 131072 then
        let s := (s.setLink l { k with reqWait := [] }).request l r.who r.msg
        (s.updLink l (fun k => { k with reqWait := rest })).pumpReq l n
      else s

/-- A context of the partition that owns a link may use it (R321). -/
def State.granted (s : State) (p : Fin 4) (x : Fin 16) (l : Fin 48) : Bool :=
  ownerOfLink l = p && ((s.link l).grants.get ⟨false, 0⟩ x.val).en

/-- `FAR_CTX` of a context's grant (R322). -/
def State.farCtx (s : State) (x : Fin 16) (l : Fin 48) : Nat := ((s.link l).grants.get ⟨false, 0⟩ x.val).far.toNat

/-! ### SPAN releases (R282) -/

/-- The agent whose writes a waiter's are: a core, a packet of a queue (360), or a serve for a peer (361). -/
def Waiter.writes (w : Waiter) (e : Nat × Nat) : Bool :=
  match w.agent with
  | .inst c _ => e.1 = c.key
  | .packet q _ => e = (if w.lane = 4 then 361 else 360, q.val)

/-- An agent's write has still to be acknowledged by the peer, or to be sent. -/
def Link.unacked (k : Link) (e : Nat × Nat) : Bool :=
  (k.ops ++ k.reqWait).any (fun o => [3, 4, 5, 7].contains o.msg.type && o.who.writes e)

/-- Send drain markers on the links over which a covered write has been sent and not drained. A marker drains what is complete: an
agent that still has a write out there keeps its mark for the release that covers it. -/
def State.drainLinks (s : State) (p : Fin 4) (who : Waiter) (mine : Nat × Nat → Bool) : State :=
  (linksOf p).foldl (fun s l =>
    let k := s.link l
    if k.undrained.any mine then
      let s := s.setLink l { k with
        undrained := k.undrained.filter (fun e => !mine e || k.unacked e)
        drains := k.drains ++ [who] }
      s.sendMsg l (s.mkMsg { MsgSpec.zero with type := 0x0A, dctx := s.farCtx who.ctx l })
    else s) s

/-- Note that an agent has sent a write over a link. -/
def State.markWrite (s : State) (l : Fin 48) (core q : Nat) : State :=
  s.updLink l (fun k => { k with undrained := if k.undrained.contains (core, q) then k.undrained else k.undrained ++ [(core, q)] })

/-- A waiter still awaits something on a link of its partition. -/
def State.awaiting (s : State) (p : Fin 4) (w : Waiter) : Bool :=
  (linksOf p).any (fun l =>
    let k := s.link l
    k.ops.any (fun o => o.who = w) || k.reqWait.any (fun o => o.who = w) || k.drains.contains w)

/-- A waiter awaits a drain marker. -/
def State.draining (s : State) (p : Fin 4) (w : Waiter) : Bool := (linksOf p).any (fun l => (s.link l).drains.contains w)

/-! ### Fresh start (R317) -/

/-- The `LINK_DOWN` record (R311, R316, R317). -/
def State.linkDown (s : State) (l : Fin 48) (reason : Nat) : State :=
  s.raise (((mkEvent 0x09 1 0).atLink l.val).withReason reason)

/-- A link starts afresh or is disabled (R317): unacknowledged frames and credits go; contexts that await something on it
take CONTAINED-X; `LINK_DOWN`, but for reason 0, a first contact, for which R317 names no reason (DEDUCED, log 36). -/
def State.freshStart (s : State) (l : Fin 48) (reason : Nat) : State :=
  let k := s.link l
  let who := ((k.ops.map (fun o => o.who)) ++ (k.reqWait.map (fun o => o.who)) ++ k.drains)
  let s := s.setLink l { k with
    txSeq := 0
    retry := []
    txQ := []
    credReq := 512
    credRsp := 4096
    credBulk := 4096
    credCtl := 128
    sentAll := 0
    sentBulk := 0
    rxSeq := 0
    nak := false
    told := (0xFFF, false)
    retReq := 0
    retRsp := 0
    retBulk := 0
    retCtl := 0
    rspRes := 0
    ops := []
    reqWait := []
    drains := []
    chunk := []
    undrained := []
    rxPart := [] }
  let s := if reason = 0 then s else s.linkDown l reason
  (((who.filter (fun w => w.lane ≠ 3)).map (fun w => (w.part, w.ctx))).dedup).foldl (fun s c => s.faultCtx c.1 c.2 5 0 0 0) s

end Sys2Proof.Machine
end

