-- ==== Sys2Proof/Machine/Special.lean ====
section
/-! DEFINITION. The special functions of R125. Which value within its bound a function returns is not published: it is
`Config.special`, kept when it meets the bound and replaced by a value that does when it does not, so that every result
of the model meets R125 and nothing more is known of it. The bound is tested on enclosures of the exact result that are
at most 2^−60 wide, so a value that meets the bound is never refused. -/

namespace Sys2Proof.Machine

/-- Fixed-point precision of the enclosures. -/
def fixP : Nat := 100

/-- Roots `2^(2^−i)` for i = 1 to 60 from below and above, as counts of `2^−100`. -/
def rootsFrom : Nat → Nat → Nat → List (Nat × Nat)
  | 0, _, _ => []
  | n + 1, lo, hi =>
    let lo' := Nat.sqrt (lo * 2 ^ fixP)
    let hi' := Nat.sqrt (hi * 2 ^ fixP) + 1
    (lo', hi') :: rootsFrom n lo' hi'

/-- Multiply the roots whose bit is set in the fraction, from below and above. -/
def rootsProd (frac : Nat) : Nat → List (Nat × Nat) → Nat × Nat → Nat × Nat
  | _, [], acc => acc
  | i, (lo, hi) :: rs, (al, ah) =>
    let acc := if bit frac (fixP - 1 - i) then (al * lo / 2 ^ fixP, ah * hi / 2 ^ fixP + 1) else (al, ah)
    rootsProd frac (i + 1) rs acc

/-- An enclosure of `2^(m × 2^e)`: mantissas from below and above and their common exponent. -/
def exp2Enc (m : Int) (e : Int) : Nat × Nat × Int :=
  let x : Int := if 0 ≤ e + fixP then m * 2 ^ (e + fixP).toNat else m / 2 ^ (-(e + fixP)).toNat
  let i := x / 2 ^ fixP
  let f := (x - i * 2 ^ fixP).toNat
  let (lo, hi) := rootsProd f 0 (rootsFrom 60 (2 * 2 ^ fixP) (2 * 2 ^ fixP)) (2 ^ fixP, 2 ^ fixP)
  (lo, hi + hi / 2 ^ 59 + 1, i - fixP)

/-- Compare magnitudes `a × 2^e ≤ b × 2^f`. -/
def magLe (a : Nat) (e : Int) (b : Nat) (f : Int) : Bool :=
  let g := min e f
  decide (a * 2 ^ (e - g).toNat ≤ b * 2 ^ (f - g).toNat)

/-- ⌊log2 e × 2^100⌋. -/
def log2eFix : Nat := 1828833234529184422442202814989

/-- Whether the magnitude of function `fn` at the finite input `m × 2^e` (with `neg` its sign, `m` not 0) may be at least
(`up` true) or at most (`up` false) `q × 2^f`. -/
def specMay (fn : Nat) (neg : Bool) (m : Nat) (e : Int) (up : Bool) (q : Nat) (f : Int) : Bool :=
  match fn with
  | 0 =>
    let (lo, hi, g) := exp2Enc (if neg then -(m : Int) else m) e
    if up then magLe q f hi g else magLe lo g q f
  | 1 =>
    let (lo, hi, g) := exp2Enc q f
    if magLe (2 ^ 0) 0 m e then (if up then magLe lo g m e else magLe m e hi g)
    else (if up then magLe (lo * m) (g + e) 1 0 else magLe 1 0 (hi * m) (g + e))
  | 2 => if up then magLe (q * m) (f + e) 1 0 else magLe 1 0 (q * m) (f + e)
  | 3 => if up then magLe (q * q * m) (2 * f + e) 1 0 else magLe 1 0 (q * q * m) (2 * f + e)
  | _ =>
    if e + topBit m < -13 then
      (if up then magLe q f m e
       else magLe (3 * m * 2 ^ 64 - (m * m * m * 2 ^ 64) / 2 ^ (-(2 * e)).toNat) e (3 * q * 2 ^ 64) f)
    else
      let (lo, _, g) := exp2Enc ((2 * m * log2eFix : Nat) : Int) (e - fixP)
      let (_, hi, g') := exp2Enc ((2 * m * (log2eFix + 1) : Nat) : Int) (e - fixP)
      -- tanh = (E − 1) / (E + 1), rising in E
      let lo1 := (lo : Int) * 2 ^ (max 0 g).toNat
      let one (h : Int) : Nat := 2 ^ (max 0 (-h)).toNat
      let eH : Nat := hi * 2 ^ (max 0 g').toNat
      if up then magLe (q * (eH + one g')) f (eH - one g') 0
      else magLe (lo1.toNat - one g) 0 (q * (lo1.toNat + one g)) f

/-- Largest error in ulp (R125). -/
def specUlp (fn : Nat) : Nat := if fn = 2 || fn = 3 then 1 else 2

/-- Whether the finite magnitude pattern `b` lies within the bound of R125. -/
def specOk (fn : Nat) (neg : Bool) (m : Nat) (e : Int) (b : Nat) : Bool :=
  match fp32.decode b with
  | .fin false n f =>
    let u := specUlp fn
    specMay fn neg m e true (n - u) f && specMay fn neg m e false (n + u) f
  | _ => false

/-- The largest finite magnitude pattern whose value the function's magnitude may reach: within one ulp of it. -/
def specFloor (fn : Nat) (neg : Bool) (m : Nat) (e : Int) : Nat → Nat → Nat
  | 0, b => b
  | i + 1, b =>
    let b' := b + 2 ^ i
    if b' < 0x7F800000 && (match fp32.decode b' with
      | .fin _ n f => specMay fn neg m e true n f
      | _ => false) then specFloor fn neg m e i b' else specFloor fn neg m e i b

/-- The magnitude pattern a function returns at a finite nonzero input (R125). -/
def specMag (fn : Nat) (x : Word) (neg : Bool) (m : Nat) (e : Int) : Nat :=
  let raw := (Config.special fn x).toNat % 2 ^ 31
  if specOk fn neg m e raw then raw else specFloor fn neg m e 31 0

/-- A sign on a magnitude pattern. -/
def signed32 (neg : Bool) (b : Nat) : Word := BitVec.ofNat 32 (fp32.withSign neg b)

/-- `VEXP2` (R125). -/
def vExp2 (x : Word) : Word :=
  match val32 x with
  | .nan => 0x7FC00000
  | .inf neg => if neg then 0 else 0x7F800000
  | .fin neg m e =>
    if m = 0 then 0x3F800000
    else if neg && magLe 149 0 m e && decide (¬ (m * 2 ^ (max 0 e).toNat = 149 * 2 ^ (max 0 (-e)).toNat)) then 0
    else if !neg && magLe 128 0 m e then 0x7F800000
    else signed32 false (specMag 0 x neg m e)

/-- `VLOG2` (R125). -/
def vLog2 (x : Word) : Word :=
  match val32 x with
  | .nan => 0x7FC00000
  | .inf neg => if neg then 0x7FC00000 else 0x7F800000
  | .fin neg m e =>
    if m = 0 then 0xFF800000
    else if neg then 0x7FC00000
    else if x = 0x3F800000#32 then
      (if (Config.special 1 x).toNat % 2 ^ 31 ≤ 2 then Config.special 1 x else 0)
    else signed32 (decide (e + topBit m < 0)) (specMag 1 x false m e)

/-- `VRCP` (R125). -/
def vRcp (x : Word) : Word :=
  match val32 x with
  | .nan => 0x7FC00000
  | .inf neg => signed32 neg 0
  | .fin neg m e =>
    if m = 0 then signed32 neg 0x7F800000
    else if !(magLe 1 0 (m * (2 ^ 24 - 1)) (e + 104)) then signed32 neg 0x7F800000
    else signed32 neg (specMag 2 x false m e)

/-- `VRSQRT` (R125). -/
def vRsqrt (x : Word) : Word :=
  match val32 x with
  | .nan => 0x7FC00000
  | .inf neg => if neg then 0x7FC00000 else 0
  | .fin neg m e =>
    if m = 0 then signed32 neg 0x7F800000
    else if neg then 0x7FC00000
    else signed32 false (specMag 3 x false m e)

/-- `VTANH` (R125). -/
def vTanh (x : Word) : Word :=
  match val32 x with
  | .nan => 0x7FC00000
  | .inf neg => signed32 neg 0x3F800000
  | .fin neg m e =>
    if m = 0 then signed32 neg 0
    else signed32 neg (min 0x3F800000 (specMag 4 x false m e))

end Sys2Proof.Machine
end

