-- ==== Sys2Proof/Machine/Tile.lean ====
section
/-! DEFINITION. What the ME and the VE compute (R98 to R104, R119 to R130), over byte strings: a matrix tile, the conversion
of a tile, and the vector operations. -/

namespace Sys2Proof.Machine

/-- Every element of `w` bits in packed bytes (R116). -/
def unpackAll (w : Nat) (l : List Byte) : List Nat :=
  let u := if w = 6 then 3 else if w = 16 then 2 else if w = 32 then 4 else 1
  let c := if w = 4 then 2 else if w = 6 then 4 else 1
  (chunks u l.length l).flatMap (fun g => (List.range c).map (fun j => leNat g / 2 ^ (w * j) % 2 ^ w))

/-! ### Matrix tiles -/

/-- Bytes of a raw `MMA` operand of depth `k`: elements, then scales (R99). -/
def operandBytes (fmt k : Nat) : Nat := 128 * k * rawWidth fmt / 8 + (if isMx fmt then 4 * k else 0)

/-- One `MMA` operand ready for the array: element values in TILE order and the scale of each group and lane. -/
structure TileOp where
  elems : Array Val
  scales : Array (Option Int)

/-- Read an operand from element patterns and scale bytes. -/
def TileOp.mk' (fmt : Nat) (elems : List Nat) (scales : List Byte) : TileOp where
  elems := (elems.map (elemVal fmt)).toArray
  scales := (scales.map (fun b => e8m0 b.toNat)).toArray

/-- The scale of a group and a lane (R119); a plain operand counts as 1. -/
def TileOp.scale (t : TileOp) (mx : Bool) (g lane : Nat) : Option Int :=
  if mx then t.scales.getD (128 * g + lane) none else some 0

/-- Groups `g0` to `g1 - 1` of K for output element (`i`, `j`) (R120). -/
def mmaGroups (mxA mxB : Bool) (a b : TileOp) (i j g0 g1 : Nat) : List Word :=
  ((List.range (g1 - g0)).map (· + g0)).map (fun g =>
    groupSum (scalePair (a.scale mxA g i) (b.scale mxB g j))
      ((List.range 32).map (fun t =>
        mulVal (a.elems.getD ((32 * g + t) * 128 + i) .nan) (b.elems.getD ((32 * g + t) * 128 + j) .nan))))

/-- The tile after groups `g0` to `g1 - 1`: added to the old tile where `accum` is set (R98, R114, R120). Accumulator (i, j) lies
4 * (128 * i + j) bytes into the tile: R98 gives a tile its 65,536 bytes and R101 reads it out as 128 rows of 128, but no rule
places an accumulator (DEDUCED, log 86). -/
def mmaTile (fa fb : Nat) (a b : TileOp) (g0 g1 : Nat) (accum : Bool) (old : List Byte) : List Byte :=
  let o := (unpackAll 32 old).toArray
  (List.range 16384).flatMap (fun n =>
    let init := if accum then some (BitVec.ofNat 32 (o.getD n 0)) else none
    leBytes 4 (mmaElem init (mmaGroups (isMx fa) (isMx fb) a b (n / 128) (n % 128) g0 g1)).toNat)

/-- The output of `MDRAIN` (R101): each element, times the multiplier exactly where there is one, rounded once. R101 does not say
whether the product is first rounded to FP32: the model keeps it exact (DESIGN CHOICE, log 87). -/
def drainTile (fmt : Nat) (stoch satOff : Bool) (ctr : Nat) (mult : Option Word) (tile : List Byte) : List Byte :=
  let vs := (unpackAll 32 tile).map (elemVal 0)
  let vs := match mult with
    | some m => vs.map (fun v => mulVal v (val32 m))
    | none => vs
  narrowList fmt (stoch && fmt ≠ 0) satOff ctr vs

/-! ### Vector operations -/

/-- Bytes of `n` elements of a format, block scales included (R104, R153). -/
def vecBytes (fmt n : Nat) : Nat := cdiv (n * elemWidth fmt) 8 + (if isMx fmt then n / 32 else 0)

/-- The group operations with one output for each group. -/
def vecReduces (op : Nat) : Bool := op = 0x98 || op = 0x99
/-- The group operations whose second source has one element for each group. -/
def vecGroups (op : Nat) : Bool := op = 0x9A || op = 0x9B

/-- The result of an element-wise operation (R104), exact where R123 rounds once. -/
def vecElem (op : Nat) (x : Word) (d a b : Val) : Val :=
  match op with
  | 0x80 => addVal a b
  | 0x81 => addVal a (negVal b)
  | 0x82 => mulVal a b
  | 0x83 => addVal d (mulVal a b)
  | 0x84 => maxVal a b
  | 0x85 => minVal a b
  | 0x86 => addVal a (val32 x)
  | 0x87 => mulVal a (val32 x)
  | 0x8B => .fin false 0 0
  | 0x90 => val32 (vExp2 (to32 a))
  | 0x91 => val32 (vLog2 (to32 a))
  | 0x92 => val32 (vRcp (to32 a))
  | 0x93 => val32 (vRsqrt (to32 a))
  | 0x94 => val32 (vTanh (to32 a))
  | 0x9A => addVal a (negVal b)
  | 0x9B => mulVal a b
  | _ => a

/-- The result of a group reduction (R104): the maximum, or the FP32 sum in ascending order. -/
def vecReduce (op : Nat) (g : List Val) : Val :=
  match g with
  | [] => .fin false 0 0
  | v :: vs =>
    if op = 0x98 then vs.foldl maxVal v
    else vs.foldl (fun a b => val32 (to32 (addVal a b))) v

/-- The output values of a VEC operation over the elements given: `d` and `a` one for each element, `b` one for each
element or for each group. -/
def vecValues (op g : Nat) (x : Word) (d a b : List Val) : List Val :=
  if vecReduces op then (chunks g a.length a).map (vecReduce op)
  else
    let ba := b.toArray
    let da := d.toArray
    (a.zipIdx).map (fun e =>
      vecElem op x (da.getD e.2 .nan) e.1 (ba.getD (if vecGroups op then e.2 / g else e.2) .nan))

/-- The output bytes of a VEC operation in its output format; a copy within one format keeps every pattern (R128). -/
def vecOut (op fin fout g : Nat) (x : Word) (stoch satOff : Bool) (ctr n : Nat) (d a b : List Byte) (fd fb : Nat) : List Byte :=
  if op = 0x8A && fin = fout then a
  else
    let vals (f : Nat) (l : List Byte) : List Val := (unpackAll (elemWidth f) l).map (elemVal f)
    let av := if op = 0x8B then List.replicate n (.fin false 0 0) else (vals fin a).take n
    narrowList fout (stoch && fout ≠ 0) satOff ctr (vecValues op g x (vals fd d) av (vals fb b))

end Sys2Proof.Machine
end

