-- ==== Sys2Proof/Machine/Moves.lean ====
section
/-! DEFINITION. What the cluster DMA engine shares among its operations (R82 to R93): the operands' checks against regions,
reads of device memory through the stream cache, writes with what they must discard, and the messages of remote moves. -/

namespace Sys2Proof.Machine

/-! ### Byte tables -/

/-- Group the entries of a table into runs of consecutive keys. -/
def runsOf : Tbl Byte → List (Nat × List Byte)
  | [] => []
  | (k, v) :: t => match runsOf t with
    | (k', vs) :: rest => if k' = k + 1 then (k, v :: vs) :: rest else (k, [v]) :: (k', vs) :: rest
    | [] => [(k, [v])]

/-- Look a byte up in a list of addresses and bytes. -/
def byteOf (l : List (Nat × Byte)) (a : Nat) : Byte := ((l.find? (fun e => e.1 = a)).map Prod.snd).getD 0

/-- Write a table of bytes into a core's SP. -/
def State.spWriteTbl (s : State) (c : CoreId) (t : Tbl Byte) : State :=
  (runsOf t).foldl (fun s r => s.spWrite c r.1 r.2) s

/-! ### Coded blocks (R132, R156) -/

/-- The length of the coded chunk that begins at `off` of a byte function, from its `LEN64`: never less than the header
that gives it (DEDUCED, log 19). -/
def chunkLenAt (f : Nat → Byte) (off : Nat) : Nat := 64 * max 1 (leNat [f (off + 16), f (off + 17)])

/-- Bytes of `n` coded chunks that lie at `off` on of a byte function, each length read from its header. -/
def codedBytes (f : Nat → Byte) : Nat → Nat → Nat
  | 0, _ => 0
  | n + 1, off => chunkLenAt f off + codedBytes f n (off + chunkLenAt f off)

/-- Bytes that must be at hand before the length of `n` chunks is known, given the bytes at hand so far. -/
def codedNeed (f : Nat → Byte) (have' : Nat) : Nat → Nat → Nat
  | 0, off => off
  | n + 1, off =>
    if off + 64 ≤ have' then codedNeed f have' n (off + chunkLenAt f off) else off + 64

/-! ### Access checks (R81, R86, R88, R92, R95, R175, R182) -/

/-- Why an operand stops an instance: reason code and address. -/
abbrev Bad := Nat × Nat

/-- Translate addresses and test every region they lie in: `TRANSLATION` before `PROTECTION`. -/
def State.access (s : State) (p : Fin 4) (x : Fin 16) (as : List Nat) (ok : Region → Bool) : Except Bad (List Xlat) :=
  match s.firstUnmapped p x as with
  | some a => .error (0x13, a)
  | none =>
    match s.translateAll p x as with
    | none => .error (0x13, 0)
    | some ts =>
      match (as.zip ts).find? (fun e => !ok e.2.region) with
      | some e => .error (0x14, e.1)
      | none => .ok ts

/-- A region may hold flags, semaphores and the targets of reductions (R92, R95, R174). -/
def Region.homed (r : Region) : Bool := r.cacheable && (r.kind = .part || r.kind = .dev)
/-- A plain write of a context may reach a region (R86, R88, R182). -/
def Region.writable (datum : Bool) (r : Region) : Bool := !r.sharedRO && r.datum = datum
/-- An operation at the home may change a word of a region (R86, R92, R95, R182). -/
def Region.atomicOk (r : Region) : Bool := r.homed && !r.sharedRO && !r.datum

/-- The addresses `a` to `a + n - 1`. -/
def addrRun (a n : Nat) : List Nat := (List.range n).map (a + ·)

/-- The addresses of a list form one run of whole 4 KiB blocks (R85). -/
def wholeBlocks (as : List Nat) : Bool :=
  match lowest as with
  | none => false
  | some a => a % 4096 = 0 && as.length % 4096 = 0 && as.all (fun b => b < a + as.length)

/-- An SP operand of R81. -/
def spOk (a n : Nat) : Bool := a % 64 = 0 && decide (a + n ≤ 2097152)
/-- An ACC operand of R81. -/
def accOk (align a n : Nat) : Bool := a % align = 0 && decide (a + n ≤ 262144)

/-- The peer that a `PEER` register names, and the link (R83). No rule compares the device ID of bits [11:0] with the device at
the other end of the link: the model does not (DESIGN CHOICE, log 84). -/
def peerLink (v : Word) : Option (Fin 48) :=
  let l := bits v.toNat 17 12
  if h : l < 48 then (if bits v.toNat 31 18 = 0 then some ⟨l, h⟩ else none) else none

/-! ### Poison and parks (R399) -/

/-- Number of the 4 KiB block that a place lies in. -/
def State.blockNo (s : State) : Place → Nat
  | .dram k => s.bar2Of k / 4096
  | .host a => 2 ^ 40 + a / 4096

/-- Park an operation on the block of a place (R399): one `WEIGHT_POISON` record for each block since it was last
written. -/
def State.park (s : State) (p : Fin 4) (x : Fin 16) (who : Parker) (pl : Place) (a : Nat) (wtag : Word) (evq : Nat) :
    State :=
  let b := s.blockNo pl
  let s := { s with parked := s.parked ++ [⟨p, x, who, b, BitVec.ofNat 48 a, wtag, evq⟩] }
  if s.weightSeen.get false b then s
  else
    let s := { s with weightSeen := s.weightSeen.set false b true }
    let ev := (((mkEvent 0x07 2 0).atPart p).withReason (s.part p).repairMs.toNat).withAddr (a - a % 4096)
    s.raise (match pl with | .dram k => ev.atStack (keyStack k) | .host _ => ev)

/-- Poison among translated addresses, found by reading them: the address, its place and whether its region is
SHARED_RO. -/
def State.poisonIn (s : State) (as : List Nat) (ts : List Xlat) : State × Option (Nat × Place × Bool) :=
  let s := s.touch (groupsOf (placesOf ts))
  (s, ((as.zip ts).find? (fun e => match e.2.place with
    | .dram k => s.groupPoisoned (k / 64)
    | .host a => s.hostErr.get false (a / 64))).map (fun e => (e.1, e.2.place, e.2.region.sharedRO)))

/-! ### Reads of device memory -/

/-- A place whose group the stream cache may hold: the stack memory of a cacheable PART or DEV region (R277). -/
def streamKey (t : Xlat) : Option Nat :=
  match t.place with
  | .dram k => if t.region.homed then some (k / 64) else none
  | .host _ => none

/-- One byte as a `LOAD` reads it: a stream-cache copy where one is held and has not been evicted, else memory (R277). -/
def State.streamByte (s : State) (cl : ClusterId) (t : Xlat) : Byte :=
  match streamKey t, t.place with
  | some g, .dram k => match (s.cluster cl).stream.get none g with
    | some y => if Config.evicted s.freeCtr g then s.byteAt t.place else y.bytes.getD (k % 64) 0
    | none => s.byteAt t.place
  | _, _ => s.byteAt t.place

/-- Keep copies of the groups that a `LOAD` has read (R277). -/
def State.streamFill (s : State) (cl : ClusterId) (ts : List Xlat) : State :=
  let gs := (ts.filterMap (fun t => (streamKey t).map (fun g => (g, t.region.sharedRO)))).dedup
  let s' := gs.foldl (fun (s : State) g =>
    let old := if Config.evicted s.freeCtr g.1 then none else (s.cluster cl).stream.get none g.1
    let y := old.getD ⟨s.mem.getMany 0 (64 * g.1) 64, g.2⟩
    -- a full cache of 2 MiB drops another copy for a new one
    let others := (s.cluster cl).stream.filter (fun (e : Nat × Option Copy) => decide (e.1 ≠ g.1))
    let gone := if others.length < 32768 then none else (others[Config.pick s.freeCtr % others.length]?).map Prod.fst
    s.updCluster cl (fun c => { c with
      stream := Tbl.set none (match gone with | some o => c.stream.filter (fun (e : Nat × Option Copy) => decide (e.1 ≠ o)) | none => c.stream)
        g.1 (some y) })) s
  s'.draw 1

/-- An access of partition `p` to device memory waits: for the PLL of a partition that it crosses or that is its home (R21, R26 to
R28), for a bank that a step holds (R231), or for lines that the host holds, which are back-invalidated (R368). -/
def State.heldAt (s : State) (p : Fin 4) (write : Bool) (ps : List Place) : Option State :=
  match s.bridgeWaits p ps with
  | some s => some s
  | none =>
    if s.banksWait ps then some s
    else match s.hostBlocks write ps with
      | [] => none
      | ls => some (s.backInvalidate ls)

/-- The same for an access by its translated addresses. -/
def State.heldUp (s : State) (p : Fin 4) (write : Bool) (ts : List Xlat) : Option State := s.heldAt p write (placesOf ts)

/-! ### Writes of device memory -/

/-- What every write of the device's agents to translated addresses does: memory, cache lines, traffic, the copies of the
writing cluster, and the tests of waiting flags (R183, R186, R277, R297). -/
def State.devWrite (s : State) (cl : Option ClusterId) (ts : List Xlat) (bs : List Byte) : State :=
  let cached := ts.any (fun t => t.region.cacheable)
  let s := (s.accessLines true true ts).countTraffic true false ts
  let s := s.writeAt cached ((placesOf ts).zip bs)
  let s := match cl with
    | some c => s.updCluster c (fun k => k.dropGroups (groupsOf (placesOf ts)))
    | none => s
  s.retest

/-- Write the Datums of whole 4 KiB blocks that begin at device addresses of a list (R85, R181). -/
def State.setDatums (s : State) (p : Fin 4) (x : Fin 16) (as : List (Nat × Nat)) : State :=
  as.foldl (fun s a => match s.regionAt p x a.1 with
    | some (_, r) => s.writePart r.dpart.val (r.darray.toNat + 4 * ((a.1 - r.dbase.toNat) / 4096)) (leBytes 4 a.2)
    | none => s) s

/-- The stored Datum of the block at a device address (R181). -/
def State.datumAt (s : State) (p : Fin 4) (x : Fin 16) (a : Nat) : Nat :=
  match s.regionAt p x a with
  | some (_, r) => leNat (s.readPart r.dpart.val (r.darray.toNat + 4 * ((a - r.dbase.toNat) / 4096)) 4)
  | none => 0

/-- The Datums of the 4 KiB blocks of a run of bytes at a device address. -/
def datumsOf (a : Nat) (bs : List Byte) : List (Nat × Nat) :=
  ((chunks 4096 bs.length bs).zipIdx).map (fun e => (a + 4096 * e.2, (crc32c e.1).toNat))

/-! ### Remote moves (R325, R327) -/

/-- Cut addresses into runs of 32-byte units, each within one 4 KiB block (R327): address and units. -/
def unitRuns (as : List Nat) : List (Nat × Nat) :=
  let us := ((as.map (· / 32)).dedup).foldl (fun (t : Tbl Byte) u => Tbl.ins u 0 t) []
  ((runsOf us).flatMap (fun r =>
    let rec cut : Nat → Nat → Nat → List (Nat × Nat)
      | 0, _, _ => []
      | f + 1, u, n =>
        if n = 0 then []
        else
          let k := min n (128 - u % 128)
          (32 * u, k) :: cut f (u + k) (n - k)
    cut (r.2.length + 1) r.1 r.2.length))

/-- A remote write's runs start on multiples of 32 bytes and are whole multiples of 32 bytes long (R327). -/
def runsWhole (t : Tbl Byte) : Bool := (runsOf t).all (fun r => r.1 % 32 = 0 && r.2.length % 32 = 0)

/-- Messages of a table of bytes, each within one 4 KiB block of the receiver: address and data. -/
def blockRuns (t : Tbl Byte) : List (Nat × List Byte) :=
  (unitRuns (t.map Prod.fst)).map (fun r => (r.1, t.getMany 0 r.1 (32 * r.2)))

/-- The waiter that an instance is. -/
def State.instWaiter (s : State) (c : CoreId) (id : Nat) : Waiter :=
  ⟨.inst c id, c.p, (match (s.core c).share with | some sh => sh.ctx | none => 0), 0, 0⟩

end Sys2Proof.Machine
end

