-- ==== Sys2Proof/Machine/MacroStart.lean ====
section
/-! DEFINITION. The start of a macro-operation's instance (R64, R81 to R105, R285): its geometry, the checks on its
operands, and what leaves the device at the start. -/

namespace Sys2Proof.Machine

/-! ### Geometry -/

/-- A scalar that the slot read at issue (R78). -/
def MacroOp.x (m : MacroOp) (k : Nat) : Nat := (m.xs.getD k 0).toNat
/-- The descriptor copy (R80). -/
def MacroOp.d (m : MacroOp) : Desc := Desc.ofBytes (m.desc.take 64)
/-- The opcode of a queued operation. -/
def MacroOp.op (m : MacroOp) : Nat := mop m.word

/-- A block move over a link (R83, R92). -/
def MacroOp.remote (m : MacroOp) : Bool :=
  match m.op with
  | 0x01 => mf m.word 47 47 = 1
  | 0x02 => mf m.word 47 47 = 1
  | 0x10 => mf m.word 46 46 = 1
  | 0x18 => mf m.word 41 41 = 1
  | _ => false

/-- The `PEER` register's value of a remote operation. -/
def MacroOp.peer (m : MacroOp) : Word := m.xs.getD (if m.op = 0x18 then 1 else 0) 0

/-- A `REDUCE`, or a `STORE` with `ACCUM`, which is one (R84). -/
def MacroOp.reduces (m : MacroOp) : Bool := m.op = 0x10 || (m.op = 0x02 && mf m.word 53 53 = 1)
/-- The reduction: 0 ADD, 1 MIN, 2 MAX. -/
def MacroOp.rop (m : MacroOp) : Nat := if m.op = 0x10 then mf m.word 45 44 else 0
/-- A data move verifies or computes Datums (R85). -/
def MacroOp.datum (m : MacroOp) : Bool := (m.op = 0x01 || m.op = 0x02) && mf m.word 46 46 = 1
/-- The SP side holds coded chunks (R87, R92). -/
def MacroOp.spCoded (m : MacroOp) : Bool :=
  ((m.op = 0x01 || m.op = 0x02) && mf m.word 54 54 = 1) || (m.op = 0x10 && mf m.word 55 52 = 0xA)
/-- A `STORE` that encodes (R87). -/
def MacroOp.encodes (m : MacroOp) : Bool := m.op = 0x02 && isContour m.d.fmt && mf m.word 54 54 = 0

/-- Bytes of a core's SP from an offset, as a function. -/
def Core.spAt (x : Core) (a : Nat) : Nat → Byte := fun k => x.sp.get 0 (a + k)

/-- The context of a core's share. -/
def Core.ctx (x : Core) : Fin 16 := match x.share with | some sh => sh.ctx | none => 0

/-- Bytes of device memory as a core's `LOAD` reads them, from a device address; 0 where nothing is mapped. -/
def State.devAt (s : State) (c : CoreId) (a : Nat) : Nat → Byte := fun k =>
  match s.translate c.p (s.core c).ctx (a + k) with
  | some t => s.streamByte c.cluster t
  | none => 0

/-- Bytes of SP that a block move reads or writes. The length of coded chunks that a local `LOAD` moves comes from their
headers in memory (R156), of those that a remote one moves from the bytes received. -/
def State.moveLen (s : State) (c : CoreId) (m : MacroOp) (n : Nat) (buf : Tbl Byte) : Nat :=
  let chunksN := m.d.count / chunkValues
  if m.spCoded then
    if m.op = 0x01 then
      if m.remote then codedBytes (fun k => buf.get 0 (m.addr 1 n + k)) chunksN 0
      else codedBytes (s.devAt c (m.addr 1 n)) chunksN 0
    else codedBytes ((s.core c).spAt (m.addr 0 n)) chunksN 0
  else m.d.spBytes

/-- Chunk `j` of an encoding `STORE`: its values from SP, in the value order of the tensor (R87, R131, R156). -/
def encodeChunk (m : MacroOp) (sp : Nat → Byte) (j : Nat) : List Byte :=
  contourEncode (m.d.fmt = 0xB) ((List.range chunkValues).map (fun k =>
    let b := m.d.valueSp (chunkValues * j + k) / 8
    leNat [sp b, sp (b + 1)]))

/-- Device addresses that a block move reads or writes. -/
def State.moveAddrs (s : State) (c : CoreId) (m : MacroOp) (n : Nat) (buf : Tbl Byte) : List Nat :=
  let a := m.addr 1 n
  if m.op ≠ 0x10 && m.spCoded then addrRun a (s.moveLen c m n buf)
  else if m.encodes then
    let sp := (s.core c).spAt (m.addr 0 n)
    addrRun a (((List.range (m.d.count / chunkValues)).map (fun j => (encodeChunk m sp j).length)).sum)
  else m.d.addrs a

/-! ### Checks (R81 to R105) -/

/-- A remote operation's `PEER` register and link (R83): reserved bits or values, then the grant. -/
def State.peerCheck (s : State) (c : CoreId) (m : MacroOp) : Option Bad :=
  if m.remote then
    match peerLink m.peer with
    | none => some (0x12, 0)
    | some l => if s.granted c.p (s.core c).ctx l then none else some (0x14, 0)
  else none

/-- The region kind that a layout needs (R151). -/
def Desc.kindOk (d : Desc) (r : Region) : Bool := d.layout < 2 || r.kind = .bank

/-- The region flags that a block move needs (R84 to R88, R92, R151). `DATUM` asks for a Datum-checked region (R85), which no
`ACCUM` store may write (R86). -/
def MacroOp.regionOk (m : MacroOp) (r : Region) : Bool :=
  m.d.kindOk r && (if m.op = 0x01 then !m.datum || r.datum
    else if m.reduces then r.atomicOk && !m.datum
    else r.writable m.datum)

/-- The first of some checks that fails: the lowest reason code, and among equal codes the first. -/
def firstCheck (l : List (Option Bad)) : Option Bad :=
  (l.filterMap id).foldl (fun r b => match r with
    | none => some b
    | some a => if b.1 < a.1 then some b else some a) none

/-- A `BOUNDS` check that fails when `bad`, with the address at fault. -/
def bounds (bad : Bool) (a : Nat) : Option Bad := if bad then some (0x12, a) else none

/-- The result of an access as a check. -/
def accessCheck (r : Except Bad (List Xlat)) : Option Bad := match r with | .error b => some b | .ok _ => none

/-- Checks of `LOAD`, `STORE` and `REDUCE`. The device side of a remote move is checked on the peer. -/
def State.moveCheck (s : State) (c : CoreId) (m : MacroOp) (n : Nat) : Option Bad :=
  let x := s.core c
  let spa := m.addr 0 n
  let mema := m.addr 1 n
  let as := s.moveAddrs c m n []
  let shape := !(m.d.inBounds mema) || (m.spCoded && m.op = 0x10 && m.d.count % chunkValues ≠ 0)
  -- the length of a remote coded block is known only as it arrives
  let open' := m.remote && m.op = 0x01 && m.spCoded
  match firstCheck [bounds (spa % 64 ≠ 0) spa, bounds shape mema] with
  | some b => some b
  | none =>
    firstCheck [bounds (!spOk spa (s.moveLen c m n []) && !open') spa,
      bounds (m.datum && (if open' then mema % 4096 ≠ 0 else !wholeBlocks as)) mema,
      bounds (isContour m.d.fmt && !open' && decide (m.d.tensorFoot.2 < (mema : Int) + as.length - 1)) mema,
      s.peerCheck c m,
      bounds (m.remote && m.op ≠ 0x01 && (!runsWhole (as.foldl (fun (t : Tbl Byte) a => Tbl.ins a 0 t) []))) mema,
      if m.remote then none else accessCheck (s.access c.p x.ctx as m.regionOk)]

/-- The table indices of a `PICK` (R89). -/
def State.pickIdx (s : State) (c : CoreId) (m : MacroOp) (n : Nat) : List Int :=
  (List.range (m.x 0)).map (fun k => signed 32 (leNat ((s.core c).spBytes (m.addr 2 n + 4 * k) 4)))
/-- Bytes of a table row. -/
def pickRow (d : Desc) : Nat := d.te 0 * d.w / 8
/-- Address of the row of a table that an index names, as an integer (R89). -/
def pickAt (m : MacroOp) (n : Nat) (i : Int) : Int := (m.addr 1 n : Int) + i * m.d.st 1 * m.d.w / 8
/-- Device addresses of the rows that a `PICK` reads, in index order. -/
def State.pickAddrs (s : State) (c : CoreId) (m : MacroOp) (n : Nat) : List Nat :=
  (s.pickIdx c m n).flatMap (fun i => addrRun (pickAt m n i).toNat (pickRow m.d))

/-- Checks of `PICK` (R81, R86, R89, R151, R194). -/
def State.pickCheck (s : State) (c : CoreId) (m : MacroOp) (n : Nat) : Option Bad :=
  let nx := m.x 0
  let shape := firstCheck [bounds (65536 < nx) 0, bounds (!spOk (m.addr 0 n) (nx * pickRow m.d)) (m.addr 0 n),
    bounds (m.addr 2 n % 4 ≠ 0 || decide (2097152 < m.addr 2 n + 4 * nx)) (m.addr 2 n)]
  if shape.isSome then shape
  else
    let idx := s.pickIdx c m n
    let d := { m.d with bext := [m.d.te 0, 1, 1, 1] }
    let rowBad (i : Int) : Bool := i < 0 || (m.d.te 1 : Int) ≤ i || pickAt m n i < 0
      || !(({ d with text := [m.d.te 0, m.d.te 1, 1, 1], str := [1, m.d.st 1, 0, 0] } : Desc).inBounds (pickAt m n i).toNat)
    match idx.find? rowBad with
    | some i => some (0x12, (pickAt m n i).toNat % 2 ^ 48)
    | none => accessCheck (s.access c.p (s.core c).ctx (s.pickAddrs c m n) (fun r => m.d.kindOk r && r.kind ≠ .host))

/-- The other core of an `SPCOPY` (R90). -/
def spPeer (c : CoreId) (m : MacroOp) : CoreId := { c with k := ⟨mf m.word 41 38 % 9, by omega⟩ }

/-- Two cores run shares of one packet. -/
def samePacket (x y : Core) : Bool :=
  match x.share, y.share with
  | some a, some b => a.q = b.q && a.i = b.i && a.lane = b.lane && a.laneIdx = b.laneIdx
  | _, _ => false

/-- Checks of `SPCOPY` (R81, R90). -/
def State.spcopyCheck (s : State) (c : CoreId) (m : MacroOp) (n : Nat) : Option Bad :=
  let nx := m.x 0
  firstCheck [bounds (nx % 64 ≠ 0 || decide (2097152 < nx)) 0, bounds (!spOk (m.addr 0 n) nx) (m.addr 0 n),
    bounds (!spOk (m.addr 1 n) nx) (m.addr 1 n),
    if spPeer c m = c || samePacket (s.core c) (s.core (spPeer c m)) then none else some (0x14, m.addr 1 n)]

/-- Two byte ranges meet. -/
def overlap (a m b n : Nat) : Bool := decide (a < b + n) && decide (b < a + m)

/-- Bytes of the block of a `TRAV` (R161). -/
def travBytes (m : MacroOp) : Nat := m.d.count * elemWidth (mf m.word 52 49) / 8

/-- Checks of `TRAV` (R81, R91, R160, R161). -/
def travCheck (m : MacroOp) (n : Nat) : Option Bad :=
  let b := travBytes m
  let perm := mf m.word 43 38
  firstCheck [bounds (!spOk (m.addr 0 n) b) (m.addr 0 n), bounds (!spOk (m.addr 1 n) b) (m.addr 1 n),
    bounds (overlap (m.addr 0 n) b (m.addr 1 n) b) (m.addr 0 n),
    bounds (perm = 63 && (b % 512 ≠ 0 || !spOk (m.addr 2 n) 544)) (if b % 512 ≠ 0 then m.addr 1 n else m.addr 2 n),
    bounds (perm ≠ 63 && !travCondition perm (elemWidth (mf m.word 52 49) / 8) m.d) (m.addr 1 n)]

/-- Bytes of an `ATOM` word (R93, R94): 8 for a 64-bit type. -/
def atomSize (m : MacroOp) : Nat := if mf m.word 49 48 = 3 then 8 else 4
/-- Bytes of its SP operand: two 64-bit values for `CAS64`. -/
def atomOpBytes (m : MacroOp) : Nat := if mf m.word 47 44 = 7 then 16 else atomSize m

/-- Checks of `ATOM` (R81, R86, R93). -/
def State.atomCheck (s : State) (c : CoreId) (m : MacroOp) (n : Nat) : Option Bad :=
  let z := atomSize m
  let w := atomOpBytes m
  firstCheck [bounds (m.addr 0 n % z ≠ 0) (m.addr 0 n),
    bounds (m.addr 1 n % w ≠ 0 || decide (2097152 < m.addr 1 n + w)) (m.addr 1 n),
    bounds (mf m.word 43 43 = 1 && (m.addr 2 n % z ≠ 0 || decide (2097152 < m.addr 2 n + z))) (m.addr 2 n),
    accessCheck (s.access c.p (s.core c).ctx (addrRun (m.addr 0 n) z) Region.atomicOk)]

/-- Checks of a flag or semaphore operation (R81, R86, R88, R95, R351). A `WAIT` only reads its flag. -/
def State.flagCheck (s : State) (c : CoreId) (m : MacroOp) (n : Nat) : Option Bad :=
  firstCheck [bounds (m.addr 0 n % 8 ≠ 0) (m.addr 0 n), s.peerCheck c m,
    if m.remote then none
    else accessCheck (s.access c.p (s.core c).ctx (addrRun (m.addr 0 n) 8)
      (if m.op = 0x19 then Region.homed else Region.atomicOk)),
    let x := s.ctx c.p (s.core c).ctx
    if m.op = 0x1B && decide (16 ≤ x.held.length + x.takes) then some (0x14, m.addr 0 n) else none]

/-- Depth K of an `MMA` (R98). -/
def mmaK (m : MacroOp) : Nat := 32 * (mf m.word 57 51 + 1)

/-- Bytes in SP of operand `o` of an `MMA` (R99): coded chunks by their headers. -/
def mmaBytes (x : Core) (m : MacroOp) (n o : Nat) : Nat :=
  let fmt := if o = 0 then mf m.word 46 43 else mf m.word 50 47
  let k := mmaK m
  if isContour fmt then codedBytes (x.spAt (m.addr o n)) (128 * k / chunkValues) 0 else operandBytes fmt k

/-- Checks of `MMA` (R81, R99). The bytes of a Contour operand follow from its chunks' headers: one whose chunks lead past the end
of SP breaks R81 at the start, before R140 is asked (DEDUCED, log 85). -/
def mmaCheck (x : Core) (m : MacroOp) (n : Nat) : Option Bad :=
  let contour := isContour (mf m.word 46 43) || isContour (mf m.word 50 47)
  firstCheck [bounds (contour && mmaK m % 256 ≠ 0) 0, bounds (!spOk (m.addr 0 n) (mmaBytes x m n 0)) (m.addr 0 n),
    bounds (!spOk (m.addr 1 n) (mmaBytes x m n 1)) (m.addr 1 n), bounds (!accOk 512 (m.addr 2 n) 65536) (m.addr 2 n)]

/-- Bytes that an `MDRAIN` writes (R101). -/
def drainBytes (m : MacroOp) : Nat := vecBytes (mf m.word 41 38) 16384

/-- Checks of `MDRAIN` (R81). -/
def drainCheck (m : MacroOp) (n : Nat) : Option Bad :=
  firstCheck [bounds (!accOk 512 (m.addr 0 n) 65536) (m.addr 0 n), bounds (!spOk (m.addr 1 n) (drainBytes m)) (m.addr 1 n)]

/-- An operand of a VEC operation: in ACC, address, format, elements. -/
structure VecArg where
  acc : Bool
  addr : Nat
  fmt : Nat
  n : Nat
  deriving DecidableEq, Repr

/-- Bytes of an operand. -/
def VecArg.bytes (v : VecArg) : Nat := vecBytes v.fmt v.n

/-- The destination and the sources of a VEC instance (R103, R104). -/
def vecArgs (m : MacroOp) (n : Nat) : VecArg × List VecArg :=
  let op := m.op
  let fmt := mf m.word 49 46
  let nx := m.x 0
  let g := max 1 (m.x 1)
  let fOf (acc : Bool) (f : Nat) : Nat := if acc then 0 else f
  let dAcc : Bool := mf m.word 43 43 = 1
  let aAcc : Bool := mf m.word 44 44 = 1
  let bAcc : Bool := mf m.word 45 45 = 1
  let dst : VecArg := ⟨dAcc, m.addr 0 n, fOf dAcc (if op = 0x89 then 0 else fmt), if vecReduces op then nx / g else nx⟩
  let src1 : List VecArg := if vecS1 op then [⟨aAcc, m.addr 1 n, fOf aAcc (if op = 0x88 then 0 else fmt), nx⟩] else []
  let src2 : List VecArg := if vecS2 op then [⟨bAcc, m.addr 2 n, fOf bAcc fmt, if vecGroups op then nx / g else nx⟩] else []
  (dst, src1 ++ src2)

/-- A VEC operand breaks R81. -/
def VecArg.bad (v : VecArg) : Bool := if v.acc then !accOk 64 v.addr v.bytes else !spOk v.addr v.bytes

/-- A destination overlaps a source other than exactly (R105). -/
def VecArg.clash (d s : VecArg) : Bool :=
  d.acc = s.acc && overlap d.addr d.bytes s.addr s.bytes && !(d.addr = s.addr && d.bytes = s.bytes)

/-- Checks of a VEC operation (R81, R103 to R105). -/
def vecCheck (m : MacroOp) (n : Nat) : Option Bad :=
  let args := vecArgs m n
  let grouped := 0x98 ≤ m.op
  firstCheck ([bounds (65536 < m.x 0) 0, bounds (grouped && (m.x 1 = 0 || m.x 0 % (max 1 (m.x 1)) ≠ 0)) 0,
    bounds (m.op = 0x88 && isMx (mf m.word 49 46) && m.x 0 % 32 ≠ 0) 0, bounds args.1.bad args.1.addr]
    ++ args.2.map (fun v => bounds v.bad v.addr) ++ args.2.map (fun v => bounds (args.1.clash v) args.1.addr))

/-- A count of 0 completes with no effect (R89, R103). -/
def MacroOp.idle (m : MacroOp) : Bool := (m.op = 0x03 || 0x80 ≤ m.op) && m.x 0 = 0

/-- The checks of an instance when it starts (R81). -/
def State.startCheck (s : State) (c : CoreId) (m : MacroOp) (n : Nat) : Option Bad :=
  if m.idle then none
  else match m.op with
    | 0x01 => s.moveCheck c m n
    | 0x02 => s.moveCheck c m n
    | 0x03 => s.pickCheck c m n
    | 0x04 => s.spcopyCheck c m n
    | 0x08 => travCheck m n
    | 0x10 => s.moveCheck c m n
    | 0x11 => s.atomCheck c m n
    | 0x1A => none
    | 0x40 => mmaCheck (s.core c) m n
    | 0x41 => drainCheck m n
    | o => if o < 0x40 then s.flagCheck c m n else vecCheck m n

/-! ### What a start sends (R282, R319, R325, R327, R330, R333) -/

/-- Send the requests of a remote `LOAD` for bytes not yet asked for: one for each run of 32-byte units in a 4 KiB
block. -/
def State.askFor (s : State) (c : CoreId) (id : Nat) (l : Fin 48) (m : MacroOp) (as : List Nat) : State :=
  (unitRuns as).foldl (fun s r =>
    s.request l (s.instWaiter c id) (s.mkMsg { MsgSpec.zero with
      type := 0x01
      flags := mf m.word 45 44 + (if m.datum then 16 else 0)
      dctx := s.farCtx (s.core c).ctx l
      len := r.2
      addr := r.1 })) s

/-- Split a coded chunk into messages of at most 4 KiB, marked first, middle and last, or only (R324, R333). -/
def chunkMarks (bs : List Byte) : List (Nat × List Byte) :=
  let ps := chunks 4096 bs.length bs
  ps.zipIdx.map (fun e => ((if ps.length = 1 then 0 else if e.2 = 0 then 1 else if e.2 + 1 = ps.length then 3 else 2), e.1))

/-- The bytes that a `STORE` writes, by device address, from the SP bytes `lo` to `hi - 1` of its block. -/
def storeTable (m : MacroOp) (a : Nat) (mem sp : Nat → Byte) (lo hi : Nat) : Tbl Byte :=
  if m.spCoded then ((List.range (hi - lo)).map (fun k => (a + lo + k, sp (lo + k))))
  else ((m.d.pieces a).filter (fun p => 8 * lo ≤ p.sp && p.sp < 8 * hi)).foldl (fun t p =>
    putBits mem t p.mem p.w (getBits sp p.sp p.w)) []

/-- Chunks of an encoding `STORE` whose SP bytes end in `lo + 1` to `hi`, the first of them at `off` after the block's
address. -/
def encodeRun (m : MacroOp) (sp : Nat → Byte) (lo hi : Nat) : List Byte :=
  ((List.range (m.d.count / chunkValues)).filter (fun j => lo < 65536 * (j + 1) && 65536 * (j + 1) ≤ hi)).flatMap
    (encodeChunk m sp)

/-- Lay the elements of a block out in tables of bytes, each element in the first table that holds none at its target: elements
that reach one address go out one after another (R150). -/
def layerPiece (sp : Nat → Byte) (p : Piece) : List (Tbl Byte) → List (Tbl Byte)
  | [] => [putBits (fun _ => 0) [] p.mem p.w (getBits sp p.sp p.w)]
  | t :: ts =>
    if t.any (fun e => e.1 = p.mem / 8) then t :: layerPiece sp p ts
    else putBits (fun _ => 0) t p.mem p.w (getBits sp p.sp p.w) :: ts

/-- The tables of a remote reduction of raw elements. A 32-byte unit of a table that some element does not fill is filled with
the value that `ADD` leaves every other value by: -0, or 0 for INT32 (R150, R327; log 83). -/
def reduceLayers (m : MacroOp) (a : Nat) (sp : Nat → Byte) : List (Tbl Byte) :=
  let w := rawWidth m.d.fmt / 8
  let none' (k : Nat) : Byte := if m.d.fmt ≠ 0xC && k % w = w - 1 then 0x80 else 0
  ((m.d.pieces a).foldl (fun ts p => layerPiece sp p ts) []).map (fun t =>
    (unitRuns (t.map Prod.fst)).foldl (fun u r =>
      (addrRun r.1 (32 * r.2)).foldl (fun u k => if t.any (fun e => e.1 = k) then u else Tbl.ins k (none' k) u) u) t)

/-- Send the messages of a remote `STORE` or `REDUCE` for the SP bytes `lo` to `hi - 1`. A coded chunk's messages name the
target of the chunk's first value (R333). -/
def State.sendBlock (s : State) (c : CoreId) (id : Nat) (l : Fin 48) (m : MacroOp) (n lo hi off : Nat) : State :=
  let x := s.core c
  let a := m.addr 1 n
  let sp := x.spAt (m.addr 0 n)
  let who := s.instWaiter c id
  let far := s.farCtx x.ctx l
  let base : MsgSpec := { MsgSpec.zero with
    type := if m.reduces then 0x04 else 0x03
    dctx := far
    op := if m.reduces then m.rop + 4 * m.d.fmt else 0
    fmt := if m.op = 0x10 then mf m.word 55 52 else m.d.fmt }
  let cls := if m.op = 0x10 then mf m.word 57 56 else mf m.word 45 44
  let s := s.markWrite l c.key (match x.share with | some sh => sh.q | none => 0)
  if m.op = 0x10 && m.spCoded then
    ((List.range (m.d.count / chunkValues)).foldl (fun r j =>
      let len := chunkLenAt sp r.2
      let s := (chunkMarks ((List.range len).map (fun k => sp (r.2 + k)))).foldl (fun s e =>
        s.request l who (s.mkMsg { base with
          flags := cls + 4, addr := m.d.memBit a (m.d.valueIx (chunkValues * j)) / 8, len := e.2.length / 32, data := e.2, op := base.op + 64 * e.1 })) r.1
      (s, r.2 + len)) (s, 0)).1
  else
    let ts : List (Tbl Byte) := if m.reduces then reduceLayers m a sp
      else if m.encodes then
        let bs := encodeRun m sp lo hi
        [(List.range bs.length).zip bs |>.map (fun e => (a + off + e.1, e.2))]
      else [storeTable m a (fun _ => 0) sp lo hi]
    (ts.flatMap blockRuns).foldl (fun s r =>
      s.request l who (s.mkMsg { base with
        flags := cls + (if m.datum then 16 else 0), addr := r.1, len := r.2.length / 32, data := r.2
        rdat := if m.datum then (crc32c r.2).toNat else 0 })) s

/-- Send the flag add of a remote `SIGNAL` (R96, R325). -/
def State.sendFlagAdd (s : State) (c : CoreId) (id : Nat) (l : Fin 48) (m : MacroOp) (n : Nat) : State :=
  let s := s.markWrite l c.key (match (s.core c).share with | some sh => sh.q | none => 0)
  s.request l (s.instWaiter c id) (s.mkMsg { MsgSpec.zero with
    type := 0x05, dctx := s.farCtx (s.core c).ctx l, addr := m.addr 0 n, value := m.x 0 })

/-- The release of an instance is done: no drain marker of it is out. A remote `SIGNAL` sends its flag add, a `FENCE` is
ready; the others await their home (R96, R282). -/
def State.released (s : State) (c : CoreId) (id : Nat) (m : MacroOp) (n : Nat) : State :=
  if m.op = 0x1A then s.updInst c id (fun i => { i with st := .ready })
  else match m.op, (if m.remote then peerLink m.peer else none) with
    | 0x18, some l => s.sendFlagAdd c id l m n
    | _, _ => s

/-- A core's covered writes on the links of its partition. -/
def mineOf (c : CoreId) : Nat × Nat → Bool := fun e => e.1 = c.key

/-- What an instance does as it starts, beyond taking its place: remote requests; drains of a SPAN release; registration
with its home. The result is how it stands. -/
def State.launch (s : State) (c : CoreId) (id : Nat) (m : MacroOp) (n : Nat) : State × InstSt :=
  let x := s.core c
  let w := s.instWaiter c id
  let span := mf m.word 40 38 = 4
  if m.idle then (s, .running)
  else match m.op, (if m.remote then peerLink m.peer else none) with
    | 0x01, some l =>
      let as := if m.spCoded then addrRun (m.addr 1 n) (if m.datum then 4096 else 64) else m.d.addrs (m.addr 1 n)
      (s.askFor c id l m as, .waiting)
    | 0x02, some l =>
      let (s, bad) := s.spCheck c (m.addr 0 n) (s.moveLen c m n [])
      match bad with
      | some b => (s.haltOp c .dma m n b.1 b.2, .waiting)
      | none => (s.sendBlock c id l m n 0 (s.moveLen c m n []) 0, .waiting)
    | 0x10, some l =>
      let (s, bad) := s.spCheck c (m.addr 0 n) (s.moveLen c m n [])
      match bad with
      | some b => (s.haltOp c .dma m n b.1 b.2, .waiting)
      | none => (s.sendBlock c id l m n 0 (s.moveLen c m n []) 0, .waiting)
    | 0x18, some l =>
      let s := s.drainLinks c.p w (mineOf c)
      (if s.draining c.p w then s else s.sendFlagAdd c id l m n, .waiting)
    | 0x18, none => (if span then s.drainLinks c.p w (mineOf c) else s, .waiting)
    | 0x1A, none =>
      let s := if span && mf m.word 41 41 = 1 then s.drainLinks c.p w (mineOf c) else s
      (s, if s.draining c.p w then .waiting else .ready)
    | 0x1B, none => (s.updCtx c.p x.ctx (fun k => { k with takes := k.takes + 1 }), .waiting)
    | 0x1C, none => (if span then s.drainLinks c.p w (mineOf c) else s, .waiting)
    | o, none => (s, if m.reduces || o = 0x11 || o = 0x19 then .waiting else .running)
    | _, _ => (s, .running)

/-! ### The start -/

/-- The operations that hold back everything behind them in a DMA queue (R285). -/
def MacroOp.orders (m : MacroOp) : Bool := 0x18 ≤ m.op && m.op ≤ 0x1C

/-- An engine's queue may start its next instance (R64, R102, R285, R399): the ME and the VE run one at a time, and
nothing starts behind an ordering operation or behind a parked instance. -/
def Core.engineFree (x : Core) (e : Engine) : Bool :=
  !(x.runs.any (fun i => i.st = .parked && i.eng = e))
    && (match e with
        | .dma => !(x.runs.any (fun i => i.eng = .dma && i.op.orders))
        | e => !(x.runs.any (fun i => i.eng = e)))

/-- An engine's clock runs (R24). -/
def State.ungated (s : State) (c : CoreId) : Engine → Bool
  | .dma => !(s.cluster c.cluster).gateDma
  | .mat => !(s.core c).gateMe
  | .vec => !(s.core c).gateVe

/-- Change the queue of an engine. -/
def Core.updQueue (x : Core) (e : Engine) (f : List MacroOp → List MacroOp) : Core :=
  match e with
  | .dma => { x with dmaQ := f x.dmaQ }
  | .mat => { x with matQ := f x.matQ }
  | .vec => { x with vecQ := f x.vecQ }

/-- The lowest number that no instance of the core has. -/
def Core.freshId (x : Core) : Nat :=
  let ids := x.runs.map Inst.id ++ x.stopping.map (fun j => j.inst.id)
  ((List.range (ids.length + 1)).find? (fun k => !(ids.contains k))).getD 0

/-- The next instance of an engine's queue starts (R64, R65, R81, R106): its token wait is met once for the operation,
its operands pass, and it runs. -/
def State.startNext (s : State) (c : CoreId) (e : Engine) (m : MacroOp) : State :=
  let x := s.core c
  let n := m.next
  let tok := mf m.word 21 16
  let waits := mf m.word 22 22 = 1 && !m.waited
  -- R66: in one core cycle the queues test their tokens in the order DMA, MAT, VEC
  if waits && (x.tok.get 0 tok = 0 || Engine.slot e - 1 < x.tokPhase) then s
  else if waits && x.regFault 5 tok then s.haltCore c ⟨0x30, Engine.slot e, false, 5, tok, 0, m.pc.toNat, m.mtag, 0, m.haltIdx n⟩
  else
    let s := if waits then s.updCore c (fun x => { x with
        tok := x.tok.set 0 tok (x.tok.get 0 tok - 1), tokPhase := Engine.slot e - 1 }) else s
    let s := if n = 0 then s.trace c 2 (Engine.slot e) m.pc.toNat m.mtag (m.addr 0 0) else s
    match s.startCheck c m n with
    | some b => s.haltOp c e m n b.1 b.2
    | none =>
      let id := x.freshId
      let m' := { m with next := n + 1, waited := true }
      let route := if m.op = 0x08 && mf m.word 43 38 = 63 then x.spBytes (m.addr 2 n) 544 else []
      let taints := m.reduces || m.op = 0x11 || m.op = 0x04 || m.op = 0x18 || m.op = 0x1B || m.op = 0x1C
      let s := s.updCore c (fun x =>
        { x.updQueue e (fun q => if n + 1 < m.count then m' :: q.drop 1 else q.drop 1) with
          runs := x.runs ++ [⟨id, e, m, n, .running, 0, 0, route, [], [], 0⟩] })
      let s := match x.share with
        | some sh => if taints then s.updPkts sh.of (fun k => { k with replayable := false }) else s
        | none => s
      let r := s.launch c id m n
      r.1.updInst c id (fun i => { i with st := r.2 })

/-- A DMA queue that holds more asks for its next instance (R196). -/
def State.askNext (s : State) (c : CoreId) : State := if (s.core c).dmaQ.isEmpty then s else s.askDma c

/-- The bundle that a core has open holds an `STX` that has still to be performed: no macro-operation of the bundle may read
SP before it (R54, R80). -/
def Core.stxDue (x : Core) : Bool :=
  match x.cur with
  | some b => b.has 2 && !b.wide && b.op 2 = 0x19 && !x.curDone.getLsbD 2
  | none => false

/-- The operation whose next instance an engine may start for a core (R64, R285): its core runs for a RUNNING context, its PLL runs,
its clock is not gated, and nothing holds its queue. -/
def State.mayStart (s : State) (c : CoreId) (e : Engine) : Option MacroOp :=
  let x := s.core c
  match x.share, x.queueOf e with
  | some sh, m :: _ =>
    if x.st = .running && (s.ctx c.p sh.ctx).st = .running && (s.part c.p).pll = .running && s.ungated c e
        && x.engineFree e && !x.stxDue && (m.op ≠ 0x08 || !(s.cluster c.cluster).gateTrav) then some m
    else none
  | _, _ => none

/-- The class of a macro-operation's request (R195): `CLASS` where the operation has it, BULK where it has none (DESIGN CHOICE, log
95). -/
def MacroOp.traffic (m : MacroOp) : Class :=
  match m.op with
  | 0x01 => (Traffic.read (mf m.word 45 44)).cls
  | 0x02 => (Traffic.write (mf m.word 45 44)).cls
  | 0x03 => (Traffic.read (mf m.word 50 49)).cls
  | 0x10 => (Traffic.write (mf m.word 57 56)).cls
  | _ => .bulk

/-- The requests that wait at a cluster's DMA engine: the cores whose queue's next instance may start and whose token, if it awaits
one, is there; oldest first (R196). -/
def State.dmaRequests (s : State) (cl : ClusterId) : List (CoreId × Class) :=
  let all := (coresOf cl).filterMap (fun c => (s.mayStart c .dma).bind (fun m =>
    if mf m.word 22 22 = 1 && !m.waited && (s.core c).tok.get 0 (mf m.word 21 16) = 0 then none else some (c, m.traffic)))
  (s.cluster cl).dmaOrder.filterMap (fun k => all.find? (fun r => r.1.k.val = k))
    ++ all.filter (fun r => !(s.cluster cl).dmaOrder.contains r.1.k.val)

/-- The core that a cluster's DMA engine serves next, with the class that it grants (R196). -/
def State.dmaGrant (s : State) (cl : ClusterId) : Option (CoreId × Class) :=
  let rs := s.dmaRequests cl
  match (s.cluster cl).arb.choose (rs.map Prod.snd) with
  | none => none
  | some k => rs.find? (fun r => r.2 = k)

/-- The DMA engine has granted a core's request; the next instance of the core's queue is a new one (R196). -/
def State.dmaGranted (s : State) (c : CoreId) (k : Class) : State :=
  s.updCluster c.cluster (fun y => { y with arb := y.arb.granted k 0, dmaOrder := y.dmaOrder.erase c.k.val })

/-- `MACRO_INSTANCE_START` (R81, R64, R196, R285): nothing while the queue's head may not start yet, or while the cluster's DMA
engine serves another core. -/
def execMacroInstanceStart (c : CoreId) (e : Engine) (s : State) : Host.Outcome State Fault Refusal :=
  match s.mayStart c e with
  | none => .next s
  | some m =>
    if e = .dma then
      match s.dmaGrant c.cluster with
      | some (d, k) => if d = c then .next (((s.dmaGranted c k).startNext c e m).askNext c) else .next s
      | none => .next s
    else .next (s.startNext c e m)

end Sys2Proof.Machine
end

