-- ==== Sys2Proof/Machine/MacroRun.lean ====
section
/-! DEFINITION. What a running instance does to memory, SP and ACC (R82 to R105), over any part of its work, so that a cut
(R113, R114) and a completion (R109) share it. -/

namespace Sys2Proof.Machine

/-- How a part of an instance ends: done; held up by a line of the host (R368) or by an earlier write to the same group
(R97); parked on poison (R399); or a fault with its reason and address: one whose writes so far are made, or one that stops the
part at an operand, before which an unstated share of the part has been written (R112). -/
inductive Part2 where
  | done (s : State)
  | later (s : State)
  | park (s : State) (pl : Place) (a : Nat)
  | fault (s : State) (reason a : Nat)
  | stop (s : State) (reason a : Nat)

/-- The poison that a read meets decides how it ends. -/
def Part2.poisoned (s : State) (e : Nat × Place × Bool) : Part2 :=
  if e.2.2 then .park s e.2.1 e.1 else .fault s 0x32 e.1

/-! ### Loads (R82, R85, R87, R147) -/

/-- SP bytes that a block's device bytes give, for the SP bytes `lo` to `hi - 1`, keeping only pieces that `ok` accepts. -/
def loadTable (m : MacroOp) (a : Nat) (mem sp : Nat → Byte) (lo hi : Nat) (ok : Nat → Bool) : Tbl Byte :=
  if m.spCoded then ((List.range (hi - lo)).map (fun k => (lo + k, mem (a + lo + k)))).filter (fun e => ok (a + e.1))
  else ((m.d.pieces a).filter (fun p => 8 * lo ≤ p.sp && p.sp < 8 * hi && (bitBytes p.mem p.w).all ok)).foldl (fun t p =>
    putBits sp t p.sp p.w (getBits mem p.mem p.w)) []

/-- Shift the keys of a table. -/
def shiftTbl (d : Nat) (t : Tbl Byte) : Tbl Byte := t.map (fun e => (d + e.1, e.2))

/-- Device addresses of the SP bytes `lo` to `hi - 1` of a block. -/
def MacroOp.addrsIn (m : MacroOp) (a lo hi : Nat) : List Nat :=
  if m.spCoded then addrRun (a + lo) (hi - lo)
  else (((m.d.pieces a).filter (fun p => 8 * lo ≤ p.sp && p.sp < 8 * hi)).flatMap (fun p => bitBytes p.mem p.w)).dedup

/-- The blocks of 4 KiB whose Datum differs from the stored one, the stored ones given by address (R85). -/
def badDatum (as : List Nat) (mem : Nat → Byte) (stored : Nat → Nat) : Option Nat :=
  ((as.map (fun a => a - a % 4096)).dedup).find? (fun b => (crc32c ((List.range 4096).map (fun k => mem (b + k)))).toNat ≠ stored b)

/-- The bytes of a cut instance that its later parts read again, by address: each element is read once per instance (R147;
DEDUCED, log 89). -/
def keepBytes (later now : List Nat) (mem : Nat → Byte) (old : Tbl Byte) : Tbl Byte :=
  (now.filter (fun a => later.contains a)).foldl (fun t a => Tbl.ins a (mem a) t) old

/-- `LOAD` from this device. Bytes that an earlier part of the instance has read are not read again (R147). -/
def State.runLoad (s : State) (c : CoreId) (i : Inst) (lo hi : Nat) (last : Bool) : Part2 :=
  let m := i.op
  let n := i.n
  let x := s.core c
  let a := m.addr 1 n
  let spa := m.addr 0 n
  let as := (m.addrsIn a lo hi).filter (fun a => !i.buf.any (fun e => e.1 = a))
  match s.access c.p x.ctx as m.regionOk with
  | .error b => .fault s b.1 b.2
  | .ok ts =>
    match s.heldUp c.p false ts with
    | some s => .later s
    | none =>
      -- a stream-cache copy serves its group; the rest is read, and may be poisoned
      let pairs := (as.zip ts).filter (fun e => match streamKey e.2 with
        | some g => ((s.cluster c.cluster).stream.get none g).isNone || Config.evicted s.freeCtr g
        | none => true)
      let (s, bad) := s.poisonIn (pairs.map Prod.fst) (pairs.map Prod.snd)
      let bytes := i.buf ++ as.zip (ts.map (s.streamByte c.cluster))
      let mem := byteOf bytes
      let sp := (s.core c).spAt spa
      let good (a : Nat) : Bool := match (as.zip ts).find? (fun e => e.1 = a) with
        | some e => match e.2.place with
          | .dram k => !s.groupPoisoned (k / 64)
          | .host h => !s.hostErr.get false (h / 64)
        | none => i.buf.any (fun e => e.1 = a)
      match bad with
      | some e =>
        if e.2.2 then .park s e.2.1 e.1
        else
          let t := loadTable m a mem sp lo hi good
          let t := t.take (Config.landed s.freeCtr % (t.length + 1))
          .fault ((s.draw 1).spWriteTbl c (shiftTbl spa t)) 0x32 e.1
      | none =>
        let far := pairs.map Prod.snd
        let s := (s.streamFill c.cluster ts).accessLines false (Traffic.read (mf m.word 45 44)).cls.allocates far |>.countTraffic false false far
        let s := s.cachePages c.p c.c.val x.ctx ts
        let s := s.spWriteTbl c (shiftTbl spa (loadTable m a mem sp lo hi (fun _ => true)))
        let later := if last then [] else m.addrsIn a hi (s.moveLen c m n [])
        let s := if later.isEmpty then s else s.updInst c i.id (fun j => { j with buf := keepBytes later as mem j.buf })
        if last && m.datum then
          let all := m.addrsIn a 0 hi
          match badDatum all (s.devAt c 0) (s.datumAt c.p x.ctx) with
          | some b => .fault s 0x33 b
          | none => .done s
        else .done s

/-- `LOAD` from a peer, once every byte has come (R327, R330). -/
def State.runRemoteLoad (s : State) (c : CoreId) (i : Inst) (lo hi : Nat) (last : Bool) : Part2 :=
  let m := i.op
  let a := m.addr 1 i.n
  let spa := m.addr 0 i.n
  let mem (k : Nat) : Byte := i.buf.get 0 k
  let len := s.moveLen c m i.n i.buf
  if m.spCoded && (!spOk spa len || (m.datum && len % 4096 ≠ 0) || decide (m.d.tensorFoot.2 < (a : Int) + len - 1)) then .fault s 0x12 spa
  else
    match (if last && m.datum then
        badDatum (m.addrsIn a 0 hi) mem (fun b => ((i.rdats.find? (fun e => e.1 = b)).map Prod.snd).getD 0)
      else none) with
    | some b => .fault s 0x33 b
    | none => .done (s.spWriteTbl c (shiftTbl spa (loadTable m a mem ((s.core c).spAt spa) lo hi (fun _ => true))))

/-! ### Stores (R82, R85 to R88, R97) -/

/-- Numbers of the aligned 64-byte groups of device memory that places touch, in stacks and in the host's memory (R97, R278). -/
def groupKeys (ps : List Place) : List Nat :=
  (ps.map (fun p => match p with | .dram k => 2 * (k / 64) | .host a => 2 * (a / 64) + 1)).dedup

/-- Groups of device memory that the earlier running writes of a core touch (R97). -/
def State.earlierGroups (s : State) (c : CoreId) (id : Nat) : List Nat :=
  let x := s.core c
  let before := x.runs.takeWhile (fun i => i.id ≠ id)
  before.flatMap (fun i =>
    if i.eng = .dma && !i.op.remote && (i.op.op = 0x02 || i.op.op = 0x10 || i.op.op = 0x11) && i.st ≠ .ready then
      let as := if i.op.op = 0x11 then addrRun (i.op.addr 0 i.n) (atomSize i.op) else s.moveAddrs c i.op i.n []
      groupKeys (as.filterMap (fun a => (s.translate c.p x.ctx a).map (fun t => t.place)))
    else [])

/-- An earlier write of the core to one of these places is still running (R97). -/
def State.mustFollow (s : State) (c : CoreId) (id : Nat) (ts : List Xlat) : Bool :=
  let g := s.earlierGroups c id
  (groupKeys (placesOf ts)).any (fun k => g.contains k)

/-- `STORE` to this device without `ACCUM`. -/
def State.runStore (s : State) (c : CoreId) (i : Inst) (lo hi : Nat) : Part2 :=
  let m := i.op
  let a := m.addr 1 i.n
  let spa := m.addr 0 i.n
  -- an encoder reads the values of a chunk in memory order, wherever they lie in the block
  let (s, bad) := if m.encodes then
      (if (encodeRun m (fun _ => 0) lo hi).isEmpty then (s, none) else s.spCheck c spa (s.moveLen c m i.n []))
    else s.spCheck c (spa + lo) (hi - lo)
  match bad with
  | some b => .stop s b.1 b.2
  | none =>
    let x := s.core c
    let mem := fun k => match s.translate c.p x.ctx k with | some t => s.byteAt t.place | none => 0
    let t : Tbl Byte := if m.encodes then
        let bs := encodeRun m (x.spAt spa) lo hi
        (List.range bs.length).zip bs |>.map (fun e => (a + i.ret.toNat + e.1, e.2))
      else storeTable m a mem (x.spAt spa) lo hi
    match s.access c.p x.ctx (t.map Prod.fst) m.regionOk with
    | .error b => .stop s b.1 b.2
    | .ok ts =>
      if s.mustFollow c i.id ts then .later s
      else match s.heldUp c.p true ts with
        | some s => .later s
        | none =>
          let s := (s.devWrite (some c.cluster) ts (t.map Prod.snd)).cachePages c.p c.c.val x.ctx ts
          let s := if m.datum then
              (runsOf t).foldl (fun s r => s.setDatums c.p x.ctx (datumsOf r.1 r.2)) s
            else s
          .done (if m.encodes then s.updInst c i.id (fun j => { j with ret := j.ret + BitVec.ofNat 64 t.length }) else s)

/-! ### Reductions at home (R84, R92, R190 to R192) -/

/-- Combine a target pattern with a source pattern: 0 ADD, 1 MIN, 2 MAX, in INT32, FP32 or BF16 (R190, R192). -/
def combine (rop fmt old new : Nat) : Nat :=
  match fmt with
  | 0xC =>
    let a := signed 32 old
    let b := signed 32 new
    (BitVec.ofInt 32 (if rop = 0 then a + b else if rop = 1 then min a b else max a b)).toNat
  | f =>
    let a := elemVal f old
    let b := elemVal f new
    narrow f .even false (if rop = 0 then addVal a b else if rop = 1 then minVal a b else maxVal a b)

/-- Perform updates of elements one after another: bit position of the target and pattern of the source, at the places of
translated addresses (R191). -/
def State.reduceAll (s : State) (p : Fin 4) (x : Fin 16) (rop fmt : Nat) (us : List (Nat × Nat)) : State :=
  us.foldl (fun s u =>
    let w := rawWidth fmt
    let as := bitBytes u.1 w
    match s.translateAll p x as with
    | none => s
    | some ts =>
      let old := leNat (ts.map (fun t => s.byteAt t.place))
      s.writeAt true ((placesOf ts).zip (leBytes (w / 8) (combine rop fmt old u.2)))) s

/-- A list in an order that the manual does not state (R92). -/
def freeOrder {α : Type} (ctr : Nat) : Nat → List α → List α
  | 0, l => l
  | f + 1, l =>
    let k := Config.reduceOrder ctr f % max 1 l.length
    match l[k]? with
    | some v => v :: freeOrder ctr f (delNth l k)
    | none => l

/-- The updates of a reduction's SP bytes `lo` to `hi - 1`: target bit and source pattern; or the SP offset of a malformed
chunk with the updates of its targets. -/
def reduceUpdates (m : MacroOp) (a spa : Nat) (sp : Nat → Byte) (lo hi : Nat) :
    List (Nat × Nat) × Option (Nat × List Nat) :=
  if m.spCoded then
    let r := (List.range (m.d.count / chunkValues)).foldl (fun (r : Nat × List (Nat × Nat) × Option (Nat × List Nat)) j =>
      let len := chunkLenAt sp r.1
      let tgt := (List.range chunkValues).map (fun k => m.d.memBit a (m.d.valueIx (chunkValues * j + k)))
      if r.2.2.isSome || r.1 + len ≤ lo || hi < r.1 + len then (r.1 + len, r.2)
      else match contourExpand false ((List.range len).map (fun k => sp (r.1 + k))) with
        | some vs => (r.1 + len, r.2.1 ++ tgt.zip vs, none)
        | none => (r.1 + len, r.2.1, some (spa + r.1, tgt))) (0, [], none)
    r.2
  else
    (((m.d.pieces a).filter (fun p => 8 * lo ≤ p.sp && p.sp < 8 * hi)).map (fun p => (p.mem, getBits sp p.sp p.w)), none)

/-- Operations of R190 counted where each is performed, at the home of its word. -/
def State.countAtomics (s : State) (ks : List Nat) : State :=
  (List.finRange 4).foldl (fun s p =>
    let n := (ks.filter (fun k => homeOf k = p)).length
    if n = 0 then s else s.updPart p (fun q => { q with atomics := satAdd q.atomics n })) s

/-- The places of the words that updates change, for those that lie in stacks. -/
def State.placesOfUpdates (s : State) (p : Fin 4) (x : Fin 16) (us : List (Nat × Nat)) : List Nat :=
  us.filterMap (fun u => match s.translate p x (u.1 / 8) with
    | some t => match t.place with | .dram k => some k | .host _ => none
    | none => none)

/-- A local `REDUCE`, or `STORE` with `ACCUM`, performed at its homes. A malformed chunk halts with the SP offset of its header,
as at an ME operand port, and poisons its targets, as a link receiver would (R140, R141, R332; DEDUCED, log 85). -/
def State.runReduce (s : State) (c : CoreId) (i : Inst) (lo hi : Nat) : Part2 :=
  let m := i.op
  let a := m.addr 1 i.n
  let spa := m.addr 0 i.n
  let fmt := m.d.fmt
  let (s, bad) := s.spCheck c (spa + lo) (hi - lo)
  match bad with
  | some b => .stop s b.1 b.2
  | none =>
    let x := s.core c
    let (us, malformed) := reduceUpdates m a spa (x.spAt spa) lo hi
    let as := ((us.map Prod.fst ++ ((malformed.map Prod.snd).getD [])).flatMap (fun b => bitBytes b (rawWidth fmt))).dedup
    match s.access c.p x.ctx as m.regionOk with
    | .error b => .stop s b.1 b.2
    | .ok ts =>
      if s.mustFollow c i.id ts then .later s
      else match s.heldUp c.p true ts with
        | some s => .later s
        | none =>
          let (s, poison) := s.poisonIn as ts
          let s := (s.accessLines true true ts).cachePages c.p c.c.val x.ctx ts
          let s := s.updCluster c.cluster (fun k => k.dropGroups (groupsOf (placesOf ts)))
          let us := freeOrder s.freeCtr us.length us
          let s := s.draw 1
          let count (s : State) (us : List (Nat × Nat)) : State := s.countAtomics (s.placesOfUpdates c.p x.ctx us)
          match poison with
          | some e =>
            let us := us.take (Config.landed s.freeCtr % (us.length + 1))
            let us := us.filter (fun u => match s.translate c.p x.ctx (u.1 / 8) with
              | some t => match t.place with | .dram k => !s.groupPoisoned (k / 64) | .host _ => false
              | none => false)
            .fault ((count (s.reduceAll c.p x.ctx m.rop fmt us) us).draw 1).retest 0x32 e.1
          | none =>
            let s := (count (s.reduceAll c.p x.ctx m.rop fmt us) us).retest
            match malformed with
            | some (o, tgt) =>
              let pl := (tgt.flatMap (fun b => bitBytes b (rawWidth fmt))).filterMap (fun a =>
                (s.translate c.p x.ctx a).map (fun t => t.place))
              .fault (s.poisonPlaces pl) 0x32 o
            | none => .done s

/-! ### PICK, SPCOPY, TRAV (R89 to R91) -/

/-- `PICK`: rows in index order from SP byte `lo` on (R89, R194, R290). Bytes that an earlier part of the instance has read are
not read again (R147). -/
def State.runPick (s : State) (c : CoreId) (i : Inst) (lo hi : Nat) (last : Bool) : Part2 :=
  let m := i.op
  let n := i.n
  let x := s.core c
  let (s, bad) := s.spCheck c (m.addr 2 n) (4 * m.x 0)
  match bad with
  | some b => .fault s b.1 b.2
  | none =>
    let all := ((s.pickAddrs c m n).drop lo).take (hi - lo)
    let as := (all.filter (fun a => !i.buf.any (fun e => e.1 = a))).dedup
    match s.access c.p x.ctx as (fun r => m.d.kindOk r && r.kind ≠ .host) with
    | .error b => .fault s b.1 b.2
    | .ok ts =>
      match s.heldUp c.p false ts with
      | some s => .later s
      | none =>
        let (s, bad) := s.poisonIn as ts
        let mem := byteOf (i.buf ++ as.zip (ts.map (fun t => s.byteAt t.place)))
        let bytes := all.map mem
        match bad with
        | some e =>
          if e.2.2 then .park s e.2.1 e.1
          else
            let j := all.findIdx (· = e.1)
            let j := (j - j % 64)
            .fault ((s.draw 1).spWrite c (m.addr 0 n + lo) (bytes.take (Config.landed s.freeCtr % (j + 1)))) 0x32 e.1
        | none =>
          let s := ((s.pickLines ts).countTraffic false true ts).cachePages c.p c.c.val x.ctx ts
          let later := if last then [] else (s.pickAddrs c m n).drop hi
          let s := if later.isEmpty then s else s.updInst c i.id (fun j => { j with buf := keepBytes later as mem j.buf })
          .done (s.spWrite c (m.addr 0 n + lo) bytes)

/-- `SPCOPY` (R90). -/
def State.runSpcopy (s : State) (c : CoreId) (m : MacroOp) (n lo hi : Nat) : Part2 :=
  let here := (c, m.addr 0 n + lo)
  let there := (spPeer c m, m.addr 1 n + lo)
  let (src, dst) := if mf m.word 42 42 = 0 then (here, there) else (there, here)
  let (s, bad) := s.spCheck src.1 src.2 (hi - lo)
  match bad with
  | some b => .stop s b.1 b.2
  | none => .done (s.spWrite dst.1 dst.2 ((s.core src.1).spBytes src.2 (hi - lo)))

/-- `TRAV` (R91, R159 to R164): its work goes by beats, or by turns; each part reads the source bytes that it moves. -/
def State.runTrav (s : State) (c : CoreId) (i : Inst) (lo hi : Nat) : Part2 :=
  let m := i.op
  let perm := mf m.word 43 38
  let e := elemWidth (mf m.word 52 49) / 8
  let routes := if perm = 63 then (List.range 512).map (travRoute i.route) else []
  let moves := (List.range (hi - lo)).map (fun k =>
    let d := travDest perm e m.d (lo + k)
    (d, m.addr 1 i.n + travFrom perm e m.d routes d))
  let (s, bad) := s.spCheckIf c (fun w => moves.any (fun p => p.2 / 4 = w))
  match bad with
  | some b => .stop s b.1 b.2
  | none =>
    let sp := (s.core c).spAt 0
    .done (s.spWriteTbl c (moves.foldl (fun t p => Tbl.ins (m.addr 0 i.n + p.1) (sp p.2) t) []))

/-! ### The ME (R98 to R102, R114, R140) -/

/-- Steps of K whose values one chunk of an `MMA` operand holds (R99). -/
def stepsPerChunk : Nat := chunkValues / 128

/-- The format of operand `o` of an `MMA`. -/
def mmaFmt (m : MacroOp) (o : Nat) : Nat := if o = 0 then mf m.word 46 43 else mf m.word 50 47

/-- SP offset of chunk `j` of a Contour operand, by the headers before it. -/
def Core.chunkAt (x : Core) (a : Nat) : Nat → Nat
  | 0 => a
  | j + 1 => x.chunkAt a j + chunkLenAt (x.spAt 0) (x.chunkAt a j)

/-- The bytes of SP that an operand's steps `lo` to `hi - 1` come from: elements, then scales, or whole chunks (R99, R140). -/
def mmaRange (x : Core) (m : MacroOp) (n o lo hi : Nat) : List (Nat × Nat) :=
  let fmt := mmaFmt m o
  let a := m.addr o n
  if isContour fmt then
    let b := x.chunkAt a (lo / stepsPerChunk)
    [(b, x.chunkAt a (cdiv hi stepsPerChunk) - b)]
  else
    let at' (k : Nat) : Nat := 128 * k * rawWidth fmt / 8
    (a + at' lo, at' hi - at' lo) ::
      (if isMx fmt then [(a + at' (mmaK m) + 4 * lo, 4 * (hi - lo))] else [])

/-- An `MMA` operand over the steps `lo` to `hi - 1` of K: its elements, those of earlier steps absent, and its scales; or the
chunk that is malformed, the first of those that these steps need (R99, R140). -/
def mmaOperand (x : Core) (m : MacroOp) (n o lo hi : Nat) : Except Nat TileOp :=
  let fmt := mmaFmt m o
  let a := m.addr o n
  if isContour fmt then
    let j := lo / stepsPerChunk
    let r := (List.range (cdiv hi stepsPerChunk - j)).foldl (fun (r : Except Nat (List Nat)) i => match r with
      | .error e => .error e
      | .ok vs =>
        let b := x.chunkAt a (j + i)
        match contourExpand (fmt = 0xB) (x.spBytes b (chunkLenAt (x.spAt 0) b)) with
        | some ws => .ok (vs ++ ws)
        | none => .error (j + i)) (.ok (List.replicate (j * chunkValues) 0))
    match r with
    | .error e => .error e
    | .ok vs => .ok (TileOp.mk' fmt vs [])
  else
    let bs := x.spBytes a (mmaBytes x m n o)
    let eb := 128 * mmaK m * rawWidth fmt / 8
    .ok (TileOp.mk' fmt (unpackAll (rawWidth fmt) (bs.take eb)) (bs.drop eb))

/-- The malformed chunk that stops an `MMA` over the steps `lo` to `hi - 1`: its number and its header's SP offset. Of two
operands, the one whose bad chunk comes first in K; at the same step, operand A's (DESIGN CHOICE, log 85). -/
def mmaMalformed (x : Core) (m : MacroOp) (n lo hi : Nat) : Option (Nat × Nat) :=
  let bad (o : Nat) : Option (Nat × Nat) := match mmaOperand x m n o lo hi with
    | .error j => some (j, x.chunkAt (m.addr o n) j)
    | .ok _ => none
  match bad 0, bad 1 with
  | some a, some b => if b.1 < a.1 then some b else some a
  | some a, none => some a
  | none, b => b

/-- `MMA` over the steps `lo` to `hi - 1` of K; after a cut it accumulates (R114). -/
def State.runMma (s : State) (c : CoreId) (m : MacroOp) (n lo hi : Nat) : Part2 :=
  let inRange (x : Core) (o w : Nat) : Bool := (mmaRange x m n o lo hi).any (fun r => r.1 < 4 * w + 4 && 4 * w < r.1 + r.2)
  let x0 := s.core c
  let (s, badA) := s.spCheckIf c (inRange x0 0)
  let (s, badB) := s.spCheckIf c (inRange x0 1)
  let x := s.core c
  let accum : Bool := mf m.word 58 58 = 1 || lo ≠ 0
  match badA <|> badB with
  | some b => .stop s b.1 b.2
  | none =>
    match (if accum then x.accCheck (m.addr 2 n) 65536 else none) with
    | some a => .fault s 0x30 a
    | none =>
      match mmaOperand x m n 0 lo hi, mmaOperand x m n 1 lo hi with
      | .ok a, .ok b =>
        .done (s.accWrite c (m.addr 2 n)
          (mmaTile (mf m.word 46 43) (mf m.word 50 47) a b (lo / 32) (hi / 32) accum (x.accBytes (m.addr 2 n) 65536)))
      | _, _ => .stop s 0x32 (((mmaMalformed x m n lo hi).map Prod.snd).getD 0)

/-- `MDRAIN` (R101). A parity fault in the tile leaves what was written before the bad element, in its order (R112). -/
def State.runDrain (s : State) (c : CoreId) (m : MacroOp) (n : Nat) : Part2 :=
  let x := s.core c
  let tile := x.accBytes (m.addr 0 n) 65536
  let mult := if mf m.word 45 45 = 1 then some (m.xs.getD 0 0) else none
  let out := drainTile (mf m.word 41 38) (mf m.word 42 42 = 1) (mf m.word 43 43 = 1) s.freeCtr mult tile
  match x.accCheck (m.addr 0 n) 65536 with
  | some a =>
    let good := (a - m.addr 0 n) / 4 / 32 * 32 * elemWidth (mf m.word 41 38) / 8
    .fault ((s.draw 16384).spWrite c (m.addr 1 n) (out.take (Config.landed s.freeCtr % (good + 1)))) 0x30 a
  | none =>
    let s := (s.draw 16384).spWrite c (m.addr 1 n) out
    -- a cleared tile leaves the live mask (R346)
    .done (if mf m.word 44 44 = 1 then
        (s.accWrite c (m.addr 0 n) (List.replicate 65536 0)).updCore c (fun x => { x with
          accLive := if m.addr 0 n % 65536 = 0 then x.accLive &&& ~~~(tileMask (m.addr 0 n) 65536) else x.accLive })
      else s)

/-! ### The VE (R103 to R105, R113) -/

/-- Bytes of a VEC operand's elements `lo` to `hi - 1`. -/
def VecArg.range (v : VecArg) (lo hi : Nat) : Nat × Nat :=
  (v.addr + lo * elemWidth v.fmt / 8, cdiv ((hi - lo) * elemWidth v.fmt) 8)

/-- Read a VEC operand's elements `lo` to `hi - 1`, and what is wrong with them: reason and address. -/
def State.vecRead (s : State) (c : CoreId) (v : VecArg) (lo hi : Nat) : State × List Byte × Option (Nat × Nat) :=
  let r := v.range lo hi
  if v.acc then (s, (s.core c).accBytes r.1 r.2, ((s.core c).accCheck r.1 r.2).map (fun a => (0x30, a)))
  else
    let (s, bad) := s.spCheck c r.1 r.2
    (s, (s.core c).spBytes r.1 r.2, bad)

/-- Elements of an operand that stand for the source elements `lo` to `hi - 1`: one each, or one for each group. -/
def vecSpan (per : Bool) (g lo hi : Nat) : Nat × Nat := if per then (lo / g, cdiv hi g) else (lo, hi)

/-- A VEC operation over its source elements `lo` to `hi - 1`. -/
def State.runVec (s : State) (c : CoreId) (m : MacroOp) (n lo hi : Nat) : Part2 :=
  let op := m.op
  let (dst, srcs) := vecArgs m n
  let g := max 1 (m.x 1)
  let dSpan := vecSpan (vecReduces op) g lo hi
  let bSpan := vecSpan (vecGroups op) g lo hi
  let noArg : VecArg := ⟨true, 0, 0, 0⟩
  let a := srcs.getD 0 noArg
  let b := srcs.getD 1 noArg
  let (s, aB, aBad) := s.vecRead c a lo (if srcs.isEmpty then lo else hi)
  let (s, bB, bBad) := s.vecRead c b bSpan.1 (if srcs.length < 2 then bSpan.1 else bSpan.2)
  let (s, dB, dBad) := s.vecRead c dst lo (if op = 0x83 then hi else lo)
  match aBad <|> bBad <|> dBad with
  | some e => .stop s e.1 e.2
  | none =>
    let out := vecOut op a.fmt dst.fmt g (m.xs.getD 1 0) (mf m.word 60 60 = 1) (mf m.word 61 61 = 1) s.freeCtr (hi - lo)
      dB aB bB dst.fmt b.fmt
    let r := dst.range dSpan.1 dSpan.2
    let s := s.draw (hi - lo)
    let elems := out.take r.2
    let scales := out.drop r.2
    let s := if dst.acc then s.accWrite c r.1 elems else s.spWrite c r.1 elems
    .done (if scales.isEmpty then s
      else s.spWrite c (dst.addr + cdiv (dst.n * elemWidth dst.fmt) 8 + lo / 32) scales)

/-! ### All of them -/

/-- Units of an instance's work: bytes of SP, steps of K, source elements; 1 for an operation that is not cut within. -/
def State.workLen (s : State) (c : CoreId) (i : Inst) : Nat :=
  let m := i.op
  if m.idle then 0
  else match m.op with
    | 0x01 => s.moveLen c m i.n i.buf
    | 0x02 => s.moveLen c m i.n i.buf
    | 0x03 => m.x 0 * pickRow m.d
    | 0x04 => m.x 0
    | 0x08 => travBytes m
    | 0x10 => s.moveLen c m i.n i.buf
    | 0x40 => mmaK m
    | o => if o < 0x80 then 1 else m.x 0

/-- The part of an instance's work from `lo` to `hi`; `last` when it is the end; a part that stops at an operand has written
nothing yet. -/
def State.runRaw (s : State) (c : CoreId) (i : Inst) (lo hi : Nat) (last : Bool) : Part2 :=
  let m := i.op
  if m.idle then .done s
  else match m.op with
    | 0x01 => if m.remote then s.runRemoteLoad c i lo hi last else s.runLoad c i lo hi last
    | 0x02 => if m.remote then .done s else if m.reduces then s.runReduce c i lo hi else s.runStore c i lo hi
    | 0x03 => s.runPick c i lo hi last
    | 0x04 => s.runSpcopy c m i.n lo hi
    | 0x08 => s.runTrav c i lo hi
    | 0x10 => if m.remote then .done s else s.runReduce c i lo hi
    | 0x40 => s.runMma c m i.n lo hi
    | 0x41 => s.runDrain c m i.n
    | o => if o < 0x80 then .done s else s.runVec c m i.n lo hi

/-- Steps of an instance's work at which a fault may have stopped it (R112): beats, turns, Datum blocks, whole groups. -/
def MacroOp.grain (m : MacroOp) : Nat :=
  match m.op with
  | 0x08 => if mf m.word 43 38 = 1 then 4096 else 512
  | 0x40 => 32
  | o => if 0x98 ≤ o then max 1 (m.x 1) else if 0x80 ≤ o then 32 else if m.datum then 4096 else 64

/-- The furthest of the first `k` steps of a part from `lo` that the part reaches with no fault. -/
def State.goodEnd (s : State) (c : CoreId) (i : Inst) (lo hi : Nat) : Nat → Nat
  | 0 => lo
  | k + 1 =>
    let p := lo + i.op.grain * (k + 1)
    if p ≤ hi then (match s.runRaw c i lo p false with
      | .done _ => p
      | _ => s.goodEnd c i lo hi k)
    else s.goodEnd c i lo hi k

/-- How far a part that stops at an operand has written (R112): as far as its free draw goes, but never to the bad operand. The
values that an expander has delivered before a malformed chunk stay in use (R140). -/
def State.stopEnd (s : State) (c : CoreId) (i : Inst) (lo hi : Nat) : Nat :=
  match (if i.op.op = 0x40 then mmaMalformed (s.core c) i.op i.n lo hi else none) with
  | some (j, _) => max lo (s.goodEnd c i lo (stepsPerChunk * j) (stepsPerChunk * j / i.op.grain))
  | none => s.goodEnd c i lo hi (Config.landed s.freeCtr % ((hi - lo) / i.op.grain + 1))

/-- The part of an instance's work from `lo` to `hi`; `last` when it is the end. A fault leaves what was written before it
(R112). -/
def State.runPart (s : State) (c : CoreId) (i : Inst) (lo hi : Nat) (last : Bool) : Part2 :=
  match s.runRaw c i lo hi last with
  | .stop s' r a =>
    let p := s'.stopEnd c i lo hi
    if p = lo then .fault (s'.draw 1) r a
    else match (s'.draw 1).runRaw c i lo p false with
      | .done s'' => .fault s'' r a
      | _ => .fault s' r a
  | r => r

end Sys2Proof.Machine
end

