-- ==== Sys2Proof/Machine/MacroDone.lean ====
section
/-! DEFINITION. The completion of a macro-operation's instance (R65, R96, R109), its cut points (R113, R114), the wait limit
(R68), and what its home does for it (R191, R294 to R300). -/

namespace Sys2Proof.Machine

/-! ### Completion -/

/-- An operation has no instance left to start or to run (R55, R59). -/
def Core.opDone (x : Core) (e : Engine) (num : Nat) : Bool :=
  !((x.queueOf e).any (fun m => m.num = num)) && !(x.runs.any (fun i => i.op.num = num))

/-- The acquire that ends a `WAIT`, a `SEMTAKE` or a `FENCE` with `ACQ` (R96, R282): above CORE scope it discards the
cluster's stream-cache copies. -/
def State.acquireOf (s : State) (c : CoreId) (m : MacroOp) : State :=
  if (m.op = 0x19 || m.op = 0x1B || (m.op = 0x1A && mf m.word 42 42 = 1)) && 1 ≤ mf m.word 40 38 then
    s.updCluster c.cluster Cluster.acquire
  else s

/-- An instance is complete: its last effects, its token, its trace record; the share may be complete too (R65, R67,
R73, R109). -/
def State.finishInst (s : State) (c : CoreId) (i : Inst) : State :=
  let m := i.op
  let s := s.acquireOf c m
  let s := if m.op = 0x11 && mf m.word 43 43 = 1 then
      s.spWrite c (m.addr 2 i.n) (leBytes (atomSize m) i.ret.toNat)
    else s
  let s := s.updCore c (fun x => { x with runs := x.runs.filter (fun j => j.id ≠ i.id) })
  let whole := (s.core c).opDone i.eng m.num
  let s := if whole then s.trace c 3 (Engine.slot i.eng) m.pc.toNat m.mtag m.count else s
  let s := if mf m.word 14 14 = 1 && (mf m.word 15 15 = 1 || whole) then
      s.signalToken c (mf m.word 13 8) (Engine.slot i.eng) m.pc.toNat m.mtag
    else s
  (s.regate c).shareEnd c

/-- A stopped instance of a core by its number (R69, R113). -/
def Core.stopped (x : Core) (n : Nat) : Option Stopped := x.stopping.find? (fun j => j.inst.id = n)

/-- Drop a stopped instance: it has reached its cut point, its end or a fault (R69, R113). -/
def State.dropStopped (s : State) (c : CoreId) (n : Nat) : State :=
  (s.updCore c (fun x => { x with stopping := x.stopping.filter (fun j => j.inst.id ≠ n) })).regate c

/-- Do something for a stopped instance as though its share still stood on its core, and put the core's own share back after it
(R69 step 3). The core itself stays stopped, so that no fault of the instance is recorded (R76). -/
def State.asShare (s : State) (c : CoreId) (j : Stopped) (f : State → State) : State :=
  let x := s.core c
  let s := f (s.updCore c (fun x => { x with share := some j.share, runs := [j.inst], stopping := [] }))
  let now := ((s.core c).inst j.inst.id).map (fun i => Stopped.mk j.share i)
  s.updCore c (fun y => { y with
    share := x.share
    runs := x.runs
    stopping := x.stopping.filterMap (fun k => if k.inst.id = j.inst.id then now else some k) })

/-- What is left of a stopped instance's part: its writes, whatever ended it; a read of poison does not park it. -/
def Part2.left (s : State) : Part2 → State
  | .done s' => s'
  | .later _ => s
  | .fault s' _ _ => s'
  | .stop s' _ _ => s'
  | .park s' _ _ => s'

/-- How a part of an instance's work ends for its core. -/
def State.endPart (s : State) (c : CoreId) (i : Inst) (r : Part2) (ok : State → State) : State :=
  match r with
  | .done s' => ok s'
  | .later s' => s'
  | .fault s' reason a => s'.haltOp c i.eng i.op i.n reason a
  | .stop s' reason a => s'.haltOp c i.eng i.op i.n reason a
  | .park s' pl a =>
    let x := s.core c
    let q := match x.share with | some sh => sh.q | none => 0
    (s'.updInst c i.id (fun j => { j with st := .parked })).park c.p x.ctx (.inst c i.id) pl a x.wtag (s.evqOf q)

/-- Operations that their engine performs by itself; the others are made ready by a home or a peer. -/
def MacroOp.direct (m : MacroOp) : Bool :=
  m.idle || (!m.remote && !m.reduces && m.op ≠ 0x11 && !m.orders)

/-- An instance may complete: it is running if its engine performs it, ready if a home or a peer does; and no earlier
instance of its operation is still running (R64). -/
def Core.mayEnd (x : Core) (i : Inst) : Bool :=
  (i.st = .ready || (i.st = .running && i.op.direct))
    && !((x.runs.takeWhile (fun j => j.id ≠ i.id)).any (fun j => j.op.num = i.op.num))

/-- A core's engines run: its context is RUNNING, or is being cut, and its clock runs (R27, R349). -/
def State.enginesRun (s : State) (c : CoreId) : Bool :=
  let x := s.core c
  match x.share with
  | some sh => x.st = .running && ((s.ctx c.p sh.ctx).st = .running || (s.ctx c.p sh.ctx).st = .saving)
      && (s.part c.p).pll = .running
  | none => false

/-- A stopped instance performs a part of its work, up to its cut point or its end, and is dropped; one that a line of the host
or an earlier write holds up waits. -/
def State.stoppedPart (s : State) (c : CoreId) (j : Stopped) (hi : Nat → Nat) (last : Bool) : State :=
  let at' := s.updCore c (fun x => { x with share := some j.share })
  let top := hi (at'.workLen c j.inst)
  if !last && top ≤ j.inst.progress then s.dropStopped c j.inst.id
  else
    match at'.runPart c j.inst j.inst.progress top last with
    | .later _ => s.asShare c j (fun s => match s.runPart c j.inst j.inst.progress top last with
      | .later s' => s'
      | _ => s)
    | _ => (s.asShare c j (fun s => (s.runPart c j.inst j.inst.progress top last).left s)).dropStopped c j.inst.id

/-- The end of a stopped instance whose home has answered: an `ATOM` writes the word it read (R93). -/
def State.stoppedReady (s : State) (c : CoreId) (j : Stopped) : State :=
  let m := j.inst.op
  (if m.op = 0x11 && mf m.word 43 43 = 1 then s.spWrite c (m.addr 2 j.inst.n) (leBytes (atomSize m) j.inst.ret.toNat)
    else s).dropStopped c j.inst.id

/-- `MACRO_COMPLETE` (R109): nothing while the instance cannot complete. In a core cycle in which a token wait has been met, a
token is signalled no more (R66). An instance that its core's halt has stopped ends where it stands (R69, R113). -/
def execMacroComplete (c : CoreId) (n : Nat) (s : State) : Host.Outcome State Fault Refusal :=
  let x := s.core c
  match x.inst n with
  | some i =>
    if s.enginesRun c && x.mayEnd i && (x.tokPhase = 0 || mf i.op.word 14 14 = 0) then
      if i.st = .ready && !(i.op.op = 0x01) then .next (s.finishInst c i)
      else
        .next (s.endPart c i (s.runPart c i i.progress (s.workLen c i) true) (fun s => s.finishInst c i))
    else .next s
  | none => match x.stopped n with
    | some j =>
      if (s.part c.p).pll ≠ .running then .next s
      else if j.inst.st = .ready then .next (s.stoppedReady c j)
      else if j.inst.st = .running && j.inst.op.direct then .next (s.stoppedPart c j id true)
      else .next s
    | none => .next s

/-! ### Cut points (R113, R114) -/

/-- A place at which an instance may be cut: how much of its work is done there (R113, R164). -/
def cutAt (m : MacroOp) (amount : Nat) : Bool :=
  match m.op with
  | 0x40 => amount % 1024 = 0
  | o =>
    if o < 0x11 then amount % 4096 = 0
    else if 0x98 ≤ o then
      let g := max 1 (m.x 1)
      amount % g = 0 && decide (amount % 4096 < g)
    else if 0x80 ≤ o then amount % 4096 = 0
    else amount = 0

/-- A stopped instance reaches a cut point (R69 step 3, R113): what it does up to it stays done. An `ATOM` that its home has not
performed is cut between instances. -/
def State.stoppedCut (s : State) (c : CoreId) (j : Stopped) (amount : Nat) : State :=
  let i := j.inst
  let m := i.op
  let len := (s.updCore c (fun x => { x with share := some j.share })).workLen c i
  if (s.part c.p).pll ≠ .running then s
  else if (i.st = .running && m.direct) || (i.st = .waiting && m.reduces && !m.remote) then
    if cutAt m amount && decide (i.progress ≤ amount) && decide (amount < len) then s.stoppedPart c j (fun _ => amount) false
    else s
  else if i.st = .waiting && amount = 0 && m.op = 0x11 then s.dropStopped c i.id
  else s

/-- `CUT_POINT_REACHED` (R113, R114): while its context is being saved, a running instance performs its work up to a cut
point and stops there. A wait is cut at any moment before its condition holds, and its registration is withdrawn
(R349); a remote `SIGNAL` whose flag add is out is cut behind its release. An instance of a core that has halted reaches its
cut point in the same way and is gone (R69 step 3). -/
def execCutPointReached (c : CoreId) (n amount : Nat) (s : State) : Host.Outcome State Fault Refusal :=
  let x := s.core c
  match x.inst n with
  | some i =>
    let m := i.op
    let saving := (s.ctx c.p x.ctx).st = .saving
    if !(saving && s.enginesRun c) then .next s
    else if (m.op = 0x19 || m.op = 0x1B) && i.st = .waiting then
      .next (({ s with waits := s.waits.filter (fun w => w.agent ≠ HomeAgent.inst c n) }).updInst c n (fun j => { j with st := .cut }))
    else if i.st = .running || (i.st = .waiting && m.reduces && !m.remote) then
      if cutAt m amount && decide (i.progress ≤ amount) && decide (amount < s.workLen c i) then
        let r := if amount = i.progress then .done s else s.runPart c i i.progress amount false
        .next (s.endPart c i r (fun s => s.updInst c n (fun j => { j with st := .cut, progress := amount })))
      else .next s
    else if i.st = .waiting && amount = 0 && (m.op = 0x11 || (m.op = 0x18 && m.remote && !s.draining c.p (s.instWaiter c n))) then
      .next (s.updInst c n (fun j => { j with st := .cut }))
    else .next s
  | none => match x.stopped n with
    | some j => .next (s.stoppedCut c j amount)
    | none => .next s

/-! ### The wait limit (R68) -/

/-- A `WAITT` that holds issue has waited more than the limit (R68). -/
def Core.waittOver (x : Core) : Option Hold :=
  match x.hold with
  | some h => if h.tok ≠ 0xFF && decide (x.waitLimit.toNat * 1024 < h.cycles) then some h else none
  | none => none

/-- A `WAIT` or `SEMTAKE` that has waited more than the limit (R68, R96). -/
def Core.waitOver (x : Core) : Option Inst :=
  x.runs.find? (fun i => (i.op.op = 0x19 || i.op.op = 0x1B) && i.st = .waiting && decide (x.waitLimit.toNat * 1024 < i.held))

/-- `WAIT_TIMEOUT` (R68, R70): a limit is set, and a `WAITT`, a `WAIT` or a `SEMTAKE` has waited more than `CO_WAIT_LIMIT` × 1,024
core cycles; the halt has `MORE` where both a `WAITT` and an instance have. R70 gives no register file and number for this
halt: a `WAITT`'s halt records FILE 5, its token as REG, and SLOT 0 (DESIGN CHOICE, log 79). -/
def execWaitTimeout (c : CoreId) (s : State) : Host.Outcome State Fault Refusal :=
  let x := s.core c
  if x.waitLimit = 0 || !(match x.share with
      | some sh => x.st = .running && (s.ctx c.p sh.ctx).st = .running
      | none => false) then .next s
  else
    match x.waittOver, x.waitOver with
    | some h, w => .next (s.haltCore c ⟨0x40, 0, w.isSome, 5, h.tok, 0, x.pc.toNat, x.mtag, 0, 0⟩)
    | none, some i => .next (s.haltOp c i.eng i.op i.n 0x40 (i.op.addr 0 i.n))
    | none, none => .next s

/-! ### Home operations of instances (R93, R94, R96, R190, R297 to R300) -/

/-- The result of an `ATOM` (R94): the word after it. -/
def atomResult (aop ty old opnd new : Nat) : Nat :=
  let low (f : Nat) : Nat := combine aop f old opnd
  match aop, ty with
  | 3, _ => Nat.land old opnd
  | 4, _ => Nat.lor old opnd
  | 5, _ => Nat.xor old opnd
  | 6, _ => opnd
  | 7, _ => if old = opnd then new else old
  | _, 0 => low 0xC
  | _, 1 => low 0
  | _, _ => old - old % 65536 + combine aop 1 (old % 65536) (opnd % 65536)

/-- An `ATOM` at its home. -/
def State.homeAtom (s : State) (c : CoreId) (i : Inst) (k : Nat) : State :=
  let m := i.op
  let z := atomSize m
  let (s, bad) := s.spCheck c (m.addr 1 i.n) (atomOpBytes m)
  match bad with
  | some b => s.haltOp c i.eng m i.n b.1 b.2
  | none =>
    let x := s.core c
    let opnd := leNat (x.spBytes (m.addr 1 i.n) z)
    let new := leNat (x.spBytes (m.addr 1 i.n + 8) 8)
    let old := s.wordAt k z
    let s := (s.putWord k z (atomResult (mf m.word 47 44) (mf m.word 49 48) old opnd new)).countAtomic k
    let s := s.updInst c i.id (fun j => { j with st := .ready, ret := BitVec.ofNat 64 old })
    (s.updCluster c.cluster (fun y => y.dropGroups [k / 64])).retest

/-- Register a wait at the word's home, once (R297). -/
def State.register (s : State) (w : WaitReg) : State :=
  if s.waits.any (fun v => v.agent = w.agent && v.lane = w.lane && v.laneIdx = w.laneIdx) then s
  else { s with waits := s.waits ++ [w] }

/-- A semaphore passes to the oldest waiter, or is freed (R300). A waiter whose context's switch is deferred is passed
over (R352). -/
def State.giveSem (s : State) (k : Nat) : State :=
  match s.waits.find? (fun w => w.place = k && w.what = .sem && !(s.ctx w.part w.ctx).deferred) with
  | some w => (s.grantSem w).retest
  | none => (s.putWord k 8 (semFreed (s.wordAt k 8))).retest

/-- A flag or semaphore operation at its home (R96, R294 to R300). -/
def State.homeFlag (s : State) (c : CoreId) (i : Inst) (k : Nat) : State :=
  let m := i.op
  let x := (s.core c).ctx
  let v := s.wordAt k 8
  let a := BitVec.ofNat 48 (m.addr 0 i.n)
  let ready (s : State) : State := s.updInst c i.id (fun j => { j with st := .ready })
  match m.op with
  | 0x18 => ready ((s.addFlag k (m.x 0)).dropWord c k)
  | 0x19 =>
    let t := m.x 0 + 4294967296 * m.x 1
    if t ≤ v then ready (s.countAtomic k)
    else (s.register ⟨.inst c i.id, c.p, x, 0, 0, k, a, .flag (BitVec.ofNat 64 t)⟩)
  | 0x1B =>
    match semFault v with
    | some r => s.haltOpWith c i.eng m i.n r.1 a.toNat r.2
    | none =>
      if bit v 0 || (s.ctx c.p x).deferred then s.register ⟨.inst c i.id, c.p, x, 0, 0, k, a, .sem⟩
      else ready ((((s.takeSem c.p x k a).countAtomic k).dropWord c k).retest)
  | _ =>
    if semBad v || !bit v 0 || bits v 13 8 ≠ ctxNo c.p x then s.haltOp c i.eng m i.n 0x14 a.toNat
    else
      let s := s.updCtx c.p x (fun y => { y with held := y.held.filter (fun h => h.1 ≠ k) })
      -- a deferred switch goes on once its context holds no semaphore (R352)
      (ready (((s.giveSem k).countAtomic k).dropWord c k)).schedule c.p

/-- The flag, semaphore or atomic operation of an instance, its release done, at the home of its word. A poisoned word halts the
core (R397), but a `WAIT` for a flag in a SHARED_RO region is parked on it (R112, R399). -/
def State.homeWord (s : State) (c : CoreId) (i : Inst) : State :=
  let m := i.op
  let n := i.id
  let size := if m.op = 0x11 then atomSize m else 8
  match s.access c.p (s.core c).ctx (addrRun (m.addr 0 i.n) size) (if m.op = 0x19 then Region.homed else Region.atomicOk) with
  | .error b => s.haltOp c i.eng m i.n b.1 b.2
  | .ok ts =>
    if m.op = 0x11 && s.mustFollow c n ts then s
    else match s.heldUp c.p (m.op ≠ 0x19) ts with
      | some s => s
      | none =>
        let (s, bad) := s.poisonIn (addrRun (m.addr 0 i.n) size) ts
        match bad, (placesOf ts).head? with
        | none, some (.dram k) =>
          let s := if m.op = 0x18 then s else s.accessLines (m.op ≠ 0x19) true ts
          if m.op = 0x11 then s.homeAtom c i k else s.homeFlag c i k
        | some e, _ => if e.2.2 then s.endPart c i (.park s e.2.1 e.1) id else s.haltOp c i.eng m i.n 0x32 e.1
        | _, _ => s

/-- What the home slice does for a running instance (R191): a reduction, an `ATOM`, or a flag or semaphore operation whose
release is done; and the same for one that its core's halt has stopped (R69, R113). -/
def State.homeInst (s : State) (c : CoreId) (n : Nat) : State :=
  match (s.core c).inst n with
  | some i =>
    let m := i.op
    if i.st ≠ .waiting || m.remote || !s.enginesRun c || m.op = 0x1A then s
    else if m.reduces then
      s.endPart c i (s.runPart c i i.progress (s.workLen c i) true) (fun s => s.updInst c n (fun j => { j with st := .ready }))
    else if s.draining c.p (s.instWaiter c n) then s
    else s.homeWord c i
  | none => match (s.core c).stopped n with
    | none => s
    | some j =>
      let m := j.inst.op
      if j.inst.st ≠ .waiting || m.remote || (s.part c.p).pll ≠ .running then s
      else if m.reduces then s.stoppedPart c j id true
      else s.asShare c j (fun s => s.homeWord c j.inst)

end Sys2Proof.Machine
end

