-- ==== Sys2Proof/Machine/Clock.lean ====
section
/-! DEFINITION. The clocks of a partition and its gates (R23 to R28), and what holds a core, a packet and a partition: the
conditions of the yield rule (R342) and of the deadlock watchdog (R306). -/

namespace Sys2Proof.Machine

/-! ### Gates (R24) -/

/-- An engine has work, and the clock that its gate passes runs. -/
def State.wakeable (s : State) : Gated → Bool
  | .me c => (!(s.core c).matQ.isEmpty || (s.core c).works .mat (fun _ => true)) && (s.part c.p).pll = .running
  | .ve c => (!(s.core c).vecQ.isEmpty || (s.core c).works .vec (fun _ => true)) && (s.part c.p).pll = .running
  | .dma cl => (coresOf cl).any (fun c => !(s.core c).dmaQ.isEmpty || (s.core c).works .dma (fun _ => true))
      && (s.part cl.p).pll = .running
  | .trav cl => (coresOf cl).any (fun c => (s.core c).dmaQ.any (fun m => m.op = 0x08)
      || (s.core c).works .dma (fun m => mop m.word = 0x08)) && (s.part cl.p).pll = .running
  | .vcore k _ => !(s.stack k).queue.isEmpty
  | .bankUnit u => (s.unit u).inRun || !(s.unit u).program.isEmpty

/-! ### The core PLL (R26, R27) -/

/-- An engine of a partition is busy: a core runs a share, or a stack command runs. -/
def State.partBusy (s : State) (p : Fin 4) : Bool :=
  (coresOfPart p).any (fun c => (s.core c).st = .running || !(s.core c).stopping.isEmpty) || (stacksOf p).any (fun k => !(s.stack k).queue.isEmpty)

/-- A context of the partition exists. -/
def Part.hasContext (q : Part) : Bool := (List.finRange 16).any (fun x => (q.ctx x).st ≠ .free)

/-- `IDLE_DELAY_EXPIRY` (R27). -/
def execIdleDelayExpiry (p : Fin 4) (s : State) : Host.Outcome State Fault Refusal :=
  let q := s.part p
  if q.pll = .running && !q.hasContext && !s.partBusy p && q.idleDelay ≠ 0 then
    .next (s.setPart p { q with pll := .stopping })
  else .next s

/-- `STOP_DRAIN_COMPLETE` (R27). -/
def execStopDrainComplete (p : Fin 4) (s : State) : Host.Outcome State Fault Refusal :=
  let q := s.part p
  if q.pll = .stopping then .next (s.setPart p { q with pll := .stopped }) else .next s

/-- `ARRIVAL` (R27). -/
def execArrival (p : Fin 4) (a : ArrivalKind) (s : State) : Host.Outcome State Fault Refusal := .next (s.arrive p a)

/-- Run a command that the HKC has for a partition's sequencer: an arrival there, held while the PLL starts (R26, R27). -/
def mgmtTo (s : State) (p : Fin 4) (k : Packet) (bad : Option (Status × Word)) (body : State → State) :
    Host.Outcome State Fault Refusal :=
  if s.mcqReady && bad.isNone && ((s.part p).pll = .stopped || (s.part p).pll = .starting) then
    .next ({ s with hi := { s.hi with mcqWait := true } }.arriveHeld p (.command k))
  else mgmt s k bad (fun s => body (s.arrive p .hkcCommand))

/-! ### What holds work (R306, R342) -/

/-- The value of a flag or semaphore of a context; none where its address leads to no stack memory. -/
def State.flagNow (s : State) (p : Fin 4) (x : Fin 16) (a : Nat) : Option Nat :=
  match (s.translate p x a).map Xlat.place with
  | some (.dram k) => some (s.wordAt k 8)
  | _ => none

/-- A `WAIT` or `SEMTAKE` of a context is unmet: its flag is below target, or its semaphore is held. -/
def State.waitUnmet (s : State) (p : Fin 4) (x : Fin 16) (i : Inst) : Bool :=
  match s.flagNow p x (i.op.addr 0 i.n) with
  | none => false
  | some v => match i.op.op with
    | 0x19 => decide (v < i.op.x 0 + 4294967296 * i.op.x 1)
    | 0x1B => bit v 0
    | _ => false

/-- A `FLAG_WAIT`'s flag is below its target. -/
def State.flagUnmet (s : State) (k : Pkt) : Bool :=
  !k.effect && k.status = .ok && (match s.flagNow k.part k.ctx (pa k.pkt 8) with
    | some v => decide (v < pf k.pkt 16 8)
    | none => false)

/-- A running instance is held by an unmet `WAIT` or `SEMTAKE`, or, with `links`, by what links have still to bring. -/
def State.instHeld (s : State) (c : CoreId) (links : Bool) (i : Inst) : Bool :=
  i.st = .waiting && (s.waitUnmet c.p (s.core c).ctx i || (links && s.awaiting c.p (s.instWaiter c i.id)))

/-- A token that an operation of the core has still to signal: all that it has are held by waits, so that waits feed it (R306). -/
def Core.feeds (x : Core) (t : Nat) : Bool :=
  (x.runs.map Inst.op ++ x.dmaQ ++ x.matQ ++ x.vecQ).any (fun m => mf m.word 14 14 = 1 && mf m.word 13 8 = t)

/-- An engine's queue can start nothing: it is empty, held back, or its head waits for a token that a wait feeds. -/
def Core.stuck (x : Core) (e : Engine) : Bool :=
  match x.queueOf e with
  | [] => true
  | m :: _ => !x.engineFree e
      || (mf m.word 22 22 = 1 && !m.waited && x.tok.get 0 (mf m.word 21 16) = 0 && x.feeds (mf m.word 21 16))

/-- A core's share is held only by instances of a kind: every instance is, no queue can start another, and issue has ended or waits
for room or for a token that one of them feeds. -/
def Core.heldBy (x : Core) (f : Inst → Bool) : Bool :=
  x.cur.isNone && x.inflight.isEmpty && !x.runs.isEmpty && x.runs.all f && [Engine.dma, .mat, .vec].all x.stuck
    && (x.ended || (match x.hold with | some h => h.tok = 0xFF || x.feeds h.tok | none => false))

/-- A running core is held only by such waits. -/
def State.coreHeld (s : State) (c : CoreId) (links : Bool) : Bool :=
  (s.core c).st = .running && (s.core c).heldBy (s.instHeld c links)

/-- The cores that hold a packet's shares while its context is out (R347). -/
def State.savedOf (s : State) (k : Pkt) : List Core :=
  ((s.ctx k.part k.ctx).saved.map SavedCore.core).filter (fun x => match x.share with | some sh => sh.of k | none => false)

/-- A core that is out is held only by unmet waits. -/
def State.savedHeld (s : State) (k : Pkt) (x : Core) : Bool :=
  x.heldBy (fun i => i.st = .cut && s.waitUnmet k.part k.ctx i)

/-- The waiter that a packet is. -/
def Pkt.waiter (k : Pkt) : Waiter := ⟨.packet ⟨k.q % 256, by omega⟩ k.i, k.part, k.ctx, k.lane, k.laneIdx⟩

/-- A taken packet is held only by such waits. -/
def State.pktHeld (s : State) (links : Bool) (k : Pkt) : Bool :=
  k.status = .ok && k.cmdsLeft = 0 && (match k.kind with
    | .flagWait => s.flagUnmet k
    | .step => k.joined < 3
    | .collective => links && !k.effect
    | .flagSet => links && s.awaiting k.part k.waiter
    | .fence => links && s.awaiting k.part k.waiter
    | .serveReq => links && s.awaiting k.part k.waiter
    | .pageServe => links && s.awaiting k.part k.waiter
    | _ => k.sharesLeft ≠ 0 && !((s.coresOfPkt k).isEmpty && (s.savedOf k).isEmpty)
        && (s.coresOfPkt k).all (fun c => s.coreHeld c links) && (s.savedOf k).all (s.savedHeld k))

/-- Every started packet of a context is held, and there is one (R342). -/
def State.ctxHeld (s : State) (p : Fin 4) (x : Fin 16) : Bool :=
  let ks := s.pktsOf p x
  !ks.isEmpty && ks.all (s.pktHeld true)

/-- The work queues of a partition that hold a packet which has not completed. -/
def State.openQueues (s : State) (p : Fin 4) : List (Nat × WorkQ) :=
  (s.wqs.filterMap (fun e => e.2.map (fun w => (e.1, w)))).filter (fun e => e.2.part = p && e.2.head ≠ e.2.tail)

/-- A queue is blocked (R306): its head is an unmet `FLAG_WAIT`, or it has started packets and each is held by flags and
semaphores alone (that it has some is DEDUCED, log 21). -/
def State.queueBlocked (s : State) (q : Nat) (w : WorkQ) : Bool :=
  let ks := s.pkts.filter (fun k => k.q = q && k.lane ≠ 4 && !k.done)
  (match s.pktAt q w.head 0 0 with
    | some k => k.kind = .flagWait && s.flagUnmet k
    | none => false)
    || (!ks.isEmpty && ks.all (s.pktHeld false))

/-- A request of the partition awaits a response, over a link or the host attach. A write on its way to the host counts
for every partition (log 21). -/
def State.requestsOut (s : State) (p : Fin 4) : Bool :=
  !s.cxlOut.isEmpty || (linksOf p).any (fun l =>
    let k := s.link l
    !k.ops.isEmpty || !k.reqWait.isEmpty || !k.drains.isEmpty)

/-- No engine of the partition is busy (R306). -/
def State.enginesIdle (s : State) (p : Fin 4) : Bool :=
  (coresOfPart p).all (fun c => (s.core c).st ≠ .running || s.coreHeld c false)
    && (stacksOf p).all (fun k => (s.stack k).queue.isEmpty)
    && (match (s.part p).cur with
      | some x => (s.ctx p x).st ≠ .saving && (s.ctx p x).st ≠ .restoring
      | none => true)

/-- Every condition of R306 holds. -/
def State.deadlocked (s : State) (p : Fin 4) : Bool :=
  let qs := s.openQueues p
  !qs.isEmpty && qs.all (fun e => s.queueBlocked e.1 e.2) && s.enginesIdle p && !s.requestsOut p

/-- The wait that holds a queue without a registration, its context being out (R307, R347): its head's, or the first of its packets'
cores that are out. -/
def State.waitOut (s : State) (q : Nat) : Word × Nat :=
  let ks := s.pkts.filter (fun k => k.q = q && k.lane ≠ 4 && !k.done)
  ((ks.findSome? (fun k =>
    if k.kind = .flagWait then (if s.flagUnmet k then some (k.wtag, pa k.pkt 8) else none)
    else (s.savedOf k).findSome? (fun x => (x.runs.find? (s.waitUnmet k.part k.ctx)).map (fun i => (x.wtag, i.op.addr 0 i.n)))))).getD (0, 0)

/-- The work tag and address of a queue's oldest unmet wait (R307). -/
def State.oldestWait (s : State) (q : Nat) : Word × Nat :=
  let mine (w : WaitReg) : Bool := match w.agent with
    | .packet p _ => p.val = q && w.lane ≠ 4
    | .inst c _ => match (s.core c).share with | some sh => sh.q = q | none => false
  match s.waits.find? mine with
  | none => s.waitOut q
  | some w =>
    let tag : Word := match w.agent with
      | .packet p i => ((s.pktAt p.val i w.lane w.laneIdx).map Pkt.wtag).getD 0
      | .inst c _ => (s.core c).wtag
    (tag, w.addr.toNat)

/-- `WATCHDOG_EXPIRY` (R306 to R308): the count has reached the period, and a report may be made. -/
def execWatchdogExpiry (p : Fin 4) (s : State) : Host.Outcome State Fault Refusal :=
  let q := s.part p
  if q.wdEn && q.wdArmed && s.deadlocked p && decide (q.wdPeriod.toNat ≤ q.wdCount.toNat) then
    let s := (s.openQueues p).foldl (fun s e =>
      let o := s.oldestWait e.1
      let ev := (((((mkEvent 0x0F 1 0).atPart p).withReason e.1).withAddr o.2).withWork o.1 e.2.evq.val)
      s.raise { ev with work := false }) s
    .next (s.updPart p (fun q => { q with wdArmed := false, wdReports := satAdd q.wdReports 1 }))
  else .next s

end Sys2Proof.Machine
end

