-- ==== Sys2Proof/Machine/Manage.lean ====
section
/-! DEFINITION. Management commands on partitions, contexts, regions, queues, roles and power (R31 to R39, R178, R179, R181,
R243, R340, R341, R361, R374, R380, R381), and what they share. -/

namespace Sys2Proof.Machine

/-! ### Checks shared by the commands (R379, R380) -/

/-- A condition of the allowed-state rules that fails. -/
def wrongIf (b : Bool) : Option (Status × Word) := if b then some (.wrongState, 0) else none
/-- The device state must be READY (R380). -/
def State.notReady (s : State) : Option (Status × Word) := wrongIf (s.hi.st ≠ .ready)
/-- A parameter that fails a check, by its offset (R378). -/
def badIf (cs : List (Nat × Bool)) : Option (Status × Word) := (firstBad cs).map (fun o => (.badParam, BitVec.ofNat 32 o))
/-- A host address that is not 64-byte aligned or not in [47:0] (R380). -/
def hostAddrBad (k : Packet) (o : Nat) : Nat × Bool := (o, decide (pa k o % 64 ≠ 0) || decide (pf k (o + 6) 2 ≠ 0))
/-- The context of a management packet. -/
def ctxAt (k : Packet) (o : Nat) : Fin 16 := ⟨pf k o 1 % 16, by omega⟩

/-- A command that cannot end for want of readable host data: a `WORK_FAULT` record and `FAILED` (R370, R400; the record is
DEDUCED, log 23). -/
def State.mgmtFail (s : State) (addr : Nat) : State :=
  let seq := BitVec.ofNat 32 s.evSeq.toNat
  (s.raise (((mkEvent 0x02 2 0).withReason 5).withAddr addr)).mgmtDone .failed seq

/-- Choose freely among the things of a list (log 3). -/
def State.choose {α : Type} (s : State) (l : List α) : Option α := l[Config.pick s.freeCtr % max 1 l.length]?

/-! ### Roles and power (R31 to R39) -/

/-- Compute share of a role in per cent, and its thin threshold (R32). -/
def roleShare : Nat → Nat
  | 0 => 75
  | 1 => 40
  | 2 => 55
  | 3 => 10
  | _ => 65
def roleThin : Nat → Nat
  | 0 => 4
  | 4 => 1
  | _ => 8

/-- Raise the stack side to its floor (R34), in units of 0.01 W. -/
def splitFloorS (v : Nat × Nat) : Nat × Nat := if v.2 < 48000 then (v.1 - (48000 - v.2), 48000) else v
/-- Raise the compute side to its floor (R34). -/
def splitFloorC (v : Nat × Nat) : Nat × Nat := if v.1 < 20000 then (20000, v.2 - (20000 - v.1)) else v

/-- The two allowances of R34 in units of 0.01 W: share in per cent, budget in W. -/
def powerSplit (share budget : Nat) (spill : Bool) : Nat × Nat :=
  let pool := 100 * (budget - 630)
  let c := share * (budget - 630)
  let s := pool - c
  let (c, s) := if 155000 < c then (155000, if spill then s + (c - 155000) else s) else (c, s)
  let (c, s) := if 102000 < s then (if spill then min 155000 (c + (s - 102000)) else c, 102000) else (c, s)
  splitFloorC (splitFloorS (c, s))

/-- The allowances that the present settings aim at. -/
def Power.target (p : Power) : Nat × Nat := powerSplit p.shareC.toNat p.budget.toNat p.spill

/-- `SET_ROLE` (R31, R33, R39): the role's split at the full budget, and its threshold in every partition. -/
def State.setRole (s : State) (role : Nat) : State :=
  let s := { s with pw := { s.pw with
    role := BitVec.ofNat 3 role
    override := false
    spill := false
    shareC := BitVec.ofNat 7 (roleShare role)
    budget := 3200
    phase := 1 } }
  (List.finRange 4).foldl (fun s p => s.updPart p (fun q => { q with thinMax := BitVec.ofNat 4 (roleThin role) })) s

/-- `SET_ROLE` (R31). -/
def execSetRole (k : Packet) (s : State) : Host.Outcome State Fault Refusal :=
  mgmt s k (mgmtCheck k 0x02 false [(8, 1)] [(8, decide (4 < pf k 8 1))] <|> s.notReady)
    (fun s => (s.setRole (pf k 8 1)).mgmtDone .ok 0)

/-- `POWER_SPLIT` (R33). -/
def execPowerSplit (k : Packet) (s : State) : Host.Outcome State Fault Refusal :=
  let share := pf k 8 1
  let budget := pf k 10 2
  mgmt s k (mgmtCheck k 0x10 false [(8, 1), (9, 1), (10, 2)]
      [(8, decide (share < 10) || decide (90 < share) || decide (share % 5 ≠ 0)), (9, decide (1 < pf k 9 1)),
        (10, decide (budget < 1600) || decide (3200 < budget) || decide (budget % 25 ≠ 0))] <|> s.notReady)
    (fun s => ({ s with pw := { s.pw with
      override := true
      spill := bit (pf k 9 1) 0
      shareC := BitVec.ofNat 7 share
      budget := BitVec.ofNat 12 budget
      phase := 1 } } : State).mgmtDone .ok 0)

/-! ### `GET_INFO` (R381) -/

/-- A core may take shares: working, enabled, in a cluster that is not disabled (R16, R410, R433). -/
def State.working (s : State) (c : CoreId) : Bool :=
  !(s.core c).spare && !(s.core c).retired && !(s.cluster c.cluster).disabled

/-- Code of a partition's state (`PSTATE` of `PS_SCHED`). -/
def PartSt.code : PartSt → Nat
  | .off => 0
  | .running => 1
  | .stopping => 2
  | .stopped => 3
  | .faulted => 4

/-- The 64 bytes of R381. A stack works unless its base die failed its start test (DEDUCED, log 105). -/
def State.infoBlock (s : State) (hk : Nat) : List Byte :=
  ([0x44, 0x4E, 0x2D, 0x4F, 0x58, 0x31, 0x32, 0x00] : List Byte) ++ [s.stepping, BitVec.ofNat 8 s.pw.role.toNat]
    ++ leBytes 2 s.devId.toNat ++ leBytes 4 s.fwVer.toNat
    ++ (List.finRange 4).map (fun p => BitVec.ofNat 8 ((coresOfPart p).filter s.working).length)
    ++ leBytes 2 (~~~s.hk.badBases).toNat ++ [BitVec.ofNat 8 s.rowsDev.toNat, 0]
    ++ (List.finRange 4).map (fun p => BitVec.ofNat 8 (s.part p).rowsPart.toNat)
    ++ (List.finRange 4).map (fun p => BitVec.ofNat 8 (s.part p).st.code)
    ++ leBytes 8 (((List.finRange 48).filter (fun l => (s.link l).st = .active)).foldl (fun a l => a + 2 ^ l.val) 0)
    ++ leBytes 6 hk ++ List.replicate 18 0

/-- `GET_INFO` (R381). -/
def execGetInfo (k : Packet) (s : State) : Host.Outcome State Fault Refusal :=
  mgmt s k (mgmtCheck k 0x01 false [(8, 8)] [hostAddrBad k 8])
    (fun s => (s.toHost (pa k 8) (s.infoBlock s.hkCount.toNat)).mgmtDone .ok 64)

/-! ### Partitions (R340) -/

/-- `PARTITION_START` (R340): from OFF, the counts that run from a partition's start begin at 0 (R74, and the register maps of 06,
08, 11 and 13). -/
def State.startPart (s : State) (p : Fin 4) : State :=
  let q := s.part p
  let s := if q.st = .off then
      let s := s.setPart p { q with
        st := .running, switches := 0, wdReports := 0, wdCount := 0, lastRun := 15, hits := 0, misses := 0, atomics := 0
        expired := 0, replays := 0, quarPeak := 0, kvMisses := 0 }
      (clustersOf p).foldl (fun s cl => s.updCluster cl (fun y => { y with cycle := 0 })) s
    else s.setPart p { q with st := .running }
  s.schedule p

/-- `PARTITION_START` (R340). -/
def execPartitionStart (k : Packet) (s : State) : Host.Outcome State Fault Refusal :=
  let p := mgmtPart k
  mgmtTo s p k (mgmtCheck k 0x03 true [] [] <|> s.notReady <|> wrongIf ((s.part p).st ≠ .off && (s.part p).st ≠ .stopped))
    (fun s => (s.startPart p).mgmtDone .ok 0)

/-- `PARTITION_STOP` (R340, R341): every context leaves scheduling as `SUSPEND` does; no `SUSPEND` bit changes (log 17). -/
def State.stopPart (s : State) (p : Fin 4) : State :=
  let s := s.updPart p (fun q => { q with st := .stopping })
  let s := (List.finRange 16).foldl (fun s x =>
    if (s.ctx p x).st = .ready then (s.updCtx p x (fun c => { c with st := .waiting })).preemptDone p x else s) s
  s.schedule p

/-- `PARTITION_STOP` (R340). -/
def execPartitionStop (k : Packet) (s : State) : Host.Outcome State Fault Refusal :=
  let p := mgmtPart k
  mgmtTo s p k (mgmtCheck k 0x04 true [] [] <|> s.notReady <|> wrongIf ((s.part p).st ≠ .running))
    (fun s => (s.stopPart p).mgmtDone .ok 0)

/-! ### The reserved area (R168, R243, R348) -/

/-- Two runs of bytes meet. -/
def Area.meets (a : Area) (b n : Nat) : Bool := decide (b < a.base + a.size) && decide (a.base < b + n)

/-- What of a reserved area is taken: the page-table pool, save areas, page arrays and Datum arrays. -/
def Part.taken (q : Part) : List Area :=
  (if q.poolSize = 0 then [] else [⟨q.poolBase.toNat, q.poolSize.toNat * 2 ^ 21⟩]) ++ q.allocs

/-- A place in the reserved area for an allocation; where the firmware puts it is free (`Config.area`, log 3). -/
def State.allocate (s : State) (p : Fin 4) (align size : Nat) : Option Nat :=
  let q := s.part p
  let lo := s.reserveBase p
  let fits (b : Nat) : Bool := b % align = 0 && decide (lo ≤ b) && decide (b + size ≤ s.partSize p)
    && !(q.taken.any (fun a => a.meets b size))
  let free := lo + align * Config.area s.freeCtr
  if fits free then some free
  else lowest ((lo :: q.taken.map (fun a => cdiv (a.base + a.size) align * align)).filter fits)

/-- Take an allocated run. -/
def State.take (s : State) (p : Fin 4) (base size : Nat) : State :=
  (s.draw 1).updPart p (fun q => { q with allocs := q.allocs ++ [⟨base, size⟩] })

/-- Give an allocated run back. -/
def State.giveArea (s : State) (p : Fin 4) (base : Nat) : State :=
  s.updPart p (fun q => { q with allocs := q.allocs.filter (fun a => a.base ≠ base) })

/-! ### Contexts (R341, R348, R361) -/

/-- `CONTEXT_CREATE` (R341, R348). -/
def execContextCreate (k : Packet) (s : State) : Host.Outcome State Fault Refusal :=
  let p := mgmtPart k
  let x := ctxAt k 8
  let q := s.part p
  let room := s.allocate p (2 ^ 21) (208 * 2 ^ 20)
  mgmtTo s p k (mgmtCheck k 0x05 true [(8, 1)] [(8, decide (15 < pf k 8 1))] <|> s.notReady
      <|> wrongIf ((q.st ≠ .running && q.st ≠ .stopped) || (q.ctx x).st ≠ .free)
      <|> (if room.isNone then some (.noResource, 0) else none))
    (fun s => match room with
      | none => s
      | some b =>
        let s := (s.take p b (208 * 2 ^ 20)).updCtx p x (fun c => { Ctx.reset with
          st := .waiting, save := BitVec.ofNat 40 b, suspend := c.suspend, quantum := c.quantum, quantumNow := c.quantum })
        (s.schedule p).mgmtDone .ok 0)

/-- Offset of a place of interleaved memory in its space (R169, R170). -/
def State.spaceOff (s : State) (kind : RegionKind) (k : Nat) : Nat :=
  let st := keyStack k
  match kind with
  | .part => (granuleOf 0 k * 3 + st % 3) * 256 + k % 256
  | _ => (granuleOf (1024 * s.rowsPartOf st) k * 12 + st) * 256 + k % 256

/-- A group of stack memory lies in a frame of a PART or DEV region (R176). -/
def State.inFrames (s : State) (p : Fin 4) (r : Region) (g : Nat) : Bool :=
  let k := 64 * g
  let row := keyRow k / 1024
  let rp := s.rowsPartOf (keyStack k)
  let o := s.spaceOff r.kind k
  (match r.kind with
    | .part => homeOf k = p && decide (row < rp)
    | .dev => decide (rp ≤ row) && decide (row < rp + s.rowsDev.toNat)
    | _ => false)
  && (List.range r.size.toNat).any (fun n =>
    let f := s.frameOf p r n
    f ≠ 0xFFFFFFFF && decide (f * 65536 ≤ o) && decide (o < f * 65536 + r.page))

/-- Invalidate an entry (R179): stream caches drop the copies of its data (R277), translation caches drop its pages, its page array is freed, and its Datum array too unless
another entry names it. -/
def State.unmapEntry (s : State) (p : Fin 4) (n : Nat) : State :=
  match (s.part p).regions.get none n with
  | none => s
  | some r =>
    let s := (clustersOf p).foldl (fun (s : State) cl => s.updCluster cl (fun y => { y with stream := y.stream.filter (fun (e : Nat × Option Copy) => !s.inFrames p r e.1) })) s
    let s := s.updPart p (fun q => { q with
      regions := q.regions.set none n none
      xlat := q.xlat.filter (fun e => e.entry ≠ n) })
    let s := s.giveArea p r.parray.toNat
    let named := (List.finRange 4).any (fun o => (s.part o).regions.any (fun e => match e.2 with
      | some t => t.datum && t.dpart = r.dpart && t.darray = r.darray
      | none => false))
    if r.datum && !named then s.giveArea r.dpart r.darray.toNat else s

/-- A sequence descriptor lies in a partition's range (R243). -/
def Part.inRange (q : Part) (n : Nat) : Bool := decide (q.seqFirst.toNat ≤ n) && decide (n < q.seqFirst.toNat + q.seqCount.toNat)

/-- Close the sequences of a context at once (R361): `GEN` stays; their pages leave quarantine. -/
def State.closeAll (s : State) (p : Fin 4) (x : Fin 16) : State :=
  let mine := (s.seqs.filter (fun e => (s.part p).inRange e.1 && e.2.st ≠ 0 && e.2.ctx.toNat = x.val)).map Prod.fst
  let s := mine.foldl (fun s n => s.updSeqd n (fun d => { SeqDesc.reset with gen := d.gen })) s
  s.updPart p (fun q => { q with
    quar := q.quar.filter (fun g => !mine.contains g.seq)
    relFlags := q.relFlags.filter (fun f => !mine.contains f.seq) })

/-- A context goes (R361): its work is cut, and its taken packets end `FAILED` with no record (DEDUCED, log 22); its
semaphores break; its grants, sequences, regions and save area go. -/
def State.destroyCtx (s : State) (p : Fin 4) (x : Fin 16) : State :=
  let s := (s.pktsOf p x).foldl (fun s k => s.failPkt k 0) s
  let s := (s.forget p x).breakSems p x
  let s := (linksOf p).foldl (fun s l => s.updLink l (fun k => { k with grants := k.grants.set ⟨false, 0⟩ x.val ⟨false, 0⟩ })) s
  let s := s.closeAll p x
  let ns := ((s.part p).regions.filter (fun e => match e.2 with | some r => r.ctxMask.getLsbD x.val | none => false)).map Prod.fst
  let s := ns.foldl (fun s n => match (s.part p).regions.get none n with
    | some r =>
      let m := r.ctxMask &&& ~~~(BitVec.ofNat 16 (2 ^ x.val))
      if m = 0 then s.unmapEntry p n
      else s.updPart p (fun q => { q with regions := q.regions.set none n (some { r with ctxMask := m }) })
    | none => s) s
  let s := s.giveArea p (s.ctx p x).save.toNat
  -- what its stopped shares still do is cut, too; a context made later under this number is another context (R345)
  let s := (coresOfPart p).foldl (fun s c => s.updCore c (fun y => { y with
    stopping := y.stopping.filter (fun j => j.share.ctx ≠ x)
    lastCtx := if y.lastCtx = some x.val then none else y.lastCtx })) s
  let s := s.updCtx p x (fun c => { Ctx.reset with suspend := c.suspend, quantum := c.quantum, quantumNow := c.quantum })
  (s.leave p x).schedule p

/-- `CONTEXT_DESTROY` (R361). -/
def execContextDestroy (k : Packet) (s : State) : Host.Outcome State Fault Refusal :=
  let p := mgmtPart k
  let x := ctxAt k 8
  let q := s.part p
  mgmtTo s p k (mgmtCheck k 0x06 true [(8, 1)] [(8, decide (15 < pf k 8 1))] <|> s.notReady
      <|> wrongIf ((q.st ≠ .running && q.st ≠ .stopping && q.st ≠ .stopped) || (q.ctx x).st = .free))
    (fun s => (s.destroyCtx p x).mgmtDone .ok 0)

/-! ### Regions (R173 to R182) -/

/-- The fields of a `REGION_MAP` as an entry without its arrays. -/
def mapRegion (k : Packet) : Region where
  kind := match pf k 30 1 % 4 with
    | 0 => .part
    | 1 => .dev
    | 2 => .bank
    | _ => .host
  big := bit (pf k 30 1) 2
  cacheable := bit (pf k 30 1) 3
  datum := bit (pf k 30 1) 4
  sharedRO := bit (pf k 30 1) 5
  ctxMask := BitVec.ofNat 16 (pf k 28 2)
  dbase := BitVec.ofNat 48 (pa k 8)
  size := BitVec.ofNat 32 (pf k 24 4)
  parray := 0
  darray := 0
  dpart := 0

/-- The flags that a kind refuses (R174). -/
def Region.flagsBad (r : Region) : Bool :=
  match r.kind with
  | .part => false
  | .dev => false
  | .bank => r.cacheable
  | .host => r.cacheable || r.datum

/-- A frame number breaks R178. -/
def State.frameBad (s : State) (p : Fin 4) (r : Region) (f : Nat) : Bool :=
  f ≠ 0xFFFFFFFF && ((r.big && decide (f % 32 ≠ 0)) || (match r.kind with
    | .part => decide (s.reserveBase p < f * 65536 + r.page)
    | .dev => decide (s.devSize < f * 65536 + r.page)
    | .bank => (s.bankPlace (f * 65536)).isNone || (s.bankPlace (f * 65536 + r.page - 1)).isNone
        || decide (f * 65536 / 2 ^ 36 / 3 ≠ p.val)
    | .host => decide (2 ^ 48 < f * 65536 + r.page)))

/-- The frame list that a `REGION_MAP` names. -/
def State.frameList (s : State) (k : Packet) : List Nat :=
  (List.range (pf k 24 4)).map (fun n => leNat (s.hostRead (pa k 16 + 4 * n) 4))

/-- Entries of a partition's table. -/
def Part.entries (q : Part) : List (Nat × Region) := q.regions.filterMap (fun e => e.2.map (fun r => (e.1, r)))

/-- The checks of R178 on parameters. -/
def State.mapCheck (s : State) (k : Packet) : Option (Status × Word) :=
  let p := mgmtPart k
  let r := mapRegion k
  let top := r.dbase.toNat + r.size.toNat * r.page
  let sizeBad := r.size = 0 || decide (2 ^ 48 < top)
  mgmtCheck k 0x07 true [(8, 8), (16, 8), (24, 4), (28, 2), (30, 1)]
    [addrBad k 8, hostAddrBad k 16, (24, sizeBad), (28, decide (r.ctxMask = 0)), (8, decide (r.dbase.toNat % r.page ≠ 0)),
      (30, decide (63 < pf k 30 1) || r.flagsBad),
      (16, (s.frameList k).any (s.frameBad p r)),
      (8, (s.part p).entries.any (fun e => e.2.ctxMask &&& r.ctxMask ≠ 0 && decide (r.dbase.toNat < e.2.dbase.toNat + e.2.size.toNat * e.2.page)
        && decide (e.2.dbase.toNat < top)))]

/-- Bytes of a region's Datum array. -/
def Region.datumBytes (r : Region) : Nat := 4 * (r.size.toNat * (r.page / 4096))

/-- The Datum array of an entry that maps the same DEV frames, Datum-checked, in another partition (R181). -/
def State.sharedArray (s : State) (p : Fin 4) (r : Region) (fs : List Nat) : Option (Fin 4 × BitVec 40) :=
  if !(r.kind = .dev && r.datum) then none
  else ((List.finRange 4).filter (fun o => o ≠ p)).findSome? (fun o => ((s.part o).entries.find? (fun e =>
    e.2.kind = .dev && e.2.datum && e.2.big = r.big && e.2.size = r.size
      && fs = (List.range r.size.toNat).map (fun n => s.frameOf o e.2 n))).map (fun e => (e.2.dpart, e.2.darray)))

/-- The places of block `b` of a region; none where it is not backed. -/
def State.blockPlaces (s : State) (p : Fin 4) (r : Region) (fs : List Nat) (b : Nat) : List Place :=
  let f := fs.getD (4096 * b / r.page) 0xFFFFFFFF
  if f = 0xFFFFFFFF then []
  else (List.range 4096).filterMap (fun y => s.framePlace p r.kind (f * 65536 + 4096 * b % r.page + y))

/-- The blocks of a region. -/
def Region.blocks (r : Region) : List Nat := List.range (r.size.toNat * (r.page / 4096))

/-- The Datum of block `b` of a region as it stands, read at class BULK (R181): 0 where it is not backed or holds poison. -/
def State.blockDatum (s : State) (p : Fin 4) (r : Region) (fs : List Nat) (b : Nat) : State × Nat :=
  match s.blockPlaces p r fs b with
  | [] => (s, 0)
  | ps =>
    let ts := ps.map (fun pl => Xlat.mk 0 r 0 pl)
    let s := ((s.accessLines false true ts).countTraffic false false ts).touch (groupsOf ps)
    if (s.firstPoison ps).isSome then (s, 0) else (s, (crc32c (s.bytesAt ps)).toNat)

/-- Fill a Datum array (R181). -/
def State.fillDatums (s : State) (p : Fin 4) (r : Region) (fs : List Nat) (base : Nat) : State :=
  r.blocks.foldl (fun s b =>
    let (s, d) := s.blockDatum p r fs b
    s.writePart p.val (base + 4 * b) (leBytes 4 d)) s

/-- Room for a region's arrays: the page array, then the Datum array where it needs one of its own. -/
def State.mapRoom (s : State) (p : Fin 4) (r : Region) (fs : List Nat) : Option (State × Region) :=
  match s.allocate p 64 (4 * r.size.toNat) with
  | none => none
  | some a =>
    let s := s.take p a (4 * r.size.toNat)
    let r := { r with parray := BitVec.ofNat 40 a, dpart := p }
    if !r.datum then some (s, { r with dpart := 0 })
    else match s.sharedArray p r fs with
      | some (o, d) => some (s, { r with dpart := o, darray := d })
      | none => match s.allocate p 64 r.datumBytes with
        | none => none
        | some d => some ((s.take p d r.datumBytes).fillDatums p r fs d, { r with darray := BitVec.ofNat 40 d })

/-- The data of which a `REGION_MAP` computes a Datum array must be reached first: lines that the host holds exclusive are
back-invalidated, and the partitions on the way run (R26, R181, R368). -/
def State.mapWaits (s : State) (p : Fin 4) (r : Region) (fs : List Nat) : Option State :=
  if r.datum && (s.sharedArray p r fs).isNone then s.heldAt p false (r.blocks.flatMap (s.blockPlaces p r fs)) else none

/-- `REGION_MAP` (R178, R181). The entry's number is free (log 3). -/
def execRegionMap (k : Packet) (s : State) : Host.Outcome State Fault Refusal :=
  let p := mgmtPart k
  let q := s.part p
  let r := mapRegion k
  let fs := s.frameList k
  let free := (List.range 64).filter (fun n => (q.regions.get none n).isNone)
  let room := s.mapRoom p r fs
  mgmtTo s p k (s.mapCheck k <|> s.notReady
      <|> wrongIf ((q.st ≠ .running && q.st ≠ .stopped)
        || (List.finRange 16).any (fun x => r.ctxMask.getLsbD x.val && (q.ctx x).st = .free))
      <|> (if free.isEmpty || room.isNone then some (.noResource, 0) else none))
    (fun s =>
      if s.hostPoison (pa k 16) (4 * r.size.toNat) then s.mgmtFail (pa k 16)
      else match s.mapWaits p r fs with
        | some s => s
        | none => match s.mapRoom p r fs, s.choose free with
          | some (s, r), some n =>
            let s := s.writePart p.val r.parray.toNat (fs.flatMap (leBytes 4))
            let s := (s.draw 1).updPart p (fun q => { q with regions := q.regions.set none n (some r) })
            s.mgmtDone .ok (BitVec.ofNat 32 n)
          | _, _ => s)

/-- A device address lies in the range of an entry (R175). -/
def Region.holds (r : Region) (a : Nat) : Bool := decide (r.dbase.toNat ≤ a) && decide (a < r.dbase.toNat + r.size.toNat * r.page)

/-- The device addresses that an instance of a local DMA operation accesses. -/
def State.instAddrs (s : State) (c : CoreId) (i : Inst) : List Nat :=
  let m := i.op
  if m.op = 0x01 || m.op = 0x02 || m.op = 0x10 then s.moveAddrs c m i.n []
  else if m.op = 0x03 then s.pickAddrs c m i.n
  else addrRun (m.addr 0 i.n) 8

/-- An instance has still to access an entry's range. A wait is no access, a parked read ends with `TRANSLATION` when it resumes,
and SP operations access no device memory. -/
def State.instUses (s : State) (c : CoreId) (r : Region) (i : Inst) : Bool :=
  let o := i.op.op
  i.eng = .dma && i.st ≠ .parked && i.st ≠ .ready && !i.op.remote && (o = 0x01 || o = 0x02 || o = 0x03 || o = 0x10 || o = 0x11
      || o = 0x18 || o = 0x1C) && (s.instAddrs c i).any r.holds

/-- Accesses through an entry have still to complete (R179): of a running instance of a context of its mask, of one that goes on
to its cut point, of a stack command, or of a message that landed (R279). -/
def State.entryBusy (s : State) (p : Fin 4) (r : Region) : Bool :=
  (coresOfPart p).any (fun c =>
    let x := s.core c
    (match x.share with | some sh => r.ctxMask.getLsbD sh.ctx.val && x.runs.any (s.instUses c r) | none => false)
      || x.stopping.any (fun j => r.ctxMask.getLsbD j.share.ctx.val && s.instUses c r j.inst))
    || s.pkts.any (fun k => k.part = p && r.ctxMask.getLsbD k.ctx.val && k.cmdsLeft ≠ 0)
    || (linksOf p).any (fun l => (s.link l).landed.any (fun m => r.ctxMask.getLsbD m.dctx.val))

/-- `REGION_UNMAP` (R179): it waits while accesses through the entry run. -/
def execRegionUnmap (k : Packet) (s : State) : Host.Outcome State Fault Refusal :=
  let p := mgmtPart k
  let q := s.part p
  let n := pf k 8 1
  let e := q.regions.get none n
  let bad := mgmtCheck k 0x08 true [(8, 1)] [(8, decide (63 < n))] <|> s.notReady
    <|> wrongIf ((q.st ≠ .running && q.st ≠ .stopped) || e.isNone)
  if bad.isNone && (match e with | some r => s.entryBusy p r | none => false) then .next s
  else mgmtTo s p k bad (fun s => (s.unmapEntry p n).mgmtDone .ok 0)

/-! ### Work queues (R374) -/

/-- `QUEUE_CREATE` (R374, R380): which free number it gets is free (log 3). -/
def execQueueCreate (k : Packet) (s : State) : Host.Outcome State Fault Refusal :=
  let p := mgmtPart k
  let x := ctxAt k 24
  let st := (s.ctx p x).st
  let n := pf k 25 1
  let free := (List.finRange 256).filter (fun q => (s.queue q).isNone)
  mgmtTo s p k (mgmtCheck k 0x09 true [(8, 8), (16, 8), (24, 1), (25, 1), (26, 1)]
      [addrBad k 8, (8, decide (pa k 8 % 4096 ≠ 0)), addrBad k 16, (16, decide (pa k 16 % 8 ≠ 0)),
        (24, decide (15 < pf k 24 1)), (25, decide (n < 4) || decide (16 < n)), (26, decide (7 < pf k 26 1))]
      <|> s.notReady <|> wrongIf (st = .free || st = .faulted)
      <|> (if free.isEmpty then some (.noResource, 0) else none))
    (fun s => match s.choose free with
      | none => s
      | some q =>
        let s := (s.draw 1).setQueue q (some ⟨p, x, ⟨pf k 26 1 % 8, by omega⟩, pa k 8, n, pa k 16, 0, 0, 0⟩)
        s.mgmtDone .ok (BitVec.ofNat 32 q.val))

/-- `QUEUE_DESTROY` (R380): a queue that does not exist is in no state that allows it (DEDUCED, log 24). -/
def execQueueDestroy (k : Packet) (s : State) : Host.Outcome State Fault Refusal :=
  let q : Fin 256 := ⟨pf k 8 1, by unfold pf; omega⟩
  mgmt s k (mgmtCheck k 0x0A false [(8, 1)] [] <|> s.notReady
      <|> wrongIf (match s.queue q with
        | none => true
        | some w => w.head ≠ w.tail && (s.ctx w.part w.ctx).st ≠ .faulted))
    (fun s =>
      let s := { s with pkts := s.pkts.filter (fun j => j.q ≠ q.val) }
      (s.setQueue q none).mgmtDone .ok 0)

/-! ### Sequence tables (R243) -/

/-- `SEQ_TABLE_SETUP` (R243). -/
def execSeqTableSetup (k : Packet) (s : State) : Host.Outcome State Fault Refusal :=
  let p := mgmtPart k
  let q := s.part p
  let pool := pf k 8 5
  let first := pf k 16 2
  let count := pf k 18 2
  let psize := pf k 20 2
  let meets (o : Fin 4) : Bool :=
    let r := s.part o
    o ≠ p && decide (first < r.seqFirst.toNat + r.seqCount.toNat) && decide (r.seqFirst.toNat < first + count)
      && count ≠ 0 && r.seqCount ≠ 0
  let poolBad := decide (pool % 2 ^ 21 ≠ 0) || psize = 0 || decide (pool < s.reserveBase p)
    || decide (s.partSize p < pool + psize * 2 ^ 21) || q.allocs.any (fun a => a.meets pool (psize * 2 ^ 21))
  mgmtTo s p k (mgmtCheck k 0x14 true [(8, 8), (16, 2), (18, 2), (20, 2)]
      [(8, decide (pf k 13 3 ≠ 0)), (8, poolBad), (16, decide (16383 < first)), (18, decide (16384 < count)),
        (16, decide (16384 < first + count) || (List.finRange 4).any meets)] <|> s.notReady
      <|> wrongIf ((q.st ≠ .running && q.st ≠ .stopped)
        || s.seqs.any (fun e => q.inRange e.1 && e.2.st ≠ 0)))
    (fun s => (s.updPart p (fun q => { q with
        seqFirst := BitVec.ofNat 14 first
        seqCount := BitVec.ofNat 15 count
        poolBase := BitVec.ofNat 40 pool
        poolSize := BitVec.ofNat 16 psize })).mgmtDone .ok 0)

/-! ### Flip masks and measurements (R403, R404, R425) -/

/-- Fields that a flip-mask target uses, as offset and largest value; `PART` is offset 3 (R404). -/
def injectFields : Nat → List (Nat × Nat)
  | 0 => [(9, 11), (14, 63), (15, 7)]
  | 1 => [(9, 11), (10, 15), (11, 67), (15, 7)]
  | 2 => [(3, 3), (12, 9), (13, 8)]
  | 3 => [(3, 3), (14, 15)]
  | 4 => [(9, 11)]
  | 5 => [(3, 3), (12, 9), (13, 8)]
  | 6 => [(9, 11), (10, 15), (11, 67)]
  | 7 => [(14, 47)]
  | _ => [(3, 3)]

/-- A target whose mask flips parity bits (R404). -/
def parityTarget (t : Nat) : Bool := 5 ≤ t

/-- The encoder that an `ERRINJ_ARM` names. -/
def injectKey (k : Packet) : Nat :=
  match pf k 8 1 with
  | 0 => encKey 0 (pf k 9 1) 0 (pf k 14 1) (pf k 15 1)
  | 1 => encKey 1 (pf k 9 1) (pf k 10 1) (pf k 11 1) (pf k 15 1)
  | 2 => encKey 2 (pf k 3 1) (pf k 12 1) (pf k 13 1) 0
  | 3 => encKey 3 (pf k 3 1) 0 0 (pf k 14 1)
  | 4 => encKey 4 (pf k 9 1) 0 0 0
  | 5 => encKey 5 (pf k 3 1) (pf k 12 1) (pf k 13 1) 0
  | 6 => encKey 6 (pf k 9 1) (pf k 10 1) (pf k 11 1) 0
  | 7 => encKey 7 0 0 0 (pf k 14 1)
  | t => encKey t (pf k 3 1) 0 0 0

/-- `ERRINJ_ARM` (R403, R404). -/
def execErrinjArm (k : Packet) (s : State) : Host.Outcome State Fault Refusal :=
  let t := pf k 8 1
  let fs := injectFields t
  let fieldBad (o : Nat) : Nat × Bool := match fs.find? (fun f => f.1 = o) with
    | some f => (o, decide (f.2 < pf k o 1))
    | none => (o, decide (pf k o 1 ≠ 0))
  let pat := pf k 16 8
  let checks := if 8 < t then [(8, true)]
    else [3, 9, 10, 11, 12, 13, 14, 15].map fieldBad
      ++ [(16, pat = 0 || decide (2 ^ (if parityTarget t then 8 else 39) ≤ pat))]
  mgmt s k (mgmtCheck k 0x13 true [(8, 8), (16, 8)] checks
      <|> (if s.hk.injection then none else some (.denied, 0)) <|> s.notReady
      <|> (if s.hk.flips.get 0 (injectKey k) = 0 then none else some (.busy, 0)))
    (fun s => ({ s with hk := { s.hk with flips := s.hk.flips.set 0 (injectKey k) (BitVec.ofNat 64 pat) } } : State).mgmtDone .ok 0)

/-- The eight measurement registers as bytes, `MEAS0` first (R425). -/
def State.measBytes (s : State) : List Byte := (List.range 8).flatMap (fun n => leBytes 64 (s.ta.meas.get 0 n).toNat)

/-- `MEASURE_READ` (R425). -/
def execMeasureRead (k : Packet) (s : State) : Host.Outcome State Fault Refusal :=
  mgmt s k (mgmtCheck k 0x12 false [(8, 8)] [hostAddrBad k 8])
    (fun s => (s.toHost (pa k 8) s.measBytes).mgmtDone .ok 512)

/-- `THERMAL_CONFIG` (R458). -/
def execThermalConfig (k : Packet) (s : State) : Host.Outcome State Fault Refusal :=
  let g := pf k 8 1
  let warn := pf k 9 1
  let thr := pf k 10 1
  let h := pf k 11 1
  mgmt s k (mgmtCheck k 0x11 false [(8, 1), (9, 1), (10, 1), (11, 1)]
      [(8, decide (1 < g)),
        (9, if g = 0 then decide (warn < 60) || decide (95 < warn) || decide (thr ≤ warn) else decide (warn ≠ 0)),
        (10, if g = 0 then decide (thr < 65) || decide (100 < thr) else decide (thr < 60) || decide (95 < thr)),
        (11, decide (h < 1) || decide (10 < h))] <|> s.notReady)
    (fun s =>
      let th := { s.th with hyst := BitVec.ofNat 4 h }
      let th := if g = 0 then { th with cmpWarn := BitVec.ofNat 8 warn, cmpThrottle := BitVec.ofNat 8 thr }
        else { th with dramThrottle := BitVec.ofNat 8 thr }
      ({ s with th := th } : State).mgmtDone .ok 0)

end Sys2Proof.Machine
end

