-- ==== Sys2Proof/Machine/Pages.lean ====
section
/-! DEFINITION. The page tables of sequences (R245 to R251): directory and page entries, what makes an entry faulty, the
bytes and elements of a page, the quarantine (R269), and the release flags that rise once it allows. -/

namespace Sys2Proof.Machine

/-! ### Descriptors (R245) -/

/-- Head dimension of a sequence (R245). -/
def SeqDesc.d (d : SeqDesc) : Nat := 64 * d.dcode.toNat
/-- Tokens of a page. -/
def SeqDesc.t (d : SeqDesc) : Nat := 2 ^ d.pageLog2.toNat
/-- Pages that the directory can index in each group (R246). -/
def SeqDesc.reach (d : SeqDesc) : Nat := d.ndir.toNat * 128
/-- Bytes of the table (R246). -/
def tableBytes (ngroup ndir : Nat) : Nat := cdiv (16 * ngroup * ndir) 4096 * 4096 + 4096 * ngroup * ndir
/-- The `k`-th leaf's offset (R246). -/
def SeqDesc.leafAt (d : SeqDesc) (k : Nat) : Nat :=
  d.table.toNat + cdiv (16 * d.ngroup.toNat * d.ndir.toNat) 4096 * 4096 + 4096 * k

/-- A taken packet walks or changes the pages of a sequence (R268). -/
def Pkt.walks (k : Pkt) : Bool :=
  match k.kind with
  | .attend => true
  | .appendKv => true
  | .pageServe => true
  | .serveReq => false
  | .edit 5 => true
  | _ => false

/-- Packets that run on a sequence of a partition. -/
def State.onSeq (s : State) (p : Fin 4) (n : Nat) : List Pkt :=
  s.pkts.filter (fun k => k.part = p && k.seq = some n && k.walks && !k.done && k.started)

/-- Commands of a sequence that run: the stack commands of its packets, and one for a packet on cores (`INFLIGHT`). -/
def State.inflight (s : State) (p : Fin 4) (n : Nat) : Nat := ((s.onSeq p n).map (fun k => max 1 k.cmdsLeft)).sum

/-- Pages of a sequence in quarantine (`QUAR`). -/
def State.quarOf (s : State) (p : Fin 4) (n : Nat) : Nat := ((s.part p).quar.filter (fun g => g.seq = n)).length

/-- The 64 bytes of a descriptor (R245). -/
def State.descBytes (s : State) (p : Fin 4) (n : Nat) : List Byte :=
  let d := s.seqd n
  leBytes 1 d.st.toNat ++ leBytes 1 d.pageLog2.toNat ++ leBytes 1 d.ngroup.toNat ++ leBytes 1 d.dcode.toNat
    ++ leBytes 2 d.ctx.toNat ++ leBytes 2 d.ndir.toNat ++ leBytes 4 d.gen.toNat ++ leBytes 4 d.length.toNat
    ++ leBytes 8 d.table.toNat ++ leBytes 4 (s.quarOf p n) ++ leBytes 4 (s.inflight p n) ++ List.replicate 32 0

/-! ### Entries (R246 to R250) -/

/-- Bytes of a PART space as the sequencer reads them, and whether any is poisoned. -/
def State.tableRead (s : State) (p : Fin 4) (x n : Nat) : List Byte × Bool :=
  let ps := (List.range n).map (fun j => Place.dram (partPlace p.val (x + j)))
  (s.bytesAt ps, (s.firstPoison ps).isSome)

/-- Offset of the directory entry that covers page `j` of group `g` (R246). -/
def SeqDesc.dirAt (d : SeqDesc) (g j : Nat) : Nat := d.table.toNat + 16 * (g * d.ndir.toNat + j / 128)

/-- A directory entry: valid, its leaf, and whether it breaks R247 or is poisoned (DEDUCED, log 29). -/
structure DirEnt where
  valid : Bool
  leaf : Nat
  bad : Bool
  deriving DecidableEq, Repr

/-- Read a directory entry (R247). -/
def State.dirEnt (s : State) (p : Fin 4) (d : SeqDesc) (g j : Nat) : DirEnt :=
  let (l, poison) := s.tableRead p (d.dirAt g j) 16
  let leaf := lf l 0 5
  let valid := bit (lf l 5 1) 0
  ⟨valid, leaf, poison || decide (2 ≤ lf l 5 1) || decide (lf l 6 6 ≠ 0)
    || (valid && (leaf % 4096 ≠ 0 || decide (s.partSize p < leaf + 4096)))⟩

/-- A page entry (R248) with what it breaks of R250 by itself. -/
structure PageEnt where
  base : Nat
  fmt : Nat
  /-- 0 EMPTY, 1 VALID, 2 DROPPED, 3 PENDING -/
  st : Nat
  scale : Nat
  gen : Nat
  bad : Bool
  deriving DecidableEq, Repr

/-- The entry of an absent leaf. -/
def PageEnt.empty : PageEnt := ⟨0, 0, 0, 0, 0, false⟩

/-- Element width in bits and scale group of a page format (R154, R248). -/
def pageBits (fmt : Nat) : Nat := if fmt = 6 then 4 else 8
/-- Bytes of a page's elements, of its scales. -/
def pageElems (t d fmt : Nat) : Nat := t * d * pageBits fmt / 8
def pageScales (t d fmt : Nat) : Nat := 2 * (t * d / kvGroup fmt)

/-- The page that an entry names breaks R250 for a sequence of a partition: its base, its scales or its extent. -/
def State.pageBad (s : State) (p : Fin 4) (t d fmt base scale : Nat) : Bool :=
  let off := base % 2 ^ 26
  base % 2048 ≠ 0 || (s.bankPlace base).isNone || decide (base / 2 ^ 36 / 3 ≠ p.val)
    || decide (scale < pageElems t d fmt) || scale % 32 ≠ 0
    || decide (s.bankSize (base / 2 ^ 36) < off + scale + pageScales t d fmt)

/-- Read an entry's 16 bytes (R248, R250). -/
def State.parseEnt (s : State) (p : Fin 4) (d : SeqDesc) (kv : Nat) (l : List Byte) (poison : Bool) : PageEnt :=
  let st := bits (lf l 6 1) 1 0
  let fmt := bits (lf l 5 1) 7 4
  let e : PageEnt := ⟨lf l 0 5, fmt, st, lf l 8 4, lf l 12 4, false⟩
  let faulty := decide (8 ≤ lf l 6 1) || decide (lf l 7 1 ≠ 0) || !([3, 5, 6].contains fmt)
    || decide (bits (lf l 5 1) 3 0 ≠ d.pageLog2.toNat) || decide (bits (lf l 6 1) 2 2 ≠ kv)
    || s.pageBad p d.t d.d fmt e.base e.scale
  if poison then { e with bad := true } else if st = 0 then e else { e with bad := faulty }

/-- Offset of the entry of page `j` in a leaf; `kv` is 0 for keys, 1 for values (R246). -/
def entAt (leaf j kv : Nat) : Nat := leaf + 16 * (2 * (j % 128) + kv)

/-- The entry of a page as a walk reads it (R246, R250, R251). -/
def State.pageEnt (s : State) (p : Fin 4) (d : SeqDesc) (g j kv : Nat) : PageEnt :=
  let e := s.dirEnt p d g j
  if e.bad then { PageEnt.empty with bad := true }
  else if !e.valid then PageEnt.empty
  else
    let (l, poison) := s.tableRead p (entAt e.leaf j kv) 16
    s.parseEnt p d kv l poison

/-- The 16 bytes of an entry (R248). -/
def entBytes (d : SeqDesc) (kv : Nat) (e : PageEnt) : List Byte :=
  leBytes 5 e.base ++ leBytes 1 (d.pageLog2.toNat + 16 * e.fmt) ++ leBytes 1 (e.st + 4 * kv) ++ [0]
    ++ leBytes 4 e.scale ++ leBytes 4 e.gen

/-- A leaf holds an entry that is not EMPTY. -/
def State.leafUsed (s : State) (p : Fin 4) (leaf : Nat) : Bool :=
  (List.range 256).any (fun n => lf (s.readPart p.val (leaf + 16 * n + 6) 1) 0 1 % 4 ≠ 0)

/-- Write a page entry and its directory entry, both with the entry's generation (R247, R265). A leaf that comes into use
has its entries made EMPTY, since `OPEN` does not clear the leaves and a directory entry that is not valid stands for
EMPTY entries (R250; DEDUCED, log 29). -/
def State.writeEnt (s : State) (p : Fin 4) (d : SeqDesc) (g j kv : Nat) (e : PageEnt) : State :=
  let de := s.dirEnt p d g j
  let leaf := if de.valid then de.leaf else d.leafAt (g * d.ndir.toNat + j / 128)
  let s := if de.valid then s
    else (List.range 256).foldl (fun s n => s.writePart p.val (leaf + 16 * n + 6) [0]) s
  let s := s.writePart p.val (entAt leaf j kv) (entBytes d kv e)
  s.writePart p.val (d.dirAt g j)
    (leBytes 5 leaf ++ [BitVec.ofNat 8 (b2n (s.leafUsed p leaf))] ++ List.replicate 6 0 ++ leBytes 4 e.gen)

/-! ### Pages -/

/-- The places of `n` bytes of a page from byte `o` on. -/
def State.pagePlaces (s : State) (base o n : Nat) : List Place :=
  (List.range n).filterMap (fun j => (s.bankPlace (base + o + j)).map Place.dram)

/-- A byte of a page with its poison. -/
structure PByte where
  v : Byte
  bad : Bool
  deriving DecidableEq, Repr

/-- Bytes of memory as a reader of the stacks gets them: each with the poison of its word (R234, R239). -/
def State.readP (s : State) (ps : List Place) : List PByte :=
  ps.map (fun pl => ⟨s.byteAt pl, s.wordPoisoned pl⟩)

/-- A page read whole: elements and scales. -/
structure PageData where
  fmt : Nat
  d : Nat
  elems : Array PByte
  scales : Array PByte

/-- Read a page of `t` tokens of head dimension `d` (R249). -/
def State.pageData (s : State) (t d : Nat) (e : PageEnt) : PageData :=
  let el := s.readP (s.pagePlaces e.base 0 (pageElems t d e.fmt))
  let sc := s.readP (s.pagePlaces e.base e.scale (pageScales t d e.fmt))
  ⟨e.fmt, d, el.toArray, sc.toArray⟩

/-- Element (`t`, `d`) of a page: its value without scale, the scale's value, and whether either is poisoned (R154,
R249). -/
def PageData.elem (g : PageData) (t d : Nat) : Val × Val × Bool :=
  let n := t * g.d + d
  let b := g.elems.getD (n * pageBits g.fmt / 8) ⟨0, false⟩
  let e := if g.fmt = 6 then b.v.toNat / 16 ^ (n % 2) % 16 else b.v.toNat
  let k := 2 * (t * g.d / kvGroup g.fmt + d / kvGroup g.fmt)
  let lo := g.scales.getD k ⟨0, false⟩
  let hi := g.scales.getD (k + 1) ⟨0, false⟩
  (elemVal g.fmt e, fp16.decode (lo.v.toNat + 256 * hi.v.toNat), b.bad || lo.bad || hi.bad)

/-- The region of a context through which it maps a BANK address, and the device address there. -/
def State.bankRegion (s : State) (p : Fin 4) (x : Fin 16) (b : Nat) : Option (Nat × Region) :=
  (s.part p).entries.findSome? (fun e =>
    let r := e.2
    if r.kind = .bank && r.ctxMask.getLsbD x.val then
      (((List.range r.size.toNat).find? (fun n =>
        let f := s.frameOf p r n
        f ≠ 0xFFFFFFFF && decide (f * 65536 ≤ b) && decide (b < f * 65536 + r.page))).map
          (fun n => (r.dbase.toNat + n * r.page + (b - s.frameOf p r n * 65536), r)))
    else none)

/-- A page lies in a region with a flag. -/
def State.pageIn (s : State) (p : Fin 4) (x : Fin 16) (base : Nat) (f : Region → Bool) : Bool :=
  match s.bankRegion p x base with
  | some e => f e.2
  | none => false

/-! ### Quarantine and release flags (R269) -/

/-- Commands of a sequence placed with a smaller generation still run. -/
def State.olderRuns (s : State) (p : Fin 4) (n : Nat) (gen : Word) : Bool :=
  (s.onSeq p n).any (fun k => decide (k.gen.toNat < gen.toNat))

/-- Put pages into quarantine, tagged with the generation of the edit. -/
def State.quarantine (s : State) (p : Fin 4) (n : Nat) (gen : Word) (pages : List Nat) : State :=
  s.updPart p (fun q =>
    let l := q.quar ++ pages.map (fun b => ⟨b, n, gen⟩)
    { q with quar := l, quarPeak := if q.quarPeak.toNat < l.length then BitVec.ofNat 13 l.length else q.quarPeak })

/-- What the quarantine of a partition lets happen now: pages leave it, release flags rise behind a release at DEVICE
scope, and CLOSING sequences with nothing left become FREE (R266, R269). A flag whose line the host holds waits for the
back-invalidation. -/
def State.settle (s : State) (p : Fin 4) : State :=
  let s := s.updPart p (fun q => { q with quar := q.quar.filter (fun g => s.olderRuns p g.seq g.gen) })
  let s := (s.part p).relFlags.foldl (fun s f =>
    if s.olderRuns p f.seq f.gen then s
    else match s.hostBlocks true [.dram f.flag] with
      | [] => (s.updPart p (fun q => { q with relFlags := q.relFlags.erase f })).addFlag f.flag 1
      | ls => s.backInvalidate ls) s
  let closing := (s.seqs.filter (fun e => (s.part p).inRange e.1 && e.2.st = 2 && s.inflight p e.1 = 0 && s.quarOf p e.1 = 0)).map Prod.fst
  closing.foldl (fun s n => s.updSeqd n (fun d => { SeqDesc.reset with gen := d.gen })) s

end Sys2Proof.Machine
end

