-- ==== Sys2Proof/Machine/Work.lean ====
section
/-! DEFINITION. Work packets (R343, R344, R376, R379, R382): which packet the sequencer may take, the checks on its fields,
the blocks it reads, the cores it is given, and the packets `RUN`, `NOP`, `FENCE`, `FLAG_SET` and `FLAG_WAIT`. -/

namespace Sys2Proof.Machine

/-! ### Rows and opcodes -/

/-- What the bytes of a packet say it is (R382); `none` is an opcode that is undefined. -/
def workKind (k : Packet) : Option PktKind :=
  match pf k 0 1 with
  | 0x20 => some .run
  | 0x21 => some .linear
  | 0x22 => some .attend
  | 0x23 => some .attendBwd
  | 0x24 => some .appendKv
  | 0x25 => some .step
  | 0x26 => some .copy
  | 0x27 => some .collective
  | 0x28 => some .flagSet
  | 0x29 => some .flagWait
  | 0x2A => some .fence
  | 0x2B => some (.edit (pf k 34 1))
  | 0x2C => some (if bit (pf k 53 1) 0 then .serveReq else .pageServe)
  | 0x2D => some .nop
  | _ => none

/-- A packet may be taken by the row of a kind: it is of that kind, or its opcode or edit operation is of none. -/
def rowTakes (kd : PktKind) (k : Packet) : Bool :=
  match workKind k with
  | none => true
  | some (.edit n) => (match kd with | .edit m => n = m || 9 < n | _ => false)
  | some j => j = kd

/-! ### Where the sequencer takes a packet (R339, R343, R358) -/

/-- A packet's place: its index, and its place in a lane of a `STEP`. -/
structure Seat where
  i : Word
  lane : Nat
  idx : Nat
  deriving DecidableEq, Repr

/-- Packets in a lane of a `STEP` (R357): 1 the thick, 2 the thin one. -/
def laneCount (k : Packet) (lane : Nat) : Nat := if lane = 1 then pf k 32 2 else pf k 34 2

/-- The `n`-th packet of a lane, from the lists that the `STEP` read. -/
def Pkt.laneEntry (j : Pkt) (lane n : Nat) : Packet :=
  BitVec.ofNat 512 (lf j.args (64 * ((if lane = 1 then 0 else laneCount j.pkt 1) + n)) 64)

/-- Packets of a lane that have completed. -/
def Pkt.laneAt (j : Pkt) (lane : Nat) : Nat := if lane = 1 then j.laneDone.1 else j.laneDone.2

/-- A running `STEP` of a queue whose lane waits for this packet. -/
def State.laneSeat (s : State) (k : Packet) (j : Pkt) : Option Seat :=
  if j.kind = .step && j.started && !j.done && j.status = .ok then
    ([1, 2].find? (fun l => j.laneAt l < laneCount j.pkt l && j.laneEntry l (j.laneAt l) = k
      && !s.pkts.any (fun x => x.q = j.q && x.i = j.i && x.lane = l))).map (fun l => ⟨j.i, l, j.laneAt l⟩)
  else none

/-- Packets of a queue that have been taken and have not completed. -/
def State.activeOf (s : State) (q : Nat) : List Pkt := s.pkts.filter (fun j => j.q = q && j.lane = 0 && !j.done)

/-- The sequencer may visit a queue now: it takes from the queues of the running context in turn, at most one packet from each per
turn, so a queue that it has visited waits while another of them has a packet that nothing of its own queue holds back (R343). -/
def State.turnOpen (s : State) (q : Nat) (w : WorkQ) : Bool :=
  let turn := (s.part w.part).turn
  !turn.contains q || !(s.queuesOf w.part w.ctx).any (fun e =>
    e.1 ≠ q && !turn.contains e.1 && e.2.taken ≠ e.2.tail && (s.activeOf e.1).isEmpty)

/-- The sequencer has visited a queue: the turn goes on, or a new one begins with it. -/
def State.visit (s : State) (q : Nat) (w : WorkQ) : State :=
  s.updPart w.part (fun p => { p with turn := if p.turn.contains q then [q] else p.turn ++ [q] })

/-- Where the sequencer takes packet `k` of queue `q` now; `none` while it may not. A lane that waits for the packet comes
before the queue (DESIGN CHOICE, log 30). -/
def State.seat (s : State) (q : Fin 256) (w : WorkQ) (kd : PktKind) (k : Packet) : Option Seat :=
  if (s.ctx w.part w.ctx).st ≠ .running || (s.part w.part).pll ≠ .running then none
  else match (s.pkts.filter (fun j => j.q = q.val)).findSome? (s.laneSeat k) with
    | some t => some t
    | none =>
      let act := s.activeOf q.val
      if !s.turnOpen q.val w then none else
      let alone := pf k 1 1 % 2 = 1 || kd = .fence || kd = .flagSet
      if w.taken = w.tail || 16 ≤ act.length || (alone && !act.isEmpty)
          || act.any (fun j => j.kind = .fence || j.kind = .flagWait) then none
      else some ⟨w.taken, 0, 0⟩

/-- A packet as it is taken. -/
def newPkt (q : Fin 256) (w : WorkQ) (t : Seat) (kd : PktKind) (k : Packet) : Pkt where
  q := q.val
  i := t.i
  part := w.part
  ctx := w.ctx
  kind := kd
  pkt := k
  wtag := BitVec.ofNat 32 (pf k 4 4)
  lane := t.lane
  laneIdx := t.idx
  started := true
  done := false
  inStacks := false
  cores := []
  sharesLeft := 0
  cmdsLeft := 0
  plan := []
  gen := 0
  length := 0
  seq := none
  args := []
  effect := false
  status := .ok
  detail := 0
  spans := []
  replayable := false
  parked := false
  laneDone := (0, 0)
  joined := 0

/-- A packet is taken: it is among those that have not completed, and the queue has made progress (R307). -/
def State.enlist (s : State) (j : Pkt) : State :=
  let s := { s with pkts := s.pkts ++ [j] }
  let s := s.updPart j.part (fun q => { q with wdArmed := true, wdCount := 0 })
  if j.lane = 0 then
    let q : Fin 256 := ⟨j.q % 256, by omega⟩
    match s.queue q with
    | some w => (s.setQueue q (some { w with taken := w.taken + 1 })).visit q.val w
    | none => s
  else s

/-! ### Checks on a packet's own fields (R14, R379 step 2, R382) -/

/-- Flags, reserved bytes and parameter bytes that no field covers (R376, R382). -/
def workReserved (k : Packet) (used : List (Nat × Nat)) : List (Nat × Bool) :=
  (1, decide (4 ≤ pf k 1 1)) :: reservedBad k 2 4 [] ++ reservedBad k 8 56 used

/-- A `PEER` field in the form of R83 names no link. -/
def peerBad (k : Packet) (o : Nat) : Nat × Bool := (o, (peerLink (BitVec.ofNat 32 (pf k o 4))).isNone)

/-- The formats of `XFMT`, of `YFMT` (R466). -/
def xfmtOk (f : Nat) : Bool := decide (1 ≤ f) && decide (f ≤ 9)
def yfmtOk (f : Nat) : Bool := decide (f ≤ 9)

/-- Page formats (R248). -/
def pageFmtOk (f : Nat) : Bool := [3, 5, 6].contains f

/-- The operations of `PAGE_EDIT` that take `KV` (R265, R382). -/
def editTakesKv (op : Nat) : Bool := [1, 2, 3, 4, 5].contains op

/-- Checks on the fields of a `PAGE_EDIT` alone (R245, R265, R382). -/
def editChecks (k : Packet) : List (Nat × Bool) :=
  let op := pf k 34 1
  let kv := pf k 37 1 % 4
  let pages := [1, 2, 4, 5].contains op
  [addrBad k 8, addrBad k 16, (32, decide (16383 < pf k 32 2)), (34, decide (9 < op)), (37, decide (16 ≤ pf k 37 1)),
    (37, if editTakesKv op then kv = 0 else kv ≠ 0), (38, (op = 1 || op = 5) && !pageFmtOk (pf k 38 1)),
    (39, op = 0 && (decide (pf k 39 1 < 4) || decide (10 < pf k 39 1))),
    (40, op = 0 && (decide (pf k 40 1 < 1) || decide (64 < pf k 40 1))),
    (41, op = 0 && !([1, 2, 4].contains (pf k 41 1))),
    (42, op = 0 && (decide (pf k 42 2 < 1) || decide (512 < pf k 42 2))),
    (8, op = 0 && (decide (pf k 13 3 ≠ 0) || decide (pa k 8 % 4096 ≠ 0))),
    (28, (pages || op = 3) && pf k 28 4 = 0), (36, (pages || op = 3) && pf k 36 1 = 0)]

/-- Checks on the fields of a packet alone. -/
def workChecks (kd : PktKind) (k : Packet) : List (Nat × Bool) :=
  match kd with
  | .run =>
    let ilen := pf k 24 4
    workReserved k [(8, 8), (16, 8), (24, 4), (28, 4), (32, 2), (34, 1)] ++
    [addrBad k 8, addrBad k 16, (8, decide (pa k 8 % 64 ≠ 0)),
      (24, decide (ilen < 64) || decide (65536 < ilen) || ilen % 2 = 1), (28, bit (pf k 28 4) 31),
      (32, bit (pf k 32 2) 0), (34, decide (pf k 34 1 < 1) || decide (80 < pf k 34 1))]
  | .linear =>
    let m := pf k 40 4
    let x := pf k 44 1 % 16
    let y := pf k 44 1 / 16
    workReserved k [(8, 8), (16, 8), (24, 8), (32, 8), (40, 4), (44, 1), (45, 1), (46, 1)] ++
    [addrBad k 8, addrBad k 16, addrBad k 24, addrBad k 32, (40, decide (m < 1) || decide (65536 < m)),
      (44, !xfmtOk x || !yfmtOk y), (44, bit (pf k 45 1) 0 && decide (1 < y)), (45, decide (4 ≤ pf k 45 1)),
      (46, decide (pf k 46 1 < 1) || decide (80 < pf k 46 1))]
  | .attend => workReserved k [(8, 8)] ++ [addrBad k 8, (8, decide (pa k 8 % 64 ≠ 0))]
  | .attendBwd => workReserved k [(8, 8)] ++ [addrBad k 8, (8, decide (pa k 8 % 64 ≠ 0))]
  | .appendKv =>
    let p := pf k 24 4
    let n := pf k 28 4
    workReserved k [(8, 8), (16, 8), (24, 4), (28, 4), (32, 2), (34, 1), (35, 1), (36, 1)] ++
    [addrBad k 8, addrBad k 16, (28, decide (n < 1) || decide (65536 < n)), (24, decide (1048576 < p + n)),
      (32, decide (16383 < pf k 32 2)), (35, pf k 35 1 = 0), (36, decide (2 ≤ pf k 36 1))]
  | .step =>
    workReserved k [(8, 8), (16, 8), (24, 8), (32, 2), (34, 2)] ++
    [addrBad k 8, addrBad k 16, addrBad k 24, (24, decide (pa k 24 % 8 ≠ 0)),
      (32, decide (pf k 32 2 < 1) || decide (256 < pf k 32 2)), (34, decide (pf k 34 2 < 1) || decide (256 < pf k 34 2))]
  | .copy =>
    workReserved k [(8, 8), (16, 8), (24, 8), (32, 8), (40, 8), (48, 4), (52, 1)] ++
    [addrBad k 8, addrBad k 16, addrBad k 24, addrBad k 32, addrBad k 40, (48, pa k 40 ≠ 0 && decide (65536 < pf k 48 4)),
      (52, decide (3 ≤ pf k 52 1))]
  | .collective =>
    workReserved k [(8, 8), (16, 8), (24, 8), (32, 2), (34, 2), (36, 1), (37, 1)] ++
    [addrBad k 8, addrBad k 16, addrBad k 24, (34, decide (pf k 34 2 < 1) || decide (256 < pf k 34 2)),
      (36, decide (16 < pf k 36 1)), (37, decide (2 ≤ pf k 37 1))]
  | .flagSet =>
    let sc := pf k 28 1 % 8
    let remote := bit (pf k 28 1) 3
    workReserved k [(8, 8), (16, 8), (24, 4), (28, 1)] ++
    [addrBad k 8, (8, decide (pa k 8 % 8 ≠ 0)), (28, decide (4 < sc) || decide (16 ≤ pf k 28 1) || (remote && sc ≠ 4)),
      (24, (peerBad k 24).2)]
  | .flagWait =>
    workReserved k [(8, 8), (16, 8), (24, 1)] ++
    [addrBad k 8, (8, decide (pa k 8 % 8 ≠ 0)), (24, decide (4 < pf k 24 1))]
  | .fence =>
    workReserved k [(8, 1)] ++
    [(8, decide (4 < pf k 8 1 % 8) || decide (32 ≤ pf k 8 1) || pf k 8 1 / 8 % 4 = 0)]
  | .nop => workReserved k []
  | .edit _ =>
    workReserved k [(8, 8), (16, 8), (24, 4), (28, 4), (32, 2), (34, 1), (35, 1), (36, 1), (37, 1), (38, 1), (39, 1), (40, 1),
      (41, 1), (42, 2)] ++ editChecks k
  | _ =>
    workReserved k [(8, 8), (16, 8), (24, 8), (32, 4), (36, 4), (40, 4), (44, 4), (48, 2), (50, 1), (51, 1), (52, 1), (53, 1)] ++
    [addrBad k 8, addrBad k 16, addrBad k 24, (40, decide (pf k 40 4 % 2048 ≠ 0)), peerBad k 44,
      (48, decide (16383 < pf k 48 2)), (51, pf k 51 1 = 0), (52, !pageFmtOk (pf k 52 1)), (53, decide (4 ≤ pf k 53 1)),
      (16, decide (pa k 16 % 8 ≠ 0))]

/-! ### Taking a packet -/

/-- What the sequencer finds about a packet that it may take: it completes at once with a status; it is not taken yet; a
fault of the packet, with reason and address; or it starts, in a state, as a packet, with what it then does. -/
inductive Verdict where
  | refuse (st : Status) (detail : Nat)
  | hold (s : State)
  | fault (s : State) (reason addr : Nat)
  | go (s : State) (j : Pkt) (f : State → State)

/-- Go on only if no check fails; otherwise `BAD_PARAM` with the lowest offset (R378). -/
def passing (cs : List (Nat × Bool)) (v : Verdict) : Verdict :=
  match firstBad cs with
  | some o => .refuse .badParam o
  | none => v

/-- Go on only where a condition of R379 does not fail. -/
def passUnless (bad : Bool) (st : Status) (v : Verdict) : Verdict := if bad then .refuse st 0 else v

/-- The fields of a packet pass, as far as one at an offset goes. -/
def fieldOk (cs : List (Nat × Bool)) (o : Nat) : Bool := !cs.any (fun c => c.1 = o && c.2)

/-- Read `n` bytes at a device address on a packet's behalf (R382): an address that is not mapped makes its field the
offending one; a line that the host holds exclusive is back-invalidated first; poison is a fault of the packet. -/
def State.withArg (s : State) (j : Pkt) (cs : List (Nat × Bool)) (field a n : Nat) (f : State → List Byte → Verdict) :
    Verdict :=
  if !fieldOk cs field then passing cs (.hold s)
  else match s.translateAll j.part j.ctx (addrRun a n) with
    | none => passing ((field, true) :: cs) (.hold s)
    | some ts => match s.heldUp j.part false ts with
      | some s => .hold s
      | none =>
        let (s, bad) := s.poisonIn (addrRun a n) ts
        match bad with
        | some e => passing cs (.fault s 5 e.1)
        | none =>
          let s := ((s.accessLines false true ts).countTraffic false false ts).cachePages j.part 10 j.ctx ts
          f s (s.bytesAt (placesOf ts))

/-- A flag of a context (R294): in a cacheable PART or DEV region, writable for an add. -/
def State.flagOk (s : State) (j : Pkt) (a : Nat) (ok : Region → Bool) : Bool :=
  a % 8 = 0 && (match s.access j.part j.ctx (addrRun a 8) ok with | .ok _ => true | .error _ => false)

/-- The host line of a queue's packet holds poison (R370). -/
def State.ringPoison (s : State) (w : WorkQ) (t : Seat) : Bool :=
  t.lane = 0 && s.hostPoison (w.base + 64 * (t.i.toNat % 2 ^ w.log2n)) 64

/-- The sequencer takes a packet (R343, R379): `body` sees the state, the packet and the checks on its own fields. -/
def takeWork (kd : PktKind) (q : Fin 256) (k : Packet) (body : State → Pkt → List (Nat × Bool) → Verdict) (s : State) :
    Host.Outcome State Fault Refusal :=
  match s.queue q with
  | none => .next s
  | some w =>
    if !rowTakes kd k then .next s
    else match s.seat q w kd k with
      | none => .next s
      | some t =>
        let j := newPkt q w t kd k
        let ended (st : Status) (d : Nat) : Pkt := { j with status := st, detail := BitVec.ofNat 32 d }
        let (mask, s) := s.fire (encKey 8 w.part.val 0 0 0)
        if mask.truncate 8 ≠ 0#8 then .next ((s.enlist j).faultCtx w.part w.ctx 5 0 j.wtag w.evq.val)
        else if s.ringPoison w t then .next ((s.enlist j).faultPkt j 5 (w.base + 64 * (t.i.toNat % 2 ^ w.log2n)) 0)
        else if (workKind k).isNone then .next (s.enlist (ended .badOpcode 0))
        else match body s j (workChecks kd k) with
          | .refuse st d => .next (s.enlist (ended st d))
          | .hold s => .next (if t.lane = 0 then s.visit q.val w else s)
          | .fault s reason a => .next ((s.enlist j).faultPkt j reason a 0)
          | .go s j f => .next (f (s.enlist j))

/-! ### Cores (R344, R345) -/

/-- Cores of a partition that a packet may be given: working, not used by a started packet, and with no instance of an earlier
share on its way to a cut point (R69, R113). -/
def State.freeCores (s : State) (p : Fin 4) : List CoreId :=
  (coresOfPart p).filter (fun c => s.working c && (s.core c).share.isNone && (s.core c).st ≠ .running && (s.core c).stopping.isEmpty)

/-- `n` things of a list, chosen freely (log 3). -/
def pickMany {α : Type} (ctr : Nat) : Nat → List α → List α
  | 0, _ => []
  | n + 1, l =>
    let k := Config.pick (ctr + n) % max 1 l.length
    match l[k]? with
    | some v => v :: pickMany ctr n (delNth l k)
    | none => []

/-- Cores for a packet that needs `n` of them: `NO_RESOURCE` if the partition has fewer working cores; a hold until so many
are free (R344). -/
def State.withCores (s : State) (j : Pkt) (n : Nat) (f : State → List CoreId → Verdict) : Verdict :=
  if ((coresOfPart j.part).filter s.working).length < n then .refuse .noResource 0
  else if (s.freeCores j.part).length < n then .hold s
  else f (s.draw n) (pickMany s.freeCtr n (s.freeCores j.part))

/-- The acquire that a packet's start performs in the clusters it runs on (R292). -/
def State.acquireFor (s : State) (cs : List CoreId) : State :=
  ((cs.map CoreId.cluster).dedup).foldl (fun s cl => s.updCluster cl Cluster.acquire) s

/-- The state of a core that starts a share (R44, R345): SP and ACC hold nothing of another context, and the halt
registers are clear. -/
def Core.startShare (x : Core) (sh : Share) (wtag : Word) (args entry : Nat) (image : List Byte) : Core :=
  let clean := x.lastCtx = some sh.ctx.val
  { x with
    a := Tbl.set 0 [] 0 (BitVec.ofNat 48 args)
    x := Tbl.set 0 (Tbl.set 0 [] 0 (BitVec.ofNat 32 sh.index)) 1 (BitVec.ofNat 32 sh.count)
    j := [(0, 1), (1, 1), (2, 1), (3, 1)]
    i := []
    bind := []
    tok := []
    tokPhase := 0
    mtag := 0
    wtag := wtag
    pc := BitVec.ofNat 17 entry
    prog := x.prog.setMany 0 0 image
    sp := if clean then x.sp else []
    acc := if clean then x.acc else []
    spErr := if clean then x.spErr else []
    accBad := if clean then x.accBad else []
    progBad := x.progBad.clear 0 image.length
    regBad := []
    inflight := []
    cur := none
    curDone := 0
    curDesc := []
    idle := 0
    hold := none
    ended := false
    issued := 0
    dmaQ := []
    matQ := []
    vecQ := []
    runs := []
    st := .running
    hReason := 0
    hSlot := 7
    hMore := false
    hReg := 0
    hFile := 0
    hLevel := 0
    hPc := 0
    hWtag := 0
    hMtag := 0
    hAddr := 0
    hIdx := 0
    spLive := 0
    accLive := 0
    share := some sh
    lastCtx := some sh.ctx.val }

/-- Start a share of a packet on a core, with its trace record (R44, R73). -/
def State.startShare (s : State) (j : Pkt) (c : CoreId) (index count args entry replays : Nat) (image : List Byte) : State :=
  let sh : Share := ⟨j.q, j.i, j.lane, j.laneIdx, j.ctx, index, count, replays, 0⟩
  let s := s.updCore c (fun x => x.startShare sh j.wtag args entry image)
  s.trace c 8 0 entry 0 entry

/-- Start every share of a packet (R344). -/
def State.startShares (s : State) (j : Pkt) (args entry : Nat) (image : List Byte) : State :=
  (j.cores.zipIdx).foldl (fun (s : State) (e : CoreId × Nat) => s.startShare j e.1 e.2 j.cores.length args entry 0 image)
    (s.acquireFor j.cores)

/-! ### `RUN` -/

/-- `RUN` (R344). -/
def takeRun (s : State) (j : Pkt) (cs : List (Nat × Bool)) : Verdict :=
  let k := j.pkt
  s.withArg j cs 8 (pa k 8) (if fieldOk cs 24 then pf k 24 4 else 1) (fun s image =>
    passing cs (s.withCores j (pf k 34 1) (fun s cores =>
      let j := { j with
        cores := cores
        sharesLeft := cores.length
        replayable := (s.part j.part).disjoint.getLsbD j.ctx.val }
      .go s j (fun s => s.startShares j (pa k 16) (pf k 32 2) image))))

/-- `RUN` (R344): the sequencer takes the packet. -/
def execRunPacket (q : Fin 256) (k : Packet) (s : State) : Host.Outcome State Fault Refusal := takeWork .run q k takeRun s

/-- `NOP` (R382). -/
def execNop (q : Fin 256) (k : Packet) (s : State) : Host.Outcome State Fault Refusal :=
  takeWork .nop q k (fun s j cs => passing cs (.go s j id)) s

/-! ### `FENCE`, `FLAG_SET`, `FLAG_WAIT` (R293) -/

/-- Writes that the packets of a queue have sent over links: those of its cores and its own, not those of the serves that a
partition runs for peers, which are marked 361. -/
def queueWrites (q : Nat) : Nat × Nat → Bool := fun e => e.2 = q && e.1 ≠ 361

/-- What a `FENCE` or a `FLAG_SET` does once its release is done: no drain marker of it is out. -/
def State.afterRelease (s : State) (j : Pkt) : State :=
  if s.draining j.part j.waiter then s
  else match j.kind with
    | .fence => s.updPkts (fun x => x.q = j.q && x.i = j.i && x.lane = j.lane && x.laneIdx = j.laneIdx)
        (fun x => { x with effect := true })
    | .flagSet =>
      match (if bit (pf j.pkt 28 1) 3 then peerLink (BitVec.ofNat 32 (pf j.pkt 24 4)) else none) with
      | some l =>
        let s := s.markWrite l 360 j.q
        s.request l j.waiter (s.mkMsg { MsgSpec.zero with
          type := 0x05, dctx := s.farCtx j.ctx l, addr := pa j.pkt 8, value := pf j.pkt 16 8 })
      | none => s
    | _ => s

/-- `FENCE` (R293): its acquire discards nothing, since the packet runs on no cluster (R282). -/
def execFencePacket (q : Fin 256) (k : Packet) (s : State) : Host.Outcome State Fault Refusal :=
  takeWork .fence q k (fun s j cs => passing cs (.go s j (fun s =>
    let s := if pf k 8 1 % 8 = 4 && bit (pf k 8 1) 3 then s.drainLinks j.part j.waiter (queueWrites j.q) else s
    s.afterRelease j))) s

/-- `FLAG_SET` (R293): the release, then the add at the flag's home or the message to the peer. -/
def execFlagSet (q : Fin 256) (k : Packet) (s : State) : Host.Outcome State Fault Refusal :=
  takeWork .flagSet q k (fun s j cs =>
    let remote := bit (pf k 28 1) 3
    let cs := cs ++ [(8, !remote && fieldOk cs 8 && !s.flagOk j (pa k 8) Region.atomicOk)]
    let barred := match peerLink (BitVec.ofNat 32 (pf k 24 4)) with
      | some l => remote && !s.granted j.part j.ctx l
      | none => false
    passing cs (passUnless barred .denied (.go s j (fun s =>
      let s := if pf k 28 1 % 8 = 4 then s.drainLinks j.part j.waiter (queueWrites j.q) else s
      s.afterRelease j)))) s

/-- `FLAG_WAIT` (R293): its flag is read at its home. -/
def execFlagWait (q : Fin 256) (k : Packet) (s : State) : Host.Outcome State Fault Refusal :=
  takeWork .flagWait q k (fun s j cs =>
    passing (cs ++ [(8, fieldOk cs 8 && !s.flagOk j (pa k 8) Region.homed)]) (.go s j id)) s

/-! ### `STEP` (R357) -/

/-- The opcodes that a lane allows (R357). -/
def laneAllows (lane : Nat) : PktKind → Bool
  | .run => lane = 1
  | .copy => lane = 1
  | .edit _ => lane = 2
  | .linear => true
  | .attend => true
  | .appendKv => true
  | .flagSet => true
  | .flagWait => true
  | .fence => true
  | .nop => true
  | _ => false

/-- Checks of one entry of a lane, at its offset in the list (R357, R378). -/
def entryChecks (lane n : Nat) (k : Packet) : List (Nat × Bool) :=
  let at' := 0x10000 + 64 * n
  match workKind k with
  | none => [(at', true)]
  | some kd => if laneAllows lane kd then (workChecks kd k).map (fun c => (at' + c.1, c.2)) else [(at', true)]

/-- The packets of a list. -/
def listPackets (l : List Byte) : List Packet := (chunks 64 l.length l).map (fun b => BitVec.ofNat 512 (leNat b))

/-- `STEP` (R357): the sequencer reads both lists and checks every entry. -/
def takeStep (s : State) (j : Pkt) (cs : List (Nat × Bool)) : Verdict :=
  let k := j.pkt
  let cs := cs ++ [(24, fieldOk cs 24 && !s.flagOk j (pa k 24) Region.atomicOk)]
  if !fieldOk cs 32 || !fieldOk cs 34 then passing cs (.hold s)
  else s.withArg j cs 8 (pa k 8) (64 * laneCount k 1) (fun s thick =>
    s.withArg j cs 16 (pa k 16) (64 * laneCount k 2) (fun s thin =>
      let entries := ((listPackets thick).zipIdx).flatMap (fun (e : Packet × Nat) => entryChecks 1 e.2 e.1)
        ++ ((listPackets thin).zipIdx).flatMap (fun (e : Packet × Nat) => entryChecks 2 e.2 e.1)
      passing (cs ++ entries) (.go s { j with args := thick ++ thin } id)))

/-- `STEP` (R357). -/
def execStepPacket (q : Fin 256) (k : Packet) (s : State) : Host.Outcome State Fault Refusal := takeWork .step q k takeStep s

end Sys2Proof.Machine
end

