-- ==== Sys2Proof/Machine/Library.lean ====
section
/-! DEFINITION. Packets that run library programs on cores (R344): how their reads and writes meet translation, the host's
lines, poison and SHARED_RO regions (R175, R368, R397, R399, R239), and the packets `LINEAR` and `COPY` up to their start. -/

namespace Sys2Proof.Machine

/-! ### Running a library program -/

/-- What a library program writes: bytes by device address, and elements that it adds at their homes (format, bit, pattern);
only outputs that no poisoned input enters. -/
structure LibOut where
  writes : List (Nat × Byte)
  adds : List (Nat × Nat × Nat)
  deriving DecidableEq, Repr

/-- What a packet's program may touch: addresses that it reads, and what their regions and those of its outputs must be. -/
structure LibJob where
  reads : List Nat
  readOk : Region → Bool
  writeOk : Region → Bool
  /-- what it writes, given which addresses are poisoned -/
  work : State → (Nat → Bool) → LibOut
  /-- places that its page walker reads (R175), and for each the device address and SHARED_RO flag of its region -/
  pages : List Place
  owner : Place → Nat × Bool

/-- A fault of a packet that runs on cores halts one of them, no rule says which (log 3); a packet that runs on cluster
DMA engines alone has a `WORK_FAULT` record. -/
def State.libFault (s : State) (k : Pkt) (reason addr : Nat) : State :=
  match s.choose (s.coresOfPkt k) with
  | some c => (s.draw 1).haltCore c ⟨reason, 3, false, 6, 0, 0, 0, 0, addr, 0⟩
  | none => s.faultPkt k 5 addr 0

/-- Clusters that a packet runs on. -/
def Pkt.clusters (k : Pkt) : List ClusterId := (k.cores.map CoreId.cluster).dedup

/-- Write a program's outputs: plain writes, then the additions at their homes. -/
def State.libWrite (s : State) (k : Pkt) (ts : List Xlat) (o : LibOut) : State :=
  let s := s.devWrite none ts (o.writes.map Prod.snd)
  let s := (k.clusters).foldl (fun s cl => s.updCluster cl (fun y => y.dropGroups (groupsOf (placesOf ts)))) s
  let s := o.adds.foldl (fun s a =>
    let s := match (s.translate k.part k.ctx (a.2.1 / 8)).map Xlat.place with
      | some (.dram d) =>
        (k.clusters.foldl (fun (s : State) cl => s.updCluster cl (fun y => y.dropGroups [d / 64])) s).lineAccess true true (d / 128)
          |>.countAtomic d
      | _ => s
    s.reduceAll k.part k.ctx 0 a.1 [(a.2.1, a.2.2)]) s
  s.retest

/-- Bytes of BANK memory that a page walker reads through the stacks' interfaces. -/
def State.countPages (s : State) (ps : List Place) : State :=
  (List.finRange 12).foldl (fun s st =>
    let n := (ps.filter (fun pl => match pl with | .dram k => keyStack k = st.val | .host _ => false)).length
    if n = 0 then s else s.updStack st (fun k => { k with rdBytes := satAdd k.rdBytes n })) s

/-- Run a program whole. The flag says that it is done; otherwise it waits, is parked, or has failed. Outputs written before
a fault remain: how many is free, and none derives from poison (R239). -/
def State.runLibrary (s : State) (k : Pkt) (j : LibJob) : State × Bool :=
  match s.access k.part k.ctx j.reads j.readOk with
  | .error b => (s.libFault k b.1 b.2, false)
  | .ok ts => match s.heldUp k.part false ts with
    | some s => (s, false)
    | none =>
      let (s, bad) := s.poisonIn j.reads ts
      let s := s.touch (groupsOf j.pages)
      let bad := bad <|> (s.firstPoison j.pages).map (fun pl => ((j.owner pl).1, pl, (j.owner pl).2))
      let badAt (a : Nat) : Bool := match (j.reads.zip ts).find? (fun e => e.1 = a) with
        | some e => match e.2.place with
          | .dram d => s.groupPoisoned (d / 64)
          | .host h => s.hostErr.get false (h / 64)
        | none => false
      let o := j.work s badAt
      let addAs := (o.adds.flatMap (fun a => bitBytes a.2.1 (rawWidth a.1))).dedup
      match s.access k.part k.ctx (o.writes.map Prod.fst) j.writeOk, s.access k.part k.ctx addAs Region.atomicOk with
      | .error b, _ => (s.libFault k b.1 b.2, false)
      | _, .error b => (s.libFault k b.1 b.2, false)
      | .ok tw, .ok ta => match s.heldUp k.part true (tw ++ ta) with
        | some s => (s, false)
        | none =>
          let s := ((s.accessLines false true ts).countTraffic false false ts).countPages j.pages
          let s := k.clusters.foldl (fun s cl => s.cachePages k.part cl.c.val k.ctx (ts ++ tw ++ ta)) s
          match bad with
          | some e =>
            if e.2.2 then
              let s := s.updPkts (fun x => x = k) (fun x => { x with parked := true })
              (s.park k.part k.ctx (.prog k.q k.i k.lane k.laneIdx) e.2.1 e.1 k.wtag (s.evqOf k.q), false)
            else
              let n := Config.landed s.freeCtr % (o.writes.length + 1)
              let s := (s.draw 1).libWrite k (tw.take n) ⟨o.writes.take n, []⟩
              (s.libFault k 0x32 e.1, false)
          | none => ((s.draw (o.writes.length + o.adds.length + 1)).libWrite k tw o, true)

/-- A packet placed in the stacks, with the numbers of its stack commands. -/
def Pkt.inStack (j : Pkt) (plan : List Nat) : Pkt :=
  { j with
    inStacks := true
    cmdsLeft := plan.length
    plan := plan }

/-- Byte ranges meet, as first byte and length. -/
def rangesMeet (a b : Nat × Nat) : Bool := overlap a.1 a.2 b.1 b.2

/-- Start a library packet on cores (R344): its program's text is not published, and none of its bundles is a command. -/
def State.onCores (s : State) (j : Pkt) (n args : Nat) (outs ins : List (Nat × Nat)) : Verdict :=
  s.withCores j n (fun s cores =>
    let j := { j with
      cores := cores
      sharesLeft := cores.length
      replayable := !outs.any (fun o => ins.any (rangesMeet o)) }
    .go s j (fun s => s.startShares j args 0 []))

/-! ### `LINEAR`: its operands (R466) -/

/-- Depth, rows and activation rows of a `LINEAR`. -/
def linK (d : Desc) : Nat := d.te 0
def linN (d : Desc) : Nat := d.te 1
def linM (k : Packet) : Nat := pf k 40 4
def linX (k : Packet) : Nat := pf k 44 1 % 16
def linY (k : Packet) : Nat := pf k 44 1 / 16

/-- Bytes of `n` dense elements of a format with their block scales. -/
def denseBytes (fmt n : Nat) : Nat := cdiv (n * elemWidth fmt) 8 + (if isMx fmt then n / 32 else 0)

/-- One address in each 4 KiB of a footprint, and its last byte. -/
def footPages (f : Int × Int) : List Nat :=
  let lo := f.1.toNat
  let hi := f.2.toNat
  (List.range ((hi - lo) / 4096 + 1)).map (fun n => lo + 4096 * n) ++ [hi]

/-- Checks on the weight descriptor (R144, R466): a sharded one is refused, whatever follows it. -/
def weightChecks (l : List Byte) : List (Nat × Bool) :=
  let d := Desc.ofBytes l
  descChecks .all l none ++ [(0, decide (2 < d.layout)), (1, decide (2 < d.ndim))]
    ++ (List.range 4).map (fun n => (12 + 4 * n, decide (d.be n ≠ d.te n)))

/-- The weight's memory is as R466 needs it. -/
def State.weightOk (s : State) (p : Fin 4) (x : Fin 16) (d : Desc) : Bool :=
  (footPages d.tensorFoot).all (fun a => match s.translate p x a with
    | some t => if d.layout = 2 then t.region.kind = .bank else t.region.kind = .part || t.region.kind = .dev
    | none => false)

/-- Checks of R466 that need the descriptor; the packet's own fields count before the descriptor's (R378). -/
def State.linearChecks (s : State) (j : Pkt) (l : List Byte) : List (Nat × Bool) :=
  let k := j.pkt
  let d := Desc.ofBytes l
  let y := denseBytes (linY k) (linM k * linN d)
  [(8, !s.weightOk j.part j.ctx d), (44, linX k ≠ 1 && !mmaPair (linX k) d.fmt),
    (44, isMx (linX k) && linK d % 32 ≠ 0), (44, isMx (linY k) && linN d % 32 ≠ 0),
    (24, bit (pf k 45 1) 0 && (footPages (pa k 24, pa k 24 + y - 1)).any (fun a =>
      match s.regionAt j.part j.ctx a with | some e => !e.2.cacheable | none => false))]
    ++ (weightChecks l).map (fun c => (0x10000 + c.1, c.2))

/-- Every byte of a run lies in PART or DEV regions of the context. -/
def State.inPartDev (s : State) (p : Fin 4) (x : Fin 16) (a n : Nat) : Bool :=
  (footPages (a, a + n - 1)).all (fun b => match s.regionAt p x b with
    | some e => e.2.kind = .part || e.2.kind = .dev
    | none => false)

/-- A `LINEAR` is placed in the stacks (R198); a thick lane's packets never are (R357). -/
def State.linearInStacks (s : State) (j : Pkt) (d : Desc) : Bool :=
  let k := j.pkt
  j.lane ≠ 1 && decide (linM k ≤ (s.part j.part).thinMax.toNat) && d.layout = 2 && [1, 3, 4, 5, 6, 7, 9].contains d.fmt
    && decide (linK d * d.w ≤ 8 * 65536) && linX k = 1 && decide (linY k ≤ 1)
    && s.inPartDev j.part j.ctx (pa k 16) (denseBytes 1 (linM k * linK d))
    && s.inPartDev j.part j.ctx (pa k 24) (denseBytes (linY k) (linM k * linN d))

/-- Device addresses of the bytes of weight row `n`. -/
def weightRow (d : Desc) (n : Nat) : List Nat :=
  ((List.range (linK d)).flatMap (fun k => bitBytes (d.memBit d.tbase (k, n, 0, 0)) d.w)).dedup

/-- The stack of a device address. -/
def State.stackAt (s : State) (p : Fin 4) (x : Fin 16) (a : Nat) : Option (Fin 12) :=
  match (s.translate p x a).map Xlat.place with
  | some (.dram k) => some ⟨keyStack k % 12, by omega⟩
  | _ => none

/-- The stacks that hold bytes of a weight (R201). -/
def State.weightStacks (s : State) (j : Pkt) (d : Desc) : List (Fin 12) :=
  let as := (List.range (linN d)).flatMap (fun n => weightRow d n)
  (List.finRange 12).filter (fun st => as.any (fun a => s.stackAt j.part j.ctx a = some st))

/-- The footprints of a `LINEAR`'s inputs and output (R412). -/
def linearFoots (k : Packet) (d : Desc) : (Nat × Nat) × List (Nat × Nat) :=
  let f := d.tensorFoot
  ((pa k 24, denseBytes (linY k) (linM k * linN d)),
    [(f.1.toNat, (f.2 - f.1 + 1).toNat), (pa k 16, denseBytes (linX k) (linM k * linK d))]
      ++ (if pa k 32 = 0 then [] else [(pa k 32, 4 * linN d)]))

/-- `LINEAR` (R198, R466). -/
def takeLinear (s : State) (j : Pkt) (cs : List (Nat × Bool)) : Verdict :=
  let k := j.pkt
  s.withArg j cs 8 (pa k 8) 64 (fun s l =>
    let d := Desc.ofBytes l
    let j := { j with args := l }
    passing (cs ++ s.linearChecks j l) (
      if s.linearInStacks j d then
        .go s (j.inStack ((s.weightStacks j d).map Fin.val)) id
      else
        let f := linearFoots k d
        s.onCores j (pf k 46 1) (pa k 8) [f.1] f.2))

/-- `LINEAR` (R198, R201, R344, R466). -/
def execLinear (q : Fin 256) (k : Packet) (s : State) : Host.Outcome State Fault Refusal := takeWork .linear q k takeLinear s

/-! ### `LINEAR` on cores (R120, R466) -/

/-- Bytes by device address, as a program reads them. -/
def State.devBytes (s : State) (k : Pkt) : Nat → Byte := fun a =>
  match s.translate k.part k.ctx a with
  | some t => s.byteAt t.place
  | none => 0

/-- The address of the block scale that covers element `i` of an MX tensor (R152, R153, R465). -/
def Desc.scaleAt (d : Desc) (i : Nat × Nat × Nat × Nat) : Nat :=
  if d.layout = 1 then
    d.tbase + ix i d.ld / 128 * tileLen d.fmt (d.te d.sd) + 128 * d.te d.sd * d.w / 8 + 128 * (ix i d.sd / 32)
      + ix i d.ld % 128
  else ((d.tbase : Int) + d.soff + d.flat i / 32).toNat

/-- The value of weight element (`n`, `k`), scale included; the raw values of a Contour weight are given. -/
def weightVal (d : Desc) (mem : Nat → Byte) (raw : Array Nat) (n k : Nat) : Val :=
  let i := (k, n, 0, 0)
  if isContour d.fmt then elemVal d.fmt (raw.getD ((d.memBit d.tbase i - 8 * d.tbase) / 16) 0)
  else
    let v := elemVal d.fmt (getBits mem (d.memBit d.tbase i) d.w)
    if isMx d.fmt then match e8m0 (mem (d.scaleAt i)).toNat with
      | some e => scaleVal e v
      | none => .nan
    else v

/-- Addresses that weight element (`n`, `k`) comes from. -/
def weightAddrs (d : Desc) (n k : Nat) : List Nat :=
  let i := (k, n, 0, 0)
  bitBytes (d.memBit d.tbase i) d.w ++ (if isMx d.fmt then [d.scaleAt i] else [])

/-- Element `e` of a dense row-major operand of `total` elements (R466): its value and the addresses it comes from. -/
def denseVal (fmt a total : Nat) (mem : Nat → Byte) (e : Nat) : Val :=
  let w := elemWidth fmt
  let v := elemVal fmt (getBits mem (8 * a + e * w) w)
  if isMx fmt then match e8m0 (mem (a + cdiv (total * w) 8 + e / 32)).toNat with
    | some x => scaleVal x v
    | none => .nan
  else v
def denseAddrs (fmt a total e : Nat) : List Nat :=
  let w := elemWidth fmt
  bitBytes (8 * a + e * w) w ++ (if isMx fmt then [a + cdiv (total * w) 8 + e / 32] else [])

/-- A running sum over groups (R120, R121): where a library program ends one `MMA` and begins the next, the sum is rounded
to FP32 (`Config.tileCut`, log 3). -/
def mmaCuts (ctr : Nat) (groups : List Word) : Word :=
  flush32 (groups.zipIdx.foldl (fun (acc : Val) (g : Word × Nat) =>
    let acc := runRound (addVal acc (val32 g.1))
    if Config.tileCut ctr g.2 then val32 (flush32 acc) else acc) (.fin false 0 0))

/-- The sum over k of products, in groups of 32 (R120). -/
def dotGroups (kk : Nat) (x w : Nat → Val) : List Word :=
  (List.range (cdiv kk 32)).map (fun g =>
    groupSum (some 0) ((List.range (min 32 (kk - 32 * g))).map (fun t => mulVal (x (32 * g + t)) (w (32 * g + t)))))

/-- The coded bytes of a Contour weight, as addresses. -/
def contourAddrs (d : Desc) (mem : Nat → Byte) : List Nat :=
  addrRun d.tbase (codedBytes (fun n => mem (d.tbase + n)) (d.total / chunkValues) 0)

/-- Addresses that a `LINEAR` on cores reads. -/
def linearReads (k : Packet) (d : Desc) (mem : Nat → Byte) : List Nat :=
  ((if isContour d.fmt then contourAddrs d mem
    else (List.range (linN d)).flatMap (fun n => (List.range (linK d)).flatMap (weightAddrs d n)))
    ++ addrRun (pa k 16) (denseBytes (linX k) (linM k * linK d))
    ++ (if pa k 32 = 0 then [] else addrRun (pa k 32) (4 * linN d))).dedup

/-- The result y[m][n] before conversion, exact where the row scale is applied exactly (`MDRAIN`) and rounded to FP32 where
the program multiplies first; which it does is free (log 3). -/
def linearVal (k : Packet) (d : Desc) (mem : Nat → Byte) (raw : Array Nat) (ctr m n : Nat) : Val :=
  let direct := mmaPair (linX k) d.fmt
  let w (t : Nat) : Val :=
    let v := weightVal d mem raw n t
    if direct then v else bf16.decode (bf16.encode .even false v)
  let x (t : Nat) : Val := denseVal (linX k) (pa k 16) (linM k * linK d) mem (m * linK d + t)
  let sum := val32 (mmaCuts ctr (dotGroups (linK d) x w))
  if pa k 32 = 0 then sum
  else
    let y := mulVal sum (val32 (BitVec.ofNat 32 (leNat ((addrRun (pa k 32 + 4 * n) 4).map mem))))
    if Config.libraryFused ctr then y else val32 (to32 y)

/-- The poison that reaches y[m][n]. -/
def linearBad (k : Packet) (d : Desc) (coded : List Nat) (bad : Nat → Bool) (m n : Nat) : Bool :=
  (if isContour d.fmt then coded.any bad else (List.range (linK d)).any (fun t => (weightAddrs d n t).any bad))
    || (List.range (linK d)).any (fun t => (denseAddrs (linX k) (pa k 16) (linM k * linK d) (m * linK d + t)).any bad)
    || (pa k 32 ≠ 0 && (addrRun (pa k 32 + 4 * n) 4).any bad)

/-- Every output of a `LINEAR` on cores. -/
def linearOut (k : Packet) (d : Desc) (raw : Array Nat) (coded : List Nat) (mem : Nat → Byte) (ctr : Nat) (bad : Nat → Bool) :
    LibOut :=
  let total := linM k * linN d
  let y := linY k
  let w := elemWidth y
  let bs := narrowList y (bit (pf k 45 1) 1) false ctr
    ((List.range total).map (fun e => linearVal k d mem raw ctr (e / linN d) (e % linN d)))
  let good (e : Nat) : Bool := !linearBad k d coded bad (e / linN d) (e % linN d)
  if bit (pf k 45 1) 0 then
    ⟨[], ((List.range total).filter good).map (fun e => (y, 8 * (pa k 24) + e * w, bitsAt bs (e * w) w))⟩
  else
    let elems := cdiv (total * w) 8
    let deps (o : Nat) : List Nat :=
      if o < elems then ((List.range total).drop (8 * o / w)).take (cdiv (8 * o % w + 8) w)
      else ((List.range total).drop (32 * (o - elems))).take 32
    let from' (o : Nat) : List Nat := if isMx y && o < elems then
        (List.range total).filter (fun e => (deps o).any (fun f => e / 32 = f / 32))
      else deps o
    ⟨(bs.zipIdx.filter (fun (b : Byte × Nat) => (from' b.2).all good)).map (fun (b : Byte × Nat) => (pa k 24 + b.2, b.1)), []⟩

/-- A `LINEAR` on cores performs its work. A malformed chunk of a Contour weight counts as poison (R140). -/
def State.runLinear (s : State) (k : Pkt) : State × Bool :=
  let d := Desc.ofBytes k.args
  let mem := s.devBytes k
  let coded := contourAddrs d mem
  let job (raw : Array Nat) : LibJob :=
    ⟨linearReads k.pkt d mem, fun _ => true, Region.writable false,
      fun s bad => linearOut k.pkt d raw coded (s.devBytes k) s.freeCtr bad, [], fun _ => (0, false)⟩
  if isContour d.fmt then
    match expandChunks (d.fmt = 0xB) (d.total / chunkValues) d.tbase (coded.map mem) with
    | .ok vs => s.runLibrary k (job vs.toArray)
    | .error a =>
      match s.access k.part k.ctx coded (fun _ => true) with
      | .error b => (s.libFault k b.1 b.2, false)
      | .ok ts => match s.heldUp k.part false ts with
        | some s => (s, false)
        | none => if (s.firstPoison (placesOf ts)).isSome then s.runLibrary k (job #[]) else (s.libFault k 0x32 a, false)
  else s.runLibrary k (job #[])

/-! ### `COPY` (R384) -/

/-- The descriptors of a `COPY`: the source's 128 bytes, then the destination's. -/
def copyDesc (k : Pkt) (dst : Bool) : Desc := Desc.ofBytes ((k.args.drop (if dst then 128 else 0)).take 64)
/-- The index list of a `COPY`. -/
def copyIdx (k : Pkt) : List Int := (List.range (pf k.pkt 48 4)).map (fun n => signed 32 (lf k.args (256 + 4 * n) 4))

/-- Checks on the descriptors and blocks of a `COPY` of a block. -/
def blockChecks (k : Packet) (sl dl : List Byte) : List (Nat × Bool) :=
  let sd := Desc.ofBytes (sl.take 64)
  let dd := Desc.ofBytes (dl.take 64)
  let blk := (descChecks .all (sl.take 64) (some (sl.drop 64)) ++ descChecks .all (dl.take 64) (some (dl.drop 64))).map
    (fun c => (0x10000 + c.1, c.2))
  if blk.any (fun c => c.2) then blk
  else blk ++ [(0x10001, decide (sd.fmt ≠ dd.fmt)), (0x1001C, decide (sd.count ≠ dd.count)), (0x1001C, !dd.noAlias),
    (24, !sd.inBounds (pa k 24)), (32, !dd.inBounds (pa k 32))]

/-- Checks on the table and the index list of a `COPY` that gathers (R89). -/
def gatherChecks (k : Packet) (sl idx : List Byte) : List (Nat × Bool) :=
  let d := Desc.ofBytes (sl.take 64)
  let blk := (descChecks .pick (sl.take 64) none).map (fun c => (0x10000 + c.1, c.2))
  if blk.any (fun c => c.2) then blk
  else blk ++ (List.range (pf k 48 4)).map (fun n =>
    let i := signed 32 (lf idx (4 * n) 4)
    (0x10000 + 4 * n, decide (i < 0) || decide ((d.te 1 : Int) ≤ i)))

/-- Device addresses of row `i` of a gathered table. -/
def gatherRow (k : Packet) (d : Desc) (i : Int) : List Nat :=
  addrRun ((pa k 24 : Int) + i * d.st 1 * d.w / 8).toNat (pickRow d)

/-- The table of a gather lies in a BANK region. -/
def State.gatherInStacks (s : State) (j : Pkt) : Bool :=
  match s.regionAt j.part j.ctx (pa j.pkt 24) with
  | some e => e.2.kind = .bank
  | none => false

/-- The stacks that hold rows of a gathered table. -/
def State.gatherStacks (s : State) (j : Pkt) : List (Fin 12) :=
  let as := (copyIdx j).flatMap (gatherRow j.pkt (copyDesc j false))
  (List.finRange 12).filter (fun st => as.any (fun a => s.stackAt j.part j.ctx a = some st))

/-- The first cluster of a partition that is free: enabled, with no core in use (DEDUCED, log 31). -/
def State.freeCluster (s : State) (p : Fin 4) : Option ClusterId :=
  (clustersOf p).find? (fun cl => !(s.cluster cl).disabled && (coresOf cl).all (fun c => (s.core c).share.isNone))

/-- Start a `COPY` on the DMA engines of the first free cluster; it waits while none is free. -/
def State.copyOnEngines (s : State) (j : Pkt) : Verdict :=
  match s.freeCluster j.part with
  | none => .hold s
  | some cl =>
    let j := { j with cores := [⟨cl.p, cl.c, 0⟩] }
    .go s j (fun s => s.acquireFor j.cores)

/-- Read a descriptor, and the shard header after it where `SHARDED` is 1 (R157): 128 bytes, zeros where there is none. -/
def State.withDesc (s : State) (j : Pkt) (cs : List (Nat × Bool)) (field a : Nat) (f : State → List Byte → Verdict) :
    Verdict :=
  s.withArg j cs field a 64 (fun s l =>
    if bit (lf l 2 1) 0 then s.withArg j cs field a 128 f else f s (padTo 128 l))

/-- `COPY` (R384). -/
def takeCopy (s : State) (j : Pkt) (cs : List (Nat × Bool)) : Verdict :=
  let k := j.pkt
  if pa k 40 = 0 then
    s.withDesc j cs 8 (pa k 8) (fun s sl => s.withDesc j cs 16 (pa k 16) (fun s dl =>
      passing (cs ++ blockChecks k sl dl) (
        let j := { j with args := sl ++ dl }
        let sf := (Desc.ofBytes (sl.take 64)).addrs (pa k 24)
        let df := (Desc.ofBytes (dl.take 64)).addrs (pa k 32)
        s.copyOnEngines { j with replayable := !df.any sf.contains })))
  else if !fieldOk cs 48 then passing cs (.hold s)
  else
    s.withArg j cs 8 (pa k 8) 64 (fun s sl => s.withArg j cs 40 (pa k 40) (4 * pf k 48 4) (fun s idx =>
      passing (cs ++ gatherChecks k sl idx) (
        let j := { j with args := padTo 256 (padTo 128 sl) ++ idx }
        if s.gatherInStacks j then .go s (j.inStack ((s.gatherStacks j).map Fin.val)) id
        else s.copyOnEngines j)))

/-- `COPY` (R384). -/
def execCopyPacket (q : Fin 256) (k : Packet) (s : State) : Host.Outcome State Fault Refusal := takeWork .copy q k takeCopy s

/-- Bits that a `COPY` of a block moves: source, destination, width (elements in index order, then scales). -/
def copyPieces (k : Pkt) : List (Nat × Nat × Nat) :=
  let sd := copyDesc k false
  let dd := copyDesc k true
  let a := pa k.pkt 24
  let b := pa k.pkt 32
  (List.zipWith (fun i j => (sd.memBit a i, dd.memBit b j, sd.w)) sd.indices dd.indices)
    ++ List.zipWith (fun (x y : Nat × Nat) => (8 * x.1, 8 * y.1, 8)) (sd.scaleBytes a) (dd.scaleBytes b)

/-- Bytes that a `COPY` writes, from the memory it reads; only those that no poisoned byte enters. -/
def copyOut (k : Pkt) (mem : Nat → Byte) (bad : Nat → Bool) : LibOut :=
  let sd := copyDesc k false
  let a := pa k.pkt 24
  let b := pa k.pkt 32
  if pa k.pkt 40 ≠ 0 then
    let src := (copyIdx k).flatMap (gatherRow k.pkt sd)
    ⟨(src.zipIdx.filter (fun (e : Nat × Nat) => !bad e.1)).map (fun (e : Nat × Nat) => (b + e.2, mem e.1)), []⟩
  else if isContour sd.fmt then
    let n := codedBytes (fun n => mem (a + n)) (sd.count / chunkValues) 0
    ⟨((List.range n).filter (fun o => !bad (a + o))).map (fun o => (b + o, mem (a + o))), []⟩
  else
    let ps := (copyPieces k).filter (fun p => !((bitBytes p.1 p.2.2).any bad))
    ⟨ps.foldl (fun (t : Tbl Byte) p => putBits mem t p.2.1 p.2.2 (getBits mem p.1 p.2.2)) [], []⟩

/-- Addresses that a `COPY` reads. -/
def copyReads (k : Pkt) (mem : Nat → Byte) : List Nat :=
  let sd := copyDesc k false
  let a := pa k.pkt 24
  if pa k.pkt 40 ≠ 0 then ((copyIdx k).flatMap (gatherRow k.pkt sd)).dedup
  else if isContour sd.fmt then addrRun a (codedBytes (fun n => mem (a + n)) (sd.count / chunkValues) 0)
  else sd.addrs a

/-- A `COPY` on cluster DMA engines performs its work. -/
def State.runCopy (s : State) (k : Pkt) : State × Bool :=
  let kindOk (r : Region) : Bool := pa k.pkt 40 ≠ 0 || (copyDesc k false).kindOk r
  s.runLibrary k ⟨copyReads k (s.devBytes k), fun r => kindOk r && (pa k.pkt 40 = 0 || r.kind ≠ .host),
    fun r => Region.writable false r && (pa k.pkt 40 ≠ 0 || (copyDesc k true).kindOk r),
    fun s bad => copyOut k (s.devBytes k) bad, [], fun _ => (0, false)⟩

end Sys2Proof.Machine
end

