-- ==== Sys2Proof/Machine/Attend.lean ====
section
/-! DEFINITION. Fused attention (R252 to R261, R271): the argument block of R383 and its checks, what a row sees, scores, blocks
and their fold in both placements, row statistics, missing spans, and the packets `ATTEND` and `ATTEND_BWD`. -/

namespace Sys2Proof.Machine

/-! ### The argument block (R252, R383) -/

/-- The fields of the block. `ofmt` and `dqfmt` are element formats: 1 BF16, 0 FP32. -/
structure Att where
  tensor : Bool
  causal : Bool
  window : Bool
  plane : Bool
  ofmt : Nat
  dqfmt : Nat
  g0 : Nat
  ng : Nat
  gq : Nat
  d : Nat
  seq : Nat
  qt : Nat
  qpos : Nat
  w : Nat
  tk : Nat
  sigma : Word
  cap : Word
  q : Nat
  o : Nat
  stats : Nat
  planeA : Nat
  pstride : Nat
  cores : Nat
  k : Nat
  v : Nat
  miss : Nat
  dO : Nat
  dq : Nat
  dk : Nat
  dv : Nat
  deriving DecidableEq, Repr

/-- Read the block. -/
def Att.ofBytes (l : List Byte) : Att where
  tensor := bit (lf l 0 1) 0
  causal := bit (lf l 0 1) 1
  window := bit (lf l 0 1) 2
  plane := bit (lf l 0 1) 3
  ofmt := 1 - b2n (bit (lf l 0 1) 4)
  dqfmt := 1 - b2n (bit (lf l 0 1) 5)
  g0 := lf l 1 1
  ng := lf l 2 1
  gq := lf l 3 1
  d := lf l 4 2
  seq := lf l 6 2
  qt := lf l 8 4
  qpos := lf l 12 4
  w := lf l 16 4
  tk := lf l 20 4
  sigma := BitVec.ofNat 32 (lf l 24 4)
  cap := BitVec.ofNat 32 (lf l 28 4)
  q := lf l 32 6
  o := lf l 40 6
  stats := lf l 48 6
  planeA := lf l 56 6
  pstride := lf l 64 4
  cores := lf l 68 1
  k := lf l 72 6
  v := lf l 80 6
  miss := lf l 88 6
  dO := lf l 96 6
  dq := lf l 104 6
  dk := lf l 112 6
  dv := lf l 120 6

/-- The block that a packet read. -/
def Pkt.att (k : Pkt) : Att := Att.ofBytes k.args

/-- Heads; rows; rows of a group in the stacks. -/
def Att.h (a : Att) : Nat := a.ng * a.gq
def Att.rows (a : Att) : Nat := a.qt * a.h
/-- Bytes of an output element. -/
def Att.osz (a : Att) : Nat := elemWidth a.ofmt / 8
/-- Bytes of one mask row. -/
def planeRow (l : Nat) : Nat := cdiv l 8

/-- A finite FP32 value. -/
def finite32 (w : Word) : Bool := match val32 w with | .fin _ _ _ => true | _ => false

/-- Checks of the block by itself, at its offsets (R252, R382, R383). -/
def attChecks (bwd : Bool) (l : List Byte) : List (Nat × Bool) :=
  let a := Att.ofBytes l
  let high (o : Nat) : Nat × Bool := (o, decide (lf l (o + 6) 2 ≠ 0))
  [(0, decide (64 ≤ lf l 0 1) || (!bwd && bit (lf l 0 1) 5) || (a.window && !a.causal) || (bwd && !a.tensor)),
    (1, a.tensor && a.g0 ≠ 0), (1, !a.tensor && decide (64 < a.g0 + a.ng)), (2, a.ng = 0),
    (3, decide (a.gq < 1) || decide (128 < a.gq)), (4, !([64, 128, 256].contains a.d)),
    (6, !a.tensor && decide (16383 < a.seq)), (8, decide (a.qt < 1) || decide (65536 < a.qt)),
    (12, decide (1048575 < a.qpos)), (16, a.window && (decide (a.w < 1) || decide (1048576 < a.w))),
    (20, a.tensor && (decide (a.tk < 1) || decide (1048576 < a.tk))), (24, !finite32 a.sigma),
    (28, a.cap ≠ 0 && (!finite32 a.cap || !ltVal (.fin false 0 0) (val32 a.cap))), high 32, high 40, high 48,
    (56, a.plane && (high 56).2), (64, a.plane && a.pstride % 32 ≠ 0), (68, decide (a.cores < 1) || decide (80 < a.cores))]
    ++ (List.range 3).map (fun n => (69 + n, decide (lf l (69 + n) 1 ≠ 0)))
    ++ (if a.tensor then [high 72, high 80] else [high 88])
    ++ (if bwd then [high 96, high 104, high 112, high 120]
      else (List.range 32).map (fun n => (96 + n, decide (lf l (96 + n) 1 ≠ 0))))

/-- Operands of the block that lie in PART or DEV regions (R252): offset, address, bytes. -/
def Att.spans (a : Att) : List (Nat × Nat × Nat) :=
  let r := a.rows
  [(32, a.q, 2 * r * a.d), (40, a.o, a.osz * r * a.d), (48, a.stats, 8 * r)]

/-- Checks of the block, by packet offset (R378): those on its regions once its shape is good, and those of `PSTRIDE` against
`TK`. -/
def State.attBlock (s : State) (j : Pkt) (bwd : Bool) (l : List Byte) : List (Nat × Bool) :=
  let a := Att.ofBytes l
  let own := attChecks bwd l
  let cs := own ++ [(20, a.tensor && a.plane && decide (a.pstride < planeRow a.tk))]
  let shape := !own.any (fun c => c.2 && [2, 3, 4, 8].contains c.1)
  let regions := if shape then a.spans.map (fun e => (e.1, !s.inPartDev j.part j.ctx e.2.1 e.2.2)) else []
  (cs ++ regions).map (fun c => (0x10000 + c.1, c.2))

/-! ### What a row sees (R254) -/

/-- Key token `t` is visible to query token `i`: `l` keys, and the mask plane as bytes. -/
def Att.sees (a : Att) (l : Nat) (plane : Nat → Byte) (i t : Nat) : Bool :=
  decide (t < l) && (!a.causal || decide (t ≤ a.qpos + i)) && (!a.window || decide (a.qpos + i < t + a.w))
    && (!a.plane || bit (plane (i * planeRow l + t / 8)).toNat (t % 8))

/-- The visible keys of query token `i`, ascending. -/
def Att.visible (a : Att) (l : Nat) (plane : Nat → Byte) (i : Nat) : List Nat :=
  (List.range (if a.causal then min l (a.qpos + i + 1) else l)).filter (a.sees l plane i)

/-- Keys that some row sees, ascending. -/
def Att.seen (a : Att) (l : Nat) (plane : Nat → Byte) : List Nat :=
  (List.range l).filter (fun t => (List.range a.qt).any (fun i => a.sees l plane i t))

/-- Addresses of the mask rows that are read, in order. -/
def Att.planeAddrs (a : Att) (l : Nat) : List Nat :=
  if a.plane then (List.range a.qt).flatMap (fun i => addrRun (a.planeA + i * a.pstride) (planeRow l)) else []

/-! ### Scores and the fold (R255 to R258) -/

/-- A score in base 2 from its dot product (R255). -/
def Att.score (a : Att) (dot : Word) : Word :=
  let s := fMul dot a.sigma
  let s := if a.cap = 0 then s
    else fMul a.cap (vTanh (fMul s (to32 (divVal (.fin false 1 0) (val32 a.cap)))))
  fMul s 0x3FB8AA3B

/-- A block reduced for one row (R256). -/
structure AttBlk where
  m : Word
  l : Word
  u : List Word
  deriving DecidableEq, Repr

/-- Equal as numbers. -/
def sameVal (a b : Word) : Bool := !ltVal (val32 a) (val32 b) && !ltVal (val32 b) (val32 a)

/-- The maximum of a block's scores, and the BF16 pattern of each probability (R256). -/
def attProbs (zs : List Word) : Word × List Nat :=
  let m := match zs with
    | [] => 0xFF800000
    | z :: t => t.foldl fMax z
  (m, zs.map (fun z => bf16.encode .even false (val32 (vExp2 (fSub z m)))))

/-- One block joins the running state (R257). -/
def attJoin (o : Option AttBlk) (b : AttBlk) : Option AttBlk :=
  match o with
  | none => some b
  | some r =>
    if r.m = 0xFF800000 then some b
    else
      let m := fMax r.m b.m
      let sc (f : Word) (one : Bool) (w : Word) : Word := if one then w else fMul w f
      let a := vExp2 (fSub r.m m)
      let c := vExp2 (fSub b.m m)
      let f (x y : Word) : Word := fAdd (sc a (sameVal m r.m) x) (sc c (sameVal m b.m) y)
      some ⟨m, f r.l b.l, List.zipWith f r.u b.u⟩

/-- The fold of a row's blocks. -/
def attFold (bs : List AttBlk) : Option AttBlk := bs.foldl attJoin none

/-- A row of the output in FP32, its `LSE2`, and the flags of R259 in bits 0 to 2. -/
structure AttRow where
  out : List Word
  lse : Word
  flags : Nat
  deriving DecidableEq, Repr

/-- The finish of a row (R258, R259). A sum that is no positive number, with no score NaN, is in no case of R258: output and
statistics are free values (log 3). -/
def attFinish (d : Nat) (nan missing : Bool) (o : Option AttBlk) (ctr : Nat) : AttRow :=
  let qnan := to32 .nan
  let miss := 2 * b2n missing
  if nan then ⟨List.replicate d qnan, qnan, miss + 4⟩
  else match o with
    | none => ⟨List.replicate d 0, 0xFF800000, miss + 1⟩
    | some b =>
      if ltVal (.fin false 0 0) (val32 b.l) then
        let r := vRcp b.l
        ⟨b.u.map (fun w => fMul w r), fAdd b.m (vLog2 b.l), miss⟩
      else ⟨(List.range d).map (fun n => Config.unstated (ctr + n)), Config.unstated (ctr + d), miss⟩

/-- The eight bytes of a row's statistics (R259). -/
def AttRow.stats (r : AttRow) : List Byte := leBytes 4 r.lse.toNat ++ leBytes 4 r.flags
/-- The output bytes of a row (R258). -/
def AttRow.bytes (r : AttRow) (ofmt : Nat) : List Byte :=
  r.out.flatMap (fun w => leBytes (elemWidth ofmt / 8) (narrow ofmt .even false (val32 w)))

/-! ### Keys and values -/

/-- A row's view of its keys and values: element, scale and poison of dimension `d` of token `t` (a scale of 1 where there
is none). -/
structure AttKV where
  key : Nat → Nat → Val × Val × Bool
  val : Nat → Nat → Val × Val × Bool

/-- An element as cores use it: multiplied by its scale and rounded to BF16 (R255, R256). -/
def coreElem (e : Val × Val × Bool) : Val := bf16.decode (bf16.encode .even false (mulVal e.1 e.2.1))

/-- The dot product of the key unit (R124, R203, R255). -/
def stackDot (d : Nat) (q : Nat → Val) (k : Nat → Val × Val × Bool) : Word :=
  ((List.range (d / 32)).map (fun g =>
    let ps := (List.range 32).map (fun n => mulVal (q (32 * g + n)) (k (32 * g + n)).1)
    flush32 (mulVal (ps.foldl addVal (.fin false 0 0)) (k (32 * g)).2.1))).foldl fAdd 0

/-- The dot product on cores (R120, R255). -/
def coreDot (ctr d : Nat) (q k : Nat → Val) : Word := mmaCuts ctr (dotGroups d q k)

/-- `U_b` in the stacks: within a run of the value page the unit adds each token's product, rounded once, into a lane
accumulator; the runs' results are added in order (R203, R222, R256). -/
def stackU (d : Nat) (run : Nat → Nat) (ts : List Nat) (ps : List Nat) (v : Nat → Nat → Val × Val × Bool) : List Word :=
  let es := ts.zip ps
  let runs := (ts.map run).dedup
  (List.range d).map (fun n => sum32 (runs.map (fun r =>
    ((es.filter (fun e => run e.1 = r)).map (fun e =>
      let x := v e.1 n
      flush32 (mulVal (mulVal (bf16.decode e.2) x.1) x.2.1))).foldl fAdd 0)))

/-- A block of a row in the stacks. -/
def stackBlk (a : Att) (q : Nat → Val) (kv : AttKV) (run : Nat → Nat) (ts : List Nat) : List Word × AttBlk :=
  let zs := ts.map (fun t => a.score (stackDot a.d q (kv.key t)))
  let p := attProbs zs
  (zs, ⟨p.1, (p.2.map (fun b => to32 (bf16.decode b))).foldl fAdd 0, stackU a.d run ts p.2 kv.val⟩)

/-- A block of a row on cores: 128 keys from `b0` (R256). -/
def coreBlk (ctr : Nat) (a : Att) (q : Nat → Val) (kv : AttKV) (b0 : Nat) (ts : List Nat) : List Word × AttBlk :=
  let zs := ts.map (fun t => a.score (coreDot ctr a.d q (fun n => coreElem (kv.key t n))))
  let p := attProbs zs
  let es := ts.zip p.2
  let at' (n : Nat) : Option (Nat × Nat) := es.find? (fun e => e.1 = b0 + n)
  let zero : Val := .fin false 0 0
  let u := (List.range a.d).map (fun n => coreDot ctr 128
    (fun t => match at' t with | some e => bf16.decode e.2 | none => zero)
    (fun t => match at' t with | some e => coreElem (kv.val e.1 n) | none => zero))
  (zs, ⟨p.1, (p.2.map (fun b => to32 (bf16.decode b))).foldl fAdd 0, u⟩)

/-- A list cut where a test says. -/
def cutAt' {α : Type} (f : Nat → Bool) : Nat → List α → List (List α)
  | _, [] => []
  | n, x :: t => match cutAt' f (n + 1) t with
    | [] => [[x]]
    | y :: r => if f n then [x] :: y :: r else (x :: y) :: r

/-- A row's result from its blocks: on cores, blocks split among cores fold each core's part first (R258; where they split
is free, log 3). -/
def rowOf (a : Att) (ctr : Nat) (cores : Bool) (missing : Bool) (bs : List (List Word × AttBlk)) : AttRow :=
  let nan := bs.any (fun b => b.1.any (fun z => (val32 z).isNan))
  let blks := bs.map Prod.snd
  let parts := if cores && decide (1 < a.cores) then cutAt' (Config.tileCut (ctr + 1)) 0 blks else [blks]
  attFinish a.d nan missing (attFold (parts.filterMap attFold)) ctr

/-! ### Pages of a walk -/

/-- The key and the value entry of page `j` of group `g`. -/
abbrev EntPair := PageEnt × PageEnt

/-- The kind of a missing page (R251, R271): 0 DROPPED, 1 PENDING, 2 EMPTY; the key entry's where that is missing. -/
def missKind (e : EntPair) : Option Nat :=
  let st := if e.1.st = 1 then e.2.st else e.1.st
  if st = 1 then none else some (if st = 2 then 0 else if st = 3 then 1 else 2)

/-- Spans of missing pages of a group (R271): `pages` are the visible pages, ascending, with their kinds; `lo` to `hi - 1`
the visible range. -/
def missSpans (t g lo hi : Nat) (pages : List (Nat × Option Nat)) : List (Nat × Nat × Nat × Nat) :=
  let runs := pages.foldl (fun (r : List (Nat × Nat × Nat)) p => match p.2 with
    | none => r
    | some kd => match r with
      | (a, b, k) :: rest => if b = p.1 && k = kd then (a, b + 1, k) :: rest else (p.1, p.1 + 1, kd) :: r
      | [] => [(p.1, p.1 + 1, kd)]) []
  runs.reverse.map (fun r =>
    let f := max lo (t * r.1)
    (f, min hi (t * r.2.1) - f, g, r.2.2))

/-- The spans of group `g` take their place among those found: by group, then by first token (R271). -/
def joinSpans (g : Nat) (sp found : List (Nat × Nat × Nat × Nat)) : List (Nat × Nat × Nat × Nat) :=
  found.filter (fun e => decide (e.2.2.1 < g)) ++ sp ++ found.filter (fun e => decide (g ≤ e.2.2.1))

/-- The pages that hold visible keys. -/
def pagesSeen (t : Nat) (seen : List Nat) : List Nat := (seen.map (· / t)).dedup

/-- The bytes of an entry as a walk reads it: zeros for an EMPTY one that has no leaf. -/
def State.entRaw (s : State) (p : Fin 4) (d : SeqDesc) (g j kv : Nat) : List Byte :=
  let e := s.dirEnt p d g j
  if e.valid then (s.tableRead p (entAt e.leaf j kv) 16).1 else List.replicate 16 0

/-- Offsets in a page of token `t`'s elements and scales. -/
def tokenOffs (d t : Nat) (e : PageEnt) : List Nat :=
  let n := d * pageBits e.fmt / 8
  let m := 2 * (d / kvGroup e.fmt)
  addrRun (t * n) n ++ addrRun (e.scale + t * m) m

/-- The place of byte `o` of a page. -/
def State.pagePlace (s : State) (e : PageEnt) (o : Nat) : Option Place := (s.bankPlace (e.base + o)).map Place.dram

/-- Places of token `t`'s elements and scales in a page. -/
def State.tokenPlaces (s : State) (d t : Nat) (e : PageEnt) : List Place := (tokenOffs d t e).filterMap (s.pagePlace e)

/-- Keys and values of pages as a row of group `g` sees them. -/
def pageKV (t : Nat) (data : Nat → Option (PageData × PageData)) : AttKV where
  key n d := match data (n / t) with | some g => g.1.elem (n % t) d | none => (.nan, .nan, false)
  val n d := match data (n / t) with | some g => g.2.elem (n % t) d | none => (.nan, .nan, false)

/-- Value run that holds token `t`: its page and its run of at most 32 steps, each of one DRAM row and at most 32 tokens
(R205, R224; DEDUCED, log 32). -/
def valueRun (t d : Nat) (ent : Nat → Option EntPair) (n : Nat) : Nat :=
  let fmt := match ent (n / t) with | some e => e.2.fmt | none => 5
  let step := max 1 (min 32 (2048 * 8 / (d * pageBits fmt)))
  n / t * 1024 + n % t / (32 * step)

/-- The rounds of a group (R256): pages of one stack, ascending, as many as hold 32,768 tokens; each with its first token. -/
def roundsOf (t : Nat) (present : List (Nat × Nat)) : List (Nat × List Nat) :=
  let per := max 1 (32768 / t)
  ((present.map Prod.snd).dedup).flatMap (fun st =>
    let js := (present.filter (fun e => e.2 = st)).map Prod.fst
    (chunks per js.length js).map (fun c => (t * c.headD 0, c)))

/-- Insert by rising first token. -/
def insertRound (r : Nat × List Nat) : List (Nat × List Nat) → List (Nat × List Nat)
  | [] => [r]
  | x :: t => if r.1 ≤ x.1 then r :: x :: t else x :: insertRound r t

/-! ### Taking `ATTEND` (R199, R200, R244, R253, R266, R268, R379) -/

/-- A packet may not name a sequence (R243, R244): it is not of its partition's range, or another context's. -/
def State.seqDenied (s : State) (p : Fin 4) (x : Fin 16) (n : Nat) : Bool :=
  let d := s.seqd n
  !(s.part p).inRange n || (d.st ≠ 0 && d.ctx.toNat ≠ x.val)

/-- Checks on a sequence that a packet names (R243, R244, R266, R379): those of its fields against the descriptor, where it is
open; then permission; then that it is ACTIVE. -/
def State.withSeq (s : State) (j : Pkt) (n : Nat) (cs : List (Nat × Bool)) (f : SeqDesc → Verdict) : Verdict :=
  let d := s.seqd n
  passing (if d.st = 0 then [] else cs) (passUnless (s.seqDenied j.part j.ctx n) .denied (passUnless (d.st ≠ 1) .wrongState (f d)))

/-- Checks of the block against the descriptor (R252, R254). -/
def seqChecks (a : Att) (d : SeqDesc) : List (Nat × Bool) :=
  [(0x10001, decide (d.ngroup.toNat < a.g0 + a.ng)), (0x10004, decide (a.d ≠ d.d)),
    (0x10040, a.plane && decide (a.pstride < planeRow d.length.toNat))]

/-- Captures of a packet on a sequence (R268). -/
def Pkt.captures (j : Pkt) (n : Nat) (d : SeqDesc) : Pkt :=
  { j with
    seq := some n
    gen := d.gen
    length := d.length }

/-- Entry pairs as a packet reads them once, at its placement (R268): for each group and page, the key's and the value's 16
bytes. -/
def State.captureEnts (s : State) (p : Fin 4) (d : SeqDesc) (gps : List (Nat × Nat)) : List Byte :=
  gps.flatMap (fun e => s.entRaw p d e.1 e.2 0 ++ s.entRaw p d e.1 e.2 1)

/-- The `n`-th entry pair that a packet captured from byte `off` of its block on. -/
def State.captured (s : State) (j : Pkt) (d : SeqDesc) (off n : Nat) : EntPair :=
  (s.parseEnt j.part d 0 ((j.args.drop (off + 32 * n)).take 16) false,
    s.parseEnt j.part d 1 ((j.args.drop (off + 32 * n + 16)).take 16) false)

/-- The first faulty entry of a walk, by its page (R250). -/
def State.faultyEnt (s : State) (p : Fin 4) (d : SeqDesc) (gps : List (Nat × Nat)) : Option PageEnt :=
  gps.findSome? (fun e => [0, 1].findSome? (fun kv =>
    let t := s.pageEnt p d e.1 e.2 kv
    if t.bad then some t else none))

/-- The mask rows that it read. -/
def Pkt.planeByte (j : Pkt) (n : Nat) : Byte := j.args.getD (128 + n) 0

/-- Place an `ATTEND` in the stacks (R200, R268): the mask rows and every entry it needs are read once, here. A faulty entry
ends the packet (R250). -/
def State.attInStacks (s : State) (j : Pkt) (a : Att) (d : SeqDesc) (l : List Byte) : Verdict :=
  let len := d.length.toNat
  match s.translateAll j.part j.ctx (a.planeAddrs len) with
  | none => .fault s 5 a.planeA
  | some ts => match s.heldUp j.part false ts with
    | some s => .hold s
    | none =>
      let pb := s.bytesAt (placesOf ts)
      let seen := a.seen len (fun n => pb.getD n 0)
      let js := pagesSeen d.t seen
      let groups := (List.range a.ng).map (a.g0 + ·)
      let gps := groups.flatMap (fun g => js.map (fun p => (g, p)))
      match s.faultyEnt j.part d gps with
      | some e => .fault s 1 e.base
      | none =>
        let ents := gps.map (fun e => (e.1, e.2, s.pageEnt j.part d e.1 e.2 0, s.pageEnt j.part d e.1 e.2 1))
        let raw := s.captureEnts j.part d gps
        let keys := groups.flatMap (fun g =>
          let mine := ents.filter (fun e => e.1 = g && (missKind e.2.2).isNone)
          let sts := (mine.map (fun e => e.2.2.1.base / 2 ^ 36)).dedup
          (if sts.isEmpty then [3 * j.part.val] else sts).map (fun st => 16 * g + st))
        let s := s.cachePages j.part 10 j.ctx ts
        .go s ({ j with args := l ++ pb ++ raw }.inStack keys) id

/-- `ATTEND` (R252, R253). -/
def takeAttend (s : State) (j : Pkt) (cs : List (Nat × Bool)) : Verdict :=
  s.withArg j cs 8 (pa j.pkt 8) 128 (fun s l =>
    let a := Att.ofBytes l
    let j := { j with args := l }
    let rows := a.rows
    let outs := [(a.o, a.osz * rows * a.d), (a.stats, 8 * rows)]
    let ins (len : Nat) : List (Nat × Nat) := (a.q, 2 * rows * a.d) ::
      (if a.plane then [(a.planeA, (a.qt - 1) * a.pstride + planeRow len)] else [])
    passing (cs ++ s.attBlock j false l) (
      if a.tensor then
        s.onCores { j with length := BitVec.ofNat 32 a.tk } a.cores (pa j.pkt 8) outs
          (ins a.tk ++ [(a.k, 2 * a.tk * a.ng * a.d), (a.v, 2 * a.tk * a.ng * a.d)])
      else s.withSeq j a.seq (seqChecks a (s.seqd a.seq)) (fun d =>
        let j := j.captures a.seq d
        if a.gq * a.qt ≤ 8 && j.lane ≠ 1 then s.attInStacks j a d l
        else s.onCores j a.cores (pa j.pkt 8) (outs ++ (if a.miss = 0 then [] else [(a.miss, 512)]))
          (ins d.length.toNat))))

/-- `ATTEND` (R252 to R259). -/
def execAttend (q : Fin 256) (k : Packet) (s : State) : Host.Outcome State Fault Refusal := takeWork .attend q k takeAttend s

/-- `ATTEND_BWD` (R260): always on cores. -/
def takeAttendBwd (s : State) (j : Pkt) (cs : List (Nat × Bool)) : Verdict :=
  s.withArg j cs 8 (pa j.pkt 8) 128 (fun s l =>
    let a := Att.ofBytes l
    let j := { j with args := l, length := BitVec.ofNat 32 a.tk }
    let n := a.rows * a.d
    let m := 2 * a.tk * a.ng * a.d
    passing (cs ++ s.attBlock j true l) (
      s.onCores j a.cores (pa j.pkt 8) [(a.dq, elemWidth a.dqfmt / 8 * n), (a.dk, 2 * m), (a.dv, 2 * m)]
        ([(a.q, 2 * n), (a.dO, 2 * n), (a.o, a.osz * n), (a.stats, 8 * a.rows), (a.k, m), (a.v, m)]
          ++ (if a.plane then [(a.planeA, (a.qt - 1) * a.pstride + planeRow a.tk)] else []))))

/-- `ATTEND_BWD` (R260, R261). -/
def execAttendBwd (q : Fin 256) (k : Packet) (s : State) : Host.Outcome State Fault Refusal :=
  takeWork .attendBwd q k takeAttendBwd s

/-! ### A group in the stacks (R224, R239, R251, R256) -/

/-- CONTAINED-C of a packet through one of its stack commands (R389). -/
def State.faultCmd (s : State) (st : Fin 12) (k : Pkt) (reason addr : Nat) : State :=
  let seq := BitVec.ofNat 32 s.evSeq.toNat
  (s.raise ((workFault k.part 1 reason addr 0 k.wtag (if k.lane = 4 then 0 else s.evqOf k.q)).atStack st.val)).failPkt k seq

/-- Park a stack command (R399). -/
def State.parkCmd (s : State) (st : Fin 12) (k : Pkt) (pl : Place) (a : Nat) : State :=
  let s := s.updStack st (fun x => { x with queue := x.queue.map (fun m => if m.of k then { m with st := .parked } else m) })
  s.park k.part k.ctx (.cmd st k.q k.i k.lane k.laneIdx) pl a k.wtag (s.evqOf k.q)

/-- Device address and SHARED_RO flag of a place of BANK memory in a context (R399). -/
def State.pageOwner (s : State) (k : Pkt) (base o : Nat) : Nat × Bool :=
  match s.bankRegion k.part k.ctx (base + o) with
  | some e => (e.1, e.2.sharedRO)
  | none => (0, false)

/-- Poison that the visible tokens of pages meet: device address, place, SHARED_RO. -/
def State.pagePoison (s : State) (k : Pkt) (d : Nat) (es : List (PageEnt × List Nat)) : Option (Nat × Place × Bool) :=
  es.findSome? (fun e => (e.2.flatMap (fun t => tokenOffs d t e.1)).findSome? (fun o => match s.pagePlace e.1 o with
    | some pl =>
      if s.wordPoisoned pl then
        let w := s.pageOwner k e.1.base o
        some (w.1, pl, w.2)
      else none
    | none => none))

/-- What a packet's group needs, gathered from its captures: the visible pages with their entries. -/
def Pkt.groupEnts (k : Pkt) (s : State) (d : SeqDesc) (g : Nat) : List (Nat × EntPair) :=
  let a := k.att
  let js := pagesSeen d.t (a.seen k.length.toNat k.planeByte)
  let off := 128 + (if a.plane then a.qt * planeRow k.length.toNat else 0)
  (js.zipIdx).map (fun (e : Nat × Nat) => (e.1, s.captured k d off ((g - a.g0) * js.length + e.2)))

/-- A row's result in the stacks, with the poison that enters it: the whole row, or some dimensions (R239). -/
structure StackRow where
  row : AttRow
  all : Bool
  dims : List Nat

/-- Row (`i`, `h`) of a group in the stacks. -/
def stackRow (a : Att) (len t : Nat) (plane : Nat → Byte) (planeBad : Bool) (ents : List (Nat × EntPair))
    (data : Nat → Option (PageData × PageData)) (q : Nat → Val) (qBad : Bool) (i ctr : Nat) : StackRow :=
  let ent (j : Nat) : Option EntPair := (ents.find? (fun e => e.1 = j)).map Prod.snd
  let has (j : Nat) : Bool := match ent j with | some e => (missKind e).isNone | none => false
  let ts := a.visible len plane i
  let here := ts.filter (fun n => has (n / t))
  let kv := pageKV t data
  let present := (ents.filter (fun e => (missKind e.2).isNone)).map (fun e => (e.1, e.2.1.base / 2 ^ 36))
  let rounds := (roundsOf t present).foldl (fun l r => insertRound r l) []
  let blks := (rounds.map (fun r => here.filter (fun n => r.2.contains (n / t)))).filter (fun l => !l.isEmpty)
  ⟨rowOf a ctr false (decide (here.length < ts.length)) (blks.map (stackBlk a q kv (valueRun t a.d ent))),
    planeBad || qBad || here.any (fun n => (List.range a.d).any (fun d => (kv.key n d).2.2)),
    (List.range a.d).filter (fun d => here.any (fun n => (kv.val n d).2.2))⟩

/-- Write a list of outputs in the stacks: bytes with the poison of each word (R239). The first poisoned address is given. -/
def State.poisonWrite (s : State) (ts : List Xlat) (o : List (Nat × Byte × Bool)) : State × Option Nat :=
  let s := s.devWrite none ts (o.map (fun e => e.2.1))
  let bad := ((o.zip ts).filter (fun e => e.1.2.2)).map (fun e => e.2.place)
  (s.poisonWords bad, (o.find? (fun e => e.2.2)).map Prod.fst)

/-- The outputs of a group: every row's output and statistics. -/
def attOut (a : Att) (rows : List (Nat × StackRow)) : List (Nat × Byte × Bool) :=
  let z := a.osz
  (rows.flatMap (fun r => ((r.2.row.bytes a.ofmt).zipIdx).map (fun (e : Byte × Nat) =>
      (a.o + r.1 * a.d * z + e.2, e.1, r.2.all || r.2.dims.contains (e.2 / z)))))
    ++ rows.flatMap (fun r => ((r.2.row.stats).zipIdx).map (fun (e : Byte × Nat) => (a.stats + 8 * r.1 + e.2, e.1, r.2.all)))

/-- The last command of a group computes the group (R256 to R259). The flag says that the command is done. -/
def State.stackGroup (s : State) (st : Fin 12) (k : Pkt) (g : Nat) : State × Bool :=
  let a := k.att
  let d := s.seqd a.seq
  let len := k.length.toNat
  let hs := (List.range a.gq).map (fun n => (g - a.g0) * a.gq + n)
  let rowIds := (List.range a.qt).flatMap (fun i => hs.map (fun h => (i, i * a.h + h)))
  let qAt (r : Nat) : List Nat := addrRun (a.q + 2 * r * a.d) (2 * a.d)
  let pAt := a.planeAddrs len
  let reads := rowIds.flatMap (fun r => qAt r.2) ++ pAt
  let partDev (r : Region) : Bool := r.kind = .part || r.kind = .dev
  match s.access k.part k.ctx reads partDev with
  | .error b => (s.faultCmd st k 5 b.2, true)
  | .ok ts => match s.heldUp k.part false ts with
    | some s => (s, false)
    | none =>
      let (s, bad) := s.poisonIn reads ts
      let ents := k.groupEnts s d g
      let seen := a.seen len k.planeByte
      let toks (j : Nat) : List Nat := (seen.filter (fun n => n / d.t = j)).map (· % d.t)
      let present := ents.filter (fun e => (missKind e.2).isNone)
      let parts := present.flatMap (fun e => [(e.2.1, toks e.1), (e.2.2, toks e.1)])
      let s := s.touch (groupsOf (parts.flatMap (fun e => e.2.flatMap (fun t => s.tokenPlaces a.d t e.1))))
      let ro (b : Option (Nat × Place × Bool)) : Option (Nat × Place) :=
        match b with | some e => if e.2.2 then some (e.1, e.2.1) else none | none => none
      let parked := ro bad <|> parts.findSome? (fun e => ro (s.pagePoison k a.d [e]))
      match parked with
      | some e => (s.parkCmd st k e.2 e.1, false)
      | none =>
        let data (j : Nat) : Option (PageData × PageData) := (present.find? (fun e => e.1 = j)).map (fun e =>
          (s.pageData d.t a.d e.2.1, s.pageData d.t a.d e.2.2))
        let dev := s.devBytes k
        let badAt (x : Nat) : Bool := match (reads.zip ts).find? (fun e => e.1 = x) with
          | some e => s.wordPoisoned e.2.place
          | none => false
        let rows := rowIds.map (fun r => (r.2, stackRow a len d.t k.planeByte
          (a.plane && ((pAt.drop (r.1 * planeRow len)).take (planeRow len)).any badAt) ents data
          (fun n => bf16.decode (leNat [dev (a.q + 2 * (r.2 * a.d + n)), dev (a.q + 2 * (r.2 * a.d + n) + 1)]))
          ((qAt r.2).any badAt) r.1 (s.freeCtr + (a.d + 1) * r.2)))
        let out := attOut a rows
        match s.access k.part k.ctx (out.map Prod.fst) (fun r => partDev r && r.writable false) with
        | .error b => (s.faultCmd st k 5 b.2, true)
        | .ok tw => match s.heldUp k.part true tw with
          | some s => (s, false)
          | none =>
            let s := ((s.accessLines false true ts).countTraffic false false (offBank ts)).cachePages k.part 10 k.ctx (ts ++ tw)
            let (s, bad) := (s.draw ((a.d + 1) * a.rows)).poisonWrite tw out
            match bad with
            | some x => (s.faultCmd st k 2 x, true)
            | none =>
              let lo := seen.headD 0
              let hi := seen.getLastD 0 + 1
              let sp := missSpans d.t g lo hi (ents.map (fun e => (e.1, missKind e.2)))
              (s.updPkts (fun j => j.q = k.q && j.i = k.i && j.lane = k.lane && j.laneIdx = k.laneIdx)
                (fun j => { j with spans := joinSpans g sp j.spans }), true)

/-! ### On cores (R255 to R261) -/

/-- Values of dense BF16 memory. -/
def bfAt (mem : Nat → Byte) (a n : Nat) : Val := bf16.decode (leNat [mem (a + 2 * n), mem (a + 2 * n + 1)])
/-- The two addresses of element `n` of a BF16 operand. -/
def bfBad (bad : Nat → Bool) (a n : Nat) : Bool := bad (a + 2 * n) || bad (a + 2 * n + 1)

/-- Keys and values of group `gi` (counted from 0) of dense tensors (R252). -/
def tensorKV (a : Att) (mem : Nat → Byte) (bad : Nat → Bool) (gi : Nat) : AttKV where
  key t d :=
    let n := (t * a.ng + gi) * a.d + d
    (bfAt mem a.k n, .fin false 1 0, bfBad bad a.k n)
  val t d :=
    let n := (t * a.ng + gi) * a.d + d
    (bfAt mem a.v n, .fin false 1 0, bfBad bad a.v n)

/-- A row on cores, and whether poison enters it: blocks of 128 keys (R256). -/
def coreRow (a : Att) (len : Nat) (plane : Nat → Byte) (has : Nat → Bool) (kv : AttKV) (q : Nat → Val) (i ctr : Nat) :
    AttRow × Bool :=
  let ts := a.visible len plane i
  let here := ts.filter has
  let starts := (here.map (fun t => t / 128 * 128)).dedup
  (rowOf a ctr true (decide (here.length < ts.length)) (starts.map (fun b =>
      coreBlk ctr a q kv b (here.filter (fun t => t / 128 * 128 = b)))),
    here.any (fun t => (List.range a.d).any (fun d => (kv.key t d).2.2 || (kv.val t d).2.2)))

/-- The entries of group `g` that a packet on cores reads, for its visible pages. -/
def State.coreEnts (s : State) (k : Pkt) (d : SeqDesc) (seen : List Nat) (g : Nat) : List (Nat × EntPair) :=
  (pagesSeen d.t seen).map (fun j => (j, s.pageEnt k.part d g j 0, s.pageEnt k.part d g j 1))

/-- A mask row as bytes of device memory. -/
def Att.planeMem (a : Att) (len : Nat) (mem : Nat → Byte) (n : Nat) : Byte :=
  mem (a.planeA + n / max 1 (planeRow len) * a.pstride + n % max 1 (planeRow len))

/-- `ATTEND` on cores performs its work. Its page entries are read once, here (R268). -/
def State.runAttend (s : State) (k : Pkt) : State × Bool :=
  let a := k.att
  let len := k.length.toNat
  let d := s.seqd a.seq
  let groups := (List.range a.ng).map (a.g0 + ·)
  let seen := if a.tensor then [] else a.seen len (a.planeMem len (s.devBytes k))
  let ents := if a.tensor then [] else groups.map (fun g => (g, s.coreEnts k d seen g))
  match (ents.flatMap Prod.snd).find? (fun e => e.2.1.bad || e.2.2.bad) with
  | some e => (s.faultPkt k 1 (if e.2.1.bad then e.2.1.base else e.2.2.base) 0, false)
  | none =>
    let present (g : Nat) : List (Nat × EntPair) :=
      ((ents.filter (fun e => e.1 = g)).flatMap Prod.snd).filter (fun e => (missKind e.2).isNone)
    let toks (j : Nat) : List Nat := (seen.filter (fun n => n / d.t = j)).map (· % d.t)
    let parts := groups.flatMap (fun g => (present g).flatMap (fun e => [(e.2.1, toks e.1), (e.2.2, toks e.1)]))
    let pagePl := parts.flatMap (fun e => e.2.flatMap (fun t => s.tokenPlaces a.d t e.1))
    let owner (pl : Place) : Nat × Bool :=
      (parts.findSome? (fun e => ((e.2.flatMap (fun t => tokenOffs a.d t e.1)).find? (fun o => s.pagePlace e.1 o = some pl)).map
        (fun o => s.pageOwner k e.1.base o))).getD (0, false)
    let rowAt (s : State) (bad : Nat → Bool) (r : Nat) : AttRow × Bool :=
      let mem := s.devBytes k
      let i := r / a.h
      let g := a.g0 + r % a.h / a.gq
      let pr := present g
      let kv := if a.tensor then tensorKV a mem bad (g - a.g0)
        else pageKV d.t (fun j => (pr.find? (fun e => e.1 = j)).map (fun e =>
          (s.pageData d.t a.d e.2.1, s.pageData d.t a.d e.2.2)))
      let has (t : Nat) : Bool := a.tensor || pr.any (fun e => e.1 = t / d.t)
      let x := coreRow a len (a.planeMem len mem) has kv (fun n => bfAt mem a.q (r * a.d + n)) i (s.freeCtr + (a.d + 1) * r)
      (x.1, x.2 || (List.range a.d).any (fun n => bfBad bad a.q (r * a.d + n))
        || (a.plane && (addrRun (a.planeA + i * a.pstride) (planeRow len)).any bad))
    let job : LibJob := ⟨addrRun a.q (2 * a.rows * a.d) ++ a.planeAddrs len
        ++ (if a.tensor then addrRun a.k (2 * len * a.ng * a.d) ++ addrRun a.v (2 * len * a.ng * a.d) else []),
      fun _ => true, Region.writable false,
      fun s bad =>
        let rows := (List.range a.rows).map (fun r => (r, rowAt s bad r))
        ⟨((attOut a (rows.map (fun e => (e.1, ⟨e.2.1, e.2.2, []⟩)))).filter (fun e => !e.2.2)).map (fun e => (e.1, e.2.1)), []⟩,
      pagePl, owner⟩
    let (s, done) := s.runLibrary k job
    if done then
      let sp := ents.flatMap (fun e => missSpans d.t e.1 (seen.headD 0) (seen.getLastD 0 + 1)
        (e.2.map (fun x => (x.1, missKind x.2))))
      ((s.draw ((a.d + 1) * a.rows)).updPkts (fun j => j.q = k.q && j.i = k.i && j.lane = k.lane && j.laneIdx = k.laneIdx)
        (fun j => { j with spans := sp }), true)
    else (s, false)

/-- What `ATTEND_BWD` forms for a visible pair of row `r` and key `t` (R261): `p` and `ds`. Whether the program rounds them
to BF16 before it multiplies is free (log 3). -/
def bwdPair (a : Att) (ctr : Nat) (q kt vt dO : Nat → Val) (delta lse : Word) (empty nan : Bool) : Word × Word :=
  let dot := coreDot ctr a.d q kt
  let s0 := fMul dot a.sigma
  let s := if a.cap = 0 then s0 else fMul a.cap (vTanh (fMul s0 (to32 (divVal (.fin false 1 0) (val32 a.cap)))))
  let z := fMul s 0x3FB8AA3B
  let p := if nan then to32 .nan else if empty then 0 else vExp2 (fSub z lse)
  let dp := coreDot ctr a.d dO vt
  let ds := fMul p (fSub dp delta)
  let ds := if a.cap = 0 then ds
    else
      let r := to32 (divVal (val32 s) (val32 a.cap))
      fMul ds (fSub 0x3F800000 (fMul r r))
  let ds := fMul ds a.sigma
  let cvt (w : Word) : Word := if Config.libraryFused ctr then w else to32 (bf16.decode (bf16.encode .even false (val32 w)))
  (cvt p, cvt ds)

/-- `ATTEND_BWD` performs its work (R260, R261). The order of its sums is free (log 51). -/
def State.runAttendBwd (s : State) (k : Pkt) : State × Bool :=
  let a := k.att
  let len := a.tk
  let n := a.rows * a.d
  let m := len * a.ng * a.d
  let work (s : State) (bad : Nat → Bool) : LibOut :=
    let mem := s.devBytes k
    let ctr := s.freeCtr
    let plane := a.planeMem len mem
    let q (r : Nat) (d : Nat) : Val := bfAt mem a.q (r * a.d + d)
    let dO (r : Nat) (d : Nat) : Val := bfAt mem a.dO (r * a.d + d)
    let o (r : Nat) (d : Nat) : Val :=
      elemVal a.ofmt (leNat ((addrRun (a.o + a.osz * (r * a.d + d)) a.osz).map mem))
    let gi (r : Nat) : Nat := r % a.h / a.gq
    let key (g t : Nat) (d : Nat) : Val := bfAt mem a.k ((t * a.ng + g) * a.d + d)
    let val (g t : Nat) (d : Nat) : Val := bfAt mem a.v ((t * a.ng + g) * a.d + d)
    let stat (r : Nat) : Nat := leNat ((addrRun (a.stats + 8 * r) 8).map mem)
    let delta (r : Nat) : Word := (freeOrder ctr a.d ((List.range a.d).map (fun d => to32 (mulVal (dO r d) (o r d))))).foldl fAdd 0
    let pair (r t : Nat) : Word × Word :=
      bwdPair a ctr (q r) (key (gi r) t) (val (gi r) t) (dO r) (delta r) (BitVec.ofNat 32 (stat r)) (bit (stat r) 32)
        (bit (stat r) 34)
    let vis (r : Nat) : List Nat := a.visible len plane (r / a.h)
    let rowBad (r : Nat) : Bool := (List.range a.d).any (fun d => bfBad bad a.q (r * a.d + d) || bfBad bad a.dO (r * a.d + d)
        || (addrRun (a.o + a.osz * (r * a.d + d)) a.osz).any bad)
      || (addrRun (a.stats + 8 * r) 8).any bad
      || (a.plane && (addrRun (a.planeA + r / a.h * a.pstride) (planeRow len)).any bad)
    let keyBad (g t : Nat) : Bool := (List.range a.d).any (fun d => bfBad bad a.k ((t * a.ng + g) * a.d + d)
      || bfBad bad a.v ((t * a.ng + g) * a.d + d))
    let sum (l : List (Word × Val)) : Word := (freeOrder ctr l.length (l.map (fun e => to32 (mulVal (val32 e.1) e.2)))).foldl fAdd 0
    let z := elemWidth a.dqfmt / 8
    let dq := ((List.range a.rows).filter (fun r => !rowBad r && !(vis r).any (keyBad (gi r)))).flatMap (fun r =>
      (List.range a.d).flatMap (fun d =>
        let w := sum ((vis r).map (fun t => ((pair r t).2, key (gi r) t d)))
        (addrRun (a.dq + z * (r * a.d + d)) z).zip (leBytes z (narrow a.dqfmt .even false (val32 w)))))
    let rowsAt (g t : Nat) : List Nat := (List.range a.rows).filter (fun r => gi r = g && (vis r).contains t)
    let kv := (List.range len).flatMap (fun t => (List.range a.ng).flatMap (fun g =>
      let rs := rowsAt g t
      if rs.isEmpty || keyBad g t || rs.any rowBad then []
      else (List.range a.d).flatMap (fun d =>
        let e := (t * a.ng + g) * a.d + d
        [(0, 8 * (a.dk + 4 * e), (sum (rs.map (fun r => ((pair r t).2, q r d)))).toNat),
          (0, 8 * (a.dv + 4 * e), (sum (rs.map (fun r => ((pair r t).1, dO r d)))).toNat)])))
    ⟨dq, kv⟩
  s.runLibrary k ⟨addrRun a.q (2 * n) ++ addrRun a.dO (2 * n) ++ addrRun a.o (a.osz * n) ++ addrRun a.stats (8 * a.rows)
      ++ addrRun a.k (2 * m) ++ addrRun a.v (2 * m) ++ a.planeAddrs len, fun _ => true, Region.writable false, work, [],
    fun _ => (0, false)⟩

end Sys2Proof.Machine
end

