-- ==== Sys2Proof/Machine/Edit.lean ====
section
/-! DEFINITION. Appending to a sequence and editing its pages (R262 to R272): the append quantiser, `APPEND_KV`, and the
operations of `PAGE_EDIT`. -/

namespace Sys2Proof.Machine

/-! ### The append quantiser (R264) -/

/-- The largest magnitude of a page format. -/
def qMax (fmt : Nat) : Nat := if fmt = 3 then 448 else if fmt = 5 then 127 else 7

/-- An integer code outside the symmetric range becomes its end (R264). -/
def qClamp (fmt c : Nat) : Nat :=
  if fmt = 5 && c = 0x80 then 0x81 else if fmt = 6 && c = 8 then 9 else c

/-- The FP16 scale of a block (R264): `amax` is its largest magnitude, not 0. -/
def qScale (fmt : Nat) (amax : Val) : Nat :=
  let s := to32 (divVal amax (.fin false (qMax fmt) 0))
  max 1 (min 0x7BFF (fp16.encode .up false (val32 s)))

/-- One block: its scale and its element codes (R264). -/
def quantBlock (fmt : Nat) (rnds : List Rnd) (vs : List Val) : Nat × List Nat :=
  let finite (v : Val) : Bool := match v with | .fin _ _ _ => true | _ => false
  if !vs.all finite then (0x7E00, vs.map (fun _ => 0))
  else
    let amax := amaxVal vs
    if amax.isZero then (0, vs.map (fun _ => 0))
    else
      let sc := qScale fmt amax
      (sc, List.zipWith (fun r v => qClamp fmt (narrow fmt r false (val32 (to32 (divVal v (fp16.decode sc)))))) rnds vs)

/-- The blocks of one token's row: element bytes and scale bytes. -/
def quantRow (fmt : Nat) (stoch : Bool) (ctr : Nat) (vs : List Val) : List Byte × List Byte :=
  let g := kvGroup fmt
  let bs := ((chunks g vs.length vs).zipIdx).map (fun (e : List Val × Nat) =>
    quantBlock fmt (rndModes stoch (ctr + g * e.2) e.1.length) e.1)
  (packBits (pageBits fmt) (bs.flatMap Prod.snd), bs.flatMap (fun b => leBytes 2 b.1))

/-! ### What runs on a sequence (R263, R267) -/

/-- An edit of a sequence, other than `READ`, that has not completed. -/
def State.editRuns (s : State) (p : Fin 4) (n : Nat) : Bool :=
  s.pkts.any (fun k => k.part = p && k.seq = some n && !k.done && (match k.kind with | .edit o => o ≠ 9 | _ => false))

/-- The `APPEND_KV` of a sequence that has not completed. -/
def State.appendOn (s : State) (p : Fin 4) (n : Nat) : Option Pkt :=
  s.pkts.find? (fun k => k.part = p && k.seq = some n && !k.done && k.kind = .appendKv)

/-! ### `APPEND_KV` (R262, R263) -/

/-- Groups and pages that an append writes, within the directory's reach. -/
def appendPages (d : SeqDesc) (g0 ng p n : Nat) : List (Nat × Nat) :=
  let js := (List.range (min ((p + n - 1) / d.t + 1) d.reach - p / d.t)).map (p / d.t + ·)
  ((List.range ng).map (g0 + ·)).flatMap (fun g => js.map (fun j => (g, j)))

/-- The pages that a packet appends to. -/
def Pkt.appendPages (k : Pkt) (d : SeqDesc) : List (Nat × Nat) :=
  Machine.appendPages d (pf k.pkt 34 1) (pf k.pkt 35 1) (pf k.pkt 24 4) (pf k.pkt 28 4)

/-- An append's checks against the descriptor and its entries (R262, R275). -/
def State.appendChecks (s : State) (j : Pkt) (d : SeqDesc) : List (Nat × Bool) :=
  let k := j.pkt
  let n := 2 * pf k 28 4 * pf k 35 1 * d.d
  let mapped (a : Nat) : Bool := (s.translateAll j.part j.ctx (addrRun a n)).isSome
  let gps := j.appendPages d
  [(34, decide (d.ngroup.toNat < pf k 34 1 + pf k 35 1)), (8, !mapped (pa k 8)), (16, !mapped (pa k 16)),
    (32, decide (pf k 34 1 + pf k 35 1 ≤ d.ngroup.toNat) && gps.any (fun e => [0, 1].any (fun kv =>
      let t := s.pageEnt j.part d e.1 e.2 kv
      t.st = 1 && s.pageIn j.part j.ctx t.base (fun r => r.datum))))]

/-- Stacks that hold pages of a list. -/
def stacksFor (bases : List Nat) : List Nat := (bases.map (· / 2 ^ 36)).dedup

/-- An entry is known not to be VALID (R262): one whose directory entry is faulty, or that is poisoned, is only faulty (R250). -/
def PageEnt.notValid (e : PageEnt) : Bool := e.st ≠ 1 && !(e.bad && e.st = 0)

/-- `APPEND_KV` (R262). -/
def takeAppend (s : State) (j : Pkt) (cs : List (Nat × Bool)) : Verdict :=
  let k := j.pkt
  let n := pf k 32 2
  let d := s.seqd n
  passing cs (
    if s.editRuns j.part n || (s.appendOn j.part n).isSome then .hold s
    else s.withSeq j n (s.appendChecks j d) (fun d =>
      let gps := j.appendPages d
      let ents := gps.map (fun e => (s.pageEnt j.part d e.1 e.2 0, s.pageEnt j.part d e.1 e.2 1))
      let bad := ents.any (fun e => e.1.notValid || e.2.notValid)
      passUnless (pf k 24 4 ≠ d.length.toNat || bad) .wrongState (
        passUnless (decide (d.reach * d.t < pf k 24 4 + pf k 28 4)) .noResource (
          match s.faultyEnt j.part d gps with
          | some e => .fault s 1 e.base
          | none =>
            let j := { j.captures n d with args := s.captureEnts j.part d gps }
            .go s (j.inStack (stacksFor (ents.flatMap (fun e => [e.1.base, e.2.base])))) id))))

/-- `APPEND_KV` (R262 to R264). -/
def execAppendKv (q : Fin 256) (k : Packet) (s : State) : Host.Outcome State Fault Refusal := takeWork .appendKv q k takeAppend s

/-- What an append writes in one stack, token by token: page, token in it, source address of the row, group and kind. -/
structure AppendRow where
  ent : PageEnt
  tok : Nat
  src : Nat
  deriving DecidableEq, Repr

/-- The rows of an append whose pages one stack holds (R226, R262). -/
def State.appendRows (s : State) (k : Pkt) (d : SeqDesc) (st : Nat) : List AppendRow :=
  let ng := pf k.pkt 35 1
  let g0 := pf k.pkt 34 1
  let p := pf k.pkt 24 4
  let gps := k.appendPages d
  ((List.range (pf k.pkt 28 4)).flatMap (fun n => (List.range ng).flatMap (fun g =>
    let t := p + n
    let i := gps.findIdx (fun e => e.1 = g0 + g && e.2 = t / d.t)
    let e := s.captured k d 0 i
    let row := 2 * ((n * ng + g) * d.d)
    ([⟨e.1, t % d.t, pa k.pkt 8 + row⟩, ⟨e.2, t % d.t, pa k.pkt 16 + row⟩] : List AppendRow)))).filter
      (fun r => r.ent.base / 2 ^ 36 = st)

/-- Bytes of a quantised row with the poison that they derive from (R239): a block's elements and its scale derive from every value
of the block. -/
def rowPoison (fmt : Nat) (bad : Nat → Bool) (es sc : List Byte) : List (Byte × Bool) × List (Byte × Bool) :=
  let g := kvGroup fmt
  let block (m : Nat) : Bool := (List.range g).any (fun n => bad (g * m + n))
  ((es.zipIdx).map (fun (b : Byte × Nat) => (b.1, block (b.2 * 8 / (pageBits fmt * g)))),
    (sc.zipIdx).map (fun (b : Byte × Nat) => (b.1, block (b.2 / 2))))

/-- Write one quantised row into its page with the steps of the page's unit (R226, R237): elements and scales. -/
def State.writeRow (s : State) (d : Nat) (r : AppendRow) (es sc : List (Byte × Bool)) : State :=
  let n := d * pageBits r.ent.fmt / 8
  let m := 2 * (d / kvGroup r.ent.fmt)
  let ps := s.pagePlaces r.ent.base (r.tok * n) n ++ s.pagePlaces r.ent.base (r.ent.scale + r.tok * m) m
  s.unitWrite (ps.zip (es ++ sc))

/-- Every row, and the failure that poison leaves (R239). -/
def State.appendAll (s : State) (st : Fin 12) (k : Pkt) (d : SeqDesc) (rows : List AppendRow) (rt : List (Nat × Xlat)) :
    State × Bool :=
  let ts := rt.map Prod.snd
  let s := ((s.accessLines false true ts).countTraffic false false ts).cachePages k.part 10 k.ctx ts
  let mem := byteOf (rt.map (fun e => (e.1, s.byteAt e.2.place)))
  let badAt (a : Nat) : Bool := match rt.find? (fun e => e.1 = a) with
    | some e => s.wordPoisoned e.2.place
    | none => false
  let isBad (r : AppendRow) : Bool := (addrRun r.src (2 * d.d)).any badAt
  let s := (rows.zipIdx).foldl (fun (s : State) (e : AppendRow × Nat) =>
    let q := quantRow e.1.ent.fmt (bit (pf k.pkt 36 1) 0) (s.freeCtr + d.d * e.2)
      ((List.range d.d).map (fun n => bfAt mem e.1.src n))
    let w := rowPoison e.1.ent.fmt (fun n => badAt (e.1.src + 2 * n) || badAt (e.1.src + 2 * n + 1)) q.1 q.2
    s.writeRow d.d e.1 w.1 w.2) s
  let s := s.draw (d.d * rows.length)
  match rows.find? isBad with
  | some r => (s.faultCmd st k 2 (s.pageOwner k r.ent.base (r.tok * (d.d * pageBits r.ent.fmt / 8))).1, true)
  | none => (s, true)

/-- `APPEND` in one stack (R182, R226, R264): rows `lo` to `hi - 1` of those that it writes. The flag says that they are done. -/
def State.runAppend (s : State) (st : Fin 12) (k : Pkt) (lo hi : Nat) : State × Bool :=
  let d := s.seqd (k.seq.getD 0)
  let rows := ((s.appendRows k d st.val).drop lo).take (hi - lo)
  let reads := (rows.flatMap (fun r => addrRun r.src (2 * d.d))).dedup
  match rows.find? (fun r => s.pageIn k.part k.ctx r.ent.base (fun g => g.sharedRO)) with
  | some r => (s.faultCmd st k 5 (s.pageOwner k r.ent.base 0).1, true)
  | none => match s.access k.part k.ctx reads (fun _ => true) with
  | .error b => (s.faultCmd st k 5 b.2, true)
  | .ok ts => match s.heldUp k.part false ts with
    | some s => (s, false)
    | none =>
      let (s, bad) := s.poisonIn reads ts
      match bad with
      | some e =>
        if e.2.2 then (s.parkCmd st k e.2.1 e.1, false)
        else s.appendAll st k d rows (reads.zip ts)
      | none => s.appendAll st k d rows (reads.zip ts)

/-! ### Edits (R265 to R267) -/

/-- Pages that an edit names (R265): a page range, or the pages of a token span for `DROP`. -/
def editPages (d : SeqDesc) (k : Packet) : List Nat :=
  let f := pf k 24 4
  let n := pf k 28 4
  if pf k 34 1 = 3 then (List.range ((f + n - 1) / d.t + 1 - f / d.t)).map (f / d.t + ·) else addrRun f n

/-- Entries that an edit names, ordered by group, then page, keys before values: group, page, kind. -/
def editEnts (d : SeqDesc) (k : Packet) : List (Nat × Nat × Nat) :=
  let kv := pf k 37 1 % 4
  let kvs := (if bit kv 0 then [0] else []) ++ (if bit kv 1 then [1] else [])
  (addrRun (pf k 35 1) (pf k 36 1)).flatMap (fun g => (editPages d k).flatMap (fun j => kvs.map (fun v => (g, j, v))))

/-- Operations that name entries. -/
def editNames (op : Nat) : Bool := [1, 2, 3, 4, 5].contains op

/-- Checks of an edit against the descriptor (R265). -/
def editRel (d : SeqDesc) (k : Packet) : List (Nat × Bool) :=
  let op := pf k 34 1
  let f := pf k 24 4
  let n := pf k 28 4
  let last := if op = 3 then (f + n - 1) / d.t else f + n - 1
  [(35, editNames op && decide (d.ngroup.toNat < pf k 35 1 + pf k 36 1)), (24, editNames op && decide (d.reach ≤ last)),
    (24, op = 6 && decide (d.length.toNat < f))]

/-- Checks of an edit against the device (R243, R265): `OPEN`'s table, the release flag, `READ`'s destination. -/
def State.editAbs (s : State) (j : Pkt) : List (Nat × Bool) :=
  let k := j.pkt
  let op := pf k 34 1
  let q := s.part j.part
  let top := pa k 8 + tableBytes (pf k 40 1) (pf k 42 2)
  let pool := q.poolBase.toNat + q.poolSize.toNat * 2 ^ 21
  [(8, op = 0 && (decide (pa k 8 < q.poolBase.toNat) || decide (pool < top))),
    (16, op ≠ 9 && pa k 16 ≠ 0 && !s.flagOk j (pa k 16) Region.atomicOk),
    (8, op = 9 && (match s.access j.part j.ctx (addrRun (pa k 8) 64) (Region.writable false) with
      | .ok _ => false
      | .error _ => true))]

/-- The BANK base of the page at a device address for a format; `none` where it cannot hold a page (R249, R250, R265). -/
def State.pageAt (s : State) (j : Pkt) (d : SeqDesc) (fmt a : Nat) : Option Nat :=
  let scale := pageElems d.t d.d fmt
  let n := scale + pageScales d.t d.d fmt
  match s.regionAt j.part j.ctx a with
  | none => none
  | some e =>
    let off := a - e.2.dbase.toNat
    let base := s.frameOf j.part e.2 (off / e.2.page) * 65536 + off % e.2.page
    if e.2.kind = .bank && (List.range n).all (fun o =>
        (s.translate j.part j.ctx (a + o)).map Xlat.place = (s.bankPlace (base + o)).map Place.dram)
      && !s.pageBad j.part d.t d.d fmt base scale then some base else none

/-- Checks of a page address list, by offset in it (R265, R275, R382). -/
def State.listChecks (s : State) (j : Pkt) (d : SeqDesc) (l : List Byte) : List (Nat × Bool) :=
  let fmt := pf j.pkt 38 1
  (List.range (l.length / 8)).map (fun n =>
    let a := lf l (8 * n) 6
    (0x10000 + 8 * n, lf l (8 * n + 6) 2 ≠ 0 || (s.pageAt j d fmt a).isNone
      || (pf j.pkt 34 1 = 5 && (match s.regionAt j.part j.ctx a with | some e => e.2.datum | none => false))))

/-- States from which an operation leads somewhere (R266). -/
def editFrom (op st : Nat) : Bool :=
  match op with
  | 1 => st = 0 || st = 2
  | 2 => st = 3
  | 3 => st = 1 || st = 3
  | 4 => st ≠ 0
  | _ => st = 1

/-- Every page that a sequence's table holds (R266). -/
def State.allPages (s : State) (p : Fin 4) (d : SeqDesc) : List Nat :=
  (List.range d.ngroup.toNat).flatMap (fun g => (List.range d.ndir.toNat).flatMap (fun m =>
    if (s.dirEnt p d g (128 * m)).valid then
      (List.range 128).flatMap (fun j => [0, 1].flatMap (fun kv =>
        let e := s.pageEnt p d g (128 * m + j) kv
        if e.st = 1 || e.st = 3 then [e.base] else []))
    else []))

/-- Pages that an edit takes out of the table at once. -/
def State.editTakes (s : State) (p : Fin 4) (d : SeqDesc) (k : Packet) : List Nat :=
  match pf k 34 1 with
  | 8 => s.allPages p d
  | op =>
    if op = 3 || op = 4 || op = 5 then (editEnts d k).filterMap (fun e =>
      let t := s.pageEnt p d e.1 e.2.1 e.2.2
      if t.st = 1 || t.st = 3 then some t.base else none)
    else []

/-- Pages for which the running `REENCODE`s of a partition hold room in its quarantine until they complete (R266, R269). -/
def State.quarDue (s : State) (p : Fin 4) : Nat :=
  ((s.pkts.filter (fun k => k.part = p && k.kind = .edit 5 && !k.done && k.status = .ok)).map (fun k =>
    (editEnts (s.seqd (k.seq.getD 0)) k.pkt).length)).sum

/-- The table of an `OPEN` meets that of an open sequence of the range (R265). -/
def State.tableMeets (s : State) (p : Fin 4) (k : Packet) : Bool :=
  s.seqs.any (fun e => (s.part p).inRange e.1 && e.2.st ≠ 0
    && rangesMeet (pa k 8, tableBytes (pf k 40 1) (pf k 42 2)) (e.2.table.toNat, tableBytes e.2.ngroup.toNat e.2.ndir.toNat))

/-- The edit's place for its release flag, kept before its list: 0 for none, otherwise one more than the place. -/
def State.flagKey (s : State) (j : Pkt) : Nat :=
  if pa j.pkt 16 = 0 then 0
  else match (s.translate j.part j.ctx (pa j.pkt 16)).map Xlat.place with
    | some (.dram k) => k + 1
    | _ => 0

/-- What an edit does to its entries, other than `REENCODE` (R266): states, bases and formats, with the new generation. -/
def State.editApply (s : State) (j : Pkt) (d : SeqDesc) (gen : Word) : State :=
  let k := j.pkt
  let op := pf k 34 1
  let fmt := pf k 38 1
  let es := editEnts d k
  (es.zipIdx).foldl (fun (s : State) (e : (Nat × Nat × Nat) × Nat) =>
    let old := s.pageEnt j.part d e.1.1 e.1.2.1 e.1.2.2
    let new : PageEnt := match op with
      | 1 => ⟨(s.pageAt j d fmt (lf j.args (8 + 8 * e.2) 6)).getD 0, fmt, if bit (pf k 37 1) 2 then 3 else 1,
          pageElems d.t d.d fmt, gen.toNat, false⟩
      | 2 => { old with st := 1, gen := gen.toNat }
      | 3 => { old with st := 2, gen := gen.toNat }
      | _ => { old with st := 0, gen := gen.toNat }
    s.writeEnt j.part d e.1.1 e.1.2.1 e.1.2.2 new) s

/-- An edit that may start takes effect (R265, R266): entries, descriptor, quarantine. `GEN` rises when it completes. -/
def State.editStart (s : State) (j : Pkt) (n : Nat) : State :=
  let k := j.pkt
  let d := s.seqd n
  let gen := d.gen + 1
  match pf k 34 1 with
  | 0 =>
    let s := s.writePart j.part.val (pa k 8) (List.replicate (16 * pf k 40 1 * pf k 42 2) 0)
    s.setSeqd n ⟨1, BitVec.ofNat 8 (pf k 39 1), BitVec.ofNat 8 (pf k 40 1), BitVec.ofNat 8 (pf k 41 1),
      BitVec.ofNat 4 j.ctx.val, BitVec.ofNat 16 (pf k 42 2), 1, 0, BitVec.ofNat 40 (pa k 8)⟩
  | 6 => s.updSeqd n (fun d => { d with length := BitVec.ofNat 32 (pf k 24 4) })
  | 7 => s
  | 8 => (s.quarantine j.part n gen (s.allPages j.part d)).updSeqd n (fun d => { d with st := 2 })
  | 5 => s
  | _ => (s.quarantine j.part n gen (s.editTakes j.part d k)).editApply j d gen

/-- Conditions of an edit after its parameters, in the order of R379. -/
def State.editState (s : State) (j : Pkt) (n : Nat) (l : List Byte) : Verdict :=
  let k := j.pkt
  let op := pf k 34 1
  let d := s.seqd n
  let q := s.part j.part
  let es := editEnts d k
  let gps := if editNames op then es.map (fun e => (e.1, e.2.1)) else []
  let taken := (s.editTakes j.part d k).length
  let busy := if op = 0 then s.tableMeets j.part k
    else decide (taken ≠ 0 && 4096 < q.quar.length + s.quarDue j.part + taken)
      || (op = 1 && (List.range (l.length / 8)).any (fun m => q.quar.any (fun g =>
        some g.page = s.pageAt j d (pf k 38 1) (lf l (8 * m) 6))))
  passUnless (s.seqDenied j.part j.ctx n) .denied (
    passUnless (if op = 0 then d.st ≠ 0 else d.st ≠ 1) .wrongState (
      match gps.find? (fun e => (s.dirEnt j.part d e.1 e.2).bad) with
      | some _ => .fault s 1 0
      | none =>
        passUnless (editNames op && es.any (fun e => !editFrom op (s.pageEnt j.part d e.1 e.2.1 e.2.2).st)) .wrongState (
          passUnless busy .busy (
            passUnless (op ≠ 0 && d.gen = 0xFFFFFFFF) .noResource (
              let j := { j.captures n d with args := leBytes 8 (s.flagKey j) ++ l }
              if op = 5 then
                match s.faultyEnt j.part d gps with
                | some e => .fault s 1 e.base
                | none =>
                  let raw := es.flatMap (fun e => s.entRaw j.part d e.1 e.2.1 e.2.2)
                  let sts := stacksFor (es.map (fun e => (s.pageEnt j.part d e.1 e.2.1 e.2.2).base))
                  .go s ({ j with args := j.args ++ raw }.inStack sts) id
              else .go s j (fun s => s.editStart j n))))))

/-- A `PAGE_EDIT` other than `READ` (R265 to R267). -/
def takeEdit (s : State) (j : Pkt) (cs : List (Nat × Bool)) : Verdict :=
  let k := j.pkt
  let op := pf k 34 1
  let n := pf k 32 2
  let d := s.seqd n
  let own := cs ++ (s.editAbs j).map (fun c => (c.1, c.2 && fieldOk cs c.1))
  let meets := match s.appendOn j.part n with
    | none => false
    | some a => op = 6 || op = 8 || (editNames op && (editEnts d k).any (fun e => (a.appendPages d).contains (e.1, e.2.1)))
  passing own (
    if s.editRuns j.part n || meets then .hold s
    else
      let rel := if d.st = 0 then [] else editRel d k
      if (op = 1 || op = 5) && d.st ≠ 0 && (firstBad rel).isNone then
        s.withArg j own 8 (pa k 8) (8 * (editEnts d k).length) (fun s l =>
          passing (s.listChecks j d l) (s.editState j n l))
      else passing rel (s.editState j n []))

/-- `READ` (R245, R265): never held; the descriptor's 64 bytes are copied as they stand. -/
def takeRead (s : State) (j : Pkt) (cs : List (Nat × Bool)) : Verdict :=
  let k := j.pkt
  let n := pf k 32 2
  passing (cs ++ (s.editAbs j).map (fun c => (c.1, c.2 && fieldOk cs c.1))) (
    passUnless (s.seqDenied j.part j.ctx n) .denied (
      match s.translateAll j.part j.ctx (addrRun (pa k 8) 64) with
      | none => .hold s
      | some ts => match s.heldUp j.part true ts with
        | some s => .hold s
        | none => .go s { j with seq := some n } (fun s =>
          (s.devWrite none ts (s.descBytes j.part n)).cachePages j.part 10 j.ctx ts)))

/-- `OPEN` (R265). -/
def execOpenSeq (q : Fin 256) (k : Packet) (s : State) : Host.Outcome State Fault Refusal := takeWork (.edit 0) q k takeEdit s
/-- `MAP` (R265, R266). -/
def execMapPages (q : Fin 256) (k : Packet) (s : State) : Host.Outcome State Fault Refusal := takeWork (.edit 1) q k takeEdit s
/-- `COMMIT` (R266). -/
def execCommitPages (q : Fin 256) (k : Packet) (s : State) : Host.Outcome State Fault Refusal :=
  takeWork (.edit 2) q k takeEdit s
/-- `DROP` (R266, R272). -/
def execDropPages (q : Fin 256) (k : Packet) (s : State) : Host.Outcome State Fault Refusal := takeWork (.edit 3) q k takeEdit s
/-- `FREE` (R266). -/
def execFreePages (q : Fin 256) (k : Packet) (s : State) : Host.Outcome State Fault Refusal := takeWork (.edit 4) q k takeEdit s
/-- `REENCODE` (R265, R266). -/
def execReencodePages (q : Fin 256) (k : Packet) (s : State) : Host.Outcome State Fault Refusal :=
  takeWork (.edit 5) q k takeEdit s
/-- `TRUNCATE` (R265). -/
def execTruncateSeq (q : Fin 256) (k : Packet) (s : State) : Host.Outcome State Fault Refusal :=
  takeWork (.edit 6) q k takeEdit s
/-- `SYNC` (R265, R270). -/
def execSyncSeq (q : Fin 256) (k : Packet) (s : State) : Host.Outcome State Fault Refusal := takeWork (.edit 7) q k takeEdit s
/-- `CLOSE` (R266). -/
def execCloseSeq (q : Fin 256) (k : Packet) (s : State) : Host.Outcome State Fault Refusal := takeWork (.edit 8) q k takeEdit s
/-- `READ` (R245, R265). -/
def execReadSeq (q : Fin 256) (k : Packet) (s : State) : Host.Outcome State Fault Refusal := takeWork (.edit 9) q k takeRead s

/-! ### `REENCODE` and re-encoded pages (R227, R266, R274) -/

/-- A page re-encoded: elements and scales of the target format, with the poison of each byte (R239, R264, R274). -/
def requantPage (g : PageData) (t d fmt ctr : Nat) : List (Byte × Bool) × List (Byte × Bool) :=
  let rows := (List.range t).map (fun n =>
    let es := (List.range d).map (g.elem n)
    let q := quantRow fmt false ctr (es.map (fun e => mulVal e.1 e.2.1))
    rowPoison fmt (fun n => match es[n]? with | some e => e.2.2 | none => false) q.1 q.2)
  (rows.flatMap Prod.fst, rows.flatMap Prod.snd)

/-- A page as it stands: its bytes with their poison. -/
def PageData.copied (g : PageData) : List (Byte × Bool) × List (Byte × Bool) :=
  (g.elems.toList.map (fun b => (b.v, b.bad)), g.scales.toList.map (fun b => (b.v, b.bad)))

/-- The first poisoned byte of a page that its readers may not pass on: it lies in a SHARED_RO region (R399). -/
def State.pageParks (s : State) (k : Pkt) (d : SeqDesc) (e : PageEnt) : Option (Place × Nat) :=
  let offs := addrRun 0 (pageElems d.t d.d e.fmt) ++ addrRun e.scale (pageScales d.t d.d e.fmt)
  offs.findSome? (fun o => match s.pagePlace e o with
    | some pl =>
      if s.wordPoisoned pl then
        let w := s.pageOwner k e.base o
        if w.2 then some (pl, w.1) else none
      else none
    | none => none)

/-- Meet every byte of a page (R394 to R396). -/
def State.touchPage (s : State) (d : SeqDesc) (e : PageEnt) : State :=
  s.touch (groupsOf (s.pagePlaces e.base 0 (pageElems d.t d.d e.fmt) ++ s.pagePlaces e.base e.scale (pageScales d.t d.d e.fmt)))

/-- Entries of a `REENCODE` as it captured them, with their new pages' device addresses. -/
def State.reencEnts (s : State) (k : Pkt) (d : SeqDesc) : List ((Nat × Nat × Nat) × PageEnt × Nat) :=
  let es := editEnts d k.pkt
  (es.zipIdx).map (fun (e : (Nat × Nat × Nat) × Nat) =>
    (e.1, s.parseEnt k.part d e.1.2.2 ((k.args.drop (8 + 8 * es.length + 16 * e.2)).take 16) false, lf k.args (8 + 8 * e.2) 6))

/-- `REQUANT` for a `REENCODE` in one stack (R227): new pages `lo` to `hi - 1` are written with WRITE steps; poison follows its data
(R182, R237). -/
def State.runReencode (s : State) (st : Fin 12) (k : Pkt) (lo hi : Nat) : State × Bool :=
  let d := s.seqd (k.seq.getD 0)
  let fmt := pf k.pkt 38 1
  let mine := (((s.reencEnts k d).filter (fun e => e.2.1.base / 2 ^ 36 = st.val)).drop lo).take (hi - lo)
  let s := mine.foldl (fun s e => s.touchPage d e.2.1) s
  let barred (e : (Nat × Nat × Nat) × PageEnt × Nat) : Bool := match s.regionAt k.part k.ctx e.2.2 with
    | some r => r.2.sharedRO
    | none => false
  match mine.find? barred, mine.findSome? (fun e => s.pageParks k d e.2.1) with
  | some e, _ => (s.faultCmd st k 5 e.2.2, true)
  | none, some e => (s.parkCmd st k e.1 e.2, false)
  | none, none =>
    let r := mine.foldl (fun (r : State × Option Nat) e =>
      let s := r.1
      let pg := requantPage (s.pageData d.t d.d e.2.1) d.t d.d fmt s.freeCtr
      let base := (s.pageAt k d fmt e.2.2).getD 0
      let ps := s.pagePlaces base 0 pg.1.length ++ s.pagePlaces base (pageElems d.t d.d fmt) pg.2.length
      let bs := pg.1 ++ pg.2
      let s := s.unitWrite (ps.zip bs)
      (s, r.2 <|> ((bs.findIdx? (fun x => x.2)).map (fun n => e.2.2 + n)))) (s, none)
    match r.2 with
    | some a => (r.1.faultCmd st k 2 a, true)
    | none => (r.1, true)

/-- The end of a `REENCODE` (R266): its entries name the new pages, and the old ones enter the quarantine. -/
def State.endReencode (s : State) (k : Pkt) : State :=
  let n := k.seq.getD 0
  let d := s.seqd n
  let gen := d.gen + 1
  let fmt := pf k.pkt 38 1
  let es := s.reencEnts k d
  let s := s.quarantine k.part n gen (es.map (fun e => e.2.1.base))
  es.foldl (fun s e => s.writeEnt k.part d e.1.1 e.1.2.1 e.1.2.2
    ⟨(s.pageAt k d fmt e.2.2).getD 0, fmt, 1, pageElems d.t d.d fmt, gen.toNat, false⟩) s

/-- What the completion of an edit adds (R265, R269, R272): `GEN`, the release flag, `PAGE_DROPPED`. -/
def State.endEdit (s : State) (k : Pkt) (op : Nat) : State :=
  let n := k.seq.getD 0
  let s := if op = 5 then s.endReencode k else s
  let gen := (s.seqd n).gen + 1
  let s := if op = 0 || op = 9 then s else s.updSeqd n (fun d => { d with gen := gen })
  let key := lf k.args 0 8
  let s := if op = 9 || key = 0 then s
    else s.updPart k.part (fun q => { q with relFlags := q.relFlags ++ [⟨n, if op = 0 then 0 else gen, key - 1⟩] })
  if op = 3 && bit (pf k.pkt 37 1) 3 then
    s.raise (((((mkEvent 0x10 0 0).atPart k.part).withReason n).withDetail gen.toNat).withWork k.wtag (s.evqOf k.q))
  else s

end Sys2Proof.Machine
end

