-- ==== Sys2Proof/Machine/Serve.lean ====
section
/-! DEFINITION. Serving pages to a peer (R273 to R275, R334): the packet `PAGE_SERVE`, the request it may send instead, the
requests that arrive over links, and the stages that a serve goes through. -/

namespace Sys2Proof.Machine

/-! ### What a serve covers -/

/-- A packet is the one that `k` stands for. -/
def Pkt.same (k j : Pkt) : Bool := j.q = k.q && j.i = k.i && j.lane = k.lane && j.laneIdx = k.laneIdx

/-- The packet as it stands now. -/
def State.now (s : State) (k : Pkt) : Option Pkt := s.pkts.find? k.same

/-- The link that a packet's `PEER` names. -/
def Pkt.peer (k : Pkt) : Option (Fin 48) := peerLink (BitVec.ofNat 32 (pf k.pkt 44 4))

/-- Groups and pages of a serve. Pages beyond the directory's reach count as missing (DESIGN CHOICE, log 33). -/
def servePages (d : SeqDesc) (k : Packet) : List (Nat × Nat) :=
  let f := pf k 32 4
  let n := pf k 36 4
  let js := if n = 0 then [] else (List.range ((f + n - 1) / d.t + 1 - f / d.t)).map (f / d.t + ·)
  (addrRun (pf k 50 1) (pf k 51 1)).flatMap (fun g => js.map (fun j => (g, j)))

/-- Those that the directory can index. -/
def serveReach (d : SeqDesc) (k : Packet) : List (Nat × Nat) := (servePages d k).filter (fun e => decide (e.2 < d.reach))

/-- The entry pair of a page as the serve captured it. -/
def State.serveEnt (s : State) (k : Pkt) (d : SeqDesc) (g j : Nat) : EntPair :=
  let l := serveReach d k.pkt
  let i := l.findIdx (fun e => e = (g, j))
  if i < l.length then s.captured k d 0 i else (PageEnt.empty, PageEnt.empty)

/-- A page that is sent: its number among those sent, and its entry. -/
structure ServePage where
  n : Nat
  ent : PageEnt
  deriving DecidableEq, Repr

/-- The pages sent, in their order: group by group, keys before values, by page (R273). -/
def State.serveList (s : State) (k : Pkt) (d : SeqDesc) : List ServePage :=
  let groups := addrRun (pf k.pkt 50 1) (pf k.pkt 51 1)
  let all := groups.flatMap (fun g => [0, 1].flatMap (fun kv =>
    ((serveReach d k.pkt).filter (fun e => e.1 = g)).filterMap (fun e =>
      let t := s.serveEnt k d g e.2
      let x := if kv = 0 then t.1 else t.2
      if x.st = 1 then some x else none)))
  (all.zipIdx).map (fun (e : PageEnt × Nat) => ⟨e.2, e.1⟩)

/-- The spans of pages that a serve does not find (R271, R274). -/
def State.serveSpans (s : State) (k : Pkt) (d : SeqDesc) : List (Nat × Nat × Nat × Nat) :=
  let f := pf k.pkt 32 4
  (addrRun (pf k.pkt 50 1) (pf k.pkt 51 1)).flatMap (fun g =>
    missSpans d.t g f (f + pf k.pkt 36 4) (((servePages d k.pkt).filter (fun e => e.1 = g)).map (fun e =>
      (e.2, missKind (s.serveEnt k d g e.2)))))

/-- Bytes from one page to its end in the target format (R249). -/
def serveFoot (d : SeqDesc) (fmt : Nat) : Nat := pageElems d.t d.d fmt + pageScales d.t d.d fmt

/-! ### Sending (R274, R275, R329) -/

/-- Whose writes a packet's own release covers: a packet's queue, or the serve itself. -/
def Pkt.mine (k : Pkt) : Nat × Nat → Bool := if k.lane = 4 then (fun e => e = (361, k.q)) else queueWrites k.q

/-- Note that a packet has sent a write over a link. -/
def State.markPkt (s : State) (k : Pkt) (l : Fin 48) : State := s.markWrite l (if k.lane = 4 then 361 else 360) k.q

/-- Cut a run of bytes at the receiver's 4 KiB blocks (R327): address and bytes. -/
def blockCuts {α : Type} (a : Nat) (bs : List α) : List (Nat × List α) :=
  let head := bs.take (4096 - a % 4096)
  (if head.isEmpty then [] else [(a, head)])
    ++ ((chunks 4096 bs.length (bs.drop head.length)).zipIdx).map (fun (e : List α × Nat) => (a + head.length + 4096 * e.2, e.1))

/-- Send bytes to a peer as `WR` messages (R325, R330, R332). -/
def State.sendWrites (s : State) (k : Pkt) (l : Fin 48) (datum : Bool) (a : Nat) (bs : List (Byte × Bool)) : State :=
  (blockCuts a bs).foldl (fun s r =>
    let data := r.2.map Prod.fst
    s.request l k.waiter (s.mkMsg { MsgSpec.zero with
      type := 0x03
      flags := 1 + (if r.2.any Prod.snd then 8 else 0) + (if datum then 16 else 0)
      dctx := s.farCtx k.ctx l
      len := cdiv data.length 32
      addr := r.1
      rdat := if datum then (crc32c data).toNat else 0
      data := padTo (32 * cdiv data.length 32) data })) (s.markPkt k l)

/-- Bytes of a page of a serve as it is sent (R249, R275): padded to whole blocks of 4 KiB for a Datum-checked destination. -/
def serveLen (d : SeqDesc) (k : Pkt) : Nat :=
  let n := serveFoot d (pf k.pkt 52 1)
  if bit (pf k.pkt 53 1) 1 then 4096 * cdiv n 4096 else n

/-- Blocks of 4 KiB of such a page (R230). -/
def serveBlocks (d : SeqDesc) (k : Pkt) : Nat := cdiv (serveLen d k) 4096

/-- Send blocks `lo` to `hi - 1` of 4 KiB of one page (R230, R273 to R275): as it stands where it is in the target format, otherwise
re-encoded. -/
def State.sendPage (s : State) (k : Pkt) (d : SeqDesc) (g : ServePage) (lo hi : Nat) : State :=
  let fmt := pf k.pkt 52 1
  let datum := bit (pf k.pkt 53 1) 1
  let data := s.pageData d.t d.d g.ent
  let pg := if g.ent.fmt = fmt then data.copied else requantPage data d.t d.d fmt s.freeCtr
  let bs := pg.1 ++ pg.2
  let bs := if datum then bs ++ List.replicate (4096 * cdiv bs.length 4096 - bs.length) (0, false) else bs
  match k.peer with
  | some l => s.sendWrites k l datum (pa k.pkt 8 + g.n * pf k.pkt 40 4 + 4096 * lo) ((bs.drop (4096 * lo)).take (4096 * (hi - lo)))
  | none => s

/-- The pages of a serve that one stack holds and one command sends: `REQUANT` those it re-encodes, `GATHER` the others
(R220, R274). -/
def State.servePart (s : State) (k : Pkt) (d : SeqDesc) (st : Nat) (same : Bool) : List ServePage :=
  (s.serveList k d).filter (fun g => g.ent.base / 2 ^ 36 = st && (decide (g.ent.fmt = pf k.pkt 52 1) == same))

/-- A stack's part of a serve (R227, R228, R230, R274): of the pages that it re-encodes, pages `lo` to `hi - 1`; of those that it
gathers, blocks `lo` to `hi - 1` of 4 KiB. -/
def State.runServe (s : State) (st : Fin 12) (k : Pkt) (same : Bool) (lo hi : Nat) : State × Bool :=
  let d := s.seqd (k.seq.getD 0)
  let per := serveBlocks d k
  let n := if same then per else 1
  let mine := (s.servePart k d st.val same).zipIdx.filter (fun e => decide (lo < n * (e.2 + 1)) && decide (n * e.2 < hi))
  let s := (mine.map Prod.fst).foldl (fun s g => s.touchPage d g.ent) s
  match mine.findSome? (fun g => s.pageParks k d g.1.ent) with
  | some e => (s.parkCmd st k e.1 e.2, false)
  | none => (mine.foldl (fun s g => if same then s.sendPage k d g.1 (lo - n * g.2) (min per (hi - n * g.2))
      else s.sendPage k d g.1 0 per) s, true)

/-! ### Miss lists (R271) -/

/-- The bytes of a miss list. -/
def missList (sp : List (Nat × Nat × Nat × Nat)) : List Byte :=
  leBytes 4 sp.length ++ leBytes 4 (min 63 sp.length)
    ++ (sp.take 63).flatMap (fun e => leBytes 8 (e.1 + 2 ^ 21 * e.2.1 + 2 ^ 42 * e.2.2.1 + 2 ^ 48 * e.2.2.2))

/-- Spans found are counted and reported (R271). -/
def State.reportMisses (s : State) (k : Pkt) (miss : Nat) : State :=
  if k.spans.isEmpty then s
  else
    let n := k.spans.length
    let s := s.updPart k.part (fun q => { q with kvMisses := satAdd q.kvMisses n })
    s.raise (((((mkEvent 0x11 0 0).atPart k.part).withReason n).withAddr miss).withWork k.wtag
      (if k.lane = 4 then 0 else s.evqOf k.q))

/-! ### Stages (R274) -/

/-- Change a packet. -/
def State.updPkt (s : State) (k : Pkt) (f : Pkt → Pkt) : State := s.updPkts k.same f

/-- A serve that has nothing out goes on: the release, the peer's flag, the peer's miss list, its end. A serve for a peer has
no reply; what it found missing is reported, and its sequence may let pages go. -/
def State.serveNext (s : State) (k : Pkt) : Nat → State
  | 0 => s
  | f + 1 => match s.now k with
    | none => s
    | some k =>
      if k.status ≠ .ok || k.cmdsLeft ≠ 0 || k.kind ≠ .pageServe || (s.ctx k.part k.ctx).st ≠ .running
          || s.awaiting k.part k.waiter then s
      else match k.peer with
        | none => s
        | some l =>
          let stage (n : Nat) (s : State) : State := s.updPkt k (fun j => { j with joined := n })
          match k.joined with
          | 0 => (stage 1 (s.drainLinks k.part k.waiter k.mine)).serveNext k f
          | 1 =>
            let s := (stage 2 s).markPkt k l
            (s.request l k.waiter (s.mkMsg { MsgSpec.zero with
              type := 0x05, dctx := s.farCtx k.ctx l, addr := pa k.pkt 16, value := 1 })).serveNext k f
          | 2 =>
            let s := if k.lane = 4 && pa k.pkt 24 ≠ 0 && !k.spans.isEmpty then
                ((chunks 32 512 (missList k.spans)).zipIdx).foldl (fun (s : State) (e : List Byte × Nat) =>
                  s.sendWrites k l false (pa k.pkt 24 + 32 * e.2) ((padTo 32 e.1).map (fun b => (b, false)))) s
              else s
            (stage 3 s).serveNext k f
          | _ =>
            if k.lane = 4 then
              let s := s.reportMisses k (pa k.pkt 24)
              ({ s with pkts := s.pkts.filter (fun j => !k.same j) }.settle k.part).schedule k.part
            else s.updPkt k (fun j => { j with effect := true })

/-- Let a serve go as far as it can. -/
def State.advance (s : State) (k : Pkt) : State := s.serveNext k 5

/-! ### Taking -/

/-- Checks of a serve against the descriptor (R252, R275). -/
def serveRel (d : SeqDesc) (k : Packet) : List (Nat × Bool) :=
  let foot := 4096 * cdiv (serveFoot d (pf k 52 1)) 4096
  [(50, decide (d.ngroup.toNat < pf k 50 1 + pf k 51 1)), (40, bit (pf k 53 1) 1 && decide (pf k 40 4 < foot))]

/-- Checks of a serve's destination (R275, R327). -/
def serveDest (k : Packet) (datum : Bool) : List (Nat × Bool) :=
  [(8, pa k 8 % 32 ≠ 0), (8, datum && pa k 8 % 4096 ≠ 0), (40, datum && pf k 40 4 % 4096 ≠ 0)]

/-- The link of a packet is not granted to its context. -/
def State.peerDenied (s : State) (j : Pkt) : Bool :=
  match j.peer with
  | some l => !s.granted j.part j.ctx l
  | none => false

/-- `PAGE_SERVE` as a work packet, or on a peer's behalf (R273). -/
def takePageServe (s : State) (j : Pkt) (cs : List (Nat × Bool)) : Verdict :=
  let k := j.pkt
  let n := pf k 48 2
  let d := s.seqd n
  passing (cs ++ serveDest k (bit (pf k 53 1) 1) ++ (if d.st = 0 then [] else serveRel d k)) (
    passUnless (s.peerDenied j) .denied (
      s.withSeq j n [] (fun d =>
        let gps := serveReach d k
        match s.faultyEnt j.part d gps with
        | some e => .fault s 1 e.base
        | none =>
          let j := { j.captures n d with args := s.captureEnts j.part d gps }
          let pages := s.serveList j d
          let key (g : ServePage) : Nat := (if g.ent.fmt = pf k 52 1 then 16 else 0) + g.ent.base / 2 ^ 36
          let j := { (j.inStack ((pages.map key).dedup)) with spans := s.serveSpans j d }
          .go s j (fun s => s.advance j))))

/-- `PAGE_SERVE` (R273 to R275). -/
def execPageServe (q : Fin 256) (k : Packet) (s : State) : Host.Outcome State Fault Refusal :=
  takeWork .pageServe q k takePageServe s

/-- The 64 bytes of a `PS_REQ` (R334). -/
def psReqData (k : Packet) (datum : Bool) : List Byte :=
  leBytes 2 (pf k 48 2) ++ leBytes 1 (pf k 50 1) ++ leBytes 1 (pf k 51 1) ++ leBytes 4 (pf k 32 4) ++ leBytes 4 (pf k 36 4)
    ++ leBytes 1 (pf k 52 1) ++ leBytes 1 (b2n datum) ++ leBytes 2 0 ++ leBytes 6 (pa k 8) ++ leBytes 2 0
    ++ leBytes 4 (pf k 40 4) ++ leBytes 4 0 ++ leBytes 6 (pa k 16) ++ leBytes 2 0 ++ leBytes 6 (pa k 24) ++ List.replicate 18 0

/-- The footprint of a page of the sequence that a request names at its peer (R275). The manual does not say how this device knows
its page size and head dimension: they are free within the ranges of R245 (log 99). -/
def farFoot (k : Packet) : Nat :=
  let shape := Config.farSeq (pf k 44 4) (pf k 48 2)
  serveFoot { SeqDesc.reset with pageLog2 := BitVec.ofNat 8 (4 + shape.1.val), dcode := 1 <<< shape.2.val } (pf k 52 1)

/-- `PAGE_SERVE` with `REQUEST` (R275, R334): one `PS_REQ` to the peer, with `DATUM` from this device's region table; into a
Datum-checked region its stride must reach the footprint of a page, rounded up to whole blocks. -/
def takeServeReq (s : State) (j : Pkt) (cs : List (Nat × Bool)) : Verdict :=
  let k := j.pkt
  let datum := match s.regionAt j.part j.ctx (pa k 8) with
    | some e => e.2.datum
    | none => false
  passing (cs ++ serveDest k datum ++ [(40, datum && decide (pf k 40 4 < 4096 * cdiv (farFoot k) 4096))]) (passUnless (s.peerDenied j) .denied (
    match j.peer with
    | none => .hold s
    | some l => .go s j (fun s => s.request l j.waiter (s.mkMsg { MsgSpec.zero with
        type := 0x06, dctx := s.farCtx j.ctx l, len := 2, data := psReqData k datum }))))

/-- `PAGE_SERVE` with `REQUEST` (R334). -/
def execPageServeRequest (q : Fin 256) (k : Packet) (s : State) : Host.Outcome State Fault Refusal :=
  takeWork .serveReq q k takeServeReq s

/-! ### Requests of peers (R334) -/

/-- The packet that a request stands for. -/
def psReqPacket (l : Fin 48) (b : List Byte) : Packet :=
  BitVec.ofNat 512 (leNat ([0x2C] ++ List.replicate 7 0 ++ leBytes 8 (lf b 16 6) ++ leBytes 8 (lf b 32 6) ++ leBytes 8 (lf b 40 6)
    ++ leBytes 4 (lf b 4 4) ++ leBytes 4 (lf b 8 4) ++ leBytes 4 (lf b 24 4) ++ leBytes 4 (4096 * l.val) ++ leBytes 2 (lf b 0 2)
    ++ leBytes 1 (lf b 2 1) ++ leBytes 1 (lf b 3 1) ++ leBytes 1 (lf b 12 1) ++ leBytes 1 (2 * (lf b 13 1 % 2))
    ++ List.replicate 10 0))

/-- The lowest index that no serve of a partition has. -/
def State.serveIdx (s : State) (p : Fin 4) : Word :=
  BitVec.ofNat 32 (((List.range (s.pkts.length + 1)).find? (fun n =>
    !s.pkts.any (fun k => k.lane = 4 && k.q = p.val && k.i = BitVec.ofNat 32 n))).getD 0)

/-- Start one queued request in its context; one that the checks refuse ends with nothing sent. -/
def State.startServe (s : State) (p : Fin 4) (x : Fin 16) (l : Fin 48) (b : List Byte) : State :=
  let k := psReqPacket l b
  let w : WorkQ := ⟨p, x, 0, 0, 0, 0, 0, 0, 0⟩
  let j := { newPkt ⟨p.val, by omega⟩ w ⟨s.serveIdx p, 4, l.val⟩ .pageServe k with wtag := 0 }
  match takePageServe s j [] with
  | .refuse _ _ => s
  | .hold s => s
  | .fault s reason a => ({ s with pkts := s.pkts ++ [j] } : State).faultPkt j reason a 0
  | .go s j f => f { s with pkts := s.pkts ++ [j] }

/-- Start the queued requests of a partition's running context. -/
def State.startServes (s : State) (p : Fin 4) : State :=
  match (s.part p).cur with
  | none => s
  | some x =>
    if (s.ctx p x).st ≠ .running then s
    else
      let mine := (s.part p).serveQ.filter (fun r => r.2.1 = x.val)
      let s := s.updPart p (fun q => { q with serveQ := q.serveQ.filter (fun r => r.2.1 ≠ x.val) })
      mine.foldl (fun s r => s.startServe p x ⟨r.1 % 48, by omega⟩ r.2.2) s

end Sys2Proof.Machine
end

