-- ==== Sys2Proof/Machine/Collective.lean ====
section
/-! DEFINITION. Collectives (R335 to R337, R157, R158): the packet `COLLECTIVE`, the boxes that its sender cuts, the stages it
goes through, and what a receiver keeps of a box. -/

namespace Sys2Proof.Machine

/-! ### The packet's blocks (R335, R382) -/

/-- An entry of a peer list. -/
structure CollPeer where
  dev : Nat
  link : Nat
  recv : Bool
  send : Nat
  rsv : Nat
  deriving DecidableEq, Repr

/-- Read a peer entry. -/
def CollPeer.ofNat (n : Nat) : CollPeer := ⟨bits n 11 0, bits n 17 12, bit n 18, bits n 23 19, bits n 31 24⟩

/-- The receive tensor's descriptor and header. -/
def Pkt.recvBytes (k : Pkt) : List Byte := k.args.take 128
/-- Those of send tensor `n`. -/
def Pkt.sendBytes (k : Pkt) (n : Nat) : List Byte := (k.args.drop (128 + 128 * n)).take 128
/-- The peer list. -/
def Pkt.collPeers (k : Pkt) : List CollPeer :=
  (List.range (pf k.pkt 34 2)).map (fun n => CollPeer.ofNat (lf k.args (128 + 128 * pf k.pkt 36 1 + 4 * n) 4))

/-- A descriptor of 128 bytes. -/
def shardDesc (l : List Byte) : Desc := Desc.ofBytes (l.take 64)
/-- `GOFF` of its header (R157). -/
def shardOff (l : List Byte) (d : Nat) : Nat := lf l (80 + 4 * d) 4

/-- Checks of a descriptor and header of a `COLLECTIVE` at an offset of its block. -/
def shardChecks (o : Nat) (l : List Byte) : List (Nat × Bool) :=
  ((descChecks .all (l.take 64) (some (l.drop 64))) ++ [(2, !(shardDesc l).sharded)]).map (fun (c : Nat × Bool) => (0x10000 + o + c.1, c.2))

/-- Checks of a send tensor against the receive tensor (R335). Contour FP16 has no place on the wire (R333), and a chunk
covers a box only in the ROW layout (DEDUCED, log 34). -/
def sendChecks (o : Nat) (l : List Byte) (r : Desc) : List (Nat × Bool) :=
  let d := shardDesc l
  let per := if d.te 0 = 0 then 0 else chunkValues / d.te 0
  let coded := d.fmt = 0xA
  [(0x10000 + o + 1, d.fmt = 0xB), (0x10001, coded && r.fmt ≠ 1), (0x10000 + o, coded && d.layout ≠ 0),
    (0x10000 + o + 12, coded && (per = 0 || chunkValues % d.te 0 ≠ 0 || d.te 1 % max 1 per ≠ 0))]

/-- The receive region is cacheable, and the format one that reductions take (R335). -/
def State.accumBad (s : State) (j : Pkt) (r : Desc) : Bool :=
  let ok := match s.regionAt j.part j.ctx r.tbase with
    | some e => e.2.cacheable
    | none => false
  bit (pf j.pkt 37 1) 0 && !(ok && [0, 1, 0xC].contains r.fmt)

/-- Checks of the peer list (R335). -/
def peerChecks (k : Packet) (ps : List CollPeer) : List (Nat × Bool) :=
  ps.zipIdx.flatMap (fun (e : CollPeer × Nat) =>
    [(0x10000 + 4 * e.2, decide (48 ≤ e.1.link) || e.1.rsv ≠ 0 || (decide (16 ≤ e.1.send) && e.1.send ≠ 31)),
      (36, e.1.send ≠ 31 && decide (pf k 36 1 ≤ e.1.send))])

/-- Every check on the blocks of a `COLLECTIVE`. -/
def State.collChecks (s : State) (j : Pkt) : List (Nat × Bool) :=
  let k := j.pkt
  let r := shardDesc j.recvBytes
  let blocks := shardChecks 0 j.recvBytes
    ++ (List.range (pf k 36 1)).flatMap (fun n => shardChecks (128 * n) (j.sendBytes n)) ++ peerChecks k j.collPeers
  if blocks.any (fun c => c.2) then blocks
  else blocks ++ [(0x10001, isContour r.fmt), (37, s.accumBad j r)]
    ++ (List.range (pf k 36 1)).flatMap (fun n => sendChecks (128 * n) (j.sendBytes n) r)

/-! ### Sending (R333, R336) -/

/-- A box: the index vector of its first element and its extents. -/
structure Box where
  at' : Nat × Nat × Nat × Nat
  ext : Nat × Nat × Nat × Nat
  deriving DecidableEq, Repr

/-- Elements of a box. -/
def Box.count (b : Box) : Nat := b.ext.1 * b.ext.2.1 * b.ext.2.2.1 * b.ext.2.2.2

/-- The index vectors of a box in index order. -/
def Box.indices (b : Box) : List (Nat × Nat × Nat × Nat) :=
  let e0 := max 1 b.ext.1
  let e1 := max 1 b.ext.2.1
  let e2 := max 1 b.ext.2.2.1
  (List.range b.count).map (fun n =>
    (b.at'.1 + n % e0, b.at'.2.1 + n / e0 % e1, b.at'.2.2.1 + n / (e0 * e1) % e2, b.at'.2.2.2 + n / (e0 * e1 * e2)))

/-- Cut `left` elements that begin at `a` into runs of at most `most` (where the cuts fall is free, log 3). -/
def rowCuts (n most : Nat) : Nat → Nat → Nat → List (Nat × Nat)
  | 0, _, _ => []
  | f + 1, a, left =>
    if left = 0 then []
    else
      let c := min (min left (max 1 most)) (1 + Config.shardCut n left % left)
      (a, c) :: rowCuts n most f (a + c) (left - c)

/-- The boxes of a raw send tensor: each within one row along dimension 0, of at most 4 KiB (R325). -/
def rawBoxes (n : Nat) (d : Desc) : List Box :=
  let rows := d.te 1 * d.te 2 * d.te 3
  (List.range rows).flatMap (fun r => (rowCuts n (32768 / max 1 d.w) (d.te 0) 0 (d.te 0)).map (fun (c : Nat × Nat) =>
    ⟨(c.1, r % d.te 1, r / d.te 1 % d.te 2, r / (d.te 1 * d.te 2)), (c.2, 1, 1, 1)⟩))

/-- The box of chunk `j` of a Contour send tensor. -/
def chunkBox (d : Desc) (j : Nat) : Box :=
  let row := chunkValues * j / d.te 0
  ⟨(0, row % d.te 1, row / d.te 1 % d.te 2, row / (d.te 1 * d.te 2)), (d.te 0, chunkValues / d.te 0, 1, 1)⟩

/-- The shard extension (R336). -/
def shardExt (l : List Byte) (b : Box) : List Byte :=
  (List.range 4).flatMap (fun d => leBytes 4 (shardOff l d + ix b.at' d)) ++ (List.range 4).flatMap (fun d => leBytes 4 (ix b.ext d))

/-- A device address of the packet's context whose memory is poisoned. -/
def State.devBad (s : State) (k : Pkt) (a : Nat) : Bool :=
  match s.translate k.part k.ctx a with
  | some t => (s.firstPoison [t.place]).isSome
  | none => false

/-- The device addresses of a send tensor. -/
def State.sendAddrs (s : State) (k : Pkt) (l : List Byte) : List Nat :=
  let d := shardDesc l
  if isContour d.fmt then addrRun d.tbase (codedBytes (fun n => s.devBytes k (d.tbase + n)) (d.total / chunkValues) 0)
  else (rawBoxes 0 d).flatMap (fun b => b.indices.flatMap (fun i => bitBytes (d.memBit d.tbase i) d.w)) |>.dedup

/-- Send one `SHARD` message (R325, R336). -/
def State.sendShard (s : State) (k : Pkt) (l : Fin 48) (fmt op : Nat) (coded bad : Bool) (ext data : List Byte) : State :=
  let data := ext ++ padTo (32 * cdiv data.length 32) data
  (s.markPkt k l).request l k.waiter (s.mkMsg { MsgSpec.zero with
    type := 0x07
    flags := 1 + (if coded then 4 else 0) + (if bad then 8 else 0) + 32
    dctx := s.farCtx k.ctx l
    len := data.length / 32
    op := op
    fmt := fmt
    value := pf k.pkt 32 2
    data := data })

/-- Send a tensor to the peer of a link. -/
def State.sendTensor (s : State) (k : Pkt) (l : Fin 48) (n : Nat) : State :=
  let hd := k.sendBytes n
  let d := shardDesc hd
  let mem := s.devBytes k
  if isContour d.fmt then
    ((List.range (d.total / chunkValues)).foldl (fun (r : State × Nat) j =>
      let s := r.1
      let len := chunkLenAt (fun n => mem (d.tbase + n)) r.2
      let as := addrRun (d.tbase + r.2) len
      let bad := as.any (s.devBad k)
      ((chunkMarks (as.map mem)).foldl (fun (s : State) (e : Nat × List Byte) =>
        s.sendShard k l d.fmt (64 * e.1) true bad (shardExt hd (chunkBox d j)) e.2) s, r.2 + len)) (s, 0)).1
  else
    (rawBoxes n d).foldl (fun (s : State) b =>
      let is := b.indices
      let bs := packBits d.w (is.map (fun i => getBits mem (d.memBit d.tbase i) d.w))
      let bad := is.any (fun i => (bitBytes (d.memBit d.tbase i) d.w).any (s.devBad k))
      s.sendShard k l d.fmt 0 false bad (shardExt hd b) bs) s

/-- A peer entry's link. -/
def CollPeer.on (e : CollPeer) : Fin 48 := ⟨e.link % 48, by omega⟩

/-- The entries that send. -/
def Pkt.collSends (k : Pkt) : List CollPeer := k.collPeers.filter (fun e => e.send ≠ 31)

/-- The first stage: every send tensor goes to its peers. A read that must wait for the host's line or for a repair leaves
everything unsent; poison goes out as poison (R332). -/
def State.collSend (s : State) (k : Pkt) : State × Bool :=
  let as := ((k.collSends.map (fun e => e.send)).dedup.flatMap (fun n => s.sendAddrs k (k.sendBytes n))).dedup
  match s.access k.part k.ctx as (fun _ => true) with
  | .error b => (s.faultPkt k 5 b.2 0, false)
  | .ok ts => match s.heldUp k.part false ts with
    | some s => (s, false)
    | none =>
      let (s, bad) := s.poisonIn as ts
      match bad with
      | some (a, pl, true) =>
        let s := s.updPkts k.same (fun x => { x with parked := true })
        (s.park k.part k.ctx (.prog k.q k.i k.lane k.laneIdx) pl a k.wtag (s.evqOf k.q), false)
      | _ =>
        let s := ((s.accessLines false true ts).countTraffic false false ts).cachePages k.part 10 k.ctx ts
        (k.collSends.foldl (fun s e => s.sendTensor k e.on e.send) s, true)

/-! ### Stages (R337) -/

/-- The collective of a packet. -/
def Coll.of (c : Coll) (k : Pkt) : Bool := c.q = k.q && c.i = k.i
/-- Change the collective of a packet. -/
def State.updColl (s : State) (k : Pkt) (f : Coll → Coll) : State :=
  { s with colls := s.colls.map (fun c => if c.of k then f c else c) }

/-- Send `END` over the links of the peers sent to (R337). -/
def State.sendEnds (s : State) (k : Pkt) : State :=
  let out := ((s.colls.find? (fun c => c.of k)).map (fun c => c.endOut)).getD []
  let s := s.updColl k (fun c => { c with endOut := [] })
  out.foldl (fun s n =>
    let l : Fin 48 := ⟨n % 48, by omega⟩
    s.request l k.waiter (s.mkMsg { MsgSpec.zero with
      type := 0x08, dctx := s.farCtx k.ctx l, value := pf k.pkt 32 2 })) s

/-- Go on with a collective whose replies have come: its sends, its release, its `END`s, its end. -/
def State.collNext (s : State) (k : Pkt) : Nat → State
  | 0 => s
  | f + 1 => match s.now k with
    | none => s
    | some k =>
      if k.status ≠ .ok || k.kind ≠ .collective || k.parked || k.done || (s.ctx k.part k.ctx).st ≠ .running
          || s.awaiting k.part k.waiter then s
      else
        let stage (n : Nat) (s : State) : State := s.updPkt k (fun j => { j with joined := n })
        match k.joined with
        | 0 => match s.collSend k with
          | (s, true) => (stage 1 s).collNext k f
          | (s, false) => s
        | 1 => (stage 2 (s.drainLinks k.part k.waiter (queueWrites k.q))).collNext k f
        | 2 => (stage 3 (s.sendEnds k)).collNext k f
        | _ =>
          let lands := (linksOf k.part).any (fun l => (s.link l).landed.any (fun m =>
            m.type = 7 && m.dctx = k.ctx && m.value % 65536 = pf k.pkt 32 2))
          if !lands && s.colls.any (fun c => c.of k && c.endIn.isEmpty) then s.updPkt k (fun j => { j with effect := true }) else s

/-- Let a serve or a collective go as far as it can. -/
def State.goOn (s : State) (k : Pkt) : State := if k.kind = .collective then s.collNext k 5 else s.advance k

/-! ### The packet -/

/-- A collective with an ID runs in a context (R335). -/
def State.collAt (s : State) (p : Fin 4) (x : Fin 16) (id : Nat) : Option Coll :=
  s.colls.find? (fun c => c.part = p && c.ctx = x && c.id.toNat = id)

/-- `COLLECTIVE` (R335). -/
def takeCollective (s : State) (j : Pkt) (cs : List (Nat × Bool)) : Verdict :=
  let k := j.pkt
  if !fieldOk cs 34 || !fieldOk cs 36 then passing cs (.hold s)
  else
    s.withArg j cs 8 (pa k 8) 128 (fun s r =>
      s.withArg j cs 16 (if pf k 36 1 = 0 then pa k 8 else pa k 16) (128 * pf k 36 1) (fun s sd =>
        s.withArg j cs 24 (pa k 24) (4 * pf k 34 2) (fun s ps =>
          let j := { j with args := r ++ sd ++ ps }
          let peers := j.collPeers
          passing (cs ++ s.collChecks j) (
            passUnless (peers.any (fun e => !s.granted j.part j.ctx e.on)) .denied (
              passUnless (s.collAt j.part j.ctx (pf k 32 2)).isSome .wrongState (
                let c : Coll := {
                  part := j.part
                  ctx := j.ctx
                  id := BitVec.ofNat 16 (pf k 32 2)
                  q := j.q
                  i := j.i
                  endOut := (j.collSends.map (fun e => e.link)).dedup
                  endIn := ((peers.filter (fun e => e.recv)).map (fun e => (e.dev, e.link))).dedup }
                .go s j (fun s => ({ s with colls := s.colls ++ [c] } : State).collNext j 5)))))))

/-- `COLLECTIVE` (R335 to R337). -/
def execCollective (q : Fin 256) (k : Packet) (s : State) : Host.Outcome State Fault Refusal :=
  takeWork .collective q k takeCollective s

/-! ### Receiving (R158, R336) -/

/-- The elements of a box that lie in a shard: number in the box and index in the shard. -/
def boxHits (l : List Byte) (ext : List Byte) : List (Nat × (Nat × Nat × Nat × Nat)) :=
  let d := shardDesc l
  let go (k : Nat) : Nat := lf ext (4 * k) 4
  let be (k : Nat) : Nat := lf ext (16 + 4 * k) 4
  let b : Box := ⟨(go 0, go 1, go 2, go 3), (be 0, be 1, be 2, be 3)⟩
  (b.indices.zipIdx).filterMap (fun (e : (Nat × Nat × Nat × Nat) × Nat) =>
    if (List.range 4).all (fun k => decide (shardOff l k ≤ ix e.1 k) && decide (ix e.1 k < shardOff l k + d.te k)) then
      some (e.2, (ix e.1 0 - shardOff l 0, ix e.1 1 - shardOff l 1, ix e.1 2 - shardOff l 2, ix e.1 3 - shardOff l 3))
    else none)

/-- Elements that a box names. -/
def boxCount (ext : List Byte) : Nat := lf ext 16 4 * lf ext 20 4 * lf ext 24 4 * lf ext 28 4

/-- The updates that elements make to a receive tensor: target bit and pattern. -/
def shardUpdates (l ext : List Byte) (vals : Nat → Nat) : List (Nat × Nat) :=
  let d := shardDesc l
  (boxHits l ext).map (fun e => (d.memBit d.tbase e.2, vals e.1))

end Sys2Proof.Machine
end

