-- ==== Sys2Proof/Machine/PktDone.lean ====
section
/-! DEFINITION. What home slices do for packets (R293, R358), and the completion of work packets (R262, R263, R265, R271,
R292, R358, R359, R375, R378, R390). -/

namespace Sys2Proof.Machine

/-! ### Home operations of packets -/

/-- A packet that may have something done for it: started, not ended, its context RUNNING. -/
def State.live (s : State) (k : Pkt) : Bool :=
  k.started && k.status = .ok && !k.done && (s.ctx k.part k.ctx).st = .running && (s.part k.part).pll = .running

/-- The flag of a packet, for a home operation: its place, or what stands in the way (a line of the host, a fault). -/
def State.pktFlag (s : State) (k : Pkt) (a : Nat) (write : Bool) (f : State → Nat → State) : State :=
  -- a `STEP` whose lane cannot add owes no add any more
  let fail (s : State) (a : Nat) : State := (s.faultPkt k 5 a 0).updPkt k (fun j => { j with joined := 3 })
  match s.access k.part k.ctx (addrRun a 8) (if write then Region.atomicOk else Region.homed) with
  | .error b => fail s b.2
  | .ok ts => match s.heldUp k.part write ts with
    | some s => s
    | none =>
      let (s, bad) := s.poisonIn (addrRun a 8) ts
      match bad, (placesOf ts).head? with
      | none, some (.dram p) => f s p
      | some e, _ => fail s e.1
      | _, _ => s

/-- The lanes of a `STEP` that have ended and have not added to the join flag: 1 thick, 2 thin. -/
def Pkt.lanesDue (k : Pkt) : List Nat :=
  [1, 2].filter (fun l => laneCount k.pkt l ≤ k.laneAt l && !bit k.joined (l - 1))

/-- A lane of a `STEP` that has ended adds to the join flag even where the other lane has failed (R358, R359). -/
def State.addsDue (s : State) (k : Pkt) : Bool :=
  k.started && !k.done && (k.status = .ok || k.status = .failed) && (s.ctx k.part k.ctx).st = .running
    && (s.part k.part).pll = .running && !k.lanesDue.isEmpty

/-- A packet awaits its home: an add that its release has let go, a flag not yet read, a lane that has ended. -/
def State.homeDue (s : State) (k : Pkt) : Bool :=
  if k.kind = .step then s.addsDue k else
  s.live k && (match k.kind with
    | .flagSet => !k.effect && !bit (pf k.pkt 28 1) 3 && !s.draining k.part k.waiter
    | .flagWait => !k.effect && !s.waits.any (fun w => w.agent = k.waiter.agent && w.lane = k.lane && w.laneIdx = k.laneIdx)
    | _ => false)

/-- The home slice performs what a packet awaits (R191, R293, R297, R358). -/
def State.homeOf1 (s : State) (k : Pkt) : State :=
  match k.kind with
  | .flagSet => s.pktFlag k (pa k.pkt 8) true (fun s p =>
      (s.addFlag p (pf k.pkt 16 8)).updPkt k (fun j => { j with effect := true }))
  | .flagWait => s.pktFlag k (pa k.pkt 8) false (fun s p =>
      let s := s.lineAccess false true (p / 128)
      if pf k.pkt 16 8 ≤ s.wordAt p 8 then (s.countAtomic p).updPkt k (fun j => { j with effect := true })
      else s.register ⟨k.waiter.agent, k.part, k.ctx, k.lane, k.laneIdx, p, BitVec.ofNat 48 (pa k.pkt 8),
        .flag (BitVec.ofNat 64 (pf k.pkt 16 8))⟩)
  | .step => match k.lanesDue with
    | l :: _ => s.pktFlag k (pa k.pkt 24) true (fun s p =>
        (s.addFlag p 1).updPkt k (fun j => { j with joined := j.joined + l }))
    | [] => s
  | _ => s

/-- The packets at an index of a queue: the queue's own, then those of its lanes. -/
def State.pktsAt (s : State) (q : Nat) (i : Word) : List Pkt :=
  let mine := s.pkts.filter (fun k => k.q = q && k.i = i && decide (k.lane < 3))
  mine.filter (fun k => k.lane = 0 && k.kind ≠ .step) ++ mine.filter (fun k => k.lane ≠ 0) ++ mine.filter (fun k => k.kind = .step)

/-- A request for an operation of R190: who asks, the place of its word, the port by which it comes to its slice, and its class. The
ports of a slice are taken to be the clusters and the sequencers (DESIGN CHOICE, log 95). -/
structure HomeReq where
  agent : HomeAgent
  place : Nat
  port : Nat
  cls : Class
  deriving DecidableEq, Repr

/-- A core by its number. -/
def coreOfKey (n : Nat) : CoreId := ⟨⟨n / 90 % 4, by omega⟩, ⟨n / 9 % 10, by omega⟩, ⟨n % 9, by omega⟩⟩

/-- The request that a waiting instance has at its word's home. -/
def State.instReq (s : State) (c : CoreId) (i : Inst) : Option HomeReq :=
  let m := i.op
  if i.st ≠ .waiting || m.remote || m.op = 0x1A || s.waits.any (fun w => w.agent = HomeAgent.inst c i.id)
      || (!m.reduces && s.draining c.p (s.instWaiter c i.id)) then none
  else match (s.translate c.p (s.core c).ctx (m.addr (if m.reduces then 1 else 0) i.n)).map Xlat.place with
    | some (.dram k) => some ⟨.inst c i.id, k, c.cluster.key, m.traffic⟩
    | _ => none

/-- The request that a packet has at its flag's home. -/
def State.pktReq (s : State) (k : Pkt) : Option HomeReq :=
  if !s.homeDue k then none
  else match (s.translate k.part k.ctx (pa k.pkt (if k.kind = .step then 24 else 8))).map Xlat.place with
    | some (.dram d) => some ⟨k.waiter.agent, d, 40 + k.part.val, .bulk⟩
    | _ => none

/-- The requests for operations of R190 that instances and packets have out. -/
def State.homeReqs (s : State) : List HomeReq :=
  (s.cores.map (fun e => coreOfKey e.1)).flatMap (fun c => (s.core c).runs.filterMap (s.instReq c)) ++ s.pkts.filterMap s.pktReq

/-- The slice of a request's word: its home partition and its number. -/
def State.sliceAt (s : State) (k : Nat) : Fin 4 × Nat := (homeOf k, s.sliceOf k)

/-- The input arbiter of a slice grants a request before those of the others that have reached it (R196), or in its port's turn
(R197). Which of the others have, no rule states (R111, `Config.arrived`); order within a class is theirs, too. -/
def State.sliceGrants (s : State) (r : HomeReq) : Bool :=
  let near := s.homeReqs.filter (fun q => q.agent ≠ r.agent && s.sliceAt q.place = s.sliceAt r.place && Config.arrived s.freeCtr q.place)
  let a := (s.part (homeOf r.place)).arbs.get Arbiter.reset (s.sliceOf r.place)
  if (s.part (homeOf r.place)).freeShare then a.turn (r.port :: near.map HomeReq.port) = some r.port
  else a.choose (r.cls :: near.map HomeReq.cls) = some r.cls

/-- The request of an agent. -/
def State.reqOf (s : State) (h : HomeAgent) : Option HomeReq := s.homeReqs.find? (fun r => r.agent = h)

/-- A slice's input arbiter has granted an agent's request. -/
def State.sliceGranted (s : State) (h : HomeAgent) : State :=
  match s.reqOf h with
  | none => s
  | some r => (s.draw 1).updPart (homeOf r.place) (fun q => { q with
      arbs := q.arbs.set Arbiter.reset (s.sliceOf r.place) ((q.arbs.get Arbiter.reset (s.sliceOf r.place)).granted r.cls r.port) })

/-- `HOME_OPERATION` (R191, R196): the home slice performs the operation that an instance or a packet has sent it; nothing where
none has, or where the slice's arbiter grants another request first. -/
def execHomeOperation (h : HomeAgent) (s : State) : Host.Outcome State Fault Refusal :=
  if (match s.reqOf h with | some r => !s.sliceGrants r | none => false) then .next s
  else
  let s := s.sliceGranted h
  match h with
  | .inst c n => .next (s.homeInst c n)
  | .packet q i => match (s.pktsAt q.val i).find? s.homeDue with
    | some k => .next (s.homeOf1 k)
    | none => .next s

/-! ### The end of a packet's work -/

/-- A packet that runs a library program on cores or DMA engines. -/
def Pkt.runsLibrary (k : Pkt) : Bool :=
  !k.inStacks && (match k.kind with
    | .linear => true
    | .attend => true
    | .attendBwd => true
    | .copy => true
    | _ => false)

/-- The library program of a packet performs its work; the flag says that it is done. -/
def State.runProgram (s : State) (k : Pkt) : State × Bool :=
  match k.kind with
  | .linear => s.runLinear k
  | .attend => s.runAttend k
  | .attendBwd => s.runAttendBwd k
  | _ => s.runCopy k

/-- What a packet does before it may complete: the flag says that nothing of it is left. -/
def State.finishWork (s : State) (k : Pkt) : State × Bool :=
  if k.runsLibrary then
    if k.parked || !s.live k then (s, false)
    else if k.effect then (s, true)
    else match s.runProgram k with
      | (s, true) => (s.updPkt k (fun j => { j with effect := true }), true)
      | (s, false) => (s, false)
  else match k.kind with
    | .run => (s, k.sharesLeft = 0)
    | .nop => (s, true)
    | .edit _ => (s, k.cmdsLeft = 0)
    | .step => (s, k.joined = 3)
    | .pageServe =>
      let s := s.goOn k
      (s, ((s.now k).map Pkt.effect).getD false)
    | .collective =>
      let s := s.goOn k
      (s, ((s.now k).map Pkt.effect).getD false)
    | .flagSet => (s, k.effect)
    | .flagWait => (s, k.effect)
    | .fence => (s, k.effect)
    | .serveReq => (s, k.effect)
    | _ => (s, k.cmdsLeft = 0)

/-- The device address of a packet's miss list; 0 for none. -/
def Pkt.missAt (k : Pkt) : Nat :=
  match k.kind with
  | .attend => k.att.miss
  | .pageServe => pa k.pkt 24
  | _ => 0

/-- Write a packet's miss list on this device (R271, R274): the flag says that it is written. -/
def State.writeMisses (s : State) (k : Pkt) : State × Bool :=
  if k.missAt = 0 then (s, true)
  else
    let bs := missList k.spans
    let fail (s : State) (r : Bad) : State := if k.inStacks then s.faultPkt k 5 r.2 0 else s.libFault k r.1 r.2
    match s.access k.part k.ctx (addrRun k.missAt bs.length) (Region.writable false) with
    | .error b => (fail s b, false)
    | .ok ts => match s.heldUp k.part true ts with
      | some s => (s, false)
      | none => (s.devWrite none ts bs, true)

/-- A packet raises a record as it completes (R271, R272). -/
def Pkt.tells (k : Pkt) : Bool :=
  (!k.spans.isEmpty && k.kind ≠ .step) || (k.kind = .edit 3 && bit (pf k.pkt 37 1) 3)

/-- A packet's records have room: none of it waits, and the one that it raises now finds a slot (R375, R387). -/
def State.roomFor (s : State) (k : Pkt) : Bool :=
  let e : Fin 8 := ⟨s.evqOf k.q % 8, by omega⟩
  !s.evLate.any (fun r => r.1.queue = e && r.1.wtag = k.wtag)
    && (!k.tells || !(s.eventQ e).enable || (s.eventQ e).room)

/-- What the completion of a packet that succeeds changes: `LENGTH` (R263), the edit's generation and flag (R265), the report
of missing pages (R271). -/
def State.endOk (s : State) (k : Pkt) : State :=
  let s := match k.kind with
    | .appendKv => s.updSeqd (pf k.pkt 32 2) (fun d => { d with length := BitVec.ofNat 32 (pf k.pkt 24 4 + pf k.pkt 28 4) })
    | .edit op => s.endEdit k op
    | _ => s
  if k.spans.isEmpty then s
  else
    let s := if k.kind = .step then s else s.reportMisses k k.missAt
    s.updPkt k (fun j => { j with status := .recompute, detail := BitVec.ofNat 32 j.spans.length })

/-! ### Reply and `HEAD` (R375, R378, R390) -/

/-- Cores that ran a packet's library program return to IDLE (R67). -/
def State.freeCoresOf (s : State) (k : Pkt) : State :=
  (s.coresOfPkt k).foldl (fun s c =>
    let s := s.trace c 9 0 (s.core c).curPc.toNat (s.core c).mtag 0
    s.updCore c (fun x => { x with st := if x.st = .halted then .halted else .idle, share := none, ended := false })) s

/-- A packet that has ended `FAILED` still waits: for an instance of one of its cores that goes on to its cut point (R69, R113,
R360), or for the add of a lane that has ended (R358, R359). -/
def State.stillStops (s : State) (k : Pkt) : Bool :=
  (coresOfPart k.part).any (fun c => (s.core c).stopping.any (fun j => j.share.of k))
    || (k.kind = .step && !k.lanesDue.isEmpty && (s.ctx k.part k.ctx).st ≠ .faulted && (s.ctx k.part k.ctx).st ≠ .free)

/-- `HEAD` moves past the oldest packets that have completed; the number of them that asked for `NOTIFY`. -/
def headMoves (q : Nat) : Nat → Word → List Pkt → Word × List Pkt × Nat
  | 0, h, l => (h, l, 0)
  | f + 1, h, l =>
    match l.find? (samePkt q h) with
    | some k =>
      if k.done then
        let r := headMoves q f (h + 1) (l.filter (fun j => !k.same j))
        (r.1, r.2.1, r.2.2 + b2n (bit (pf k.pkt 1 1) 1))
      else (h, l, 0)
    | none => (h, l, 0)

/-- A queue's packet is done: its reply slot, then `HEAD`, its write-back and its interrupt (R375, R390). -/
def State.replied (s : State) (k : Pkt) : State :=
  let q : Fin 256 := ⟨k.q % 256, by omega⟩
  match s.queue q with
  | none => { s with pkts := s.pkts.filter (fun j => !k.same j) }
  | some w =>
    let s := s.toHost (w.base + 64 * (k.i.toNat % 2 ^ w.log2n) + 56) (replyBytes k.status k.detail)
    let s := s.updPkt k (fun j => { j with done := true })
    let r := headMoves k.q (s.pkts.length + 1) w.head s.pkts
    let s := ({ s with pkts := r.2.1 } : State).setQueue q (some { w with head := r.1 })
    let s := if r.1 = w.head || w.headWb = 0 then s else s.toHost w.headWb (leBytes 4 r.1.toNat)
    if r.2.2 = 0 then s
    else (s.updEventQ w.evq (fun e => { e with pend := e.pend + r.2.2 })).maybeIrq w.evq false

/-- A packet of a lane is done (R358, R359): the lane goes on, or the other lane stops and the `STEP` fails. -/
def State.laneEnded (s : State) (k : Pkt) : State :=
  let step (j : Pkt) : Bool := j.q = k.q && j.i = k.i && j.lane = 0
  let s := { s with pkts := s.pkts.filter (fun j => !k.same j) }
  if k.status = .ok || k.status = .recompute then
    s.updPkts step (fun j => { j with
      spans := j.spans ++ k.spans
      laneDone := if k.lane = 1 then (j.laneDone.1 + 1, j.laneDone.2) else (j.laneDone.1, j.laneDone.2 + 1) })
  else
    let others := s.pkts.filter (fun j => j.q = k.q && j.i = k.i && j.lane ≠ 0 && decide (j.lane < 3))
    let s := others.foldl (fun s j => s.failPkt j k.detail) s
    let s := { s with pkts := s.pkts.filter (fun j => !(others.any (fun o => o.same j))) }
    match s.pkts.find? step with
    | some j => if k.status = .failed then s.failPkt j k.detail else s.faultPkt j 5 0 0
    | none => s

/-- What follows a completion: the collective is over, pages may leave the quarantine, the partition schedules, and the queue
has made progress (R269, R307, R341). -/
def State.afterPkt (s : State) (k : Pkt) : State :=
  let s := { s with colls := s.colls.filter (fun c => !(c.of k && k.kind = PktKind.collective)) }
  let s := s.updPart k.part (fun q => { q with wdArmed := true, wdCount := 0 })
  (s.settle k.part).schedule k.part

/-- A packet completes. -/
def State.completePkt (s : State) (k : Pkt) : State :=
  let s := s.freeCoresOf k
  (if k.lane = 0 then s.replied k else s.laneEnded k).afterPkt k

/-- A packet that has ended without success may complete whatever its context's state; one that succeeds while its context
runs, or is being saved. -/
def State.mayComplete (s : State) (k : Pkt) : Bool :=
  !k.done && s.roomFor k && !(k.status ≠ .ok && s.stillStops k)
    && (k.status ≠ .ok
      || ((s.part k.part).pll = .running
        && ((s.ctx k.part k.ctx).st = .running || (s.ctx k.part k.ctx).st = .saving)))

/-- Complete a packet if nothing of it is left. -/
def State.tryComplete (s : State) (k : Pkt) : State :=
  if !s.mayComplete k then s
  else if k.status ≠ .ok then s.completePkt k
  else match s.finishWork k with
    | (s, false) => s
    | (s, true) => match s.now k with
      | none => s
      | some k =>
        let r := if k.spans.isEmpty || k.kind = .step then (s, true) else s.writeMisses k
        if r.2 then
          let s := r.1.endOk k
          match s.now k with
          | some k => s.completePkt k
          | none => s
        else r.1

/-- `PACKET_COMPLETE` (R375): the finished packet of a lane first, then the queue's own; nothing where none has finished. -/
def execPacketComplete (q : Fin 256) (i : Word) (s : State) : Host.Outcome State Fault Refusal :=
  let ks := (s.pktsAt q.val i).filter (fun k => !k.done)
  let ended (k : Pkt) : Bool := k.status ≠ .ok || k.kind ≠ .step || k.joined = 3
  match ks.find? ended with
  | some k =>
    match (ks.filter ended).find? (fun k => k.status ≠ .ok || (s.finishWork k).2) with
    | some k => .next (s.tryComplete k)
    | none => .next (s.tryComplete k)
  | none => .next s

end Sys2Proof.Machine
end

