-- ==== Sys2Proof/Machine/StackCmd.lean ====
section
/-! DEFINITION. Stack commands (R217 to R230, R239): how a stack engine takes them, what each computes, and how it reports. What
a command computes is stated whole, at its completion; the steps of bank units that it is made of are commands of their own
(DESIGN CHOICE, log 35). -/

namespace Sys2Proof.Machine

/-! ### `GEMV_B` (R203, R221, R222, R239) -/

/-- Elements of a group of a weight format (R124). -/
def groupLen (fmt : Nat) : Nat := if fmt = 1 then 16 else 32

/-- The bank pair of a device address. -/
def State.pairAt (s : State) (k : Pkt) (a : Nat) : Nat :=
  match (s.translate k.part k.ctx a).map Xlat.place with
  | some (.dram d) => d / 67108864
  | _ => 0

/-- Cut a list where a key changes. -/
def cutRuns {α : Type} (key : α → Nat) : List α → List (List α)
  | [] => []
  | x :: xs => match cutRuns key xs with
    | (y :: ys) :: rest => if key x = key y then (x :: y :: ys) :: rest else [x] :: (y :: ys) :: rest
    | r => [x] :: r

/-- The partial of group `g` of weight row `n` against activation row `m` (R124). -/
def gemvPartial (d : Desc) (mem : Nat → Byte) (x : Nat → Val) (n g : Nat) : Word :=
  let len := groupLen d.fmt
  let sc : Option Int := if isMx d.fmt then e8m0 (mem (d.scaleAt (len * g, n, 0, 0))).toNat else some 0
  groupSum sc ((List.range (min len (linK d - len * g))).map (fun t =>
    mulVal (x (len * g + t)) (elemVal d.fmt (getBits mem (d.memBit d.tbase (len * g + t, n, 0, 0)) d.w))))

/-- An output before row scale and conversion (R222 steps 1 and 2): segments cut where a row leaves its bank pair (R221). -/
def gemvSum (d : Desc) (pair : Nat → Nat) (mem : Nat → Byte) (x : Nat → Val) (n : Nat) : Word :=
  let len := groupLen d.fmt
  let at' (g : Nat) : Nat := pair (d.memBit d.tbase (len * g, n, 0, 0) / 8)
  sum32 ((cutRuns at' (List.range (cdiv (linK d) len))).map (fun seg =>
    (seg.map (gemvPartial d mem x n)).foldl fAdd 0))

/-- The bits of an output (R222 steps 3 and 4). -/
def gemvOut (k : Packet) (d : Desc) (pair : Nat → Nat) (mem : Nat → Byte) (ctr m n : Nat) : Nat :=
  let e := m * linN d + n
  let x (t : Nat) : Val := bf16.decode (leNat ((addrRun (pa k 16 + 2 * (m * linK d + t)) 2).map mem))
  let y := gemvSum d pair mem x n
  let y := if pa k 32 = 0 then y else fMul y (BitVec.ofNat 32 (leNat ((addrRun (pa k 32 + 4 * n) 4).map mem)))
  let rnd := (rndModes (bit (pf k 45 1) 1) (ctr + e) 1).headD .even
  narrow (linY k) rnd false (val32 y)

/-- A packet's reads, for all of its stacks: the weight's rows `ns`, the activations, the row scales. -/
def gemvReads (k : Packet) (d : Desc) (ns : List Nat) : List Nat :=
  ns.flatMap (fun n => ((List.range (linK d)).flatMap (weightAddrs d n)).dedup)
    ++ addrRun (pa k 16) (2 * linM k * linK d) ++ (if pa k 32 = 0 then [] else ns.flatMap (fun n => addrRun (pa k 32 + 4 * n) 4))

/-- The addresses that output (`m`, `n`) comes from. -/
def gemvDeps (k : Packet) (d : Desc) (m n : Nat) : List Nat :=
  (List.range (linK d)).flatMap (weightAddrs d n) ++ addrRun (pa k 16 + 2 * m * linK d) (2 * linK d)
    ++ (if pa k 32 = 0 then [] else addrRun (pa k 32 + 4 * n) 4)

/-- Add elements at their homes for a stack command (R222 step 5): poisoned ones poison the words of their targets (R239); the first
target that is poisoned is given. -/
def State.addOutputs (s : State) (k : Pkt) (fmt : Nat) (o : List (Nat × Nat × Bool)) (ts : List Xlat) : State × Option Nat :=
  let s := s.accessLines true true ts
  let s := (s.touch (groupsOf (placesOf ts)))
  let place (b : Nat) : List Place := (bitBytes b (rawWidth fmt)).filterMap (fun a => (s.translate k.part k.ctx a).map Xlat.place)
  let old := o.filter (fun e => (s.firstPoison (place e.1)).isSome)
  let s := s.reduceAll k.part k.ctx 0 fmt ((o.filter (fun e => !e.2.2)).map (fun e => (e.1, e.2.1)))
  let s := o.foldl (fun s e => match (place e.1).head? with | some (.dram d) => s.countAtomic d | _ => s) s
  let s := s.poisonWords ((o.filter (fun e => e.2.2)).flatMap (fun e => place e.1))
  (s.retest, ((o.find? (fun e => e.2.2)) <|> old.head?).map (fun e => e.1 / 8))

/-- The rows that a stack finishes: those whose first byte it holds (R201). -/
def State.gemvRows (s : State) (k : Pkt) (d : Desc) (st : Fin 12) : List Nat :=
  (List.range (linN d)).filter (fun n => s.stackAt k.part k.ctx (d.memBit d.tbase (0, n, 0, 0) / 8) = some st)

/-- `GEMV_B` computes rows `lo` to `hi - 1` of those of its stack. The flag says that they are done. Poison follows its word (R239). -/
def State.runGemv (s : State) (st : Fin 12) (k : Pkt) (lo hi : Nat) : State × Bool :=
  let d := Desc.ofBytes k.args
  let p := k.pkt
  let ns := ((s.gemvRows k d st).drop lo).take (hi - lo)
  let reads := (gemvReads p d ns).dedup
  match s.access k.part k.ctx reads (fun _ => true) with
  | .error b => (s.faultCmd st k 5 b.2, true)
  | .ok ts => match s.heldUp k.part false ts with
    | some s => (s, false)
    | none =>
      let (s, _) := s.poisonIn reads ts
      let badPl (t : Xlat) : Bool := s.wordPoisoned t.place
      match (reads.zip ts).find? (fun e => e.2.region.sharedRO && badPl e.2) with
      | some e => (s.parkCmd st k e.2.place e.1, false)
      | none =>
        let bad := ((reads.zip ts).filter (fun e => badPl e.2)).map Prod.fst
        let mem := s.devBytes k
        let w := rawWidth (linY p)
        let outs := (List.range (linM p)).flatMap (fun m => ns.map (fun n =>
          (8 * pa p 24 + (m * linN d + n) * w, gemvOut p d (s.pairAt k) mem s.freeCtr m n,
            !bad.isEmpty && (gemvDeps p d m n).any bad.contains)))
        let adds := bit (pf p 45 1) 0
        let bytes : List (Nat × Byte × Bool) := outs.flatMap (fun o => ((leBytes (w / 8) o.2.1).zipIdx).map (fun (e : Byte × Nat) => (o.1 / 8 + e.2, e.1, o.2.2)))
        match s.access k.part k.ctx (bytes.map Prod.fst) (if adds then Region.atomicOk else Region.writable false) with
        | .error b => (s.faultCmd st k 5 b.2, true)
        | .ok tw => match s.heldUp k.part true tw with
          | some s => (s, false)
          | none =>
            let s := ((s.accessLines false true ts).countTraffic false false (offBank ts)).cachePages k.part 10 k.ctx (ts ++ tw)
            let r := if adds then s.addOutputs k (linY p) outs tw else s.poisonWrite tw bytes
            let s := r.1.draw (linM p * linN d)
            match r.2 with
            | some a => (s.faultCmd st k 2 a, true)
            | none => (s, true)

/-! ### `GATHER` of a `COPY` (R193, R228, R384) -/

/-- The groups of a gathered table that lie in a stack: destination and source of each byte. -/
def State.gatherPairs (s : State) (k : Pkt) (st : Fin 12) : List (Nat × Nat) :=
  let d := copyDesc k false
  (((copyIdx k).flatMap (gatherRow k.pkt d)).zipIdx).filterMap (fun (e : Nat × Nat) =>
    if s.stackAt k.part k.ctx e.1 = some st then some (pa k.pkt 32 + e.2, e.1) else none)

/-- A stack's part of a `COPY` that gathers: blocks `lo` to `hi - 1` of 4 KiB of what it writes (R230). -/
def State.runGather (s : State) (st : Fin 12) (k : Pkt) (lo hi : Nat) : State × Bool :=
  let ps := ((s.gatherPairs k st).drop (4096 * lo)).take (4096 * (hi - lo))
  match s.access k.part k.ctx (ps.map Prod.snd) (fun r => r.kind = .bank) with
  | .error b => (s.faultCmd st k 5 b.2, true)
  | .ok ts => match s.access k.part k.ctx (ps.map Prod.fst) (Region.writable false) with
    | .error b => (s.faultCmd st k 5 b.2, true)
    | .ok tw => match s.heldUp k.part true tw with
      | some s => (s, false)
      | none =>
        let (s, bad) := s.poisonIn (ps.map Prod.snd) ts
        match bad with
        | some (a, pl, true) => (s.parkCmd st k pl a, false)
        | _ =>
          let own := ts.filterMap (fun t => match t.place with | .dram k => some (k / 32) | .host _ => none)
          let s := (s.addTraffic st.val 0 0 own.dedup.length).cachePages k.part 10 k.ctx (ts ++ tw)
          let out := (ps.zip ts).map (fun e => (e.1.1, s.byteAt e.2.place, s.wordPoisoned e.2.place))
          let (s, bad) := s.poisonWrite tw out
          match bad with
          | some a => (s.faultCmd st k 2 a, true)
          | none => (s, true)

/-! ### Runs in proxy mode (R213, R241) -/

/-- A pair's work runs in proxy mode: its unit has failed, or software keeps it from computing. -/
def Stack.inProxy (x : Stack) (die pair : Nat) : Bool :=
  x.proxied.get false (64 * die + pair) || (x.slotOff.get 0 die).getLsbD pair

/-- Runs of the page of an entry: its steps, one for each DRAM row of elements, at most 32 in a run (R205, log 35). -/
def pageRuns (t d : Nat) (e : PageEnt) : Nat := cdiv (cdiv (pageElems t d e.fmt) 2048) 32

/-- The runs of a stack command, by die and pair: a `GEMV_B` has one for each segment of its rows, the others those of their
pages. -/
def State.runsOfCmd (s : State) (st : Fin 12) (m : StackCmd) (k : Pkt) : List (Nat × Nat) :=
  let page (n : Nat) (b : Nat) : List (Nat × Nat) := List.replicate n (b / 2 ^ 32 % 16, b / 2 ^ 26 % 64)
  let d := s.seqd (k.seq.getD 0)
  match m.kind with
  | .gemv =>
    let w := Desc.ofBytes k.args
    let len := groupLen w.fmt
    (s.gemvRows k w st).flatMap (fun n =>
      (cutRuns id ((List.range (cdiv (linK w) len)).map (fun g => s.pairAt k (w.memBit w.tbase (len * g, n, 0, 0) / 8)))).map
        (fun seg => let p := seg.headD 0; (p / 64 % 16, p % 64)))
  | .attend =>
    let a := k.att
    ((k.groupEnts s (s.seqd a.seq) m.g).filter (fun e => (missKind e.2).isNone && e.2.1.base / 2 ^ 36 = st.val)).flatMap (fun e =>
      page (pageRuns (s.seqd a.seq).t a.d e.2.1) e.2.1.base ++ page (pageRuns (s.seqd a.seq).t a.d e.2.2) e.2.2.base)
  | .append => (s.appendRows k d st.val).flatMap (fun r => page 1 r.ent.base)
  | .requant =>
    if k.kind = .pageServe then (s.servePart k d st.val false).flatMap (fun g => page (pageRuns d.t d.d g.ent) g.ent.base)
    else ((s.reencEnts k d).filter (fun e => e.2.1.base / 2 ^ 36 = st.val)).flatMap (fun e =>
      page (pageRuns d.t d.d e.2.1) e.2.1.base)
  | .gather => []

/-- Count the runs of a command that proxy cores executed. -/
def State.countProxy (s : State) (st : Fin 12) (m : StackCmd) (k : Pkt) : State :=
  let x := s.stack st
  if x.proxied.isEmpty && x.slotOff.isEmpty then s
  else
    let n := ((s.runsOfCmd st m k).filter (fun e => x.inProxy e.1 e.2)).length
    s.updStack st (fun x => { x with proxyRuns := satAdd x.proxyRuns n })

/-! ### Starting commands (R24, R216, R219) -/

/-- The packet of a stack command. -/
def State.pktOfCmd (s : State) (m : StackCmd) : Option Pkt := s.pkts.find? m.of

/-- The dies and pairs on which a command of a stack runs, one for each run. -/
def State.runsAt (s : State) (st : Fin 12) (m : StackCmd) : List (Nat × Nat) :=
  match s.pktOfCmd m with
  | some k => s.runsOfCmd st m k
  | none => []

/-- Slots of a die that a list of runs needs. -/
def slotsOn (mode : BitVec 2) (die : Nat) (rs : List (Nat × Nat)) : Nat :=
  (((rs.filter (fun r => r.1 = die)).map (fun r => r.2 / slotSize mode)).dedup).length

/-- A command may start beside those that run (R219): on none of its dies do two others have waves (R216), and its slots fit beside
theirs; a command alone on a die starts whatever the limit is, since its runs take turns (R214; log 98). -/
def State.cmdFits (s : State) (st : Fin 12) (m : StackCmd) : Bool :=
  let x := s.stack st
  let mine := s.runsAt st m
  let others := (x.queue.filter (fun j => j.st = .running)).map (s.runsAt st)
  ((mine.map Prod.fst).dedup).all (fun die =>
    let here := others.filter (fun rs => rs.any (fun r => r.1 = die))
    decide (here.length < 2) && (here.isEmpty
      || decide (slotsOn x.slotMode die mine + (here.map (slotsOn x.slotMode die)).sum ≤ s.slotLimit st)))

/-- Start the oldest waiting commands, in order of arrival, as far as they fit; none while every vector core is gated (R24, R219). -/
def State.startSome (s : State) (st : Fin 12) : Nat → State
  | 0 => s
  | n + 1 =>
    let x := s.stack st
    match x.queue.find? (fun m => m.st = .queued) with
    | none => s
    | some m =>
      if x.gates = 15 || !s.cmdFits st m then s
      else (s.updStack st (fun y => { y with queue := y.queue.map (fun j => if j = m then { m with st := .running } else j) })).startSome st n

/-- Start the waiting commands that may start. -/
def State.startCommands (s : State) (st : Fin 12) : State := s.startSome st (s.stack st).queue.length

/-! ### Taking commands (R217, R220) -/

/-- The packets that issue a kind of stack command (R220). -/
def kindIssues (m : StackKind) (k : PktKind) : Bool :=
  match m, k with
  | .gemv, .linear => true
  | .attend, .attend => true
  | .append, .appendKv => true
  | .requant, .edit 5 => true
  | .requant, .pageServe => true
  | .gather, .copy => true
  | .gather, .pageServe => true
  | _, _ => false

/-- The number of a command in its packet's plan. -/
def planKey (m : StackKind) (k : Pkt) (s : Fin 12) (g : Nat) : Nat :=
  if m = .attend then 16 * g + s.val
  else if m = .gather && k.kind = .pageServe then 16 + s.val
  else s.val

/-- The sequencer gives a stack engine the next command of a packet: the queue has room, the packet's context runs, and the
stack is the partition's. It starts when its turn and its waves allow (R219). -/
def State.giveCommand (s : State) (m : StackKind) (st : Fin 12) (q : Nat) (i : Word) (g : Nat) : State :=
  let mine := s.pkts.filter (fun k => k.q = q && k.i = i)
  let order := mine.filter (fun k => decide (k.lane < 3)) ++ mine.filter (fun k => k.lane = 4)
  match order.find? (fun k => kindIssues m k.kind && s.live k && k.inStacks && k.plan.contains (planKey m k st g)
      && ownerOfStack st = k.part) with
  | none => s
  | some k =>
    if 64 ≤ (s.stack st).queue.length then s
    else
      let c : StackCmd := ⟨m, k.q, k.i, k.lane, k.laneIdx, g, .queued, 0⟩
      ((s.updStack st (fun x => { x with queue := x.queue ++ [c] })).updPkt k (fun j => { j with
        plan := j.plan.erase (planKey m k st g) })).startCommands st

/-- `GEMV_B` (R221): the stack engine takes the command. -/
def execGemvB (st : Fin 12) (q : Fin 256) (i : Word) (s : State) : Host.Outcome State Fault Refusal :=
  .next (s.giveCommand .gemv st q.val i 0)
/-- `ATTEND_D` (R224). -/
def execAttendD (st : Fin 12) (q : Fin 256) (i : Word) (g : Nat) (s : State) : Host.Outcome State Fault Refusal :=
  .next (s.giveCommand .attend st q.val i g)
/-- `APPEND` (R226). -/
def execAppend (st : Fin 12) (q : Fin 256) (i : Word) (s : State) : Host.Outcome State Fault Refusal :=
  .next (s.giveCommand .append st q.val i 0)
/-- `REQUANT` (R227). -/
def execRequant (st : Fin 12) (q : Fin 256) (i : Word) (s : State) : Host.Outcome State Fault Refusal :=
  .next (s.giveCommand .requant st q.val i 0)
/-- `GATHER` (R228). -/
def execGather (st : Fin 12) (q : Fin 256) (i : Word) (s : State) : Host.Outcome State Fault Refusal :=
  .next (s.giveCommand .gather st q.val i 0)

/-! ### Gates (R24) -/

/-- Open an engine's gate; a stack engine starts the commands that waited for it. -/
def State.ungate (s : State) : Gated → State
  | .me c => s.updCore c (fun x => { x with gateMe := false })
  | .ve c => s.updCore c (fun x => { x with gateVe := false })
  | .dma cl => s.updCluster cl (fun x => { x with gateDma := false })
  | .trav cl => s.updCluster cl (fun x => { x with gateTrav := false })
  | .vcore k n => (s.updStack k (fun x => { x with gates := x.gates &&& ~~~(BitVec.ofNat 4 (2 ^ n.val)) })).startCommands k
  | .bankUnit u => s.updUnit u (fun x => { x with gate := false })

/-- `ENGINE_WAKE` (R24): a gated engine with work starts it; one without work stays gated. -/
def execEngineWake (g : Gated) (s : State) : Host.Outcome State Fault Refusal :=
  if s.wakeable g then .next (s.ungate g) else .next s

/-! ### Completion (R219, R229) -/

/-- Other commands of an `ATTEND`'s group have still to complete. -/
def State.groupOpen (s : State) (k : Pkt) (m : StackCmd) : Bool :=
  k.plan.any (fun n => n / 16 = m.g)
    || decide (1 < ((stacksOf k.part).map (fun st => ((s.stack st).queue.filter (fun x => x.of k && x.g = m.g)).length)).sum)

/-- What a command writes as its cut points divide it (R230): weight rows, appended rows, blocks of 4 KiB, pages; an `ATTEND_D` writes
once. -/
def State.cmdParts (s : State) (st : Fin 12) (m : StackCmd) (k : Pkt) : Nat :=
  let d := s.seqd (k.seq.getD 0)
  match m.kind with
  | .gemv => (s.gemvRows k (Desc.ofBytes k.args) st).length
  | .attend => 1
  | .append => (s.appendRows k d st.val).length
  | .requant =>
    if k.kind = .pageServe then (s.servePart k d st.val false).length
    else ((s.reencEnts k d).filter (fun e => e.2.1.base / 2 ^ 36 = st.val)).length
  | .gather =>
    if k.kind = .pageServe then serveBlocks d k * (s.servePart k d st.val true).length
    else cdiv (s.gatherPairs k st).length 4096

/-- What a command computes, from part `lo` to part `hi - 1`. The flag says that it is done. -/
def State.runCommand (s : State) (st : Fin 12) (m : StackCmd) (k : Pkt) (lo hi : Nat) : State × Bool :=
  match m.kind with
  | .gemv => s.runGemv st k lo hi
  | .attend => if hi = 0 || s.groupOpen k m then (s, true) else s.stackGroup st k m.g
  | .append => s.runAppend st k lo hi
  | .requant => if k.kind = .pageServe then s.runServe st k false lo hi else s.runReencode st k lo hi
  | .gather => if k.kind = .pageServe then s.runServe st k true lo hi else s.runGather st k lo hi

/-- Operands of memory that a command brings into the engine's SRAM: activations (R221), new rows (R226), gathered groups (R228). -/
def State.sramBytes (s : State) (st : Fin 12) (m : StackCmd) (k : Pkt) : List Byte :=
  let mem := s.devBytes k
  match m.kind with
  | .gemv => (addrRun (pa k.pkt 16) (2 * linM k.pkt * linK (Desc.ofBytes k.args))).map mem
  | .append => (s.appendRows k (s.seqd (k.seq.getD 0)) st.val).flatMap (fun r =>
      (addrRun r.src (2 * (s.seqd (k.seq.getD 0)).d)).map mem)
  | .gather => if k.kind = .pageServe then [] else (s.gatherPairs k st).map (fun e => mem e.2)
  | _ => []

/-- The operands of a command lie in the SRAM from its first byte on, and an armed flip mask meets the first word written (R217,
R404 target 4; the place is the model's, log 98). -/
def State.loadSram (s : State) (st : Fin 12) (bs : List Byte) : State :=
  let (mask, s) := s.fire (encKey 4 st.val 0 0 0)
  s.updStack st (fun x => { x with
    sram := x.sram.setMany 0 0 (bs.take (2 ^ 23))
    sramErr := (x.sramErr.clear 0 (cdiv (max 1 bs.length) 4)).set 0 0 (mask.truncate 39) })

/-- A command reads its SRAM (R393): a correctable word is corrected, written back and counted; of an uncorrectable one, a copy of
memory is read again, and computed state fails the command with nothing written. Which of the two the word held is free. -/
def State.useSram (s : State) (st : Fin 12) (m : StackCmd) (k : Pkt) : State × Bool :=
  let bs := s.sramBytes st m k
  let s := s.loadSram st bs
  let e := (s.stack st).sramErr.get 0 0
  let clean (s : State) : State := s.updStack st (fun x => { x with sramErr := x.sramErr.set 0 0 0 })
  match eccOf e with
  | .good => (clean s, false)
  | .corrected => ((clean s).countSram (.stack st) 0 false, false)
  | _ =>
    let s := ((clean s).draw 1).countSram (.stack st) 0 true
    if !bs.isEmpty && Config.pick s.freeCtr % 2 = 0 then (s, false) else (s.faultCmd st k 2 0, true)

/-- A stack command ends: it leaves the queue, and its packet has one fewer to await (R229). -/
def State.endCommand (s : State) (st : Fin 12) (m : StackCmd) (k : Pkt) : State :=
  let s := (s.updStack st (fun x =>
    let q := x.queue.erase m
    { x with queue := q, gates := if q.isEmpty then 15 else x.gates })).startCommands st
  let s := s.updPkt k (fun j => { j with cmdsLeft := j.cmdsLeft - 1 })
  if k.kind = .pageServe then s.advance k else s

/-- `STACK_COMMAND_COMPLETE` (R219, R229): command `n` of a stack's queue, the first of its packet there; nothing while it is
queued, parked or cut, while the engine is gated, or while its context is out. -/
def execStackCommandComplete (st : Fin 12) (n : Nat) (s : State) : Host.Outcome State Fault Refusal :=
  let x := s.stack st
  match x.queue[n]? with
  | none => .next s
  | some m => match s.pktOfCmd m with
    | none => .next s
    | some k =>
      let first := !((x.queue.take n).any (fun j => j.of k))
      if x.gates = 15 || m.st ≠ .running || !first || !s.live k then .next s
      else match s.useSram st m k with
        | (s, true) => .next s
        | (s, false) => match s.runCommand st m k m.done (s.cmdParts st m k) with
          | (s, false) => .next s
          | (s, true) => match s.now k with
            | some k => if k.status = .ok then .next ((s.countProxy st m k).endCommand st m k) else .next s
            | none => .next s

end Sys2Proof.Machine
end

