-- ==== Sys2Proof/Machine/BankUnit.lean ====
section
/-! DEFINITION. Bank units and the Chain (R202 to R216, R231 to R242): program beats, operand beats, the three kinds of step, flits,
the ledger, refresh, scrubbing, and units that fail. The data of beats is the stack engine's. -/

namespace Sys2Proof.Machine

/-! ### Units and waves (R202, R204, R216) -/

/-- A unit has runs still to do. -/
def BankUnit.busy (x : BankUnit) : Bool := x.inRun || x.program.any (fun e => e.2.isSome) || !x.loads.isEmpty

/-- Refreshes that a pseudo-channel owes (R233). -/
def Stack.owed (k : Stack) (h : Nat) : Nat := ((List.range 32).map (fun b => k.postponed.get 0 (32 * h + b))).sum

/-- The wave of a unit (R216). -/
def Stack.waveOf (k : Stack) (u : UnitId) : Option Wave := k.waves.find? (fun w => w.die = u.d && w.units.contains u.u)

/-- Change the wave of a unit. -/
def State.updWave (s : State) (u : UnitId) (f : Wave → Wave) : State :=
  s.updStack u.s (fun k => { k with waves := k.waves.map (fun w => if w.die = u.d && w.units.contains u.u then f w else w) })

/-- The waves of a stack in which some unit has runs to do; the others have ended (R230). -/
def State.liveWaves (s : State) (st : Fin 12) : List Wave :=
  (s.stack st).waves.filter (fun w => w.units.any (fun n => (s.unit ⟨st, w.die, n⟩).busy))

/-- A unit gets a program: it is in the wave that its beat names, of one phase. A wave starts with the first program of it, if fewer
than two run on the die and none has a unit of it; `MODE` and `SE_SLOT_OFF_d` are sampled then (R215, R216). `none` where the
program has no wave to run in (log 97). -/
def State.joinWave (s : State) (u : UnitId) (ws : List (Fin 68)) (writes : Bool) : Option State :=
  let k := s.stack u.s
  let live := s.liveWaves u.s
  let mine := live.filter (fun w => w.die = u.d)
  let s := s.updStack u.s (fun k => { k with waves := live })
  match mine.find? (fun w => w.units.contains u.u) with
  | some w => if w.writes = writes then some s else none
  | none =>
    let us := if ws.contains u.u then ws else [u.u]
    if 2 ≤ mine.length || us.any (fun n => mine.any (fun w => w.units.contains n)) then none
    else
      let s := s.updStack u.s (fun y => { y with
        waves := y.waves ++ [⟨u.d, us, writes, k.slotMode, k.slotOff.get 0 u.d.val, 0, false⟩] })
      some (us.foldl (fun s n => s.updUnit ⟨u.s, u.d, n⟩ (fun x => { x with waveStep := 0 })) s)

/-! ### Slots (R213 to R215, R450) -/

/-- The slot in which a unit of a wave computes (R213). -/
def Wave.slotOf (w : Wave) (pair : Nat) : SlotUse := ⟨w.die, w.mode, pair / slotSize w.mode⟩

/-- The units of a slot (R213): a spare takes the slot of the unit it replaced. -/
def State.slotUnits (s : State) (st : Fin 12) (x : SlotUse) : List UnitId :=
  ((List.finRange 68).map (fun n => (⟨st, x.die, n⟩ : UnitId))).filter (fun u => match s.pairOf u with
    | some pair => pair / slotSize x.mode = x.n
    | none => false)

/-- The slots of a stack that compute: from the first run of a unit until no unit of the slot has one left (R214). -/
def State.liveSlots (s : State) (st : Fin 12) : List SlotUse :=
  (s.stack st).slots.filter (fun x => (s.slotUnits st x).any (fun u => (s.unit u).busy))

/-- A unit may compute now: its pair is not kept from it, and its slot is within the limit, counted in the order in which the slots
of the die began (R213 to R215; log 97). -/
def State.slotGranted (s : State) (u : UnitId) (pair : Nat) (w : Wave) : Bool :=
  let die := (s.liveSlots u.s).filter (fun x => x.die = u.d)
  !w.off.getLsbD pair && decide ((die.findIdx? (fun x => x = w.slotOf pair)).getD die.length < s.slotLimit u.s)

/-- A unit's turn to begin a run: no other unit of its slot computes, and none that has work has waited longer (R213, R214). -/
def State.slotTurn (s : State) (u : UnitId) (pair : Nat) (w : Wave) : Bool :=
  ((s.slotUnits u.s (w.slotOf pair)).filter (fun v => v ≠ u)).all (fun v =>
    !(s.unit v).inRun && (!(s.unit v).busy || (s.unit v).out || decide ((s.unit u).waited < (s.unit v).waited)))

/-- A unit begins to wait for its slot: its place in their order (R214). -/
def State.queueForSlot (s : State) (u : UnitId) : State :=
  let n := (s.stack u.s).turnNo + 1
  (s.updStack u.s (fun k => { k with turnNo := n })).updUnit u (fun x => { x with waited := n })

/-! ### What a step needs (R204, R207, R210, R214, R231, R233, R240) -/

/-- The highest accumulator that an outer step names, and one (R204). -/
def topSlot (t : Step) : Nat :=
  min 256 ((t.slots.map BitVec.toNat).foldl max 0 + 256 / max 1 (elemWidth t.fmt.toNat))

/-- The columns of a dot step with which a token ends: the next has another accumulator. -/
def tokenEnds (t : Step) : Nat :=
  ((List.range t.count).filter (fun k => k + 1 = t.count || t.slots.getD (k + 1) 0 ≠ t.slots.getD k 0)).length

/-- Flits of results, scores and copied columns that a step emits (R205, R209, R221, R224). -/
def stepFlits (t : Step) : Nat :=
  match t.kind with
  | .read =>
    if t.outer then (if t.runEnd then cdiv (t.lanes * topSlot t) 4 else 0)
    else if t.paged then tokenEnds t * cdiv t.lanes 4
    else if t.runEnd then cdiv t.lanes 4 else 0
  | .copy => 2 * t.count
  | .write => 0

/-- The word number of word 0 of a column. -/
def colWord (u : UnitId) (pair : Nat) (bank row col : Nat) : Nat := physKey u.s.val u.d.val pair bank row (32 * col) / 4

/-- Report flits that a step emits: one for each word with an error in the columns that it reads (R234). -/
def State.stepReports (s : State) (u : UnitId) (pair : Nat) (t : Step) : Nat :=
  let cols := (List.range t.count).filter (fun k => t.kind ≠ .write || t.bytes.getD k 0 ≠ 0xFFFFFFFF#32)
  (cols.map (fun k => ((List.range 8).filter (fun j =>
    eccOf (s.memErr.get 0 (colWord u pair t.bank.val t.row.toNat (t.first.toNat + k) + j)) ≠ .good)).length)).sum

/-- The entry that follows a unit's present one: the next, or the first of the other half where that half has ended (R204). -/
def nextPc (program : Tbl (Option Step)) (pc : BitVec 6) : BitVec 6 :=
  let other : BitVec 6 := if pc.toNat < 32 then 32 else 0
  if (program.get none (pc + 1).toNat).isSome then pc + 1
  else if (program.get none other.toNat).isSome then other else pc + 1

/-- A ledger entry of a unit waits for its visit (R235). -/
def Stack.logged (k : Stack) (u : UnitId) : Bool :=
  k.ledger.any (fun e => match e.2 with
    | some y => y.die.toNat = u.d.val && y.unit.toNat = u.u.val
    | none => false)

/-- The running context of a stack's partition is being cut: no unit begins a run (R230). -/
def State.cutting (s : State) (st : Fin 12) : Bool :=
  match (s.part (ownerOfStack st)).cur with
  | some x => (s.ctx (ownerOfStack st) x).st = .saving
  | none => false

/-- What a step needs of its unit: it is entry `pc` of the program, its columns lie in its row, the output queue has room for its
flits, the slot is granted; and for a run to begin, the unit's turn, a ledger without entries of it before a new program, and
no cut. -/
def State.stepFits (s : State) (u : UnitId) (t : Step) (pc : BitVec 6) (inRun : Bool) (pending : Nat) : Bool :=
  let x := s.unit u
  match s.pairOf u, (s.stack u.s).waveOf u with
  | some pair, some w =>
    !x.out && !x.gate && x.program.get none pc.toNat = some t && t.runBegin = !inRun && decide (t.first.toNat + t.count ≤ 64)
      && (decide (x.outQ.length + pending + stepFlits t + s.stepReports u pair t ≤ 512) || (x.outQ.isEmpty && pending = 0))
      && s.slotGranted u pair w
      && (inRun || (s.slotTurn u pair w && (x.begun || !(s.stack u.s).logged u) && !s.cutting u.s))
  | _, _ => false

/-- The other units of a wave that are inside a run and not stopped by the limit: those that its next step waits for (R215, R216). -/
def State.waveMates (s : State) (u : UnitId) (w : Wave) : List BankUnit :=
  ((w.units.filter (fun n => n ≠ u.u)).filter (fun n =>
    let v : UnitId := ⟨u.s, u.d, n⟩
    (s.unit v).inRun && (match s.pairOf v with | some pair => s.slotGranted v pair w | none => false))).map (fun n =>
      s.unit ⟨u.s, u.d, n⟩)

/-- A wave lets a unit start a step (R216): the wave's present step, which the unit has still to open and through which no unit
streams yet; or the next one, once all have done the present one. -/
def State.inStep (s : State) (u : UnitId) (w : Wave) : Bool :=
  let mates := s.waveMates u w
  mates.all (fun x => x.cur.isNone || x.beats = 0)
    && (decide ((s.unit u).waveStep < w.step) || mates.all (fun x => x.waveStep = w.step && x.cur.isNone))

/-- A unit may start a step: its next entry, no other step of it streams, and its wave lets it. -/
def State.mayStep (s : State) (u : UnitId) (t : Step) : Bool :=
  let x := s.unit u
  x.cur.isNone && (x.ahead.isNone || x.ahead = some t) && s.stepFits u t x.pc x.inRun 0
    && (match (s.stack u.s).waveOf u with | some w => s.inStep u w | none => false)

/-- A unit may open a step in the other bank while its present step streams (R207). -/
def State.mayOpenAhead (s : State) (u : UnitId) (t : Step) : Bool :=
  let x := s.unit u
  match x.cur with
  | some c => x.ahead.isNone && t.bank ≠ c.bank && (x.loads.isEmpty || !c.runEnd)
      && s.stepFits u t (nextPc x.program x.pc) (!c.runEnd) (stepFlits c)
  | none => false

/-- Eight refreshes are owed in a unit's pseudo-channel (R233). -/
def State.owesEight (s : State) (u : UnitId) : Bool :=
  match s.pairOf u with
  | some pair => decide (8 ≤ (s.stack u.s).owed (4 * u.d.val + pair / 16))
  | none => false

/-- Refreshes hold a unit's wave: eight are owed in the pseudo-channel of the unit, or of a unit that the wave's next step waits for
(R216, R233). -/
def State.refreshHolds (s : State) (u : UnitId) : Bool :=
  s.owesEight u || (match (s.stack u.s).waveOf u with
    | some w => decide ((s.unit u).waveStep = w.step) && w.units.any (fun n => (s.unit ⟨u.s, u.d, n⟩).inRun && s.owesEight ⟨u.s, u.d, n⟩)
    | none => false)

/-- A wave holds: `HOLDS` counts it once (R233). -/
def State.holdWave (s : State) (u : UnitId) : State :=
  match (s.stack u.s).waveOf u with
  | some w =>
    if w.held then s
    else (s.updWave u (fun w => { w with held := true })).updStack u.s (fun k => { k with refHolds := satAdd k.refHolds 1 })
  | none => s

/-! ### Parity (R202, R240) -/

/-- Bytes that carry a parity bit: the register file from 0, the scale buffer from 512, the lane accumulators from 1,024; the entries
of the program from 9,216, and the output queue 9,280, each as a whole. -/
def parityUsed (t : Step) (pc : Nat) (n : Nat) : Bool :=
  if n < 512 then (match t.kind with
    | .read => decide (n / 64 < t.lanes)
    | .write => decide (n / 32 < t.count)
    | .copy => false)
  else if n < 1024 then t.kind = .read && (isMx t.fmt.toNat || t.paged)
  else if n < 9216 then t.kind = .read
  else if n < 9280 then n - 9216 = pc
  else false

/-- A step meets a parity error. -/
def BankUnit.parityFault (x : BankUnit) (t : Step) : Bool := x.parBad.any (fun e => e.2 && parityUsed t x.pc.toNat e.1)

/-! ### Columns (R202, R234, R237) -/

/-- A report (R234): the place of a word as `SE_LEDGER_e` lays it out, and the kind of error. -/
def reportFlit (u : UnitId) (bank row col wd kind seq : Nat) : Flit :=
  ⟨u.u, 3, false, BitVec.ofNat 6 seq, BitVec.ofNat 128 (2 * u.d.val + 32 * u.u.val + 4096 * bank + 8192 * row + 134217728 * col
    + 8589934592 * wd + kind * 2 ^ 124)⟩

/-- A column as its decoder gives it: 32 bytes, whether each word is poisoned, and the errors found by word and kind. -/
structure Column where
  bytes : List Byte
  bad : List Bool
  errs : List (Nat × Nat)
  deriving DecidableEq, Repr

/-- Read a column through the decoders (R234). -/
def State.readColumn (s : State) (w0 : Nat) : Column :=
  let es := (List.range 8).map (fun j => s.memErr.get 0 (w0 + j))
  let ws := (es.zipIdx).map (fun (e : BitVec 39 × Nat) => eccData e.1 (BitVec.ofNat 32 (leNat (s.mem.getMany 0 (4 * (w0 + e.2)) 4))))
  let kind (e : BitVec 39) : Nat := match eccOf e with
    | .good => 0
    | .corrected => 1
    | .uncorrectable => 2
    | .poison => 3
  let errs : List (Nat × Nat) := (es.zipIdx).map (fun (e : BitVec 39 × Nat) => (e.2, kind e.1))
  ⟨ws.flatMap (fun w => leBytes 4 w.toNat), es.map (fun e => decide (2 ≤ kind e)), errs.filter (fun e => decide (e.2 ≠ 0))⟩

/-- Send flits: they take their places in the output queue, numbered within the run (R209, R210). -/
def BankUnit.emit (x : BankUnit) (fs : List Flit) : BankUnit :=
  fs.foldl (fun x f => { x with
    outQ := x.outQ ++ [{ f with seq := x.seq }]
    seq := x.seq + 1
    emitted := x.emitted + 1 }) x

/-- What a unit does about the errors of a column: corrected ones are counted, and every one is reported (R234), as far as the queue
has room beside the step's own flits (log 97). -/
def BankUnit.report (x : BankUnit) (u : UnitId) (t : Step) (col : Nat) (c : Column) : BankUnit :=
  let n := (c.errs.filter (fun e => e.2 = 1)).length
  let room := 512 - (x.outQ.length + stepFlits t)
  let x : BankUnit := { x with ce := satAdd x.ce n }
  x.emit ((c.errs.map (fun (e : Nat × Nat) => reportFlit u t.bank.val t.row.toNat col e.1 e.2 0)).take room)

/-! ### The array (R124, R203) -/

/-- Value `i` of register-file entry `l` (R202): BF16, 32 to an entry. -/
def BankUnit.operand (x : BankUnit) (l i : Nat) : Val := bf16.decode (bits (x.regFile.get 0 l).toNat (16 * i + 15) (16 * i))

/-- The scale of the group that begins at element `e` of a step (R203, R154). -/
def BankUnit.scaleAt (x : BankUnit) (t : Step) (e : Nat) : Option Int × Option Val :=
  if isMx t.fmt.toNat then (e8m0 (bits x.scales.toNat (8 * (e / 32) + 7) (8 * (e / 32))), none)
  else if t.paged then
    let n := e / kvGroup t.fmt.toNat
    (some 0, some (fp16.decode (bits x.scales.toNat (16 * n + 15) (16 * n))))
  else (some 0, none)

/-- Elements of a column, of a group. -/
def colElems (fmt : Nat) : Nat := 256 / max 1 (elemWidth fmt)

/-- The sum of products under a scale, rounded once (R124). -/
def scaledSum (sc : Option Int × Option Val) (ps : List Val) : Word :=
  match sc.2 with
  | none => groupSum sc.1 ps
  | some v => flush32 (mulVal v (ps.foldl addVal (.fin false 0 0)))

/-- Add to a lane accumulator (R123, R203); poison that enters it stays until it is cleared. -/
def BankUnit.accumulate (x : BankUnit) (l slot : Nat) (v : Word) (bad : Bool) : BankUnit :=
  let n := 256 * l + slot % 256
  { x with
    acc := x.acc.set 0 n (fAdd (x.acc.get 0 n) v)
    accPoison := if bad then x.accPoison.set false n true else x.accPoison }

/-- The column's element `e`. -/
def colElem (fmt : Nat) (c : Column) (e : Nat) : Val := elemVal fmt (bitsAt c.bytes (e * elemWidth fmt) (elemWidth fmt))

/-- Some element of a range of a column is poisoned. -/
def colBad (fmt : Nat) (c : Column) (lo n : Nat) : Bool :=
  (List.range 8).any (fun j => c.bad.getD j false && decide (32 * j < (lo + n) * elemWidth fmt)
    && decide (lo * elemWidth fmt < 32 * (j + 1)))

/-- Dot mode: one group of column `k` of a step faces entry `l` in every lane. -/
def BankUnit.dotGroup (x : BankUnit) (t : Step) (k g : Nat) (c : Column) : BankUnit :=
  let fmt := t.fmt.toNat
  let n := groupLen fmt
  (List.range t.lanes).foldl (fun x l =>
    x.accumulate l (t.slots.getD k 0).toNat
      (scaledSum (x.scaleAt t (k * colElems fmt + g * n)) ((List.range n).map (fun i =>
        mulVal (x.operand l i) (colElem fmt c (g * n + i))))) (colBad fmt c (g * n) n)) x

/-- The token that a column of an outer step belongs to: a column whose slot does not rise begins the next one. -/
def stepToken (t : Step) (k : Nat) : Nat :=
  ((List.range k).filter (fun j => decide ((t.slots.getD (j + 1) 0).toNat ≤ (t.slots.getD j 0).toNat))).length

/-- Outer mode: each element of column `k` is multiplied by its token's value and added into an accumulator of its own. -/
def BankUnit.outerColumn (x : BankUnit) (t : Step) (k : Nat) (c : Column) : BankUnit :=
  let fmt := t.fmt.toNat
  (List.range t.lanes).foldl (fun x l => (List.range (colElems fmt)).foldl (fun x e =>
    x.accumulate l ((t.slots.getD k 0).toNat + e)
      (scaledSum (x.scaleAt t (k * colElems fmt + e)) [mulVal (x.operand l (stepToken t k)) (colElem fmt c e)])
      (colBad fmt c e 1)) x) x

/-- Flits of four values each; places that no accumulator fills hold no stated value (log 3). -/
def valueFlits (u : UnitId) (kind : BitVec 2) (ctr : Nat) (vs : List (Word × Bool)) : List Flit :=
  ((chunks 4 vs.length vs).zipIdx).map (fun (e : List (Word × Bool) × Nat) =>
    let word (i : Nat) : Nat := match e.1[i]? with
      | some v => v.1.toNat
      | none => (Config.unstated (ctr + 4 * e.2 + i)).toNat
    ⟨u.u, kind, e.1.any Prod.snd, 0, BitVec.ofNat 128 (word 0 + 2 ^ 32 * word 1 + 2 ^ 64 * word 2 + 2 ^ 96 * word 3)⟩)

/-- Accumulator `slot` of every lane in use. -/
def BankUnit.slotVals (x : BankUnit) (t : Step) (slot : Nat) : List (Word × Bool) :=
  (List.range t.lanes).map (fun l => (x.acc.get 0 (256 * l + slot), x.accPoison.get false (256 * l + slot)))

/-- Accumulators of every lane in use, lane by lane, up to the highest that a step names (DESIGN CHOICE, log 35). -/
def BankUnit.allVals (x : BankUnit) (t : Step) : List (Word × Bool) :=
  (List.range t.lanes).flatMap (fun l => (List.range (topSlot t)).map (fun n =>
    (x.acc.get 0 (256 * l + n), x.accPoison.get false (256 * l + n))))

/-! ### The course of a step -/

/-- The first entry of the run that an entry belongs to. -/
def BankUnit.runStart (x : BankUnit) : Nat → Nat
  | 0 => 0
  | n + 1 => match x.program.get none (n + 1) with
    | some t => if t.runBegin then n + 1 else x.runStart n
    | none => n + 1

/-- A half of the program is taken: its 32 entries are replaced (R204). -/
def BankUnit.loadHalf (x : BankUnit) (half : Bool) (l : List Step) : BankUnit :=
  let base := if half then 32 else 0
  { x with
    program := (List.range 32).foldl (fun p n => p.set none (base + n) l[n]?) x.program
    parBad := x.parBad.clear (9216 + base) (9216 + base + 32)
    pc := if (x.program.get none x.pc.toNat).isNone then BitVec.ofNat 6 base else x.pc }

/-- A run ends: its entries are done, the halves that arrived meanwhile are taken, and the unit goes on at its next run, waits for
one, or is gated (R24, R204). -/
def BankUnit.endRun (x : BankUnit) : BankUnit :=
  let first := x.runStart x.pc.toNat
  let left := (List.range (x.pc.toNat + 1 - first)).foldl (fun p n => p.set none (first + n) none) x.program
  let x := { x with
    st := .idle
    inRun := false
    program := left
    pc := nextPc left x.pc
    loads := []
    reports := []
    emitted := 0
    reruns := 0 }
    |> fun y => x.loads.foldl (fun y l => y.loadHalf l.1 l.2) y
  let more := x.program.any (fun e => e.2.isSome)
  { x with begun := more, gate := !more }

/-- A parity fault ends the run (R240): its flits are discarded, the unit is reloaded, and the run runs again once; after the second
time in one run it is done in proxy mode, and the unit goes on after it. -/
def State.parityEnds (s : State) (u : UnitId) : State :=
  let x := s.unit u
  let s := s.freeBanks u (x.cur.toList ++ x.ahead.toList)
  let s := s.updUnit u (fun x =>
    let x := { x with
      st := .idle
      parBad := []
      cur := none
      ahead := none
      beats := 0
      acc := []
      accPoison := []
      outQ := x.outQ.take (x.outQ.length - x.emitted)
      reports := []
      emitted := 0
      inRun := false }
    if x.reruns = 0 then { x with reruns := 1, pc := BitVec.ofNat 6 (x.runStart x.pc.toNat) } else x.endRun)
  let s := s.updUnit u (fun y => { y.emit [reportFlit u x.bank.val x.row.toNat 0 0 4 0] with emitted := 0 })
  let s := (s.unitParity u).queueForSlot u
  let proxied := match s.pairOf u with
    | some pair => (s.stack u.s).proxied.get false (64 * u.d.val + pair)
    | none => true
  if x.reruns = 0 || proxied then s else s.updStack u.s (fun k => { k with proxyRuns := satAdd k.proxyRuns 1 })

/-! ### Reports and the ledger (R234 to R236, R396) -/

/-- A ledger entry names a word. -/
def LedgerEntry.word6 (e : LedgerEntry) : Nat × Nat × Nat × Nat × Nat × Nat :=
  (e.die.toNat, e.unit.toNat, e.bank.val, e.row.toNat, e.column.toNat, e.word.toNat)

/-- A corrected word is logged (R235, R236). -/
def Stack.log (k : Stack) (e : LedgerEntry) : Stack :=
  match k.ledger.find? (fun x => match x.2 with | some y => y.word6 = e.word6 | none => false) with
  | some (n, some y) => { k with ledger := k.ledger.set none n (some { y with count := satAdd y.count 1 }) }
  | _ => match (List.range 32).find? (fun n => (k.ledger.get none n).isNone) with
    | some n => { k with ledger := k.ledger.set none n (some { e with count := 1 }) }
    | none => { k with ledgerLost := satAdd k.ledgerLost 1 }

/-- The word that a report names, by number. -/
def State.reportWord (s : State) (st : Fin 12) (e : LedgerEntry) : Option Nat :=
  let u : UnitId := ⟨st, ⟨e.die.toNat, by omega⟩, ⟨e.unit.toNat % 68, by omega⟩⟩
  (s.pairOf u).map (fun pair => colWord u pair e.bank.val e.row.toNat e.column.toNat + e.word.toNat)

/-- The stack engine uses a report: a corrected word enters the ledger, an uncorrectable one is poisoned by the stack
controller (R396). -/
def State.takeReport (s : State) (st : Fin 12) (n : Nat) : State :=
  let e : LedgerEntry := ⟨BitVec.ofNat 4 (bits n 4 1), BitVec.ofNat 7 (bits n 11 5), ⟨bits n 12 12 % 2, by omega⟩,
    BitVec.ofNat 14 (bits n 26 13), BitVec.ofNat 6 (bits n 32 27), BitVec.ofNat 3 (bits n 35 33), 0⟩
  match bits n 127 124 with
  | 1 => s.updStack st (fun k => k.log e)
  | 2 => match s.reportWord st e with
    | some w => s.fixWord w
    | none => s
  | _ => s

/-- A step closes: refreshes that waited for it are done (R233). At the end of a run the stack engine uses what the run has reported
(R240), and the unit queues for its slot again if it has more to do (R214). -/
def State.closeStep (s : State) (u : UnitId) (t : Step) : State :=
  let s := s.freeBanks u [t]
  let reports := (s.unit u).reports
  let s := s.updUnit u (fun x =>
    let x := { x with cur := none, beats := 0 }
    if t.runEnd then x.endRun else { x with st := .hold, pc := nextPc x.program x.pc })
  if t.runEnd then
    let s := reports.foldl (fun s n => s.takeReport u.s n) (s.queueForSlot u)
    s.updStack u.s (fun k => { k with slots := s.liveSlots u.s })
  else s

/-- A step opens its row; a run begins with cleared accumulators (R204, R206). -/
def BankUnit.openStep (x : BankUnit) (t : Step) : BankUnit :=
  { x with
    bank := t.bank
    row := t.row
    acc := if t.runBegin then [] else x.acc
    accPoison := if t.runBegin then [] else x.accPoison
    parBad := if t.runBegin then x.parBad.clear 1024 9216 else x.parBad
    seq := if t.runBegin then 0 else x.seq
    emitted := if t.runBegin then 0 else x.emitted
    ahead := none
    begun := true
    inRun := true }

/-- The unit takes its slot, and its wave the step (R214, R216). -/
def State.enterStep (s : State) (u : UnitId) (pair : Nat) (w : Wave) (t : Step) : State :=
  let n := if (s.unit u).waveStep < w.step then w.step else w.step + 1
  let slots := s.liveSlots u.s
  let s := s.updStack u.s (fun k => { k with slots := if slots.contains (w.slotOf pair) then slots else slots ++ [w.slotOf pair] })
  let s := s.updWave u (fun w => { w with step := n, held := false })
  s.updUnit u (fun x => { x.openStep t with waveStep := n })

/-- Read a column for a step and report what is wrong with it. An uncorrectable word that a unit reports is poisoned in place
by the stack controller (R396) once the report arrives. -/
def State.column (s : State) (u : UnitId) (pair : Nat) (t : Step) (k : Nat) : State × Column :=
  let col := t.first.toNat + k
  let c := s.readColumn (colWord u pair t.bank.val t.row.toNat col)
  (s.updUnit u (fun x => x.report u t col c), c)

/-- The end of a READ step's run: what the unit emits (R204, R221, R224). -/
def State.endRead (s : State) (u : UnitId) (t : Step) : State :=
  let s := if !t.runEnd then s
    else if t.outer then
      s.updUnit u (fun x => x.emit (valueFlits u 0 s.freeCtr (x.allVals t))) |>.draw (256 * t.lanes)
    else if t.paged then s
    else s.updUnit u (fun x => x.emit (valueFlits u 0 s.freeCtr (x.slotVals t (t.slots.getLastD 0).toNat))) |>.draw t.lanes
  s.closeStep u t

/-! ### WRITE steps (R205, R237) -/

/-- Columns that one fill of the register file holds. -/
def fileColumns : Nat := 16

/-- Bytes of column slot `n` of the register file. -/
def BankUnit.fileBytes (x : BankUnit) (n : Nat) : List Byte :=
  leBytes 32 (bits (x.regFile.get 0 (n / 2)).toNat (256 * (n % 2) + 255) (256 * (n % 2)))

/-- Write one column: whole words get fresh check bits; a column written in part is read, merged and rewritten, and what
derives from poison is poison. -/
def State.writeColumn (s : State) (u : UnitId) (pair : Nat) (t : Step) (k : Nat) (new : List Byte) : State :=
  let mask := t.bytes.getD k 0
  let w0 := colWord u pair t.bank.val t.row.toNat (t.first.toNat + k)
  let full := decide (mask = 0xFFFFFFFF#32)
  let (s, old) := if full then (s, ⟨new, List.replicate 8 false, []⟩) else s.column u pair t k
  (List.range 8).foldl (fun s j =>
    let byte (i : Nat) : Byte := if mask.getLsbD (4 * j + i) then new.getD (4 * j + i) 0 else old.bytes.getD (4 * j + i) 0
    let bad := old.bad.getD j false && !((List.range 4).all (fun i => mask.getLsbD (4 * j + i)))
    let s := { s with
      mem := s.mem.setMany 0 (4 * (w0 + j)) [byte 0, byte 1, byte 2, byte 3]
      memErr := s.memErr.set 0 (w0 + j) (if bad then poisonPattern else 0) }
    s.flipUnit u j (w0 + j)) s

/-- The columns of a WRITE step that one fill of the register file gives, from column `k` on. -/
def State.writeFill (s : State) (u : UnitId) (pair : Nat) (t : Step) (k : Nat) : State :=
  let x := s.unit u
  (List.range (min fileColumns (t.count - k))).foldl (fun s j => s.writeColumn u pair t (k + j) (x.fileBytes j)) s

/-- A WRITE step that has written its last column closes; another takes its next fill from the next operand beat. -/
def State.afterFill (s : State) (u : UnitId) (t : Step) (done : Nat) : State :=
  if t.count ≤ done then s.closeStep u t
  else s.updUnit u (fun x => { x with st := .step, cur := some t, beats := done / fileColumns })

/-- Columns of a WRITE step as they count towards 64 (R205). -/
def writeCost (t : Step) : Nat := (t.bytes.map (fun m => if m = 0xFFFFFFFF#32 then 1 else 2)).sum

/-! ### Starting a step -/

/-- A COPY step sends two flits for each column (R209, R227). -/
def State.copyColumns (s : State) (u : UnitId) (pair : Nat) (t : Step) : State :=
  let s := (List.range t.count).foldl (fun s k =>
    let (s, c) := s.column u pair t k
    let half (h : Nat) : Flit := ⟨u.u, 2, ((c.bad.drop (4 * h)).take 4).any id, 0,
      BitVec.ofNat 128 (leNat ((c.bytes.drop (16 * h)).take 16))⟩
    s.updUnit u (fun x => x.emit [half 0, half 1])) s
  s.closeStep u t

/-- An outer step streams its columns against the values that the register file holds (R203, R224). -/
def State.outerColumns (s : State) (u : UnitId) (pair : Nat) (t : Step) : State :=
  let s := (List.range t.count).foldl (fun s k =>
    let (s, c) := s.column u pair t k
    s.updUnit u (fun x => x.outerColumn t k c)) s
  s.endRead u t

/-- A step that has started does its work: a dot step waits for the operand beats of its columns (R203 to R205). -/
def State.streamStep (s : State) (u : UnitId) (pair : Nat) (t : Step) : State :=
  match t.kind with
  | .read => if t.outer then s.outerColumns u pair t else s.updUnit u (fun x => { x with st := .step, cur := some t, beats := 0 })
  | .copy => s.copyColumns u pair t
  | .write => (s.writeFill u pair t 0).afterFill u t fileColumns

/-- A step starts in its wave, or holds (R233), or meets a parity fault that ends its run (R240). While another step of the unit
streams, it opens the row in the other bank and waits for the end of that stream (R207). -/
def State.startStep (s : State) (u : UnitId) (t : Step) : State :=
  if s.mayOpenAhead u t then
    if s.owesEight u then s.holdWave u else s.updUnit u (fun x => { x with ahead := some t })
  else if !s.mayStep u t then s
  else if s.refreshHolds u then s.holdWave u
  else if (s.unit u).parityFault t then s.parityEnds u
  else match s.pairOf u, (s.stack u.s).waveOf u with
    | some pair, some w => (s.enterStep u pair w t).streamStep u pair t
    | _, _ => s

/-- `READ_STEP` (R203, R207): an outer step streams its columns; a dot step opens, and each operand beat that follows streams what it
faces (R211, R221). -/
def execReadStep (u : UnitId) (t : Step) (s : State) : Host.Outcome State Fault Refusal :=
  if t.kind ≠ .read then .next s else .next (s.startStep u t)

/-- `COPY_STEP` (R204, R207, R209, R227). -/
def execCopyStep (u : UnitId) (t : Step) (s : State) : Host.Outcome State Fault Refusal :=
  if t.kind ≠ .copy then .next s else .next (s.startStep u t)

/-- `WRITE_STEP` (R205, R207). -/
def execWriteStep (u : UnitId) (t : Step) (s : State) : Host.Outcome State Fault Refusal :=
  if t.kind ≠ .write || decide (64 < writeCost t) then .next s else .next (s.startStep u t)

/-! ### Beats (R208, R211) -/

/-- The parity of the register file meets a flip mask (R404 target 6). -/
def State.flipFile (s : State) (u : UnitId) : State :=
  let (m, s) := s.fire (encKey 6 u.s.val u.d.val u.u.val 0)
  s.updUnit u (fun x => { x with
    parBad := ((List.range 8).filter (fun n => m.getLsbD n)).foldl (fun t n => t.set false n true) (x.parBad.clear 0 512) })

/-- A dot step streams what an operand beat faces: a column, or one group of a column of a 4-bit format. -/
def State.dotBeat (s : State) (u : UnitId) (pair : Nat) (t : Step) (n : Nat) : State :=
  let per := if elemWidth t.fmt.toNat = 4 then 2 else 1
  let k := n / per
  let (s, c) := if n % per = 0 then s.column u pair t k
    else (s, s.readColumn (colWord u pair t.bank.val t.row.toNat (t.first.toNat + k)))
  let s := s.updUnit u (fun x => { x.dotGroup t k (n % per) c with beats := n + 1 })
  let last := n % per + 1 = per
  let ends := last && (k + 1 = t.count || t.slots.getD (k + 1) 0 ≠ t.slots.getD k 0)
  let s := if t.paged && ends then
      s.updUnit u (fun x => x.emit (valueFlits u 1 s.freeCtr (x.slotVals t (t.slots.getD k 0).toNat))) |>.draw t.lanes
    else s
  if last && k + 1 = t.count then s.endRead u t else s

/-- Operands reach a unit: the register file takes them, and a step that waits for them goes on. -/
def State.operandBeat (s : State) (u : UnitId) (data : BitVec 4096) : State :=
  let s := s.updUnit u (fun x => { x with
    regFile := (List.range 8).foldl (fun t l => t.set 0 l (BitVec.ofNat 512 (bits data.toNat (512 * l + 511) (512 * l)))) x.regFile })
  let s := s.flipFile u
  let x := s.unit u
  match x.cur, s.pairOf u with
  | some t, some pair =>
    if x.parityFault t then s.parityEnds u
    else match t.kind with
      | .read => s.dotBeat u pair t x.beats
      | .write =>
        let k := fileColumns * x.beats
        (s.writeFill u pair t k).afterFill u t (k + fileColumns)
      | .copy => s
  | _, _ => s

/-- A half of the program reaches a unit, which takes it now, or at the end of the run that it is in (R204). -/
def BankUnit.programBeat (x : BankUnit) (half : Bool) (l : List Step) : BankUnit :=
  if x.inRun then { x with loads := x.loads ++ [(half, l)] } else x.loadHalf half l

/-- A program reaches a unit, in a wave of its phase (R204, R216); a unit without work begins to wait for its slot (R214). -/
def State.programTo (s : State) (u : UnitId) (b : Beat) : State :=
  match s.joinWave u b.wave (b.program.any (fun t => t.kind = .write)) with
  | none => s
  | some s => (if (s.unit u).busy then s else s.queueForSlot u).updUnit u (fun x => x.programBeat b.half b.program)

/-- The wave of a unit faces operands together: none of its units lags behind its present step (R216). -/
def State.facesBeat (s : State) (u : UnitId) : Bool :=
  match (s.unit u).cur, (s.stack u.s).waveOf u with
  | some _, some w => (s.waveMates u w).all (fun x => w.step ≤ x.waveStep)
  | _, _ => true

/-- A beat reaches one unit. -/
def State.beatAt (s : State) (u : UnitId) (b : Beat) : State :=
  if (s.unit u).out then s
  else match b.what.toNat with
    | 0 => s.operandBeat u b.data
    | 1 => s.updUnit u (fun x => { x with scales := b.data, parBad := x.parBad.clear 512 1024 })
    | 2 => s.programTo u b
    | _ => s

/-- A unit that has opened its next step ahead streams it once its wave has done the present one (R207, R216). A step that works on
what the register file holds waits for a command of its own. -/
def State.streamAhead (s : State) (u : UnitId) (w : Wave) : State :=
  let x := s.unit u
  match x.ahead, s.pairOf u with
  | some t, some pair =>
    if x.cur.isSome || t.kind = .write || (t.kind = .read && t.outer) then s
    else if x.parityFault t then s.parityEnds u
    else (s.enterStep u pair w t).streamStep u pair t
  | _, _ => s

/-- The waves of a die go on to the steps that their units have opened ahead. -/
def State.wavesGoOn (s : State) (st : Fin 12) (d : Fin 16) : State :=
  ((s.stack st).waves.filter (fun w => w.die = d)).foldl (fun s w =>
    let us := w.units.map (fun n => (⟨st, d, n⟩ : UnitId))
    if us.all (fun u => (s.unit u).cur.isNone) then us.foldl (fun s u => s.streamAhead u w) s else s) s

/-- `BEAT` (R211): broadcast to the units of a wave on a die, or addressed to one. The stack engine sends operands to no wave of which a
unit has still to open the present step (R216). -/
def execBeat (st : Fin 12) (d : Fin 16) (b : Beat) (s : State) : Host.Outcome State Fault Refusal :=
  let us : List UnitId := (match b.dest with
    | some u => [u]
    | none => b.wave).map (fun n => ⟨st, d, n⟩)
  if b.what = 0 && !us.all s.facesBeat then .next s
  else .next ((us.foldl (fun s u => s.beatAt u b) s).wavesGoOn st d)

/-! ### Flits (R209, R210, R234, R240) -/

/-- A unit reports an internal fault: the stack engine takes it out of service (R241). The report kind is none of those that R234
lists (DEDUCED, log 97). -/
def State.unitFault (s : State) (u : UnitId) : State :=
  if (s.unit u).out then s
  else (s.raise (((mkEvent 0x04 1 0).withReason 1).atUnit u.s.val u.d.val u.u.val)).failUnit u

/-- The oldest flit of a unit reaches the stack engine. A report of a run that has not ended waits for its end (R240). -/
def State.flitArrives (s : State) (u : UnitId) (f : Flit) (rest : List Flit) : State :=
  let x := s.unit u
  let ofRun := decide (x.outQ.length ≤ x.emitted)
  let s := s.updUnit u (fun x => { x with outQ := rest, emitted := min x.emitted rest.length })
  if f.kind ≠ 3 then s
  else if ofRun then s.updUnit u (fun x => { x with reports := x.reports ++ [f.payload.toNat] })
  else s.takeReport u.s f.payload.toNat

/-- `FLIT` (R209, R210, R240): the oldest flit of its unit reaches the stack engine; or, with the queue empty, the unit reports an
internal fault (R241). What a command makes of results, scores and copied columns is stated at its completion (log 35). -/
def execFlit (st : Fin 12) (d : Fin 16) (f : Flit) (s : State) : Host.Outcome State Fault Refusal :=
  let u : UnitId := ⟨st, d, f.unit⟩
  match (s.unit u).outQ with
  | g :: rest => if g = f then .next (s.flitArrives u f rest) else .next s
  | [] => if f.kind = 3 && decide (5 ≤ bits f.payload.toNat 127 124) then .next (s.unitFault u) else .next s

/-- The stack controller visits ledger entries: it reads each logged word again, repairs it if it is still correctable, and frees
the entry (R235, R395). -/
def State.visitLedger (s : State) (st : Fin 12) (pick : LedgerEntry → Bool) : State :=
  let mine := ((s.stack st).ledger.filterMap (fun e => e.2.map (fun y => (e.1, y)))).filter (fun (e : Nat × LedgerEntry) => pick e.2)
  mine.foldl (fun s e =>
    let s := match s.reportWord st e.2 with
      | some w => s.fixWord w
      | none => s
    s.updStack st (fun k => { k with ledger := k.ledger.set none e.1 none })) s

/-- `LEDGER_VISIT` (R235, R395): between a unit's programs. -/
def execLedgerVisit (u : UnitId) (s : State) : Host.Outcome State Fault Refusal :=
  if (s.unit u).begun then .next s
  else .next (s.visitLedger u.s (fun e => e.die.toNat = u.d.val && e.unit.toNat = u.u.val))

/-! ### Units that fail, and spares (R241, R242) -/

/-- `UNIT_RUN_TIMEOUT` (R241): a run that does not end within 4 times its time fails its unit, and restarts in proxy mode, where
the command's completion counts it. -/
def execUnitRunTimeout (u : UnitId) (s : State) : Host.Outcome State Fault Refusal :=
  if (s.unit u).inRun then .next (s.unitFault u) else .next s

/-- The copy of a pair passes every word through the decoders: what can be corrected is, and the rest is poison (R238, R242, R396). -/
def State.touchPair (s : State) (st die pair : Nat) : State :=
  ((s.memErr.map Prod.fst).filter (fun w => keyStack (4 * w) = st && keyDie (4 * w) = die && keyPair (4 * w) = pair)).foldl
    State.fixWord s

/-- The rows of a pair that the old banks had remapped, counted or awaiting: the pair leaves them behind (R242, R407, R408). -/
def Stack.leavePair (k : Stack) (die pair : Nat) : Stack :=
  let mine (r : RowId) : Bool := r.d.val = die && r.pair.val = pair
  let gone := (k.pendingRows.filter mine).length
  { k with
    remaps := k.remaps.filter (fun m => !mine m.row)
    pendingRows := k.pendingRows.filter (fun r => !mine r)
    remapPending := k.remapPending - BitVec.ofNat 16 gone
    spareRows := k.spareRows.filter (fun e => decide (e.1 / 2 ≠ 64 * die + pair))
    rowCnt := k.rowCnt.filter (fun c => decide (c.key / 32768 ≠ 64 * die + pair)) }

/-- `MIGRATION_COMPLETE` (R242): every row has been copied, the pair's addresses lead to the spare, and its proxy mode ends. -/
def execMigrationComplete (st : Fin 12) (d : Fin 16) (j : Fin 4) (s : State) : Host.Outcome State Fault Refusal :=
  let k := s.stack st
  let sp := k.spares.get SparePair.reset (4 * d.val + j.val)
  let pair := 64 * d.val + sp.replaced.toNat
  if sp.inUse && k.migrating.get false pair then
    let s := s.touchPair st.val d.val sp.replaced.toNat
    let s := s.updStack st (fun k => { k.leavePair d.val sp.replaced.toNat with
      migrating := k.migrating.set false pair false
      proxied := if sp.failed then k.proxied else k.proxied.set false pair false })
    .next (s.updUnit ⟨st, d, ⟨sp.replaced.toNat, by omega⟩⟩ (fun x => { x with st := .retired }))
  else .next s

/-! ### Refresh (R232, R233) -/

/-- `REFRESH` (R232, R233): bank `k` of pseudo-channel `h` is due. While a step holds the bank the refresh waits for the step to
close, and at most 8 wait in a pseudo-channel; otherwise it is performed, and nothing that the model keeps changes. -/
def execRefresh (st : Fin 12) (h : Fin 64) (k : Fin 32) (s : State) : Host.Outcome State Fault Refusal :=
  let pair := 16 * (h.val % 4) + k.val / 2
  if s.bankOpen (physKey st.val (h.val / 4) pair (k.val % 2) 0 0) && decide ((s.stack st).owed h.val < 8) then
    let s := s.updStack st (fun x => { x with postponed := x.postponed.set 0 (32 * h.val + k.val) 1 })
    let n := (s.stack st).owed h.val
    .next (s.updStack st (fun x => { x with refPeak := if x.refPeak.toNat < n then BitVec.ofNat 4 (min 8 n) else x.refPeak }))
  else .next s

/-! ### The scrubber and row remaps (R231, R405, R408) -/

/-- Rows of a stack that a pass visits (R405). -/
def rowsOfStack : Nat := 33554432

/-- `SCRUB_VISIT` (R405): the row's errors are found, unless its unit is inside a run; a pass ends once every row has been visited. An
error that is found needs the base die of the stack's partition, and is an arrival there (R26, log 96). -/
def execScrubVisit (r : RowId) (s : State) : Host.Outcome State Fault Refusal :=
  let k := s.stack r.s
  let busy := (List.finRange 68).any (fun n =>
    let u : UnitId := ⟨r.s, r.d, n⟩
    (s.unit u).inRun && s.pairOf u = some r.pair.val)
  if !k.scrubEn || busy || (s.hk.mtBusy && s.hk.mtStacks.getLsbD r.s.val) then .next s
  else
    let g := physKey r.s.val r.d.val r.pair.val r.bank.val r.row.toNat 0 / 64
    let found := s.memErr.any (fun e => e.1 / 512 = g / 32 && decide (eccOf e.2 = .corrected ∨ eccOf e.2 = .uncorrectable))
    let s := s.touch ((List.range 32).map (g + ·))
    let s := if found then s.arrive (ownerOfStack r.s) .refresh else s
    .next (s.updStack r.s (fun k =>
      let seen := if k.visited.contains r.key then k.visited else k.visited ++ [r.key]
      if seen.length < rowsOfStack then { k with visited := seen }
      else { k with visited := [], passes := satAdd k.passes 1 }))

/-- `ROW_REMAP_COMPLETE` (R408): the copy of a row into its spare row is complete: words were corrected on the way, and those
that could not be are poison. The copy runs between steps. -/
def execRowRemapComplete (r : RowId) (s : State) : Host.Outcome State Fault Refusal :=
  if s.bankOpen (physKey r.s.val r.d.val r.pair.val r.bank.val r.row.toNat 0) then .next s
  else if (s.stack r.s).remaps.any (fun m => m.row = r && !m.done) then
    let g := physKey r.s.val r.d.val r.pair.val r.bank.val r.row.toNat 0 / 64
    let s := s.touch ((List.range 32).map (g + ·))
    .next (s.updStack r.s (fun k => { k with
      remapLive := satAdd k.remapLive 1
      remaps := k.remaps.map (fun m => if m.row = r then { m with done := true } else m) }))
  else .next s

end Sys2Proof.Machine
end

