-- ==== Sys2Proof/Machine/Cadastre.lean ====
section
/-! DEFINITION. The Cadastre (R430 to R436): lists as bytes, merging, compaction, applying, reading and importing. -/

namespace Sys2Proof

/-- The 16 bytes of an entry (R430). -/
def CadEntry.bytes (e : CadEntry) : List Byte :=
  [e.kind, BitVec.ofNat 8 e.origin.toNat, 0, 0] ++ Machine.leBytes 4 e.locA.toNat ++ Machine.leBytes 4 e.locB.toNat
    ++ Machine.leBytes 4 e.startNo.toNat

/-- Order of entries (R432). -/
def CadEntry.before (a b : CadEntry) : Bool :=
  decide (a.kind < b.kind) || (a.kind = b.kind && (decide (a.locA < b.locA) || (a.locA = b.locA && decide (a.locB < b.locB))))

/-- Byte `n` of `LOC_A`. -/
def CadEntry.a (e : CadEntry) (n : Nat) : Nat := Machine.bits e.locA.toNat (8 * n + 7) (8 * n)

/-- An entry from its 16 bytes. -/
def CadEntry.ofBytes (l : List Byte) : CadEntry where
  kind := BitVec.ofNat 8 (Machine.lf l 0 1)
  origin := BitVec.ofNat 4 (Machine.lf l 1 1)
  locA := BitVec.ofNat 32 (Machine.lf l 4 4)
  locB := BitVec.ofNat 32 (Machine.lf l 8 4)
  startNo := BitVec.ofNat 32 (Machine.lf l 12 4)

end Sys2Proof

namespace Sys2Proof.Machine

/-! ### Lists (R432) -/

/-- Put an entry into an ordered list; of two entries for one defect the lower `START_NO` stays (R433 step 2). -/
def cadInsert (e : CadEntry) : List CadEntry → List CadEntry
  | [] => [e]
  | x :: xs =>
    if e.same x then (if e.startNo < x.startNo then e :: xs else x :: xs)
    else if e.before x then e :: x :: xs
    else x :: cadInsert e xs

/-- Merge entries into a list (R433 step 2). -/
def cadMerge (base new : List CadEntry) : List CadEntry := new.foldl (fun l e => cadInsert e l) base

/-- Header bytes 0 to 27 of a list (R432). -/
def cadHead (seq starts : Word) (slice : BitVec 4) (count : Nat) : List Byte :=
  ([0x43, 0x44, 0x53, 0x54] : List Byte) ++ leBytes 2 1 ++ leBytes 2 count ++ leBytes 4 seq.toNat ++ leBytes 4 starts.toNat
    ++ [BitVec.ofNat 8 slice.toNat] ++ List.replicate 11 0

/-- A list as it is stored and read (R432). -/
def CadList.bytes (l : CadList) : List Byte :=
  let h := cadHead l.seq l.startCount l.nextSlice l.entries.length
  let es := l.entries.flatMap CadEntry.bytes
  h ++ leBytes 4 (crc32c (h ++ l.ident ++ es)).toNat ++ l.ident ++ es

/-- Compaction (R433 step 3): a bank with more than 32 `DRAM_ROW` entries, and a bank unit with 2 or more `SRAM_ROW` entries
in its parity arrays, lose them and gain one `PAIR` entry. The entry's `ORIGIN` is not stated and free (log 3). -/
def cadCompact (ctr : Nat) (start : Word) (l : List CadEntry) : List CadEntry :=
  let rowKey (e : CadEntry) : Option (Nat × Nat × Nat) :=
    if e.kind = 4 then some (e.locA.toNat, 0, 32) else none
  let unitKey (e : CadEntry) : Option (Nat × Nat × Nat) :=
    if e.kind = 5 && bit (e.a 3) 0 && Config.unitClass (BitVec.ofNat 8 (e.a 1)) then some (e.a 0 + 256 * (e.a 3 / 16) + 65536 * e.a 2, 1, 1) else none
  let key (e : CadEntry) : Option (Nat × Nat × Nat) := (rowKey e) <|> (unitKey e)
  let many := ((l.filterMap key).dedup).filter (fun k => k.2.2 < (l.filter (fun e => key e = some k)).length)
  let kept := l.filter (fun e => match key e with | some k => !many.contains k | none => true)
  cadMerge kept (many.map (fun k =>
    ⟨3, BitVec.ofNat 4 (Config.pick ctr % 6), BitVec.ofNat 32 (k.1 % 2 ^ 24), 0, start⟩))

/-- The current list (R435): the merged list of the last start with every entry added since. -/
def State.cadNow (s : State) : CadList := { s.cad.list with entries := cadMerge s.cad.list.entries s.cad.runtime }

/-! ### Flash copies (R432 to R434) -/

/-- A QSPI pin is faulty, so flash is treated as absent (R461). -/
def State.qspiBad (s : State) : Bool := [10, 11, 12, 13, 14, 15].any (fun j => s.hk.pins.get 0 j ≠ 0)

/-- The first 32 bytes of the digest of this device's identity key. -/
def State.ident (s : State) : List Byte := leBytes 32 (Config.identityDigest s.ta.idKey).toNat

/-- Flash copies that are valid, with the number of each. -/
def State.flashCopies (s : State) : List (Nat × CadList) :=
  if s.qspiBad then [] else (s.cad.flash0.map (fun l => (0, l))).toList ++ (s.cad.flash1.map (fun l => (1, l))).toList

/-- The prior list and the number of its copy (R433 step 1). -/
def State.prior (s : State) (cold : Bool) : Option (Option Nat × CadList) :=
  let mine := s.flashCopies.filter (fun c => c.2.ident = s.ident)
  match mine with
  | [a, b] => some (if a.2.seq < b.2.seq then (some b.1, b.2) else (some a.1, a.2))
  | [a] => some (some a.1, a.2)
  | _ => if cold then none else s.cad.kept.map (fun l => (none, l))

/-- Write a list into the flash copy that does not hold the prior list (R434): present, and well written at last. -/
def State.writeFlash (s : State) (old : Option Nat) (l : CadList) (present ok : Bool) : State :=
  let good := present && ok && !s.qspiBad
  let copy := if ok then some l else none
  let cad := if !present || s.qspiBad then s.cad
    else if old = some 0 then { s.cad with flash1 := copy } else { s.cad with flash0 := copy }
  { s with cad := cad, hk := { s.hk with cadPersist := good } }

/-! ### Applying a list (R433 step 5) -/

/-- A cluster's cores (R433): retired ones, and the ninth working one as the spare. -/
def State.applyCluster (s : State) (es : List CadEntry) (cl : ClusterId) : State :=
  let off := es.any (fun e => e.kind = 2 && e.a 0 = cl.p.val && e.a 1 = cl.c.val)
  let s := s.updCluster cl (fun y => { y with disabled := off })
  let dead (c : CoreId) : Bool := es.any (fun e => e.kind = 1 && e.a 0 = c.p.val && e.a 1 = c.c.val && e.a 2 = c.k.val)
  let good := (coresOf cl).filter (fun c => !dead c)
  (coresOf cl).foldl (fun s c => s.updCore c (fun x => { x with
    retired := dead c, spare := good.idxOf c = 8 && !dead c && !off })) s

/-- The pairs of a stack (R433, R241): a failed pair takes the spare of its pseudo-channel where that works and is free, and
otherwise runs in proxy mode. -/
def State.applyPairs (s : State) (es : List CadEntry) (st : Fin 12) : State :=
  let pairs := es.filter (fun e => e.kind = 3 && e.a 0 = st.val)
  let s := s.updStack st (fun k => { k with unitFail := [], spares := [], proxied := [] })
  let s := (pairs.filter (fun e => 64 ≤ e.a 2)).foldl (fun s e =>
    s.updStack st (fun k => { k with spares := k.spares.set SparePair.reset (4 * e.a 1 + (e.a 2 - 64)) ⟨false, true, 0⟩ })) s
  (pairs.filter (fun e => e.a 2 < 64)).foldl (fun s e =>
    let d := e.a 1
    let u := e.a 2
    let n := 4 * d + u / 16
    s.updStack st (fun k =>
      let k := { k with unitFail := k.unitFail.set 0 d (k.unitFail.get 0 d ||| BitVec.ofNat 64 (2 ^ u)) }
      let sp := k.spares.get SparePair.reset n
      if sp.inUse || sp.failed then { k with proxied := k.proxied.set false (64 * d + u) true }
      else { k with spares := k.spares.set SparePair.reset n ⟨true, false, BitVec.ofNat 6 u⟩ })) s

/-- The pair whose rows a Cadastre entry of kind 4 names by its physical unit, where that unit still serves it (R8, R408, R433). -/
def State.rowPair (s : State) (st : Fin 12) (d u : Nat) : Option (Fin 64) :=
  let id : UnitId := ⟨st, ⟨d % 16, by omega⟩, ⟨u % 68, by omega⟩⟩
  match s.pairOf id with
  | some n =>
    let pair : Fin 64 := ⟨n % 64, by omega⟩
    if (s.servedBy ⟨st, id.d, pair, 0, 0⟩).u = id.u then some pair else none
  | none => none

/-- Units of failed pairs are bypassed (R241); live remaps have become permanent (R408): a bank's retired rows use its
spare rows from 0 on. -/
def State.applyRows (s : State) (es : List CadEntry) (st : Fin 12) : State :=
  let rows := es.filter (fun e => e.kind = 4 && e.a 0 = st.val)
  let used := rows.foldl (fun (t : Tbl Nat) (e : CadEntry) => match s.rowPair st (e.a 1) (e.a 2) with
    | some pair =>
      let b := (e.a 1 * 64 + pair.val) * 2 + e.a 3
      t.set 0 b (t.get 0 b + 1)
    | none => t) []
  let s := s.updStack st (fun k => { k with remaps := [], pendingRows := [], remapPending := 0, spareRows := used })
  (es.filter (fun e => e.kind = 3 && e.a 0 = st.val)).foldl (fun s e =>
    s.updStack st (fun k =>
      let n := 68 * e.a 1 + e.a 2
      { k with units := k.units.set BankUnit.reset n { k.units.get BankUnit.reset n with st := .bypassed } })) s

/-- Retired lanes of a link stay out (R433). -/
def State.applyLanes (s : State) (es : List CadEntry) : State :=
  (List.finRange 48).foldl (fun s l =>
    let out (n : Nat) : Bool := es.any (fun e => e.kind = 7 && e.a 0 = l.val && bits e.locB.toNat 0 0 = n)
    s.updLink l (fun k => { k with retired := BitVec.ofNat 2 (b2n (out 0) + 2 * b2n (out 1)) })) s

/-- Apply what a list says of the stacks (R433 step 5). -/
def State.applyStacks (s : State) (es : List CadEntry) : State :=
  (List.finRange 12).foldl (fun s st => (s.applyPairs es st).applyRows es st) s

/-- The spares that applied entries take (R433 step 5): of a bank, a channel and an SRAM array, the retired rows and lanes take
those from 0 on, in the ascending order of the list. -/
def spareOf (es : List CadEntry) : List (CadEntry × Nat) :=
  let array (e : CadEntry) : Option (Word × Nat) :=
    if e.kind = 4 || e.kind = 5 then some (e.locA, e.kind.toNat) else if e.kind = 6 then some (e.locA &&& 0xFFFF, 6) else none
  (es.foldl (fun (l : List (CadEntry × Nat)) e =>
    if (array e).isSome then l ++ [(e, (l.filter (fun y => array y.1 = array e)).length)] else l) [])

/-- Apply a list (R433 step 5). -/
def State.applyList (s : State) (es : List CadEntry) : State :=
  let s := ((List.finRange 4).flatMap clustersOf).foldl (fun s cl => s.applyCluster es cl) (s.applyStacks es)
  let s := s.applyLanes es
  { s with cad := { s.cad with assigned := spareOf es } }

/-! ### Commands (R435, R436) -/

/-- `CADASTRE_READ` (R435). -/
def execCadastreRead (k : Packet) (s : State) : Host.Outcome State Fault Refusal :=
  let len := pf k 16 4
  mgmt s k (mgmtCheck k 0x0C false [(8, 8), (16, 4)] [hostAddrBad k 8, (16, decide (len < 64))])
    (fun s =>
      let bs := s.cadNow.bytes
      let n := if bs.length ≤ len then bs.length else 64 + (len - 64) / 16 * 16
      (s.toHost (pa k 8) (bs.take n)).mgmtDone .ok (BitVec.ofNat 32 n))

/-- Checks of an imported list (R432, R436): offsets in the buffer count from 0x0001_0000 (R378). -/
def State.importCheck (s : State) (k : Packet) : Option (Status × Word) :=
  let len := pf k 16 4
  let l := s.hostRead (pa k 8) len
  let count := lf l 6 2
  let crc := crc32c (l.take 28 ++ l.drop 32)
  if len < 64 then some (.badParam, 16)
  else badIf [(16, len ≠ 64 + 16 * count), (0x10000, decide (lf l 0 4 ≠ 0x54534443)), (0x10004, decide (lf l 4 2 ≠ 1)),
    (0x10006, decide (4092 < count)), (0x1001C, decide (lf l 28 4 ≠ crc.toNat)),
    (0x10020, decide ((l.drop 32).take 32 ≠ s.ident))]

/-- Set a measurement register to its extension with a digest (R425). -/
def State.extend (s : State) (n : Nat) (d : List Byte) : State :=
  { s with ta := { s.ta with meas := s.ta.meas.set 0 n (Config.sha3_512 (leBytes 64 (s.ta.meas.get 0 n).toNat ++ d)) } }
/-- Bytes of a digest. -/
def digestBytes (l : List Byte) : List Byte := leBytes 64 (Config.sha3_512 l).toNat

/-- A channel needs more spare TSVs than its eight (R409, R429). -/
def tsvShort (es : List CadEntry) : Bool :=
  es.any (fun e => e.kind = 6 && decide (8 < (es.filter (fun x => x.kind = 6 && x.a 0 = e.a 0 && x.a 1 = e.a 1)).length))

/-- Take imported entries into the current list (R436): merged and compacted, measured, written to flash, and a record for
each entry that was new. -/
def State.importList (s : State) (buf : List Byte) (new : List CadEntry) : State :=
  let old := s.cadNow.entries
  let all := cadCompact s.freeCtr s.cad.list.startCount (cadMerge old new)
  let cold := (s.prior false).bind (fun p => p.1)
  let l := { s.cad.list with seq := s.cad.list.seq + 1, entries := all }
  let present := Config.flashOk s.freeCtr
  let ok := Config.flashOk (s.freeCtr + 1)
  let s := (s.draw 2).extend 6 (digestBytes buf)
  let s := { s with cad := { s.cad with list := l, runtime := [], kept := some l } }
  let s := s.writeFlash cold l present ok
  (new.filter (fun e => !old.any e.same)).foldl (fun s e =>
    s.raise (cadLocate e ((mkEvent 0x14 0 0).withReason e.kind.toNat))) s

/-- `CADASTRE_IMPORT` (R436). -/
def execCadastreImport (k : Packet) (s : State) : Host.Outcome State Fault Refusal :=
  let len := pf k 16 4
  let buf := s.hostRead (pa k 8) len
  let poisoned := s.hostPoison (pa k 8) len
  mgmt s k (mgmtCheck k 0x0D false [(8, 8), (16, 4)] [hostAddrBad k 8]
      <|> (if poisoned then none else s.importCheck k) <|> s.notReady
      <|> wrongIf ((List.finRange 4).any (fun p => (s.part p).st ≠ .off)))
    (fun s =>
      if poisoned then s.mgmtFail (pa k 8)
      else (s.importList buf ((chunks 16 (buf.length) (buf.drop 64)).map CadEntry.ofBytes)).mgmtDone .ok 0)

/-! ### The memory test (R437 to R439) -/

/-- `MEMTEST_FULL` and the retention test share one packet; `RETENTION` selects (R437). -/
def State.memtest (s : State) (k : Packet) : Host.Outcome State Fault Refusal :=
  let m := pf k 8 2
  mgmt s k (mgmtCheck k 0x0E false [(8, 2)] [(8, m = 0 || decide (4095 < m))] <|> s.notReady
      <|> wrongIf ((List.finRange 4).any (fun p => (s.part p).st ≠ .off)))
    (fun s => { s with hk := { s.hk with
      mtBusy := true
      mtRet := s.hk.retention
      mtProgress := 0
      mtFound := 0
      mtStacks := BitVec.ofNat 12 m
      mtTag := s.hi.cmdTag } })

/-- `MEMTEST_FULL` (R437). -/
def execMemtestFull (k : Packet) (s : State) : Host.Outcome State Fault Refusal := s.memtest k
/-- `RETENTION_TEST` (R437, R438). -/
def execRetentionTest (k : Packet) (s : State) : Host.Outcome State Fault Refusal := s.memtest k

/-- Zero-fill the stacks of a mask (R437). -/
def State.zeroStacks (s : State) (m : BitVec 12) : State :=
  { s with
    mem := s.mem.filter (fun e => !m.getLsbD (keyStack e.1))
    memErr := s.memErr.filter (fun e => !m.getLsbD (keyStack (4 * e.1))) }

/-- `MEMTEST_COMPLETE` (R437): the defects are entered with origin 2 or 3, the stacks' part of the list is applied, the
stacks tested are zero-filled, and the command completes. -/
def execMemtestComplete (found : List CadEntry) (s : State) : Host.Outcome State Fault Refusal :=
  if !s.hk.mtBusy then .next s
  else
    let m := s.hk.mtStacks
    let before := s.cadNow.entries.length
    let s := { s with hi := { s.hi with cmdTag := s.hk.mtTag } }
    let s := found.foldl (fun s e => s.addDefect e.kind.toNat (if s.hk.mtRet then 3 else 2) e.locA e.locB) s
    let n := s.cadNow.entries.length - before
    let all := cadCompact s.freeCtr s.cad.list.startCount s.cadNow.entries
    let s := (s.draw 1).applyStacks all
    let s := { s with cad := { s.cad with
      assigned := spareOf all
      list := { s.cad.list with entries := s.cad.list.entries.filter all.contains }
      runtime := all.filter (fun e => !s.cad.list.entries.contains e) } }
    let s := s.zeroStacks m
    let s := (List.finRange 12).foldl (fun s st =>
      if m.getLsbD st.val then s.updStack st (fun k => { k with visited := [] }) else s) s
    let s := { s with hk := { s.hk with mtBusy := false, mtFound := BitVec.ofNat 16 (min 65535 n) } }
    let s := s.mgmtDone .ok 0
    .next { s with hi := { s.hi with cmdTag := 0 } }

end Sys2Proof.Machine
end

