-- ==== Sys2Proof/Machine/Ctl.lean ====
section
/-! DEFINITION. The CTL operations (R51, R52, R66, R67). -/

namespace Sys2Proof.Machine

/-- `CTL_NOP` (R52): the bundle is offered; the slot does nothing. -/
def execCtlNop (c : CoreId) (b : Bundle) (s : State) : Host.Outcome State Fault Refusal :=
  slotOp c b 0 0x00 id s

/-- `JMP` (R51, R52). -/
def execJmp (c : CoreId) (b : Bundle) (s : State) : Host.Outcome State Fault Refusal :=
  slotOp c b 0 0x01 (fun s => s.branch c (b.f 0 31 16)) s

/-- `BRZ` (R52): branch if X[`REG`] is 0. -/
def execBrz (c : CoreId) (b : Bundle) (s : State) : Host.Outcome State Fault Refusal :=
  slotOp c b 0 0x02 (fun s => if (s.core c).xr (b.f 0 12 8) = 0 then s.branch c (b.f 0 31 16) else s) s

/-- `BRNZ` (R52): branch if X[`REG`] is not 0. -/
def execBrnz (c : CoreId) (b : Bundle) (s : State) : Host.Outcome State Fault Refusal :=
  slotOp c b 0 0x03 (fun s => if (s.core c).xr (b.f 0 12 8) ≠ 0 then s.branch c (b.f 0 31 16) else s) s

/-- `DBNZ` (R52): X[`REG`] less 1 with latency 1; branch if the result is not 0. -/
def execDbnz (c : CoreId) (b : Bundle) (s : State) : Host.Outcome State Fault Refusal :=
  slotOp c b 0 0x04 (fun s =>
    let v := (s.core c).xr (b.f 0 12 8) - 1
    let s := s.write c .x (b.f 0 12 8) (v.zeroExtend 48) 0 1
    if v ≠ 0 then s.branch c (b.f 0 31 16) else s) s

/-- `WAITT` (R52, R65, R66): the hold and the consumption of the count are the bundle's issue (`openBundle`). -/
def execWaitt (c : CoreId) (b : Bundle) (s : State) : Host.Outcome State Fault Refusal :=
  slotOp c b 0 0x05 id s

/-- `MTAG` (R52): the macro tag takes `IMM16` with latency 1. -/
def execMtag (c : CoreId) (b : Bundle) (s : State) : Host.Outcome State Fault Refusal :=
  slotOp c b 0 0x06 (fun s => s.write c .mtag 0 (BitVec.ofNat 48 (b.f 0 31 16)) 0 1) s

/-- `TRACE` (R52, R73): a MARK record that carries X[`REG`]. -/
def execTrace (c : CoreId) (b : Bundle) (s : State) : Host.Outcome State Fault Refusal :=
  slotOp c b 0 0x07 (fun s =>
    let x := s.core c
    s.trace c 7 (b.f 0 12 8) x.curPc.toNat x.mtag (x.xr (b.f 0 12 8)).toNat) s

/-- `END` (R67): issue stops. The share completes when its operations and writes have finished. -/
def execEndShare (c : CoreId) (b : Bundle) (s : State) : Host.Outcome State Fault Refusal :=
  slotOp c b 0 0x08 (fun s => s.updCore c (fun x => { x with ended := true })) s

end Sys2Proof.Machine
end

