-- ==== Sys2Proof/Machine/Start.lean ====
section
/-! DEFINITION. Starts (R416 to R436): the phases from HK_BOOT to READY, the image and its verification, measurements, and
the SPDM responder; and the state to which warm and cold resets take the device (R419, R441, R444). -/

namespace Sys2Proof.Machine

/-! ### Resets of the whole device (R441, R442, R444) -/

/-- Housekeeping registers across a reset (R441): what is lost only with the package's power stays; a warm reset keeps the
housekeeping domain. -/
def Hk.across (h : Hk) (cold : Bool) (source : Nat) (now : BitVec 48) : Hk :=
  let base := if cold then
      { Hk.reset with
        startTime := h.startTime
        orient := h.orient
        pins := h.pins
        sbFault := h.sbFault
        coldPin := h.coldPin
        warmPin := h.warmPin
        rails := h.rails
        pg := h.pg
        down := h.down }
    else { h with flips := [], fired := 0, injection := false, mtBusy := false, failed := false, retention := false }
  { base with
    phase := .hkBoot
    cold := cold
    startHk := now
    resetLevel := if cold then 4 else 3
    resetSource := BitVec.ofNat 3 source
    coldHeld := false
    thermtrip := false
    badBases := 0 }

/-- The phases in which the domains of the dies, stacks and links are powered: POWER_UP and those after it (R416). -/
def Phase.powered : Phase → Bool
  | .powerUp => true
  | .memInit => true
  | .test => true
  | .cadastre => true
  | .apply => true
  | .configure => true
  | .ready => true
  | _ => false

/-- Enables that the power-good inputs let rise (R447), in the order of the groups: each follows the power-good of the group before
it, and those after `EN_UCI` wait for POWER_UP (R416). -/
def Hk.raiseRails (h : Hk) : Hk :=
  (List.range 5).foldl (fun h g =>
    if h.pg.getLsbD g && (g = 0 || (h.phase.powered && h.rails.getLsbD (g - 1))) then { h with rails := h.rails ||| BitVec.ofNat 5 (2 ^ g) } else h) h

/-- Heat registers across a reset: the last trip and the events stay; broken marks go (R453), thresholds return to the
image's at CONFIGURE. A warm reset keeps the housekeeping domain, and with it the state and steps of the thermal domains (R441). -/
def Thermal.across (t : Thermal) (cold : Bool) : Thermal :=
  { Thermal.reset with
    domains := if cold then [] else t.domains.filterMap (fun e =>
      let d := { e.2 with nbroken := 0 }
      if d = Domain.reset then none else some (e.1, d))
    status := t.status
    tripDomain := t.tripDomain
    tripSensor := t.tripSensor
    tripBroken := t.tripBroken
    tripSupply := t.tripSupply
    tripValid := t.tripValid
    tripCount := t.tripCount
    temps := t.temps.filterMap (fun e => if e.2.temp = 0 then none else some (e.1, ⟨e.2.temp, false, 0⟩))
    volts := t.volts
    currs := t.currs }

/-- The host interface across a reset: its registers return to reset (R373); a warm reset keeps the UCIe link (R441). -/
def HostIf.across (h : HostIf) (cold : Bool) : HostIf :=
  { HostIf.reset with
    st := .resetting
    modules := if cold then 0 else h.modules
    entries := if cold then 0 else h.entries
    rate := if cold then 0 else h.rate
    repairs := if cold then 0 else h.repairs }

/-- The host completes a write, or an interrupt is sent: a masked vector sets its pending bit instead (R365, R390). -/
def State.hostTakes (s : State) (r : HostReq) : State :=
  match r with
  | .write a bs => { s with hostMem := s.hostMem.setMany 0 a bs }
  | .irq v =>
    if (s.msix.get ⟨0, 0, true⟩ v).masked then { s with pba := s.pba ||| BitVec.ofNat 9 (2 ^ v) }
    else { s with irqSent := s.irqSent ++ [v] }

/-- Writes on their way to the host complete: a `RESET` command's reply precedes the reset (R380, R444). -/
def State.flushHost (s : State) : State :=
  let t := s.cxlOut.foldl State.hostTakes s
  { t with cxlOut := [] }

/-- The host's requests that the device has accepted and that wait, for a PLL or for a line (R27, R368). -/
def State.accepted (s : State) : List Held := s.hi.waiting ++ (List.finRange 4).flatMap (fun p => (s.part p).heldArr)

/-- The last answer to the host once its accepted reads are completed, as a warm or cold reset does first (R442). -/
def State.lastAnswer (s : State) : Option (List Byte × Bool) :=
  s.accepted.foldl (fun (r : Option (List Byte × Bool)) h => match h with
    | .read _ off n _ => some (s.hostAnswer n (s.hostPlaces off n))
    | _ => r) s.hostRsp

/-- A warm or cold reset begins (R440 to R444): every block not kept returns to its reset state, and the start is in
HK_BOOT. The HKC keeps the Cadastre; the trust block keeps the identity key; free values go on. -/
def State.restart (s : State) (cold : Bool) (source : Nat) : State :=
  { State.reset with
    pending := s.pending
    freeCtr := s.freeCtr
    hkCount := s.hkCount
    hostMem := s.hostMem
    hostErr := s.hostErr
    irqSent := s.irqSent
    hostRsp := s.lastAnswer
    stepping := s.stepping
    hi := s.hi.across cold
    hk := s.hk.across cold source s.hkCount
    th := s.th.across cold
    ta := s.ta
    img := ⟨if cold then 0 else s.img.source, [], false⟩
    cad := { s.cad with kept := if cold then none else some s.cadNow, tested := [] } }

/-! ### Phases (R416) -/

/-- The start is FAILED (R429): the device is FAULTED until the next warm or cold reset. The entries found up to that point stay
readable, as entries added since the last start (R435). -/
def State.failStart (s : State) : State :=
  { s with
    cad := { s.cad with runtime := s.cad.runtime ++ s.cad.tested, tested := [] }
    hk := { s.hk with phase := .failed, failed := true }
    hi := { s.hi with st := .faulted } }

/-- Orientation from the two key pads, true for high (R460). -/
def orientOf (a b : Bool) : BitVec 2 := if a = b then 3 else if a then 2 else 1

/-- `HK_BOOT` (R416, R425, R460): the mask ROM runs, measures itself, reads the connector, and the attach is powered. It does
not end while the package is tripped or its rails go down. -/
def execHkBoot (keyA keyB : Bool) (s : State) : Host.Outcome State Fault Refusal :=
  if (s.hk.phase = .none || s.hk.phase = .hkBoot) && !s.th.tripped && !s.hk.down && s.hk.pg.getLsbD 0 then
    let s := { s with ta := { s.ta with meas := [] } }
    let s := s.extend 0 (leBytes 64 Config.maskRomDigest.toNat)
    .next { s with hk := { s.hk.raiseRails with
      orient := orientOf keyA keyB
      phase := if s.hk.cold then .identity else .image } }
  else .next s

/-- `IDENTITY` (R421). -/
def execIdentity (s : State) : Host.Outcome State Fault Refusal :=
  if s.hk.phase ≠ .identity then .next s
  else match Config.pufSeed with
    | none => .next s.failStart
    | some seed =>
      .next { s with
        ta := { s.ta with identity := true, idKey := seed }
        img := ⟨0, [], false⟩
        hk := { s.hk with phase := .image } }

/-! ### The image (R422 to R424) -/

/-- An image header is well formed (R423, R424). -/
def imageHeaderOk (b : List Byte) : Bool :=
  lf b 0 4 = 0x534C5256 && lf b 4 2 = 1 && lf b 6 2 = 0 && decide (64 ≤ b.length) && decide (lf b 8 4 ≤ 16777216)
    && lf b 8 4 % 64 = 0 && lf b 16 4 % 64 = 0 && lf b 20 4 % 64 = 0 && lf b 24 4 = 64 + lf b 16 4 + lf b 20 4
    && (b.drop 28).take 36 = List.replicate 36 0
    && lf b 8 4 = lf b 24 4 + 2624 + 4672 + 4672 && b.length = lf b 8 4

/-- The next source after one that failed (R422). -/
def State.nextSource (s : State) : State :=
  { s with
    img := ⟨s.img.source + 1, [], false⟩
    hk := { s.hk with phase := .image } }

/-- `IMAGE` (R422): the whole image has been read. A flash slot with a malformed header is passed over, and with no flash the
mailbox is the source. -/
def execImageRead (g : ImageRead) (s : State) : Host.Outcome State Fault Refusal :=
  if s.hk.phase ≠ .image then .next s
  else
    let took (s : State) (b : List Byte) : State := { s with
      img := { s.img with bytes := b }
      hk := { s.hk with phase := .verify, source := s.img.source = 2, slot := s.img.source = 1 } }
    if s.img.source = 2 then
      -- the push is whole once it holds the bytes that its header names
      if 64 ≤ s.img.bytes.length && lf s.img.bytes 8 4 ≤ s.img.bytes.length then .next (took s s.img.bytes) else .next s
    else if g.noFlash || s.qspiBad then .next { s with img := ⟨2, [], s.img.retried⟩ }
    else if imageHeaderOk g.bytes then .next (took s g.bytes)
    else .next s.nextSource

/-- `IMAGE_PIECE` (R422): a piece of at most 4 KiB, in ascending order; one out of order restarts the push. -/
def execImagePiece (off : Nat) (data : List Byte) (s : State) : Host.Outcome State Fault Refusal :=
  if s.hk.phase ≠ .image || s.img.source ≠ 2 || data.length = 0 || decide (4096 < data.length) then .next s
  else
    let b := if off = s.img.bytes.length then s.img.bytes ++ data else if off = 0 then data else []
    .next { s with img := { s.img with bytes := b } }

/-- The signer block (R423): signer key, endorsement, signature. -/
def signerKey (b : List Byte) : List Byte := (b.drop (lf b 24 4)).take 2592
def endorsement (b : List Byte) : List Byte := (b.drop (lf b 24 4 + 2624)).take 4627
def signature (b : List Byte) : List Byte := (b.drop (lf b 24 4 + 7296)).take 4627

/-- The signer is Dennine's root key. -/
def rootSigned (b : List Byte) : Bool := Config.sha3_512 (signerKey b) = Config.rootKeyDigest

/-- VERIFY accepts an image (R424). The root key that endorses an owner's key is 2,592 bytes at the start of the
endorsement, and the signature over the signer key follows it (DEDUCED, log 25). -/
def imageValid (b : List Byte) : Bool :=
  imageHeaderOk b
    && (rootSigned b || (Config.sha3_512 ((endorsement b).take 2592) = Config.rootKeyDigest
      && Config.mldsaVerify ((endorsement b).take 2592) (Config.sha3_512 (signerKey b)) ((endorsement b).drop 2592)))
    && Config.mldsaVerify (signerKey b) (Config.sha3_512 (b.take (lf b 24 4))) (signature b)

/-- What a valid image extends (R425), and the alias key (R421). -/
def State.measureImage (s : State) (b : List Byte) : State :=
  let s := s.extend 1 (digestBytes (b.take (64 + lf b 16 4)))
  let s := s.extend 2 (digestBytes ((b.drop (64 + lf b 16 4)).take (lf b 20 4)))
  let s := (s.extend 3 (digestBytes (signerKey b))).extend 3 (digestBytes (endorsement b))
  { s with ta := { s.ta with
    ownerSigned := !rootSigned b
    aliased := true
    aliasKey := Config.aliasKey s.ta.idKey (s.ta.meas.get 0 1) (s.ta.meas.get 0 2) (s.ta.meas.get 0 3) } }

/-- `VERIFY` (R416, R424): a valid image goes on; a cold start tries the next source, a warm start the same one once more;
after the last the start is FAILED. -/
def execVerifyImage (s : State) : Host.Outcome State Fault Refusal :=
  if s.hk.phase ≠ .verify then .next s
  else if imageValid s.img.bytes then
    let s := s.measureImage s.img.bytes
    .next { s with hk := ({ s.hk with phase := .powerUp } : Hk).raiseRails }
  else if s.hk.cold then (if s.img.source < 2 then .next s.nextSource else .next s.failStart)
  else if s.img.retried then .next s.failStart
  else
    .next { s with
      img := ⟨s.img.source, [], true⟩
      hk := { s.hk with phase := .image } }

/-- `POWER_UP` (R416, R447): every rail is good. A warm start has kept those that were up (R417). -/
def execPowerUp (s : State) : Host.Outcome State Fault Refusal :=
  if s.hk.phase = .powerUp && s.hk.pg = 63 then .next { s with hk := { s.hk with phase := .memInit } } else .next s

/-- `MEM_INIT` (R416). -/
def execMemInit (s : State) : Host.Outcome State Fault Refusal :=
  if s.hk.phase = .memInit then .next { s with hk := { s.hk with phase := .test } } else .next s

/-- `TEST` (R427 to R429): defects enter with origin 0, beside the UCIe lanes that training has repaired; a block that no spare covers
fails the start. -/
def execTestDone (t : TestResult) (s : State) : Host.Outcome State Fault Refusal :=
  if s.hk.phase ≠ .test then .next s
  else
    let slice := match s.prior s.hk.cold with
      | some p => p.2.nextSlice
      | none => 0
    let s := { s with
      cad := { s.cad with tested := s.cad.tested ++ t.found.map (fun (e : CadEntry) => { e with origin := 0 }) }
      hk := { s.hk with slice := slice, badBases := t.badBases } }
    if t.badBases ≠ 0 || t.uncovered || t.tsvOver || t.sramOver then .next s.failStart
    else .next { s with hk := { s.hk with phase := .cadastre } }

/-- `CADASTRE` (R429, R433 steps 1 to 4, R434): the merged list is measured and written, unless it is too long or a channel needs too
many spare TSVs. Entries of this start carry its
`START_COUNT` (DEDUCED, log 26). -/
def execCadastrePhase (w : FlashWrite) (s : State) : Host.Outcome State Fault Refusal :=
  if s.hk.phase ≠ .cadastre then .next s
  else
    let pr := s.prior s.hk.cold
    let base := match pr with | some p => p.2 | none => CadList.empty
    let starts := base.startCount + 1
    let tested := s.cad.tested.map (fun (e : CadEntry) => { e with startNo := starts })
    let all := cadCompact s.freeCtr starts (cadMerge base.entries (s.cad.runtime ++ tested))
    let l : CadList := ⟨base.seq + 1, starts, base.nextSlice + 1, s.ident, all⟩
    let foreign := s.flashCopies.any (fun c => c.2.ident ≠ s.ident)
    let s := (s.draw 1).extend 4 (digestBytes l.bytes)
    let s := { s with hk := { s.hk with foreign := foreign } }
    if 4092 < all.length || tsvShort all then .next s.failStart
    else
      let s := s.writeFlash (pr.bind (fun p => p.1)) l w.present (w.first || w.second)
      .next { s with
        cad := { s.cad with list := l, runtime := [], tested := [], kept := some l }
        hk := { s.hk with phase := .apply } }

/-- `APPLY` (R433 step 5). -/
def execApplyCad (s : State) : Host.Outcome State Fault Refusal :=
  if s.hk.phase ≠ .apply then .next s
  else
    let s := s.applyList s.cad.list.entries
    .next { s with hk := { s.hk with phase := .configure } }

/-! ### CONFIGURE (R40, R312, R313, R419, R425) -/

/-- Number of a start phase as `PHASE` codes it. -/
def Phase.code : Phase → Nat
  | .none => 0
  | .hkBoot => 1
  | .identity => 2
  | .image => 3
  | .verify => 4
  | .powerUp => 5
  | .memInit => 6
  | .test => 7
  | .cadastre => 8
  | .apply => 9
  | .configure => 10
  | .ready => 11
  | .failed => 12

/-- `HK_START` as it reads. -/
def Hk.startReg (h : Hk) : Nat :=
  h.phase.code + 16 * b2n h.cold + 32 * b2n h.source + 64 * b2n h.slot + 128 * b2n h.cadPersist + 256 * b2n h.foreign
    + 512 * b2n h.failed + 65536 * h.slice.toNat

/-- The image's values of one partition. -/
def State.imagePart (s : State) (v : ImageValues) (p : Fin 4) : State :=
  s.updPart p (fun q => { q with
    rowsPart := v.rowsPart.getD p.val 0
    reserve := v.reserve.getD p.val 0
    repairMs := v.repairMs
    thinMax := BitVec.ofNat 4 (roleThin v.role.toNat) })

/-- The spare lane that guards a link, if the image names one (R313): SL(2p + j) guards a link of partition p. -/
def guardOf (v : ImageValues) (l : Fin 48) : Option Nat :=
  (List.range 8).find? (fun n => v.guarded.getD n none = some l && n / 2 = l.val / 12)

/-- A spare lane works: the Cadastre does not list it (R313, R431). -/
def State.spareWorks (s : State) (n : Nat) : Bool := !(s.cadNow.entries.any (fun e => e.kind = 7 && e.a 0 = 48 + n))

/-- The image's values of one link; a lane that is out takes its guarding spare lane (R313, R433). -/
def State.imageLink (s : State) (v : ImageValues) (l : Fin 48) : State :=
  let x := v.linkExpect.getD l.val 0
  let g := guardOf v l
  let ok := match g with | some n => s.spareWorks n | none => false
  s.updLink l (fun k => { k with
    enable := v.linkEnable.getD l.val false
    halfOk := v.linkHalfOk.getD l.val true
    precode := v.linkPrecode.getD l.val false
    laneLimit := v.laneLimit.getD l.val 64
    expDev := x.truncate 12
    expLink := (x >>> 12).truncate 6
    expAny := x.getLsbD 18
    guarded := g.isSome
    spareIn := ok && k.retired ≠ 0
    spareLane := BitVec.ofNat 3 (g.getD 0)
    sparePos := ok && !k.retired.getLsbD 0 && k.retired.getLsbD 1
    st := if v.linkEnable.getD l.val false then .detect else .disabled })

/-- `CONFIGURE` (R40, R419, R425): image values are written, memories read 0, and the device is READY. -/
def execConfigure (v : ImageValues) (s : State) : Host.Outcome State Fault Refusal :=
  if s.hk.phase ≠ .configure then .next s
  else
    let t := powerSplit v.share.toNat v.budget.toNat v.spill
    let s : State := { s with
      mem := []
      memErr := []
      pw := { Power.reset with
        role := v.role, spill := v.spill, shareC := v.share, budget := v.budget, curC := t.1, curS := t.2 }
      rowsDev := v.rowsDev
      devId := v.devId
      fwVer := BitVec.ofNat 32 (lf s.img.bytes 12 4)
      inc := Config.incarnation s.freeCtr
      repairImg := v.repairMs
      th := { s.th with cmpWarn := v.cmpWarn, cmpThrottle := v.cmpThrottle, dramThrottle := v.dramThrottle, hyst := v.hyst }
      spareGuard := (List.range 8).foldl (fun t n => t.set none n ((v.guarded.getD n none).map (fun l => l.val))) []
      hk := { s.hk with injection := v.injection } }
    let s := s.draw 1
    let s := (List.finRange 4).foldl (fun s p => s.imagePart v p) s
    let s := (List.finRange 48).foldl (fun s l => s.imageLink v l) s
    let s := s.extend 5 (leBytes 4 s.hk.startReg ++ s.infoBlock 0)
    .next { s with
      hi := { s.hi with st := .ready }
      hk := { s.hk with phase := .ready, startTime := BitVec.ofNat 32 (s.hkCount - s.hk.startHk).toNat } }

/-! ### SPDM (R426) -/

/-- Answer an SPDM request: its response code, the state it leaves, its body. Nothing answers before HK_BOOT (R418); a
request that the negotiated state does not allow gets `ERROR` (PRESUMED from SPDM 1.3, log 27). -/
def State.spdmAnswer (s : State) (allowed : Bool) (code : Nat) (f : Spdm → Spdm) (req body : List Byte) : State :=
  if s.hk.phase = .none then s
  else if allowed then { s with spdm := { f s.spdm with response := Config.spdmFrame code req body } }
  else { s with spdm := { s.spdm with response := Config.spdmFrame 0x7F req [] } }

/-- `GET_VERSION` (R426): it resets what has been negotiated. -/
def execGetVersion (req : List Byte) (s : State) : Host.Outcome State Fault Refusal :=
  .next (s.spdmAnswer true 0x04 (fun _ => ⟨true, false, false, []⟩) req [0x13])
/-- `GET_CAPABILITIES` (R426). -/
def execGetCapabilities (req : List Byte) (s : State) : Host.Outcome State Fault Refusal :=
  .next (s.spdmAnswer s.spdm.version 0x61 (fun n => { n with caps := true }) req [])
/-- `NEGOTIATE_ALGORITHMS` (R426). -/
def execNegotiateAlgorithms (req : List Byte) (s : State) : Host.Outcome State Fault Refusal :=
  .next (s.spdmAnswer (s.spdm.version && s.spdm.caps) 0x63 (fun n => { n with algs := true }) req [])
/-- The responder has been negotiated, and the alias key exists. -/
def State.spdmReady (s : State) : Bool := s.spdm.version && s.spdm.caps && s.spdm.algs && s.ta.aliased
/-- The certificate chain of slot 0. -/
def State.chain (s : State) : List Byte := Config.certChain s.ta.idKey s.ta.aliasKey
/-- `GET_DIGESTS` (R426). -/
def execGetDigests (req : List Byte) (s : State) : Host.Outcome State Fault Refusal :=
  .next (s.spdmAnswer s.spdmReady 0x01 id req (digestBytes s.chain))
/-- The slot that a request names, in its third byte, and the measurement index, in its fourth (the places are PRESUMED, log 27). -/
def spdmSlot (req : List Byte) : Nat := (req.getD 2 0).toNat % 16
def spdmIndex (req : List Byte) : Nat := (req.getD 3 0).toNat
/-- `GET_CERTIFICATE` (R426): slot 0 only. -/
def execGetCertificate (req : List Byte) (s : State) : Host.Outcome State Fault Refusal :=
  .next (s.spdmAnswer (s.spdmReady && spdmSlot req = 0) 0x02 id req s.chain)
/-- `CHALLENGE` (R426): signed with the alias key; slot 0 only. -/
def execChallenge (req : List Byte) (s : State) : Host.Outcome State Fault Refusal :=
  .next (s.spdmAnswer (s.spdmReady && spdmSlot req = 0) 0x03 id req
    (Config.mldsaSign s.ta.aliasKey (req ++ digestBytes s.chain ++ s.measBytes)))
/-- The measurement blocks of an index (R426): 1 to 8 one register as a raw digest, 0xFF all eight, 0 their number (PRESUMED from SPDM
1.3, log 27); no other is supported. -/
def State.measured (s : State) (n : Nat) : Option (List Byte) :=
  if n = 0 then some [8] else if n ≤ 8 then some (leBytes 64 (s.ta.meas.get 0 (n - 1)).toNat)
  else if n = 255 then some s.measBytes else none
/-- `GET_MEASUREMENTS` (R426): the registers as they stand, signed with the alias key. -/
def execGetMeasurements (req : List Byte) (s : State) : Host.Outcome State Fault Refusal :=
  match s.measured (spdmIndex req) with
  | some bs => .next (s.spdmAnswer s.spdmReady 0x60 id req (bs ++ Config.mldsaSign s.ta.aliasKey (req ++ bs)))
  | none => .next (s.spdmAnswer false 0x60 id req [])

end Sys2Proof.Machine
end

