-- ==== Sys2Proof/Machine/Host.lean ====
section
/-! DEFINITION. What the host does to the device beside its registers and rings: the UCIe modules (R363), CXL.mem reads and
writes through BAR2 (R365 to R370, R418, R439), snoops, completions and back-invalidation responses. -/

namespace Sys2Proof.Machine

/-! ### The attach (R362, R363) -/

/-- The modules that the link runs on: all four, or the first pair with both working, or none. -/
def pairsInUse (m : BitVec 4) : BitVec 4 :=
  if m = 15 then 15 else if m.getLsbD 0 && m.getLsbD 1 then 3 else if m.getLsbD 2 && m.getLsbD 3 then 12 else 0

/-- One lane repair of a module is a defect (R409, R427, R431): the start that runs enters it with those of its tests, and a READY
device at once. Which lane it is, is free (log 106). -/
def State.repairedLane (s : State) (m j : Nat) : State :=
  let e : CadEntry := ⟨8, 0, locBytes m 0 0 0, (Config.ucieLane s.freeCtr m j).zeroExtend 32, s.cad.list.startCount⟩
  if s.hk.phase = .ready || s.hk.phase = .failed then s.addDefect 8 0 e.locA e.locB
  else if s.cad.tested.any e.same then s
  else { s with cad := { s.cad with tested := s.cad.tested ++ [e] } }

/-- The lane repairs of a training, four bits of count for each module (registers of 12). -/
def State.repairedLanes (s : State) (rep : BitVec 16) : State :=
  (((List.range 4).flatMap (fun m => (List.range (bits rep.toNat (4 * m + 3) (4 * m))).map (fun j => (m, j)))).foldl
    (fun s e => s.repairedLane e.1 e.2) s).draw 1

/-- The end of training, with the modules that work, the rate reached and the lanes repaired. -/
def State.ucieTrained (s : State) (m : BitVec 4) (r : BitVec 2) (rep : BitVec 16) : State :=
  let rate : BitVec 2 := if r = 3 then 0 else r
  let up := pairsInUse m ≠ 0 && rate ≠ 0
  let mods : BitVec 4 := if up then pairsInUse m else 0
  let s := s.repairedLanes rep
  let hi := s.hi
  let degraded := up && (mods ≠ 15 || rate = 1)
  { s with hi := { hi with
      modules := mods
      rate := if up then rate else 0
      repairs := rep
      err := hi.err ||| (if rep ≠ 0 then 2 else 0) ||| (if degraded then 4 else 0) } }

/-- `UCIE_TRAINED` (R363, R427). Rate code 3 is reserved, and counts as down. -/
def execUcieTrained (m : BitVec 4) (r : BitVec 2) (rep : BitVec 16) (s : State) : Host.Outcome State Fault Refusal :=
  .next (s.ucieTrained m r rep)

/-! ### Reach of a BAR2 offset (R367, R418, R439) -/

/-- Size of BAR2 in bytes. -/
def bar2Size : Nat := 2 ^ 40

/-- CXL.mem is shut: the device is STARTING or RESETTING, or a memory test runs on a stack reached (R418, R439). -/
def State.hostShut (s : State) (ps : List (Nat × Nat × Bool)) : Bool :=
  s.hi.st = .starting || s.hi.st = .resetting
    || (s.hk.mtBusy && ps.any (fun e => s.hk.mtStacks.getLsbD (keyStack e.2.1)))

/-- The modules in use (R363). -/
def State.modulesUp (s : State) : List (Fin 4) := (List.finRange 4).filter (fun m => s.hi.modules.getLsbD m.val)

/-- The partition at whose base die the next host request enters: module Mm decodes its flits on the base die of Pm, and the modules
take their turns (R19, R363; which takes the first is free, log 93). -/
def State.entryPart (s : State) : Fin 4 :=
  match s.modulesUp with
  | [] => 0
  | [m] => m
  | ms => ms.getD ((Config.firstModule + s.hi.entries) % ms.length) 0

/-- A partition whose base die a request needs, and whose PLL does not run: the one that it enters, those that forward it, and the
homes of its bytes (R19, R21, R26 to R28, R363). -/
def State.asleep (s : State) (e : Fin 4) (ps : List (Nat × Nat × Bool)) : Option (Fin 4) :=
  if (List.finRange 4).all (fun p => (s.part p).pll = .running) then none
  else (((ps.map (fun k => homeOf k.2.1)).dedup).flatMap (route e)).find? (fun p => (s.part p).pll ≠ .running)

/-- A request waits (R26 to R28, R368): it is an arrival at the first partition on its way whose PLL does not run, which holds it; or
it waits for a bank that a step holds (R231), for a PARTITION reset of its home (R442), or for the answer to a back-invalidation of a
line that it reaches (DEDUCED, log 37). -/
def State.hostWaits (s : State) (e : Fin 4) (ps : List (Nat × Nat × Bool)) (r : Held) : Option State :=
  match s.asleep e ps with
  | some p => some (s.arriveHeld p r)
  | none => if ps.any (fun e => s.backInv.contains (e.2.1 / 128) || (s.part (homeOf e.2.1)).resetting) || s.banksWait (ps.map (fun e => .dram e.2.1)) then some { s with hi := { s.hi with waiting := s.hi.waiting ++ [r] } }
    else none

/-- Lines of PART or DEV memory among the places. -/
def coherentLines (ps : List (Nat × Nat × Bool)) : List Nat := (ps.filterMap (fun e => if e.2.2 then some (e.2.1 / 128) else none)).dedup

/-- Count a host access of BANK memory at the stacks' interfaces (06, Registers). -/
def State.hostTraffic (s : State) (write : Bool) (ps : List (Nat × Nat × Bool)) : State :=
  let keys := (ps.filter (fun e => !e.2.2)).map (fun e => e.2.1)
  ((keys.map keyStack).dedup).foldl (fun s st =>
    let n := (keys.filter (fun k => keyStack k = st)).length
    s.addTraffic st (if write then 0 else n) (if write then n else 0) 0) s

/-- Record that the host may hold a line (R368). A full directory back-invalidates an entry to make room. -/
def State.recordLine (s : State) (excl : Bool) (l : Nat) : State :=
  let others := (s.hostDir.filter (fun (e : Nat × Nat) => decide (e.1 ≠ l))).map Prod.fst
  let s := match Config.dirVictim s.freeCtr with
    | some n => match others[n % max 1 others.length]? with
      | some v => s.backInvalidate [v]
      | none => s
    | none => s
  { s.draw 1 with hostDir := s.hostDir.set 0 l (if excl then 2 else 1) }

/-! ### Reads and writes (R368 to R370) -/

/-- Serve a host read that entered at a partition's base die. -/
def State.hostRead64 (s : State) (e : Fin 4) (off n : Nat) (excl : Bool) : State :=
  let ps := s.hostPlaces off n
  if s.hostShut ps then { s with hostRsp := some (List.replicate n 0xFF#8, true) }
  else match s.hostWaits e ps (.read e off n excl) with
    | some s => s
    | none =>
      let s := (s.touch ((ps.map (fun e => e.2.1 / 64)).dedup)).hostTraffic false ps
      let s := (coherentLines ps).foldl (fun s l => (s.lineAccess false false l).recordLine excl l) s
      { s with hostRsp := some (s.hostAnswer n ps) }

/-- The next host request takes the next module's turn (R363). -/
def State.takeEntry (s : State) : State := { s with hi := { s.hi with entries := s.hi.entries + 1 } }

/-- `HOST_MEM_READ` (R363, R367, R368, R370). -/
def execHostMemRead (off n : Nat) (excl : Bool) (s : State) : Host.Outcome State Fault Refusal :=
  if bar2Size < off + n then .fault .beyondBar2 else .next ((s.hostRead64 s.entryPart off n excl).takeEntry)

/-- A byte of a reserved area that no page-table pool holds (R270, R367). -/
def State.reservedAt (s : State) (o : Nat) : Bool :=
  match s.bar2At o with
  | some (.part p x _) =>
    let q := s.part p
    let lo := q.poolBase.toNat
    decide (s.reserveBase p ≤ x) && !(decide (lo ≤ x) && decide (x < lo + q.poolSize.toNat * 2 ^ 21))
  | _ => false

/-- Discard copies of SHARED_RO regions of groups in every stream cache (R277). -/
def State.dropShared (s : State) (gs : List Nat) : State :=
  { s with clusters := s.clusters.map (fun (e : Nat × Cluster) =>
      (e.1, { e.2 with stream := e.2.stream.filter (fun (y : Nat × Option Copy) =>
        !(gs.contains y.1 && (match y.2 with | some k => k.sharedRO | none => false))) })) }

/-- Perform a host write: bytes, poison, the cache lines, the copies that it must discard, and the flags that it raises (R277,
R295, R296, R370, R398, R399). -/
def State.hostStore (s : State) (ps : List (Nat × Nat × Bool)) (data : List Byte) (poison excl : Bool) : State :=
  let gs := (ps.map (fun e => e.2.1 / 64)).dedup
  let s := (s.dropShared gs).writeAt (ps.any (fun e => e.2.2)) (ps.map (fun e => (Place.dram e.2.1, data.getD e.1 0)))
  let s := if poison then s.poisonPlaces (ps.map (fun e => Place.dram e.2.1)) else s
  let s := s.hostTraffic true ps
  let s := (coherentLines ps).foldl (fun s l => (s.lineAccess true true l).recordLine excl l) s
  let blocks := (ps.map (fun e => s.blockNo (.dram e.2.1))).dedup
  let s := { s with weightSeen := blocks.foldl (fun (t : Tbl Bool) b => t.set false b false) s.weightSeen }
  s.retest

/-- Serve a host write that entered at a partition's base die. -/
def State.hostWrite64 (s : State) (e : Fin 4) (off : Nat) (data : List Byte) (poison excl : Bool) : State :=
  let ps := s.hostPlaces off data.length
  if s.hostShut ps || ps.isEmpty then s
  else match s.hostWaits e ps (.store e off data poison excl) with
    | some s => s
    | none => s.hostStore ps data poison excl

/-- `HOST_MEM_WRITE` (R295, R296, R363, R367, R368, R370). -/
def execHostMemWrite (off : Nat) (data : List Byte) (poison excl : Bool) (s : State) : Host.Outcome State Fault Refusal :=
  if bar2Size < off + data.length then .fault .beyondBar2
  else if (s.hi.st = .ready || s.hi.st = .faulted) && (List.range data.length).any (fun j => s.reservedAt (off + j)) then
    .fault .reservedAreaWrite
  else .next ((s.hostWrite64 s.entryPart off data poison excl).takeEntry)

/-- A host request that has waited goes on; what else has waited is not the host's. -/
def State.serveHost (s : State) : Held → State
  | .read e off n excl => s.hostRead64 e off n excl
  | .store e off data poison excl => s.hostWrite64 e off data poison excl
  | _ => s

/-- The host requests that waited for back-invalidations are tried again, oldest first. -/
def State.serveWaiting (s : State) : State :=
  s.hi.waiting.foldl State.serveHost { s with hi := { s.hi with waiting := [] } }

/-! ### The rest of CXL (R365, R368) -/

/-- `HOST_SNOOP` (R365): the device holds no host line, so the answer is a miss and nothing changes. -/
def execHostSnoop (_ : Addr) (s : State) : Host.Outcome State Fault Refusal := .next s

/-- `HOST_CXL_COMPLETION` (R365, R390, R391): the oldest write or interrupt on its way is done, and the next may proceed. -/
def execHostCxlCompletion (s : State) : Host.Outcome State Fault Refusal :=
  match s.cxlOut with
  | [] => .next s
  | r :: rest => .next ({ s with cxlOut := rest }.hostTakes r)

/-- `BACK_INVALIDATION_RESPONSE` (R368): the host no longer holds the line, and what it had changed comes back as a write of
the host's (R277); requests of the host that waited for it go on. An answer to a snoop that was not sent has no effect. -/
def execBackInvalidationResponse (line : Nat) (data : Option (List Byte)) (s : State) : Host.Outcome State Fault Refusal :=
  if s.backInv.contains line then
    let held := s.hostDir.get 0 line
    let s := { s with backInv := s.backInv.erase line, hostDir := s.hostDir.set 0 line 0 }
    match data with
    | some bs =>
      if held = 2 then
        let ps := (dramRun (128 * line) 128).zip (bs.take 128)
        let s := (s.dropShared [2 * line, 2 * line + 1]).lineAccess true true line
        let s := { s with weightSeen := s.weightSeen.set false (s.blockNo (.dram (128 * line))) false }
        .next (s.writeAt true ps).retest.serveWaiting
      else .next s.serveWaiting
    | none => .next s.serveWaiting
  else .next s

end Sys2Proof.Machine
end

