-- ==== Sys2Proof/Machine/LinkIn.lean ====
section
/-! DEFINITION. The receiving side of a link (R315, R318 to R337, R354, R355): frames, the checks of R322 and R326, what each
message does, and what replies bring to those that await them. -/

namespace Sys2Proof

/-! ### The form of a message (R324, R325, R333) -/

/-- Mark of a message of a coded chunk: 0 only, 1 first, 2 middle, 3 last. -/
def Msg.mark (m : Msg) : Nat := Machine.bits m.op 7 6
/-- Target format of a `RED`. -/
def Msg.target (m : Msg) : Nat := Machine.bits m.op 5 2

/-- Lengths that a type allows, in units of 32 bytes. -/
def Msg.lenOk (m : Msg) : Bool :=
  let n := m.len
  match m.type with
  | 0x01 => decide (1 ≤ n) && decide (n ≤ 128)
  | 0x02 => decide (n ≤ 128)
  | 0x03 => decide (1 ≤ n) && decide (n ≤ 128)
  | 0x04 => decide (1 ≤ n) && decide (n ≤ 128)
  | 0x06 => n = 2
  | 0x07 => decide (1 ≤ n) && decide (n ≤ 129)
  | _ => n = 0

/-- Fields of a `PS_REQ` outside their ranges (R334; refused as `BAD_MESSAGE`, DEDUCED, log 36). -/
def psReqBad (b : List Byte) : Bool :=
  decide (16383 < Machine.lf b 0 2) || Machine.lf b 3 1 = 0 || !([3, 5, 6].contains (Machine.lf b 12 1)) || decide (2 ≤ Machine.lf b 13 1)
    || Machine.lf b 14 2 ≠ 0 || Machine.lf b 22 2 ≠ 0 || Machine.lf b 24 4 % 2048 ≠ 0 || Machine.lf b 28 4 ≠ 0 || Machine.lf b 38 2 ≠ 0
    || Machine.lf b 46 18 ≠ 0

/-- A message breaks R324 or R325. -/
def Msg.broken (m : Msg) : Bool :=
  let t := m.type
  let red := t = 0x04
  let shard := t = 0x07
  decide (64 ≤ m.f 1 1) || m.cls = 3 || !m.lenOk || m.data.length ≠ (if t = 0x01 then 0 else 32 * m.len)
    || (m.coded && !(red || shard)) || (m.poison && !(t = 0x02 || t = 0x03 || red || shard))
    || (m.rdatum && !(t = 0x01 || t = 0x02 || t = 0x03)) || (m.ext ≠ shard)
    || ((red || shard) && !m.coded && m.mark ≠ 0)
    || (red && (m.op % 4 = 3 || !([0, 1, 0xC].contains m.target)
      || (if m.coded then m.target ≠ 1 || m.fmt ≠ 0xA else m.fmt ≠ m.target)))
    || (t = 0x06 && psReqBad m.data) || (m.len = 0 && m.mdat ≠ 0)

/-- A type that a frame may carry (R325); `IDENT` belongs to IDENTIFY alone. -/
def Msg.known (m : Msg) : Bool := decide (1 ≤ m.type) && decide (m.type ≤ 0x0B)

/-- The message stays in the receive buffer as a part of a chunk that is not whole. -/
def Msg.keepsCredit (m : Msg) : Bool := m.coded && !m.broken && (m.mark = 1 || m.mark = 2)

end Sys2Proof

namespace Sys2Proof.Machine

/-! ### Replies (R322, R324, R326, R331) -/

/-- Send an `ACK`; a refusal is counted. Reason 5 answers a message that was performed (R332). -/
def State.ack (s : State) (l : Fin 48) (m : Msg) (reason : Nat) : State :=
  let s := if reason = 0 || reason = 5 then s else s.updLink l (fun k => { k with refused := satAdd k.refused 1 })
  s.sendMsg l (s.mkMsg { MsgSpec.zero with type := 0x09, dctx := s.farCtx m.dctx l, tag := m.tag, op := reason })

/-- Refuse a message, as its type is refused. -/
def State.refuseMsg (s : State) (l : Fin 48) (m : Msg) (reason : Nat) : State :=
  if m.type = 0x01 then
    let s := s.updLink l (fun k => { k with refused := satAdd k.refused 1 })
    s.sendMsg l (s.mkMsg { MsgSpec.zero with type := 0x02, dctx := s.farCtx m.dctx l, tag := m.tag, op := reason })
  else s.ack l m reason

/-- The reason why a message is refused before its address is looked at (R322 step 1, R326): broken, no such context, no
grant. A FAULTED context takes no messages (DEDUCED, log 36). -/
def State.denies (s : State) (l : Fin 48) (m : Msg) : Nat :=
  let p := ownerOfLink l
  let c := s.ctx p m.dctx
  if m.broken then 7
  else if c.st = .free || c.st = .faulted || !s.granted p m.dctx l then 1
  else 0

/-- The message Datum does not match (R329). -/
def mdatBad (m : Msg) : Bool := decide (m.mdat ≠ if m.data.isEmpty then 0 else (crc32c m.data).toNat)

/-- Checks of an access that a message makes: 2 unmapped, 3 refused; or the translations. -/
def State.reach (s : State) (l : Fin 48) (m : Msg) (as : List Nat) (ok : Region → Bool) : Except Nat (List Xlat) :=
  match s.access (ownerOfLink l) m.dctx as ok with
  | .ok ts => .ok ts
  | .error b => .error (if b.1 = 0x13 then 2 else 3)

/-- What a message that its checks accept is answered with (R332, R397): poison that it carries, or that an addition meets. -/
def State.landReason (s : State) (poison adds : Bool) (ts : List Xlat) : State × Nat :=
  if poison then (s, 5)
  else if adds then
    let s := s.touch (groupsOf (placesOf ts))
    (s, if (s.firstPoison (placesOf ts)).isSome then 5 else 0)
  else (s, 0)

/-- The message has been accepted and acknowledged, and is still to be performed (R279). -/
def State.hasLanded (s : State) (l : Fin 48) (m : Msg) : Bool := (s.link l).landed.contains m

/-- Perform an accepted message, or keep it in the landing buffer while something holds its access (R322 step 3; the flag is
false). -/
def State.perform (s : State) (l : Fin 48) (m : Msg) (ts : List Xlat) (f : State → List Xlat → State) : State × Bool :=
  match s.heldUp (ownerOfLink l) true ts with
  | some s => (s.updLink l (fun k => { k with landed := if k.landed.contains m then k.landed else k.landed ++ [m] }), false)
  | none =>
    let s := s.updLink l (fun k => { k with landed := k.landed.erase m })
    (f (s.cachePages (ownerOfLink l) 10 m.dctx ts) ts, true)

/-- A write, reduction or add whose context may send it (R322): its addresses and region are checked, then its Datum; then it is
accepted and acknowledged, and then performed. One that landed before is performed under the checks that accepted it; where its
addresses have gone, nothing is left to write. -/
def State.accept (s : State) (l : Fin 48) (m : Msg) (as : List Nat) (ok : Region → Bool) (datum poison adds : Bool)
    (answer : State → Nat → State) (f : State → List Xlat → State) : State × Bool :=
  if s.hasLanded l m then
    match s.translateAll (ownerOfLink l) m.dctx as with
    | some ts => s.perform l m ts f
    | none => (s.updLink l (fun k => { k with landed := k.landed.erase m }), true)
  else match s.reach l m as ok with
    | .error r => (answer s r, true)
    | .ok ts =>
      if datum then (answer s 4, true)
      else
        let r := s.landReason poison adds ts
        (answer r.1 r.2).perform l m ts f

/-- A message of one part: refused, or accepted, acknowledged and performed. -/
def State.checked (s : State) (l : Fin 48) (m : Msg) (as : List Nat) (ok : Region → Bool) (adds : Bool)
    (f : State → List Xlat → State) : State × Bool :=
  match (if s.hasLanded l m then 0 else s.denies l m) with
  | 0 => s.accept l m as ok (mdatBad m) m.poison adds (fun s r => s.ack l m r) f
  | r => (s.refuseMsg l m r, true)

/-! ### Requests and writes of peers -/

/-- A block of 4 KiB, whole. -/
def blockMsg (m : Msg) : Bool := m.addr % 4096 = 0 && m.len = 128

/-- Answer a read with what stands in memory (R325, R330, R331). -/
def State.answerRead (s : State) (l : Fin 48) (m : Msg) (poison : Bool) (data : List Byte) : State :=
  let datum := if m.rdatum then s.datumAt (ownerOfLink l) m.dctx m.addr else 0
  s.sendMsg l (s.mkMsg { MsgSpec.zero with
    type := 0x02
    flags := m.cls + (if poison then 8 else 0) + (if m.rdatum then 16 else 0)
    dctx := s.farCtx m.dctx l
    tag := m.tag
    len := m.len
    addr := m.addr
    rdat := datum
    data := data })

/-- A remote read is parked here on poison (R399). -/
def State.readParked (s : State) (l : Fin 48) (m : Msg) : Bool := s.parked.any (fun o => o.who = .read l m)

/-- `RD_REQ` (R322, R330, R331, R399). A Datum-checked region is read in whole blocks of 4 KiB alone, and a Datum asked for is that of
a Datum-checked region. A parked read is still to be performed: it stays in the receive buffer (R318, R320). -/
def State.serveRead (s : State) (l : Fin 48) (m : Msg) : State × Bool :=
  let p := ownerOfLink l
  let as := addrRun m.addr (32 * m.len)
  if s.readParked l m then (s, false)
  else match s.denies l m with
    | 0 => match s.reach l m as (fun r => if r.datum then blockMsg m else !m.rdatum) with
      | .error r => (s.refuseMsg l m r, true)
      | .ok ts => match (if mdatBad m then none else s.heldUp p false ts) with
        | some s => (s, false)
        | none =>
          if mdatBad m then (s.refuseMsg l m 4, true)
          else
          let s := s.cachePages p 10 m.dctx ts
          let (s, bad) := s.poisonIn as ts
          let s := (s.accessLines false (Class.ofField m.cls).allocates ts).countTraffic false false ts
          match bad with
          | some (a, pl, true) => (s.park p m.dctx (.read l m) pl a 0 0, false)
          | some _ => (s.answerRead l m true (s.bytesAt (placesOf ts)), true)
          | none => (s.answerRead l m false (s.bytesAt (placesOf ts)), true)
    | r => (s.refuseMsg l m r, true)

/-- `WR` (R322, R330, R332). -/
def State.serveWrite (s : State) (l : Fin 48) (m : Msg) : State × Bool :=
  let p := ownerOfLink l
  s.checked l m (addrRun m.addr (32 * m.len))
    (fun r => r.writable m.rdatum && (!m.rdatum || blockMsg m)) false (fun s ts =>
      let s := s.devWrite none ts m.data
      let s := if m.rdatum then s.setDatums p m.dctx [(m.addr, m.rdat)] else s
      if m.poison then s.poisonPlaces (placesOf ts) else s)

/-- Perform updates of elements for a peer (R92, R322, R332, R397): those whose group is poisoned leave it so. -/
def State.peerReduce (s : State) (p : Fin 4) (x : Fin 16) (rop fmt : Nat) (us : List (Nat × Nat)) (ts : List Xlat) : State :=
  let s := (s.accessLines true true ts).touch (groupsOf (placesOf ts))
  let good (u : Nat × Nat) : Bool := (bitBytes u.1 (rawWidth fmt)).all (fun a => match s.translate p x a with
    | some t => (s.firstPoison [t.place]).isNone
    | none => false)
  let us' := us.filter good
  let s := s.reduceAll p x rop fmt (freeOrder s.freeCtr us'.length us') |>.draw 1
  (s.countAtomics (s.placesOfUpdates p x us)).retest

/-- Elements of a raw message. -/
def rawUpdates (m : Msg) : List (Nat × Nat) :=
  ((unpackAll (rawWidth m.target) m.data).zipIdx).map (fun (e : Nat × Nat) => (8 * m.addr + e.2 * rawWidth m.target, e.1))

/-- A raw `RED` (R92, R322, R332). -/
def State.serveReduce (s : State) (l : Fin 48) (m : Msg) : State × Bool :=
  s.checked l m (addrRun m.addr (32 * m.len)) Region.atomicOk true (fun s ts =>
    if m.poison then s.poisonPlaces (placesOf ts)
    else s.peerReduce (ownerOfLink l) m.dctx (m.op % 4) m.target (rawUpdates m) ts)

/-- `FLAG_ADD` (R294, R322). -/
def State.serveFlag (s : State) (l : Fin 48) (m : Msg) : State × Bool :=
  s.checked l m (addrRun m.addr 8) (fun r => r.atomicOk && m.addr % 8 = 0) true (fun s ts =>
    match s.firstPoison (placesOf ts), (placesOf ts).head? with
    | none, some (.dram k) => s.addFlag k m.value
    | _, _ => s)

/-- `PS_REQ` (R244, R334). -/
def State.serveRequest (s : State) (l : Fin 48) (m : Msg) : State × Bool :=
  let p := ownerOfLink l
  let r := match s.denies l m with
    | 0 =>
      if s.seqDenied p m.dctx (lf m.data 0 2) then 1
      else if mdatBad m then 4
      else if 64 ≤ (s.part p).serveQ.length then 6
      else 0
    | r => r
  let s := s.ack l m r
  if r = 0 then
    let s := s.updPart p (fun q => { q with serveQ := q.serveQ ++ [(l.val, m.dctx.val, m.data)] })
    ((s.startServes p).schedule p, true)
  else (s, true)

/-! ### Shards (R333, R335 to R337) -/

/-- The packet of a collective. -/
def State.collPkt (s : State) (c : Coll) : Option Pkt := s.pkts.find? (fun k => c.of k && k.kind = .collective && k.lane = 0)

/-- The elements of a box that fall in a collective's receive tensor are checked, accepted, acknowledged and performed (R322,
R336). -/
def State.keepBox (s : State) (l : Fin 48) (k : Pkt) (m : Msg) (vals : Nat → Nat) (datum poison : Bool)
    (answer : State → Nat → State) : State × Bool :=
  let p := ownerOfLink l
  let hd := k.recvBytes
  let d := shardDesc hd
  let acc := bit (pf k.pkt 37 1) 0
  let us := shardUpdates hd (m.data.take 32) vals
  let as := (us.flatMap (fun u => bitBytes u.1 d.w)).dedup
  let late := s.hasLanded l m
  s.accept l m as (if acc then Region.atomicOk else Region.writable false) datum poison acc answer (fun s ts =>
    let s := if poison then s.poisonPlaces (placesOf ts)
      else if acc then s.peerReduce p m.dctx 0 d.fmt us ts
      else
        let t : Tbl Byte := us.foldl (fun t u => putBits (s.devBytes k) t u.1 d.w u.2) []
        match s.translateAll p m.dctx (t.map Prod.fst) with
        | some tw => s.devWrite none tw (t.map Prod.snd)
        | none => s
    if late then s.collNext k 5 else s)

/-- What a `SHARD` is checked for before its elements are looked at: its reason, and the packet of its collective. A source
format other than the receive tensor's is refused (DEDUCED, log 34). -/
def State.shardReason (s : State) (l : Fin 48) (m : Msg) : Except Nat Pkt :=
  match (if s.hasLanded l m then 0 else s.denies l m) with
  | 0 => match (s.collAt (ownerOfLink l) m.dctx (m.value % 65536)).bind s.collPkt with
    | none => .error 6
    | some k =>
      let d := shardDesc k.recvBytes
      let n := boxCount m.data
      let ok := if m.coded then m.fmt = 0xA && d.fmt = 1 else m.fmt = d.fmt
      if !ok then .error 3
      else if (if m.coded then n ≠ chunkValues else decide (8 * (m.data.length - 32) < n * d.w)) then .error 7
      else .ok k
  | r => .error r

/-- A message whose collective has gone after it was accepted has nothing left to write; another is refused. -/
def State.lapsed (s : State) (l : Fin 48) (m : Msg) (answer : State → Nat → State) (r : Nat) : State × Bool :=
  if s.hasLanded l m then (s.updLink l (fun k => { k with landed := k.landed.erase m }), true) else (answer s r, true)

/-- A raw `SHARD`. -/
def State.serveShard (s : State) (l : Fin 48) (m : Msg) : State × Bool :=
  let answer (s : State) (r : Nat) : State := s.ack l m r
  match s.shardReason l m with
  | .error r => s.lapsed l m answer r
  | .ok k =>
    let w := (shardDesc k.recvBytes).w
    s.keepBox l k m (fun n => bitsAt (m.data.drop 32) (n * w) w) (mdatBad m) m.poison answer

/-- Write a record of a reply, and the data that it brings, into the mailbox of a context's save area (R348, R354); the layout
belongs to the device, so the record's bytes are free (log 38). -/
def State.writeMail (s : State) (p : Fin 4) (x : Fin 16) (m : Msg) : State :=
  let used := ((s.ctx p x).mail.map (fun e => 32 + e.msg.data.length)).sum
  (s.writePart p.val ((s.ctx p x).save.toNat + 2 ^ 21 + used % 2 ^ 21)
    ((List.range 32).map (Config.controlByte s.freeCtr) ++ m.data)).draw 1

/-- An `END` takes effect for its collective (R337). -/
def State.endArrives (s : State) (l : Fin 48) (m : Msg) : State :=
  match (s.collAt (ownerOfLink l) m.dctx (m.value % 65536)).bind s.collPkt with
  | some k => (s.updColl k (fun c => { c with endIn := c.endIn.erase (m.src, l.val) })).collNext k 5
  | none => s

/-- `END` (R337): kept in the mailbox of a context that is out (R354). -/
def State.serveEnd (s : State) (l : Fin 48) (m : Msg) : State × Bool :=
  let p := ownerOfLink l
  match s.denies l m with
  | 0 => match s.collAt p m.dctx (m.value % 65536) with
    | none => (s.ack l m 6, true)
    | some _ =>
      let s := s.ack l m 0
      if (s.ctx p m.dctx).st = .running then (s.endArrives l m, true)
      else ((s.writeMail p m.dctx m).updCtx p m.dctx (fun c => { c with
        mail := c.mail ++ [⟨l, ⟨0, ⟨.packet 0 0, p, m.dctx, 0, 0⟩, m, false⟩, m⟩] }), true)
  | r => (s.ack l m r, true)

/-! ### Coded chunks (R333) -/

/-- Answer every message of a chunk alike. -/
def State.ackAll (s : State) (l : Fin 48) (ms : List Msg) (r : Nat) : State := ms.foldl (fun s m => s.ack l m r) s

/-- The first refusal of a chunk's messages. -/
def firstReason (rs : List Nat) : Nat := (rs.find? (· ≠ 0)).getD 0

/-- The messages of a chunk belong together: same type, context and target, in their order. -/
def chunkWhole (ms : List Msg) : Bool :=
  match ms with
  | [] => false
  | m :: rest => rest.all (fun n => n.type = m.type && n.dctx = m.dctx && n.addr = m.addr && n.op % 64 = m.op % 64
      && n.value = m.value && (m.type ≠ 0x07 || n.data.take 32 = m.data.take 32))

/-- The coded bytes of a chunk. -/
def chunkData (ms : List Msg) : List Byte := ms.flatMap (fun m => if m.type = 0x07 then m.data.drop 32 else m.data)

/-- The values of a chunk; none where it is malformed (R140). -/
def chunkVals (ms : List Msg) : Option (List Nat) :=
  let b := chunkData ms
  if b.length = chunkLenAt (fun n => b.getD n 0) 0 then contourExpand false b else none

/-- A whole coded chunk is expanded; its messages are accepted and acknowledged together, and the chunk is performed. Its last message
stands for it in the landing buffer. -/
def State.serveChunk (s : State) (l : Fin 48) (ms : List Msg) : State × Bool :=
  match ms.getLast? with
  | none => (s, true)
  | some m =>
    let answer (s : State) (r : Nat) : State := s.ackAll l ms r
    let datum := ms.any mdatBad
    let poison := ms.any Msg.poison
    match (if s.hasLanded l m then 0 else if chunkWhole ms then firstReason (ms.map (s.denies l)) else 7) with
    | 0 =>
      let vals := if poison then none else chunkVals ms
      if m.type = 0x04 then
        s.accept l m (addrRun m.addr 65536) Region.atomicOk datum vals.isNone true answer (fun s ts =>
          match vals with
          | none => s.poisonPlaces (placesOf ts)
          | some vs => s.peerReduce (ownerOfLink l) m.dctx (m.op % 4) 1
              ((vs.zipIdx).map (fun (e : Nat × Nat) => (8 * m.addr + 16 * e.2, e.1))) ts)
      else match s.shardReason l m with
        | .error r => s.lapsed l m answer r
        | .ok k =>
          let arr := (vals.getD []).toArray
          s.keepBox l k m (fun n => arr.getD n 0) datum vals.isNone answer
    | r => (answer s r, true)

/-- Units of the messages of a chunk that wait with it: their credit returns when the chunk is done. -/
def unitsOf (ms : List Msg) : Nat := (ms.map Msg.units).sum

/-- A coded message: alone, or as a part of a chunk, which is served with its last part. -/
def State.serveCoded (s : State) (l : Fin 48) (m : Msg) (raw : State × Bool) : State × Bool :=
  let held := (s.link l).chunk
  if !m.coded || m.broken then raw
  else match m.mark with
    | 0 => s.serveChunk l [m]
    | 1 =>
      -- a chunk whose last message never came is refused as broken
      let s := (s.ackAll l held 7).updLink l (fun k => (k.giveBack 3 (unitsOf held)))
      (s.updLink l (fun k => { k with chunk := [m] }), true)
    | _ =>
      if held.isEmpty then (s.ack l m 7, true)
      else if m.mark = 2 then (s.updLink l (fun k => { k with chunk := held ++ [m] }), true)
      else match s.serveChunk l (held ++ [m]) with
        | (s, true) => (s.updLink l (fun k => { k.giveBack 3 (unitsOf held) with chunk := [] }), true)
        | (s, false) => (s, false)

/-! ### Receiving in order (R318, R320, R323) -/

/-- A message of a link is performed: it is the oldest of its virtual channel, or arrives now over an ACTIVE link. It waits in the
receive buffer behind an older one of its channel, while the partition's PLL does not run (R28), and while something holds its
access. -/
def State.receive (s : State) (l : Fin 48) (m : Msg) (f : State → State × Bool) : State :=
  let k := s.link l
  let p := ownerOfLink l
  let oldest := k.rx.find? (fun n => n.vc = m.vc)
  let comes := !k.rx.contains m && k.st = .active
  let fresh := oldest.isNone && comes
  let wait (s : State) : State := if comes then s.updLink l (fun k => { k with rx := k.rx ++ [m] }) else s
  if !(fresh || oldest = some m) then wait (if comes then s.arrive p .linkMessage else s)
  else if (s.part p).pll ≠ .running then wait (if fresh then s.arrive p .linkMessage else s)
  else match f (s.updLink l (fun k => { k with rx := k.rx.erase m })) with
    | (t, true) => if m.keepsCredit then t else
        let t := t.updLink l (fun k => k.giveBack m.vc m.units)
        t.pump l (t.link l).txQ.length
    | (t, false) => t.updLink l (fun k' => { k' with rx := if fresh then k.rx ++ [m] else k.rx })

/-- A read that was parked has been answered: it leaves the receive buffer, and its credit returns (R318). -/
def State.readDone (s : State) (l : Fin 48) (m : Msg) : State :=
  if (s.link l).rx.contains m then
    let s := s.updLink l (fun k => { k.giveBack m.vc m.units with rx := k.rx.erase m })
    s.pump l (s.link l).txQ.length
  else s

/-- A request or write: nothing where the message is of another type. -/
def receiveAs (type : Nat) (f : State → State × Bool) (l : Fin 48) (m : Msg) (s : State) : Host.Outcome State Fault Refusal :=
  if m.type = type then .next (s.receive l m f) else .next s

/-- `RD_REQ` (R325). -/
def execRdReq (l : Fin 48) (m : Msg) (s : State) : Host.Outcome State Fault Refusal :=
  receiveAs 0x01 (fun s => s.serveRead l m) l m s
/-- `WR` (R325). -/
def execWrMsg (l : Fin 48) (m : Msg) (s : State) : Host.Outcome State Fault Refusal :=
  receiveAs 0x03 (fun s => s.serveWrite l m) l m s
/-- `RED` (R325, R333). -/
def execRedMsg (l : Fin 48) (m : Msg) (s : State) : Host.Outcome State Fault Refusal :=
  receiveAs 0x04 (fun s => s.serveCoded l m (s.serveReduce l m)) l m s
/-- `FLAG_ADD` (R325). -/
def execFlagAdd (l : Fin 48) (m : Msg) (s : State) : Host.Outcome State Fault Refusal :=
  receiveAs 0x05 (fun s => s.serveFlag l m) l m s
/-- `PS_REQ` (R334). -/
def execPsReq (l : Fin 48) (m : Msg) (s : State) : Host.Outcome State Fault Refusal :=
  receiveAs 0x06 (fun s => s.serveRequest l m) l m s
/-- `SHARD` (R336). -/
def execShard (l : Fin 48) (m : Msg) (s : State) : Host.Outcome State Fault Refusal :=
  receiveAs 0x07 (fun s => s.serveCoded l m (s.serveShard l m)) l m s
/-- `END` (R337). -/
def execCollectiveEnd (l : Fin 48) (m : Msg) (s : State) : Host.Outcome State Fault Refusal :=
  receiveAs 0x08 (fun s => s.serveEnd l m) l m s

/-- `DRAIN` (R320): returned once every message that arrived before it has been performed, and so left the receive buffer. -/
def execDrainMsg (l : Fin 48) (m : Msg) (s : State) : Host.Outcome State Fault Refusal :=
  -- a part of a chunk that is not whole has arrived, and is performed with the chunk
  let before : Bool := !((s.link l).rx.takeWhile (· ≠ m)).isEmpty || !(s.link l).chunk.isEmpty
  receiveAs 0x0A (fun s =>
    if before then (s, false)
    else (s.sendMsg l (s.mkMsg { MsgSpec.zero with type := 0x0B, dctx := s.farCtx m.dctx l, tag := m.tag }), true)) l m s

/-! ### What replies bring (R282, R326, R329, R330, R354, R355) -/

/-- The reason code with which a refusal halts a core (R326). -/
def refusalHalt : Nat → Nat
  | 1 => 0x14
  | 2 => 0x13
  | 3 => 0x14
  | 4 => 0x33
  | 5 => 0x32
  | _ => 0x01

/-- A packet goes on once nothing of it is awaited. -/
def State.pktGoesOn (s : State) (k : Pkt) : State :=
  match k.kind with
  | .pageServe => s.goOn k
  | .collective => s.goOn k
  | _ => s

/-- A packet's reply has come: a refusal ends it (R326); the add at a peer or the request is done. -/
def State.pktReply (s : State) (k : Pkt) (o : RemoteOp) (reason : Nat) : State :=
  if reason ≠ 0 then s.faultPkt k 3 o.msg.addr reason
  else match k.kind with
    | .flagSet => s.updPkt k (fun j => { j with effect := true })
    | .serveReq => s.updPkt k (fun j => { j with effect := true })
    | _ => s.pktGoesOn k

/-- Nothing more comes for an instance: a coded `LOAD` asks for what its headers now name (R156); anything else is ready. -/
def State.instGoesOn (s : State) (c : CoreId) (n : Nat) : State :=
  let w := s.instWaiter c n
  let x := s.core c
  match x.inst n with
  | none => s
  | some i =>
    if s.awaiting c.p w || (s.ctx c.p x.ctx).mail.any (fun e => e.op.who = w) || i.st ≠ .waiting then s
    else
      let m := i.op
      let a := m.addr 1 i.n
      let have' := (i.buf.filter (fun (e : Nat × Byte) => decide (a ≤ e.1))).length
      let need := if m.op = 0x01 && m.spCoded then codedNeed (fun k => i.buf.get 0 (a + k)) have' (m.d.count / chunkValues) 0 else 0
      match (if have' < need then peerLink m.peer else none) with
      | some l => s.askFor c n l m (addrRun (a + have') (need - have'))
      | none => s.updInst c n (fun j => { j with st := .ready })

/-- A reply for an instance: a refusal, a message Datum that does not match, or poison halts its core; data are kept until all
have come. -/
def State.instReply (s : State) (c : CoreId) (n : Nat) (o : RemoteOp) (m : Msg) : State :=
  match (s.core c).inst n with
  | none => s
  | some i =>
    let halt (r : Nat) : State := s.haltOp c i.eng i.op i.n r o.msg.addr
    if m.op ≠ 0 then halt (refusalHalt m.op)
    else if m.type = 0x02 && mdatBad m then halt 0x33
    else if m.type = 0x02 && m.poison then halt 0x32
    else
      let s := if m.type = 0x02 then
          s.updInst c n (fun j => { j with
            buf := ((m.data.zipIdx).foldl (fun (t : Tbl Byte) (e : Byte × Nat) => Tbl.ins (o.msg.addr + e.2) e.1 t) j.buf)
            rdats := if m.rdatum then j.rdats ++ [(o.msg.addr, m.rdat)] else j.rdats })
        else s
      s.instGoesOn c n

/-- A drain marker has come back for an instance or a packet (R282). -/
def State.drained (s : State) (w : Waiter) : State :=
  if s.draining w.part w then s
  else match w.agent with
    | .inst c n => match (s.core c).inst n with
      | some i => s.released c n i.op i.n
      | none => s
    | .packet q i => match s.pktAt q.val i w.lane w.laneIdx with
      | some k => (s.afterRelease k).pktGoesOn k
      | none => s

/-- A reply takes effect for the operation that awaits it, an `END` for its collective. -/
def State.deliver (s : State) (l : Fin 48) (o : RemoteOp) (m : Msg) : State :=
  if m.type = 0x08 then s.endArrives l m
  else if m.type = 0x0B then s.drained o.who
  else match o.who.agent with
    | .inst c n => s.instReply c n o m
    | .packet q i => match s.pktAt q.val i o.who.lane o.who.laneIdx with
      | some k => s.pktReply k o m.op
      | none => s

/-- A reply goes to its operation, or to the mailbox of a context that is out (R354). -/
def State.arriveReply (s : State) (l : Fin 48) (o : RemoteOp) (m : Msg) : State :=
  let w := o.who
  if w.lane = 3 then s
  else if (s.ctx w.part w.ctx).st = .running then s.deliver l o m
  else (s.writeMail w.part w.ctx m).updCtx w.part w.ctx (fun c => { c with mail := c.mail ++ [⟨l, o, m⟩] })

/-- `RD_RSP` or `ACK` (R319, R326): the reservation is freed, and the next requests are sent. A message refused `NOT_READY` keeps
its reservation and is resent later. -/
def State.takeReply (s : State) (l : Fin 48) (m : Msg) : State × Bool :=
  match (s.link l).ops.find? (fun o => o.tag.toNat = m.tag) with
  | none => (s, true)
  | some o =>
    if m.op = 6 then
      (s.updLink l (fun k => { k with ops := k.ops.map (fun e => if e.tag = o.tag then { e with resend := true } else e) }), true)
    else
      let s := s.updLink l (fun k => { k with
        ops := k.ops.filter (fun e => e.tag ≠ o.tag)
        rspRes := k.rspRes - 32 * o.msg.replyUnits })
      let s := s.pumpReq l ((s.link l).reqWait.length)
      (s.arriveReply l o m, true)

/-- `RD_RSP` (R325, R326). -/
def execRdRsp (l : Fin 48) (m : Msg) (s : State) : Host.Outcome State Fault Refusal := receiveAs 0x02 (fun s => s.takeReply l m) l m s
/-- `ACK` (R326). -/
def execAckMsg (l : Fin 48) (m : Msg) (s : State) : Host.Outcome State Fault Refusal := receiveAs 0x09 (fun s => s.takeReply l m) l m s

/-- `DRAIN_RET` (R282): markers come back in the order in which they were sent. -/
def execDrainRet (l : Fin 48) (m : Msg) (s : State) : Host.Outcome State Fault Refusal :=
  receiveAs 0x0B (fun s => match (s.link l).drains with
    | [] => (s, true)
    | w :: rest => ((s.updLink l (fun k => { k with drains := rest })).arriveReply l ⟨0, w, m, false⟩ m, true)) l m s

/-- The requests that are resent with one (R320, R326): the messages of its chunk, from the first to the last. -/
def chunkOps : List RemoteOp → List RemoteOp → BitVec 16 → List RemoteOp
  | [], acc, tag => if acc.any (fun o => o.tag = tag) then acc else []
  | o :: t, acc, tag =>
    if !o.msg.coded || o.msg.mark = 0 || o.msg.mark = 1 then
      if acc.any (fun e => e.tag = tag) then acc else chunkOps t [o] tag
    else chunkOps t (acc ++ [o]) tag

/-- `NOT_READY_RESEND` (R326): the refused message is sent again, and a chunk's messages one after another (R320). They wait while
the answers to others of the chunk, or room for the rest of another chunk, are still to come (DEDUCED, log 103). -/
def execNotReadyResend (l : Fin 48) (tag : BitVec 16) (s : State) : Host.Outcome State Fault Refusal :=
  let k := s.link l
  match k.ops.find? (fun o => o.tag = tag && o.resend) with
  | none => .next s
  | some o =>
    let os := if o.msg.coded && o.msg.mark ≠ 0 then chunkOps (k.ops.filter (fun e => e.who = o.who && e.msg.type = o.msg.type)) [] tag
      else [o]
    let open' := match k.reqWait with
      | r :: _ => o.msg.vc = 3 && r.msg.coded && (r.msg.mark = 2 || r.msg.mark = 3)
      | [] => false
    if open' || os.any (fun e => !e.resend) then .next s
    else
      let again (e : RemoteOp) : Bool := os.any (fun x => x.tag = e.tag)
      let s := s.updLink l (fun k => { k with ops := k.ops.map (fun e => if again e then { e with resend := false } else e) })
      .next (os.foldl (fun s e => s.sendMsg l e.msg) s)

/-! ### Frames (R315, R318) -/

/-- Fields of a frame header (R315). -/
def fhdr (f : Frame) (o w : Nat) : Nat := f.hdr.toNat / 2 ^ (8 * o) % 2 ^ (8 * w)

/-- A frame's own check fails: its codeword, its CRC, or a reserved field. -/
def frameBad (f : Frame) (kind : Nat) : Bool :=
  f.uncorrectable || f.body.length ≠ 608 || fhdr f 0 2 / 4096 ≠ kind || fhdr f 2 2 / 8192 ≠ 0 || fhdr f 12 2 / 32 ≠ 0 || fhdr f 14 14 ≠ 0
    || fhdr f 28 4 ≠ (crc32c (leBytes 28 (fhdr f 0 28) ++ f.body)).toNat

/-- Credit comes back up to the size of the peer's buffer (R318). -/
def Link.credited (k : Link) (f : Frame) : Link :=
  { k with
    credReq := min 512 (k.credReq + fhdr f 4 2)
    credRsp := min 4096 (k.credRsp + fhdr f 6 2)
    credBulk := min 4096 (k.credBulk + fhdr f 8 2)
    credCtl := min 128 (k.credCtl + fhdr f 10 2) }

/-- Drop the frames that an `ACK` covers. -/
def Link.acked (k : Link) (seq : BitVec 12) : Link :=
  { k with retry := if k.retry.any (fun t => t.seq = seq) then (k.retry.dropWhile (fun t => t.seq ≠ seq)).drop 1 else k.retry }

/-- A frame that is to be resent has lost its parity: the link starts afresh (R316). -/
def State.retryParity (s : State) (l : Fin 48) : State :=
  if (s.link l).retry.any TxFrame.parityBad then
    (s.updLink l (fun k => { k with st := .retrain, retrains := satAdd k.retrains 1, met := none })).freshStart l 4
  else s

/-- The header of a good frame: acknowledgement, credit, `NAK` (R315). -/
def State.frameHead (s : State) (l : Fin 48) (f : Frame) : State :=
  let s := s.updLink l (fun k => (k.acked (BitVec.ofNat 12 (fhdr f 2 2))).credited f)
  let s := if bit (fhdr f 2 2) 12 then
      (s.updLink l (fun k => { k with replays := satAdd k.replays 1 })).retryParity l
    else s
  s.pump l (s.link l).txQ.length

/-- Cut the messages out of a stream of bytes; a header of type 0 fills a place where no message begins (log 18). -/
def cutMsgs : Nat → List Byte → List Msg × List Byte
  | 0, b => ([], b)
  | f + 1, b =>
    if b.length < 32 then ([], b)
    else
      let hdr := BitVec.ofNat 256 (leNat (b.take 32))
      if hdr.toNat % 256 = 0 then cutMsgs f (b.drop 32)
      else
        let n := if hdr.toNat % 256 = 1 then 0 else 32 * (hdr.toNat / 2 ^ 48 % 65536)
        if b.length < 32 + n then ([], b)
        else
          let r := cutMsgs f (b.drop (32 + n))
          (⟨hdr, (b.drop 32).take n⟩ :: r.1, r.2)

/-- The messages of a frame join the receive buffers (R318, R324). -/
def State.frameBody (s : State) (l : Fin 48) (f : Frame) : State :=
  let k := s.link l
  let first := fhdr f 12 2
  let bytes := if k.rxPart.isEmpty then f.body.drop (32 * first) else k.rxPart ++ f.body
  let r := cutMsgs (bytes.length / 32 + 1) bytes
  let s := s.setLink l { k with rx := k.rx ++ r.1.filter Msg.known, rxPart := r.2 }
  -- a message of another type breaks R325 and is refused
  let s := (r.1.filter (fun m => !m.known)).foldl (fun s m => (s.updLink l (fun k => k.giveBack m.vc m.units)).ack l m 7) s
  if r.1.all (fun m => !m.known) then s else s.arrive (ownerOfLink l) .linkMessage

/-- Count a codeword (registers of 10). -/
def Link.countWord (k : Link) (f : Frame) : Link :=
  { k with
    fecCw := satAdd k.fecCw 1
    fecUnc := if f.uncorrectable then satAdd k.fecUnc 1 else k.fecUnc }

/-- `DATA_FRAME` (R315): accepted when good and expected; otherwise discarded and answered with `NAK`. -/
def execDataFrame (l : Fin 48) (f : Frame) (s : State) : Host.Outcome State Fault Refusal :=
  if (s.link l).st ≠ .active then .next s
  else
    let s := s.updLink l (fun k => k.countWord f)
    if frameBad f 0 || BitVec.ofNat 12 (fhdr f 0 2) ≠ (s.link l).rxSeq then
      .next (s.updLink l (fun k => { k with nak := true }))
    else
      let s := s.updLink l (fun k => { k with rxSeq := k.rxSeq + 1, nak := false })
      .next ((s.frameHead l f).frameBody l f)

/-- `IDLE_FRAME` (R315): acknowledgement and credit alone. It takes no sequence number, so none is expected of it (DEDUCED, log
101). -/
def execIdleFrame (l : Fin 48) (f : Frame) (s : State) : Host.Outcome State Fault Refusal :=
  if (s.link l).st ≠ .active then .next s
  else
    let s := s.updLink l (fun k => k.countWord f)
    if frameBad f 1 then .next (s.updLink l (fun k => { k with nak := true })) else .next (s.frameHead l f)

end Sys2Proof.Machine
end

