-- ==== Sys2Proof/Machine/LinkState.lean ====
section
/-! DEFINITION. The state machine of a link (R311 to R317): training, lane order and polarity, identity, spare lanes and the
retirement of lanes. -/

namespace Sys2Proof.Machine

/-! ### Lanes (R313) -/

/-- Lanes that a link can run on: its own that are not retired, and its spare in a retired one's place. -/
def Link.lanes (k : Link) : Nat := b2n (!k.retired.getLsbD 0) + b2n (!k.retired.getLsbD 1) + b2n k.spareIn

/-- A link has enough lanes to run (R313). -/
def Link.canRun (k : Link) : Bool := k.lanes = 2 || (k.lanes = 1 && k.halfOk)

/-- A lane of a link is in use: it is not retired, or the spare lane fills its place. -/
def Link.laneUsed (k : Link) (n : Fin 2) : Bool := !k.retired.getLsbD n.val || (k.spareIn && k.sparePos = (n = 1))

/-- A spare lane takes a retired lane's place, where one guards the link, works and is not in use; otherwise the link runs on one
lane where it may (R313). Either raises `LANE_SPARED`. -/
def State.spareLaneIn (s : State) (l : Fin 48) (n : Fin 2) : State :=
  let k := s.link l
  let ev (half : Nat) : Event := (((mkEvent 0x0A 1 0).atLink l.val).withReason (n.val + 4 * half)).withDetail k.spareLane.toNat
  if k.guarded && !k.spareIn && s.spareWorks k.spareLane.toNat then
    (s.setLink l { k with spareIn := true, sparePos := decide (n = 1) }).raise (ev 0)
  else if k.halfOk && decide (k.lanes = 1) then s.raise (ev 1)
  else s

/-- Retire a lane for good (R313, R314): the spare lane where that fills its place, else the link's own. It is entered in the
Cadastre. Nothing where the lane is out already. -/
def State.retireLane (s : State) (l : Fin 48) (n : Fin 2) : State :=
  let k := s.link l
  if !k.laneUsed n then s
  else if k.spareIn && k.sparePos = decide (n = 1) then
    let s := s.setLink l { k with spareIn := false }
    (s.addDefect 7 1 (locBytes (48 + k.spareLane.toNat) 0 0 0) 0).spareLaneIn l n
  else
    let s := s.setLink l { k with retired := k.retired ||| BitVec.ofNat 2 (2 ^ n.val) }
    (s.addDefect 7 1 (locBytes l.val 0 0 0) (BitVec.ofNat 32 n.val)).spareLaneIn l n

/-! ### Training (R311) -/

/-- The link trains. -/
def Link.training (k : Link) : Bool := k.st = .train || k.st = .retrain

/-- An ACTIVE link goes to RETRAIN: senders are held, the retry buffer and the credits are kept. -/
def Link.toRetrain (k : Link) : Link :=
  if k.st = .active then { k with st := .retrain, retrains := satAdd k.retrains 1 } else k

/-- `SIGNAL_DETECTED` (R311). -/
def execSignalDetected (l : Fin 48) (s : State) : Host.Outcome State Fault Refusal :=
  if (s.link l).st = .detect then .next (s.updLink l (fun k => { k with st := .train })) else .next s

/-- `LANES_CONVERGED` (R311, R313): with enough lanes the link goes to ALIGN; lane order, polarity and delay are reported. -/
def execLanesConverged (l : Fin 48) (swapped : Bool) (pol : BitVec 2) (delay : BitVec 16) (s : State) :
    Host.Outcome State Fault Refusal :=
  let k := s.link l
  if k.training && k.canRun then
    .next (s.setLink l { k with
      st := .align
      swapped := swapped
      rxpol := pol
      delay := delay
      width := BitVec.ofNat 2 k.lanes })
  else .next s

/-- A lane fails in training: it is retired, and the link trains on (R311, R313). -/
def State.laneFails (s : State) (l : Fin 48) (n : Fin 2) : State :=
  if (s.link l).training && (s.link l).laneUsed n then (s.retireLane l n).updLink l (fun k => { k with st := .train }) else s

/-- `LANE_TRAIN_TIMEOUT` (R311, R313). -/
def execLaneTrainTimeout (l : Fin 48) (n : Fin 2) (s : State) : Host.Outcome State Fault Refusal := .next (s.laneFails l n)

/-- `LANE_OPEN_OR_SHORT` (R311, R313). -/
def execLaneOpenOrShort (l : Fin 48) (n : Fin 2) (s : State) : Host.Outcome State Fault Refusal := .next (s.laneFails l n)

/-- The `IDENT` message of this end (R9, R312): its device ID, the link number, whether a spare lane guards the link, and the
incarnation (the places are PRESUMED, log 28). -/
def State.ownIdent (s : State) (l : Fin 48) (k : Link) : Msg :=
  s.mkMsg { MsgSpec.zero with type := 0x0C, value := l.val + 64 * b2n k.guarded + 2 ^ 32 * s.inc.toNat }

/-- `CODEWORD_LOCK` (R311): the link goes to IDENTIFY, where this end sends its `IDENT`. -/
def execCodewordLock (l : Fin 48) (s : State) : Host.Outcome State Fault Refusal :=
  if (s.link l).st = .align then
    .next (s.updLink l (fun k => { k with st := .identify, sentIdent := some (s.ownIdent l k) }))
  else .next s

/-- `LINK_TRAIN_TIMEOUT` (R311): back to DETECT; `LINK_DOWN` once per outage. -/
def execLinkTrainTimeout (l : Fin 48) (s : State) : Host.Outcome State Fault Refusal :=
  let k := s.link l
  if k.training then
    let s := s.setLink l { k with st := .detect, downRaised := true, width := 0 }
    if k.downRaised then .next s else .next (s.linkDown l 1)
  else .next s

/-- `MISWIRE_TIMEOUT` (R311). -/
def execMiswireTimeout (l : Fin 48) (s : State) : Host.Outcome State Fault Refusal :=
  if (s.link l).st = .miswired then .next (s.updLink l (fun k => { k with st := .detect, width := 0 })) else .next s

/-! ### Lane retirement while ACTIVE (R314) -/

/-- Losses of codeword lock of a lane in this window. -/
def Link.losses (k : Link) (n : Fin 2) : Nat := if n = 0 then k.lockLoss.1 else k.lockLoss.2

/-- `CODEWORD_LOCK_LOST` (R311, R314): the second loss of a lane inside a window retires it. -/
def execCodewordLockLost (l : Fin 48) (n : Fin 2) (s : State) : Host.Outcome State Fault Refusal :=
  let k := s.link l
  if k.st = .active && k.laneUsed n then
    let loss : Nat × Nat := if n = 0 then (k.lockLoss.1 + 1, k.lockLoss.2) else (k.lockLoss.1, k.lockLoss.2 + 1)
    let s := s.setLink l { k.toRetrain with lockLoss := loss }
    if 2 ≤ k.losses n + 1 then .next (s.retireLane l n) else .next s
  else .next s

/-- A lane's count of corrected symbols exceeds its limit (R314). -/
def Link.over (k : Link) (n : Nat) : Bool := k.laneLimit ≠ 0 && decide (k.laneLimit.toNat * 1024 < n)

/-- `FEC_WINDOW` (R314): the corrected symbols of each lane in the window that ends. -/
def execFecWindow (l : Fin 48) (s0 s1 : Nat) (s : State) : Host.Outcome State Fault Refusal :=
  let k := s.link l
  let s := s.setLink l { k with fecSym := satAdd k.fecSym (s0 + s1), lockLoss := (0, 0) }
  if k.st = .active then
    let out (n : Fin 2) (c : Nat) : Bool := k.over c && k.laneUsed n
    let s := if out 0 s0 then (s.updLink l Link.toRetrain).retireLane l 0 else s
    let s := if out 1 s1 then (s.updLink l Link.toRetrain).retireLane l 1 else s
    .next s
  else .next s

/-! ### Identity (R312, R317) -/

/-- The identity that an `IDENT` message carries: device, link, incarnation (its fields are PRESUMED, log 28). -/
def identity (m : Msg) : BitVec 12 × BitVec 6 × Word :=
  (BitVec.ofNat 12 m.src, BitVec.ofNat 6 (m.value % 64), BitVec.ofNat 32 (m.value / 2 ^ 32))

/-- A link reaches ACTIVE (R311, R315, R317): it resumes with the incarnation that it last accepted, and starts afresh with another.
A frame to be resent that has lost its parity takes it to RETRAIN instead (R316). -/
def State.activate (s : State) (l : Fin 48) (who : BitVec 12 × BitVec 6 × Word) : State :=
  let met := (s.link l).met
  if met = some who && (s.link l).retry.any TxFrame.parityBad then s.retryParity l
  else
    let s := if met.isNone then s.freshStart l 0 else if met = some who then s else s.freshStart l 2
    let s := s.updLink l (fun k => { k with st := .active, met := some who, downRaised := false })
    let s := s.pumpReq l (s.link l).reqWait.length
    s.pump l (s.link l).txQ.length

/-- `IDENT` (R312): the peer's identity is reported, and accepted or refused. -/
def execIdent (l : Fin 48) (m : Msg) (s : State) : Host.Outcome State Fault Refusal :=
  let k := s.link l
  if k.st ≠ .identify || m.type ≠ 0x0C then .next s
  else
    let (dev, peer, inc) := identity m
    let s := s.setLink l { k with peerDev := dev, peerLink := peer, peerInc := inc, peerGuards := bit m.value 6 }
    if k.expAny || (dev = k.expDev && peer = k.expLink) then .next (s.activate l (dev, peer, inc))
    else
      let who := BitVec.ofNat 18 (dev.toNat + 4096 * peer.toNat)
      let s := s.updLink l (fun k => { k with st := .miswired, misRaised := some who })
      if k.misRaised = some who then .next s
      else .next (s.raise (((mkEvent 0x0B 1 0).atLink l.val).withReason who.toNat))

end Sys2Proof.Machine
end

