-- ==== Sys2Proof/Machine/Power.lean ====
section
/-! DEFINITION. The housekeeping round (R37, R38, R448 to R455), trips and their end (R456, R457), rails and power-good
inputs (R447), and the reset pins (R461, R462). -/

namespace Sys2Proof.Machine

/-! ### Thermal domains (R452 to R455) -/

/-- First sensor and number of sensors of a domain: 0 to 3 partitions, 4 to 15 stacks (registers of 15). -/
def domainSensors (d : Nat) : List Nat :=
  if d < 4 then (List.range 32).map (32 * d + ·) else (List.range 17).map (128 + 17 * (d - 4) + ·)

/-- The domain that a sensor belongs to. -/
def sensorDomain (n : Nat) : Nat := if n < 128 then n / 32 else 4 + (n - 128) / 17

/-- A sensor with no reading yet. -/
def Sensor.reset : Sensor := ⟨0, false, 0⟩

/-- Why a front end finds a sensor broken (R453): 0 none, 1 open, 2 short, 3 stuck, 4 out of range. -/
def Reading.cause (r : Reading) : Nat :=
  if r.opened then 1 else if r.shorted then 2 else if r.stuck then 3
  else if r.temp.toInt < -320 || 1200 < r.temp.toInt then 4 else 0

/-- Where a record of a domain lies (R389). -/
def Event.atDomain (e : Event) (d : Nat) : Event :=
  if d < 4 then e.atPart ⟨d % 4, by omega⟩ else e.atStack (d - 4)

def State.sensor (s : State) (n : Nat) : Sensor := s.th.temps.get Sensor.reset n
def State.setSensor (s : State) (n : Nat) (v : Sensor) : State :=
  { s with th := { s.th with temps := s.th.temps.set Sensor.reset n v } }
def State.setDomain (s : State) (d : Nat) (v : Domain) : State :=
  { s with th := { s.th with domains := s.th.domains.set Domain.reset d v } }
/-- Set bits of `TH_STATUS`. -/
def State.thermal (s : State) (bits : Nat) : State :=
  { s with th := { s.th with status := s.th.status ||| BitVec.ofNat 4 bits } }

/-- One sensor's sample (R448, R453, R455): a broken sensor stays broken. -/
def State.sample (s : State) (n : Nat) (r : Reading) : State :=
  let old := s.sensor n
  let c := Reading.cause r
  if old.broken then s.setSensor n { old with temp := r.temp }
  else if c = 0 then s.setSensor n ⟨r.temp, false, 0⟩
  else
    let d := sensorDomain n
    let s := s.setSensor n ⟨r.temp, true, BitVec.ofNat 3 c⟩
    (s.thermal 4).raise (((mkEvent 0x0E 1 0).atDomain d).withReason (n - (domainSensors d).headD 0))

/-- Readings of the working sensors of a domain, and how many are broken. -/
def State.working' (s : State) (d : Nat) : List Int :=
  ((domainSensors d).filter (fun n => !(s.sensor n).broken)).map (fun n => (s.sensor n).temp.toInt)
def State.brokenIn (s : State) (d : Nat) : Nat := ((domainSensors d).filter (fun n => (s.sensor n).broken)).length

/-- Thresholds of a domain in units of 0.125 °C: warn, where it has one, and throttle (R452). -/
def State.thresholds (s : State) (d : Nat) : Option Int × Int :=
  if d < 4 then (some (8 * (s.th.cmpWarn.toNat : Int)), 8 * (s.th.cmpThrottle.toNat : Int))
  else (none, 8 * (s.th.dramThrottle.toNat : Int))

/-- A domain's state and thermal step after a round (R454): its readings, the broken sensors, warn, throttle and H. -/
def thermNext (o : Domain) (ts : List Int) (broken : Nat) (warn : Option Int) (thr h : Int) : ThermSt × Nat :=
  let hot (x : Int) : Bool := ts.any (fun t => x ≤ t)
  let warm (x : Int) : Bool := match warn with | some w => hot (w - x) | none => false
  match o.st with
  | .tripped => (.tripped, o.tstep)
  | .throttled =>
    if 0 < broken then (.throttled, 9)
    else if hot thr then (.throttled, min 9 (o.tstep + 1))
    else if !hot (thr - h) then
      (if o.tstep ≤ 1 then (if warm h then .warn else .normal, 0) else (.throttled, o.tstep - 1))
    else (.throttled, o.tstep)
  | st =>
    if 0 < broken then (.throttled, 9)
    else if hot thr then (.throttled, 1)
    else if st = .normal then (if warm 0 then (.warn, 0) else (.normal, 0))
    else (if warm h then .warn else .normal, 0)

/-- A domain in a round (R454, R455). -/
def State.thermalRound (s : State) (d : Nat) : State :=
  let o := s.domain d
  let ts := s.working' d
  let n := s.brokenIn d
  let w := s.thresholds d
  let (st, k) := thermNext o ts n w.1 w.2 (8 * (s.th.hyst.toNat : Int))
  let hot : Int := ts.foldl max (ts.headD 0)
  let peak := if k = 0 then 0 else max o.peak k
  let s := s.setDomain d { o with st := st, tstep := k, peak := peak, nbroken := min 2 n, hot := BitVec.ofInt 12 hot }
  let s := if st = .warn && o.st ≠ .warn then s.thermal 1 else s
  let s := if st = .throttled && o.st ≠ .throttled then s.thermal 2 else s
  if o.peak < k || (k = 0 && o.tstep ≠ 0) then
    s.raise (((mkEvent 0x0C 1 0).atDomain d).withReason (k + 16 * b2n (decide (0 < n))))
  else s

/-! ### The governor (R36 to R38, R451) -/

/-- The allowances after a round (R38): the falling side first, the rising side one round later. -/
def Power.round (p : Power) : Power :=
  let t := p.target
  match p.phase with
  | 0 => p
  | 1 => { p with curC := min p.curC t.1, curS := min p.curS t.2, phase := 2 }
  | _ => { p with curC := t.1, curS := t.2, phase := 0 }

/-- A compute die's power step (R451); its `VDD_CMP` channels are numbered as R446 says. -/
def State.powerRound (s : State) (p : Fin 4) : State :=
  let chan (t : Tbl (BitVec 16)) (lo n : Nat) : List (BitVec 16) := t.getMany 0 lo n
  let w := Config.diePower (chan s.th.currs (2 + 2 * p.val) 2) (chan s.th.volts (4 + 3 * p.val) 3)
  let o := s.domain p.val
  let k := if s.pw.curC < 4 * w then min 9 (o.pstep + 1)
    else if 0 < o.pstep && decide (4 * w * rate32 (o.pstep - 1) ≤ s.pw.curC * rate32 o.pstep) then o.pstep - 1
    else o.pstep
  s.setDomain p.val { o with pstep := k }

/-- The effective step of a domain (R450). -/
def Domain.step (d : Domain) : Nat := max d.tstep d.pstep

/-- A stack in a round: `LIMIT` (R36), and the refresh interval (R232). -/
def State.stackRound (s : State) (st : Fin 12) : State :=
  let d := 4 + st.val
  let limit := min (s.stack st).slotCount ((s.pw.curS - 44400) / 1800)
  let hot := decide (0 < s.brokenIn d) || (s.working' d).any (fun t => 680 ≤ t)
  let cool := s.brokenIn d = 0 && (s.working' d).all (fun t => t < 664)
  s.updStack st (fun k => { k with
    limit := BitVec.ofNat 7 limit
    double := if hot then true else if cool then false else k.double })

/-! ### Trips (R456) -/

/-- The package trips (R456): the cause is latched, every engine stops and loses its contents, the rails but housekeeping
and host attach go, and `THERMAL_TRIP` is written. Domain, sensor, whether broken sensors did it, whether a supply did. Writes to the host under
way are dropped, and what a supply's trip names is the model's (DESIGN CHOICE, log 107). -/
def State.trip (s : State) (d sensor : Nat) (broken supply : Bool) : State :=
  if s.th.tripped then s
  else
    let ev := ((mkEvent 0x0D 3 0).withReason (if supply then 2 else if d < 4 then 0 else 1)).withDetail (sensor + 512 * b2n broken)
    let s := ({ s with cxlOut := [] } : State).raise (if supply then ev else ev.atDomain d)
    let th := { s.th with
      status := s.th.status ||| 8
      tripDomain := BitVec.ofNat 4 d
      tripSensor := BitVec.ofNat 9 sensor
      tripBroken := broken
      tripSupply := supply
      tripValid := true
      tripCount := satAdd s.th.tripCount 1
      tripped := true }
    let s := { s with th := th }
    let s := if supply then s else s.setDomain d { s.domain d with st := .tripped }
    { State.reset with
      pending := s.pending
      freeCtr := s.freeCtr
      hkCount := s.hkCount
      hostMem := s.hostMem
      hostErr := s.hostErr
      irqSent := s.irqSent
      hostRsp := s.hostRsp
      stepping := s.stepping
      cxlOut := s.cxlOut
      hi := { s.hi with st := .resetting, mcqEnable := false, waiting := s.accepted }
      evq := s.evq
      evSeq := s.evSeq
      evLate := []
      msix := s.msix
      pba := s.pba
      th := s.th
      ta := s.ta
      cad := { s.cad with kept := none }
      hk := { s.hk with phase := .none, thermtrip := true, rails := s.hk.rails &&& 1, down := false, mtBusy := false, flips := [] } }

/-- `THERMAL_TRIP` (R454, R456): a working sensor at trip, or a second broken sensor of a domain. The cause that a broken
sensor shows is free until a round finds it (log 3). -/
def execThermalTrip (t : TripCause) (s : State) : Host.Outcome State Fault Refusal :=
  match t with
  | .hot n => if (s.sensor n.val).broken then .next s else .next (s.trip (sensorDomain n.val) n.val false false)
  | .broken n =>
    let d := sensorDomain n.val
    if s.th.tripped || (s.sensor n.val).broken || s.brokenIn d = 0 then .next s
    else
      let c := BitVec.ofNat 3 (1 + Config.pick s.freeCtr % 4)
      let s := ((s.draw 1).setSensor n.val { s.sensor n.val with broken := true, cause := c }).thermal 4
      let s := s.setDomain d { s.domain d with nbroken := 2 }
      -- the record of R455 follows that of the trip (log 107)
      .next ((s.trip d n.val true false).raise (((mkEvent 0x0E 1 0).atDomain d).withReason (n.val - (domainSensors d).headD 0)))

/-- Every working sensor reads below 80 °C. -/
def State.cool (s : State) : Bool := (List.range 16).all (fun d => (s.working' d).all (fun t => t < 640))

/-- `COOLED_RESTART` (R457): 10 s below 80 °C have passed. Two broken sensors of one domain keep the package tripped, unless
a cold reset by pin is held. -/
def execCooledRestart (s : State) : Host.Outcome State Fault Refusal :=
  if s.th.tripped && s.cool then
    if s.hk.coldHeld then .next (s.restart true 1)
    else if (List.range 16).all (fun d => s.brokenIn d < 2) && s.hk.pg.getLsbD 0 then .next (s.restart true 3)
    else .next s
  else .next s

/-! ### The round (R448, R460, R461) -/

/-- Sideband pins in a round (R461): a new fault sets its bit; a reset input found faulty is ignored. -/
def State.pinRound (s : State) (j : Nat) (f : BitVec 2) : State :=
  let stuck := (j = 4 && s.hk.coldPin = .stuck) || (j = 5 && s.hk.warmPin = .stuck)
  let old := s.hk.pins.get 0 j
  let f := if stuck && f = 0 then old else f
  let h := { s.hk with
    pins := s.hk.pins.set 0 j f
    sbFault := if f ≠ 0 && old = 0 then s.hk.sbFault ||| BitVec.ofNat 17 (2 ^ j) else s.hk.sbFault
    coldPin := if j = 4 && f ≠ 0 then .stuck else s.hk.coldPin
    warmPin := if j = 5 && f ≠ 0 then .stuck else s.hk.warmPin }
  { s with hk := h }

/-- `HOUSEKEEPING_ROUND` (R37, R38, R448 to R455, R460, R461). A second broken sensor of a domain found in the round trips
the package; which sensor is named is the model's (DESIGN CHOICE, log 107). -/
def execHousekeepingRound (r : Round) (s : State) : Host.Outcome State Fault Refusal :=
  let s := { s with th := { s.th with
    volts := (r.volts.zipIdx).foldl (fun (t : Tbl (BitVec 16)) (e : BitVec 16 × Nat) => if e.2 < 64 then t.set 0 e.2 e.1 else t) s.th.volts
    currs := (r.currs.zipIdx).foldl (fun (t : Tbl (BitVec 16)) (e : BitVec 16 × Nat) => if e.2 < 32 then t.set 0 e.2 e.1 else t) s.th.currs } }
  let s := ((r.temps.take 332).zipIdx).foldl (fun (s : State) (e : Reading × Nat) => s.sample e.2 e.1) s
  let o : BitVec 2 := orientOf r.keyA r.keyB
  let s := if s.hk.orient = 0 then s
    else { s with hk := { s.hk with
      orient := o
      sbFault := if o ≠ s.hk.orient then s.hk.sbFault ||| 0x10000 else s.hk.sbFault } }
  let s := ((r.pins.take 16).zipIdx).foldl (fun (s : State) (e : BitVec 2 × Nat) => s.pinRound e.2 e.1) s
  let s := { s with pw := s.pw.round }
  let s := (List.finRange 4).foldl State.powerRound s
  let s := (List.range 16).foldl State.thermalRound s
  let s := (List.finRange 12).foldl State.stackRound s
  match (List.range 16).find? (fun d => 2 ≤ s.brokenIn d) with
  | some d =>
    let n := (((domainSensors d).filter (fun n => (s.sensor n).broken)).getLast?).getD 0
    .next (s.trip d n true false)
  | none => .next s

/-! ### Rails (R446, R447) -/

/-- Release the highest enable that is still asserted; with none left the rails are down, and a cold start raises
them again. Enables in the order
`EN_UCI`, `EN_BASE`, `EN_CMP`, `EN_STK`, `EN_LNK`. -/
def Hk.releaseNext (h : Hk) : Hk :=
  match ([4, 3, 2, 1, 0] : List Nat).find? (fun n => h.rails.getLsbD n) with
  | some n => { h with rails := h.rails &&& ~~~(BitVec.ofNat 5 (2 ^ n)) }
  | none => ({ h with down := false } : Hk).raiseRails

/-- The group whose enable was released last, as rails go down: the one above the highest still asserted. -/
def Hk.lastReleased (h : Hk) : Nat :=
  match ([4, 3, 2, 1, 0] : List Nat).find? (fun n => h.rails.getLsbD n) with
  | some n => n + 2
  | none => 1

/-- `POWER_GOOD_RISE` (R447): groups 0 `PG_HK` to 5 `PG_LNK`; the next group's enable is asserted once that of
its own group is and the phase allows it (R416), unless rails go down or the package is tripped. -/
def execPowerGoodRise (g : Fin 6) (s : State) : Host.Outcome State Fault Refusal :=
  let h := { s.hk with pg := s.hk.pg ||| BitVec.ofNat 6 (2 ^ g.val) }
  .next { s with hk := if h.down || s.th.tripped then h else h.raiseRails }

/-- `POWER_GOOD_FALL` (R447, R456): the fall of an enabled group trips the package; as rails go down it lets the next
enable go. -/
def execPowerGoodFall (g : Fin 6) (s : State) : Host.Outcome State Fault Refusal :=
  let enabled := g.val = 0 || s.hk.rails.getLsbD (g.val - 1)
  let was := s.hk.pg.getLsbD g.val
  let s := { s with hk := { s.hk with pg := s.hk.pg &&& ~~~(BitVec.ofNat 6 (2 ^ g.val)) } }
  if enabled && was then .next (s.trip 0 0 false true)
  else if s.hk.down && s.hk.lastReleased = g.val then .next { s with hk := s.hk.releaseNext }
  else .next s

/-- `POWER_GOOD_TIMEOUT` (R429, R447): a group enabled for 50 ms without its power-good fails the start. -/
def execPowerGoodTimeout (g : Fin 6) (s : State) : Host.Outcome State Fault Refusal :=
  if g.val ≠ 0 && s.hk.rails.getLsbD (g.val - 1) && !s.hk.pg.getLsbD g.val && !s.hk.down && !s.th.tripped
      && s.hk.phase ≠ .ready && s.hk.phase ≠ .failed then .next s.failStart
  else .next s

/-- `ENABLE_RELEASE_TIMEOUT` (R447): 20 ms after the release of a group's enable, its power-good has not fallen. -/
def execEnableReleaseTimeout (g : Fin 6) (s : State) : Host.Outcome State Fault Refusal :=
  if s.hk.down && s.hk.lastReleased = g.val && s.hk.pg.getLsbD g.val then .next { s with hk := s.hk.releaseNext } else .next s

/-! ### Reset pins and whole resets (R444, R445, R461, R462) -/

/-- A cold reset begins (R444): every rail but housekeeping's goes down, then a cold start. -/
def State.coldReset (s : State) (source : Nat) : State :=
  let s := s.restart true source
  { s with hk := ({ s.hk with down := true } : Hk).releaseNext }

/-- Whether a warm pin reset is performed as a cold one: IDENTITY of a cold start has not completed (R445). -/
def Hk.earlyCold (h : Hk) : Bool := h.cold && (h.phase = .none || h.phase = .hkBoot || h.phase = .identity)

/-- The reset of a pin begins (R445, R457, R462). While the package is tripped a cold one is held. -/
def State.pinReset (s : State) (r : ResetPin) : State :=
  if s.th.tripped then (match r with
    | .cold => { s with hk := { s.hk with coldHeld := true } }
    | .warm => s)
  else match r with
    | .cold => s.coldReset 1
    | .warm => if s.hk.earlyCold then s.coldReset 2 else s.restart false 2

/-- How a pin stands, and setting it. -/
def Hk.pin (h : Hk) : ResetPin → PinSt
  | .cold => h.coldPin
  | .warm => h.warmPin
def State.setPin (s : State) (r : ResetPin) (v : PinSt) : State :=
  { s with hk := match r with
      | .cold => { s.hk with coldPin := v }
      | .warm => { s.hk with warmPin := v } }
/-- Number of a reset pin in `HK_SB_PINS`. -/
def pinNo : ResetPin → Nat
  | .cold => 4
  | .warm => 5

/-- `RESET_PIN_ASSERT` (R460 to R462): accepted once the orientation has been read, from a pin not marked faulty. -/
def execResetPinAssert (r : ResetPin) (s : State) : Host.Outcome State Fault Refusal :=
  if s.hk.pin r = .armed && s.hk.orient ≠ 0 && s.hk.pins.get 0 (pinNo r) = 0 then .next (s.setPin r .asserted) else .next s

/-- `RESET_PIN_RELEASE` (R462). -/
def execResetPinRelease (r : ResetPin) (s : State) : Host.Outcome State Fault Refusal :=
  match s.hk.pin r with
  | .asserted => .next ((s.pinReset r).setPin r .ignored)
  | .begun => .next (s.setPin r .ignored)
  | _ => .next s

/-- `RESET_PIN_HOLD_TIMEOUT` (R462). -/
def execResetPinHoldTimeout (r : ResetPin) (s : State) : Host.Outcome State Fault Refusal :=
  if s.hk.pin r = .asserted then .next ((s.pinReset r).setPin r .begun) else .next s

/-- `RESET_PIN_STUCK` (R461): the pin is marked shorted to ground. -/
def execResetPinStuck (r : ResetPin) (s : State) : Host.Outcome State Fault Refusal :=
  if s.hk.pin r = .begun then
    let s := s.setPin r .stuck
    .next { s with hk := { s.hk with
      pins := s.hk.pins.set 0 (pinNo r) 1
      sbFault := s.hk.sbFault ||| BitVec.ofNat 17 (2 ^ pinNo r) } }
  else .next s

/-- `RESET_PIN_REARM` (R461, R462): the pin has read deasserted for 10 ms. -/
def execResetPinRearm (r : ResetPin) (s : State) : Host.Outcome State Fault Refusal :=
  match s.hk.pin r with
  | .ignored => .next (s.setPin r .armed)
  | .stuck =>
    let s := s.setPin r .armed
    .next { s with hk := { s.hk with pins := s.hk.pins.set 0 (pinNo r) 0 } }
  | _ => .next s

/-- `PACKAGE_POWER_LOSS` (R421, R434, R441): what the package holds is lost; flash keeps its copies, and the host its
memory. -/
def execPackagePowerLoss (s : State) : Host.Outcome State Fault Refusal :=
  .next { State.reset with
    pending := s.pending
    freeCtr := s.freeCtr
    hostMem := s.hostMem
    hostErr := s.hostErr
    irqSent := s.irqSent
    stepping := s.stepping
    cad := { State.reset.cad with flash0 := s.cad.flash0, flash1 := s.cad.flash1 } }

/-- `FIRMWARE_WATCHDOG_EXPIRY` (R393): UNCONTAINED with reason 3. -/
def execFirmwareWatchdogExpiry (s : State) : Host.Outcome State Fault Refusal :=
  if s.hi.st = .faulted || s.th.tripped then .next s else .next (s.uncontained 3 id)

end Sys2Proof.Machine
end

