-- ==== Sys2Proof/Machine/Regs.lean ====
section
/-! DEFINITION. The registers of BAR0 (R11 to R13, R366, R392): what a write of each does, doorbells and enables among
them (Read.lean says what a read returns). Offsets are byte offsets of BAR0. -/

namespace Sys2Proof.Machine

/-- Replace the low or the high half of a 64-bit register (R12). -/
def putHalf (hi : Bool) (old : DWord) (w : Nat) : DWord :=
  if hi then BitVec.ofNat 64 (old.toNat % 4294967296 + 4294967296 * w)
  else BitVec.ofNat 64 (old.toNat - old.toNat % 4294967296 + w)

/-- A write of a reserved encoding leaves the field as it was (R13). -/
def keepIf {α : Type} (bad : Bool) (old new : α) : α := if bad then old else new

/-! ### Doorbells and rings (R371 to R374) -/

/-- An index lies in `lo` to `lo + n`, counted modulo 2^32 (R372). -/
def inRing (lo v : Word) (n : Nat) : Bool := decide ((v - lo).toNat ≤ n)

/-- A refused doorbell or consumer write (R372). -/
def State.dbError (s : State) : State :=
  { s with hi := { s.hi with err := s.hi.err ||| 1, dbErrors := satAdd s.hi.dbErrors 1 } }

/-- A write of `HI_MCQ_TAIL`. -/
def State.writeMcqTail (s : State) (v : Word) : State :=
  if s.hi.st = .resetting then s
  else if inRing s.hi.mcqHead v (2 ^ s.hi.mcqLog2n.toNat) then { s with hi := { s.hi with mcqTail := v } }
  else s.dbError

/-- A write of `HI_WQ_TAIL_q`: packets are queued, and the context may become READY (R341, R374). -/
def State.writeWqTail (s : State) (q : Fin 256) (v : Word) : State :=
  match s.queue q with
  | none => s
  | some w =>
    if s.hi.st = .resetting || (s.ctx w.part w.ctx).st = .faulted then s
    else if inRing w.head v (2 ^ w.log2n) then (s.setQueue q (some { w with tail := v })).schedule w.part
    else s.dbError

/-- A write of `EV_CONS_e`: records are consumed and room appears. -/
def State.writeCons (s : State) (e : Fin 8) (v : Word) : State :=
  let q := s.eventQ e
  if inRing q.cons v (q.prod - q.cons).toNat then
    let s := s.setEventQ e { q with cons := v, kept := q.kept && v = q.cons }
    s.flushLate e s.evLate.length
  else s.dbError

/-- A write of `HI_MCQ_CFG` (R373): the size only while disabled; enabling sets the indices to 0. -/
def State.writeMcqCfg (s : State) (v : Nat) : State :=
  let h := s.hi
  let n := bits v 3 0
  let on := bit v 4
  let h := { h with
    mcqLog2n := if h.mcqEnable then h.mcqLog2n else keepIf (n < 4 || 10 < n) h.mcqLog2n (BitVec.ofNat 4 n)
    mcqIrq := bit v 5
    mcqEnable := on
    mcqHead := if on && !h.mcqEnable then 0 else h.mcqHead
    mcqTail := if on && !h.mcqEnable then 0 else h.mcqTail
    mcqTaken := if on && !h.mcqEnable then 0 else h.mcqTaken }
  { s with hi := h }

/-- A write of `EV_CFG_e` (R373): enabling sets the indices to 0; with `IRQ_EN` set, what is pending may be due (R391). -/
def State.writeEvCfg (s : State) (e : Fin 8) (v : Nat) : State :=
  let s := if bit v 5 then s else s.dropLate e
  (s.updEventQ e (fun q =>
    let n := bits v 4 0
    let on := bit v 5
    let fresh := on && !q.enable
    { q with
      log2n := if q.enable then q.log2n else keepIf (n < 6 || 16 < n) q.log2n (BitVec.ofNat 5 n)
      enable := on
      irqEn := bit v 6
      prod := if fresh then 0 else q.prod
      cons := if fresh then 0 else q.cons
      pend := if fresh then 0 else q.pend
      lost := if fresh then 0 else q.lost
      kept := !fresh && q.kept })).maybeIrq e false

/-! ### Writes of ones (R392) -/

/-- A write of ones to a W1C register, with the bits that hardware sets in the same hk cycle: a set wins. -/
def State.writeW1c (s : State) (r : W1cReg) (v sets : Nat) : State :=
  match r with
  | .hiErr => { s with hi := { s.hi with err := (s.hi.err &&& ~~~(BitVec.ofNat 3 v)) ||| BitVec.ofNat 3 sets } }
  | .evStatus e => s.updEventQ e (fun q => { q with overflow := (q.overflow && !bit v 0) || bit sets 0 })
  | .sbFault => { s with hk := { s.hk with sbFault := (s.hk.sbFault &&& ~~~(BitVec.ofNat 17 v)) ||| BitVec.ofNat 17 sets } }
  | .thStatus => { s with th := { s.th with status := (s.th.status &&& ~~~(BitVec.ofNat 4 v)) ||| BitVec.ofNat 4 sets } }

/-! ### Contexts and watchdog (R306, R341, R342) -/

/-- A write of `PS_CTX_CTRL_c` (R341, R342): `SUSPEND` 1 takes a context out of scheduling, 0 lets it back. -/
def State.writeSuspend (s : State) (p : Fin 4) (x : Fin 16) (on : Bool) : State :=
  let s := s.updCtx p x (fun c => { c with suspend := on })
  if on && (s.ctx p x).st = .ready then
    ((s.updCtx p x (fun c => { c with st := .waiting })).preemptDone p x).schedule p
  else s.schedule p

/-- A write of `PS_WDOG_PERIOD` or `PS_WDOG_CTRL` (R306): the count becomes 0. -/
def State.writeWdog (s : State) (p : Fin 4) (r : WdogReg) (v : Nat) : State :=
  s.updPart p (fun q => match r with
    | .period => { q with wdPeriod := keepIf (v = 0) q.wdPeriod (BitVec.ofNat 32 v), wdCount := 0 }
    | .ctrl => { q with wdEn := bit v 0, wdCount := 0 })

/-! ### Links and traces (R72, R311, R317, R321) -/

/-- A write of `LK_CTRL` (R311, R317). A link that is disabled already has nothing to end (DEDUCED, log 20). -/
def State.writeLkCtrl (s : State) (l : Fin 48) (v : Nat) : State :=
  let s := s.updLink l (fun k => { k with enable := bit v 0, halfOk := bit v 1, precode := bit v 2 })
  let st := (s.link l).st
  if bit v 0 then (if st = .disabled then s.updLink l (fun k => { k with st := .detect }) else s)
  else if st = .disabled then s
  else (s.freshStart l 3).updLink l (fun k => { k with st := .disabled, width := 0 })

/-- A write of `LK_CMD` (R311). -/
def State.writeLkCmd (s : State) (l : Fin 48) (v : Nat) : State :=
  if bit v 0 && (s.link l).st = .active then
    s.updLink l (fun k => { k with st := .retrain, retrains := satAdd k.retrains 1 })
  else s

/-- A write of `CL_TRACE_CTRL` (R72, registers of 02): setting `ENABLE` clears the pointer, the flags and the counts. -/
def State.writeTrace (s : State) (cl : ClusterId) (v : Nat) : State :=
  s.updCluster cl (fun k =>
    let fresh := bit v 0 && !k.trEnable
    { k with
      trEnable := bit v 0
      trMode := bit v 1
      trBundles := bit v 2
      trCores := BitVec.ofNat 9 (bits v 11 3)
      trTypes := BitVec.ofNat 16 (bits v 31 16)
      trNext := if fresh then 0 else k.trNext
      trWrapped := !fresh && k.trWrapped
      trFull := !fresh && k.trFull
      trLost := if fresh then 0 else k.trLost
      trSeq := if fresh then 0 else k.trSeq
      trDropped := if fresh then 0 else k.trDropped })

/-! ### MSI-X (R390) -/

/-- A write of a word of the MSI-X table: unmasking sends what is pending. -/
def State.writeMsix (s : State) (o w : Nat) : State :=
  let n := o / 16
  let d : MsixVec := ⟨0, 0, true⟩
  let old := s.msix.get d n
  let new : MsixVec := match o % 16 / 4 with
    | 0 => { old with addr := putHalf false old.addr w }
    | 1 => { old with addr := putHalf true old.addr w }
    | 2 => { old with data := BitVec.ofNat 32 w }
    | _ => { old with masked := bit w 0 }
  let s := { s with msix := s.msix.set d n new }
  if !new.masked && s.pba.getLsbD n then
    { s with pba := s.pba &&& ~~~(BitVec.ofNat 9 (2 ^ n)), irqSent := s.irqSent ++ [n] }
  else s

/-! ### All writes -/

/-- A 32-bit write in the global block. -/
def State.writeGlobal (s : State) (o w : Nat) : State :=
  let h := s.hi
  if o = 0x1004 then s.writeW1c .hiErr w 0
  else if o = 0x1008 then (if h.mcqEnable then s else { s with hi := { h with mcqBase := putHalf false h.mcqBase w } })
  else if o = 0x100C then (if h.mcqEnable then s else { s with hi := { h with mcqBase := putHalf true h.mcqBase w } })
  else if o = 0x1010 then s.writeMcqCfg w
  else if o = 0x1014 then s.writeMcqTail (BitVec.ofNat 32 w)
  else if o = 0x1020 then { s with hi := { h with mcqHeadWb := putHalf false h.mcqHeadWb w } }
  else if o = 0x1024 then { s with hi := { h with mcqHeadWb := putHalf true h.mcqHeadWb w } }
  else if 0x2000 ≤ o && o < 0x2200 then
    let e : Fin 8 := ⟨(o - 0x2000) / 64 % 8, by omega⟩
    match o % 64 with
    | 0x00 => s.updEventQ e (fun q => if q.enable then q else { q with base := putHalf false q.base w })
    | 0x04 => s.updEventQ e (fun q => if q.enable then q else { q with base := putHalf true q.base w })
    | 0x08 => s.writeEvCfg e w
    | 0x0C => (s.updEventQ e (fun q => { q with
        count := keepIf (bits w 7 0 = 0) q.count (BitVec.ofNat 8 w), timer := BitVec.ofNat 16 (bits w 31 16) })).maybeIrq e false
    | 0x14 => s.writeCons e (BitVec.ofNat 32 w)
    | 0x18 => s.updEventQ e (fun q => { q with prodWb := putHalf false q.prodWb w })
    | 0x1C => s.updEventQ e (fun q => { q with prodWb := putHalf true q.prodWb w })
    | 0x20 => s.writeW1c (.evStatus e) w 0
    | _ => s
  else if 0x3000 ≤ o && o < 0x3090 then s.writeMsix (o - 0x3000) w
  else if o = 0x5000 then
    { s with hk := { s.hk with
      rowWindow := keepIf (bits w 15 0 = 0) s.hk.rowWindow (BitVec.ofNat 16 w)
      unitWindow := keepIf (bits w 31 16 = 0) s.hk.unitWindow (BitVec.ofNat 16 (bits w 31 16)) } }
  else if o = 0x5108 then { s with hk := { s.hk with retention := bit w 0 } }
  else if o = 0x5208 then s.writeW1c .sbFault w 0
  else if o = 0x7000 then s.writeW1c .thStatus w 0
  else if 0x10000 ≤ o && o < 0x110000 && o % 4096 = 0 then
    s.writeWqTail ⟨(o - 0x10000) / 4096 % 256, by omega⟩ (BitVec.ofNat 32 w)
  else s

/-- A 32-bit write in a partition's block. -/
def State.writePartReg (s : State) (p : Fin 4) (o w : Nat) : State :=
  if o = 0x100 then s.updPart p (fun q => { q with idleDelay := BitVec.ofNat 20 w })
  else if o = 0x108 then
    s.updPart p (fun q => { q with thinMax := keepIf (bits w 3 0 = 0 || 8 < bits w 3 0) q.thinMax (BitVec.ofNat 4 w) })
  else if o = 0x304 then s.updPart p (fun q => { q with yieldHk := BitVec.ofNat 16 w })
  else if o = 0x310 then
    s.updPart p (fun q => { q with holdBudget := keepIf (bits w 23 0 = 0) q.holdBudget (BitVec.ofNat 24 w) })
  else if o = 0x318 then s.writeWdog p .ctrl w
  else if o = 0x31C then s.writeWdog p .period w
  else if 0x400 ≤ o && o < 0x600 then
    let x : Fin 16 := ⟨(o - 0x400) / 32 % 16, by omega⟩
    match o % 32 with
    | 0x04 => s.writeSuspend p x (bit w 0)
    | 0x08 => s.updCtx p x (fun c => { c with quantum := keepIf (bits w 23 0 = 0) c.quantum (BitVec.ofNat 24 w) })
    | _ => s
  else if o = 0x600 then
    s.updPart p (fun q => { q with repairMs := keepIf (bits w 15 0 = 0) q.repairMs (BitVec.ofNat 16 w) })
  else if o = 0x608 then s.updPart p (fun q => { q with disjoint := BitVec.ofNat 16 w })
  else if o = 0x20000 then s.updPart p (fun q => { q with freeShare := bit w 0 })
  else if 0x800000 ≤ o && o < 0x8A0000 then
    let cl : Fin 10 := ⟨(o - 0x800000) / 65536 % 10, by omega⟩
    let k := (o - 0x800000) % 65536 / 4096
    if h : k < 9 then
      let c : CoreId := ⟨p, cl, ⟨k, h⟩⟩
      match o % 4096 with
      | 0x004 => s.updCore c (fun y => { y with hazEn := bit w 0 })
      | 0x008 => s.updCore c (fun y => { y with waitLimit := BitVec.ofNat 24 w })
      | _ => s
    else if o % 65536 = 0xF000 then s.writeTrace ⟨p, cl⟩ w
    else s
  else s

/-- A 32-bit write in a link's block. -/
def State.writeLinkReg (s : State) (l : Fin 48) (o w : Nat) : State :=
  if o = 0x00 then s.writeLkCtrl l w
  else if o = 0x04 then s.writeLkCmd l w
  else if o = 0x0C then
    s.updLink l (fun k => { k with
      expDev := BitVec.ofNat 12 w
      expLink := keepIf (48 ≤ bits w 17 12) k.expLink (BitVec.ofNat 6 (bits w 17 12))
      expAny := bit w 18 })
  else if o = 0x1C then s.updLink l (fun k => { k with laneLimit := BitVec.ofNat 16 w })
  else if 0x20 ≤ o && o < 0x60 then
    s.updLink l (fun k => { k with
      grants := k.grants.set ⟨false, 0⟩ ((o - 0x20) / 4) ⟨bit w 0, BitVec.ofNat 4 (bits w 4 1)⟩ })
  else s

/-- A 32-bit write in a stack's block. -/
def State.writeStackReg (s : State) (k : Fin 12) (o w : Nat) : State :=
  if o = 0x108 then
    s.updStack k (fun y => { y with slotMode := keepIf (bits w 1 0 = 3) y.slotMode (BitVec.ofNat 2 w) })
  else if 0x180 ≤ o && o < 0x200 then
    let d := (o - 0x180) / 8
    s.updStack k (fun y => { y with slotOff := y.slotOff.set 0 d (putHalf (o % 8 = 4) (y.slotOff.get 0 d) w) })
  else if o = 0x400 then
    s.updStack k (fun y => { y with
      passHours := keepIf (bits w 7 0 = 0 || 168 < bits w 7 0) y.passHours (BitVec.ofNat 8 w), scrubEn := bit w 8 })
  else s

/-- Registers that accept writes while the device is STARTING (R418): the `HI_` and `EV_` registers and the MSI-X table. -/
def startWritable (o : Nat) : Bool :=
  (decide (0x1000 ≤ o) && decide (o < 0x3090)) || (decide (0x10000 ≤ o) && decide (o < 0x110000))

/-- A write of a register that is shut while the device is STARTING (R418). -/
def State.pastStart (s : State) (f : State → State) : State := if s.hi.st = .starting then s else f s

/-- A naturally aligned 32-bit write at a BAR0 offset (R366, R418). -/
def State.writeWord (s : State) (o w : Nat) : State :=
  if s.hi.st = .starting && !startWritable o then s
  else if o < 0x1000000 then s.writeGlobal o w
  else if o < 0x5000000 then s.writePartReg ⟨(o / 0x1000000 - 1) % 4, by omega⟩ (o % 0x1000000) w
  else if o < 0x6000000 then
    let l := (o - 0x5000000) / 0x10000
    if h : l < 48 then s.writeLinkReg ⟨l, h⟩ (o % 0x10000) w else s
  else
    let k := (o - 0x6000000) / 0x100000
    if h : k < 12 then s.writeStackReg ⟨k, h⟩ (o % 0x100000) w else s

/-- A write to BAR0 (R12): 32 or 64 bits, naturally aligned; any other has no effect. -/
def State.writeReg (s : State) (o size v : Nat) : State :=
  if size = 4 && o % 4 = 0 then s.writeWord o (v % 4294967296)
  else if size = 8 && o % 8 = 0 then
    (s.writeWord o (v % 4294967296)).writeWord (o + 4) (v / 4294967296 % 4294967296)
  else s

/-! ### The commands -/

/-- `MCQ_DOORBELL` (R372). -/
def execMcqDoorbell (v : Word) (s : State) : Host.Outcome State Fault Refusal := .next (s.writeMcqTail v)
/-- `WQ_DOORBELL` (R374). -/
def execWqDoorbell (q : Fin 256) (v : Word) (s : State) : Host.Outcome State Fault Refusal := .next (s.writeWqTail q v)
/-- `EV_CONS_WRITE` (R372). -/
def execEvConsWrite (e : Fin 8) (v : Word) (s : State) : Host.Outcome State Fault Refusal := .next (s.writeCons e v)
/-- `MCQ_ENABLE` (R373): a write of `HI_MCQ_CFG`. -/
def execMcqEnable (v : Word) (s : State) : Host.Outcome State Fault Refusal := .next (s.writeMcqCfg v.toNat)
/-- `EVQ_ENABLE` (R373): a write of `EV_CFG_e`. -/
def execEvqEnable (e : Fin 8) (v : Word) (s : State) : Host.Outcome State Fault Refusal := .next (s.writeEvCfg e v.toNat)
/-- `SUSPEND` (R341): a write of `PS_CTX_CTRL_c`. -/
def execSuspend (p : Fin 4) (x : Fin 16) (v : Word) (s : State) : Host.Outcome State Fault Refusal :=
  .next (s.pastStart (fun s => s.writeSuspend p x (v.getLsbD 0)))
/-- `UNSUSPEND` (R341): a write of `PS_CTX_CTRL_c`. -/
def execUnsuspend (p : Fin 4) (x : Fin 16) (v : Word) (s : State) : Host.Outcome State Fault Refusal :=
  .next (s.pastStart (fun s => s.writeSuspend p x (v.getLsbD 0)))
/-- `LINK_ENABLE` (R311): a write of `LK_CTRL`. -/
def execLinkEnable (l : Fin 48) (v : Word) (s : State) : Host.Outcome State Fault Refusal := .next (s.pastStart (fun s => s.writeLkCtrl l v.toNat))
/-- `LINK_DISABLE` (R317): a write of `LK_CTRL`. -/
def execLinkDisable (l : Fin 48) (v : Word) (s : State) : Host.Outcome State Fault Refusal := .next (s.pastStart (fun s => s.writeLkCtrl l v.toNat))
/-- `RETRAIN` (R311): a write of `LK_CMD`. -/
def execRetrain (l : Fin 48) (v : Word) (s : State) : Host.Outcome State Fault Refusal := .next (s.pastStart (fun s => s.writeLkCmd l v.toNat))
/-- `WDOG_CONFIG_WRITE` (R306). -/
def execWdogConfigWrite (p : Fin 4) (r : WdogReg) (v : Word) (s : State) : Host.Outcome State Fault Refusal :=
  .next (s.pastStart (fun s => s.writeWdog p r v.toNat))
/-- Whether a W1C register is one of those that accept writes while the device is STARTING (R418). -/
def w1cEarly : W1cReg → Bool
  | .hiErr => true
  | .evStatus _ => true
  | .sbFault => false
  | .thStatus => false

/-- `W1C_CLEAR` (R392, R418): a write that is ignored clears nothing, and what hardware sets is set. -/
def execW1cClear (r : W1cReg) (v sets : Word) (s : State) : Host.Outcome State Fault Refusal :=
  .next (s.writeW1c r (if s.hi.st = .starting && !w1cEarly r then 0 else v.toNat) sets.toNat)
/-- `REGISTER_WRITE` (R11 to R13). -/
def execRegisterWrite (off : BitVec 28) (size : Nat) (v : DWord) (s : State) : Host.Outcome State Fault Refusal :=
  .next (s.writeReg off.toNat size v.toNat)
/-- `TRACE_ENABLE` (R72): a write of `CL_TRACE_CTRL`. -/
def execTraceEnable (cl : ClusterId) (v : Word) (s : State) : Host.Outcome State Fault Refusal :=
  .next (s.pastStart (fun s => s.writeTrace cl v.toNat))

/-- `LOST` (R73, R74): once room returns, a record says how many were dropped since the last one. It belongs to no core: its core, `PC`
and tags are 0, and `CORE_MASK` does not filter it (DESIGN CHOICE, log 88). -/
def execLost (cl : ClusterId) (s : State) : Host.Outcome State Fault Refusal :=
  let k := s.cluster cl
  if k.trEnable && k.trTypes.getLsbD 15 && decide (0 < k.trDropped) && k.traceRoom then
    let r := traceBytes 15 0 0 0 0 0 k.trSeq k.cycle k.trDropped
    .next (s.setCluster cl { k.putTrace r with trDropped := 0 })
  else .next s

/-- `INTERRUPT_TIMER` (R391): `TIMER` hk cycles have passed since the first pending event. -/
def execInterruptTimer (e : Fin 8) (s : State) : Host.Outcome State Fault Refusal :=
  let q := s.eventQ e
  if q.irqEn && decide (0 < q.pend) then .next ((s.setEventQ e { q with pend := 0 }).sendIrq e.val) else .next s

end Sys2Proof.Machine
end

