-- ==== Sys2Proof/Machine/Switch.lean ====
section
/-! DEFINITION. Context switches (R341 to R355): what makes one due, the cut, the save, the restore, and the replay of a failed
share (R411 to R413). -/

namespace Sys2Proof.Machine

/-! ### A switch becomes due (R342, R352) -/

/-- The running context of a partition that runs with another READY. -/
def State.contested (s : State) (p : Fin 4) : Option (Fin 16) :=
  match (s.part p).cur with
  | some x => if (s.ctx p x).st = .running && (s.part p).otherReady x then some x else none
  | none => none

/-- `QUANTUM_EXPIRY` (R342). -/
def execQuantumExpiry (p : Fin 4) (s : State) : Host.Outcome State Fault Refusal :=
  match s.contested p with
  | some x => .next (s.switchDue p x)
  | none => .next s

/-- `YIELD_EXPIRY` (R342): every started packet has been held for `YIELD` hk cycles; a delay of 0 disables the rule. -/
def execYieldExpiry (p : Fin 4) (s : State) : Host.Outcome State Fault Refusal :=
  match s.contested p with
  | some x => if (s.part p).yieldHk ≠ 0 && s.ctxHeld p x then .next (s.switchDue p x) else .next s
  | none => .next s

/-- `HOLD_BUDGET_EXPIRY` (R352): the semaphores are broken, and the switch goes on. -/
def execHoldBudgetExpiry (p : Fin 4) (s : State) : Host.Outcome State Fault Refusal :=
  match (s.part p).cur with
  | some x =>
    if (s.ctx p x).st = .running && (s.ctx p x).deferred then .next ((s.breakSems p x).switchDue p x) else .next s
  | none => .next s

/-! ### The cut (R349 steps 1 to 3) -/

/-- Cores of a partition that hold shares of a context. -/
def State.coresOfCtx (s : State) (p : Fin 4) (x : Fin 16) : List CoreId :=
  (coresOfPart p).filter (fun c => match (s.core c).share with | some sh => sh.ctx = x | none => false)

/-- A waiter's reply is still to come, or lies in the mailbox (R354). -/
def State.awaits (s : State) (p : Fin 4) (w : Waiter) : Bool := s.awaiting p w || (s.ctx p w.ctx).mail.any (fun e => e.op.who = w)

/-- An instance stands at a cut point: it is cut or parked, or it awaits a peer (R113, R349, R354). -/
def State.instCut (s : State) (c : CoreId) (i : Inst) : Bool :=
  match i.st with
  | .cut => true
  | .parked => true
  | .waiting => s.awaits c.p (s.instWaiter c i.id)
  | _ => false

/-- A core is cut: between bundles, its writes landed, its instances at cut points (R62, R349). -/
def State.coreCut (s : State) (c : CoreId) : Bool :=
  let x := s.core c
  x.st ≠ .running || (x.cur.isNone && x.inflight.isEmpty && x.runs.all (s.instCut c))

/-- A stack command is of a context. -/
def State.cmdOf (s : State) (p : Fin 4) (x : Fin 16) (m : StackCmd) : Bool :=
  match s.pktOfCmd m with
  | some k => k.part = p && k.ctx = x
  | none => false

/-- A command is cut between two of its runs (R230): what its completed runs make is written, however many those are; a command that
would wait, park or fail in them is cut before it. -/
def State.cutCommand (s : State) (st : Fin 12) (m : StackCmd) : State :=
  let stays (s : State) (n : Nat) : State := s.updStack st (fun y => { y with
    queue := y.queue.map (fun j => if j = m then { m with st := .cut, done := n } else j) })
  match s.pktOfCmd m with
  | none => s
  | some k =>
    let left := s.cmdParts st m k - m.done
    let n := m.done + Config.pick s.freeCtr % (left + 1)
    if m.st ≠ .running || m.kind = .attend || n = m.done then stays s m.done
    else match (s.draw 1).runCommand st m k m.done n with
      | (t, true) => match t.now k with
        | some j => if j.status = .ok then stays t n else stays s m.done
        | none => stays s m.done
      | (_, false) => stays s m.done

/-- Stack commands of a context stop at run boundaries (R230). -/
def State.cutCommands (s : State) (p : Fin 4) (x : Fin 16) : State :=
  (stacksOf p).foldl (fun s st =>
    (((s.stack st).queue.filter (fun m => s.cmdOf p x m && (m.st = .running || m.st = .queued))).foldl (fun s m =>
      s.cutCommand st m) s)) s

/-- Every unit of a partition's stacks has stopped at a run boundary (R230). -/
def State.unitsCut (s : State) (p : Fin 4) : Bool :=
  (stacksOf p).all (fun st => (s.stack st).units.all (fun e => !e.2.inRun))

/-- The work of a partition's bank units leaves them, to go on from their first runs not done; their waves end (R230). -/
def State.takeUnits (s : State) (p : Fin 4) (x : Fin 16) : State :=
  (stacksOf p).foldl (fun s st =>
    let us : List UnitId := ((List.finRange 16).flatMap (fun d => (List.finRange 68).map (fun n => ⟨st, d, n⟩))).filter (fun u =>
      (s.unit u).busy && !(s.unit u).out)
    let units := us.map (fun u => (⟨u, (s.unit u).program, (s.unit u).pc, (s.unit u).loads⟩ : SavedUnit))
    let waves := (s.liveWaves st).map (fun w => (⟨st, w.die, w.units, w.writes⟩ : SavedWave))
    let s := s.updCtx p x (fun k => { k with units := k.units ++ units, waves := k.waves ++ waves })
    let s := us.foldl (fun s u => s.updUnit u (fun y => { y.emptied with st := .idle, outQ := y.outQ, gate := true })) s
    s.updStack st (fun y => { y with waves := [], slots := [] })) s

/-- A saved wave starts again: `MODE` and `SE_SLOT_OFF_d` are sampled anew, and each unit goes on at its first run not done (R215,
R230). A unit that has failed meanwhile has its runs in proxy mode. -/
def State.giveUnits (s : State) (p : Fin 4) (x : Fin 16) : State :=
  let units := (s.ctx p x).units
  let s := (s.ctx p x).waves.foldl (fun s w => s.updStack w.s (fun k => { k with
    waves := k.waves ++ [⟨w.die, w.units, w.writes, k.slotMode, k.slotOff.get 0 w.die.val, 0, false⟩] })) s
  let s := units.foldl (fun s v =>
    if (s.unit v.u).out then s
    else (s.updUnit v.u (fun y => { y with program := v.program, pc := v.pc, loads := v.loads, waveStep := 0 })).queueForSlot v.u) s
  s.updCtx p x (fun k => { k with units := [], waves := [] })

/-- `CUT_COMPLETE` (R349): every engine of the outgoing context has cut and drained; its registrations are withdrawn. -/
def execCutComplete (p : Fin 4) (s : State) : Host.Outcome State Fault Refusal :=
  match (s.part p).cur with
  | some x =>
    if (s.ctx p x).st = .saving && !(s.part p).cut && (s.coresOfCtx p x).all s.coreCut
        && (coresOfPart p).all (fun c => (s.core c).stopping.all (fun j => j.share.ctx ≠ x)) && s.unitsCut p then
      let s := { s with waits := s.waits.filter (fun w => !(w.part = p && w.ctx = x)) }
      .next (((s.cutCommands p x).takeUnits p x).updPart p (fun q => { q with cut := true }))
    else .next s
  | none => .next s

/-! ### The save (R346 to R349) -/

/-- Slot of a core in a save area (R348): 8 × cluster + rank among the cluster's enabled cores. -/
def State.slotOf (s : State) (c : CoreId) : Nat :=
  8 * c.c.val + ((coresOf c.cluster).filter s.working).idxOf c % 8

/-- The discardable mask of a packet (R344, R346). -/
def discardOf (k : Option Pkt) : BitVec 32 :=
  match k with
  | some k => if k.kind = .run then BitVec.ofNat 32 (pf k.pkt 28 4) else 0
  | none => 0

/-- SP segments of a core that a save writes (R346). -/
def Core.liveSegs (x : Core) (discard : BitVec 32) : List Nat :=
  (List.range 32).filter (fun n => (n = 31 || x.spLive.getLsbD n) && !discard.getLsbD n)

/-- ACC tiles of a core that a save writes. -/
def Core.liveTiles (x : Core) : List Nat := (List.range 4).filter (fun n => x.accLive.getLsbD n)

/-- The packet that a core's share belongs to. -/
def State.pktOfCore (s : State) (c : CoreId) : Option Pkt :=
  match (s.core c).share with
  | some sh => s.pkts.find? sh.of
  | none => none

/-- What a save reads of a core: errors met on the way end it (R360, R393). -/
def State.saveCheck (s : State) (c : CoreId) (segs tiles : List Nat) : State × Bool :=
  let (s, bad) := segs.foldl (fun (r : State × Bool) n =>
    let (s, b) := r.1.spCheck c (65536 * n) 65536
    (s, r.2 || b.isSome)) (s, false)
  let x := s.core c
  (s, bad || tiles.any (fun n => (x.accCheck (65536 * n) 65536).isSome) || x.regBad.any (fun e => e.2))

/-- Save a core: SP, ACC and control state go to the save area (the control state's bytes belong to the device, log 38), and the
core is free. The flag says that an error was met. -/
def State.saveCore (s : State) (p : Fin 4) (x : Fin 16) (c : CoreId) : State × Bool :=
  let y := s.core c
  if y.st ≠ .running then
    -- a failed share that awaits its replay
    let s := s.updCtx p x (fun k => { k with saved := k.saved ++ [⟨c.key, s.slotOf c, { y with stopping := [] }⟩] })
    (s.updCore c (fun y => { y with share := none }), false)
  else
    let segs := y.liveSegs (discardOf (s.pktOfCore c))
    let tiles := y.liveTiles
    match s.saveCheck c segs tiles with
    | (s, true) => (s, true)
    | (s, false) =>
      let y := s.core c
      let base := (s.ctx p x).save.toNat
      let n := s.slotOf c
      let s := segs.foldl (fun s g =>
        s.writePart p.val (base + 48 * 2 ^ 20 + n * 2 ^ 21 + 65536 * g) (y.spBytes (65536 * g) 65536)) s
      let s := tiles.foldl (fun s t =>
        s.writePart p.val (base + 28 * 2 ^ 20 + n * 2 ^ 18 + 65536 * t) (y.accBytes (65536 * t) 65536)) s
      let s := (s.writePart p.val (base + 16384 * n) ((List.range 16384).map (Config.controlByte s.freeCtr))).draw 1
      let s := s.updCtx p x (fun k => { k with
        saved := k.saved ++ [⟨c.key, n, { y with stopping := [], sp := [], acc := [], spErr := [], accBad := [], prog := [], progBad := [] }⟩] })
      let s := s.updCore c (fun y => { y with
        dmaQ := []
        matQ := []
        vecQ := []
        runs := []
        hold := none
        st := .idle
        share := none
        ended := false
        lastCtx := some x.val })
      (s.regate c, false)

/-- Bytes that a core's save writes (R350), in KiB. -/
def State.saveSize (s : State) (c : CoreId) : Nat :=
  let y := s.core c
  if y.st ≠ .running then 0
  else 64 * (y.liveSegs (discardOf (s.pktOfCore c))).length + 64 * y.liveTiles.length + 16

/-- The 64-byte groups of a part of the save area. -/
def partGroups (p : Fin 4) (a n : Nat) : List Nat :=
  (List.range (cdiv (a % 64 + n) 64)).map (fun j => partPlace p.val (a - a % 64 + 64 * j) / 64)

/-- Read a part of the save area for errors: whether it reads as poison. -/
def State.savedBad (s : State) (p : Fin 4) (a n : Nat) : State × Bool :=
  let s := s.touch (partGroups p a n)
  (s, !s.memErr.isEmpty && (partGroups p a n).any s.groupPoisoned)

/-- Stacks of a partition that hold commands of a context, each with its place among the partition's three (R348). -/
def State.cmdStacks (s : State) (p : Fin 4) (x : Fin 16) : List (Fin 12 × Nat) :=
  (stacksOf p).zipIdx.filter (fun e => (s.stack e.1).queue.any (s.cmdOf p x))

/-- Where the command state of the `n`-th stack lies in a save area (R348). -/
def stackState (save n : Nat) : Nat := save + 2 ^ 22 + n * 2 ^ 23

/-- Stack engines write the state of a context's commands to its save area (R230, R349 step 4): its bytes belong to the device
(`Config.controlByte`, log 38). -/
def State.saveCommands (s : State) (p : Fin 4) (x : Fin 16) : State :=
  let save := (s.ctx p x).save.toNat
  (s.cmdStacks p x).foldl (fun s e =>
    (s.writePart p.val (stackState save e.2) ((List.range (2 ^ 23)).map (Config.controlByte s.freeCtr))).draw 1) s

/-- The command state is read back at the restore: whether it reads as poison (R360). -/
def State.commandsBad (s : State) (p : Fin 4) (x : Fin 16) : State × Bool :=
  let save := (s.ctx p x).save.toNat
  (s.cmdStacks p x).foldl (fun (r : State × Bool) e =>
    let (s, bad) := r.1.savedBad p (stackState save e.2) (2 ^ 23)
    (s, r.2 || bad)) (s, false)

/-- Save every core of a context. -/
def State.saveCores (s : State) (p : Fin 4) (x : Fin 16) : List CoreId → State × Bool
  | [] => (s, false)
  | c :: cs => match s.saveCore p x c with
    | (s, true) => (s, true)
    | (s, false) => s.saveCores p x cs

/-- Whether a context has queued or started packets (R341). -/
def State.staysReady (s : State) (p : Fin 4) (x : Fin 16) : Bool :=
  (s.hasWork p x || !(s.pktsOf p x).isEmpty) && !(s.part p).suspended x

/-- `SAVE_COMPLETE` (R341, R346 to R350), with the core cycles since the cut was requested. -/
def execSaveComplete (p : Fin 4) (cycles : Nat) (s : State) : Host.Outcome State Fault Refusal :=
  match (s.part p).cur with
  | some x =>
    if (s.ctx p x).st ≠ .saving || !(s.part p).cut then .next s
    else
      let cs := s.coresOfCtx p x
      let live := (cs.map s.saveSize).sum
      match (s.updCtx p x (fun k => { k with saved := [] })).saveCores p x cs with
      | (s, true) => .next (s.faultCtx p x 4 0 0 0)
      | (s, false) =>
        let s := s.saveCommands p x
        let ready := s.staysReady p x
        let gone := (s.part p).suspended x
        let s := s.updCtx p x (fun k => { k with
          st := if ready then .ready else .waiting
          live := BitVec.ofNat 32 live
          switchCyc := BitVec.ofNat 32 (min cycles 0xFFFFFFFF) })
        let s := if gone then s.preemptDone p x else s
        let s := s.updPart p (fun q => { q with cur := none, cut := false, lastRun := x, switches := satAdd q.switches 1 })
        .next (s.schedule p)
  | none => .next s

/-! ### Program images (R344, R349) -/

/-- The program image of a `RUN`, read from memory: the bytes; a line of the host to wait for; or poison and addresses that no
longer translate. A library program has none. -/
inductive ImageRead where
  | bytes (s : State) (l : List Byte)
  | wait (s : State)
  | bad (s : State) (a : Nat)

/-- Read the image of a packet. -/
def State.readImage (s : State) (k : Pkt) : ImageRead :=
  if k.kind ≠ .run then .bytes s []
  else
    let as := addrRun (pa k.pkt 8) (pf k.pkt 24 4)
    match s.translateAll k.part k.ctx as with
    | none => .bad s (pa k.pkt 8)
    | some ts => match s.heldUp k.part false ts with
      | some s => .wait s
      | none =>
        let (s, bad) := s.poisonIn as ts
        match bad with
        | some e => .bad s e.1
        | none => .bytes ((s.accessLines false true ts).cachePages k.part 10 k.ctx ts) (s.bytesAt (placesOf ts))

/-! ### The restore (R345, R347 to R349, R355) -/

/-- How a cut instance goes on (R349 step 6): its engine runs it, or it is sent to its home again. An instance whose park is over
runs. -/
def resumed (c : CoreId) (x : Fin 16) (parked : List ParkedOp) (i : Inst) : Inst :=
  match i.st with
  | .cut => { i with st := if i.op.direct then .running else .waiting }
  | .parked => if parked.any (fun k => k.ctx = x && k.who = .inst c i.id) then i else { i with st := if i.op.direct then .running else .waiting }
  | _ => i

/-- A core with its saved state back: SP and ACC from the save area, with 0 wherever nothing is restored and the core held
another context's data (R345), or where the packet discards (R346). -/
def Core.restored (y : Core) (c : CoreId) (x : Fin 16) (v : Core) (parked : List ParkedOp) (discard : BitVec 32)
    (sp acc : List (Nat × List Byte)) (image : List Byte) (library : Bool) : Core :=
  let same := y.lastCtx = some x.val
  let drop (t : Tbl Byte) : Tbl Byte := t.filter (fun (e : Nat × Byte) => !discard.getLsbD (e.1 / 65536))
  let touched (n : Nat) : Bool := sp.any (fun (e : Nat × List Byte) => e.1 = n)
  let keep (t : Tbl (BitVec 39)) : Tbl (BitVec 39) :=
    t.filter (fun (e : Nat × BitVec 39) => !touched (e.1 / 16384) && !discard.getLsbD (e.1 / 16384))
  { v with
    prog := if library then y.prog else y.prog.setMany 0 0 image
    progBad := if library then y.progBad else y.progBad.clear 0 image.length
    sp := sp.foldl (fun (t : Tbl Byte) (e : Nat × List Byte) => t.setMany 0 (65536 * e.1) e.2) (if same then drop y.sp else [])
    spErr := if same then keep y.spErr else []
    acc := acc.foldl (fun (t : Tbl Byte) (e : Nat × List Byte) => t.setMany 0 (65536 * e.1) e.2)
      (if same then y.acc.filter (fun (e : Nat × Byte) => v.accLive.getLsbD (e.1 / 65536)) else [])
    accBad := if same then y.accBad.filter (fun (e : Nat × Bool) =>
      v.accLive.getLsbD (e.1 / 65536) && !acc.any (fun (g : Nat × List Byte) => g.1 = e.1 / 65536)) else []
    runs := v.runs.map (resumed c x parked)
    stopping := y.stopping
    tokPhase := 0
    regBad := []
    spare := y.spare
    retired := y.retired
    parFaults := y.parFaults
    hazEn := y.hazEn
    waitLimit := y.waitLimit
    hReason := y.hReason
    hSlot := y.hSlot
    hMore := y.hMore
    hReg := y.hReg
    hFile := y.hFile
    hLevel := y.hLevel
    hPc := y.hPc
    hWtag := y.hWtag
    hMtag := y.hMtag
    hAddr := y.hAddr
    hIdx := y.hIdx
    stalls := y.stalls
    lastCtx := some x.val
    gateMe := y.gateMe
    gateVe := y.gateVe }

/-- A saved part of the save area, and whether it reads as poison. -/
def State.savedPart (s : State) (p : Fin 4) (a n : Nat) : State × List Byte × Bool :=
  let (s, bad) := s.savedBad p a n
  (s, s.readPart p.val a n, bad)

/-- Read parts of the save area. -/
def State.savedParts (s : State) (p : Fin 4) (base : Nat) (ns : List Nat) : State × List (Nat × List Byte) × Bool :=
  ns.foldl (fun (r : State × List (Nat × List Byte) × Bool) n =>
    let (s, b, bad) := r.1.savedPart p (base + 65536 * n) 65536
    (s, r.2.1 ++ [(n, b)], r.2.2 || bad)) (s, [], false)

/-- A share whose core has been retired while its context was out (R348): it waits there for its replay, or its packet ends. The
core's own halt registers stay as they are (R76); what retires a core is a parity fault (R411), which its `WORK_REPLAYED` names
(DEDUCED, log 91). -/
def State.lostShare (s : State) (c : CoreId) (sh : Share) (v : Core) (k : Pkt) : State :=
  if k.replayable && decide (sh.replays < 2) then
    (s.updCore c (fun y => { y with share := some { sh with cause := 0x30 } })).updCtx c.p sh.ctx (fun x => { x with
      takes := x.takes - v.semTakes })
  else s.faultPkt k 5 0 0

/-- Put one core back from its slot of the save area, its control state read first; the flag says that an error was met. A share of
a packet that has failed meanwhile is not started again, and a failed share that awaits its replay changes no register of its
core (R76, R360). -/
def State.restoreCore (s : State) (p : Fin 4) (x : Fin 16) (c : CoreId) (n : Nat) (v : Core) : State × Bool :=
  match v.share with
  | none => (s, false)
  | some sh => match s.pkts.find? sh.of with
    | none => (s, false)
    | some k =>
      if k.status = .failed then (s, false)
      else if !s.working c then (s.lostShare c sh v k, false)
      else if v.st ≠ .running then (s.updCore c (fun y => { y with share := some sh }), false)
      else match s.readImage k with
        | .wait s => (s, false)
        | .bad s _ => (s, true)
        | .bytes s image =>
          let base := (s.ctx p x).save.toNat
          let discard := discardOf (some k)
          let (s, bad0) := s.savedBad p (base + 16384 * n) 16384
          let (s, sp, bad1) := s.savedParts p (base + 48 * 2 ^ 20 + n * 2 ^ 21) (v.liveSegs discard)
          let (s, acc, bad2) := s.savedParts p (base + 28 * 2 ^ 20 + n * 2 ^ 18) v.liveTiles
          if bad0 || bad1 || bad2 then (s, true)
          else
            (s.updCore c (fun y => y.restored c x v s.parked discard sp acc image (k.kind ≠ .run)), false)

/-- Put every core of a context back. -/
def State.restoreCores (s : State) (p : Fin 4) (x : Fin 16) : List SavedCore → State × Bool
  | [] => (s, false)
  | v :: vs => match (coresOfPart p).find? (fun c => c.key = v.key) with
    | none => s.restoreCores p x vs
    | some c => match s.restoreCore p x c v.slot v.core with
      | (s, true) => (s, true)
      | (s, false) => s.restoreCores p x vs

/-- A line of the host still stands before an image of the context's packets. -/
def State.imagesWait (s : State) (p : Fin 4) (x : Fin 16) : Option State :=
  ((s.pktsOf p x).filter (fun k => k.kind = .run)).findSome? (fun k => match s.readImage k with
    | .wait s => some s
    | _ => none)

/-- Registrations are made again, each tested against its word's present value (R349 step 6). -/
def State.reregister (s : State) (p : Fin 4) (x : Fin 16) : State :=
  let s := (s.coresOfCtx p x).foldl (fun s c =>
    ((s.core c).runs.filter (fun i => i.st = .waiting && (i.op.op = 0x19 || i.op.op = 0x1B))).foldl (fun s i => s.homeInst c i.id) s) s
  ((s.pktsOf p x).filter (fun k => k.kind = .flagWait)).foldl (fun s k => if s.homeDue k then s.homeOf1 k else s) s

/-- Stack commands of a context go on (R230). -/
def State.resumeCommands (s : State) (p : Fin 4) (x : Fin 16) : State :=
  (stacksOf p).foldl (fun s st => (s.updStack st (fun y => { y with
    queue := y.queue.map (fun m => if s.cmdOf p x m && m.st = .cut then { m with st := .queued } else m) })).startCommands st) s

/-- Each waiting operation takes its entries from the mailbox in order of arrival; those still to be taken stay in it (R355). -/
def State.takeMail (s : State) (p : Fin 4) (x : Fin 16) : List Mail → State
  | [] => s
  | e :: es => ((s.updCtx p x (fun k => { k with mail := es })).deliver e.link e.op e.msg).takeMail p x es

/-- The mailbox of a context, read at its restore: whether it reads as poison (R354, R360). -/
def State.mailBad (s : State) (p : Fin 4) (x : Fin 16) : State × Bool :=
  let n := ((s.ctx p x).mail.map (fun e => 32 + e.msg.data.length)).sum
  if n = 0 then (s, false) else s.savedBad p ((s.ctx p x).save.toNat + 2 ^ 21) (min n (2 ^ 21))

/-- What happens once every core is back: the mailbox, the registrations, the stack commands, serves and collectives. -/
def State.resumeCtx (s : State) (p : Fin 4) (x : Fin 16) : State :=
  let s := s.updCtx p x (fun k => { k with st := .running, saved := [], quantumNow := k.quantum })
  let s := s.updPart p (fun q => { q with turn := [] })
  let s := s.takeMail p x (s.ctx p x).mail
  let s := ((s.reregister p x).giveUnits p x).resumeCommands p x
  let s := ((s.pktsOf p x).filter (fun k => k.kind = .pageServe || k.kind = .collective)).foldl (fun s k => match s.now k with
    | some k => s.goOn k
    | none => s) s
  (s.startServes p).schedule p

/-- `RESTORE_COMPLETE` (R345, R348, R349, R355). -/
def execRestoreComplete (p : Fin 4) (s : State) : Host.Outcome State Fault Refusal :=
  match (s.part p).cur with
  | some x =>
    if (s.ctx p x).st ≠ .restoring then .next s
    else match s.imagesWait p x with
      | some s => .next s
      | none => match s.restoreCores p x (s.ctx p x).saved with
        | (s, true) => .next (s.faultCtx p x 4 0 0 0)
        | (s, false) => match s.mailBad p x with
          | (s, true) => .next (s.faultCtx p x 4 0 0 0)
          | (s, false) => match s.commandsBad p x with
            | (s, true) => .next (s.faultCtx p x 4 0 0 0)
            | (s, false) => .next (s.resumeCtx p x)
  | none => .next s

/-! ### Replay (R413) -/

/-- Cores on which a failed share may be started again: of the same cluster if any is free, otherwise the lowest-numbered one. The
failed core itself is free unless it has been retired. -/
def State.replayCore (s : State) (c : CoreId) : Option CoreId :=
  let free := (coresOfPart c.p).filter (fun d => s.working d && (s.core d).st ≠ .running && (s.core d).stopping.isEmpty
    && ((s.core d).share.isNone || d = c))
  match free.filter (fun d => d.cluster = c.cluster) with
  | [] => free.head?
  | l => s.choose l

/-- The `WORK_REPLAYED` record (R389, R413). -/
def replayEvent (c d : CoreId) (reason : Nat) (wtag : Word) (evq : Nat) : Event :=
  ((((mkEvent 0x03 0 3).atCore c).withReason reason).withDetail (d.p.val + 256 * d.c.val + 65536 * d.k.val)).withWork wtag evq

/-- Start a failed share again on a core. -/
def State.replayOn (s : State) (k : Pkt) (c d : CoreId) (sh : Share) (image : List Byte) : State :=
  let reason := sh.cause.toNat
  let s := s.updCore c (fun y => { y with share := none })
  let args := if k.kind = .run then pa k.pkt 16 else pa k.pkt 8
  let entry := if k.kind = .run then pf k.pkt 32 2 else 0
  let cores := k.cores.map (fun e => if e = c then d else e)
  let s := s.updPkt k (fun j => { j with cores := cores })
  let s := s.acquireFor [d]
  let s := if k.kind = .run then s.startShare k d sh.index sh.count args entry (sh.replays + 1) image
    else (cores.zipIdx).foldl (fun (s : State) (e : CoreId × Nat) =>
      s.startShare k e.1 e.2 sh.count args entry (sh.replays + 1) []) s
  let s := s.updPart c.p (fun q => { q with replays := satAdd q.replays 1 })
  s.raise (replayEvent c d reason k.wtag (s.evqOf k.q))

/-- `REPLAY` (R411 to R413): nothing while no core is free, or the core holds no failed share of a running context. -/
def execReplay (c : CoreId) (s : State) : Host.Outcome State Fault Refusal :=
  match (s.core c).share, s.pktOfCore c with
  | some sh, some k =>
    if (s.core c).st = .running || !k.replayable || !decide (sh.replays < 2) || !s.live k then .next s
    else match s.replayCore c with
      | none => .next s
      | some d => match s.readImage k with
        | .wait s => .next s
        | .bad s a => .next (s.faultPkt k 5 a 0)
        | .bytes s image => .next ((s.draw 1).replayOn k c d sh image)
  | _, _ => .next s

end Sys2Proof.Machine
end

