-- ==== Sys2Proof/Machine/Repair.lean ====
section
/-! DEFINITION. Poisoned shared weights (R399 to R401): `REPAIR_BLOCK`, the operations that it lets go on, and the windows that
expire before it comes. -/

namespace Sys2Proof.Machine

/-- A parked instance goes on, where its context holds the core; one that is out goes on at its restore (R399). -/
def State.wakeInst (s : State) (x : Fin 16) (c : CoreId) (n : Nat) : State :=
  match (s.core c).share with
  | some sh => if sh.ctx = x then s.updInst c n (fun i => { i with st := if i.st = .parked then (if i.op.direct then .running else .waiting) else i.st }) else s
  | none => s

/-- A parked stack command goes on at its run. -/
def State.wakeCmd (s : State) (o : ParkedOp) (st : Fin 12) (k : Pkt) : State :=
  let run := (s.ctx o.part o.ctx).st = .running
  s.updStack st (fun y => { y with queue := y.queue.map (fun m =>
    if m.of k && m.st = .parked then { m with st := if !run then .cut else if y.gates = 15 then .queued else .running } else m) })

/-- A parked operation resumes (R399, R400). -/
def State.wake (s : State) (o : ParkedOp) : State :=
  let s' : State := { s with parked := s.parked.erase o }
  match o.who with
  | .inst c n => s'.wakeInst o.ctx c n
  | .cmd st q i lane idx => match s'.pktAt q i lane idx with
    | some k => s'.wakeCmd o st k
    | none => s'
  | .prog q i lane idx => match s'.pktAt q i lane idx with
    | some k =>
      let t := s'.updPkt k (fun j => { j with parked := false })
      if k.kind = .pageServe || k.kind = .collective then (match t.now k with | some k => t.goOn k | none => t) else t
    | none => s'
  | .read l m => s'.receive l m (fun s => s.serveRead l m)

/-- The block that `REPAIR_BLOCK` names, translated in its context's map, a HOST region left out (R400). -/
def State.repairBlock (s : State) (k : Packet) : Option (List Xlat) :=
  (s.access (mgmtPart k) (ctxAt k 24) (addrRun (pa k 8) 4096) (fun r => r.kind ≠ .host)).toOption

/-- Steps 2 to 5 of R400. -/
def State.repair (s : State) (p : Fin 4) (x : Fin 16) (a : Nat) (ts : List Xlat) (data : List Byte) : State :=
  let s := s.devWrite none ts data
  let s := if ts.any (fun t => t.region.datum) then s.setDatums p x (datumsOf a data) else s
  let s := s.dropCopies (groupsOf (placesOf ts))
  let bs := ((placesOf ts).map s.blockNo).dedup
  let s := { s with weightSeen := bs.foldl (fun (t : Tbl Bool) b => t.set false b false) s.weightSeen }
  let s := s.mgmtDone .ok 0
  (s.parked.filter (fun o => bs.contains o.block)).foldl State.wake s

/-- `REPAIR_BLOCK` (R400). -/
def execRepairBlock (k : Packet) (s : State) : Host.Outcome State Fault Refusal :=
  let p := mgmtPart k
  let q := s.part p
  let free := (q.ctx (ctxAt k 24)).st = .free
  let own := (addrBad k 8).2 || decide (pa k 8 % 4096 ≠ 0) || decide (15 < pf k 24 1)
  mgmtTo s p k (mgmtCheck k 0x0F true [(8, 8), (16, 8), (24, 1)]
      [addrBad k 8, (8, decide (pa k 8 % 4096 ≠ 0)), hostAddrBad k 16, (24, decide (15 < pf k 24 1)), (24, free),
        (8, !own && !free && (s.repairBlock k).isNone)]
      <|> s.notReady <|> wrongIf (q.st ≠ .running && q.st ≠ .stopping && q.st ≠ .stopped))
    (fun s =>
      if s.hostPoison (pa k 16) 4096 then s.mgmtFail (pa k 16)
      else match s.repairBlock k with
        | none => s
        | some ts => match s.heldUp p true ts with
          | some s => s
          | none => s.repair p (ctxAt k 24) (pa k 8) ts (s.hostRead (pa k 16) 4096))

/-- `REPAIR_WINDOW_EXPIRY` (R401): the `n`-th parked operation's window ends. -/
def execRepairWindowExpiry (n : Nat) (s : State) : Host.Outcome State Fault Refusal :=
  match s.parked[n]? with
  | none => .next s
  | some o =>
    let s := { s with parked := delNth s.parked n }
    let s := s.updPart o.part (fun q => { q with expired := satAdd q.expired 1 })
    match o.who with
    | .read l m => .next ((s.answerRead l m true (List.replicate (32 * m.len) 0)).readDone l m)
    | _ => .next (s.faultCtx o.part o.ctx 5 (o.addr.toNat - o.addr.toNat % 4096) o.wtag o.evq)

end Sys2Proof.Machine
end

