-- ==== Sys2Proof/Machine/Reset.lean ====
section
/-! DEFINITION. The command `RESET` at its five levels (R440 to R445). -/

namespace Sys2Proof.Machine

/-! ### CORE and CLUSTER (R441) -/

/-- A core after a CORE reset: the issue unit, the registers of R49, the queue entries, `CO_DEBUG` and `CO_WAIT_LIMIT` are reset;
SP, ACC, program memory, halt registers and a share that awaits its replay are kept. -/
def Core.coreReset (x : Core) : Core :=
  { x with
    a := []
    x := []
    j := []
    i := []
    bind := []
    tok := []
    mtag := 0
    wtag := 0
    pc := 0
    regBad := []
    inflight := []
    cur := none
    curDone := 0
    curDesc := []
    curPc := 0
    idle := 0
    hold := none
    ended := false
    issued := 0
    dmaQ := []
    matQ := []
    vecQ := []
    runs := []
    stopping := []
    tokPhase := 0
    st := .idle
    hazEn := false
    waitLimit := 0
    gateMe := true
    gateVe := true }

/-- A CORE reset. -/
def State.resetCore1 (s : State) (c : CoreId) : State :=
  (s.updCore c Core.coreReset).updCluster c.cluster (fun y => { y with dmaOrder := y.dmaOrder.erase c.k.val })

/-- What a CLUSTER reset adds for a core: SP and ACC are zero. -/
def Core.zeroed (x : Core) : Core :=
  { x with
    sp := []
    acc := []
    spErr := []
    accBad := []
    spLive := 0
    accLive := 0
    lastCtx := none }

/-- The ninth core of a cluster that is not retired is its spare; with fewer, the spare is in service (R409, R410). -/
def State.spareIn (s : State) (cl : ClusterId) : State :=
  let off := (s.cluster cl).disabled
  let good := (coresOf cl).filter (fun c => !(s.core c).retired)
  (coresOf cl).foldl (fun s c => s.updCore c (fun x => { x with spare := good.idxOf c = 8 && !x.retired && !off })) s

/-- A CLUSTER reset; the cycle count goes on (R74, R441). -/
def State.resetCluster (s : State) (cl : ClusterId) : State :=
  let s := (coresOf cl).foldl (fun s c => s.updCore c (fun x => x.coreReset.zeroed)) s
  let s := s.updCluster cl (fun y => { Cluster.reset with cycle := y.cycle, disabled := y.disabled })
  s.spareIn cl

/-! ### PARTITION (R441 to R443) -/

/-- A message that a link has accepted is performed (R317, R442). -/
def State.drainMsg (s : State) (l : Fin 48) (m : Msg) : State :=
  match m.type with
  | 0x01 => s.receive l m (fun s => s.serveRead l m)
  | 0x02 => s.receive l m (fun s => s.takeReply l m)
  | 0x03 => s.receive l m (fun s => s.serveWrite l m)
  | 0x04 => s.receive l m (fun s => s.serveCoded l m (s.serveReduce l m))
  | 0x05 => s.receive l m (fun s => s.serveFlag l m)
  | 0x06 => s.receive l m (fun s => s.serveRequest l m)
  | 0x07 => s.receive l m (fun s => s.serveCoded l m (s.serveShard l m))
  | 0x08 => s.receive l m (fun s => s.serveEnd l m)
  | 0x09 => s.receive l m (fun s => s.takeReply l m)
  | _ => s

/-- Lines homed in a partition that the host may hold (R443 step 4). -/
def State.hostHolds (s : State) (p : Fin 4) : List Nat :=
  (s.hostDir.map Prod.fst).filter (fun l => homeOf (128 * l) = p)

/-- The contexts of a partition let go: semaphores broken without records (log 39), work ended, what was awaited orphaned, parked
reads answered with poison (R401, R442, R443 step 2). -/
def State.dropWork (s : State) (p : Fin 4) : State :=
  let s := (List.finRange 16).foldl (fun s x =>
    (s.ctx p x).held.foldl (fun s h => s.putWord h.1 8 (semBroken (s.wordAt h.1 8))) s) s
  let mine := s.parked.filter (fun o => o.part = p)
  let s := { s with parked := s.parked.filter (fun o => o.part ≠ p) }
  let s := mine.foldl (fun s o => match o.who with
    | .read l m => (s.answerRead l m true (List.replicate (32 * m.len) 0)).readDone l m
    | _ => s) s
  let s := s.orphan (fun w => w.lane ≠ 3 && w.part = p)
  { s with
    pkts := s.pkts.filter (fun k => k.part ≠ p)
    waits := s.waits.filter (fun w => w.part ≠ p)
    colls := s.colls.filter (fun c => c.part ≠ p)
    wqs := s.wqs.filter (fun e => match e.2 with | some w => w.part ≠ p | none => false) }

/-- The engines of a partition's stacks after its reset: commands, programs and the ledger are gone; failed units stay out
(R441). -/
def State.resetStack (s : State) (st : Fin 12) : State :=
  let s := s.updStack st (fun k => { k.dropUnits with
    queue := []
    gates := 15
    sram := []
    sramErr := [] })
  s.visitLedger st (fun _ => true)

/-- Sequences of a partition's range become FREE (R441); their generations stay (DESIGN CHOICE, log 39). -/
def State.freeSeqs (s : State) (p : Fin 4) : State :=
  let q := s.part p
  let mine := (s.seqs.filter (fun e => q.inRange e.1)).map Prod.fst
  mine.foldl (fun s n => s.updSeqd n (fun d => { SeqDesc.reset with gen := d.gen })) s

/-- The partition's own registers and tables (R441, R443 step 6). Datum arrays that another partition's entry names stay allocated
(R181). -/
def State.resetTables (s : State) (p : Fin 4) : State :=
  let named (a : Area) : Bool := (List.finRange 4).any (fun o => o ≠ p && (s.part o).regions.any (fun e => match e.2 with
    | some r => r.datum && r.dpart = p && r.darray.toNat = a.base
    | none => false))
  s.updPart p (fun q => { Part.reset with
    rowsPart := q.rowsPart
    reserve := q.reserve
    allocs := q.allocs.filter named
    repairMs := s.repairImg
    thinMax := BitVec.ofNat 4 (roleThin s.pw.role.toNat) })

/-- A context during a PARTITION reset: FREE, with nothing of its work (R340, R443 step 2). -/
def Ctx.gone (x : Ctx) : Ctx := { x with st := .free, held := [], takes := 0, saved := [], mail := [], units := [], waves := [] }

/-- Steps 1 to 3 of R443: engines and stack commands are cut, a running instance going on to its next cut point (R113, R442);
accepted messages are performed; and the contexts are gone. -/
def State.beginReset (s : State) (p : Fin 4) : State :=
  if (s.part p).resetting then s
  else
    let s := (coresOfPart p).foldl (fun s c => (s.stopEngines c).updCore c (fun x => { x with
      st := if x.st = .halted then .halted else .idle, share := none })) s
    let s := match (s.part p).cur with | some x => s.cutCommands p x | none => s
    let s := (linksOf p).foldl (fun s l => (s.link l).rx.foldl (fun s m => s.drainMsg l m) s) s
    let s := s.dropWork p
    s.updPart p (fun q => (List.finRange 16).foldl (fun q x => q.setCtx x (q.ctx x).gone) { q with resetting := true, cur := none })

/-- Every instance of a partition and every bank unit of its stacks has been cut (R113, R230, R443 step 2). -/
def State.resetCut (s : State) (p : Fin 4) : Bool :=
  (coresOfPart p).all (fun c => (s.core c).stopping.isEmpty) && s.unitsCut p

/-- Steps 4 to 6 of R443, with no line of the partition's left to the host. -/
def State.endReset (s : State) (p : Fin 4) : State :=
  let s := (stacksOf p).foldl State.resetStack s
  let s := (clustersOf p).foldl State.resetCluster s
  let s := (coresOfPart p).foldl (fun s c => s.updCore c (fun x => { x with share := none })) s
  let s := (linksOf p).foldl (fun s l => s.updLink l (fun k => { k with undrained := [] })) s
  ((s.freeSeqs p).resetTables p).retest

/-- A PARTITION reset (R443): the state, and whether it is complete. It waits for its cuts, and then for the back-invalidations of
the lines that it homes and the host holds (log 39). -/
def State.resetPartition (s : State) (p : Fin 4) : State × Bool :=
  let s := s.beginReset p
  if !s.resetCut p then (s, false)
  else match s.hostHolds p with
    | [] => (s.endReset p, true)
    | ls => (s.backInvalidate ls, false)

/-! ### The command -/

/-- Checks on the fields of a `RESET` (R380, R440). -/
def resetFields (k : Packet) : Option (Status × Word) :=
  let n := pf k 8 1
  mgmtCheck k 0x0B (decide (n < 3) || decide (4 < n)) [(8, 1), (9, 1), (10, 1)]
    [(8, decide (4 < n)), (9, if n < 2 then decide (9 < pf k 9 1) else n < 5 && pf k 9 1 ≠ 0),
      (10, if n = 0 then decide (8 < pf k 10 1) else n < 5 && pf k 10 1 ≠ 0)]

/-- The cluster that a `RESET` names. -/
def resetCl (k : Packet) : ClusterId := ⟨mgmtPart k, ⟨pf k 9 1 % 10, by omega⟩⟩
/-- The core that a `RESET` names. -/
def resetCoreId (k : Packet) : CoreId := ⟨mgmtPart k, ⟨pf k 9 1 % 10, by omega⟩, ⟨pf k 10 1 % 9, by omega⟩⟩

/-- A core runs a share, or instances of one that it ran still go on to their cut points: it is neither IDLE nor HALTED (R440). -/
def Core.busy (x : Core) : Bool := x.st = .running || !x.stopping.isEmpty

/-- States that refuse a `RESET` (R380, R440). -/
def State.resetBarred (s : State) (k : Packet) : Bool :=
  match pf k 8 1 with
  | 0 => s.hi.st ≠ .ready || (s.core (resetCoreId k)).busy
  | 1 => s.hi.st ≠ .ready || (coresOf (resetCl k)).any (fun c => (s.core c).busy)
  | 2 => s.hi.st ≠ .ready
  | _ => false

/-- Report a reset by command (`HK_RESET_STAT`). -/
def State.noteReset (s : State) (level : Nat) : State :=
  { s with hk := { s.hk with resetLevel := BitVec.ofNat 3 level, resetSource := 0 } }

/-- Perform a `RESET` at the level that its packet names. WARM and COLD write their reply first (R380, R444). -/
def State.resetPacket (s : State) (k : Packet) : Host.Outcome State Fault Refusal :=
  let p := mgmtPart k
  let run := if pf k 8 1 < 3 then mgmtTo s p k else mgmt s k
  run (resetFields k <|> wrongIf (s.resetBarred k)) (fun s =>
    match pf k 8 1 with
    | 0 => (((s.resetCore1 (resetCoreId k))).noteReset 0).mgmtDone .ok 0
    | 1 => ((s.resetCluster (resetCl k)).noteReset 1).mgmtDone .ok 0
    | 2 => match s.resetPartition p with
      | (s, true) => (s.noteReset 2).mgmtDone .ok 0
      | (s, false) => s
    | 3 => ((s.mgmtDone .ok 0).flushHost).restart false 0
    | _ => ((s.mgmtDone .ok 0).flushHost).coldReset 0)

/-- `RESET` at CORE level (R440, R441). -/
def execResetCore (k : Packet) (s : State) : Host.Outcome State Fault Refusal := s.resetPacket k
/-- `RESET` at CLUSTER level (R409, R440, R441). -/
def execResetCluster (k : Packet) (s : State) : Host.Outcome State Fault Refusal := s.resetPacket k
/-- `RESET` at PARTITION level (R440 to R443). -/
def execResetPartition (k : Packet) (s : State) : Host.Outcome State Fault Refusal := s.resetPacket k
/-- `RESET` at WARM level (R440, R441, R444). -/
def execResetWarm (k : Packet) (s : State) : Host.Outcome State Fault Refusal := s.resetPacket k
/-- `RESET` at COLD level (R440, R441, R444). -/
def execResetCold (k : Packet) (s : State) : Host.Outcome State Fault Refusal := s.resetPacket k

end Sys2Proof.Machine
end

