-- ==== Sys2Proof/Machine/Scl.lean ====
section
/-! DEFINITION. The SCL operations (R54). Each computes X[`D`] from the registers as they stand in the core cycle in
which the bundle issues; the write lands after the operation's latency. -/

namespace Sys2Proof.Machine

/-- Fields of an SCL slot (R50). -/
def sclD (b : Bundle) : Nat := b.f 2 12 8
def sclS1 (b : Bundle) : Nat := b.f 2 17 13
def sclS2 (b : Bundle) : Nat := b.f 2 22 18

/-- 1 if true, else 0 (R54). -/
def flag32 (p : Bool) : Word := if p then 1 else 0

/-- An SCL operation whose result is a function of the core as it stands at issue. -/
def sclOp (c : CoreId) (b : Bundle) (op lat : Nat) (val : State → Core → Word) (s : State) :
    Host.Outcome State Fault Refusal :=
  slotOp c b 2 op (fun s => s.write c .x (sclD b) ((val s (s.core c)).zeroExtend 48) 2 lat) s

/-- `SCL_NOP` (R54). -/
def execSclNop (c : CoreId) (b : Bundle) (s : State) : Host.Outcome State Fault Refusal :=
  slotOp c b 2 0x00 id s

/-- `ADD` (R54): X[`S1`] + X[`S2`] modulo 2^32. -/
def execAdd (c : CoreId) (b : Bundle) (s : State) : Host.Outcome State Fault Refusal :=
  sclOp c b 0x01 1 (fun _ x => (x.xr (sclS1 b)) + (x.xr (sclS2 b))) s

/-- `SUB` (R54): X[`S1`] − X[`S2`] modulo 2^32. -/
def execSub (c : CoreId) (b : Bundle) (s : State) : Host.Outcome State Fault Refusal :=
  sclOp c b 0x02 1 (fun _ x => (x.xr (sclS1 b)) - (x.xr (sclS2 b))) s

/-- `ADDI` (R54): X[`S1`] + `IMM9`. -/
def execSclAddi (c : CoreId) (b : Bundle) (s : State) : Host.Outcome State Fault Refusal :=
  sclOp c b 0x03 1 (fun _ x => (x.xr (sclS1 b)) + BitVec.ofInt 32 (imm9 b)) s

/-- `AND` (R54): bitwise and. -/
def execAndX (c : CoreId) (b : Bundle) (s : State) : Host.Outcome State Fault Refusal :=
  sclOp c b 0x04 1 (fun _ x => (x.xr (sclS1 b)) &&& (x.xr (sclS2 b))) s

/-- `OR` (R54): bitwise or. -/
def execOrX (c : CoreId) (b : Bundle) (s : State) : Host.Outcome State Fault Refusal :=
  sclOp c b 0x05 1 (fun _ x => (x.xr (sclS1 b)) ||| (x.xr (sclS2 b))) s

/-- `XOR` (R54): bitwise exclusive or. -/
def execXorX (c : CoreId) (b : Bundle) (s : State) : Host.Outcome State Fault Refusal :=
  sclOp c b 0x06 1 (fun _ x => (x.xr (sclS1 b)) ^^^ (x.xr (sclS2 b))) s

/-- `SHL` (R54): shift left by X[`S2`][4:0]. -/
def execShl (c : CoreId) (b : Bundle) (s : State) : Host.Outcome State Fault Refusal :=
  sclOp c b 0x07 1 (fun _ x => (x.xr (sclS1 b)) <<< ((x.xr (sclS2 b)).toNat % 32)) s

/-- `SHR` (R54): logical shift right. -/
def execShr (c : CoreId) (b : Bundle) (s : State) : Host.Outcome State Fault Refusal :=
  sclOp c b 0x08 1 (fun _ x => (x.xr (sclS1 b)) >>> ((x.xr (sclS2 b)).toNat % 32)) s

/-- `SRA` (R54): arithmetic shift right. -/
def execSra (c : CoreId) (b : Bundle) (s : State) : Host.Outcome State Fault Refusal :=
  sclOp c b 0x09 1 (fun _ x => (x.xr (sclS1 b)).sshiftRight ((x.xr (sclS2 b)).toNat % 32)) s

/-- `CMPLT` (R54): signed less-than. -/
def execCmplt (c : CoreId) (b : Bundle) (s : State) : Host.Outcome State Fault Refusal :=
  sclOp c b 0x0A 1 (fun _ x => flag32 ((x.xr (sclS1 b)).slt (x.xr (sclS2 b)))) s

/-- `CMPLTU` (R54): unsigned less-than. -/
def execCmpltu (c : CoreId) (b : Bundle) (s : State) : Host.Outcome State Fault Refusal :=
  sclOp c b 0x0B 1 (fun _ x => flag32 ((x.xr (sclS1 b)).ult (x.xr (sclS2 b)))) s

/-- `CMPEQ` (R54): equality. -/
def execCmpeq (c : CoreId) (b : Bundle) (s : State) : Host.Outcome State Fault Refusal :=
  sclOp c b 0x0C 1 (fun _ x => flag32 ((x.xr (sclS1 b)) = (x.xr (sclS2 b)))) s

/-- `MUL` (R54): the low 32 bits of the product. -/
def execMul (c : CoreId) (b : Bundle) (s : State) : Host.Outcome State Fault Refusal :=
  sclOp c b 0x0D 3 (fun _ x => (x.xr (sclS1 b)) * (x.xr (sclS2 b))) s

/-- `MOVI` (R54): `IMM32`; WIDE only. -/
def execSclMovi (c : CoreId) (b : Bundle) (s : State) : Host.Outcome State Fault Refusal :=
  sclOp c b 0x0E 1 (fun _ _ => BitVec.ofNat 32 (b.f 2 63 32)) s

/-- `FADD` (R54): FP32 add (R123). -/
def execFadd (c : CoreId) (b : Bundle) (s : State) : Host.Outcome State Fault Refusal :=
  sclOp c b 0x10 4 (fun _ x => fAdd (x.xr (sclS1 b)) (x.xr (sclS2 b))) s

/-- `FMUL` (R54): FP32 multiply (R123). -/
def execFmul (c : CoreId) (b : Bundle) (s : State) : Host.Outcome State Fault Refusal :=
  sclOp c b 0x11 4 (fun _ x => fMul (x.xr (sclS1 b)) (x.xr (sclS2 b))) s

/-- `FFMA` (R54): X[`D`] + X[`S1`] × X[`S2`] with one rounding (R123). -/
def execFfma (c : CoreId) (b : Bundle) (s : State) : Host.Outcome State Fault Refusal :=
  sclOp c b 0x12 4 (fun _ x => fFma (x.xr (sclD b)) (x.xr (sclS1 b)) (x.xr (sclS2 b))) s

/-- `FCVTI` (R54): FP32 to INT32, nearest even, saturating. -/
def execFcvti (c : CoreId) (b : Bundle) (s : State) : Host.Outcome State Fault Refusal :=
  sclOp c b 0x13 4 (fun _ x => fCvtI (x.xr (sclS1 b))) s

/-- `ICVTF` (R54): INT32 to FP32, nearest even. -/
def execIcvtf (c : CoreId) (b : Bundle) (s : State) : Host.Outcome State Fault Refusal :=
  sclOp c b 0x14 4 (fun _ x => iCvtF (x.xr (sclS1 b))) s

/-- `LDX` (R54): X[`D`] takes the SP word at A[`S1`] + 4 × `IMM9`, latency 6. An uncorrectable or poisoned word halts the
core (R393, R397). -/
def execLdx (c : CoreId) (b : Bundle) (s : State) : Host.Outcome State Fault Refusal :=
  slotOp c b 2 0x18 (fun s =>
    let a := ldxAddr (s.core c) b
    let r := s.spCheck c a 4
    let x := r.1.core c
    match r.2 with
    | some (code, _) => r.1.haltCore c ⟨code, 2, false, 6, 0, 0, x.curPc.toNat, x.mtag, a, 0⟩
    | none => r.1.write c .x (sclD b) (BitVec.ofNat 48 (leNat (x.spBytes a 4))) 2 6) s

/-- `STX` (R54): the SP word at A[`S1`] + 4 × `IMM9` takes X[`S2`]. -/
def execStx (c : CoreId) (b : Bundle) (s : State) : Host.Outcome State Fault Refusal :=
  slotOp c b 2 0x19 (fun s =>
    let x := s.core c
    s.spWrite c (ldxAddr x b) (leBytes 4 (x.xr (sclS2 b)).toNat)) s

/-- `MOVAX` (R54): X[`D`] takes A[`S1`][31:0]. -/
def execMovax (c : CoreId) (b : Bundle) (s : State) : Host.Outcome State Fault Refusal :=
  sclOp c b 0x1A 1 (fun _ x => (x.ar (sclS1 b)).truncate 32) s

/-- `RDTAG` (R54): X[`D`] takes the work tag. -/
def execRdtag (c : CoreId) (b : Bundle) (s : State) : Host.Outcome State Fault Refusal :=
  sclOp c b 0x1B 1 (fun _ x => x.wtag) s

/-- `RDCYC` (R54): X[`D`] takes the cluster cycle count [31:0]. -/
def execRdcyc (c : CoreId) (b : Bundle) (s : State) : Host.Outcome State Fault Refusal :=
  sclOp c b 0x1C 1 (fun s _ => (s.cluster c.cluster).cycle.truncate 32) s

end Sys2Proof.Machine
end

