-- ==== Sys2Proof/Machine/Wake.lean ====
section
/-! DEFINITION. A partition's PLL locks, and the arrivals that it held are released (R27, R28). -/

namespace Sys2Proof.Machine

/-- The state that a command leads to. -/
def nextOr (s : State) : Host.Outcome State Fault Refusal → State
  | .next t => t
  | _ => s

/-- A command that the HKC held for a partition's sequencer reaches it (R26, R27). -/
def State.runHeld (s : State) (k : Packet) : State :=
  let s : State := { s with hi := { s.hi with mcqWait := false } }
  nextOr s (match pf k 0 1 with
    | 0x03 => execPartitionStart k s
    | 0x04 => execPartitionStop k s
    | 0x05 => execContextCreate k s
    | 0x06 => execContextDestroy k s
    | 0x07 => execRegionMap k s
    | 0x08 => execRegionUnmap k s
    | 0x09 => execQueueCreate k s
    | 0x0B => s.resetPacket k
    | 0x0F => execRepairBlock k s
    | 0x14 => execSeqTableSetup k s
    | _ => .next s)

/-- One held arrival is released. -/
def State.releaseHeld (s : State) : Held → State
  | .command k => s.runHeld k
  | h => s.serveHost h

/-- `PLL_LOCKED` (R27): the partition runs, and what it held is released in order of arrival. A link message waits in its receive
buffer, and another partition's access is offered again (R28; log 94). -/
def execPllLocked (p : Fin 4) (s : State) : Host.Outcome State Fault Refusal :=
  let q := s.part p
  if q.pll = .starting then .next (q.heldArr.foldl State.releaseHeld (s.setPart p { q with pll := .running, heldArr := [] }))
  else .next s

end Sys2Proof.Machine
end

