-- ==== Sys2Proof/Machine/Dispatch.lean ====
section
/-! DEFINITION. One arm for each command of the table, each one call of that command's meaning. -/

namespace Sys2Proof.Machine

def exec (i : Instr) (s : State) : Host.Outcome State Fault Refusal :=
  match i with
  | .ctlNop c b => Sys2Proof.Machine.execCtlNop c b s
  | .jmp c b => Sys2Proof.Machine.execJmp c b s
  | .brz c b => Sys2Proof.Machine.execBrz c b s
  | .brnz c b => Sys2Proof.Machine.execBrnz c b s
  | .dbnz c b => Sys2Proof.Machine.execDbnz c b s
  | .waitt c b => Sys2Proof.Machine.execWaitt c b s
  | .mtag c b => Sys2Proof.Machine.execMtag c b s
  | .trace c b => Sys2Proof.Machine.execTrace c b s
  | .endShare c b => Sys2Proof.Machine.execEndShare c b s
  | .adrNop c b => Sys2Proof.Machine.execAdrNop c b s
  | .adrMovi c b => Sys2Proof.Machine.execAdrMovi c b s
  | .adrAddi c b => Sys2Proof.Machine.execAdrAddi c b s
  | .addx c b => Sys2Proof.Machine.execAddx c b s
  | .addin c b => Sys2Proof.Machine.execAddin c b s
  | .seti c b => Sys2Proof.Machine.execSeti c b s
  | .movxi c b => Sys2Proof.Machine.execMovxi c b s
  | .setj c b => Sys2Proof.Machine.execSetj c b s
  | .movxj c b => Sys2Proof.Machine.execMovxj c b s
  | .bind c b => Sys2Proof.Machine.execBind c b s
  | .sclNop c b => Sys2Proof.Machine.execSclNop c b s
  | .add c b => Sys2Proof.Machine.execAdd c b s
  | .sub c b => Sys2Proof.Machine.execSub c b s
  | .sclAddi c b => Sys2Proof.Machine.execSclAddi c b s
  | .andX c b => Sys2Proof.Machine.execAndX c b s
  | .orX c b => Sys2Proof.Machine.execOrX c b s
  | .xorX c b => Sys2Proof.Machine.execXorX c b s
  | .shl c b => Sys2Proof.Machine.execShl c b s
  | .shr c b => Sys2Proof.Machine.execShr c b s
  | .sra c b => Sys2Proof.Machine.execSra c b s
  | .cmplt c b => Sys2Proof.Machine.execCmplt c b s
  | .cmpltu c b => Sys2Proof.Machine.execCmpltu c b s
  | .cmpeq c b => Sys2Proof.Machine.execCmpeq c b s
  | .mul c b => Sys2Proof.Machine.execMul c b s
  | .sclMovi c b => Sys2Proof.Machine.execSclMovi c b s
  | .fadd c b => Sys2Proof.Machine.execFadd c b s
  | .fmul c b => Sys2Proof.Machine.execFmul c b s
  | .ffma c b => Sys2Proof.Machine.execFfma c b s
  | .fcvti c b => Sys2Proof.Machine.execFcvti c b s
  | .icvtf c b => Sys2Proof.Machine.execIcvtf c b s
  | .ldx c b => Sys2Proof.Machine.execLdx c b s
  | .stx c b => Sys2Proof.Machine.execStx c b s
  | .movax c b => Sys2Proof.Machine.execMovax c b s
  | .rdtag c b => Sys2Proof.Machine.execRdtag c b s
  | .rdcyc c b => Sys2Proof.Machine.execRdcyc c b s
  | .writeLands cl => Sys2Proof.Machine.execWriteLands cl s
  | .load c b => Sys2Proof.Machine.execLoad c b s
  | .store c b => Sys2Proof.Machine.execStore c b s
  | .pick c b => Sys2Proof.Machine.execPick c b s
  | .spcopy c b => Sys2Proof.Machine.execSpcopy c b s
  | .trav c b => Sys2Proof.Machine.execTrav c b s
  | .reduce c b => Sys2Proof.Machine.execReduce c b s
  | .atom c b => Sys2Proof.Machine.execAtom c b s
  | .signal c b => Sys2Proof.Machine.execSignal c b s
  | .waitFlag c b => Sys2Proof.Machine.execWaitFlag c b s
  | .fence c b => Sys2Proof.Machine.execFence c b s
  | .semtake c b => Sys2Proof.Machine.execSemtake c b s
  | .semgive c b => Sys2Proof.Machine.execSemgive c b s
  | .mma c b => Sys2Proof.Machine.execMma c b s
  | .mdrain c b => Sys2Proof.Machine.execMdrain c b s
  | .vadd c b => Sys2Proof.Machine.execVadd c b s
  | .vsub c b => Sys2Proof.Machine.execVsub c b s
  | .vmul c b => Sys2Proof.Machine.execVmul c b s
  | .vfma c b => Sys2Proof.Machine.execVfma c b s
  | .vmax c b => Sys2Proof.Machine.execVmax c b s
  | .vmin c b => Sys2Proof.Machine.execVmin c b s
  | .vadds c b => Sys2Proof.Machine.execVadds c b s
  | .vmuls c b => Sys2Proof.Machine.execVmuls c b s
  | .vcvt c b => Sys2Proof.Machine.execVcvt c b s
  | .vwiden c b => Sys2Proof.Machine.execVwiden c b s
  | .vcopy c b => Sys2Proof.Machine.execVcopy c b s
  | .vzero c b => Sys2Proof.Machine.execVzero c b s
  | .vexp2 c b => Sys2Proof.Machine.execVexp2 c b s
  | .vlog2 c b => Sys2Proof.Machine.execVlog2 c b s
  | .vrcp c b => Sys2Proof.Machine.execVrcp c b s
  | .vrsqrt c b => Sys2Proof.Machine.execVrsqrt c b s
  | .vtanh c b => Sys2Proof.Machine.execVtanh c b s
  | .vgmax c b => Sys2Proof.Machine.execVgmax c b s
  | .vgsum c b => Sys2Proof.Machine.execVgsum c b s
  | .vgsub c b => Sys2Proof.Machine.execVgsub c b s
  | .vgmul c b => Sys2Proof.Machine.execVgmul c b s
  | .macroInstanceStart c e => Sys2Proof.Machine.execMacroInstanceStart c e s
  | .macroComplete c n => Sys2Proof.Machine.execMacroComplete c n s
  | .waitTimeout c => Sys2Proof.Machine.execWaitTimeout c s
  | .cutPointReached c n amount => Sys2Proof.Machine.execCutPointReached c n amount s
  | .lost cl => Sys2Proof.Machine.execLost cl s
  | .traceEnable cl v => Sys2Proof.Machine.execTraceEnable cl v s
  | .engineWake g => Sys2Proof.Machine.execEngineWake g s
  | .idleDelayExpiry p => Sys2Proof.Machine.execIdleDelayExpiry p s
  | .stopDrainComplete p => Sys2Proof.Machine.execStopDrainComplete p s
  | .arrival p a => Sys2Proof.Machine.execArrival p a s
  | .pllLocked p => Sys2Proof.Machine.execPllLocked p s
  | .housekeepingRound r => Sys2Proof.Machine.execHousekeepingRound r s
  | .thermalTrip t => Sys2Proof.Machine.execThermalTrip t s
  | .cooledRestart => Sys2Proof.Machine.execCooledRestart s
  | .powerGoodRise g => Sys2Proof.Machine.execPowerGoodRise g s
  | .powerGoodFall g => Sys2Proof.Machine.execPowerGoodFall g s
  | .powerGoodTimeout g => Sys2Proof.Machine.execPowerGoodTimeout g s
  | .enableReleaseTimeout g => Sys2Proof.Machine.execEnableReleaseTimeout g s
  | .resetPinRelease r => Sys2Proof.Machine.execResetPinRelease r s
  | .resetPinHoldTimeout r => Sys2Proof.Machine.execResetPinHoldTimeout r s
  | .resetPinStuck r => Sys2Proof.Machine.execResetPinStuck r s
  | .resetPinRearm r => Sys2Proof.Machine.execResetPinRearm r s
  | .getInfo k => Sys2Proof.Machine.execGetInfo k s
  | .setRole k => Sys2Proof.Machine.execSetRole k s
  | .partitionStart k => Sys2Proof.Machine.execPartitionStart k s
  | .partitionStop k => Sys2Proof.Machine.execPartitionStop k s
  | .contextCreate k => Sys2Proof.Machine.execContextCreate k s
  | .contextDestroy k => Sys2Proof.Machine.execContextDestroy k s
  | .regionMap k => Sys2Proof.Machine.execRegionMap k s
  | .regionUnmap k => Sys2Proof.Machine.execRegionUnmap k s
  | .queueCreate k => Sys2Proof.Machine.execQueueCreate k s
  | .queueDestroy k => Sys2Proof.Machine.execQueueDestroy k s
  | .resetCore k => Sys2Proof.Machine.execResetCore k s
  | .resetCluster k => Sys2Proof.Machine.execResetCluster k s
  | .resetPartition k => Sys2Proof.Machine.execResetPartition k s
  | .resetWarm k => Sys2Proof.Machine.execResetWarm k s
  | .resetCold k => Sys2Proof.Machine.execResetCold k s
  | .cadastreRead k => Sys2Proof.Machine.execCadastreRead k s
  | .cadastreImport k => Sys2Proof.Machine.execCadastreImport k s
  | .memtestFull k => Sys2Proof.Machine.execMemtestFull k s
  | .retentionTest k => Sys2Proof.Machine.execRetentionTest k s
  | .memtestComplete found => Sys2Proof.Machine.execMemtestComplete found s
  | .repairBlock k => Sys2Proof.Machine.execRepairBlock k s
  | .powerSplit k => Sys2Proof.Machine.execPowerSplit k s
  | .thermalConfig k => Sys2Proof.Machine.execThermalConfig k s
  | .measureRead k => Sys2Proof.Machine.execMeasureRead k s
  | .errinjArm k => Sys2Proof.Machine.execErrinjArm k s
  | .seqTableSetup k => Sys2Proof.Machine.execSeqTableSetup k s
  | .mcqDoorbell v => Sys2Proof.Machine.execMcqDoorbell v s
  | .wqDoorbell q v => Sys2Proof.Machine.execWqDoorbell q v s
  | .evConsWrite e v => Sys2Proof.Machine.execEvConsWrite e v s
  | .mcqEnable v => Sys2Proof.Machine.execMcqEnable v s
  | .evqEnable e v => Sys2Proof.Machine.execEvqEnable e v s
  | .suspend p x v => Sys2Proof.Machine.execSuspend p x v s
  | .unsuspend p x v => Sys2Proof.Machine.execUnsuspend p x v s
  | .linkEnable l v => Sys2Proof.Machine.execLinkEnable l v s
  | .linkDisable l v => Sys2Proof.Machine.execLinkDisable l v s
  | .retrain l v => Sys2Proof.Machine.execRetrain l v s
  | .wdogConfigWrite p r v => Sys2Proof.Machine.execWdogConfigWrite p r v s
  | .w1cClear r v sets => Sys2Proof.Machine.execW1cClear r v sets s
  | .registerWrite off size v => Sys2Proof.Machine.execRegisterWrite off size v s
  | .hkBoot keyA keyB => Sys2Proof.Machine.execHkBoot keyA keyB s
  | .identity => Sys2Proof.Machine.execIdentity s
  | .imageRead g => Sys2Proof.Machine.execImageRead g s
  | .imagePiece off data => Sys2Proof.Machine.execImagePiece off data s
  | .verifyImage => Sys2Proof.Machine.execVerifyImage s
  | .powerUp => Sys2Proof.Machine.execPowerUp s
  | .memInit => Sys2Proof.Machine.execMemInit s
  | .testDone t => Sys2Proof.Machine.execTestDone t s
  | .cadastrePhase w => Sys2Proof.Machine.execCadastrePhase w s
  | .applyCad => Sys2Proof.Machine.execApplyCad s
  | .configure v => Sys2Proof.Machine.execConfigure v s
  | .getVersion req => Sys2Proof.Machine.execGetVersion req s
  | .getCapabilities req => Sys2Proof.Machine.execGetCapabilities req s
  | .negotiateAlgorithms req => Sys2Proof.Machine.execNegotiateAlgorithms req s
  | .getDigests req => Sys2Proof.Machine.execGetDigests req s
  | .getCertificate req => Sys2Proof.Machine.execGetCertificate req s
  | .challenge req => Sys2Proof.Machine.execChallenge req s
  | .getMeasurements req => Sys2Proof.Machine.execGetMeasurements req s
  | .runPacket q k => Sys2Proof.Machine.execRunPacket q k s
  | .linear q k => Sys2Proof.Machine.execLinear q k s
  | .attend q k => Sys2Proof.Machine.execAttend q k s
  | .attendBwd q k => Sys2Proof.Machine.execAttendBwd q k s
  | .appendKv q k => Sys2Proof.Machine.execAppendKv q k s
  | .stepPacket q k => Sys2Proof.Machine.execStepPacket q k s
  | .copyPacket q k => Sys2Proof.Machine.execCopyPacket q k s
  | .collective q k => Sys2Proof.Machine.execCollective q k s
  | .flagSet q k => Sys2Proof.Machine.execFlagSet q k s
  | .flagWait q k => Sys2Proof.Machine.execFlagWait q k s
  | .fencePacket q k => Sys2Proof.Machine.execFencePacket q k s
  | .nop q k => Sys2Proof.Machine.execNop q k s
  | .openSeq q k => Sys2Proof.Machine.execOpenSeq q k s
  | .mapPages q k => Sys2Proof.Machine.execMapPages q k s
  | .commitPages q k => Sys2Proof.Machine.execCommitPages q k s
  | .dropPages q k => Sys2Proof.Machine.execDropPages q k s
  | .freePages q k => Sys2Proof.Machine.execFreePages q k s
  | .reencodePages q k => Sys2Proof.Machine.execReencodePages q k s
  | .truncateSeq q k => Sys2Proof.Machine.execTruncateSeq q k s
  | .syncSeq q k => Sys2Proof.Machine.execSyncSeq q k s
  | .closeSeq q k => Sys2Proof.Machine.execCloseSeq q k s
  | .readSeq q k => Sys2Proof.Machine.execReadSeq q k s
  | .pageServe q k => Sys2Proof.Machine.execPageServe q k s
  | .pageServeRequest q k => Sys2Proof.Machine.execPageServeRequest q k s
  | .packetComplete q ix => Sys2Proof.Machine.execPacketComplete q ix s
  | .gemvB st q ix => Sys2Proof.Machine.execGemvB st q ix s
  | .attendD st q ix g => Sys2Proof.Machine.execAttendD st q ix g s
  | .append st q ix => Sys2Proof.Machine.execAppend st q ix s
  | .requant st q ix => Sys2Proof.Machine.execRequant st q ix s
  | .gather st q ix => Sys2Proof.Machine.execGather st q ix s
  | .stackCommandComplete st n => Sys2Proof.Machine.execStackCommandComplete st n s
  | .readStep u t => Sys2Proof.Machine.execReadStep u t s
  | .copyStep u t => Sys2Proof.Machine.execCopyStep u t s
  | .writeStep u t => Sys2Proof.Machine.execWriteStep u t s
  | .flit st d f => Sys2Proof.Machine.execFlit st d f s
  | .beat st d b => Sys2Proof.Machine.execBeat st d b s
  | .unitRunTimeout u => Sys2Proof.Machine.execUnitRunTimeout u s
  | .migrationComplete st d j => Sys2Proof.Machine.execMigrationComplete st d j s
  | .ledgerVisit u => Sys2Proof.Machine.execLedgerVisit u s
  | .refresh st h k => Sys2Proof.Machine.execRefresh st h k s
  | .scrubVisit r => Sys2Proof.Machine.execScrubVisit r s
  | .rowRemapComplete r => Sys2Proof.Machine.execRowRemapComplete r s
  | .homeOperation h => Sys2Proof.Machine.execHomeOperation h s
  | .hostMemRead off n excl => Sys2Proof.Machine.execHostMemRead off n excl s
  | .hostMemWrite off data poison excl => Sys2Proof.Machine.execHostMemWrite off data poison excl s
  | .hostSnoop a => Sys2Proof.Machine.execHostSnoop a s
  | .ucieTrained m r rep => Sys2Proof.Machine.execUcieTrained m r rep s
  | .dataFrame l f => Sys2Proof.Machine.execDataFrame l f s
  | .idleFrame l f => Sys2Proof.Machine.execIdleFrame l f s
  | .rdReq l m => Sys2Proof.Machine.execRdReq l m s
  | .rdRsp l m => Sys2Proof.Machine.execRdRsp l m s
  | .wrMsg l m => Sys2Proof.Machine.execWrMsg l m s
  | .redMsg l m => Sys2Proof.Machine.execRedMsg l m s
  | .flagAdd l m => Sys2Proof.Machine.execFlagAdd l m s
  | .psReq l m => Sys2Proof.Machine.execPsReq l m s
  | .shard l m => Sys2Proof.Machine.execShard l m s
  | .ackMsg l m => Sys2Proof.Machine.execAckMsg l m s
  | .drainMsg l m => Sys2Proof.Machine.execDrainMsg l m s
  | .drainRet l m => Sys2Proof.Machine.execDrainRet l m s
  | .ident l m => Sys2Proof.Machine.execIdent l m s
  | .notReadyResend l tag => Sys2Proof.Machine.execNotReadyResend l tag s
  | .signalDetected l => Sys2Proof.Machine.execSignalDetected l s
  | .lanesConverged l swapped pol delay => Sys2Proof.Machine.execLanesConverged l swapped pol delay s
  | .laneTrainTimeout l n => Sys2Proof.Machine.execLaneTrainTimeout l n s
  | .codewordLock l => Sys2Proof.Machine.execCodewordLock l s
  | .codewordLockLost l n => Sys2Proof.Machine.execCodewordLockLost l n s
  | .miswireTimeout l => Sys2Proof.Machine.execMiswireTimeout l s
  | .linkTrainTimeout l => Sys2Proof.Machine.execLinkTrainTimeout l s
  | .fecWindow l s0 s1 => Sys2Proof.Machine.execFecWindow l s0 s1 s
  | .quantumExpiry p => Sys2Proof.Machine.execQuantumExpiry p s
  | .yieldExpiry p => Sys2Proof.Machine.execYieldExpiry p s
  | .holdBudgetExpiry p => Sys2Proof.Machine.execHoldBudgetExpiry p s
  | .cutComplete p => Sys2Proof.Machine.execCutComplete p s
  | .saveComplete p cycles => Sys2Proof.Machine.execSaveComplete p cycles s
  | .restoreComplete p => Sys2Proof.Machine.execRestoreComplete p s
  | .watchdogExpiry p => Sys2Proof.Machine.execWatchdogExpiry p s
  | .repairWindowExpiry n => Sys2Proof.Machine.execRepairWindowExpiry n s
  | .replay c => Sys2Proof.Machine.execReplay c s
  | .firmwareWatchdogExpiry => Sys2Proof.Machine.execFirmwareWatchdogExpiry s
  | .interruptTimer e => Sys2Proof.Machine.execInterruptTimer e s
  | .collectiveEnd l m => Sys2Proof.Machine.execCollectiveEnd l m s
  | .laneOpenOrShort l n => Sys2Proof.Machine.execLaneOpenOrShort l n s
  | .resetPinAssert r => Sys2Proof.Machine.execResetPinAssert r s
  | .packagePowerLoss => Sys2Proof.Machine.execPackagePowerLoss s
  | .hostCxlCompletion => Sys2Proof.Machine.execHostCxlCompletion s
  | .backInvalidationResponse line data => Sys2Proof.Machine.execBackInvalidationResponse line data s

end Sys2Proof.Machine
end

