-- ==== Sys2Proof/Machine/Tick.lean ====
section
/-! DEFINITION. What one hk cycle with no command does (log 1): the hk count rises (R15, R23), each partition's deadlock watchdog
counts or is set to 0 (R306), requests of the host that wait for a bank are tried again (R231), and links with nothing to send
carry IDLE frames (R315). -/

namespace Sys2Proof.Machine

/-- The watchdog of a partition in one hk cycle (R306). -/
def State.watch (s : State) (p : Fin 4) : State :=
  let n := if (s.part p).wdEn && s.deadlocked p then satAdd (s.part p).wdCount 1 else 0
  s.updPart p (fun q => { q with wdCount := n })

/-- One hk cycle. -/
def State.tick (s : State) : State :=
  let s := ((List.finRange 4).foldl State.watch { s with hkCount := s.hkCount + 1 }).serveWaiting
  (List.finRange 48).foldl (fun s l => s.updLink l Link.sendIdle) s

end Sys2Proof.Machine
end

