-- ==== Sys2Proof/Machine/Read.lean ====
section
/-! DEFINITION. What a read of BAR0 returns (R11, R12, R366, R390, R418): every register of the maps, the trace windows, the
MSI-X table and its pending bits. No command of the table reads a register; statements do. -/

namespace Sys2Proof.Machine

/-! ### Codes -/

/-- `STATE` of `HI_STATUS`. -/
def DevSt.code : DevSt → Nat
  | .starting => 0
  | .ready => 1
  | .faulted => 2
  | .resetting => 3

/-- `PLL_STATE` of `PS_CLK_STAT`. -/
def PllSt.code : PllSt → Nat
  | .running => 0
  | .stopping => 1
  | .stopped => 2
  | .starting => 3

/-- `STATE` of `PS_CTX_STATE_c`. -/
def CtxSt.code : CtxSt → Nat
  | .free => 0
  | .waiting => 1
  | .ready => 2
  | .restoring => 3
  | .running => 4
  | .saving => 5
  | .faulted => 6

/-- `STATE` of `LK_STATUS`. -/
def LinkSt.code : LinkSt → Nat
  | .disabled => 0
  | .detect => 1
  | .train => 2
  | .align => 3
  | .identify => 4
  | .active => 5
  | .retrain => 6
  | .miswired => 7

/-- `STATE` of `BU_STATE`. -/
def UnitSt.code : UnitSt → Nat
  | .idle => 0
  | .step => 1
  | .hold => 2
  | .bypassed => 3
  | .migrating => 4
  | .retired => 5

/-- `STATE` of `TH_DOMAIN_d`. -/
def ThermSt.code : ThermSt → Nat
  | .normal => 0
  | .warn => 1
  | .throttled => 2
  | .tripped => 3

/-- `KIND` of a region (R174). -/
def RegionKind.code : RegionKind → Nat
  | .part => 0
  | .dev => 1
  | .bank => 2
  | .host => 3

/-- `STATE` of `CO_STATUS`: PARKED while an instance of a running core is parked (R399), and RUNNING still while instances go on to
their cut points after their core has stopped (R69; log 90). -/
def Core.stateCode (x : Core) : Nat :=
  match x.st with
  | .idle => b2n (!x.stopping.isEmpty)
  | .running => if x.runs.any (fun i => i.st = .parked) then 3 else 1
  | .halted => if x.stopping.isEmpty then 2 else 1

/-- The word of a 64-bit register that lies at its offset, or 4 above it (R12). -/
def half (hi : Bool) (v : Nat) : Nat := if hi then v / 4294967296 % 4294967296 else v % 4294967296

/-! ### The global block -/

/-- Registers of the host interface and the rings (12). -/
def State.readHost (s : State) (o : Nat) : Nat :=
  let h := s.hi
  if o = 0x1000 then h.st.code
  else if o = 0x1004 then h.err.toNat
  else if o = 0x1008 then half false h.mcqBase.toNat
  else if o = 0x100C then half true h.mcqBase.toNat
  else if o = 0x1010 then h.mcqLog2n.toNat + 16 * b2n h.mcqEnable + 32 * b2n h.mcqIrq
  else if o = 0x1014 then h.mcqTail.toNat
  else if o = 0x1018 then h.mcqHead.toNat
  else if o = 0x1020 then half false h.mcqHeadWb.toNat
  else if o = 0x1024 then half true h.mcqHeadWb.toNat
  else if o = 0x1028 then h.dbErrors.toNat
  else if o = 0x102C then h.modules.toNat + 16 * h.rate.toNat + 65536 * h.repairs.toNat
  else if 0x2000 ≤ o && o < 0x2200 then
    let q := s.eventQ ⟨(o - 0x2000) / 64 % 8, by omega⟩
    match o % 64 with
    | 0x00 => half false q.base.toNat
    | 0x04 => half true q.base.toNat
    | 0x08 => q.log2n.toNat + 32 * b2n q.enable + 64 * b2n q.irqEn
    | 0x0C => q.count.toNat + 65536 * q.timer.toNat
    | 0x10 => q.prod.toNat
    | 0x14 => q.cons.toNat
    | 0x18 => half false q.prodWb.toNat
    | 0x1C => half true q.prodWb.toNat
    | 0x20 => b2n q.overflow
    | 0x24 => q.dropped.toNat
    | _ => 0
  else if 0x3000 ≤ o && o < 0x3090 then
    let v := s.msix.get ⟨0, 0, true⟩ ((o - 0x3000) / 16)
    match o % 16 with
    | 0 => half false v.addr.toNat
    | 4 => half true v.addr.toNat
    | 8 => v.data.toNat
    | _ => b2n v.masked
  else if o = 0x3800 then s.pba.toNat
  else if 0x10000 ≤ o && o < 0x110000 then
    match s.queue ⟨(o - 0x10000) / 4096 % 256, by omega⟩ with
    | some w => if o % 4096 = 0 then w.tail.toNat else if o % 4096 = 4 then w.head.toNat else 0
    | none => 0
  else 0

/-- Registers of power, heat, housekeeping and trust (01, 13, 14, 15). -/
def State.readKeep (s : State) (o : Nat) : Nat :=
  let w := s.pw
  let k := s.hk
  let t := s.th
  if o = 0x4000 then
    w.role.toNat + 8 * b2n w.override + 16 * b2n w.spill + 32 * w.shareC.toNat + 65536 * w.budget.toNat
  else if o = 0x4008 then w.curC / 100 % 65536 + 65536 * (w.curS / 300 % 65536)
  else if 0x4100 ≤ o && o < 0x4200 then (t.volts.get 0 ((o - 0x4100) / 4)).toNat
  else if 0x4200 ≤ o && o < 0x4280 then (t.currs.get 0 ((o - 0x4200) / 4)).toNat
  else if o = 0x5000 then k.rowWindow.toNat + 65536 * k.unitWindow.toNat
  else if o = 0x5004 then k.flips.length % 65536 + 65536 * k.fired.toNat
  else if o = 0x5100 then k.startReg
  else if o = 0x5104 then k.startTime.toNat
  else if o = 0x5108 then b2n k.retention
  else if o = 0x510C then b2n k.mtBusy + 2 * b2n k.mtRet + 256 * k.mtProgress.toNat + 65536 * k.mtFound.toNat
  else if o = 0x5200 then k.orient.toNat
  else if o = 0x5204 then ((List.range 16).map (fun j => (k.pins.get 0 j).toNat * 4 ^ j)).sum
  else if o = 0x5208 then k.sbFault.toNat
  else if o = 0x520C then k.resetLevel.toNat + 8 * k.resetSource.toNat
  else if o = 0x6000 then b2n s.ta.identity + 2 * b2n s.ta.ownerSigned + 4 * b2n s.ta.aliased
  else if 0x6100 ≤ o && o < 0x6300 then
    (s.ta.meas.get 0 ((o - 0x6100) / 64)).toNat / 2 ^ (32 * (o % 64 / 4)) % 4294967296
  else if o = 0x7000 then t.status.toNat
  else if o = 0x7004 then
    t.cmpWarn.toNat + 256 * t.cmpThrottle.toNat + 65536 * t.dramThrottle.toNat + 16777216 * t.hyst.toNat
  else if o = 0x7008 then
    t.tripDomain.toNat + 16 * t.tripSensor.toNat + 8192 * b2n t.tripBroken + 16384 * b2n t.tripSupply
      + 32768 * b2n t.tripValid + 65536 * t.tripCount.toNat
  else if 0x7100 ≤ o && o < 0x7140 then
    let d := t.domains.get Domain.reset ((o - 0x7100) / 4)
    d.st.code + 8 * d.tstep + 128 * d.pstep + 2048 * d.step + 32768 * d.nbroken + 131072 * d.hot.toNat
  else if 0x7400 ≤ o && o < 0x7930 then
    let x := t.temps.get ⟨0, false, 0⟩ ((o - 0x7400) / 4)
    x.temp.toNat + 4096 * b2n x.broken + 8192 * x.cause.toNat
  else 0

/-! ### A partition's block -/

/-- Registers of a context (11): a FREE one shows nothing but its `SUSPEND` and its quantum. -/
def Ctx.read (c : Ctx) (o : Nat) : Nat :=
  let live := b2n (c.st ≠ .free)
  match o with
  | 0x00 => live * (c.st.code + 8 * b2n c.deferred + 16 * c.held.length)
  | 0x04 => b2n c.suspend
  | 0x08 => c.quantum.toNat
  | 0x0C => live * c.live.toNat
  | 0x10 => live * half false c.save.toNat
  | 0x14 => live * half true c.save.toNat
  | 0x18 => live * c.switchCyc.toNat
  | _ => 0

/-- Registers of the sequencer (01, 08, 11, 13). -/
def State.readSeq (s : State) (p : Fin 4) (o : Nat) : Nat :=
  let q := s.part p
  if o = 0x100 then q.idleDelay.toNat
  else if o = 0x104 then q.pll.code + 65536 * q.restarts.toNat
  else if o = 0x108 then q.thinMax.toNat
  else if o = 0x200 then q.seqFirst.toNat + 65536 * q.seqCount.toNat
  else if o = 0x208 then half false (q.poolBase.toNat + 2 ^ 40 * q.poolSize.toNat)
  else if o = 0x20C then half true (q.poolBase.toNat + 2 ^ 40 * q.poolSize.toNat)
  else if o = 0x210 then q.quar.length + 65536 * q.quarPeak.toNat
  else if o = 0x218 then half false q.kvMisses.toNat
  else if o = 0x21C then half true q.kvMisses.toNat
  else if o = 0x300 then
    q.st.code + (match q.cur with | some x => 8 + 16 * x.val | none => 0)
  else if o = 0x304 then q.yieldHk.toNat
  else if o = 0x308 then half false q.switches.toNat
  else if o = 0x30C then half true q.switches.toNat
  else if o = 0x310 then q.holdBudget.toNat
  else if o = 0x318 then b2n q.wdEn
  else if o = 0x31C then q.wdPeriod.toNat
  else if o = 0x320 then b2n q.wdArmed + 2 * b2n (q.wdEn && s.deadlocked p) + 65536 * q.wdReports.toNat
  else if o = 0x324 then q.wdCount.toNat
  else if 0x400 ≤ o && o < 0x600 then (q.ctx ⟨(o - 0x400) / 32 % 16, by omega⟩).read (o % 32)
  else if o = 0x600 then q.repairMs.toNat
  else if o = 0x604 then (s.parked.filter (fun k => k.part = p)).length % 65536 + 65536 * q.expired.toNat
  else if o = 0x608 then q.disjoint.toNat
  else if o = 0x610 then half false q.replays.toNat
  else if o = 0x614 then half true q.replays.toNat
  else 0

/-- Registers of the region table and the shared cache (06). -/
def State.readMap (s : State) (p : Fin 4) (o : Nat) : Nat :=
  let q := s.part p
  if 0x10000 ≤ o && o < 0x10800 then
    match q.regions.get none ((o - 0x10000) / 32) with
    | none => 0
    | some r => match o % 32 with
      | 0x00 => 1 + 2 * r.kind.code + 8 * b2n r.big + 16 * b2n r.cacheable + 32 * b2n r.datum + 64 * b2n r.sharedRO
          + 65536 * r.ctxMask.toNat
      | 0x04 => r.size.toNat
      | 0x08 => half false r.dbase.toNat
      | 0x0C => half true r.dbase.toNat
      | 0x10 => half false r.parray.toNat
      | 0x14 => half true r.parray.toNat
      | 0x18 => half false r.darray.toNat
      | 0x1C => half true r.darray.toNat
      | _ => 0
  else if o = 0x10800 then q.rowsPart.toNat + 256 * s.rowsDev.toNat + 65536 * q.reserve.toNat
  else if o = 0x20000 then b2n q.freeShare
  else if o = 0x20008 then half false q.hits.toNat
  else if o = 0x2000C then half true q.hits.toNat
  else if o = 0x20010 then half false q.misses.toNat
  else if o = 0x20014 then half true q.misses.toNat
  else if o = 0x20018 then half false q.atomics.toNat
  else if o = 0x2001C then half true q.atomics.toNat
  else 0

/-- Registers of a core (02). -/
def Core.read (x : Core) (o : Nat) : Nat :=
  match o with
  | 0x00 => x.stateCode + 4 * b2n (match x.hold with | some h => decide (h.tok ≠ 0xFF) | none => false) + 8 * b2n x.spare
  | 0x04 => b2n x.hazEn
  | 0x08 => x.waitLimit.toNat
  | 0x10 => x.hReason.toNat + 256 * x.hSlot.toNat + 2048 * b2n x.hMore + 4096 * x.hReg.toNat + 262144 * x.hFile.toNat
      + 2097152 * x.hLevel.toNat
  | 0x14 => x.hPc.toNat
  | 0x18 => x.hWtag.toNat
  | 0x1C => x.hMtag.toNat
  | 0x20 => half false x.hAddr.toNat
  | 0x24 => half true x.hAddr.toNat
  | 0x28 => half false x.hIdx.toNat
  | 0x2C => half true x.hIdx.toNat
  | 0x30 => x.stalls.toNat
  | _ => 0

/-- Trace registers of a cluster (02). -/
def Cluster.read (c : Cluster) (o : Nat) : Nat :=
  match o with
  | 0x0 => b2n c.trEnable + 2 * b2n c.trMode + 4 * b2n c.trBundles + 8 * c.trCores.toNat + 65536 * c.trTypes.toNat
  | 0x4 => c.trNext.toNat + 8192 * b2n c.trWrapped
  | 0x8 => c.trLost.toNat
  | _ => 0

/-- A word of a partition's block. -/
def State.readPartReg (s : State) (p : Fin 4) (o : Nat) : Nat :=
  if o < 0x10000 then s.readSeq p o
  else if o < 0x30000 then s.readMap p o
  else if 0x400000 ≤ o && o < 0x680000 then
    let c := s.cluster ⟨p, ⟨(o - 0x400000) / 0x40000 % 10, by omega⟩⟩
    (c.trBuf.get 0 (o % 0x40000 / 32)).toNat / 2 ^ (32 * (o % 32 / 4)) % 4294967296
  else if 0x800000 ≤ o && o < 0x8A0000 then
    let cl : Fin 10 := ⟨(o - 0x800000) / 65536 % 10, by omega⟩
    let k := (o - 0x800000) % 65536 / 4096
    if h : k < 9 then (s.core ⟨p, cl, ⟨k, h⟩⟩).read (o % 4096)
    else if k = 15 then (s.cluster ⟨p, cl⟩).read (o % 4096)
    else 0
  else 0

/-! ### Links and stacks -/

/-- Registers of a link (10). -/
def Link.read (k : Link) (o : Nat) : Nat :=
  if 0x20 ≤ o && o < 0x60 then
    let g := k.grants.get ⟨false, 0⟩ ((o - 0x20) / 4)
    b2n g.en + 2 * g.far.toNat
  else match o with
    | 0x00 => b2n k.enable + 2 * b2n k.halfOk + 4 * b2n k.precode
    | 0x08 => k.st.code + 16 * k.width.toNat + 64 * b2n k.swapped + 128 * k.rxpol.toNat + 512 * b2n k.guarded
        + 1024 * b2n k.spareIn + 2048 * k.spareLane.toNat + 16384 * b2n k.sparePos + 65536 * k.retrains.toNat
    | 0x0C => k.expDev.toNat + 4096 * k.expLink.toNat + 262144 * b2n k.expAny
    | 0x10 => k.peerDev.toNat + 4096 * k.peerLink.toNat
    | 0x14 => k.peerInc.toNat
    | 0x18 => k.delay.toNat
    | 0x1C => k.laneLimit.toNat
    | 0x60 => half false k.fecCw.toNat
    | 0x64 => half true k.fecCw.toNat
    | 0x68 => half false k.fecSym.toNat
    | 0x6C => half true k.fecSym.toNat
    | 0x70 => half false k.fecUnc.toNat
    | 0x74 => half true k.fecUnc.toNat
    | 0x78 => k.replays.toNat
    | 0x7C => k.refused.toNat
    | _ => 0

/-- A ledger entry as `SE_LEDGER_e` shows it. -/
def LedgerEntry.read (e : LedgerEntry) : Nat :=
  1 + 2 * e.die.toNat + 32 * e.unit.toNat + 4096 * e.bank.val + 8192 * e.row.toNat + 2 ^ 27 * e.column.toNat
    + 2 ^ 33 * e.word.toNat + 2 ^ 36 * e.count.toNat

/-- The spare pairs of a die as `SE_SPARE_d` shows them. -/
def Stack.readSpare (k : Stack) (d : Nat) : Nat :=
  let f (j : Nat) : SparePair := k.spares.get SparePair.reset (4 * d + j)
  ((List.range 4).map (fun j => b2n (f j).inUse * 2 ^ j + b2n (f j).failed * 2 ^ (4 + j) + (f j).replaced.toNat * 2 ^ (8 + 6 * j))).sum

/-- Registers of a bank unit (07). -/
def BankUnit.read (u : BankUnit) (o : Nat) : Nat :=
  match o with
  | 0x00 => u.st.code + 8 * u.bank.val + 16 * u.row.toNat
  | 0x04 => u.pc.toNat
  | 0x08 => u.ce.toNat
  | 0x0C => u.parity.toNat
  | _ => 0

/-- A word of a stack's block (06, 07, 13). -/
def Stack.read (k : Stack) (o : Nat) : Nat :=
  if 0x180 ≤ o && o < 0x200 then half (o % 8 = 4) (k.slotOff.get 0 ((o - 0x180) / 8)).toNat
  else if 0x200 ≤ o && o < 0x300 then
    match k.ledger.get none ((o - 0x200) / 8) with
    | some e => half (o % 8 = 4) e.read
    | none => 0
  else if 0x300 ≤ o && o < 0x380 then half (o % 8 = 4) (k.unitFail.get 0 ((o - 0x300) / 8)).toNat
  else if 0x380 ≤ o && o < 0x3C0 then k.readSpare ((o - 0x380) / 4)
  else if 0x10000 ≤ o && o < 0x20000 then
    let d := (o - 0x10000) / 4096
    let u := o % 4096 / 32
    if u < 68 then (k.units.get BankUnit.reset (68 * d + u)).read (o % 32) else 0
  else match o with
    | 0x000 => half false k.picks.toNat
    | 0x004 => half true k.picks.toNat
    | 0x008 => half false k.rdBytes.toNat
    | 0x00C => half true k.rdBytes.toNat
    | 0x010 => half false k.wrBytes.toNat
    | 0x014 => half true k.wrBytes.toNat
    | 0x100 => b2n (!k.queue.isEmpty) + 2 * b2n (!k.proxied.isEmpty) + 4 * b2n (!k.migrating.isEmpty)
        + 8 * (k.queue.length % 128) + 65536 * (k.ledger.length % 64)
    | 0x104 => k.limit.toNat + 256 * k.slotCount
    | 0x108 => k.slotMode.toNat
    | 0x10C => b2n k.double + 16 * k.refPeak.toNat + 65536 * k.refHolds.toNat
    | 0x110 => k.ledgerLost.toNat
    | 0x118 => half false k.proxyRuns.toNat
    | 0x11C => half true k.proxyRuns.toNat
    | 0x400 => k.passHours.toNat + 256 * b2n k.scrubEn
    | 0x404 => k.visited.length * 65536 / rowsOfStack % 65536 + 65536 * k.passes.toNat
    | 0x408 => half false k.ceCount.toNat
    | 0x40C => half true k.ceCount.toNat
    | 0x410 => k.ueCount.toNat
    | 0x414 => k.remapLive.toNat + 65536 * k.remapPending.toNat
    | _ => 0

/-! ### All reads -/

/-- Registers that keep their meaning while the device is STARTING (R418). Those that accept writes then are taken to read as
they stand (DEDUCED, log 40). -/
def openAtStart (o : Nat) : Bool :=
  (decide (0x1000 ≤ o) && decide (o < 0x3090)) || o = 0x3800 || o = 0x5100 || o = 0x5104
    || (decide (0x6000 ≤ o) && decide (o < 0x6300)) || (decide (0x10000 ≤ o) && decide (o < 0x110000))

/-- A naturally aligned 32-bit read at a BAR0 offset (R366, R418). -/
def State.readWord (s : State) (o : Nat) : Nat :=
  if s.hi.st = .starting && !openAtStart o then 0
  else if o < 0x4000 then s.readHost o
  else if 0x10000 ≤ o && o < 0x110000 then s.readHost o
  else if o < 0x1000000 then s.readKeep o
  else if o < 0x5000000 then s.readPartReg ⟨(o / 0x1000000 - 1) % 4, by omega⟩ (o % 0x1000000)
  else if o < 0x6000000 then
    let l := (o - 0x5000000) / 0x10000
    if h : l < 48 then (s.link ⟨l, h⟩).read (o % 0x10000) else 0
  else
    let k := (o - 0x6000000) / 0x100000
    if h : k < 12 then (s.stack ⟨k, h⟩).read (o % 0x100000) else 0

/-- A read of BAR0 (R12): 32 or 64 bits, naturally aligned, lower offset first; any other returns all ones. -/
def State.readReg (s : State) (o size : Nat) : Nat :=
  if size = 4 && o % 4 = 0 then s.readWord o
  else if size = 8 && o % 8 = 0 then s.readWord o + 4294967296 * s.readWord (o + 4)
  else 2 ^ (8 * size) - 1

end Sys2Proof.Machine
end

