-- ==== Sys2Proof/WellFormed.lean ====
section
/-! DEFINITION. Which commands are well formed: a slot command whose bundle holds that slot with that opcode (R46, R50,
R77), a packet with its row's opcode (R380, R382), a message with its row's type (R324, R325), and operands of the length
that the manual gives them. -/

namespace Sys2Proof

/-- A bundle holds a slot with an opcode (R45, R46, R50, R55). -/
def slotIs (b : Bundle) (slot op : Nat) : Bool :=
  let w : BitVec 64 := match slot with
    | 0 => b.ctl.zeroExtend 64
    | 1 => b.adr
    | 2 => b.scl
    | 3 => b.dma
    | 4 => b.mat
    | _ => b.vec
  b.mask.getLsbD slot && decide (w.toNat % 256 = op)

/-- A byte of a packet (R376, R377). -/
def byteIs (k : Packet) (o v : Nat) : Bool := decide (k.toNat / 2 ^ (8 * o) % 256 = v)
/-- The opcode of a packet (R380, R382). -/
def opcodeIs (k : Packet) (op : Nat) : Bool := byteIs k 0 op
/-- `REQUEST` of a `PAGE_SERVE` packet (R382). -/
def requestBit (k : Packet) : Bool := k.getLsbD 424

/-- A message of a type, its data as long as `LEN` says; an `RD_REQ` carries none (R324, R325). -/
def msgIs (m : Msg) (type : Nat) : Bool :=
  decide (m.hdr.toNat % 256 = type)
    && decide (m.data.length = if type = 1 then 0 else 32 * (m.hdr.toNat / 2 ^ 48 % 65536))

/-- A round samples every channel (R448). -/
def Round.wf (r : Round) : Bool :=
  decide (r.temps.length = 332) && decide (r.volts.length = 64) && decide (r.currs.length = 32) && decide (r.pins.length = 16)

/-- A step's columns lie in its row of 64 columns (R203, R204). -/
def Step.wf (t : Step) : Bool :=
  decide (1 ≤ t.count) && decide (t.first.toNat + t.count ≤ 64)
    && (match t.kind with
      | .read => decide (t.slots.length = t.count) && decide (t.lanes ≤ 8)
      | .copy => true
      | .write => decide (t.bytes.length = t.count))

/-- A beat names distinct units (R211). -/
def Beat.wf (b : Beat) : Bool := decide b.wave.Nodup

/-- The image gives one of the five roles (R31), a split in the ranges of R33, and a value for each of what there are
several (R40). -/
def ImageValues.wf (v : ImageValues) : Bool :=
  decide (v.role.toNat ≤ 4) && decide (10 ≤ v.share.toNat) && decide (v.share.toNat ≤ 90) && decide (v.share.toNat % 5 = 0)
    && decide (1600 ≤ v.budget.toNat) && decide (v.budget.toNat ≤ 3200) && decide (v.budget.toNat % 25 = 0)
    && decide (v.rowsPart.length = 4) && decide (v.reserve.length = 4) && decide (v.linkEnable.length = 48)
    && decide (v.linkExpect.length = 48) && decide (v.linkHalfOk.length = 48) && decide (v.linkPrecode.length = 48)
    && decide (v.laneLimit.length = 48) && decide (v.guarded.length = 48)

/-- Whether a command is well formed. -/
def Instr.wf : Instr → Bool
  | .ctlNop _ b => slotIs b 0 0x00
  | .jmp _ b => slotIs b 0 0x01
  | .brz _ b => slotIs b 0 0x02
  | .brnz _ b => slotIs b 0 0x03
  | .dbnz _ b => slotIs b 0 0x04
  | .waitt _ b => slotIs b 0 0x05
  | .mtag _ b => slotIs b 0 0x06
  | .trace _ b => slotIs b 0 0x07
  | .endShare _ b => slotIs b 0 0x08
  | .adrNop _ b => slotIs b 1 0x00
  | .adrMovi _ b => slotIs b 1 0x01
  | .adrAddi _ b => slotIs b 1 0x02
  | .addx _ b => slotIs b 1 0x03
  | .addin _ b => slotIs b 1 0x04
  | .seti _ b => slotIs b 1 0x05
  | .movxi _ b => slotIs b 1 0x06
  | .setj _ b => slotIs b 1 0x07
  | .movxj _ b => slotIs b 1 0x08
  | .bind _ b => slotIs b 1 0x09
  | .sclNop _ b => slotIs b 2 0x00
  | .add _ b => slotIs b 2 0x01
  | .sub _ b => slotIs b 2 0x02
  | .sclAddi _ b => slotIs b 2 0x03
  | .andX _ b => slotIs b 2 0x04
  | .orX _ b => slotIs b 2 0x05
  | .xorX _ b => slotIs b 2 0x06
  | .shl _ b => slotIs b 2 0x07
  | .shr _ b => slotIs b 2 0x08
  | .sra _ b => slotIs b 2 0x09
  | .cmplt _ b => slotIs b 2 0x0A
  | .cmpltu _ b => slotIs b 2 0x0B
  | .cmpeq _ b => slotIs b 2 0x0C
  | .mul _ b => slotIs b 2 0x0D
  | .sclMovi _ b => slotIs b 2 0x0E
  | .fadd _ b => slotIs b 2 0x10
  | .fmul _ b => slotIs b 2 0x11
  | .ffma _ b => slotIs b 2 0x12
  | .fcvti _ b => slotIs b 2 0x13
  | .icvtf _ b => slotIs b 2 0x14
  | .ldx _ b => slotIs b 2 0x18
  | .stx _ b => slotIs b 2 0x19
  | .movax _ b => slotIs b 2 0x1A
  | .rdtag _ b => slotIs b 2 0x1B
  | .rdcyc _ b => slotIs b 2 0x1C
  | .writeLands _ => true
  | .load _ b => slotIs b 3 0x01
  | .store _ b => slotIs b 3 0x02
  | .pick _ b => slotIs b 3 0x03
  | .spcopy _ b => slotIs b 3 0x04
  | .trav _ b => slotIs b 3 0x08
  | .reduce _ b => slotIs b 3 0x10
  | .atom _ b => slotIs b 3 0x11
  | .signal _ b => slotIs b 3 0x18
  | .waitFlag _ b => slotIs b 3 0x19
  | .fence _ b => slotIs b 3 0x1A
  | .semtake _ b => slotIs b 3 0x1B
  | .semgive _ b => slotIs b 3 0x1C
  | .mma _ b => slotIs b 4 0x40
  | .mdrain _ b => slotIs b 4 0x41
  | .vadd _ b => slotIs b 5 0x80
  | .vsub _ b => slotIs b 5 0x81
  | .vmul _ b => slotIs b 5 0x82
  | .vfma _ b => slotIs b 5 0x83
  | .vmax _ b => slotIs b 5 0x84
  | .vmin _ b => slotIs b 5 0x85
  | .vadds _ b => slotIs b 5 0x86
  | .vmuls _ b => slotIs b 5 0x87
  | .vcvt _ b => slotIs b 5 0x88
  | .vwiden _ b => slotIs b 5 0x89
  | .vcopy _ b => slotIs b 5 0x8A
  | .vzero _ b => slotIs b 5 0x8B
  | .vexp2 _ b => slotIs b 5 0x90
  | .vlog2 _ b => slotIs b 5 0x91
  | .vrcp _ b => slotIs b 5 0x92
  | .vrsqrt _ b => slotIs b 5 0x93
  | .vtanh _ b => slotIs b 5 0x94
  | .vgmax _ b => slotIs b 5 0x98
  | .vgsum _ b => slotIs b 5 0x99
  | .vgsub _ b => slotIs b 5 0x9A
  | .vgmul _ b => slotIs b 5 0x9B
  | .macroInstanceStart _ _ => true
  | .macroComplete _ _ => true
  | .waitTimeout _ => true
  | .cutPointReached _ _ _ => true
  | .lost _ => true
  | .traceEnable _ _ => true
  | .engineWake _ => true
  | .idleDelayExpiry _ => true
  | .stopDrainComplete _ => true
  | .arrival _ _ => true
  | .pllLocked _ => true
  | .housekeepingRound r => r.wf
  | .thermalTrip _ => true
  | .cooledRestart => true
  | .powerGoodRise _ => true
  | .powerGoodFall _ => true
  | .powerGoodTimeout _ => true
  | .enableReleaseTimeout _ => true
  | .resetPinRelease _ => true
  | .resetPinHoldTimeout _ => true
  | .resetPinStuck _ => true
  | .resetPinRearm _ => true
  | .getInfo k => opcodeIs k 0x01
  | .setRole k => opcodeIs k 0x02
  | .partitionStart k => opcodeIs k 0x03
  | .partitionStop k => opcodeIs k 0x04
  | .contextCreate k => opcodeIs k 0x05
  | .contextDestroy k => opcodeIs k 0x06
  | .regionMap k => opcodeIs k 0x07
  | .regionUnmap k => opcodeIs k 0x08
  | .queueCreate k => opcodeIs k 0x09
  | .queueDestroy k => opcodeIs k 0x0A
  | .resetCore k => opcodeIs k 0x0B && byteIs k 8 0
  | .resetCluster k => opcodeIs k 0x0B && byteIs k 8 1
  | .resetPartition k => opcodeIs k 0x0B && byteIs k 8 2
  | .resetWarm k => opcodeIs k 0x0B && byteIs k 8 3
  | .resetCold k => opcodeIs k 0x0B && byteIs k 8 4
  | .cadastreRead k => opcodeIs k 0x0C
  | .cadastreImport k => opcodeIs k 0x0D
  | .memtestFull k => opcodeIs k 0x0E
  | .retentionTest k => opcodeIs k 0x0E
  | .memtestComplete _ => true
  | .repairBlock k => opcodeIs k 0x0F
  | .powerSplit k => opcodeIs k 0x10
  | .thermalConfig k => opcodeIs k 0x11
  | .measureRead k => opcodeIs k 0x12
  | .errinjArm k => opcodeIs k 0x13
  | .seqTableSetup k => opcodeIs k 0x14
  | .mcqDoorbell _ => true
  | .wqDoorbell _ _ => true
  | .evConsWrite _ _ => true
  | .mcqEnable _ => true
  | .evqEnable _ _ => true
  | .suspend _ _ _ => true
  | .unsuspend _ _ _ => true
  | .linkEnable _ _ => true
  | .linkDisable _ _ => true
  | .retrain _ _ => true
  | .wdogConfigWrite _ _ _ => true
  | .w1cClear _ _ _ => true
  | .registerWrite _ size _ => decide (size = 1 ∨ size = 2 ∨ size = 4 ∨ size = 8)
  | .hkBoot _ _ => true
  | .identity => true
  | .imageRead _ => true
  | .imagePiece _ data => decide (data ≠ [])
  | .verifyImage => true
  | .powerUp => true
  | .memInit => true
  | .testDone _ => true
  | .cadastrePhase _ => true
  | .applyCad => true
  | .configure v => v.wf
  | .getVersion _ => true
  | .getCapabilities _ => true
  | .negotiateAlgorithms _ => true
  | .getDigests _ => true
  | .getCertificate _ => true
  | .challenge _ => true
  | .getMeasurements _ => true
  | .runPacket _ k => opcodeIs k 0x20
  | .linear _ k => opcodeIs k 0x21
  | .attend _ k => opcodeIs k 0x22
  | .attendBwd _ k => opcodeIs k 0x23
  | .appendKv _ k => opcodeIs k 0x24
  | .stepPacket _ k => opcodeIs k 0x25
  | .copyPacket _ k => opcodeIs k 0x26
  | .collective _ k => opcodeIs k 0x27
  | .flagSet _ k => opcodeIs k 0x28
  | .flagWait _ k => opcodeIs k 0x29
  | .fencePacket _ k => opcodeIs k 0x2A
  | .nop _ k => opcodeIs k 0x2D
  | .openSeq _ k => opcodeIs k 0x2B && byteIs k 34 0
  | .mapPages _ k => opcodeIs k 0x2B && byteIs k 34 1
  | .commitPages _ k => opcodeIs k 0x2B && byteIs k 34 2
  | .dropPages _ k => opcodeIs k 0x2B && byteIs k 34 3
  | .freePages _ k => opcodeIs k 0x2B && byteIs k 34 4
  | .reencodePages _ k => opcodeIs k 0x2B && byteIs k 34 5
  | .truncateSeq _ k => opcodeIs k 0x2B && byteIs k 34 6
  | .syncSeq _ k => opcodeIs k 0x2B && byteIs k 34 7
  | .closeSeq _ k => opcodeIs k 0x2B && byteIs k 34 8
  | .readSeq _ k => opcodeIs k 0x2B && byteIs k 34 9
  | .pageServe _ k => opcodeIs k 0x2C && !requestBit k
  | .pageServeRequest _ k => opcodeIs k 0x2C && requestBit k
  | .packetComplete _ _ => true
  | .gemvB _ _ _ => true
  | .attendD _ _ _ _ => true
  | .append _ _ _ => true
  | .requant _ _ _ => true
  | .gather _ _ _ => true
  | .stackCommandComplete _ _ => true
  | .readStep _ t => t.wf && t.kind = .read
  | .copyStep _ t => t.wf && t.kind = .copy
  | .writeStep _ t => t.wf && t.kind = .write
  | .flit _ _ _ => true
  | .beat _ _ b => b.wf
  | .unitRunTimeout _ => true
  | .migrationComplete _ _ _ => true
  | .ledgerVisit _ => true
  | .refresh _ _ _ => true
  | .scrubVisit _ => true
  | .rowRemapComplete _ => true
  | .homeOperation _ => true
  | .hostMemRead _ n _ => decide (0 < n)
  | .hostMemWrite _ data _ _ => decide (data ≠ [])
  | .hostSnoop _ => true
  | .ucieTrained _ _ _ => true
  | .dataFrame _ f => decide (f.body.length = 608)
  | .idleFrame _ f => decide (f.body.length = 608)
  | .rdReq _ m => msgIs m 0x01
  | .rdRsp _ m => msgIs m 0x02
  | .wrMsg _ m => msgIs m 0x03
  | .redMsg _ m => msgIs m 0x04
  | .flagAdd _ m => msgIs m 0x05
  | .psReq _ m => msgIs m 0x06
  | .shard _ m => msgIs m 0x07
  | .ackMsg _ m => msgIs m 0x09
  | .drainMsg _ m => msgIs m 0x0A
  | .drainRet _ m => msgIs m 0x0B
  | .ident _ m => msgIs m 0x0C
  | .notReadyResend _ _ => true
  | .signalDetected _ => true
  | .lanesConverged _ _ _ _ => true
  | .laneTrainTimeout _ _ => true
  | .codewordLock _ => true
  | .codewordLockLost _ _ => true
  | .miswireTimeout _ => true
  | .linkTrainTimeout _ => true
  | .fecWindow _ _ _ => true
  | .quantumExpiry _ => true
  | .yieldExpiry _ => true
  | .holdBudgetExpiry _ => true
  | .cutComplete _ => true
  | .saveComplete _ _ => true
  | .restoreComplete _ => true
  | .watchdogExpiry _ => true
  | .repairWindowExpiry _ => true
  | .replay _ => true
  | .firmwareWatchdogExpiry => true
  | .interruptTimer _ => true
  | .collectiveEnd _ m => msgIs m 0x08
  | .laneOpenOrShort _ _ => true
  | .resetPinAssert _ => true
  | .packagePowerLoss => true
  | .hostCxlCompletion => true
  | .backInvalidationResponse _ _ => true

end Sys2Proof
end

