-- ==== Sys2Proof/Safety.lean ====
section
/-! DEFINITION. The terms in which claims are made: what counts as a safe run, when a bundle issues and what its slots
leave alone, and the relations between a state and the next that the statements share. -/

namespace Sys2Proof.Machine

/-- A step of `s` answers a next state. -/
def Continues (s : State) : Prop := ∃ t, step s = .next t

/-! ### Bundles and slots -/

/-- A bundle issues now (R47, R48, R62, R63, R66): the core may issue, no other bundle is open in this core cycle, nothing
refuses the bundle, nothing holds it, and no engine queue has taken a token before its `WAITT`. -/
def Opens (s : State) (c : CoreId) (b : Bundle) : Prop :=
  s.mayIssue c = true ∧ (s.core c).cur = none ∧ staticCauses b (s.core c).pc.toNat = [] ∧ holdOf (s.core c) b = none
    ∧ issueCauses (s.core c) b = [] ∧ (s.core c).tokensOpen b = true

/-- A slot of a bundle takes effect now: the bundle holds the slot with the opcode, and it issues now or stands open in
this core cycle with this slot still to take effect (R48). -/
def Stands (s : State) (c : CoreId) (b : Bundle) (slot op : Nat) : Prop :=
  b.has slot = true ∧ b.op slot = op
    ∧ (Opens s c b ∨ ((s.core c).cur = some b ∧ (s.core c).st = .running ∧ (s.core c).curDone.getLsbD slot = false))

/-- The core once its bundle stands open (R47, R66, R80). -/
def Core.opened (x : Core) (b : Bundle) : Core := if x.cur = none then { x.openWith b with hold := none } else x

/-- The core with its bundle open and one slot marked as having taken effect. -/
def Core.tookSlot (x : Core) (b : Bundle) (slot : Nat) : Core :=
  { x.opened b with curDone := (x.opened b).curDone ||| BitVec.ofNat 6 (2 ^ slot) }

/-- A cluster but for its trace buffer and what counts its records (R72 to R75). -/
def Cluster.untraced (k : Cluster) : Cluster :=
  { k with trBuf := [], trNext := 0, trWrapped := false, trFull := false, trLost := 0, trSeq := 0, trDropped := 0,
           trThisCycle := 0 }

/-- Nothing changes from `s` to `t` but one core and the trace records of its cluster. -/
def OnlyCore (s t : State) (c : CoreId) : Prop :=
  { t with cores := s.cores, clusters := s.clusters } = s ∧ (∀ d, d ≠ c → t.core d = s.core d)
    ∧ (∀ k, k ≠ c.cluster → t.cluster k = s.cluster k)
    ∧ (t.cluster c.cluster).untraced = (s.cluster c.cluster).untraced

/-- A slot command completes: the core is as `f` leaves it once its bundle is open, and nothing else changes. -/
def SlotGives (s : State) (c : CoreId) (b : Bundle) (slot : Nat) (i : Instr) (f : Core → Core) : Prop :=
  ∃ t, exec i s = .next t ∧ t.core c = f ((s.core c).tookSlot b slot) ∧ OnlyCore s t c

/-- Put one register write in flight (R60). -/
def Core.flies (file : RegFile) (idx : Nat) (v : BitVec 48) (slot lat : Nat) (x : Core) : Core :=
  { x with inflight := x.inflight ++ [⟨file, idx, v, slot, lat⟩] }

/-- Branch: the target, and two core cycles with no issue (R51). -/
def Core.branches (target : Nat) (x : Core) : Core := { x with pc := BitVec.ofNat 17 (2 * target), idle := 3 }

/-- A register of a file as a 48-bit number; for the macro tag the number of the register says nothing. -/
def Core.reg (x : Core) : RegFile → Nat → BitVec 48
  | .a, n => x.a.get 0 n
  | .x, n => (x.x.get 0 n).zeroExtend 48
  | .j, n => (x.j.get 0 n).zeroExtend 48
  | .i, n => (x.ir n).zeroExtend 48
  | .bind, n => (x.bind.get 0 n).zeroExtend 48
  | .mtag, _ => x.mtag.zeroExtend 48

/-- The part of a 48-bit value that a register of a file holds (R49). -/
def RegFile.keep (v : BitVec 48) : RegFile → BitVec 48
  | .a => v
  | .x => (v.truncate 32 : BitVec 32).zeroExtend 48
  | .j => (v.truncate 16 : BitVec 16).zeroExtend 48
  | .i => (v.truncate 32 : BitVec 32).zeroExtend 48
  | .bind => (v.truncate 6 : BitVec 6).zeroExtend 48
  | .mtag => (v.truncate 16 : BitVec 16).zeroExtend 48

/-- A write in flight is to a register. -/
def RegWrite.hits (w : RegWrite) (f : RegFile) (n : Nat) : Prop := w.file = f ∧ (f = .mtag ∨ w.idx = n)

/-- The bytes of SP from an offset hold the given bytes, and every other byte of SP is as it was. -/
def SpHolds (x y : Core) (off : Nat) (bs : List Byte) : Prop :=
  ∀ k, y.sp.get 0 k = if off ≤ k ∧ k < off + bs.length then bs.getD (k - off) 0 else x.sp.get 0 k

/-! ### Management commands -/

/-- The form of a management packet (R377, R379): its opcode, its `PART` byte, and 0 in every byte that neither a field of
`used` (offset, size) nor the reply covers. -/
def MgmtForm (k : Packet) (op : Nat) (usesPart : Bool) (used : List (Nat × Nat)) : Prop :=
  pf k 0 1 = op ∧ pf k 1 1 = 0 ∧ pf k 2 1 = 0 ∧ (if usesPart then pf k 3 1 < 4 else pf k 3 1 = 0)
    ∧ ∀ o, 8 ≤ o → o < 56 → (∀ u ∈ used, o < u.1 ∨ u.1 + u.2 ≤ o) → pf k o 1 = 0

/-- A host address field of a packet: [47:0], 64-byte aligned (R380). -/
def HostField (k : Packet) (o : Nat) : Prop := pf k (o + 6) 2 = 0 ∧ pa k o % 64 = 0

/-- What the completion of the management command at `HEAD` sends to the host, in order (R375, R378, R390): the reply slot
whole, the head write-back where one is set, the interrupt where `IRQ` is set. -/
def mgmtReply (s : State) (st : Status) (d : Word) : List HostReq :=
  let h := s.hi.mcqHead
  [.write (s.hi.mcqBase.toNat + 64 * (h.toNat % 2 ^ s.hi.mcqLog2n.toNat) + 56)
      ([BitVec.ofNat 8 st.code, 1, 0, 0] ++ leBytes 4 d.toNat)]
    ++ (if s.hi.mcqHeadWb = 0 then [] else [.write s.hi.mcqHeadWb.toNat (leBytes 4 (h + 1).toNat)])
    ++ (if s.hi.mcqIrq then [.irq 8] else [])

/-- The management command at `HEAD` completes (R375): what it writes before its reply is `pre`. -/
def Completes (s t : State) (pre : List HostReq) (st : Status) (d : Word) : Prop :=
  t.cxlOut = s.cxlOut ++ pre ++ mgmtReply s st d ∧ t.hi.mcqHead = s.hi.mcqHead + 1

/-- A partition may take commands on its contexts, regions and tables: RUNNING or STOPPED (R380). -/
def Part.open' (q : Part) : Prop := q.st = .running ∨ q.st = .stopped

/-- A command of the HKC reaches a partition's sequencer at once: its core PLL runs, or is stopping, which the arrival cancels
(R27). -/
def Part.reached (q : Part) : Prop := q.pll = .running ∨ q.pll = .stopping

/-- A command of the HKC is held for a partition whose PLL is stopped or starting (R26, R27): its arrival starts the PLL, and the
command stays at `HEAD` with no effect yet. -/
def HeldForPll (s t : State) (p : Fin 4) (k : Packet) : Prop :=
  (t.part p).pll = .starting ∧ (t.part p).heldArr = (s.part p).heldArr ++ [.command k] ∧ t.hi.mcqWait = true
    ∧ (∀ o, o ≠ p → t.part o = s.part o)
    ∧ { t with parts := s.parts, hi := { t.hi with mcqWait := s.hi.mcqWait } } = s

end Sys2Proof.Machine
end

