-- ==== Sys2Proof/Certificates/Slice0/Obligations.lean ====
section
/-! DEFINITION. The statements for the provers. -/

open Sys2Proof Sys2Proof.Machine

/-! ### The queue of commands -/

/-- A step takes the command at the front of the queue and runs it on the state with the queue's rest. -/
def Obligations.StepRunsFrontCommand : Prop :=
  ∀ (s : State) (i : Instr) (rest : List Instr), step { s with pending := i :: rest } = exec i { s with pending := rest }

/-! ### The core: slots that the issue unit executes -/

/-- The commands of the SCL slot that write X[`D`] from registers alone: opcode, latency and result (R54). FP32 results
follow R123. -/
def sclResults : List ((CoreId → Bundle → Instr) × Nat × Nat × (State → CoreId → Bundle → Word)) :=
  let x (s : State) (c : CoreId) (n : Nat) : Word := (s.core c).x.get 0 n
  let s1 (b : Bundle) : Nat := b.f 2 17 13
  let s2 (b : Bundle) : Nat := b.f 2 22 18
  [ (.add, 0x01, 1, fun s c b => x s c (s1 b) + x s c (s2 b)),
    (.sub, 0x02, 1, fun s c b => x s c (s1 b) - x s c (s2 b)),
    (.sclAddi, 0x03, 1, fun s c b => x s c (s1 b) + BitVec.ofInt 32 (BitVec.ofNat 9 (b.f 2 31 23)).toInt),
    (.andX, 0x04, 1, fun s c b => x s c (s1 b) &&& x s c (s2 b)),
    (.orX, 0x05, 1, fun s c b => x s c (s1 b) ||| x s c (s2 b)),
    (.xorX, 0x06, 1, fun s c b => x s c (s1 b) ^^^ x s c (s2 b)),
    (.shl, 0x07, 1, fun s c b => x s c (s1 b) <<< ((x s c (s2 b)).toNat % 32)),
    (.shr, 0x08, 1, fun s c b => x s c (s1 b) >>> ((x s c (s2 b)).toNat % 32)),
    (.sra, 0x09, 1, fun s c b => (x s c (s1 b)).sshiftRight ((x s c (s2 b)).toNat % 32)),
    (.cmplt, 0x0A, 1, fun s c b => if (x s c (s1 b)).toInt < (x s c (s2 b)).toInt then 1 else 0),
    (.cmpltu, 0x0B, 1, fun s c b => if (x s c (s1 b)).toNat < (x s c (s2 b)).toNat then 1 else 0),
    (.cmpeq, 0x0C, 1, fun s c b => if x s c (s1 b) = x s c (s2 b) then 1 else 0),
    (.mul, 0x0D, 3, fun s c b => x s c (s1 b) * x s c (s2 b)),
    (.sclMovi, 0x0E, 1, fun _ _ b => BitVec.ofNat 32 (b.f 2 63 32)),
    (.fadd, 0x10, 4, fun s c b => fAdd (x s c (s1 b)) (x s c (s2 b))),
    (.fmul, 0x11, 4, fun s c b => fMul (x s c (s1 b)) (x s c (s2 b))),
    (.ffma, 0x12, 4, fun s c b => fFma (x s c (b.f 2 12 8)) (x s c (s1 b)) (x s c (s2 b))),
    (.fcvti, 0x13, 4, fun s c b => fCvtI (x s c (s1 b))),
    (.icvtf, 0x14, 4, fun s c b => iCvtF (x s c (s1 b))),
    (.movax, 0x1A, 1, fun s c b => ((s.core c).a.get 0 (s1 b)).truncate 32),
    (.rdtag, 0x1B, 1, fun s c _ => (s.core c).wtag),
    (.rdcyc, 0x1C, 1, fun s c _ => (s.cluster c.cluster).cycle.truncate 32) ]

/-- Each of these commands puts its result in flight to X[`D`] with its latency, the operands read as they stand when the
bundle issues, and changes nothing else (R54, R60). -/
def Obligations.ScalarResults : Prop :=
  ∀ e ∈ sclResults, ∀ (s : State) (c : CoreId) (b : Bundle), Stands s c b 2 e.2.1 →
    SlotGives s c b 2 (e.1 c b) (Core.flies .x (b.f 2 12 8) ((e.2.2.2 s c b).zeroExtend 48) 2 e.2.2.1)

/-- `LDX` puts the SP word at A[`S1`] + 4 × `IMM9` in flight to X[`D`] with latency 6; `STX` makes that word X[`S2`] at
once, and no other byte of SP changes; nothing else changes (R54). The word of an `LDX` has no recorded error; no flip of
the SP encoder is armed for an `STX`. -/
def Obligations.ScalarMemory : Prop :=
  ∀ (s : State) (c : CoreId) (b : Bundle),
    let a := ((s.core c).a.get 0 (b.f 2 17 13) + BitVec.ofInt 48 (4 * (BitVec.ofNat 9 (b.f 2 31 23)).toInt)).toNat
    (Stands s c b 2 0x18 → a % 4 = 0 → a < 2097152 → (∀ e ∈ (s.core c).spErr, e.1 ≠ a / 4) →
      SlotGives s c b 2 (.ldx c b)
        (Core.flies .x (b.f 2 12 8) (BitVec.ofNat 48 (leNat ((s.core c).sp.getMany 0 a 4))) 2 6))
    ∧ (Stands s c b 2 0x19 → a % 4 = 0 → a < 2097152 → s.hk.flips = [] →
      ∃ t, exec (.stx c b) s = .next t ∧ OnlyCore s t c
        ∧ SpHolds (s.core c) (t.core c) a (leBytes 4 ((s.core c).x.get 0 (b.f 2 22 18)).toNat)
        ∧ { t.core c with sp := (s.core c).sp, spErr := (s.core c).spErr, spLive := (s.core c).spLive }
          = (s.core c).tookSlot b 2)

/-- The immediate of an ADR slot (R50): `IMM12` in a NORMAL bundle, `IMM48` in a WIDE one, signed. -/
def adrImmediate (b : Bundle) : BitVec 48 :=
  if b.kind = 1 then BitVec.ofNat 48 (b.f 1 63 16) else (BitVec.ofNat 12 (b.f 1 31 20)).signExtend 48

/-- The commands of the ADR slot that write a register: opcode, file, register number, latency and value (R53). -/
def adrResults : List ((CoreId → Bundle → Instr) × Nat × RegFile × (Bundle → Nat) × Nat × (Core → Bundle → BitVec 48)) :=
  let d (b : Bundle) : Nat := b.f 1 13 8
  let sr (b : Bundle) : Nat := b.f 1 19 14
  [ (.adrMovi, 0x01, .a, d, 1, fun _ b => adrImmediate b),
    (.adrAddi, 0x02, .a, d, 1, fun x b => x.a.get 0 (sr b) + adrImmediate b),
    (.addx, 0x03, .a, d, 2, fun x b => x.a.get 0 (sr b) + (x.x.get 0 (b.f 1 24 20)).signExtend 48),
    (.addin, 0x04, .a, d, 1, fun x b =>
      x.a.get 0 (sr b) + (if b.f 1 25 20 = 0 then 0 else (x.i.get 0 (b.f 1 25 20)).signExtend 48)),
    (.seti, 0x05, .i, d, 1, fun _ b => adrImmediate b),
    (.movxi, 0x06, .i, d, 2, fun x b => (x.x.get 0 (sr b)).zeroExtend 48),
    (.setj, 0x07, .j, d, 1, fun _ b => adrImmediate b),
    (.movxj, 0x08, .j, d, 2, fun x b => (x.x.get 0 (sr b)).zeroExtend 48),
    (.bind, 0x09, .bind, fun b => 4 * d b + b.f 1 21 20, 1, fun _ b => BitVec.ofNat 48 (sr b)) ]

/-- Each of these commands puts its register write in flight with its latency and changes nothing else (R53, R60). -/
def Obligations.AddressResults : Prop :=
  ∀ e ∈ adrResults, ∀ (s : State) (c : CoreId) (b : Bundle), Stands s c b 1 e.2.1 →
    SlotGives s c b 1 (e.1 c b) (Core.flies e.2.2.1 (e.2.2.2.1 b) (e.2.2.2.2.2 (s.core c) b) 1 e.2.2.2.2.1)

/-- The branches (R51, R52): a taken branch sets the program address to its target and is followed by two core cycles with
no issue; one that is not taken costs nothing; `DBNZ` puts its register less 1 in flight. -/
def Obligations.Branches : Prop :=
  ∀ (s : State) (c : CoreId) (b : Bundle),
    let v := (s.core c).x.get 0 (b.f 0 12 8)
    let go := Core.branches (b.f 0 31 16)
    (Stands s c b 0 0x01 → SlotGives s c b 0 (.jmp c b) go)
    ∧ (Stands s c b 0 0x02 → SlotGives s c b 0 (.brz c b) (if v = 0 then go else id))
    ∧ (Stands s c b 0 0x03 → SlotGives s c b 0 (.brnz c b) (if v ≠ 0 then go else id))
    ∧ (Stands s c b 0 0x04 → SlotGives s c b 0 (.dbnz c b) (fun x =>
        (if v - 1 ≠ 0 then go else id) (x.flies .x (b.f 0 12 8) ((v - 1).zeroExtend 48) 0 1)))

/-- The NOP of each slot changes nothing but that its bundle issues; `MTAG` puts the macro tag in flight with latency 1,
`END` stops issue, and `WAITT` once its count is reached takes effect with its bundle: nothing but the bundle's issue, which
consumes the count if `C` is 1 (R52 to R54, R66, R67). -/
def Obligations.NopsTagEndAndWait : Prop :=
  ∀ (s : State) (c : CoreId) (b : Bundle),
    (Stands s c b 0 0x00 → SlotGives s c b 0 (.ctlNop c b) id) ∧ (Stands s c b 1 0x00 → SlotGives s c b 1 (.adrNop c b) id)
    ∧ (Stands s c b 2 0x00 → SlotGives s c b 2 (.sclNop c b) id)
    ∧ (Stands s c b 0 0x06 → SlotGives s c b 0 (.mtag c b) (Core.flies .mtag 0 (BitVec.ofNat 48 (b.f 0 31 16)) 0 1))
    ∧ (Stands s c b 0 0x08 → SlotGives s c b 0 (.endShare c b) (fun x => { x with ended := true }))
    ∧ (Stands s c b 0 0x05 → SlotGives s c b 0 (.waitt c b) id)
    ∧ (Stands s c b 0 0x05 → (s.core c).cur = none → b.f 0 14 14 = 1 → ∃ t, exec (.waitt c b) s = .next t
        ∧ (t.core c).tok.get 0 (b.f 0 13 8) = (s.core c).tok.get 0 (b.f 0 13 8) - b.f 0 23 16
        ∧ b.f 0 23 16 ≤ (s.core c).tok.get 0 (b.f 0 13 8))

/-- `TRACE` in a bundle that stands open writes one MARK record, of type 7, that names the X register and carries its value,
at the buffer's next place, when the cluster records that type of that core and has room (R52, R72 to R74). -/
def Obligations.TraceWritesMark : Prop :=
  ∀ (s : State) (c : CoreId) (b : Bundle),
    Stands s c b 0 0x07 → (s.core c).cur = some b → (s.cluster c.cluster).trEnable = true →
    (s.cluster c.cluster).trTypes.getLsbD 7 = true → (s.cluster c.cluster).trCores.getLsbD c.k.val = true →
    (s.cluster c.cluster).traceRoom = true →
    ∃ t r, exec (.trace c b) s = .next t ∧ OnlyCore s t c ∧ t.core c = (s.core c).tookSlot b 0
      ∧ t.cluster c.cluster = (s.cluster c.cluster).putTrace r
      ∧ r.toNat % 256 = 7 + 16 * c.k.val ∧ r.toNat / 2 ^ 8 % 256 = b.f 0 12 8
      ∧ r.toNat / 2 ^ 16 % 65536 = (s.core c).curPc.toNat ∧ r.toNat / 2 ^ 32 % 2 ^ 32 = (s.core c).wtag.toNat
      ∧ r.toNat / 2 ^ 64 % 65536 = (s.core c).mtag.toNat ∧ r.toNat / 2 ^ 80 % 65536 = (s.cluster c.cluster).trSeq.toNat
      ∧ r.toNat / 2 ^ 128 % 2 ^ 48 = (s.cluster c.cluster).cycle.toNat
      ∧ r.toNat / 2 ^ 192 = ((s.core c).x.get 0 (b.f 0 12 8)).toNat

/-- Bundles that do not issue. One whose `KIND` is reserved or that sets a reserved header bit halts the core with
`ILLEGAL_OPCODE`, no slot concerned and `MORE` 0, and no slot takes effect (R48). One whose `WAITT` has not reached its count
is held, in a core cycle in which no engine queue has taken a token yet (R66): no slot of it takes effect and the program
address stays (R52, R62). Whatever slot command offers the bundle: here some of them. -/
def Obligations.BundlesThatDoNotIssue : Prop :=
  ∀ (s : State) (c : CoreId) (b : Bundle), s.mayIssue c = true → (s.core c).cur = none →
    ((s.core c).pc.toNat + 2 ≤ 65536 → (2 ≤ b.kind.toNat ∨ b.rsv ≠ 0) →
      ∀ i ∈ [Instr.ctlNop c b, Instr.add c b], ∃ t, exec i s = .next t
        ∧ (t.core c).st = .halted ∧ (t.core c).hReason = 0x01 ∧ (t.core c).hSlot = 7 ∧ (t.core c).hMore = false
        ∧ (t.core c).hPc = (s.core c).pc.truncate 16 ∧ (t.core c).inflight = (s.core c).inflight
        ∧ (t.core c).a = (s.core c).a ∧ (t.core c).x = (s.core c).x ∧ (t.core c).sp = (s.core c).sp
        ∧ (t.core c).acc = (s.core c).acc)
    ∧ (staticCauses b (s.core c).pc.toNat = [] → b.has 0 = true → b.op 0 = 0x05 → (s.core c).tokPhase ≤ 1 →
      (s.core c).tok.get 0 (b.f 0 13 8) < b.f 0 23 16 →
      ∀ i ∈ [Instr.waitt c b, Instr.add c b, Instr.load c b], ∃ t, exec i s = .next t ∧ OnlyCore s t c
        ∧ (∃ h, (t.core c).hold = some h ∧ h.tok = b.f 0 13 8 ∧ h.want = b.f 0 23 16)
        ∧ { t.core c with hold := (s.core c).hold } = s.core c)

/-! ### The core: macro slots, tokens and the end of a core cycle -/

/-- The commands of the macro slots with slot number and opcode (R77, R104). -/
def macroSlots : List ((CoreId → Bundle → Instr) × Nat × Nat) :=
  [ (.load, 3, 0x01), (.store, 3, 0x02), (.pick, 3, 0x03), (.spcopy, 3, 0x04), (.trav, 3, 0x08), (.reduce, 3, 0x10),
    (.atom, 3, 0x11), (.signal, 3, 0x18), (.waitFlag, 3, 0x19), (.fence, 3, 0x1A), (.semtake, 3, 0x1B),
    (.semgive, 3, 0x1C), (.mma, 4, 0x40), (.mdrain, 4, 0x41), (.vadd, 5, 0x80), (.vsub, 5, 0x81), (.vmul, 5, 0x82),
    (.vfma, 5, 0x83), (.vmax, 5, 0x84), (.vmin, 5, 0x85), (.vadds, 5, 0x86), (.vmuls, 5, 0x87), (.vcvt, 5, 0x88),
    (.vwiden, 5, 0x89), (.vcopy, 5, 0x8A), (.vzero, 5, 0x8B), (.vexp2, 5, 0x90), (.vlog2, 5, 0x91), (.vrcp, 5, 0x92),
    (.vrsqrt, 5, 0x93), (.vtanh, 5, 0x94), (.vgmax, 5, 0x98), (.vgsum, 5, 0x99), (.vgsub, 5, 0x9A), (.vgmul, 5, 0x9B) ]

/-- The increment register that a binding names, sign-extended; I0 reads 0 (R49). -/
def boundIncr (x : Core) (a level : Nat) : BitVec 48 :=
  let n := (x.bind.get 0 (4 * a + level)).toNat
  if n = 0 then 0 else (x.i.get 0 n).signExtend 48

/-- The address registers advanced by a slot with `WB` (R58): each that names an operand, once, by J × I at the outermost
level, or by I at level 0 with depth 0; none without `WB`. -/
def writeBack (x : Core) (w : BitVec 64) (slot : Nat) : List RegWrite :=
  if mf w 26 26 = 1 then
    (macroA w).dedup.map (fun a => ⟨.a, a, x.a.get 0 a
      + (if mf w 25 23 = 0 then boundIncr x a 0
         else BitVec.ofNat 48 (x.j.get 0 (mf w 25 23 - 1)).toNat * boundIncr x a (mf w 25 23 - 1)), slot, 2⟩)
  else []

/-- Some repeat count below the depth is 0 (R59). -/
def noInstance (x : Core) (w : BitVec 64) : Prop := ∃ l < mf w 25 23, x.j.get 0 l = 0

/-- The operation that a slot queues: its word and tags, the repeat counts, base addresses and scalar registers as they
stand at issue (R57, R71). -/
def queuedAs (x : Core) (w : BitVec 64) (m : MacroOp) : Prop :=
  m.word = w ∧ m.wtag = x.wtag ∧ m.mtag = x.mtag ∧ m.next = 0
    ∧ m.reps = (List.range (mf w 25 23)).map (fun l => (x.j.get 0 l).toNat)
    ∧ m.base = (macroA w).map (fun a => x.a.get 0 a) ∧ m.xs = (macroX w).map (fun n => x.x.get 0 n)
    ∧ m.incs = (macroA w).map (fun a => (List.range (mf w 25 23)).map (boundIncr x a))

/-- A macro slot whose repeat counts are not 0 puts one operation at the end of its engine's queue, with everything it
reads captured, and its write-back in flight with latency 2; a DMA slot asks its cluster's DMA engine (R196); nothing else
changes (R57, R58, R64). -/
def Obligations.MacroSlotQueues : Prop :=
  ∀ e ∈ macroSlots, ∀ (s : State) (c : CoreId) (b : Bundle),
    let w := b.word e.2.1
    let x := s.core c
    Stands s c b e.2.1 e.2.2 → ¬ noInstance x w →
    ∃ t m, exec (e.1 c b) s = .next t ∧ OnlyCore (if e.2.1 = 3 then s.askDma c else s) t c ∧ queuedAs x w m
      ∧ (t.core c).queueOf (slotEngine e.2.1) = x.queueOf (slotEngine e.2.1) ++ [m]
      ∧ (∀ g, g ≠ slotEngine e.2.1 → (t.core c).queueOf g = x.queueOf g)
      ∧ (t.core c).inflight = x.inflight ++ writeBack x w e.2.1
      ∧ { t.core c with dmaQ := x.dmaQ, matQ := x.matQ, vecQ := x.vecQ, inflight := x.inflight, issued := x.issued }
        = x.tookSlot b e.2.1

/-- A macro slot with a repeat count of 0 issues no instance: it signals its token once if `SIG_EN` is 1, whatever `SIG_MODE`
says, and its write-back still applies; nothing else changes (R59). The token's count is below 255. -/
def Obligations.ZeroRepeatSignalsOnce : Prop :=
  ∀ e ∈ macroSlots, ∀ (s : State) (c : CoreId) (b : Bundle),
    let w := b.word e.2.1
    let x := s.core c
    let y := x.tookSlot b e.2.1
    Stands s c b e.2.1 e.2.2 → noInstance x w → y.tok.get 0 (mf w 13 8) < 255 →
    SlotGives s c b e.2.1 (e.1 c b) (fun z => { z with
      inflight := z.inflight ++ writeBack x w e.2.1
      tok := if mf w 14 14 = 1 then y.tok.set 0 (mf w 13 8) (y.tok.get 0 (mf w 13 8) + 1) else y.tok })

/-- At the end of a core cycle of a cluster, each core's register holds what the last of its landing writes gave it: the one
from the higher-numbered slot, and of one slot the later-issued one; a register with no landing write is as it was; and
every other write in flight is one core cycle nearer (R60, R61, R62). I0 stays 0 (R49). The cycle count advances by 1. A core
cycle ends once every slot of the bundles that issued in it has taken effect (R48). -/
def Obligations.WritesLandInSlotOrder : Prop :=
  ∀ (s : State) (cl : ClusterId) (k : Fin 9), (s.part cl.p).pll = .running →
    (∀ d : CoreId, d.cluster = cl → (s.core d).slotsLeft = false) →
    let c : CoreId := ⟨cl.p, cl.c, k⟩
    let x := s.core c
    (∀ w ∈ x.inflight, w.slot < 6) →
    ∃ t, exec (.writeLands cl) s = .next t ∧ (t.cluster cl).cycle = (s.cluster cl).cycle + 1
      ∧ (t.core c).inflight = (x.inflight.filter (fun w => 1 < w.left)).map (fun w => { w with left := w.left - 1 })
      ∧ (∀ f n, (∀ w ∈ x.inflight, w.left ≤ 1 → ¬ w.hits f n) → (t.core c).reg f n = x.reg f n)
      ∧ (∀ f n l r w, ¬ (f = .i ∧ n = 0) → x.inflight = l ++ w :: r → w.left ≤ 1 → w.hits f n →
          (∀ v ∈ l, v.left ≤ 1 → v.hits f n → v.slot ≤ w.slot) → (∀ v ∈ r, v.left ≤ 1 → v.hits f n → v.slot < w.slot) →
          (t.core c).reg f n = f.keep w.val)
      ∧ (t.core c).reg .i 0 = 0 ∧ (t.core c).sp = x.sp ∧ (t.core c).acc = x.acc ∧ t.mem = s.mem

/-! ### The core: instances of macro-operations -/

/-- The core's context, clock and share let its engines work (R27, R339). -/
def enginesOn (s : State) (c : CoreId) : Prop :=
  ∃ sh, (s.core c).share = some sh ∧ (s.core c).st = .running ∧ (s.ctx c.p sh.ctx).st = .running
    ∧ (s.part c.p).pll = .running

/-- An operation of the ME's drain or of the VE at the head of its queue: the engine is not gated and free, no `STX` of the open
bundle is still to be performed, and the token that the operation awaits, if it awaits one, is there, with good parity, and no
engine after this one has tested its own in this core cycle (R24, R43, R54, R64 to R66, R102). -/
def headReady (s : State) (c : CoreId) (e : Engine) (m : MacroOp) (q : List MacroOp) : Prop :=
  enginesOn s c ∧ (s.core c).queueOf e = m :: q ∧ s.ungated c e = true ∧ (∀ i ∈ (s.core c).runs, i.eng ≠ e)
    ∧ ((e = .mat ∧ m.op = 0x41) ∨ (e = .vec ∧ 0x80 ≤ m.op))
    ∧ (s.core c).stxDue = false
    ∧ (mf m.word 22 22 = 1 → m.waited = false → 0 < (s.core c).tok.get 0 (mf m.word 21 16)
        ∧ (s.core c).regFault 5 (mf m.word 21 16) = false ∧ (s.core c).tokPhase ≤ Engine.slot e - 1)

/-- The check that a `MDRAIN` or a VEC operation makes of its operands (R81). -/
def drainOrVecCheck (m : MacroOp) : Option (Nat × Nat) :=
  if m.op = 0x41 then drainCheck m m.next else if m.idle then none else vecCheck m m.next

/-- The head of a queue starts its next instance. With good operands the token that it awaits loses 1 at its first start, the
instance runs with the operation's index, and the operation leaves the queue with its last instance (R56, R64, R65). An
operand that fails its bounds or alignment halts the core with `BOUNDS`, and the instance takes no effect: no instance runs,
and SP, ACC and memory are as they were (R81). -/
def Obligations.InstanceStarts : Prop :=
  ∀ (s : State) (c : CoreId) (e : Engine) (m : MacroOp) (q : List MacroOp), headReady s c e m q →
    let x := s.core c
    (drainOrVecCheck m = none →
      ∃ t i, exec (.macroInstanceStart c e) s = .next t ∧ (t.core c).runs = x.runs ++ [i]
        ∧ i.eng = e ∧ i.op = m ∧ i.n = m.next ∧ i.st = .running ∧ i.progress = 0 ∧ (∀ j ∈ x.runs, j.id ≠ i.id)
        ∧ (t.core c).queueOf e = (if m.next + 1 < m.count then { m with next := m.next + 1, waited := true } :: q else q)
        ∧ (t.core c).tok = (if mf m.word 22 22 = 1 ∧ m.waited = false
            then x.tok.set 0 (mf m.word 21 16) (x.tok.get 0 (mf m.word 21 16) - 1) else x.tok)
        ∧ (t.core c).sp = x.sp ∧ (t.core c).acc = x.acc ∧ t.mem = s.mem)
    ∧ (∀ r, drainOrVecCheck m = some r →
      ∃ t, exec (.macroInstanceStart c e) s = .next t ∧ (t.core c).st = .halted ∧ (t.core c).hReason = 0x12
        ∧ (t.core c).hAddr = BitVec.ofNat 48 r.2 ∧ (t.core c).hSlot = (if e = .mat then 4 else 5) ∧ (t.core c).runs = []
        ∧ (t.core c).sp = x.sp ∧ (t.core c).acc = x.acc ∧ t.mem = s.mem)

/-- A running `SPCOPY` with `DIR` 0 whose source bytes carry no error, with no flip of an SP encoder armed (R90). -/
def copyRuns (s : State) (c : CoreId) (i : Inst) : Prop :=
  enginesOn s c ∧ (s.core c).runs = [i] ∧ i.eng = .dma ∧ i.op.op = 0x04 ∧ mf i.op.word 42 42 = 0 ∧ i.st = .running
    ∧ i.progress ≤ i.op.x 0 ∧ (s.core c).spErr = [] ∧ s.hk.flips = []

/-- The copy's other core: core `KCORE` of the same cluster. -/
def copyTo (c : CoreId) (i : Inst) : CoreId := { c with k := ⟨mf i.op.word 41 38 % 9, by omega⟩ }

/-- The completion of an `SPCOPY` writes its remaining bytes into the other core's SP and leaves every other byte of it; the
instance is gone; a token signalled for each instance, or for the last one, grows by 1 (R65, R90, R109). One that signals
completes in a core cycle in which no token has been tested yet (R66). -/
def Obligations.SpcopyCompletes : Prop :=
  ∀ (s : State) (c : CoreId) (i : Inst), copyRuns s c i →
    let d := copyTo c i
    let x := s.core c
    let n := i.op.x 0 - i.progress
    let src := x.sp.getMany 0 (i.op.addr 0 i.n + i.progress) n
    let signals := mf i.op.word 14 14 = 1 ∧ (mf i.op.word 15 15 = 1 ∨ ¬ ∃ m ∈ x.dmaQ, m.num = i.op.num)
    (mf i.op.word 14 14 = 1 → x.tokPhase = 0) → (signals → x.tok.get 0 (mf i.op.word 13 8) < 255) →
    ∃ t, exec (.macroComplete c i.id) s = .next t
      ∧ SpHolds (s.core d) (t.core d) (i.op.addr 1 i.n + i.progress) src ∧ (t.core c).runs = []
      ∧ (signals → (t.core c).tok.get 0 (mf i.op.word 13 8) = x.tok.get 0 (mf i.op.word 13 8) + 1)
      ∧ (¬ signals → (t.core c).tok = x.tok) ∧ t.mem = s.mem

/-- While its context is being saved, a running `SPCOPY` that is cut after a whole number of 4 KiB has copied the bytes up to
there and stands cut there; a `WAIT` or `SEMTAKE` that waits is cut at any moment, and its registration is withdrawn (R113,
R114, R349). -/
def Obligations.CutPoints : Prop :=
  (∀ (s : State) (c : CoreId) (i : Inst) (sh : Share) (amount : Nat), (s.core c).share = some sh →
    (s.ctx c.p sh.ctx).st = .saving → (s.core c).st = .running → (s.part c.p).pll = .running →
    (s.core c).runs = [i] → i.eng = .dma → i.op.op = 0x04 → mf i.op.word 42 42 = 0 → i.st = .running →
    (s.core c).spErr = [] → s.hk.flips = [] → amount % 4096 = 0 → i.progress ≤ amount → amount < i.op.x 0 →
    let d := copyTo c i
    ∃ t, exec (.cutPointReached c i.id amount) s = .next t
      ∧ SpHolds (s.core d) (t.core d) (i.op.addr 1 i.n + i.progress)
          ((s.core c).sp.getMany 0 (i.op.addr 0 i.n + i.progress) (amount - i.progress))
      ∧ (t.core c).runs = [{ i with st := .cut, progress := amount }] ∧ t.mem = s.mem)
  ∧ (∀ (s : State) (c : CoreId) (i : Inst) (sh : Share) (amount : Nat), (s.core c).share = some sh →
    (s.ctx c.p sh.ctx).st = .saving → (s.core c).st = .running → (s.part c.p).pll = .running →
    (s.core c).runs = [i] → (i.op.op = 0x19 ∨ i.op.op = 0x1B) → i.st = .waiting →
    ∃ t, exec (.cutPointReached c i.id amount) s = .next t ∧ (t.core c).runs = [{ i with st := .cut }]
      ∧ t.waits = s.waits.filter (fun w => w.agent ≠ HomeAgent.inst c i.id) ∧ t.mem = s.mem)

/-- What tokens and waits halt a core for. A signal that would take a token count above 255 halts it with `TOKEN_OVERFLOW`, and
the count stays at 255 (R65): here the signal of a macro slot with a repeat count of 0. `WAIT_TIMEOUT`: a core that a `WAITT` has
held for more than `LIMIT` × 1,024 core cycles, or whose `WAIT` or `SEMTAKE` has waited for more, halts with reason
`WAIT_TIMEOUT`; with a limit of 0, and below the limit, nothing halts (R68, R70, R96). That a `WAITT`'s halt names its token, as
FILE 5, is the model's choice (log 79). -/
def Obligations.TokensThatHalt : Prop :=
  (∀ e ∈ macroSlots, ∀ (s : State) (c : CoreId) (b : Bundle),
    let w := b.word e.2.1
    Stands s c b e.2.1 e.2.2 → noInstance (s.core c) w → mf w 14 14 = 1 →
    ((s.core c).tookSlot b e.2.1).tok.get 0 (mf w 13 8) = 255 →
    ∃ t, exec (e.1 c b) s = .next t ∧ (t.core c).st = .halted ∧ (t.core c).hReason = 0x21
      ∧ (t.core c).hSlot = BitVec.ofNat 3 e.2.1 ∧ (t.core c).tok.get 0 (mf w 13 8) = 255)
  ∧ (∀ (s : State) (c : CoreId) (sh : Share) (h : Hold), (s.core c).share = some sh → (s.core c).st = .running →
    (s.ctx c.p sh.ctx).st = .running → (s.core c).waitLimit ≠ 0 → (s.core c).hold = some h → h.tok < 64 →
    (s.core c).waitLimit.toNat * 1024 < h.cycles →
    ∃ t, exec (.waitTimeout c) s = .next t ∧ (t.core c).st = .halted ∧ (t.core c).hReason = 0x40
      ∧ (t.core c).hFile = 5 ∧ (t.core c).hReg = BitVec.ofNat 6 h.tok ∧ (t.core c).hPc = (s.core c).pc.truncate 16
      ∧ (t.core c).dmaQ = [] ∧ (t.core c).runs = [] ∧ (t.core c).sp = (s.core c).sp ∧ (t.core c).acc = (s.core c).acc
      ∧ t.mem = s.mem)
  ∧ (∀ (s : State) (c : CoreId) (sh : Share) (i : Inst), (s.core c).share = some sh → (s.core c).st = .running →
    (s.ctx c.p sh.ctx).st = .running → (s.core c).waitLimit ≠ 0 → (s.core c).hold = none → (s.core c).runs = [i] →
    i.op.op = 0x19 ∨ i.op.op = 0x1B → i.st = .waiting → (s.core c).waitLimit.toNat * 1024 < i.held →
    ∃ t, exec (.waitTimeout c) s = .next t ∧ (t.core c).st = .halted ∧ (t.core c).hReason = 0x40
      ∧ (t.core c).hSlot = BitVec.ofNat 3 (Engine.slot i.eng) ∧ (t.core c).hAddr = BitVec.ofNat 48 (i.op.addr 0 i.n)
      ∧ (t.core c).dmaQ = [] ∧ (t.core c).runs = [] ∧ (t.core c).sp = (s.core c).sp ∧ (t.core c).acc = (s.core c).acc
      ∧ t.mem = s.mem)
  ∧ (∀ (s : State) (c : CoreId),
    (s.core c).waitLimit = 0 ∨ ((∀ h, (s.core c).hold = some h → h.cycles ≤ (s.core c).waitLimit.toNat * 1024)
      ∧ ∀ i ∈ (s.core c).runs, i.held ≤ (s.core c).waitLimit.toNat * 1024) →
    exec (.waitTimeout c) s = .next s)

/-! ### Traces, gates and the core PLL -/

/-- The trace registers: a write of `CL_TRACE_CTRL` sets the enables and filters, and setting `ENABLE` from 0 to 1 clears the
pointer, the wrap flag and the lost count and starts `SEQ` at 0; once room returns a LOST record, of type 15, carries the
number of records dropped since the last one (R72 to R74). -/
def Obligations.TraceControl : Prop :=
  ∀ (s : State) (cl : ClusterId),
    (∀ v : Word, s.hi.st ≠ .starting → ∃ t, exec (.traceEnable cl v) s = .next t
      ∧ (t.cluster cl).trEnable = v.getLsbD 0 ∧ (t.cluster cl).trMode = v.getLsbD 1 ∧ (t.cluster cl).trBundles = v.getLsbD 2
      ∧ (t.cluster cl).trCores = v.extractLsb' 3 9 ∧ (t.cluster cl).trTypes = v.extractLsb' 16 16
      ∧ (v.getLsbD 0 = true → (s.cluster cl).trEnable = false → (t.cluster cl).trNext = 0
          ∧ (t.cluster cl).trWrapped = false ∧ (t.cluster cl).trLost = 0 ∧ (t.cluster cl).trSeq = 0)
      ∧ (t.cluster cl).trBuf = (s.cluster cl).trBuf ∧ (∀ d, t.core d = s.core d) ∧ t.mem = s.mem)
    ∧ ((s.cluster cl).trEnable = true → (s.cluster cl).trTypes.getLsbD 15 = true → 0 < (s.cluster cl).trDropped →
      (s.cluster cl).trDropped < 2 ^ 64 → (s.cluster cl).traceRoom = true →
      ∃ t r, exec (.lost cl) s = .next t ∧ t.cluster cl = { (s.cluster cl).putTrace r with trDropped := 0 }
        ∧ r.toNat % 256 = 15 ∧ r.toNat / 2 ^ 192 = (s.cluster cl).trDropped ∧ (∀ d, t.core d = s.core d) ∧ t.mem = s.mem)

/-- Clocks. A gated engine that has work and a clock starts it (R24): the ME and the VE of a core, the DMA engine and the
Traverse network of a cluster, a stack's vector core, a bank unit. The core PLL's state machine (R27): an expired idle delay
with no context, no busy engine and `IDLE_DELAY` not 0 begins a stop; a finished drain stops the PLL; an arrival cancels a
stop that is under way, restarts a stopped PLL, counting it in `RESTARTS`, and is held while the PLL starts; the lock releases
what is held, in order of arrival: what waits elsewhere (a message, a bridge's access) is merely let go on, and a request of the
host or a command of the HKC is performed. -/
def Obligations.ClocksStopAndStart : Prop :=
  ∀ (s : State),
    (∀ c : CoreId, (s.core c).matQ ≠ [] → (s.part c.p).pll = .running →
      ∃ t, exec (.engineWake (.me c)) s = .next t ∧ t.core c = { s.core c with gateMe := false })
    ∧ (∀ c : CoreId, (s.core c).vecQ ≠ [] → (s.part c.p).pll = .running →
      ∃ t, exec (.engineWake (.ve c)) s = .next t ∧ t.core c = { s.core c with gateVe := false })
    ∧ (∀ c : CoreId, (s.core c).dmaQ ≠ [] → (s.part c.p).pll = .running →
      ∃ t, exec (.engineWake (.dma c.cluster)) s = .next t ∧ t.cluster c.cluster = { s.cluster c.cluster with gateDma := false })
    ∧ (∀ (c : CoreId) (m : MacroOp), m ∈ (s.core c).dmaQ → m.op = 0x08 → (s.part c.p).pll = .running →
      ∃ t, exec (.engineWake (.trav c.cluster)) s = .next t ∧ t.cluster c.cluster = { s.cluster c.cluster with gateTrav := false })
    ∧ (∀ (k : Fin 12) (n : Fin 4), (s.stack k).queue ≠ [] →
      ∃ t, exec (.engineWake (.vcore k n)) s = .next t ∧ (t.stack k).gates.getLsbD n.val = false)
    ∧ (∀ u : UnitId, (s.unit u).program ≠ [] →
      ∃ t, exec (.engineWake (.bankUnit u)) s = .next t ∧ t.unit u = { s.unit u with gate := false })
    ∧ (∀ p : Fin 4,
      let q := s.part p
      let gives (i : Instr) (q' : Part) : Prop := ∃ t, exec i s = .next t ∧ t.part p = q' ∧ { t with parts := s.parts } = s
        ∧ ∀ o, o ≠ p → t.part o = s.part o
      (q.pll = .running → (∀ x, (q.ctx x).st = .free) → s.partBusy p = false → q.idleDelay ≠ 0 →
        gives (.idleDelayExpiry p) { q with pll := .stopping })
      ∧ (q.pll = .stopping → gives (.stopDrainComplete p) { q with pll := .stopped })
      ∧ (∀ a, (q.pll = .stopping → gives (.arrival p a) { q with pll := .running })
        ∧ (q.pll = .stopped → gives (.arrival p a)
            { q with pll := .starting, restarts := satAdd q.restarts 1, heldArr := q.heldArr ++ [.event a] })
        ∧ (q.pll = .starting → gives (.arrival p a) { q with heldArr := q.heldArr ++ [.event a] })
        ∧ (q.pll = .running → gives (.arrival p a) q))
      ∧ (q.pll = .starting → (∀ h ∈ q.heldArr, ∃ a, h = .event a) →
        gives (.pllLocked p) { q with pll := .running, heldArr := [] })
      ∧ (q.pll = .starting → exec (.pllLocked p) s
        = .next (q.heldArr.foldl State.releaseHeld (s.setPart p { q with pll := .running, heldArr := [] }))))

/-- A deadlocked partition whose watchdog is enabled and armed and whose count has reached the period makes one report: it is
disarmed and the reports are counted, and the count, the contexts and memory are as they were (R306, R307; the command is the
moment at which the count has reached the period, log 48). The report of a partition with one blocked queue, whose event queue
is enabled and has room, is one `DEADLOCK` record (type 0x0F), which names the queue, and the work tag and address of its oldest
unmet wait (R307). -/
def Obligations.WatchdogReports : Prop :=
  ∀ (s : State) (p : Fin 4), (s.part p).wdEn = true → (s.part p).wdArmed = true → s.deadlocked p = true →
    (s.part p).wdPeriod.toNat ≤ (s.part p).wdCount.toNat → (s.part p).wdReports.toNat < 65535 →
    ∃ t, exec (.watchdogExpiry p) s = .next t ∧ (t.part p).wdArmed = false
      ∧ (t.part p).wdReports = (s.part p).wdReports + 1 ∧ (t.part p).wdCount = (s.part p).wdCount
      ∧ (t.part p).ctxs = (s.part p).ctxs ∧ t.mem = s.mem
      ∧ (∀ (q : Nat) (w : WorkQ), s.openQueues p = [(q, w)] → q < 256 → (s.eventQ w.evq).enable = true →
        (s.eventQ w.evq).room = true → s.evLate = [] → s.hi.cmdTag = 0 →
        ∃ bs rest, t.cxlOut = .write ((s.eventQ w.evq).base.toNat
              + 64 * ((s.eventQ w.evq).prod.toNat % 2 ^ (s.eventQ w.evq).log2n.toNat)) bs :: rest
          ∧ lf bs 0 1 = 0x0F ∧ lf bs 3 1 = p.val ∧ lf bs 20 4 = q ∧ lf bs 12 4 = (s.oldestWait q).1.toNat
          ∧ lf bs 24 8 = (s.oldestWait q).2 % 2 ^ 48)

/-- On an empty queue a step is one hk cycle (the model's choice, log 1): the hk count advances by 1, and each partition's
deadlock watchdog counts 1, up to its largest value, while it is enabled and every condition holds, and is set to 0
otherwise (R15, R306). With no request of the host waiting for a line, memory, cores and clusters are as they were; and a link
that has nothing to return or to acknowledge sends no IDLE frame (R315). -/
def Obligations.EmptyQueueTicks : Prop :=
  ∀ (s : State), s.pending = [] → s.hi.waiting = [] → ∃ t, step s = .next t ∧ t.hkCount = s.hkCount + 1
    ∧ (∀ p, (t.part p).wdCount = if (s.part p).wdEn = true ∧ s.deadlocked p = true
        then (if (s.part p).wdCount.toNat + 1 < 2 ^ 32 then (s.part p).wdCount + 1 else (s.part p).wdCount) else 0)
    ∧ t.mem = s.mem ∧ (∀ c, t.core c = s.core c) ∧ (∀ k, t.cluster k = s.cluster k)
    ∧ (∀ l, (s.link l).st ≠ .active ∨ ((s.link l).retReq = 0 ∧ (s.link l).retRsp = 0 ∧ (s.link l).retBulk = 0
        ∧ (s.link l).retCtl = 0 ∧ (s.link l).told = ((s.link l).rxSeq - 1, (s.link l).nak)) → t.link l = s.link l)

/-! ### Heat, rails and reset pins -/

/-- A round whose 332 readings are all good, in a state with no broken sensor (R448, R453). -/
def soundRound (s : State) (r : Round) : Prop :=
  r.temps.length = 332 ∧ (∀ e ∈ r.temps, Reading.cause e = 0) ∧ ∀ n, (s.sensor n).broken = false

/-- A reading of a domain in a round is at or above a temperature. -/
def roundHot (r : Round) (d : Nat) (x : Int) : Prop := ∃ n ∈ domainSensors d, ∃ e, r.temps[n]? = some e ∧ x ≤ e.temp.toInt

/-- A housekeeping round. With good readings (R36, R38, R232, R454): the allowances take the step due, the falling side first;
every sensor shows its reading; each thermal domain follows the table of R454; each stack's limit follows its allowance, at most
the slots of its slot map, and its refresh interval halves at 85 °C and doubles again once every reading is below 83 °C. A broken sensor stays broken,
whatever a round reads (R453); and a round in which one sensor of a domain breaks, with none broken before, takes the domain
to THROTTLED at step 9 and sets `BROKEN` of `TH_STATUS` (R454, R455). -/
def Obligations.HousekeepingRound : Prop :=
  (∀ (s : State) (r : Round), soundRound s r → ∃ t, exec (.housekeepingRound r) s = .next t
    ∧ (s.pw.phase = 0 → t.pw = s.pw)
    ∧ (s.pw.phase = 1 → t.pw.curC = min s.pw.curC s.pw.target.1 ∧ t.pw.curS = min s.pw.curS s.pw.target.2 ∧ t.pw.phase = 2)
    ∧ (s.pw.phase = 2 → t.pw.curC = s.pw.target.1 ∧ t.pw.curS = s.pw.target.2 ∧ t.pw.phase = 0)
    ∧ (∀ n e, r.temps[n]? = some e → t.sensor n = ⟨e.temp, false, 0⟩)
    ∧ (∀ d < 16,
      let o := s.domain d
      let u := t.domain d
      let thr : Int := 8 * (if d < 4 then s.th.cmpThrottle.toNat else s.th.dramThrottle.toNat)
      let warn : Int := 8 * s.th.cmpWarn.toNat
      let h : Int := 8 * s.th.hyst.toNat
      let hot := roundHot r d
      (o.st = .tripped → u.st = .tripped ∧ u.tstep = o.tstep)
      ∧ (o.st = .throttled → hot thr → u.st = .throttled ∧ u.tstep = min 9 (o.tstep + 1))
      ∧ (o.st = .throttled → ¬ hot thr → hot (thr - h) → u.st = .throttled ∧ u.tstep = o.tstep)
      ∧ (o.st = .throttled → ¬ hot (thr - h) → 1 < o.tstep → u.st = .throttled ∧ u.tstep = o.tstep - 1)
      ∧ (o.st = .throttled → ¬ hot (thr - h) → o.tstep ≤ 1 → u.tstep = 0
          ∧ (d < 4 ∧ hot (warn - h) → u.st = .warn) ∧ (¬ (d < 4 ∧ hot (warn - h)) → u.st = .normal))
      ∧ (o.st = .normal ∨ o.st = .warn → hot thr → u.st = .throttled ∧ u.tstep = 1)
      ∧ (o.st = .normal → ¬ hot thr → u.tstep = 0
          ∧ (d < 4 ∧ hot warn → u.st = .warn) ∧ (¬ (d < 4 ∧ hot warn) → u.st = .normal))
      ∧ (o.st = .warn → ¬ hot thr → u.tstep = 0
          ∧ (d < 4 ∧ hot (warn - h) → u.st = .warn) ∧ (¬ (d < 4 ∧ hot (warn - h)) → u.st = .normal)))
    ∧ (∀ k : Fin 12,
      (t.stack k).limit = BitVec.ofNat 7 (min (s.stack k).slotCount ((t.pw.curS - 44400) / 1800))
      ∧ (roundHot r (4 + k.val) 680 → (t.stack k).double = true)
      ∧ (¬ roundHot r (4 + k.val) 664 → (t.stack k).double = false)
      ∧ (¬ roundHot r (4 + k.val) 680 → roundHot r (4 + k.val) 664 → (t.stack k).double = (s.stack k).double)))
  ∧ (∀ (s : State) (r : Round) (n : Nat), (s.sensor n).broken = true →
    ∃ t, exec (.housekeepingRound r) s = .next t ∧ (t.sensor n).broken = true ∧ (t.sensor n).cause = (s.sensor n).cause)
  ∧ (∀ (s : State) (r : Round) (d n : Nat), d < 16 → n ∈ domainSensors d → (s.domain d).st ≠ .tripped →
    (∀ m, (s.sensor m).broken = false) → r.temps.length = 332 →
    (∀ m e, r.temps[m]? = some e → (Reading.cause e ≠ 0 ↔ m = n)) →
    ∃ t, exec (.housekeepingRound r) s = .next t ∧ (t.domain d).st = .throttled ∧ (t.domain d).tstep = 9
      ∧ (t.domain d).nbroken = 1 ∧ t.th.status.getLsbD 2 = true ∧ t.hi.st = s.hi.st)

/-- What a trip leaves (R456): the cause latched, `THERMTRIP_N` asserted, every enable but `EN_UCI` released, `HI_STATUS`
RESETTING, no core with a share or a running engine, no packet; and, where event queue 0 is enabled and has room, the
`THERMAL_TRIP` record (type 0x0D) is the first write on its way to the host. -/
def tripped (s t : State) (sensor domain : Nat) (broken supply : Bool) : Prop :=
  t.th.tripped = true ∧ t.th.tripValid = true ∧ t.th.tripSensor.toNat = sensor ∧ t.th.tripDomain.toNat = domain
    ∧ t.th.tripBroken = broken ∧ t.th.tripSupply = supply ∧ t.th.tripCount = satAdd s.th.tripCount 1
    ∧ t.th.status.getLsbD 3 = true ∧ t.hk.thermtrip = true ∧ t.hk.rails = s.hk.rails &&& 1 ∧ t.hi.st = .resetting
    ∧ (∀ c, (t.core c).share = none ∧ (t.core c).st = .idle ∧ (t.core c).runs = []) ∧ t.pkts = []
    ∧ ((s.eventQ 0).enable = true → (s.eventQ 0).room = true → s.evLate = [] →
        ∃ bs rest, t.cxlOut = .write ((s.eventQ 0).base.toNat
            + 64 * ((s.eventQ 0).prod.toNat % 2 ^ (s.eventQ 0).log2n.toNat)) (0x0D :: bs) :: rest)

/-- The causes of a trip (R447, R454, R456): a working sensor at its trip threshold, a second broken sensor of a domain, a
power-good that falls while its group is enabled. A package that is tripped already changes nothing more. -/
def Obligations.PackageTrips : Prop :=
  ∀ (s : State),
    (s.th.tripped = false →
      (∀ n : Fin 332, (s.sensor n.val).broken = false →
        ∃ t, exec (.thermalTrip (.hot n)) s = .next t ∧ tripped s t n.val (sensorDomain n.val) false false)
      ∧ (∀ n : Fin 332, (s.sensor n.val).broken = false →
        (∃ m ∈ domainSensors (sensorDomain n.val), (s.sensor m).broken = true) →
        ∃ t, exec (.thermalTrip (.broken n)) s = .next t ∧ tripped s t n.val (sensorDomain n.val) true false
          ∧ (t.sensor n.val).broken = true)
      ∧ (∀ g : Fin 6, s.hk.pg.getLsbD g.val = true → (g.val = 0 ∨ s.hk.rails.getLsbD (g.val - 1) = true) →
        ∃ t, exec (.powerGoodFall g) s = .next t ∧ tripped s t 0 0 false true ∧ t.hk.pg.getLsbD g.val = false))
    ∧ (s.th.tripped = true → ∀ n : Fin 332, (s.sensor n.val).broken = false → exec (.thermalTrip (.hot n)) s = .next s)

/-- The end of a trip (R457): with every working sensor below 80 °C, no domain with two broken sensors and `PG_HK` high a
cold start begins, `THERMTRIP_N` is released and the last trip stays to be read; with two broken sensors the package stays
tripped, until a held `COLD_RST_N` starts it cold with the marks cleared. -/
def Obligations.TripEnds : Prop :=
  ∀ (s : State), s.th.tripped = true → (∀ n < 332, (s.sensor n).broken = false → (s.sensor n).temp.toInt < 640) →
    let starts (source : Nat) : Prop := ∃ t, exec .cooledRestart s = .next t ∧ t.hk.phase = .hkBoot ∧ t.hk.cold = true
      ∧ t.th.tripped = false ∧ t.hk.thermtrip = false ∧ t.hk.resetLevel = 4 ∧ t.hk.resetSource.toNat = source
      ∧ (∀ n, (t.sensor n).broken = false) ∧ t.th.tripValid = s.th.tripValid ∧ t.th.tripCount = s.th.tripCount
      ∧ t.th.tripSensor = s.th.tripSensor ∧ t.th.status = s.th.status ∧ t.mem = []
    ((∀ d < 16, s.brokenIn d < 2) → s.hk.pg.getLsbD 0 = true → s.hk.coldHeld = false → starts 3)
    ∧ (s.hk.coldHeld = true → starts 1)
    ∧ ((∃ d < 16, 2 ≤ s.brokenIn d) → s.hk.coldHeld = false → exec .cooledRestart s = .next s)

/-- Rails (R429, R447). A power-good that rises is seen high, in every state; it lets the next group's enable be asserted, and
no enable is asserted before the power-good of the group before it is high; while rails go down, or while the package is tripped,
no enable rises. As rails go down, in reverse order, each enable is released once the next group's power-good has fallen, or 20
ms later; with the last of them released the rails are down. One that does not rise within 50 ms of its enable makes the start
FAILED. That a group's own enable must be on for the next one's to rise, and that those after `EN_UCI` wait for the phase
POWER_UP, is DEDUCED (log 104). -/
def Obligations.RailsInOrder : Prop :=
  (∀ (s : State) (g : Fin 6), ∃ t, exec (.powerGoodRise g) s = .next t
    ∧ (∀ n, t.hk.pg.getLsbD n = (s.hk.pg.getLsbD n || decide (n = g.val)))
    ∧ (∀ n, s.hk.rails.getLsbD n = true → t.hk.rails.getLsbD n = true)
    ∧ (∀ n, t.hk.rails.getLsbD n = true → s.hk.rails.getLsbD n = true ∨ t.hk.pg.getLsbD n = true)
    ∧ (g.val < 5 → s.hk.down = false → s.th.tripped = false →
      g.val = 0 ∨ (s.hk.rails.getLsbD (g.val - 1) = true ∧ s.hk.phase.powered = true) → t.hk.rails.getLsbD g.val = true)
    ∧ (s.hk.down = true ∨ s.th.tripped = true → t.hk.rails = s.hk.rails)
    ∧ { t with hk := { t.hk with pg := s.hk.pg, rails := s.hk.rails } } = s)
  ∧ (∀ (s : State) (g : Fin 6), s.hk.down = true → 1 ≤ g.val → s.hk.rails.toNat = 2 ^ (g.val - 1) - 1 →
    s.hk.pg.getLsbD g.val = true → s.hk.phase.powered = false →
    let released (i : Instr) (pg : BitVec 6) : Prop := ∃ t, exec i s = .next t ∧ t.hk.pg = pg
      ∧ (1 < g.val → t.hk.rails.toNat = 2 ^ (g.val - 2) - 1 ∧ t.hk.down = true)
      ∧ (g.val = 1 → t.hk.rails.toNat = (if pg.getLsbD 0 then 1 else 0) ∧ t.hk.down = false)
      ∧ { t with hk := { t.hk with pg := s.hk.pg, rails := s.hk.rails, down := s.hk.down } } = s
    released (.powerGoodFall g) (s.hk.pg &&& ~~~(BitVec.ofNat 6 (2 ^ g.val))) ∧ released (.enableReleaseTimeout g) s.hk.pg)
  ∧ (∀ (s : State) (g : Fin 6), 1 ≤ g.val → s.hk.rails.getLsbD (g.val - 1) = true → s.hk.pg.getLsbD g.val = false →
    s.hk.down = false → s.th.tripped = false → s.hk.phase ≠ .ready → s.hk.phase ≠ .failed →
    ∃ t, exec (.powerGoodTimeout g) s = .next t ∧ t.hk.phase = .failed ∧ t.hk.failed = true ∧ t.hi.st = .faulted
      ∧ t.hk.rails = s.hk.rails ∧ t.hk.pg = s.hk.pg ∧ t.mem = s.mem)

/-- A whole reset has begun (R418, R441, R444): the start is in HK_BOOT, warm or cold, the source is reported, `HI_STATUS`
reads RESETTING, every link is DISABLED, no core runs and no packet, queue or context is left; the latched trip, the
thermal and sideband events, and what the host holds, stay. -/
def resetBegun (s t : State) (cold : Bool) (source : Nat) : Prop :=
  t.hk.phase = .hkBoot ∧ t.hk.cold = cold ∧ t.hk.resetLevel = (if cold then 4 else 3) ∧ t.hk.resetSource.toNat = source
    ∧ t.hi.st = .resetting ∧ (∀ l, (t.link l).st = .disabled) ∧ (∀ c, (t.core c).share = none ∧ (t.core c).st = .idle)
    ∧ t.pkts = [] ∧ (∀ q, t.queue q = none) ∧ (∀ p x, (t.ctx p x).st = .free) ∧ t.th.status = s.th.status
    ∧ t.th.tripCount = s.th.tripCount ∧ t.hk.sbFault = s.hk.sbFault ∧ t.pending = s.pending

/-- The reset pins (R445, R461, R462). An assertion is taken from an armed, good pin once the orientation has been read; the
reset begins at the release, or 1 s after the assertion, and once; a warm one before IDENTITY of a cold start has
completed is performed cold; while the package is tripped a cold one is held; a pin still asserted 1 s later is marked
shorted to ground; the pin is armed again once it has read deasserted for 10 ms. -/
def Obligations.ResetPins : Prop :=
  ∀ (s : State) (r : ResetPin),
    (s.hk.pin r = .armed → s.hk.orient ≠ 0 → s.hk.pins.get 0 (pinNo r) = 0 →
      ∃ t, exec (.resetPinAssert r) s = .next t ∧ t.hk.pin r = .asserted ∧ { t with hk := s.hk } = s)
    ∧ (s.hk.pin r = .armed → s.hk.orient = 0 → exec (.resetPinAssert r) s = .next s)
    ∧ (s.hk.pin r = .asserted → s.th.tripped = false →
      ∀ e ∈ [(Instr.resetPinRelease r, PinSt.ignored), (Instr.resetPinHoldTimeout r, PinSt.begun)],
        ∃ t, exec e.1 s = .next t ∧ t.hk.pin r = e.2 ∧ t.hostMem = s.hostMem
          ∧ (r = .cold → resetBegun s t true 1)
          ∧ (r = .warm → s.hk.cold = true → s.hk.phase ∈ [Phase.none, .hkBoot, .identity] → resetBegun s t true 2)
          ∧ (r = .warm → ¬ (s.hk.cold = true ∧ s.hk.phase ∈ [Phase.none, .hkBoot, .identity]) → resetBegun s t false 2))
    ∧ (s.hk.pin r = .asserted → s.th.tripped = true → ∃ t, exec (.resetPinRelease r) s = .next t
        ∧ t.hk.pin r = .ignored ∧ t.hk.coldHeld = (s.hk.coldHeld || decide (r = .cold)) ∧ { t with hk := s.hk } = s)
    ∧ (s.hk.pin r = .begun →
      (∃ t, exec (.resetPinRelease r) s = .next t ∧ t.hk.pin r = .ignored ∧ { t with hk := s.hk } = s)
      ∧ (∃ t, exec (.resetPinStuck r) s = .next t ∧ t.hk.pin r = .stuck ∧ t.hk.pins.get 0 (pinNo r) = 1
          ∧ t.hk.sbFault.getLsbD (pinNo r) = true ∧ { t with hk := s.hk } = s))
    ∧ (s.hk.pin r = .ignored ∨ s.hk.pin r = .stuck →
      ∃ t, exec (.resetPinRearm r) s = .next t ∧ t.hk.pin r = .armed ∧ { t with hk := s.hk } = s)

/-- The loss of the package's power leaves the device as at power-on but for its flash (R421, R434, R441), with the host's
memory, the die's stepping and the model's own counter of free values; an expiry of the firmware's watchdog leaves the
device, every partition and every context that exists FAULTED (R340, R393). -/
def Obligations.PowerLossAndFirmwareDeath : Prop :=
  (∀ s : State, ∃ t, exec .packagePowerLoss s = .next t
    ∧ t = { State.reset with
        pending := s.pending, freeCtr := s.freeCtr, hostMem := s.hostMem, hostErr := s.hostErr, irqSent := s.irqSent,
        stepping := s.stepping, cad := { State.reset.cad with flash0 := s.cad.flash0, flash1 := s.cad.flash1 } })
  ∧ (∀ s : State, s.hi.st ≠ .faulted → s.th.tripped = false → ∃ t, exec .firmwareWatchdogExpiry s = .next t
    ∧ t.hi.st = .faulted ∧ (∀ p, (t.part p).st = .faulted)
    ∧ (∀ p x, (t.ctx p x).st = if (s.ctx p x).st = .free then .free else .faulted) ∧ t.mem = s.mem)

/-! ### Management commands -/

/-- The management commands with their opcodes (R380). -/
def managementCommands : List ((Packet → Instr) × Nat) :=
  [ (.getInfo, 0x01), (.setRole, 0x02), (.partitionStart, 0x03), (.partitionStop, 0x04), (.contextCreate, 0x05),
    (.contextDestroy, 0x06), (.regionMap, 0x07), (.regionUnmap, 0x08), (.queueCreate, 0x09), (.queueDestroy, 0x0A),
    (.resetCore, 0x0B), (.resetCluster, 0x0B), (.resetPartition, 0x0B), (.resetWarm, 0x0B), (.resetCold, 0x0B),
    (.cadastreRead, 0x0C), (.cadastreImport, 0x0D), (.memtestFull, 0x0E), (.retentionTest, 0x0E), (.repairBlock, 0x0F),
    (.powerSplit, 0x10), (.thermalConfig, 0x11), (.measureRead, 0x12), (.errinjArm, 0x13), (.seqTableSetup, 0x14) ]

/-- Checks in order (R379): an undefined opcode completes with `BAD_OPCODE`; a reserved byte that is not 0 with `BAD_PARAM`
and its offset (here byte 1, the lowest); a command that the device's state forbids with `WRONG_STATE`; and the packet
then has no effect but its reply and `HEAD`. A disabled queue executes nothing. -/
def Obligations.ManagementRefusals : Prop :=
  ∀ e ∈ managementCommands, ∀ (s : State) (k : Packet),
    let refused (st : Status) (d : Word) : Prop := ∃ t, exec (e.1 k) s = .next t ∧ Completes s t [] st d
      ∧ { t with cxlOut := s.cxlOut, hi := { t.hi with mcqHead := s.hi.mcqHead, mcqTaken := s.hi.mcqTaken } } = s
    (s.mcqReady = true → (pf k 0 1 = 0 ∨ 0x14 < pf k 0 1) → refused .badOpcode 0)
    ∧ (s.mcqReady = true → pf k 0 1 = e.2 → pf k 1 1 ≠ 0 → refused .badParam 1)
    ∧ (s.mcqReady = true → s.hi.st = .faulted → e.2 = 0x03 ∨ e.2 = 0x04 → MgmtForm k e.2 true [] → refused .wrongState 0)
    ∧ (s.hi.mcqEnable = false → exec (e.1 k) s = .next s)

/-- Compute share and default thin threshold of each role, PRE to TRAIN (R32). -/
def roleTable : List (Nat × Nat) := [(75, 4), (40, 8), (55, 8), (10, 8), (65, 1)]

/-- Settings of a READY device: `SET_ROLE` takes the role's split at the full budget with spill off and writes its threshold
into every partition (R31 to R33, R39); `POWER_SPLIT` overrides the split within its ranges (R33); `THERMAL_CONFIG` sets the
thresholds of a group and the hysteresis (R458). Nothing else changes. -/
def Obligations.RolePowerAndHeatSettings : Prop :=
  ∀ (s : State) (k : Packet), s.mcqReady = true → s.hi.st = .ready →
    (MgmtForm k 0x02 false [(8, 1)] → ∀ e, roleTable[pf k 8 1]? = some e →
      ∃ t, exec (.setRole k) s = .next t ∧ Completes s t [] .ok 0
        ∧ t.pw = { s.pw with
            role := BitVec.ofNat 3 (pf k 8 1), override := false, spill := false, shareC := BitVec.ofNat 7 e.1,
            budget := 3200, phase := 1 }
        ∧ (∀ p, t.part p = { s.part p with thinMax := BitVec.ofNat 4 e.2 })
        ∧ { t with pw := s.pw, parts := s.parts, hi := s.hi, cxlOut := s.cxlOut } = s)
    ∧ (MgmtForm k 0x10 false [(8, 1), (9, 1), (10, 2)] → 10 ≤ pf k 8 1 → pf k 8 1 ≤ 90 → pf k 8 1 % 5 = 0 → pf k 9 1 ≤ 1 →
      1600 ≤ pf k 10 2 → pf k 10 2 ≤ 3200 → pf k 10 2 % 25 = 0 →
      ∃ t, exec (.powerSplit k) s = .next t ∧ Completes s t [] .ok 0
        ∧ t.pw = { s.pw with
            override := true, spill := decide (pf k 9 1 = 1), shareC := BitVec.ofNat 7 (pf k 8 1),
            budget := BitVec.ofNat 12 (pf k 10 2), phase := 1 }
        ∧ { t with pw := s.pw, hi := s.hi, cxlOut := s.cxlOut } = s)
    ∧ (MgmtForm k 0x11 false [(8, 1), (9, 1), (10, 1), (11, 1)] → 1 ≤ pf k 11 1 → pf k 11 1 ≤ 10 →
      let given (th : Thermal) : Prop := ∃ t, exec (.thermalConfig k) s = .next t ∧ Completes s t [] .ok 0
        ∧ t.th = { th with hyst := BitVec.ofNat 4 (pf k 11 1) } ∧ { t with th := s.th, hi := s.hi, cxlOut := s.cxlOut } = s
      (pf k 8 1 = 0 → 60 ≤ pf k 9 1 → pf k 9 1 ≤ 95 → pf k 9 1 < pf k 10 1 → 65 ≤ pf k 10 1 → pf k 10 1 ≤ 100 →
        given { s.th with cmpWarn := BitVec.ofNat 8 (pf k 9 1), cmpThrottle := BitVec.ofNat 8 (pf k 10 1) })
      ∧ (pf k 8 1 = 1 → pf k 9 1 = 0 → 60 ≤ pf k 10 1 → pf k 10 1 ≤ 95 →
        given { s.th with dramThrottle := BitVec.ofNat 8 (pf k 10 1) }))

/-- `ERRINJ_ARM` arms one encoder where the image permits it and no mask is armed there, and completes with `DENIED` where
the image does not (R403, R404); `SEQ_TABLE_SETUP` gives a partition its descriptor range and pool while none of its
sequences is in use, once the HKC reaches that partition (R27, R243). -/
def Obligations.FlipMasksAndSequenceTables : Prop :=
  ∀ (s : State) (k : Packet), s.mcqReady = true → s.hi.st = .ready →
    (MgmtForm k 0x13 true [(8, 8), (16, 8)] → pf k 8 1 ≤ 8 →
      (∀ o ∈ [3, 9, 10, 11, 12, 13, 14, 15], match (injectFields (pf k 8 1)).find? (fun f => f.1 = o) with
        | some f => pf k o 1 ≤ f.2
        | none => pf k o 1 = 0) →
      0 < pf k 16 8 → pf k 16 8 < (if 5 ≤ pf k 8 1 then 2 ^ 8 else 2 ^ 39) →
      (s.hk.injection = false → ∃ t, exec (.errinjArm k) s = .next t ∧ Completes s t [] .denied 0 ∧ t.hk = s.hk)
      ∧ (s.hk.injection = true → s.hk.flips.get 0 (injectKey k) = 0 →
        ∃ t, exec (.errinjArm k) s = .next t ∧ Completes s t [] .ok 0
          ∧ (∀ n, t.hk.flips.get 0 n = if n = injectKey k then BitVec.ofNat 64 (pf k 16 8) else s.hk.flips.get 0 n)
          ∧ { t with hk := s.hk, hi := s.hi, cxlOut := s.cxlOut } = s))
    ∧ (let p := mgmtPart k
      let q := s.part p
      let pool := pf k 8 5
      let first := pf k 16 2
      let count := pf k 18 2
      let size := pf k 20 2 * 2 ^ 21
      MgmtForm k 0x14 true [(8, 8), (16, 2), (18, 2), (20, 2)] → q.open' → q.pll = .running → pf k 13 3 = 0 → pool % 2 ^ 21 = 0 → 0 < size →
      s.reserveBase p ≤ pool → pool + size ≤ s.partSize p → (∀ a ∈ q.allocs, a.base + a.size ≤ pool ∨ pool + size ≤ a.base) →
      first ≤ 16383 → first + count ≤ 16384 →
      (∀ o, o ≠ p → (s.part o).seqCount = 0 ∨ count = 0 ∨ first + count ≤ (s.part o).seqFirst.toNat
        ∨ (s.part o).seqFirst.toNat + (s.part o).seqCount.toNat ≤ first) →
      (∀ e ∈ s.seqs, q.inRange e.1 = true → e.2.st = 0) →
      ∃ t, exec (.seqTableSetup k) s = .next t ∧ Completes s t [] .ok 0 ∧ (t.part p).seqFirst.toNat = first
        ∧ (t.part p).seqCount.toNat = count ∧ (t.part p).poolBase.toNat = pool ∧ (t.part p).poolSize.toNat = pf k 20 2
        ∧ (∀ o, o ≠ p → t.part o = s.part o) ∧ { t with parts := s.parts, hi := s.hi, cxlOut := s.cxlOut } = s)

/-- Reports to the host (R378, R381, R425, R435), each of a command that is there to be executed in a READY or FAULTED device,
written to `BUF` before its reply, with nothing else changed: `GET_INFO` writes the block of R381, in which every stack works but
one whose base die failed its start test (DEDUCED, log 105); `MEASURE_READ` the eight measurement registers; `CADASTRE_READ` the
header and the current list, or as many whole entries of it as fit, `COUNT` and `CRC` describing the whole list, and with `LEN`
below 64 it completes with `BAD_PARAM`. -/
def Obligations.ReportsToTheHost : Prop :=
  ∀ (s : State) (k : Packet), s.mcqReady = true → HostField k 8 →
    let reported (t : State) (bs : List Byte) (d : Nat) : Prop :=
      Completes s t [.write (pa k 8) bs] .ok (BitVec.ofNat 32 d) ∧ { t with hi := s.hi, cxlOut := s.cxlOut } = s
    (MgmtForm k 0x01 false [(8, 8)] → ∃ t bs, exec (.getInfo k) s = .next t ∧ reported t bs 64 ∧ bs.length = 64
      ∧ bs.take 8 = [0x44, 0x4E, 0x2D, 0x4F, 0x58, 0x31, 0x32, 0x00] ∧ lf bs 8 1 = s.stepping.toNat
      ∧ lf bs 9 1 = s.pw.role.toNat ∧ lf bs 10 2 = s.devId.toNat ∧ lf bs 12 4 = s.fwVer.toNat
      ∧ (∀ p : Fin 4, lf bs (16 + p.val) 1 = ((coresOfPart p).filter s.working).length)
      ∧ (∀ k : Fin 12, bit (lf bs 20 2) k.val = !s.hk.badBases.getLsbD k.val) ∧ lf bs 20 2 < 4096
      ∧ lf bs 22 1 = s.rowsDev.toNat ∧ lf bs 23 1 = 0
      ∧ (∀ p : Fin 4, lf bs (24 + p.val) 1 = (s.part p).rowsPart.toNat ∧ lf bs (28 + p.val) 1 = (s.part p).st.code)
      ∧ (∀ l : Fin 48, bit (lf bs 32 8) l.val = decide ((s.link l).st = .active)) ∧ lf bs 40 6 = s.hkCount.toNat
      ∧ lf bs 46 18 = 0)
    ∧ (MgmtForm k 0x12 false [(8, 8)] → ∃ t bs, exec (.measureRead k) s = .next t ∧ reported t bs 512 ∧ bs.length = 512
      ∧ ∀ n < 8, lf bs (64 * n) 64 = (s.ta.meas.get 0 n).toNat)
    ∧ (MgmtForm k 0x0C false [(8, 8), (16, 4)] → pf k 16 4 < 64 →
      ∃ t, exec (.cadastreRead k) s = .next t ∧ Completes s t [] .badParam 16 ∧ { t with hi := s.hi, cxlOut := s.cxlOut } = s)
    ∧ (MgmtForm k 0x0C false [(8, 8), (16, 4)] → 64 ≤ pf k 16 4 → s.cad.list.ident.length = 32 →
      let total := 64 + 16 * s.cadNow.entries.length
      ∃ t bs, exec (.cadastreRead k) s = .next t ∧ reported t bs bs.length
        ∧ bs.length = (if total ≤ pf k 16 4 then total else 64 + (pf k 16 4 - 64) / 16 * 16)
        ∧ lf bs 0 4 = 0x54534443 ∧ lf bs 4 2 = 1 ∧ lf bs 6 2 = s.cadNow.entries.length % 65536
        ∧ lf bs 8 4 = s.cad.list.seq.toNat ∧ lf bs 12 4 = s.cad.list.startCount.toNat
        ∧ lf bs 16 1 = s.cad.list.nextSlice.toNat ∧ lf bs 17 11 = 0
        ∧ lf bs 28 4 = (crc32c (bs.take 28 ++ (bs.drop 32).take 32 ++ s.cadNow.entries.flatMap CadEntry.bytes)).toNat
        ∧ (bs.drop 32).take 32 = s.cad.list.ident
        ∧ ∀ n e, s.cadNow.entries[n]? = some e → 64 + 16 * n < bs.length → (bs.drop (64 + 16 * n)).take 16 = e.bytes)

/-- `PARTITION_START` makes an OFF or STOPPED partition RUNNING, with its counts at 0 when it was OFF; `PARTITION_STOP` takes
a RUNNING one to STOPPING, or to STOPPED when no context is RESTORING, RUNNING or SAVING: each READY context goes to
WAITING, and a RUNNING one that holds no semaphore begins its cut (R340, R341). Each reaches the partition while its core PLL
runs, and an arrival that meets STOPPING cancels the stop; while the PLL is stopped or starting the command is held, and the
stopped one starts (R27). -/
def Obligations.PartitionsStartAndStop : Prop :=
  ∀ (s : State) (k : Packet), s.mcqReady = true → s.hi.st = .ready →
    let p := mgmtPart k
    let q := s.part p
    (MgmtForm k 0x03 true [] → q.st = .off ∨ q.st = .stopped → q.reached → ∃ t, exec (.partitionStart k) s = .next t
      ∧ Completes s t [] .ok 0 ∧ (t.part p).st = .running ∧ (t.part p).pll = .running
      ∧ (q.st = .off → (t.part p).wdReports = 0 ∧ (t.part p).switches = 0 ∧ (t.part p).expired = 0 ∧ (t.part p).replays = 0
          ∧ (t.part p).hits = 0 ∧ (t.part p).misses = 0 ∧ (t.part p).atomics = 0 ∧ (t.part p).kvMisses = 0
          ∧ (t.part p).quarPeak = 0 ∧ ∀ c, (t.cluster ⟨p, c⟩).cycle = 0)
      ∧ (∀ o, o ≠ p → t.part o = s.part o) ∧ { t with parts := s.parts, clusters := s.clusters, hi := s.hi, cxlOut := s.cxlOut } = s)
    ∧ (q.pll = .stopped ∨ q.pll = .starting →
      (MgmtForm k 0x03 true [] → q.st = .off ∨ q.st = .stopped →
        ∃ t, exec (.partitionStart k) s = .next t ∧ HeldForPll s t p k)
      ∧ (MgmtForm k 0x04 true [] → q.st = .running → ∃ t, exec (.partitionStop k) s = .next t ∧ HeldForPll s t p k))
    ∧ (MgmtForm k 0x04 true [] → q.st = .running → q.reached → ∃ t pre, exec (.partitionStop k) s = .next t
      ∧ Completes s t pre .ok 0
      ∧ (q.cur = none → (t.part p).st = .stopped) ∧ (q.cur ≠ none → (t.part p).st = .stopping)
      ∧ (∀ x, (s.ctx p x).st = .ready → (t.ctx p x).st = .waiting)
      ∧ (∀ x, q.cur = some x → (s.ctx p x).st = .running → (s.ctx p x).held = [] → (t.ctx p x).st = .saving)
      ∧ (∀ x, q.cur = some x → (s.ctx p x).st = .running → (s.ctx p x).held ≠ [] →
          (t.ctx p x).st = .running ∧ (t.ctx p x).deferred = true)
      ∧ (∀ o, o ≠ p → t.part o = s.part o) ∧ t.mem = s.mem ∧ t.cores = s.cores)

/-- `CONTEXT_CREATE` gives a FREE context a save area of 208 MiB in the reserved area, apart from everything allocated there,
and an empty saved state (R341, R348); `CONTEXT_DESTROY` of a context with no taken packet and no semaphore makes it FREE,
clears its link grants, takes it out of every region's mask and frees its sequences, whose generations stay (R361). Both once
the HKC reaches the partition (R27). -/
def Obligations.ContextsComeAndGo : Prop :=
  ∀ (s : State) (k : Packet), s.mcqReady = true → s.hi.st = .ready → pf k 8 1 ≤ 15 → (s.part (mgmtPart k)).reached →
    let p := mgmtPart k
    let x := ctxAt k 8
    let q := s.part p
    (MgmtForm k 0x05 true [(8, 1)] → q.open' → (q.ctx x).st = .free → (s.allocate p (2 ^ 21) (208 * 2 ^ 20)).isSome = true →
      s.hasWork p x = false →
      ∃ t, exec (.contextCreate k) s = .next t ∧ Completes s t [] .ok 0 ∧ (t.ctx p x).st = .waiting
        ∧ (t.ctx p x).saved = [] ∧ (t.ctx p x).quantum = (q.ctx x).quantum ∧ (t.ctx p x).suspend = (q.ctx x).suspend
        ∧ (t.ctx p x).save.toNat % 2 ^ 21 = 0 ∧ s.reserveBase p ≤ (t.ctx p x).save.toNat
        ∧ (t.ctx p x).save.toNat + 208 * 2 ^ 20 ≤ s.partSize p
        ∧ (∀ a ∈ q.taken, a.base + a.size ≤ (t.ctx p x).save.toNat ∨ (t.ctx p x).save.toNat + 208 * 2 ^ 20 ≤ a.base)
        ∧ t.mem = s.mem)
    ∧ (MgmtForm k 0x06 true [(8, 1)] → q.st = .running ∨ q.st = .stopping ∨ q.st = .stopped → (q.ctx x).st ≠ .free →
      s.pktsOf p x = [] → (s.ctx p x).held = [] → s.waits = [] →
      ∃ t, exec (.contextDestroy k) s = .next t ∧ Completes s t [] .ok 0 ∧ (t.ctx p x).st = .free
        ∧ (∀ l ∈ linksOf p, (t.link l).grants.get ⟨false, 0⟩ x.val = ⟨false, 0⟩)
        ∧ (∀ n r, (t.part p).regions.get none n = some r → r.ctxMask.getLsbD x.val = false)
        ∧ (∀ n, q.inRange n = true → (s.seqd n).st ≠ 0 → (s.seqd n).ctx.toNat = x.val →
            (t.seqd n).st = 0 ∧ (t.seqd n).gen = (s.seqd n).gen)
        ∧ t.mem = s.mem)

/-- `REGION_MAP` writes a valid entry under a number that was free, which its reply names, and the frame numbers that the
list holds, which translation then reads (R173, R176, R178; here without a Datum array); `REGION_UNMAP` of an entry through
which nothing is under way empties it (R179). Both once the HKC reaches the partition (R27). -/
def Obligations.RegionsMapAndUnmap : Prop :=
  ∀ (s : State) (k : Packet), s.mcqReady = true → (s.part (mgmtPart k)).reached →
    let p := mgmtPart k
    let q := s.part p
    (let r := mapRegion k
      let fs := s.frameList k
      s.mapCheck k = none → s.hi.st = .ready → q.open' → r.datum = false → q.rowsPart.toNat ≤ 16 →
      (∀ x : Fin 16, r.ctxMask.getLsbD x.val = true → (q.ctx x).st ≠ .free) → (∃ n < 64, q.regions.get none n = none) →
      (s.allocate p 64 (4 * r.size.toNat)).isSome = true → s.hostPoison (pa k 16) (4 * r.size.toNat) = false →
      ∃ t pre n r', exec (.regionMap k) s = .next t ∧ n < 64 ∧ Completes s t pre .ok (BitVec.ofNat 32 n)
        ∧ q.regions.get none n = none ∧ (t.part p).regions.get none n = some r' ∧ { r' with parray := 0 } = r
        ∧ (∀ m, m ≠ n → (t.part p).regions.get none m = q.regions.get none m)
        ∧ (∀ j f, fs[j]? = some f → t.frameOf p r' j = f)
        ∧ (∀ o, o ≠ p → t.part o = s.part o))
    ∧ (MgmtForm k 0x08 true [(8, 1)] → s.hi.st = .ready → q.open' → pf k 8 1 ≤ 63 →
      ∀ r, q.regions.get none (pf k 8 1) = some r → s.entryBusy p r = false →
      ∃ t, exec (.regionUnmap k) s = .next t ∧ Completes s t [] .ok 0 ∧ (t.part p).regions.get none (pf k 8 1) = none
        ∧ (∀ m, m ≠ pf k 8 1 → (t.part p).regions.get none m = q.regions.get none m) ∧ t.mem = s.mem
        ∧ (∀ o, o ≠ p → (t.part o).regions = (s.part o).regions))

/-- `QUEUE_CREATE` makes a queue of the context under a number that was free, with its indices 0, and its reply names it;
`QUEUE_DESTROY` of a queue whose `HEAD` equals its `TAIL`, or whose context is FAULTED, removes it (R374, R380). No other
queue changes. A creation takes place once the HKC reaches the queue's partition (R27). -/
def Obligations.WorkQueuesComeAndGo : Prop :=
  ∀ (s : State) (k : Packet), s.mcqReady = true → s.hi.st = .ready →
    (let p := mgmtPart k
      let x := ctxAt k 24
      MgmtForm k 0x09 true [(8, 8), (16, 8), (24, 1), (25, 1), (26, 1)] → pf k 14 2 = 0 → pa k 8 % 4096 = 0 → pf k 22 2 = 0 →
      pa k 16 % 8 = 0 → pf k 24 1 ≤ 15 → 4 ≤ pf k 25 1 → pf k 25 1 ≤ 16 → pf k 26 1 ≤ 7 → (s.ctx p x).st ≠ .free →
      (s.ctx p x).st ≠ .faulted → (∃ q, s.queue q = none) → (s.part p).reached →
      ∃ t q w, exec (.queueCreate k) s = .next t ∧ Completes s t [] .ok (BitVec.ofNat 32 q.val)
        ∧ s.queue q = none ∧ t.queue q = some w ∧ (∀ o, o ≠ q → t.queue o = s.queue o)
        ∧ w.part = p ∧ w.ctx = x ∧ w.evq.val = pf k 26 1 ∧ w.base = pa k 8 ∧ w.log2n = pf k 25 1 ∧ w.headWb = pa k 16
        ∧ w.head = 0 ∧ w.tail = 0 ∧ w.taken = 0 ∧ t.mem = s.mem ∧ t.pkts = s.pkts)
    ∧ (∀ (q : Fin 256) (w : WorkQ), MgmtForm k 0x0A false [(8, 1)] → pf k 8 1 = q.val → s.queue q = some w →
      w.head = w.tail ∨ (s.ctx w.part w.ctx).st = .faulted →
      ∃ t, exec (.queueDestroy k) s = .next t ∧ Completes s t [] .ok 0 ∧ t.queue q = none
        ∧ (∀ o, o ≠ q → t.queue o = s.queue o) ∧ t.parts = s.parts ∧ t.mem = s.mem)

/-- `RESET` at CORE, CLUSTER and PARTITION level (R409, R440, R441, R443). CORE clears the core's registers, queue entries and
debug settings and keeps SP, ACC, program memory and halt registers; CLUSTER also zeroes SP and ACC, empties stream cache
and trace buffer and makes the ninth working core the spare, while the cycle count goes on (R74); both act on cores that run
nothing. PARTITION, while nothing of the partition is still to be cut, the host holds no line homed there and nothing waits on
its links, leaves the partition OFF with no context, region, queue or sequence, its link training, retry buffers and credits
kept; while an instance or a bank unit's run has still to reach its cut point, it frees the contexts and its reply waits (R113,
R442, R443; that nothing waits there is the model's condition, log 39). `HK_RESET_STAT` reports the level. -/
def Obligations.PartialResets : Prop :=
  ∀ (s : State) (k : Packet), s.mcqReady = true → s.hi.st = .ready → (s.part (mgmtPart k)).reached →
    let p := mgmtPart k
    (MgmtForm k 0x0B true [(8, 1), (9, 1), (10, 1)] → pf k 8 1 = 0 → pf k 9 1 ≤ 9 → pf k 10 1 ≤ 8 →
      let c := resetCoreId k
      let x := s.core c
      x.busy = false → ∃ t, exec (.resetCore k) s = .next t ∧ Completes s t [] .ok 0
        ∧ (let y := t.core c
          y.a = [] ∧ y.x = [] ∧ y.j = [] ∧ y.i = [] ∧ y.bind = [] ∧ y.tok = [] ∧ y.mtag = 0 ∧ y.wtag = 0 ∧ y.pc = 0
          ∧ y.inflight = [] ∧ y.dmaQ = [] ∧ y.matQ = [] ∧ y.vecQ = [] ∧ y.runs = [] ∧ y.st = .idle ∧ y.hazEn = false
          ∧ y.waitLimit = 0 ∧ y.sp = x.sp ∧ y.acc = x.acc ∧ y.prog = x.prog ∧ y.hReason = x.hReason ∧ y.hPc = x.hPc
          ∧ y.hAddr = x.hAddr ∧ y.hIdx = x.hIdx ∧ y.hWtag = x.hWtag ∧ y.hMtag = x.hMtag)
        ∧ (∀ d, d ≠ c → t.core d = s.core d) ∧ (∀ o, o ≠ c.cluster → t.cluster o = s.cluster o)
        ∧ t.cluster c.cluster = { s.cluster c.cluster with dmaOrder := (s.cluster c.cluster).dmaOrder.erase c.k.val }
        ∧ t.mem = s.mem ∧ t.hk.resetLevel = 0
        ∧ t.hk.resetSource = 0)
    ∧ (MgmtForm k 0x0B true [(8, 1), (9, 1), (10, 1)] → pf k 8 1 = 1 → pf k 9 1 ≤ 9 → pf k 10 1 = 0 →
      let cl := resetCl k
      (∀ c ∈ coresOf cl, (s.core c).busy = false) → ∃ t, exec (.resetCluster k) s = .next t ∧ Completes s t [] .ok 0
        ∧ (∀ c ∈ coresOf cl, (t.core c).sp = [] ∧ (t.core c).acc = [] ∧ (t.core c).a = [] ∧ (t.core c).st = .idle
            ∧ (t.core c).hReason = (s.core c).hReason
            ∧ ((t.core c).spare = true ↔ (s.core c).retired = false ∧ (s.cluster cl).disabled = false
                ∧ ((coresOf cl).filter (fun d => !(s.core d).retired && decide (d.k < c.k))).length = 8))
        ∧ (t.cluster cl).stream = [] ∧ (t.cluster cl).trBuf = [] ∧ (t.cluster cl).trEnable = false
        ∧ (t.cluster cl).cycle = (s.cluster cl).cycle
        ∧ (∀ c, c.cluster ≠ cl → t.core c = s.core c) ∧ (∀ o, o ≠ cl → t.cluster o = s.cluster o) ∧ t.mem = s.mem
        ∧ t.hk.resetLevel = 1)
    ∧ (MgmtForm k 0x0B true [(8, 1), (9, 1), (10, 1)] → pf k 8 1 = 2 → pf k 9 1 = 0 → pf k 10 1 = 0 →
      (s.part p).resetting = false → (∀ c ∈ coresOfPart p, (s.core c).runs = [] ∧ (s.core c).stopping = []) →
      s.unitsCut p = true → s.hostHolds p = [] → (∀ l ∈ linksOf p, (s.link l).rx = []) → s.parked = [] → s.waits = [] →
      ∃ t pre, exec (.resetPartition k) s = .next t ∧ Completes s t pre .ok 0 ∧ (t.part p).st = .off
        ∧ (∀ x, (t.ctx p x).st = .free) ∧ (t.part p).regions = [] ∧ (t.part p).lines = [] ∧ (t.part p).quar = []
        ∧ (∀ q w, t.queue q = some w → w.part ≠ p) ∧ (∀ j ∈ t.pkts, j.part ≠ p)
        ∧ (∀ n, (s.part p).inRange n = true → (t.seqd n).st = 0)
        ∧ (∀ c ∈ coresOfPart p, (t.core c).sp = [] ∧ (t.core c).acc = [] ∧ (t.core c).share = none ∧ (t.core c).st = .idle)
        ∧ (∀ l ∈ linksOf p, (t.link l).st = (s.link l).st ∧ (t.link l).retry = (s.link l).retry
            ∧ (t.link l).credReq = (s.link l).credReq ∧ (t.link l).credRsp = (s.link l).credRsp)
        ∧ (∀ o, o ≠ p → (t.part o).st = (s.part o).st ∧ (t.part o).ctxs = (s.part o).ctxs)
        ∧ t.hk.resetLevel = 2)
    ∧ (MgmtForm k 0x0B true [(8, 1), (9, 1), (10, 1)] → pf k 8 1 = 2 → pf k 9 1 = 0 → pf k 10 1 = 0 →
      (s.part p).resetting = false → (∃ c ∈ coresOfPart p, (s.core c).stopping ≠ []) ∨ s.unitsCut p = false →
      (∀ l ∈ linksOf p, (s.link l).rx = []) → s.parked = [] → s.waits = [] →
      ∃ t, exec (.resetPartition k) s = .next t ∧ (t.part p).resetting = true ∧ (∀ x, (t.ctx p x).st = .free)
        ∧ (∀ c ∈ coresOfPart p, (t.core c).share = none ∧ (t.core c).runs = [] ∧ (t.core c).st ≠ .running)
        ∧ t.hi.mcqHead = s.hi.mcqHead ∧ t.hk = s.hk)

/-- `RESET` at WARM and COLD level: its reply and `HEAD` reach the host before the reset begins (R380, R444); the reset is as
a pin's, with a command as its source, and no management queue and no event queue stays enabled (R373, R374). A cold one takes
the rails down, from the top (R444, R447). -/
def Obligations.WholeResetsByCommand : Prop :=
  ∀ (s : State) (k : Packet), s.mcqReady = true → MgmtForm k 0x0B false [(8, 1), (9, 1), (10, 1)] → pf k 9 1 = 0 → pf k 10 1 = 0 →
    let begun (t : State) (cold : Bool) : Prop := resetBegun s t cold 0 ∧ t.cxlOut = [] ∧ t.hi.mcqEnable = false
      ∧ (∀ e, (t.eventQ e).enable = false)
      ∧ (s.hi.mcqHeadWb = 0 → t.hostRead (s.hi.mcqBase.toNat + 64 * (s.hi.mcqHead.toNat % 2 ^ s.hi.mcqLog2n.toNat) + 56) 8
          = [0, 1, 0, 0, 0, 0, 0, 0])
    (pf k 8 1 = 3 → ∃ t, exec (.resetWarm k) s = .next t ∧ begun t false ∧ t.hk.rails = s.hk.rails ∧ t.ta = s.ta)
    ∧ (pf k 8 1 = 4 → ∃ t, exec (.resetCold k) s = .next t ∧ begun t true
      ∧ (s.hk.rails ≠ 0 → t.hk.down = true ∧ t.hk.rails.toNat < s.hk.rails.toNat))

/-- `CADASTRE_IMPORT` of a list that R432 and R436 accept extends `MEAS6` with the buffer's digest and writes the merged list
under the next `SEQ`; `MEMTEST_FULL` starts the test that `RETENTION` selects and holds the queue; at its end the stacks
tested read 0, no other stack's memory has changed, and the command completes (R437). -/
def Obligations.CadastreImportAndMemoryTest : Prop :=
  ∀ (s : State) (k : Packet),
    (s.mcqReady = true → s.hi.st = .ready → (∀ p, (s.part p).st = .off) →
      (MgmtForm k 0x0D false [(8, 8), (16, 4)] → HostField k 8 → s.hostPoison (pa k 8) (pf k 16 4) = false →
        s.importCheck k = none → ∃ t pre, exec (.cadastreImport k) s = .next t ∧ Completes s t pre .ok 0
          ∧ t.ta.meas.get 0 6 = Config.sha3_512 (leBytes 64 (s.ta.meas.get 0 6).toNat
              ++ leBytes 64 (Config.sha3_512 (s.hostRead (pa k 8) (pf k 16 4))).toNat)
          ∧ t.cad.list.seq = s.cad.list.seq + 1 ∧ t.mem = s.mem ∧ t.cores = s.cores ∧ t.stks = s.stks)
      ∧ (MgmtForm k 0x0E false [(8, 2)] → 1 ≤ pf k 8 2 → pf k 8 2 ≤ 4095 →
        ∀ i ∈ [Instr.memtestFull k, Instr.retentionTest k], ∃ t, exec i s = .next t ∧ t.hk.mtBusy = true
          ∧ t.hk.mtRet = s.hk.retention ∧ t.hk.mtStacks = BitVec.ofNat 12 (pf k 8 2) ∧ t.mcqReady = false
          ∧ { t with hk := s.hk, hi := s.hi } = s))
    ∧ (s.hk.mtBusy = true → ∀ found, ∃ t pre, exec (.memtestComplete found) s = .next t ∧ Completes s t pre .ok 0
        ∧ t.hk.mtBusy = false
        ∧ ∀ n, t.mem.get 0 n = if s.hk.mtStacks.getLsbD (keyStack n) then 0 else s.mem.get 0 n)

/-- `REPAIR_BLOCK`, once the HKC reaches the partition (R27) and nothing holds the write up (a line that the host holds, a bank
that a step holds open, a PLL on the way: R26, R231, R368), writes the 4 KiB it is given over the block that `DADDR` names in
its context's map, and every core instance parked on the block runs on (R400); when the window of a parked instance ends first, the event is counted and its
context is FAULTED (R401). -/
def Obligations.WeightRepair : Prop :=
  (∀ (s : State) (k : Packet) (ts : List Xlat), s.mcqReady = true → s.hi.st = .ready →
    MgmtForm k 0x0F true [(8, 8), (16, 8), (24, 1)] → pf k 14 2 = 0 → pa k 8 % 4096 = 0 → HostField k 16 → pf k 24 1 ≤ 15 →
    let p := mgmtPart k
    let x := ctxAt k 24
    (s.ctx p x).st ≠ .free → (s.part p).st = .running ∨ (s.part p).st = .stopping ∨ (s.part p).st = .stopped →
    (s.part p).pll = .running →
    s.repairBlock k = some ts → (placesOf ts).Nodup → (∀ t ∈ ts, t.region.datum = false) → (s.heldUp p true ts).isNone = true →
    s.hostPoison (pa k 16) 4096 = false → s.waits = [] → (∀ o ∈ s.parked, ∃ c n, o.who = .inst c n) →
    ∃ t pre, exec (.repairBlock k) s = .next t ∧ Completes s t pre .ok 0
      ∧ t.bytesAt (placesOf ts) = s.hostRead (pa k 16) 4096
      ∧ (∀ o ∈ s.parked, ∀ c n, o.who = .inst c n → o.block ∈ (placesOf ts).map s.blockNo →
          o ∉ t.parked ∧ ∀ sh, (s.core c).share = some sh → sh.ctx = o.ctx → ∀ i ∈ (t.core c).runs, i.id = n → i.st ≠ .parked)
      ∧ (∀ o ∈ s.parked, o.block ∉ (placesOf ts).map s.blockNo → o ∈ t.parked))
  ∧ (∀ (s : State) (n : Nat) (o : ParkedOp) (c : CoreId) (j : Nat), s.parked[n]? = some o → o.who = .inst c j →
    (s.ctx o.part o.ctx).st = .running → (s.part o.part).expired.toNat < 65535 →
    ∃ t, exec (.repairWindowExpiry n) s = .next t ∧ (t.part o.part).expired = (s.part o.part).expired + 1
      ∧ (t.ctx o.part o.ctx).st = .faulted)

/-! ### Registers -/

/-- A doorbell, consumer or interrupt register that changes only the host interface: the outcome of a refused index (R372). -/
def indexRefused (s t : State) : Prop :=
  t.hi.err.getLsbD 0 = true ∧ t.hi.dbErrors = satAdd s.hi.dbErrors 1
    ∧ { t with hi := { t.hi with err := s.hi.err, dbErrors := s.hi.dbErrors } } = s

/-- Doorbells and rings (R371 to R374, R391): an index inside its ring is taken and one outside it is refused and counted; a
doorbell of a queue whose context is FAULTED, and any while the device is RESETTING, has no effect; setting `ENABLE` sets both
indices to 0, with the size taken only if it is legal; a packet queued for a WAITING context that is not suspended makes it
READY or has it chosen; the timer sends the interrupt of the pending events. -/
def Obligations.DoorbellsAndRings : Prop :=
  ∀ (s : State) (v : Word),
    (s.hi.st ≠ .resetting →
      ((v - s.hi.mcqHead).toNat ≤ 2 ^ s.hi.mcqLog2n.toNat → exec (.mcqDoorbell v) s = .next { s with hi := { s.hi with mcqTail := v } })
      ∧ (2 ^ s.hi.mcqLog2n.toNat < (v - s.hi.mcqHead).toNat → ∃ t, exec (.mcqDoorbell v) s = .next t ∧ indexRefused s t))
    ∧ (s.hi.st = .resetting → exec (.mcqDoorbell v) s = .next s)
    ∧ (∀ (q : Fin 256) (w : WorkQ), s.queue q = some w → s.hi.st ≠ .resetting →
      ((s.ctx w.part w.ctx).st = .faulted → exec (.wqDoorbell q v) s = .next s)
      ∧ ((s.ctx w.part w.ctx).st ≠ .faulted → (v - w.head).toNat ≤ 2 ^ w.log2n → ∃ t, exec (.wqDoorbell q v) s = .next t
          ∧ t.queue q = some { w with tail := v } ∧ (∀ o, o ≠ q → t.queue o = s.queue o) ∧ t.mem = s.mem ∧ t.pkts = s.pkts
          ∧ ((s.ctx w.part w.ctx).st = .waiting → (s.part w.part).st = .running → (s.ctx w.part w.ctx).suspend = false →
              v ≠ w.head → (t.ctx w.part w.ctx).st = .ready ∨ (t.ctx w.part w.ctx).st = .restoring))
      ∧ ((s.ctx w.part w.ctx).st ≠ .faulted → 2 ^ w.log2n < (v - w.head).toNat →
          ∃ t, exec (.wqDoorbell q v) s = .next t ∧ indexRefused s t))
    ∧ (∀ e : Fin 8,
      ((v - (s.eventQ e).cons).toNat ≤ ((s.eventQ e).prod - (s.eventQ e).cons).toNat → s.evLate = [] →
        ∃ t, exec (.evConsWrite e v) s = .next t ∧ (t.eventQ e).cons = v ∧ (t.eventQ e).prod = (s.eventQ e).prod
          ∧ (∀ o, o ≠ e → t.eventQ o = s.eventQ o) ∧ { t with evq := s.evq } = s)
      ∧ (((s.eventQ e).prod - (s.eventQ e).cons).toNat < (v - (s.eventQ e).cons).toNat →
        ∃ t, exec (.evConsWrite e v) s = .next t ∧ indexRefused s t))
    ∧ (s.hi.mcqEnable = false → v.getLsbD 4 = true → ∃ t, exec (.mcqEnable v) s = .next t ∧ t.hi.mcqEnable = true
      ∧ t.hi.mcqHead = 0 ∧ t.hi.mcqTail = 0 ∧ t.hi.mcqIrq = v.getLsbD 5 ∧ t.hi.mcqBase = s.hi.mcqBase
      ∧ t.hi.mcqLog2n.toNat = (if 4 ≤ v.toNat % 16 ∧ v.toNat % 16 ≤ 10 then v.toNat % 16 else s.hi.mcqLog2n.toNat)
      ∧ { t with hi := s.hi } = s)
    ∧ (∀ e : Fin 8, (s.eventQ e).enable = false → v.getLsbD 5 = true → ∃ t, exec (.evqEnable e v) s = .next t
      ∧ (t.eventQ e).enable = true ∧ (t.eventQ e).prod = 0 ∧ (t.eventQ e).cons = 0 ∧ (t.eventQ e).irqEn = v.getLsbD 6
      ∧ (t.eventQ e).log2n.toNat = (if 6 ≤ v.toNat % 32 ∧ v.toNat % 32 ≤ 16 then v.toNat % 32 else (s.eventQ e).log2n.toNat)
      ∧ (t.eventQ e).dropped = (s.eventQ e).dropped ∧ (∀ o, o ≠ e → t.eventQ o = s.eventQ o) ∧ { t with evq := s.evq } = s)
    ∧ (∀ e : Fin 8, (s.eventQ e).irqEn = true → 0 < (s.eventQ e).pend → ∃ t, exec (.interruptTimer e) s = .next t
      ∧ t.cxlOut = s.cxlOut ++ [.irq e.val] ∧ t.eventQ e = { s.eventQ e with pend := 0 }
      ∧ { t with evq := s.evq, cxlOut := s.cxlOut } = s)

/-- The offset of a register in the block of a partition, of a core, of a link, of a stack (R366). -/
def partReg (p : Fin 4) (o : Nat) : Nat := 0x1000000 * (p.val + 1) + o
def coreReg (c : CoreId) (o : Nat) : Nat := partReg c.p (0x800000 + 0x10000 * c.c.val + 0x1000 * c.k.val + o)
def linkReg (l : Fin 48) (o : Nat) : Nat := 0x5000000 + 0x10000 * l.val + o
def stackReg (k : Fin 12) (o : Nat) : Nat := 0x6000000 + 0x100000 * k.val + o

/-- Words of RW registers of which every value is legal, with the number of their bits: offsets of BAR0. -/
def plainRegister (o n : Nat) : Prop :=
  (o = 0x1020 ∧ n = 32) ∨ (o = 0x1024 ∧ n = 32) ∨ (o = 0x5108 ∧ n = 1)
    ∨ (∃ e < 8, (o = 0x2018 + 0x40 * e ∨ o = 0x201C + 0x40 * e) ∧ n = 32)
    ∨ (∃ p, (o = partReg p 0x100 ∧ n = 20) ∨ (o = partReg p 0x304 ∧ n = 16) ∨ (o = partReg p 0x318 ∧ n = 1)
        ∨ (o = partReg p 0x608 ∧ n = 16) ∨ (o = partReg p 0x20000 ∧ n = 1))
    ∨ (∃ c, (o = coreReg c 0x4 ∧ n = 1) ∨ (o = coreReg c 0x8 ∧ n = 24))
    ∨ (∃ l, (o = linkReg l 0x1C ∧ n = 16) ∨ ∃ x < 16, o = linkReg l (0x20 + 4 * x) ∧ n = 5)
    ∨ (∃ k, ∃ d < 16, (o = stackReg k (0x180 + 8 * d) ∨ o = stackReg k (0x184 + 8 * d)) ∧ n = 32)

/-- Words of RW registers that keep their value when a reserved encoding is written, with such an encoding (R13). -/
def reservedWrite (o v : Nat) : Prop :=
  ∃ p : Fin 4, (o = partReg p 0x310 ∧ v = 0) ∨ (o = partReg p 0x31C ∧ v = 0) ∨ (o = partReg p 0x600 ∧ v = 0)
    ∨ (o = partReg p 0x108 ∧ (v = 0 ∨ v = 9)) ∨ (∃ x < 16, o = partReg p (0x408 + 32 * x) ∧ v = 0)

/-- Register accesses of a device that is not STARTING (R11 to R13): an RW register reads the value last written; one that is
written a reserved encoding reads as before; a 64-bit access covers two words; any access that is not a naturally aligned
32-bit or 64-bit one has no effect when it is a write and returns all ones when it is a read. Stack memory stays. -/
def Obligations.RegisterAccess : Prop :=
  ∀ (s : State), s.hi.st ≠ .starting →
    (∀ o n, plainRegister o n → ∀ v : DWord, v.toNat < 2 ^ 32 → ∃ t, exec (.registerWrite (BitVec.ofNat 28 o) 4 v) s = .next t
      ∧ t.readReg o 4 = v.toNat % 2 ^ n ∧ t.mem = s.mem)
    ∧ (∀ o v, reservedWrite o v → ∃ t, exec (.registerWrite (BitVec.ofNat 28 o) 4 (BitVec.ofNat 64 v)) s = .next t
      ∧ t.readReg o 4 = s.readReg o 4)
    ∧ (∀ v : DWord, ∃ t, exec (.registerWrite 0x1020 8 v) s = .next t ∧ t.readReg 0x1020 8 = v.toNat
      ∧ { t with hi := s.hi } = s)
    ∧ (∀ (o : BitVec 28) (size : Nat) (v : DWord), ¬ (size = 4 ∧ o.toNat % 4 = 0) → ¬ (size = 8 ∧ o.toNat % 8 = 0) →
      exec (.registerWrite o size v) s = .next s ∧ s.readReg o.toNat size = 2 ^ (8 * size) - 1)

/-- Writes that act (R306, R311, R317, R341, R342, R392): `SUSPEND`, the watchdog's registers, W1C registers, `LK_CTRL` and
`LK_CMD`, on a device that is not STARTING. -/
def Obligations.RegisterWritesThatAct : Prop :=
  ∀ (s : State) (v : Word), s.hi.st ≠ .starting →
    (∀ (p : Fin 4) (x : Fin 16), ∀ i ∈ [Instr.suspend p x v, Instr.unsuspend p x v],
      let q := s.part p
      ∃ t, exec i s = .next t ∧ (t.ctx p x).suspend = v.getLsbD 0 ∧ t.mem = s.mem ∧ (∀ o, o ≠ p → t.part o = s.part o)
        ∧ (v.getLsbD 0 = true → (s.ctx p x).st = .ready → (t.ctx p x).st = .waiting)
        ∧ (v.getLsbD 0 = true → q.cur = some x → (s.ctx p x).st = .running → (s.ctx p x).held = [] → (t.ctx p x).st = .saving)
        ∧ (v.getLsbD 0 = true → q.cur = some x → (s.ctx p x).st = .running → (s.ctx p x).held ≠ [] →
            (t.ctx p x).st = .running ∧ (t.ctx p x).deferred = true)
        ∧ (v.getLsbD 0 = false → (s.ctx p x).st = .waiting → q.st = .running → s.hasWork p x = true →
            (t.ctx p x).st = .ready ∨ (t.ctx p x).st = .restoring))
    ∧ (∀ p : Fin 4,
      (v ≠ 0 → ∃ t, exec (.wdogConfigWrite p .period v) s = .next t ∧ t.part p = { s.part p with wdPeriod := v, wdCount := 0 }
        ∧ (∀ o, o ≠ p → t.part o = s.part o) ∧ { t with parts := s.parts } = s)
      ∧ (∃ t, exec (.wdogConfigWrite p .ctrl v) s = .next t ∧ t.part p = { s.part p with wdEn := v.getLsbD 0, wdCount := 0 }
        ∧ (∀ o, o ≠ p → t.part o = s.part o) ∧ { t with parts := s.parts } = s))
    ∧ (∀ sets : Word,
      (∃ t, exec (.w1cClear .thStatus v sets) s = .next t ∧ { t with th := { t.th with status := s.th.status } } = s
        ∧ ∀ n < 4, t.th.status.getLsbD n = ((s.th.status.getLsbD n && !v.getLsbD n) || sets.getLsbD n))
      ∧ (∃ t, exec (.w1cClear .sbFault v sets) s = .next t ∧ { t with hk := { t.hk with sbFault := s.hk.sbFault } } = s
        ∧ ∀ n < 17, t.hk.sbFault.getLsbD n = ((s.hk.sbFault.getLsbD n && !v.getLsbD n) || sets.getLsbD n))
      ∧ (∃ t, exec (.w1cClear .hiErr v sets) s = .next t ∧ { t with hi := { t.hi with err := s.hi.err } } = s
        ∧ ∀ n < 3, t.hi.err.getLsbD n = ((s.hi.err.getLsbD n && !v.getLsbD n) || sets.getLsbD n))
      ∧ (∀ e : Fin 8, ∃ t, exec (.w1cClear (.evStatus e) v sets) s = .next t
        ∧ t.eventQ e = { s.eventQ e with overflow := ((s.eventQ e).overflow && !v.getLsbD 0) || sets.getLsbD 0 }
        ∧ (∀ o, o ≠ e → t.eventQ o = s.eventQ o) ∧ { t with evq := s.evq } = s))
    ∧ (∀ l : Fin 48,
      (v.getLsbD 0 = true → (s.link l).st = .disabled → ∃ t, exec (.linkEnable l v) s = .next t
        ∧ t.link l = { s.link l with enable := true, halfOk := v.getLsbD 1, precode := v.getLsbD 2, st := .detect }
        ∧ (∀ o, o ≠ l → t.link o = s.link o) ∧ { t with links := s.links } = s)
      ∧ (v.getLsbD 0 = false → (s.link l).st ≠ .disabled → (s.link l).ops = [] → (s.link l).reqWait = [] →
        (s.link l).drains = [] → ∃ t, exec (.linkDisable l v) s = .next t ∧ (t.link l).st = .disabled
          ∧ (t.link l).enable = false ∧ (t.link l).retry = [] ∧ (t.link l).txQ = [] ∧ (t.link l).credReq = 512
          ∧ (∀ o, o ≠ l → t.link o = s.link o) ∧ t.parts = s.parts ∧ t.mem = s.mem)
      ∧ (v.getLsbD 0 = true → (s.link l).st = .active → (s.link l).retrains.toNat < 65535 → ∃ t, exec (.retrain l v) s = .next t
        ∧ t.link l = { s.link l with st := .retrain, retrains := (s.link l).retrains + 1 }
        ∧ (∀ o, o ≠ l → t.link o = s.link o) ∧ { t with links := s.links } = s))

/-- The reset column of the register maps (R40 and the chapters' maps), for the registers whose reset value is not 0: what
they hold at reset, read as once STARTING no longer hides them. -/
def resetColumn : List (Nat × Nat) :=
  [(0x1010, 0x4), (0x4000, 0x0C8006E2), (0x4008, 0x01540585), (0x5000, 0x02580E10), (0x5100, 0x10), (0x520C, 0x25), (0x7004, 0x035F645F)]
    ++ (List.range 8).flatMap (fun e => [(0x2008 + 0x40 * e, 0x6), (0x200C + 0x40 * e, 0x1)])
    ++ (List.finRange 4).flatMap (fun p =>
      [(partReg p 0x100, 0x1388), (partReg p 0x108, 0x8), (partReg p 0x304, 0x9C4), (partReg p 0x310, 0x2710),
        (partReg p 0x318, 0x1), (partReg p 0x31C, 0x7A120), (partReg p 0x320, 0x1), (partReg p 0x600, 0x32)]
      ++ (List.range 16).map (fun x => (partReg p (0x408 + 32 * x), 0x186A0)))

/-- At reset: the registers of the maps hold their reset column; every core's `CO_HALT_INFO` and cluster's `CL_TRACE_CTRL`,
every link's `LK_CTRL`, `LK_EXPECT` and `LK_LANE_CFG`, every stack's `SE_LIMIT`, `SE_SLOT_MODE` and `SE_SCRUB_CFG` too; while
the device is STARTING only the registers of R418 show their values; the queue of commands is empty. -/
def Obligations.ResetValues : Prop :=
  let r : State := { State.reset with hi := { HostIf.reset with st := .ready } }
  (∀ e ∈ resetColumn, r.readReg e.1 4 = e.2)
    ∧ (∀ c, r.readReg (coreReg c 0x10) 4 = 0x700) ∧ (∀ c : ClusterId, r.readReg (coreReg ⟨c.p, c.c, 0⟩ 0xF000) 4 = 0xFFFF0FF8)
    ∧ (∀ l, r.readReg (linkReg l 0x0) 4 = 0x2 ∧ r.readReg (linkReg l 0xC) 4 = 0x40000 ∧ r.readReg (linkReg l 0x1C) 4 = 0x40)
    ∧ (∀ k, r.readReg (stackReg k 0x104) 4 = 0x2020 ∧ r.readReg (stackReg k 0x108) 4 = 0x1
        ∧ r.readReg (stackReg k 0x400) 4 = 0x118)
    ∧ State.reset.readReg 0x4000 4 = 0 ∧ State.reset.readReg 0x1000 4 = 0 ∧ State.reset.readReg 0x5100 4 = 0x10
    ∧ State.reset.pending = []

/-! ### Starts -/

/-- The start has ended FAILED (R416, R429). -/
def startFailed (t : State) : Prop := t.hk.phase = .failed ∧ t.hk.failed = true ∧ t.hi.st = .faulted

/-- The phases HK_BOOT to VERIFY (R416, R421, R422, R424, R425, R460). -/
def Obligations.StartToVerify : Prop :=
  ∀ (s : State),
    (∀ a b, s.hk.phase ∈ [Phase.none, .hkBoot] → s.th.tripped = false → s.hk.down = false → s.hk.pg.getLsbD 0 = true →
      ∃ t, exec (.hkBoot a b) s = .next t ∧ t.hk.phase = (if s.hk.cold then .identity else .image)
        ∧ t.hk.orient.toNat = (if a = b then 3 else if a then 2 else 1) ∧ t.hk.rails.getLsbD 0 = true
        ∧ t.ta.meas.get 0 0 = Config.sha3_512 (leBytes 64 0 ++ leBytes 64 Config.maskRomDigest.toNat)
        ∧ ∀ n, n ≠ 0 → t.ta.meas.get 0 n = 0)
    ∧ (s.hk.phase = .identity → ∃ t, exec .identity s = .next t
      ∧ (Config.pufSeed = none → startFailed t)
      ∧ ∀ seed, Config.pufSeed = some seed → t.hk.phase = .image ∧ t.ta.identity = true ∧ t.ta.idKey = seed)
    ∧ (s.hk.phase = .image → ∀ g : Sys2Proof.ImageRead,
      let flash := s.img.source < 2 ∧ g.noFlash = false ∧ s.qspiBad = false
      (flash → imageHeaderOk g.bytes = true → ∃ t, exec (.imageRead g) s = .next t ∧ t.hk.phase = .verify ∧ t.img.bytes = g.bytes
        ∧ t.hk.source = false ∧ t.hk.slot = decide (s.img.source = 1))
      ∧ (flash → imageHeaderOk g.bytes = false → ∃ t, exec (.imageRead g) s = .next t ∧ t.hk.phase = .image
        ∧ t.img.source = s.img.source + 1)
      ∧ (s.img.source < 2 → g.noFlash = true → ∃ t, exec (.imageRead g) s = .next t ∧ t.hk.phase = .image ∧ t.img.source = 2)
      ∧ (s.img.source = 2 → 64 ≤ s.img.bytes.length → lf s.img.bytes 8 4 ≤ s.img.bytes.length →
        ∃ t, exec (.imageRead g) s = .next t ∧ t.hk.phase = .verify ∧ t.hk.source = true))
    ∧ (s.hk.phase = .image → s.img.source = 2 → ∀ off data, 1 ≤ data.length → data.length ≤ 4096 →
      ∃ t, exec (.imagePiece off data) s = .next t ∧ { t with img := s.img } = s
        ∧ t.img.bytes = (if off = s.img.bytes.length then s.img.bytes ++ data else if off = 0 then data else []))
    ∧ (s.hk.phase = .verify → ∃ t, exec .verifyImage s = .next t
      ∧ (imageValid s.img.bytes = true → t.hk.phase = .powerUp ∧ t.ta.aliased = true
          ∧ t.ta.ownerSigned = !rootSigned s.img.bytes ∧ t.ta.meas.get 0 0 = s.ta.meas.get 0 0)
      ∧ (imageValid s.img.bytes = false → s.hk.cold = true → s.img.source < 2 →
          t.hk.phase = .image ∧ t.img.source = s.img.source + 1)
      ∧ (imageValid s.img.bytes = false → s.hk.cold = true → 2 ≤ s.img.source → startFailed t)
      ∧ (imageValid s.img.bytes = false → s.hk.cold = false → s.img.retried = false →
          t.hk.phase = .image ∧ t.img.source = s.img.source)
      ∧ (imageValid s.img.bytes = false → s.hk.cold = false → s.img.retried = true → startFailed t))

/-- The phases POWER_UP to CONFIGURE (R40, R416, R419, R427 to R429, R433): at the end the device is READY, all stack memory
reads 0, the image's role, split, device ID and link settings are in force. A start whose tests fail keeps the entries found
readable. -/
def Obligations.StartToReady : Prop :=
  ∀ (s : State),
    (s.hk.phase = .powerUp → s.hk.pg = 63 →
      ∃ t, exec .powerUp s = .next t ∧ t.hk.phase = .memInit ∧ { t with hk := { t.hk with phase := .powerUp } } = s)
    ∧ (s.hk.phase = .memInit →
      ∃ t, exec .memInit s = .next t ∧ t.hk.phase = .test ∧ { t with hk := { t.hk with phase := .memInit } } = s)
    ∧ (s.hk.phase = .test → ∀ r : TestResult, ∃ t, exec (.testDone r) s = .next t
      ∧ (let found := s.cad.tested ++ r.found.map (fun e => { e with origin := 0 })
        let fails := r.badBases ≠ 0 ∨ r.uncovered = true ∨ r.tsvOver = true ∨ r.sramOver = true
        (fails → startFailed t ∧ t.cad.runtime = s.cad.runtime ++ found)
        ∧ (¬ fails → t.hk.phase = .cadastre ∧ t.cad.tested = found ∧ t.cad.runtime = s.cad.runtime)))
    ∧ (s.hk.phase = .cadastre → ∀ w : FlashWrite,
      let base := match s.prior s.hk.cold with
        | some p => p.2
        | none => CadList.empty
      ∃ t, exec (.cadastrePhase w) s = .next t ∧ (t.hk.phase = .apply ∨ startFailed t)
        ∧ (t.hk.phase = .apply → t.cad.list.seq = base.seq + 1 ∧ t.cad.list.startCount = base.startCount + 1
            ∧ t.cad.list.nextSlice = base.nextSlice + 1 ∧ t.cad.list.entries.length ≤ 4092 ∧ t.cad.kept = some t.cad.list
            ∧ t.cad.runtime = [])
        ∧ (base.entries = [] → s.cad.runtime = [] → s.cad.tested = [] → t.hk.phase = .apply ∧ t.cad.list.entries = []))
    ∧ (s.hk.phase = .apply → ∃ t, exec .applyCad s = .next t ∧ t.hk.phase = .configure
      ∧ ∀ c, ((t.core c).retired = true ↔ ∃ e ∈ s.cad.list.entries, e.kind = 1 ∧ e.a 0 = c.p.val ∧ e.a 1 = c.c.val ∧ e.a 2 = c.k.val))
    ∧ (s.hk.phase = .configure → ∀ v : ImageValues, ∃ t, exec (.configure v) s = .next t ∧ t.hk.phase = .ready
      ∧ t.hi.st = .ready ∧ (∀ n, t.mem.get 0 n = 0) ∧ t.pw.role = v.role ∧ t.pw.budget = v.budget ∧ t.pw.shareC = v.share
      ∧ t.pw.spill = v.spill ∧ t.pw.override = false ∧ t.pw.phase = 0 ∧ (t.pw.curC, t.pw.curS) = t.pw.target ∧ t.devId = v.devId
      ∧ t.rowsDev = v.rowsDev ∧ t.fwVer.toNat = lf s.img.bytes 12 4
      ∧ (∀ p : Fin 4, (t.part p).rowsPart = v.rowsPart.getD p.val 0 ∧ (t.part p).repairMs = v.repairMs)
      ∧ (∀ l : Fin 48, (t.link l).enable = v.linkEnable.getD l.val false
          ∧ (t.link l).st = (if v.linkEnable.getD l.val false then LinkSt.detect else LinkSt.disabled)))

/-- The SPDM responder (R426; the wire form and what the negotiation allows are PRESUMED from SPDM 1.3, log 27): one negotiated
state, advanced in order; the digests, the chain and the challenge of slot 0, and the measurements by index are answered once it is
complete and the alias key exists, and a request that is not allowed gets an error and changes nothing else. -/
def Obligations.SpdmResponder : Prop :=
  ∀ (s : State) (req : List Byte), s.hk.phase ≠ .none →
    let answers (i : Instr) (code : Nat) (body : List Byte) (n : Spdm) : Prop :=
      exec i s = .next { s with spdm := { n with response := Config.spdmFrame code req body } }
    let n := s.spdm
    let ready := n.version = true ∧ n.caps = true ∧ n.algs = true ∧ s.ta.aliased = true
    let chain := Config.certChain s.ta.idKey s.ta.aliasKey
    let meas := (List.range 8).flatMap (fun k => leBytes 64 (s.ta.meas.get 0 k).toNat)
    let signed (bs : List Byte) : List Byte := bs ++ Config.mldsaSign s.ta.aliasKey (req ++ bs)
    answers (.getVersion req) 0x04 [0x13] ⟨true, false, false, []⟩
    ∧ (n.version = true → answers (.getCapabilities req) 0x61 [] { n with caps := true })
    ∧ (n.version = true → n.caps = true → answers (.negotiateAlgorithms req) 0x63 [] { n with algs := true })
    ∧ (n.version = false → ∀ i ∈ [Instr.getCapabilities req, .negotiateAlgorithms req, .getDigests req, .getCertificate req,
        .challenge req, .getMeasurements req], answers i 0x7F [] n)
    ∧ (ready → answers (.getDigests req) 0x01 (leBytes 64 (Config.sha3_512 chain).toNat) n
      ∧ (spdmSlot req = 0 → answers (.getCertificate req) 0x02 chain n
        ∧ answers (.challenge req) 0x03
          (Config.mldsaSign s.ta.aliasKey (req ++ leBytes 64 (Config.sha3_512 chain).toNat ++ meas)) n)
      ∧ (spdmSlot req ≠ 0 → answers (.getCertificate req) 0x7F [] n ∧ answers (.challenge req) 0x7F [] n)
      ∧ (spdmIndex req = 255 → answers (.getMeasurements req) 0x60 (signed meas) n)
      ∧ (∀ k < 8, spdmIndex req = k + 1 →
          answers (.getMeasurements req) 0x60 (signed (leBytes 64 (s.ta.meas.get 0 k).toNat)) n)
      ∧ (8 < spdmIndex req → spdmIndex req ≠ 255 → answers (.getMeasurements req) 0x7F [] n))

/-! ### Work packets -/

/-- The sequencer takes this packet of a queue now (R343, R358, R379): the queue or a lane of a `STEP` may give it, its opcode
is the command's, no field of it is out of its range, no flip mask is armed, and its ring slot holds no poison. -/
def takes (s : State) (q : Fin 256) (w : WorkQ) (e : Seat) (kd : PktKind) (k : Packet) : Prop :=
  s.queue q = some w ∧ workKind k = some kd ∧ s.seat q w kd k = some e ∧ s.hk.flips = [] ∧ s.ringPoison w e = false
    ∧ ∀ c ∈ workChecks kd k, c.2 = false

/-- Packet `j` is packet `k` of the queue, started and not completed, at its place. -/
def packetAt (q : Fin 256) (w : WorkQ) (e : Seat) (kd : PktKind) (k : Packet) (j : Pkt) : Prop :=
  j.kind = kd ∧ j.pkt = k ∧ j.q = q.val ∧ j.i = e.i ∧ j.lane = e.lane ∧ j.laneIdx = e.idx ∧ j.part = w.part ∧ j.ctx = w.ctx
    ∧ j.started = true ∧ j.done = false

/-- The queue has moved past the packet, unless a lane gave it; no other queue has changed. -/
def queueMoved (s t : State) (q : Fin 256) (w : WorkQ) (e : Seat) : Prop :=
  t.queue q = some (if e.lane = 0 then { w with taken := w.taken + 1 } else w) ∧ ∀ o, o ≠ q → t.queue o = s.queue o

/-- Nothing stands between agents and memory: no stored error, no armed flip mask, no registered wait, no line that the host
holds. -/
def quietMemory (s : State) : Prop := s.memErr = [] ∧ s.hostErr = [] ∧ s.hk.flips = [] ∧ s.waits = [] ∧ s.hostDir = []

/-- Nothing holds up an access of a partition: no PLL on the way that does not run, no bank that a step holds open, no line of the
host's (R26, R231, R368). -/
def reaches (s : State) (p : Fin 4) (write : Bool) (ts : List Xlat) : Prop := (s.heldUp p write ts).isNone = true

/-- A write that a release of this queue covers. -/
def queueWrote (q : Fin 256) (u : Nat × Nat) : Prop := u.2 = q.val ∧ u.1 ≠ 361

/-- Packets that need no cores and no stacks (R293, R343, R382). `NOP`, `FLAG_WAIT` and a local `FLAG_SET` are taken, and what
they do at a home follows; a remote `FLAG_SET` with nothing to drain sends its add to the peer; a `FENCE` is done at once
where its release drains nothing, and otherwise sends a drain marker on every link that its queue has written over. Memory
is as it was. -/
def Obligations.PacketsWithoutCores : Prop :=
  ∀ (s : State) (q : Fin 256) (w : WorkQ) (e : Seat) (k : Packet),
    let new (kd : PktKind) : Pkt := newPkt q w e kd k
    let took (t : State) (kd : PktKind) : Prop := t.pkts = s.pkts ++ [new kd] ∧ queueMoved s t q w e ∧ t.mem = s.mem
    let spans : Prop := pf k 8 1 % 8 = 4 ∧ bit (pf k 8 1) 3 = true
    (takes s q w e .nop k → ∃ t, exec (.nop q k) s = .next t ∧ took t .nop)
    ∧ (takes s q w e .flagWait k → s.flagOk (new .flagWait) (pa k 8) Region.homed = true →
      ∃ t, exec (.flagWait q k) s = .next t ∧ took t .flagWait)
    ∧ (takes s q w e .flagSet k → bit (pf k 28 1) 3 = false → s.flagOk (new .flagSet) (pa k 8) Region.atomicOk = true →
      ∃ t, exec (.flagSet q k) s = .next t ∧ took t .flagSet)
    ∧ (∀ l, takes s q w e .flagSet k → bit (pf k 28 1) 3 = true → peerLink (BitVec.ofNat 32 (pf k 24 4)) = some l →
      s.granted w.part w.ctx l = true →
      (∀ x ∈ linksOf w.part, (s.link x).drains = [] ∧ ∀ u ∈ (s.link x).undrained, ¬ queueWrote q u) →
      ∃ t, exec (.flagSet q k) s = .next t ∧ took t .flagSet ∧ ∃ o ∈ (t.link l).ops ++ (t.link l).reqWait,
        o.who = (new .flagSet).waiter ∧ o.msg.type = 5 ∧ o.msg.addr = pa k 8 ∧ o.msg.value = pf k 16 8)
    ∧ (takes s q w e .fence k → (∀ l ∈ linksOf w.part, (s.link l).drains = []) →
      (∀ x ∈ s.pkts, ¬ (x.q = q.val ∧ x.i = e.i ∧ x.lane = e.lane ∧ x.laneIdx = e.idx)) →
      (spans → ∀ l ∈ linksOf w.part, ∀ u ∈ (s.link l).undrained, ¬ queueWrote q u) →
      ∃ t, exec (.fencePacket q k) s = .next t ∧ t.pkts = s.pkts ++ [{ new .fence with effect := true }]
        ∧ queueMoved s t q w e ∧ t.mem = s.mem)
    ∧ (takes s q w e .fence k → spans → ∀ l ∈ linksOf w.part, (∃ u ∈ (s.link l).undrained, queueWrote q u) →
      ∃ t, exec (.fencePacket q k) s = .next t ∧ took t .fence ∧ (new .fence).waiter ∈ (t.link l).drains)

/-- `RUN` (R44, R343, R344): its image is mapped and enough cores are free. It is given as many free cores as it asks for, and
each starts its share: the address of the arguments in A0, index and count in X0 and X1, every other register of A, X, I and
BIND and every token 0, J0 to J3 at 1, the entry point in the program address, and the image in program memory. -/
def Obligations.RunStartsShares : Prop :=
  ∀ (s : State) (q : Fin 256) (w : WorkQ) (e : Seat) (k : Packet) (ts : List Xlat), takes s q w e .run k → quietMemory s →
    s.translateAll w.part w.ctx (addrRun (pa k 8) (pf k 24 4)) = some ts → reaches s w.part false ts → pf k 34 1 ≤ (s.freeCores w.part).length →
    ∃ t cores, exec (.runPacket q k) s = .next t ∧ cores.length = pf k 34 1 ∧ cores.Nodup
      ∧ (∀ c ∈ cores, c ∈ s.freeCores w.part) ∧ queueMoved s t q w e ∧ t.mem = s.mem
      ∧ t.pkts = s.pkts ++ [{ newPkt q w e .run k with
          cores := cores, sharesLeft := cores.length, replayable := (s.part w.part).disjoint.getLsbD w.ctx.val }]
      ∧ (∀ n c, cores[n]? = some c →
        let x := t.core c
        x.st = .running ∧ x.share = some ⟨q.val, e.i, e.lane, e.idx, w.ctx, n, cores.length, 0, 0⟩
          ∧ (∀ r, x.a.get 0 r = if r = 0 then BitVec.ofNat 48 (pa k 16) else 0)
          ∧ (∀ r, x.x.get 0 r = if r = 0 then BitVec.ofNat 32 n else if r = 1 then BitVec.ofNat 32 cores.length else 0)
          ∧ (∀ r < 4, x.j.get 0 r = 1) ∧ x.i = [] ∧ x.bind = [] ∧ x.tok = [] ∧ x.mtag = 0 ∧ x.wtag = BitVec.ofNat 32 (pf k 4 4)
          ∧ x.pc = BitVec.ofNat 17 (pf k 32 2) ∧ x.prog.getMany 0 0 (pf k 24 4) = s.bytesAt (placesOf ts))
      ∧ ∀ c, c ∉ cores → t.core c = s.core c

/-- Nothing refuses, holds or fails a packet (R379): its checks pass, and what it needs is there. -/
def starts (v : Verdict) : Prop := ∃ s j f, v = .go s j f

/-- Where a packet's work is placed: in the stacks, with so many stack commands to complete, or on cores of its partition. -/
def placed (j : Pkt) : Prop :=
  (j.inStacks = true ∧ j.cmdsLeft = j.plan.length) ∨ (j.inStacks = false ∧ j.cores ≠ [] ∧ ∀ c ∈ j.cores, c.p = j.part)

/-- Packets of the library, lists and peers (R198, R253, R260, R262, R273, R335, R357, R384): where nothing refuses or holds one,
it is taken and placed, an append and a page serve in the stacks; a `STEP` holds the packets of both its lanes. -/
def Obligations.LibraryPacketsStart : Prop :=
  ∀ (s : State) (q : Fin 256) (w : WorkQ) (e : Seat) (k : Packet),
    let gives (kd : PktKind) (v : Verdict) (i : Instr) (good : Pkt → Prop) : Prop := takes s q w e kd k → starts v →
      ∃ t j, exec i s = .next t ∧ j ∈ t.pkts ∧ packetAt q w e kd k j ∧ queueMoved s t q w e ∧ good j
    let asked (take : State → Pkt → List (Nat × Bool) → Verdict) (kd : PktKind) : Verdict :=
      take s (newPkt q w e kd k) (workChecks kd k)
    gives .linear (asked takeLinear .linear) (.linear q k) placed
    ∧ gives .attend (asked takeAttend .attend) (.attend q k) placed
    ∧ gives .attendBwd (asked takeAttendBwd .attendBwd) (.attendBwd q k) (fun j => placed j ∧ j.inStacks = false)
    ∧ gives .appendKv (asked takeAppend .appendKv) (.appendKv q k) (fun j => placed j ∧ j.inStacks = true)
    ∧ gives .copy (asked takeCopy .copy) (.copyPacket q k) placed
    ∧ gives .step (asked takeStep .step) (.stepPacket q k) (fun j => j.args.length = 64 * (laneCount k 1 + laneCount k 2))
    ∧ gives .collective (asked takeCollective .collective) (.collective q k) (fun _ => True)
    ∧ gives .pageServe (asked takePageServe .pageServe) (.pageServe q k) (fun j => placed j ∧ j.inStacks = true)

/-- The operations of `PAGE_EDIT` but `READ`, by number (R265). -/
def pageEdits : List (Nat × (Fin 256 → Packet → Instr)) :=
  [(0, .openSeq), (1, .mapPages), (2, .commitPages), (3, .dropPages), (4, .freePages), (5, .reencodePages), (6, .truncateSeq),
    (7, .syncSeq), (8, .closeSeq)]

/-- Page edits (R265, R266, R269). Where nothing refuses or holds one it is taken and takes effect: `OPEN` writes the descriptor
and clears the directory, `TRUNCATE` lowers `LENGTH`, `CLOSE` makes the sequence CLOSING, and no other operation changes the
descriptor until it completes; the pages that `DROP`, `FREE` and `CLOSE` take out of the table enter the quarantine with the
new generation; an entry that `COMMIT`, `DROP` or `FREE` names gets its new state and generation. `READ` copies the
descriptor's 64 bytes to the address given. A request for a page serve whose stride reaches a page's footprint, where its
destination is Datum-checked (that of the peer's sequence, which is free, log 99), sends one `PS_REQ` to the peer (R275, R334). -/
def Obligations.PageEdits : Prop :=
  ∀ (s : State) (q : Fin 256) (w : WorkQ) (e : Seat) (k : Packet), quietMemory s →
    let n := pf k 32 2
    let p := w.part
    let d := s.seqd n
    (∀ x ∈ pageEdits, takes s q w e (.edit x.1) k →
      starts (takeEdit s (newPkt q w e (.edit x.1) k) (workChecks (.edit x.1) k)) →
      ∃ t j, exec (x.2 q k) s = .next t ∧ t.pkts = s.pkts ++ [j] ∧ packetAt q w e (.edit x.1) k j ∧ queueMoved s t q w e
        ∧ j.seq = some n
        ∧ (x.1 = 0 → t.seqd n = ⟨1, BitVec.ofNat 8 (pf k 39 1), BitVec.ofNat 8 (pf k 40 1), BitVec.ofNat 8 (pf k 41 1),
            BitVec.ofNat 4 w.ctx.val, BitVec.ofNat 16 (pf k 42 2), 1, 0, BitVec.ofNat 40 (pa k 8)⟩)
        ∧ (x.1 = 6 → t.seqd n = { d with length := BitVec.ofNat 32 (pf k 24 4) })
        ∧ (x.1 = 8 → t.seqd n = { d with st := 2 })
        ∧ (x.1 ∉ [0, 6, 8] → t.seqd n = d)
        ∧ (t.part p).quar = (s.part p).quar
            ++ (if x.1 ∈ [3, 4, 8] then (s.editTakes p d k).map (fun b => ⟨b, n, d.gen + 1⟩) else [])
        ∧ (x.1 ∈ [5, 6, 7, 8] → t.mem = s.mem)
        ∧ (x.1 = 0 → (∀ o < 16 * pf k 40 1 * pf k 42 2, t.mem.get 0 (partPlace p.val (pa k 8 + o)) = 0)
            ∧ ∀ a, (∀ o < 16 * pf k 40 1 * pf k 42 2, partPlace p.val (pa k 8 + o) ≠ a) → t.mem.get 0 a = s.mem.get 0 a)
        ∧ (∀ g m kv, editEnts d k = [(g, m, kv)] → x.1 ∈ [2, 3, 4] → t.mem = (s.writeEnt p d g m kv { s.pageEnt p d g m kv with
            st := if x.1 = 2 then 1 else if x.1 = 3 then 2 else 0, gen := (d.gen + 1).toNat }).mem))
    ∧ (∀ ts, takes s q w e (.edit 9) k → starts (takeRead s (newPkt q w e (.edit 9) k) (workChecks (.edit 9) k)) →
      s.translateAll p w.ctx (addrRun (pa k 8) 64) = some ts → (placesOf ts).Nodup →
      ∃ t j, exec (.readSeq q k) s = .next t ∧ t.pkts = s.pkts ++ [j] ∧ packetAt q w e (.edit 9) k j ∧ queueMoved s t q w e
        ∧ t.bytesAt (placesOf ts) = s.descBytes p n ∧ t.seqs = s.seqs
        ∧ ∀ pl, pl ∉ placesOf ts → t.byteAt pl = s.byteAt pl)
    ∧ (∀ l, takes s q w e .serveReq k →
      let datum := match s.regionAt p w.ctx (pa k 8) with
        | some r => r.2.datum
        | none => false
      (∀ c ∈ serveDest k datum, c.2 = false) → (datum = true → 4096 * cdiv (farFoot k) 4096 ≤ pf k 40 4) →
      peerLink (BitVec.ofNat 32 (pf k 44 4)) = some l → s.granted p w.ctx l = true →
      ∃ t, exec (.pageServeRequest q k) s = .next t ∧ t.pkts = s.pkts ++ [newPkt q w e .serveReq k] ∧ queueMoved s t q w e
        ∧ t.mem = s.mem ∧ ∃ o ∈ (t.link l).ops ++ (t.link l).reqWait, o.who = (newPkt q w e .serveReq k).waiter
          ∧ o.msg.type = 6 ∧ o.msg.data = psReqData k datum)

/-- The 8-byte word at consecutive places from `k` is what an agent of a context reaches at a device address, in a region that
`ok` admits, and nothing holds the access up. -/
def wordReached (s : State) (p : Fin 4) (x : Fin 16) (a k : Nat) (write : Bool) (ok : Region → Bool) : Prop :=
  ∃ ts, s.access p x (addrRun a 8) ok = .ok ts ∧ placesOf ts = dramRun k 8 ∧ reaches s p write ts

/-- The 8-byte word at `k` has become `v`, and no other byte of stack memory has changed. -/
def wordBecomes (s t : State) (k v : Nat) : Prop :=
  t.wordAt k 8 = v ∧ ∀ a, a < k ∨ k + 8 ≤ a → t.mem.get 0 a = s.mem.get 0 a

/-- What a home slice does (R192, R293 to R300, R358): for an instance, a flag add, the test of a flag, the take and the give of a
semaphore; for a packet, a flag add, the test of a flag, the join of a lane. A flag below its target and a semaphore that is
held are registered. No other agent has a request out, so that the slice's arbiter grants this one (R196); the context's switch
is not deferred, and no other wait stands. -/
def Obligations.HomeOperations : Prop :=
  (∀ (s : State) (c : CoreId) (i : Inst) (sh : Share) (k : Nat), quietMemory s → (s.core c).share = some sh →
    (s.core c).inst i.id = some i → i.st = .waiting → s.enginesRun c = true → i.op.remote = false →
    s.draining c.p (s.instWaiter c i.id) = false → (s.ctx c.p sh.ctx).deferred = false →
    (∀ r ∈ s.homeReqs, r.agent = .inst c i.id) →
    let x := sh.ctx
    let a := i.op.addr 0 i.n
    let v := s.wordAt k 8
    let goal := i.op.x 0 + 4294967296 * i.op.x 1
    let done (t : State) : Prop := (t.core c).inst i.id = some { i with st := .ready }
    let waits (t : State) (f : WaitFor) : Prop := t.mem = s.mem
      ∧ (t.core c).inst i.id = some i ∧ t.waits = [⟨.inst c i.id, c.p, x, 0, 0, k, BitVec.ofNat 48 a, f⟩]
    (i.op.op = 0x18 → wordReached s c.p x a k true Region.atomicOk →
      ∃ t, exec (.homeOperation (.inst c i.id)) s = .next t ∧ done t ∧ wordBecomes s t k ((v + i.op.x 0) % 2 ^ 64))
    ∧ (i.op.op = 0x19 → wordReached s c.p x a k false Region.homed →
      (goal ≤ v → ∃ t, exec (.homeOperation (.inst c i.id)) s = .next t ∧ done t ∧ t.mem = s.mem)
      ∧ (v < goal → ∃ t, exec (.homeOperation (.inst c i.id)) s = .next t ∧ waits t (.flag (BitVec.ofNat 64 goal))))
    ∧ (i.op.op = 0x1B → wordReached s c.p x a k true Region.atomicOk → bit v 1 = false → semBad v = false →
      (bit v 0 = false → ∃ t, exec (.homeOperation (.inst c i.id)) s = .next t ∧ done t
        ∧ wordBecomes s t k (semTaken v (ctxNo c.p x))
        ∧ (t.ctx c.p x).held = (s.ctx c.p x).held ++ [(k, BitVec.ofNat 48 a)])
      ∧ (bit v 0 = true → ∃ t, exec (.homeOperation (.inst c i.id)) s = .next t ∧ waits t .sem))
    ∧ (i.op.op = 0x1C → wordReached s c.p x a k true Region.atomicOk → semBad v = false → bit v 0 = true →
      bits v 13 8 = ctxNo c.p x → ∃ t, exec (.homeOperation (.inst c i.id)) s = .next t ∧ done t ∧ wordBecomes s t k (semFreed v)
        ∧ (t.ctx c.p x).held = (s.ctx c.p x).held.filter (fun h => h.1 ≠ k)))
  ∧ (∀ (s : State) (q : Fin 256) (i : Word) (j : Pkt) (k : Nat), quietMemory s → s.pkts = [j] → j.q = q.val → j.i = i →
    j.lane < 3 → s.homeDue j = true → (∀ r ∈ s.homeReqs, r.agent = .packet q i) →
    let v := s.wordAt k 8
    (j.kind = .flagSet → wordReached s j.part j.ctx (pa j.pkt 8) k true Region.atomicOk →
      ∃ t, exec (.homeOperation (.packet q i)) s = .next t ∧ t.pkts = [{ j with effect := true }]
        ∧ wordBecomes s t k ((v + pf j.pkt 16 8) % 2 ^ 64))
    ∧ (j.kind = .flagWait → wordReached s j.part j.ctx (pa j.pkt 8) k false Region.homed →
      (pf j.pkt 16 8 ≤ v → ∃ t, exec (.homeOperation (.packet q i)) s = .next t ∧ t.pkts = [{ j with effect := true }]
        ∧ t.mem = s.mem)
      ∧ (v < pf j.pkt 16 8 → ∃ t, exec (.homeOperation (.packet q i)) s = .next t ∧ t.pkts = [j] ∧ t.mem = s.mem
          ∧ t.waits = [⟨.packet q i, j.part, j.ctx, j.lane, j.laneIdx, k,
            BitVec.ofNat 48 (pa j.pkt 8), .flag (BitVec.ofNat 64 (pf j.pkt 16 8))⟩]))
    ∧ (∀ l r, j.kind = .step → j.lanesDue = l :: r → wordReached s j.part j.ctx (pa j.pkt 24) k true Region.atomicOk →
      ∃ t, exec (.homeOperation (.packet q i)) s = .next t ∧ t.pkts = [{ j with joined := j.joined + l }]
        ∧ wordBecomes s t k ((v + 1) % 2 ^ 64)))

/-- A packet of a queue has nothing left to do: it has failed, or its own work is over. -/
def finished (j : Pkt) : Prop :=
  j.status ≠ .ok ∨ j.kind = .nop ∨ (j.kind = .run ∧ j.sharesLeft = 0)
    ∨ (j.kind ∈ [PktKind.flagSet, .flagWait, .fence, .serveReq] ∧ j.effect = true) ∨ (j.kind = .step ∧ j.joined = 3)
    ∨ ((j.kind = .appendKv ∨ ∃ o, j.kind = .edit o) ∧ j.cmdsLeft = 0)

/-- The end of the oldest packet of a queue (R263, R265, R375, R378): its reply slot is written with its status and detail, `HEAD`
moves past it, and then the head write-back is written where one is set. An append raises `LENGTH`, and an edit that changes
the table its sequence's generation. The packet asked for no interrupt, found no page missing, raises no record and no
release flag; of one that has failed no work goes on any more. -/
def Obligations.PacketCompletes : Prop :=
  ∀ (s : State) (q : Fin 256) (w : WorkQ) (j : Pkt), s.queue q = some w → s.pkts = [j] → j.q = q.val → j.i = w.head →
    j.part = w.part → j.ctx = w.ctx → j.lane = 0 → j.done = false → j.spans = [] → finished j →
    (s.ctx j.part j.ctx).st = .running → (s.part j.part).pll = .running → s.evLate = [] → (s.part j.part).relFlags = [] →
    bit (pf j.pkt 1 1) 1 = false → bit (pf j.pkt 37 1) 3 = false → (∀ o, j.kind = .edit o → o ≠ 5 ∧ lf j.args 0 8 = 0) →
    (j.status ≠ .ok → s.stillStops j = false) →
    ∃ t, exec (.packetComplete q w.head) s = .next t ∧ t.pkts = [] ∧ t.queue q = some { w with head := w.head + 1 }
      ∧ (∀ o, o ≠ q → t.queue o = s.queue o)
      ∧ t.cxlOut = s.cxlOut ++ [.write (w.base + 64 * (w.head.toNat % 2 ^ w.log2n) + 56) (replyBytes j.status j.detail)]
          ++ (if w.headWb = 0 then [] else [.write w.headWb (leBytes 4 (w.head + 1).toNat)])
      ∧ t.mem = s.mem
      ∧ (j.status = .ok → j.kind = .appendKv →
          (t.seqd (pf j.pkt 32 2)).length = BitVec.ofNat 32 (pf j.pkt 24 4 + pf j.pkt 28 4) ∨ (t.seqd (pf j.pkt 32 2)).st = 0)
      ∧ (∀ o, j.status = .ok → j.kind = .edit o → o ≠ 0 → o ≠ 9 →
          (t.seqd (j.seq.getD 0)).gen = (s.seqd (j.seq.getD 0)).gen + 1)

/-! ### Stacks -/

/-- The stack commands with their kinds (R220). -/
def stackCommands : List (StackKind × (Fin 12 → Fin 256 → Word → Nat → Instr)) :=
  [(.gemv, fun st q i _ => .gemvB st q i), (.attend, fun st q i g => .attendD st q i g), (.append, fun st q i _ => .append st q i),
    (.requant, fun st q i _ => .requant st q i), (.gather, fun st q i _ => .gather st q i)]

/-- The commands of a stack engine's queue, whatever has started of them (R219). -/
def inOrder (l : List StackCmd) : List StackCmd := l.map (fun m => { m with st := .queued })

/-- Stack commands (R217 to R220, R228, R229). A stack engine whose queue has room takes the next command of a packet that is
placed in its partition's stacks, behind those it has; it starts at once in an engine that has no other and whose vector cores
are not all gated, and waits while they are (R24). The completion of a `GATHER` of a `COPY` copies every byte of the gathered
rows that lies in the stack to its place in the destination and changes no other byte; that of an `ATTEND_D` whose group has
other commands left changes no memory; and the packet then awaits one command fewer. -/
def Obligations.StackCommands : Prop :=
  (∀ x ∈ stackCommands, ∀ (s : State) (st : Fin 12) (q : Fin 256) (i : Word) (g : Nat) (j : Pkt),
    (x.1 = .attend ∨ g = 0) → s.pkts = [j] → j.q = q.val → j.i = i → j.lane < 3 → kindIssues x.1 j.kind = true →
    s.live j = true → j.inStacks = true → planKey x.1 j st g ∈ j.plan → ownerOfStack st = j.part → (s.stack st).queue.length < 64 →
    ∃ t, exec (x.2 st q i g) s = .next t ∧ t.pkts = [{ j with plan := j.plan.erase (planKey x.1 j st g) }]
      ∧ (let c : StackCmd := ⟨x.1, j.q, j.i, j.lane, j.laneIdx, g, .queued, 0⟩
        inOrder (t.stack st).queue = inOrder ((s.stack st).queue ++ [c])
          ∧ ((s.stack st).gates = 15 → (t.stack st).queue = (s.stack st).queue ++ [c])
          ∧ ((s.stack st).gates ≠ 15 → (s.stack st).queue = [] → (t.stack st).queue = [{ c with st := .running }]))
      ∧ { t.stack st with queue := (s.stack st).queue } = s.stack st ∧ (∀ o, o ≠ st → t.stack o = s.stack o) ∧ { t with pkts := s.pkts, stks := s.stks } = s)
  ∧ (∀ (s : State) (st : Fin 12) (n : Nat) (m : StackCmd) (j : Pkt), (s.stack st).queue[n]? = some m → s.pkts = [j] → m.of j = true →
    (∀ o ∈ (s.stack st).queue.take n, o.of j = false) → m.st = .running → (s.stack st).gates ≠ 15 → s.live j = true →
    s.hk.flips = [] →
    let ends (t : State) : Prop := inOrder (t.stack st).queue = inOrder ((s.stack st).queue.erase m)
      ∧ t.pkts = [{ j with cmdsLeft := j.cmdsLeft - 1 }]
    (∀ ts tw, m.kind = .gather → j.kind = .copy → m.done = 0 → quietMemory s → reaches s j.part true tw →
      s.access j.part j.ctx ((s.gatherPairs j st).map Prod.snd) (fun r => r.kind = .bank) = .ok ts →
      s.access j.part j.ctx ((s.gatherPairs j st).map Prod.fst) (Region.writable false) = .ok tw → (placesOf tw).Nodup →
      ∃ t, exec (.stackCommandComplete st n) s = .next t ∧ ends t ∧ t.bytesAt (placesOf tw) = s.bytesAt (placesOf ts)
        ∧ ∀ pl, pl ∉ placesOf tw → t.byteAt pl = s.byteAt pl)
    ∧ (m.kind = .attend → j.kind = .attend → s.groupOpen j m = true →
      ∃ t, exec (.stackCommandComplete st n) s = .next t ∧ ends t ∧ t.mem = s.mem))

/-- The first byte of column `k` of a step on a bank pair (R165, R202). -/
def stepColumn (u : UnitId) (pair : Nat) (t : Step) (k : Nat) : Nat :=
  physKey u.s.val u.d.val pair t.bank.val t.row.toNat (32 * (t.first.toNat + k))

/-- A step of a unit starts now (R204, R210, R214 to R216, R233): it is the next of the unit's program, its wave and its slot let it,
nothing holds it, and it meets no parity fault. -/
def stepStarts (s : State) (u : UnitId) (pair : Nat) (st : Step) : Prop :=
  s.mayStep u st = true ∧ s.pairOf u = some pair ∧ s.refreshHolds u = false ∧ (s.unit u).parityFault st = false ∧ s.memErr = []
    ∧ s.hk.flips = []

/-- A program beat gives a unit a program in a wave (R216). -/
def joins (s : State) (u : UnitId) (b : Beat) : Prop :=
  (s.joinWave u b.wave (b.program.any (fun t => t.kind = .write))).isSome = true

/-- Bank units. A dot step opens and waits for operands; a `COPY` step sends two flits for each of its columns, with the bytes as
stored; a `WRITE` step that one fill of the register file serves writes its columns from it, and changes no other byte; a step
that ends leaves the unit between steps, or out of its run after the last (R203 to R205, R209). An addressed beat fills the
register file, the scales or, in a wave, one half of the program of a unit that is in service; a half that arrives during a run is
kept for its end; a unit's oldest flit leaves its queue, and a report of a corrected word enters an empty ledger once its run
has ended (R204, R208 to R211, R216, R235, R240). -/
def Obligations.BankUnits : Prop :=
  (∀ (s : State) (u : UnitId) (pair : Nat) (st : Step), stepStarts s u pair st →
    let x := s.unit u
    let goesOn (t : State) (st : Step) : Prop := st.runEnd = false → (x.program.get none (x.pc + 1).toNat).isSome = true →
      (t.unit u).pc = x.pc + 1
    (st.kind = .read → st.outer = false → ∃ t, exec (.readStep u st) s = .next t
      ∧ t.unit u = { x.openStep st with waveStep := (t.unit u).waveStep, st := .step, cur := some st, beats := 0 }
      ∧ { t with stks := s.stks } = s)
    ∧ (st.kind = .copy → ∃ t fs, exec (.copyStep u st) s = .next t ∧ (t.unit u).outQ = x.outQ ++ fs
      ∧ fs.length = 2 * st.count
      ∧ (∀ n f, fs[n]? = some f → f.unit = u.u ∧ f.kind = 2 ∧ f.poison = false
          ∧ f.payload.toNat = leNat (s.mem.getMany 0 (stepColumn u pair st (n / 2) + 16 * (n % 2)) 16))
      ∧ (t.unit u).inRun = !st.runEnd ∧ goesOn t st ∧ { t with stks := s.stks } = s)
    ∧ (st.kind = .write → st.count ≤ 16 → writeCost st ≤ 64 → (∀ k < st.count, st.bytes.getD k 0 = 0xFFFFFFFF#32) →
      ∃ t, exec (.writeStep u st) s = .next t ∧ (t.unit u).inRun = !st.runEnd ∧ goesOn t st
        ∧ (∀ k < st.count, t.mem.getMany 0 (stepColumn u pair st k) 32 = x.fileBytes k)
        ∧ ∀ a, a < stepColumn u pair st 0 ∨ stepColumn u pair st 0 + 32 * st.count ≤ a → t.mem.get 0 a = s.mem.get 0 a))
  ∧ (∀ (s : State) (st : Fin 12) (d : Fin 16) (n : Fin 68),
    let u : UnitId := ⟨st, d, n⟩
    let x := s.unit u
    (∀ b : Beat, b.dest = some n → x.out = false → s.hk.flips = [] → (∀ m, (s.unit ⟨st, d, m⟩).ahead = none) →
      (b.what = 0 → x.cur = none → ∃ t, exec (.beat st d b) s = .next t
        ∧ ∀ l < 8, (t.unit u).regFile.get 0 l = b.data.extractLsb' (512 * l) 512)
      ∧ (b.what = 1 → ∃ t, exec (.beat st d b) s = .next t
        ∧ t.unit u = { x with scales := b.data, parBad := x.parBad.clear 512 1024 })
      ∧ (b.what = 2 → joins s u b → x.inRun = false → ∃ t, exec (.beat st d b) s = .next t
        ∧ (∀ k < 32, (t.unit u).program.get none ((if b.half then 32 else 0) + k) = b.program[k]?)
        ∧ (∀ k < 32, (t.unit u).program.get none ((if b.half then 0 else 32) + k)
            = x.program.get none ((if b.half then 0 else 32) + k)))
      ∧ (b.what = 2 → joins s u b → x.inRun = true → ∃ t, exec (.beat st d b) s = .next t
        ∧ (t.unit u).loads = x.loads ++ [(b.half, b.program)] ∧ (t.unit u).program = x.program ∧ (t.unit u).inRun = true))
    ∧ (∀ (f : Flit) (rest : List Flit), f.unit = n → x.outQ = f :: rest →
      (f.kind ≠ 3 → ∃ t, exec (.flit st d f) s = .next t ∧ (t.unit u).outQ = rest ∧ { t with stks := s.stks } = s)
      ∧ (f.kind = 3 → x.outQ.length ≤ x.emitted → ∃ t, exec (.flit st d f) s = .next t ∧ (t.unit u).outQ = rest
        ∧ (t.unit u).reports = x.reports ++ [f.payload.toNat] ∧ (t.stack st).ledger = (s.stack st).ledger)
      ∧ (f.kind = 3 → x.emitted < x.outQ.length → f.payload.toNat / 2 ^ 124 = 1 → (s.stack st).ledger = [] →
        let r := f.payload.toNat
        ∃ t y, exec (.flit st d f) s = .next t ∧ (t.unit u).outQ = rest ∧ (t.stack st).ledger = [(0, some y)]
          ∧ y.die.toNat = bits r 4 1 ∧ y.unit.toNat = bits r 11 5 ∧ y.bank.val = bits r 12 12 ∧ y.row.toNat = bits r 26 13
          ∧ y.column.toNat = bits r 32 27 ∧ y.word.toNat = bits r 35 33 ∧ y.count = 1)))

/-- Upkeep of a stack (R232, R233, R235, R241, R242, R395, R396, R405, R408): a unit whose run does not end is bypassed or being
replaced; a finished migration retires it, its pair's addresses lead to the spare, and no error but poison is left in the pair; a
visit between a unit's programs frees its ledger entries; a refresh of a bank that a step holds is owed, up to eight in a
pseudo-channel, any other changes nothing; a visit of the scrubber, or the end of a row's copy between steps, leaves no error in
the row but poison. -/
def Obligations.StackUpkeep : Prop :=
  ∀ (s : State),
    (∀ u : UnitId, (s.unit u).inRun = true → (s.unit u).out = false → ∃ t, exec (.unitRunTimeout u) s = .next t
      ∧ (t.unit u).out = true ∧ (t.unit u).inRun = false ∧ (t.unit u).outQ = [] ∧ t.mem = s.mem)
    ∧ (∀ (st : Fin 12) (d : Fin 16) (j : Fin 4),
      let k := s.stack st
      let sp := k.spares.get SparePair.reset (4 * d.val + j.val)
      let pair := 64 * d.val + sp.replaced.toNat
      sp.inUse = true → k.migrating.get false pair = true →
      (s.memErr = [] → ∃ t, exec (.migrationComplete st d j) s = .next t
        ∧ t.pairOf ⟨st, d, ⟨64 + j.val, by omega⟩⟩ = some sp.replaced.toNat
        ∧ (t.unit ⟨st, d, ⟨sp.replaced.toNat, by omega⟩⟩).st = .retired
        ∧ (sp.failed = false → (t.stack st).proxied.get false pair = false) ∧ t.mem = s.mem)
      ∧ ∃ t, exec (.migrationComplete st d j) s = .next t ∧ ∀ w, keyStack (4 * w) = st.val → keyDie (4 * w) = d.val → keyPair (4 * w) = sp.replaced.toNat →
          eccOf (t.memErr.get 0 w) = .good ∨ eccOf (t.memErr.get 0 w) = .poison)
    ∧ (∀ u : UnitId, (s.unit u).begun = false → ∃ t, exec (.ledgerVisit u) s = .next t
      ∧ ∀ n y, (s.stack u.s).ledger.get none n = some y → y.die.toNat = u.d.val → y.unit.toNat = u.u.val →
        (t.stack u.s).ledger.get none n = none)
    ∧ (∀ (st : Fin 12) (h : Fin 64) (k : Fin 32),
      let u := s.servedBy ⟨st, ⟨h.val / 4, by omega⟩, ⟨16 * (h.val % 4) + k.val / 2, by omega⟩, ⟨k.val % 2, by omega⟩, 0⟩
      let holds (e : Step) : Prop := ((s.unit u).cur = some e ∨ (s.unit u).ahead = some e) ∧ e.bank.val = k.val % 2
      ((∀ e, ¬ holds e) ∨ 8 ≤ (s.stack st).owed h.val → exec (.refresh st h k) s = .next s)
      ∧ (∀ e, holds e → (s.stack st).owed h.val < 8 → ∃ t, exec (.refresh st h k) s = .next t
          ∧ (t.stack st).postponed.get 0 (32 * h.val + k.val) = 1 ∧ { t with stks := s.stks } = s))
    ∧ (∀ r : RowId,
      let word (n : Nat) : Nat := physKey r.s.val r.d.val r.pair.val r.bank.val r.row.toNat 0 / 4 + n
      let clean (t : State) : Prop := ∀ n < 512, eccOf (t.memErr.get 0 (word n)) = .good ∨ eccOf (t.memErr.get 0 (word n)) = .poison
      ((s.stack r.s).scrubEn = true → (∀ n, (s.unit ⟨r.s, r.d, n⟩).inRun = true → s.pairOf ⟨r.s, r.d, n⟩ ≠ some r.pair.val) →
        ¬ (s.hk.mtBusy = true ∧ s.hk.mtStacks.getLsbD r.s.val = true) →
        r.key ∉ (s.stack r.s).visited → (s.stack r.s).visited.length + 1 < rowsOfStack →
        ∃ t, exec (.scrubVisit r) s = .next t ∧ clean t ∧ (t.stack r.s).visited = (s.stack r.s).visited ++ [r.key])
      ∧ (s.bankOpen (4 * word 0) = false → (∃ m ∈ (s.stack r.s).remaps, m.row = r ∧ m.done = false) → ∃ t, exec (.rowRemapComplete r) s = .next t ∧ clean t
          ∧ (∀ m ∈ (t.stack r.s).remaps, m.row = r → m.done = true)
          ∧ (t.stack r.s).remapLive = satAdd (s.stack r.s).remapLive 1))

/-! ### The host -/

/-- CXL.mem is served (R26, R231, R418, R439, R442): the device is READY, no memory test runs, every core PLL runs, no partition is
being reset, no bank unit holds a bank open, no back-invalidation is outstanding, and memory holds no error. -/
def hostServed (s : State) : Prop :=
  s.hi.st = .ready ∧ s.hk.mtBusy = false ∧ (∀ p, (s.part p).pll = .running ∧ (s.part p).resetting = false)
    ∧ (∀ u, (s.unit u).cur = none ∧ (s.unit u).ahead = none) ∧ s.backInv = [] ∧ s.memErr = []

/-- The host's reads and writes through BAR2 (R367, R368, R370, R418), its answers to back-invalidations and completions, the
attach (R363, R365, R390), whose lane repairs enter the Cadastre (R427). A read returns what is stored, all ones where nothing backs an address, and records the lines of
PART and DEV memory as held; while the device is STARTING or RESETTING it returns all ones with poison. A write changes the
bytes it reaches and no others, and so do a response's data, where the line was held exclusive (the model's choice, log 37).
Both while nothing holds a request up: no PLL on the way, no partition in reset, no bank held open (R26, R231, R439, R442). An
access beyond BAR2, and a write of a reserved area outside every table pool, stop with a fault of their own (log 37). -/
def Obligations.HostAccess : Prop :=
  ∀ (s : State),
    (∀ off n excl, hostServed s → off + n ≤ 2 ^ 40 → ∃ t bs, exec (.hostMemRead off n excl) s = .next t
      ∧ t.hostRsp = some (bs, false) ∧ bs.length = n
      ∧ (∀ j < n, bs[j]? = some (match s.hostPlace (off + j) with
          | some e => s.mem.get 0 e.1
          | none => 0xFF#8))
      ∧ (∀ j < n, ∀ k, s.hostPlace (off + j) = some (k, true) → t.hostDir.get 0 (k / 128) = if excl then 2 else 1)
      ∧ t.mem = s.mem)
    ∧ (∀ off n excl, off + n ≤ 2 ^ 40 → s.hi.st = .starting ∨ s.hi.st = .resetting →
      exec (.hostMemRead off n excl) s = .next { s with
        hostRsp := some (List.replicate n 0xFF#8, true), hi := { s.hi with entries := s.hi.entries + 1 } })
    ∧ (∀ off (data : List Byte) excl, hostServed s → s.hk.flips = [] → s.waits = [] → off + data.length ≤ 2 ^ 40 →
      (∀ j < data.length, s.reservedAt (off + j) = false) →
      (∀ i < data.length, ∀ j < data.length, i ≠ j → ∀ k b c, s.hostPlace (off + i) = some (k, b) → s.hostPlace (off + j) ≠ some (k, c)) →
      ∃ t, exec (.hostMemWrite off data false excl) s = .next t
        ∧ (∀ j < data.length, ∀ k b, s.hostPlace (off + j) = some (k, b) → some (t.mem.get 0 k) = data[j]?)
        ∧ ∀ a, (∀ j < data.length, ∀ b, s.hostPlace (off + j) ≠ some (a, b)) → t.mem.get 0 a = s.mem.get 0 a)
    ∧ (∀ off n excl, 2 ^ 40 < off + n → exec (.hostMemRead off n excl) s = .fault .beyondBar2)
    ∧ (∀ off (data : List Byte) poison excl, 2 ^ 40 < off + data.length →
      exec (.hostMemWrite off data poison excl) s = .fault .beyondBar2)
    ∧ (∀ off (data : List Byte) poison excl j, off + data.length ≤ 2 ^ 40 → s.hi.st = .ready → j < data.length →
      s.reservedAt (off + j) = true → exec (.hostMemWrite off data poison excl) s = .fault .reservedAreaWrite)
    ∧ (∀ a, exec (.hostSnoop a) s = .next s)
    ∧ (∀ (m : BitVec 4) (r : BitVec 2) (rep : BitVec 16), r ≠ 0 → r ≠ 3 → ∃ t, exec (.ucieTrained m r rep) s = .next t
      ∧ (m = 15 → t.hi.modules = 15) ∧ (m ≠ 15 → m.getLsbD 0 = true → m.getLsbD 1 = true → t.hi.modules = 3)
      ∧ (¬ (m.getLsbD 0 = true ∧ m.getLsbD 1 = true) → m.getLsbD 2 = true → m.getLsbD 3 = true → t.hi.modules = 12)
      ∧ t.hi.rate = (if t.hi.modules = 0 then 0 else r) ∧ t.hi.repairs = rep
      ∧ (rep ≠ 0 → t.hi.err.getLsbD 1 = true)
      ∧ (t.hi.modules ≠ 0 → t.hi.modules ≠ 15 ∨ r = 1 → t.hi.err.getLsbD 2 = true)
      ∧ t.mem = s.mem ∧ t.cores = s.cores ∧ t.hk = s.hk
      ∧ (rep = 0 → { t with
          freeCtr := s.freeCtr
          hi := { t.hi with modules := s.hi.modules, rate := s.hi.rate, repairs := s.hi.repairs, err := s.hi.err } } = s)
      ∧ ∀ n < 4, bits rep.toNat (4 * n + 3) (4 * n) ≠ 0 →
          ∃ e ∈ t.cad.list.entries ++ t.cad.runtime ++ t.cad.tested, e.kind = 8 ∧ e.a 0 = n)
    ∧ (∀ (m : BitVec 4) (rep : BitVec 16), ∃ t, exec (.ucieTrained m 0 rep) s = .next t ∧ t.hi.modules = 0 ∧ t.hi.rate = 0)
    ∧ (∀ a bs rest, s.cxlOut = .write a bs :: rest → ∃ t, exec .hostCxlCompletion s = .next t ∧ t.cxlOut = rest
      ∧ t.hostMem.getMany 0 a bs.length = bs ∧ { t with cxlOut := s.cxlOut, hostMem := s.hostMem } = s)
    ∧ (∀ v rest, s.cxlOut = .irq v :: rest → (s.msix.get ⟨0, 0, true⟩ v).masked = false →
      exec .hostCxlCompletion s = .next { s with cxlOut := rest, irqSent := s.irqSent ++ [v] })
    ∧ (∀ line, s.backInv.contains line = true → s.hi.waiting = [] →
      (∃ t, exec (.backInvalidationResponse line none) s = .next t ∧ t.backInv = s.backInv.erase line
        ∧ t.hostDir.get 0 line = 0 ∧ t.mem = s.mem)
      ∧ (∀ bs, bs.length = 128 → s.hostDir.get 0 line = 2 → s.hk.flips = [] → s.waits = [] →
        ∃ t, exec (.backInvalidationResponse line (some bs)) s = .next t ∧ t.backInv = s.backInv.erase line
          ∧ t.hostDir.get 0 line = 0 ∧ t.mem.getMany 0 (128 * line) 128 = bs
          ∧ ∀ a, a < 128 * line ∨ 128 * line + 128 ≤ a → t.mem.get 0 a = s.mem.get 0 a))

/-! ### Links -/

/-- A message of a type arrives over an ACTIVE link whose receive buffers are empty, in a partition whose core PLL runs. -/
def arrives (s : State) (l : Fin 48) (m : Msg) (type : Nat) : Prop :=
  (s.link l).st = .active ∧ (s.link l).rx = [] ∧ (s.part (ownerOfLink l)).pll = .running ∧ m.type = type

/-- A message is on its way to the peer: it waits for credit, or lies in a frame that the peer has not acknowledged. -/
def goesOut (t : State) (l : Fin 48) (r : Msg) : Prop := r ∈ (t.link l).txQ ∨ ∃ f ∈ (t.link l).retry, r ∈ f.msgs

/-- A reply to message `m` goes out: of a type, with a reason, `m`'s tag and the data given (R324, R326). -/
def replied (t : State) (l : Fin 48) (m : Msg) (type reason : Nat) (data : List Byte) : Prop :=
  ∃ r, goesOut t l r ∧ r.type = type ∧ r.tag = m.tag ∧ r.op = reason ∧ r.data = data

/-- The page arrays of a partition's regions lie apart from translated places. -/
def tablesApart (s : State) (p : Fin 4) (ts : List Xlat) : Prop :=
  ∀ n r, (s.part p).regions.get none n = some r → ∀ o < 4 * r.size.toNat, Place.dram (partPlace p.val (r.parray.toNat + o)) ∉ placesOf ts

/-- Requests of a peer to memory, flags and pages (R92, R294, R320, R322, R325, R326, R330, R334): a read is answered with the bytes
stored, of a Datum-checked region in whole blocks alone; a write stores its data, and nothing else changes; each element of a raw
reduction is combined with its target; a flag add adds; each is acknowledged. A write that R322 refuses changes no memory, and its
reason goes back. A page-serve request is queued for its context; a drain marker goes back once nothing arrived before it is left.
The message has not been accepted before, and nothing holds its access up. -/
def Obligations.PeerRequests : Prop :=
  ∀ (s : State) (l : Fin 48) (m : Msg), quietMemory s →
    let p := ownerOfLink l
    let run := addrRun m.addr (32 * m.len)
    let plain : Prop := (s.link l).landed = [] ∧ s.readParked l m = false ∧ s.denies l m = 0 ∧ m.rdatum = false ∧ m.poison = false ∧ m.coded = false ∧ mdatBad m = false
    (∀ ts, arrives s l m 0x01 → plain → s.reach l m run (fun r => !r.datum || blockMsg m) = .ok ts → reaches s p false ts →
      ∃ t, exec (.rdReq l m) s = .next t ∧ replied t l m 0x02 0 (s.bytesAt (placesOf ts)) ∧ t.mem = s.mem)
    ∧ (∀ ts, arrives s l m 0x03 → plain → s.reach l m run (Region.writable false) = .ok ts → reaches s p true ts →
      (placesOf ts).Nodup →
      ∃ t, exec (.wrMsg l m) s = .next t ∧ replied t l m 0x09 0 [] ∧ t.bytesAt (placesOf ts) = m.data
        ∧ ∀ pl, pl ∉ placesOf ts → t.byteAt pl = s.byteAt pl)
    ∧ (∀ r, arrives s l m 0x03 → (s.link l).landed = [] → s.denies l m = r → r ≠ 0 →
      ∃ t, exec (.wrMsg l m) s = .next t ∧ replied t l m 0x09 r [] ∧ t.mem = s.mem
        ∧ (t.link l).refused = satAdd (s.link l).refused 1)
    ∧ (∀ ts, arrives s l m 0x04 → plain → s.reach l m run Region.atomicOk = .ok ts → reaches s p true ts →
      (placesOf ts).Nodup → tablesApart s p ts →
      let z := rawWidth m.target / 8
      let elem (bs : List Byte) (n : Nat) : Nat := leNat ((bs.drop (n * z)).take z)
      ∃ t, exec (.redMsg l m) s = .next t ∧ replied t l m 0x09 0 []
        ∧ (∀ n < 32 * m.len / z, elem (t.bytesAt (placesOf ts)) n
            = combine (m.op % 4) m.target (elem (s.bytesAt (placesOf ts)) n) (elem m.data n))
        ∧ ∀ pl, pl ∉ placesOf ts → t.byteAt pl = s.byteAt pl)
    ∧ (∀ k, arrives s l m 0x05 → plain → m.addr % 8 = 0 → wordReached s p m.dctx m.addr k true Region.atomicOk →
      ∃ t, exec (.flagAdd l m) s = .next t ∧ replied t l m 0x09 0 [] ∧ wordBecomes s t k ((s.wordAt k 8 + m.value) % 2 ^ 64))
    ∧ (arrives s l m 0x06 → plain → s.seqDenied p m.dctx (lf m.data 0 2) = false → (s.part p).serveQ.length < 64 →
      (s.part p).cur = none → ∃ t, exec (.psReq l m) s = .next t ∧ replied t l m 0x09 0 []
        ∧ (t.part p).serveQ = (s.part p).serveQ ++ [(l.val, m.dctx.val, m.data)] ∧ t.mem = s.mem)
    ∧ (arrives s l m 0x0A → (s.link l).chunk = [] → ∃ t, exec (.drainMsg l m) s = .next t ∧ replied t l m 0x0B 0 [] ∧ t.mem = s.mem)

/-- Collectives and replies (R282, R319, R326, R336, R337, R354). A raw `SHARD` writes those of its elements that lie in the
receive tensor of its collective, and nothing else; an `END` crosses its sender off the list, and the collective's own
work is done once that is empty; an `ACK` frees its request's reservation and is the end of a remote `FLAG_SET`, or fails its
packet, or, as `NOT_READY`, has the message sent again; a read's data come to the instance that asked (a coded `LOAD` may then ask for
more, R156); a returned drain marker ends the release that sent it; and the reply or `END` of a context that is out goes to its
mailbox. -/
def Obligations.PeerReplies : Prop :=
  (∀ (s : State) (l : Fin 48) (m : Msg) (k : Pkt) (ts tw : List Xlat), arrives s l m 0x07 → quietMemory s →
    s.shardReason l m = .ok k → (s.link l).landed = [] → mdatBad m = false → m.coded = false → m.poison = false →
    bit (pf k.pkt 37 1) 0 = false →
    let w := (shardDesc k.recvBytes).w
    let us := shardUpdates k.recvBytes (m.data.take 32) (fun n => bitsAt (m.data.drop 32) (n * w) w)
    let tbl : Tbl Byte := us.foldl (fun t u => putBits (s.devBytes k) t u.1 w u.2) []
    s.reach l m ((us.flatMap (fun u => bitBytes u.1 w)).dedup) (Region.writable false) = .ok ts →
    reaches s (ownerOfLink l) true ts → s.translateAll (ownerOfLink l) m.dctx (tbl.map Prod.fst) = some tw → (placesOf tw).Nodup →
    ∃ t, exec (.shard l m) s = .next t ∧ replied t l m 0x09 0 [] ∧ t.bytesAt (placesOf tw) = tbl.map Prod.snd
      ∧ ∀ pl, pl ∉ placesOf tw → t.byteAt pl = s.byteAt pl)
  ∧ (∀ (s : State) (l : Fin 48) (m : Msg) (c : Coll) (k : Pkt), arrives s l m 0x08 → s.denies l m = 0 → s.colls = [c] →
    s.pkts = [k] → s.collAt (ownerOfLink l) m.dctx (m.value % 65536) = some c → s.collPkt c = some k → k.status = .ok →
    k.parked = false → k.done = false → k.joined = 3 → (s.ctx k.part k.ctx).st = .running → s.awaiting k.part k.waiter = false →
    (s.ctx (ownerOfLink l) m.dctx).st = .running → (∀ x ∈ linksOf k.part, (s.link x).landed = []) →
    let left := c.endIn.erase (m.src, l.val)
    ∃ t, exec (.collectiveEnd l m) s = .next t ∧ replied t l m 0x09 0 [] ∧ t.colls = [{ c with endIn := left }]
      ∧ t.pkts = [if left = [] then { k with effect := true } else k] ∧ t.mem = s.mem)
  ∧ (∀ (s : State) (l : Fin 48) (m : Msg) (c : Coll), arrives s l m 0x08 → s.denies l m = 0 →
    s.collAt (ownerOfLink l) m.dctx (m.value % 65536) = some c → (s.ctx (ownerOfLink l) m.dctx).st ≠ .running →
    ∃ t o, exec (.collectiveEnd l m) s = .next t ∧ replied t l m 0x09 0 [] ∧ t.colls = s.colls ∧ t.pkts = s.pkts
      ∧ (t.ctx (ownerOfLink l) m.dctx).mail = (s.ctx (ownerOfLink l) m.dctx).mail ++ [⟨l, o, m⟩])
  ∧ (∀ (s : State) (l : Fin 48) (m : Msg) (o : RemoteOp), (s.link l).ops = [o] → o.tag.toNat = m.tag → (s.link l).reqWait = [] →
    let freed (t : State) : Prop := (t.link l).ops = [] ∧ (t.link l).rspRes = (s.link l).rspRes - 32 * o.msg.replyUnits
    (∀ k, arrives s l m 0x09 → s.pkts = [k] → k.kind = .flagSet → k.q < 256 → k.lane < 3 → o.who = k.waiter →
      (s.ctx k.part k.ctx).st = .running →
      (m.op = 0 → ∃ t, exec (.ackMsg l m) s = .next t ∧ freed t ∧ t.pkts = [{ k with effect := true }] ∧ t.mem = s.mem)
      ∧ (m.op ≠ 0 → m.op ≠ 6 → ∃ t j, exec (.ackMsg l m) s = .next t ∧ freed t ∧ t.pkts = [j] ∧ j.status = .failed))
    ∧ (arrives s l m 0x09 → m.op = 6 → ∃ t, exec (.ackMsg l m) s = .next t ∧ (t.link l).ops = [{ o with resend := true }]
      ∧ (t.link l).rspRes = (s.link l).rspRes ∧ t.pkts = s.pkts)
    ∧ (o.resend = true → ∃ t, exec (.notReadyResend l o.tag) s = .next t ∧ (t.link l).ops = [{ o with resend := false }]
      ∧ goesOut t l o.msg)
    ∧ (∀ (c : CoreId) (i : Inst), arrives s l m 0x02 → m.op = 0 → mdatBad m = false → m.poison = false →
      (s.core c).inst i.id = some i → i.buf = [] → o.who = s.instWaiter c i.id → (s.ctx c.p o.who.ctx).st = .running →
      ∃ t j, exec (.rdRsp l m) s = .next t ∧ (i.op.spCoded = false → freed t) ∧ (t.core c).inst i.id = some j
        ∧ (∀ n < m.data.length, m.data[n]? = some (j.buf.get 0 (o.msg.addr + n))) ∧ t.mem = s.mem)
    ∧ (arrives s l m 0x09 → m.op ≠ 6 → o.who.lane ≠ 3 → (s.ctx o.who.part o.who.ctx).st ≠ .running →
      ∃ t, exec (.ackMsg l m) s = .next t ∧ freed t ∧ t.pkts = s.pkts
        ∧ (t.ctx o.who.part o.who.ctx).mail = (s.ctx o.who.part o.who.ctx).mail ++ [⟨l, o, m⟩]))
  ∧ (∀ (s : State) (l : Fin 48) (m : Msg) (k : Pkt) (rest : List Waiter), arrives s l m 0x0B → s.pkts = [k] → k.kind = .fence →
    k.q < 256 → k.lane < 3 → (s.link l).drains = k.waiter :: rest → k.waiter ∉ rest →
    (∀ x ∈ linksOf k.part, x ≠ l → k.waiter ∉ (s.link x).drains) → (s.ctx k.part k.ctx).st = .running →
    ∃ t, exec (.drainRet l m) s = .next t ∧ (t.link l).drains = rest ∧ t.pkts = [{ k with effect := true }] ∧ t.mem = s.mem)

/-- Links (R311 to R318). Frames: a good, expected DATA frame is accepted, its messages join the receive buffers and its credit
comes back up to the peer's buffers; a bad or unexpected one is discarded and asks for a resend; an IDLE frame returns credit
alone. Training: the transitions of R311, lanes retired in training and by R314, the spare lane that takes a retired one's
place where it guards the link (the moments at which `LK_STATUS` takes its width, log 47); this end's `IDENT`, and identities that
are accepted, with the incarnation met before or afresh with another (R317), or miswired (the places of `IDENT`'s fields, log 28). -/
def Obligations.LinkFramesAndTraining : Prop :=
  ∀ (s : State) (l : Fin 48),
    let k := s.link l
    let gives (i : Instr) (k' : Link) : Prop := ∃ t, exec i s = .next t ∧ t.link l = k' ∧ (∀ o, o ≠ l → t.link o = s.link o)
      ∧ { t with links := s.links } = s
    let returned (t : State) (f : Frame) : Prop := (t.link l).credReq = min 512 (k.credReq + fhdr f 4 2)
      ∧ (t.link l).credRsp = min 4096 (k.credRsp + fhdr f 6 2) ∧ (t.link l).credBulk = min 4096 (k.credBulk + fhdr f 8 2)
      ∧ (t.link l).credCtl = min 128 (k.credCtl + fhdr f 10 2)
    (∀ f : Frame, k.st = .active →
      (frameBad f 0 = false → fhdr f 0 2 % 4096 = k.rxSeq.toNat → bit (fhdr f 2 2) 12 = false → k.txQ = [] → k.rxPart = [] →
        (∀ m ∈ (cutMsgs ((f.body.drop (32 * fhdr f 12 2)).length / 32 + 1) (f.body.drop (32 * fhdr f 12 2))).1, m.known = true) →
        ∃ t, exec (.dataFrame l f) s = .next t ∧ (t.link l).rxSeq = k.rxSeq + 1 ∧ (t.link l).nak = false ∧ returned t f
          ∧ (t.link l).rx = k.rx ++ (cutMsgs ((f.body.drop (32 * fhdr f 12 2)).length / 32 + 1) (f.body.drop (32 * fhdr f 12 2))).1
          ∧ t.mem = s.mem)
      ∧ (frameBad f 0 = true ∨ fhdr f 0 2 % 4096 ≠ k.rxSeq.toNat → ∃ t, exec (.dataFrame l f) s = .next t
        ∧ (t.link l).nak = true ∧ (t.link l).rxSeq = k.rxSeq ∧ (t.link l).rx = k.rx ∧ { t with links := s.links } = s)
      ∧ (frameBad f 1 = false → bit (fhdr f 2 2) 12 = false → k.txQ = [] → ∃ t, exec (.idleFrame l f) s = .next t
        ∧ (t.link l).rxSeq = k.rxSeq ∧ (t.link l).rx = k.rx ∧ returned t f ∧ { t with links := s.links } = s)
      ∧ (frameBad f 1 = true → ∃ t, exec (.idleFrame l f) s = .next t
        ∧ (t.link l).nak = true ∧ (t.link l).rxSeq = k.rxSeq ∧ (t.link l).rx = k.rx ∧ { t with links := s.links } = s))
    ∧ (k.st = .detect → gives (.signalDetected l) { k with st := .train })
    ∧ (∀ sw pol delay, k.st = .train ∨ k.st = .retrain → k.canRun = true → gives (.lanesConverged l sw pol delay) { k with
        st := .align, swapped := sw, rxpol := pol, delay := delay, width := BitVec.ofNat 2 k.lanes })
    ∧ (k.st = .align → ∃ t i, exec (.codewordLock l) s = .next t
      ∧ t.link l = { k with st := .identify, sentIdent := some i } ∧ i.type = 0x0C ∧ i.src = s.devId.toNat
      ∧ i.value = l.val + 64 * (if k.guarded then 1 else 0) + 2 ^ 32 * s.inc.toNat
      ∧ (∀ o, o ≠ l → t.link o = s.link o) ∧ { t with links := s.links } = s)
    ∧ (k.st = .miswired → gives (.miswireTimeout l) { k with st := .detect, width := 0 })
    ∧ (k.st = .train ∨ k.st = .retrain → ∃ t, exec (.linkTrainTimeout l) s = .next t
      ∧ t.link l = { k with st := .detect, downRaised := true, width := 0 }
      ∧ (k.downRaised = true → { t with links := s.links } = s))
    ∧ (∀ n : Fin 2, k.st = .train ∨ k.st = .retrain → k.laneUsed n = true → k.spareIn = false →
      ∀ i ∈ [Instr.laneTrainTimeout l n, Instr.laneOpenOrShort l n], ∃ t, exec i s = .next t ∧ (t.link l).st = .train
        ∧ (t.link l).retired.getLsbD n.val = true
        ∧ (k.guarded = true → s.spareWorks k.spareLane.toNat = true → (t.link l).spareIn = true
            ∧ (t.link l).sparePos = decide (n = 1))
        ∧ (k.guarded = false → (t.link l).spareIn = false) ∧ t.mem = s.mem)
    ∧ (∀ n : Fin 2, k.st = .active → k.laneUsed n = true → k.retrains.toNat < 65535 →
      (k.losses n = 0 → gives (.codewordLockLost l n) { k with
        st := .retrain, retrains := k.retrains + 1
        lockLoss := if n = 0 then (1, k.lockLoss.2) else (k.lockLoss.1, 1) })
      ∧ (1 ≤ k.losses n → k.spareIn = false → ∃ t, exec (.codewordLockLost l n) s = .next t ∧ (t.link l).st = .retrain
        ∧ (t.link l).retired.getLsbD n.val = true))
    ∧ (∀ s0 s1,
      (k.over s0 = false → k.over s1 = false → gives (.fecWindow l s0 s1) { k with
        fecSym := satAdd k.fecSym (s0 + s1), lockLoss := (0, 0) })
      ∧ (k.st = .active → k.over s0 = true → k.over s1 = false → k.laneUsed 0 = true → k.spareIn = false →
        ∃ t, exec (.fecWindow l s0 s1) s = .next t ∧ (t.link l).st = .retrain ∧ (t.link l).retired.getLsbD 0 = true))
    ∧ (∀ m : Msg, k.st = .identify → m.type = 0x0C →
      let who := identity m
      let seen : Link := { k with
        peerDev := who.1, peerLink := who.2.1, peerInc := who.2.2, peerGuards := bit m.value 6 }
      (k.expAny = true ∨ (who.1 = k.expDev ∧ who.2.1 = k.expLink) →
        (k.met = some who → k.retry.any TxFrame.parityBad = false → k.txQ = [] → k.reqWait = [] →
          gives (.ident l m) { seen with st := .active, downRaised := false })
        ∧ (k.met ≠ some who → k.ops = [] → k.reqWait = [] → k.drains = [] → ∃ t, exec (.ident l m) s = .next t
          ∧ (t.link l).st = .active ∧ (t.link l).met = some who ∧ (t.link l).txSeq = 0 ∧ (t.link l).rxSeq = 0
          ∧ (t.link l).retry = [] ∧ (t.link l).txQ = [] ∧ (t.link l).credReq = 512 ∧ (t.link l).credRsp = 4096
          ∧ (t.link l).credBulk = 4096 ∧ (t.link l).credCtl = 128 ∧ t.mem = s.mem))
      ∧ (k.expAny = false → ¬ (who.1 = k.expDev ∧ who.2.1 = k.expLink) → ∃ t, exec (.ident l m) s = .next t
        ∧ t.link l = { seen with st := .miswired, misRaised := some (BitVec.ofNat 18 (who.1.toNat + 4096 * who.2.1.toNat)) }))

/-! ### Context switches -/

/-- A switch of the running context is due (R341, R352): it is being saved, or, while it holds a semaphore, it runs on with its
switch deferred. -/
def switchBegins (s t : State) (p : Fin 4) (x : Fin 16) : Prop :=
  ((s.ctx p x).held = [] → (t.ctx p x).st = .saving ∧ (t.ctx p x).deferred = false ∧ (t.part p).cut = false)
    ∧ ((s.ctx p x).held ≠ [] → (t.ctx p x).st = .running ∧ (t.ctx p x).deferred = true)
    ∧ (∀ y, y ≠ x → t.ctx p y = s.ctx p y) ∧ (∀ o, o ≠ p → t.part o = s.part o) ∧ { t with parts := s.parts } = s

/-- The registers, queues and share of a core are those of another state of it (R44, R347). -/
def sameControl (x y : Core) : Prop :=
  y.a = x.a ∧ y.x = x.x ∧ y.j = x.j ∧ y.i = x.i ∧ y.bind = x.bind ∧ y.tok = x.tok ∧ y.mtag = x.mtag ∧ y.wtag = x.wtag
    ∧ y.pc = x.pc ∧ y.hold = x.hold ∧ y.dmaQ = x.dmaQ ∧ y.matQ = x.matQ ∧ y.vecQ = x.vecQ ∧ y.share = x.share ∧ y.ended = x.ended

/-- No stack engine of a partition holds a command of a context. -/
def noCommands (s : State) (p : Fin 4) (x : Fin 16) : Prop := ∀ st ∈ stacksOf p, ∀ m ∈ (s.stack st).queue, s.cmdOf p x m = false

/-- Context switches and replays (R341, R342, R345 to R349, R352, R413). An ended quantum, or a whole `YIELD` of waiting, with
another context READY makes a switch due; a spent hold budget breaks the semaphore that is held and goes on; the cut, once every
engine of the context and every bank unit of the partition's stacks has stopped, withdraws every registration; the save keeps a core's registers and queues and frees it, or leaves at once with no core to
save; the restore puts them back and the context is RUNNING; a failed share of a replayable packet starts again on a core. -/
def Obligations.ContextSwitches : Prop :=
  (∀ (s : State) (p : Fin 4) (x : Fin 16), (s.part p).cur = some x →
    let c := s.ctx p x
    (c.st = .running → (∃ y, y ≠ x ∧ (s.ctx p y).st = .ready) → ∃ t, exec (.quantumExpiry p) s = .next t ∧ switchBegins s t p x)
    ∧ (c.st = .running → (∃ y, y ≠ x ∧ (s.ctx p y).st = .ready) → (s.part p).yieldHk ≠ 0 → s.ctxHeld p x = true →
      ∃ t, exec (.yieldExpiry p) s = .next t ∧ switchBegins s t p x)
    ∧ (∀ k a, c.st = .running → c.deferred = true → c.held = [(k, a)] → quietMemory s →
      ∃ t, exec (.holdBudgetExpiry p) s = .next t ∧ wordBecomes s t k (semBroken (s.wordAt k 8)) ∧ (t.ctx p x).held = []
        ∧ (t.ctx p x).st = .saving ∧ (t.ctx p x).deferred = false)
    ∧ (c.st = .saving → (s.part p).cut = false → (∀ d ∈ s.coresOfCtx p x, s.coreCut d = true) →
      (∀ d ∈ coresOfPart p, ∀ j ∈ (s.core d).stopping, j.share.ctx ≠ x) → s.unitsCut p = true →
      ∃ t, exec (.cutComplete p) s = .next t ∧ (t.part p).cut = true
        ∧ (noCommands s p x → t.waits = s.waits.filter (fun w => !(w.part = p && w.ctx = x)) ∧ t.cores = s.cores ∧ t.mem = s.mem))
    ∧ (∀ cycles, c.st = .saving → (s.part p).cut = true →
      let left (t : State) : Prop := (t.part p).lastRun = x ∧ (t.part p).switches = satAdd (s.part p).switches 1
        ∧ (t.part p).cut = false ∧ (t.ctx p x).switchCyc = BitVec.ofNat 32 (min cycles 0xFFFFFFFF)
        ∧ ((t.part p).cur ≠ some x → (t.ctx p x).st = .ready ∨ (t.ctx p x).st = .waiting)
      (s.coresOfCtx p x = [] → ∃ t, exec (.saveComplete p cycles) s = .next t ∧ left t ∧ (t.ctx p x).saved = []
        ∧ (t.ctx p x).live = 0 ∧ t.cores = s.cores ∧ (noCommands s p x → t.mem = s.mem))
      ∧ (∀ d, s.coresOfCtx p x = [d] → (s.core d).st = .running → quietMemory s → (s.core d).spErr = [] →
        (s.core d).accBad = [] → (s.core d).regBad = [] →
        ∃ t v, exec (.saveComplete p cycles) s = .next t ∧ left t ∧ (t.ctx p x).saved = [v] ∧ v.key = d.key
          ∧ sameControl (s.core d) v.core ∧ v.core.runs = (s.core d).runs
          ∧ (t.ctx p x).live.toNat = 16 + 64 * ((s.core d).liveSegs (discardOf (s.pktOfCore d))).length
              + 64 * (s.core d).liveTiles.length
          ∧ (t.core d).share = none ∧ (t.core d).st = .idle))
    ∧ (∀ (d : CoreId) (v : SavedCore) (sh : Share) (k : Pkt), c.st = .restoring → c.saved = [v] → c.mail = [] →
      c.deferred = false → c.suspend = false → (s.part p).st = .running → (s.part p).serveQ = [] → d ∈ coresOfPart p → v.key = d.key →
      v.core.share = some sh → sh.ctx = x → v.core.st = .running → v.core.runs = [] → s.pkts = [k] → sh.of k = true →
      k.kind = .linear → k.status = .ok → s.working d = true → s.coresOfCtx p x = [] → (∀ y, y ≠ x → (s.ctx p y).st = .free) → quietMemory s →
      ∃ t, exec (.restoreComplete p) s = .next t ∧ (t.ctx p x).st = .running ∧ (t.ctx p x).quantumNow = c.quantum
        ∧ (t.ctx p x).saved = [] ∧ sameControl v.core (t.core d) ∧ (t.core d).st = .running ∧ t.mem = s.mem))
  ∧ (∀ (s : State) (c d : CoreId) (sh : Share) (k : Pkt) (ts : List Xlat), (s.core c).share = some sh →
    (s.core c).st = .halted → s.pktOfCore c = some k → k.kind = .run → k.replayable = true → sh.replays < 2 → s.live k = true →
    s.translateAll k.part k.ctx (addrRun (pa k.pkt 8) (pf k.pkt 24 4)) = some ts → quietMemory s → reaches s k.part false ts →
    s.replayCore c = some d →
    ∃ t, exec (.replay c) s = .next t ∧ (t.core d).st = .running
      ∧ (t.core d).share = some ⟨k.q, k.i, k.lane, k.laneIdx, k.ctx, sh.index, sh.count, sh.replays + 1, 0⟩
      ∧ (t.core d).pc = BitVec.ofNat 17 (pf k.pkt 32 2) ∧ (t.core d).a.get 0 0 = BitVec.ofNat 48 (pa k.pkt 16)
      ∧ (d ≠ c → (t.core c).share = none) ∧ (t.part c.p).replays = satAdd (s.part c.p).replays 1 ∧ t.mem = s.mem)

/-! ### Memory -/

/-- Every step keeps the canonical form of stack memory: places strictly rising, and no entry that reads as an unlisted place
does (R419). -/
def Obligations.StepsKeepMemoryCanonical : Prop :=
  ∀ (s t : State), Memory.wf s.mem = true → step s = .next t → Memory.wf t.mem = true

/-- Stack memory has its canonical form at reset, with nothing listed: it reads 0 everywhere (R419). -/
def Obligations.ResetMemoryCanonical : Prop := Memory.wf State.reset.mem = true
end

