-- ==== Sys2Proof/Laws/Table.lean ====
section
/-! SUPPORT. What sparse tables do: reads after writes, and the canonical form that every operation keeps. -/

namespace Sys2Proof.Tbl

variable {α : Type}

/-! ### Reads -/

@[simp] theorem get_nil (d : α) (k : Nat) : get d [] k = d := rfl

@[simp] theorem get_cons (d : α) (k' : Nat) (v : α) (t : Tbl α) (k : Nat) :
    get d ((k', v) :: t) k = if k' = k then v else get d t k := rfl

@[simp] theorem get_del (d : α) (t : Tbl α) (k n : Nat) : get d (del k t) n = if n = k then d else get d t n := by
  induction t with
  | nil => simp [del]
  | cons e t ih =>
    obtain ⟨k', v⟩ := e
    by_cases h : k' = k <;> by_cases h2 : k' = n <;> by_cases h3 : n = k <;> simp_all [del]

/-- Inserting where the key has no entry yet. -/
theorem get_ins (d : α) (t : Tbl α) (k : Nat) (v : α) (n : Nat) (h : ∀ e ∈ t, e.1 ≠ k) :
    get d (ins k v t) n = if n = k then v else get d t n := by
  induction t with
  | nil => by_cases h3 : n = k <;> simp [ins, h3, eq_comm] ; intro h4; omega
  | cons e t ih =>
    obtain ⟨k', v'⟩ := e
    have hk : k' ≠ k := h (k', v') (by simp)
    have ht := ih (fun e he => h e (by simp [he]))
    simp only [ins]
    by_cases h1 : k < k'
    · rw [if_pos h1]
      by_cases h3 : n = k
      · simp [h3]
      · simp [h3, Ne.symm h3]
    · rw [if_neg h1, if_neg (Ne.symm hk), get_cons, get_cons, ht]
      by_cases h3 : n = k
      · subst h3; simp [hk]
      · simp [h3]

theorem del_ne (t : Tbl α) (k : Nat) : ∀ e ∈ del k t, e.1 ≠ k := by
  induction t with
  | nil => simp [del]
  | cons e t ih =>
    obtain ⟨k', v⟩ := e
    by_cases h : k' = k
    · simpa [del, h] using ih
    · simpa [del, h] using ih

/-- A read after a write gives what was written at its key, and what stood there before elsewhere. -/
@[simp] theorem get_set [DecidableEq α] (d : α) (t : Tbl α) (k : Nat) (v : α) (n : Nat) :
    get d (set d t k v) n = if n = k then v else get d t n := by
  unfold set
  split
  · rename_i h; subst h; simp
  · rw [get_ins d _ k v n (del_ne t k)]; by_cases h : n = k <;> simp [h]

@[simp] theorem getMany_length (d : α) (t : Tbl α) (k n : Nat) : (getMany d t k n).length = n := by
  induction n generalizing k with
  | zero => rfl
  | succ n ih => simp [getMany, ih]

/-- The values of a run, one by one. -/
theorem getMany_get (d : α) (t : Tbl α) (k n j : Nat) (h : j < n) : (getMany d t k n)[j]? = some (get d t (k + j)) := by
  induction n generalizing k j with
  | zero => omega
  | succ n ih =>
    cases j with
    | zero => simp [getMany]
    | succ j => simp only [getMany, List.getElem?_cons_succ]; rw [ih _ _ (by omega)]; congr 2; omega

/-- A read after a run of writes. -/
theorem get_setMany [DecidableEq α] (d : α) (t : Tbl α) (k : Nat) (vs : List α) (n : Nat) :
    get d (setMany d t k vs) n = if h : k ≤ n ∧ n < k + vs.length then vs[n - k]'(by omega) else get d t n := by
  induction vs generalizing t k with
  | nil => simp only [setMany]; rw [dif_neg]; simp
  | cons v vs ih =>
    simp only [setMany, ih, get_set, List.length_cons]
    by_cases h1 : n = k
    · subst h1
      rw [dif_neg (by omega), dif_pos (by omega)]; simp
    · by_cases h2 : k + 1 ≤ n ∧ n < k + 1 + vs.length
      · rw [dif_pos h2, dif_pos ⟨by omega, by omega⟩]
        have : n - k = (n - (k + 1)) + 1 := by omega
        simp [this]
      · rw [dif_neg h2, dif_neg (by omega)]; simp [h1]

theorem get_filter (d : α) (t : Tbl α) (q : Nat → Bool) (n : Nat) :
    get d (t.filter (fun e => q e.1)) n = if q n then get d t n else d := by
  induction t with
  | nil => simp
  | cons e t ih =>
    obtain ⟨k', v⟩ := e
    by_cases h : q k' <;> by_cases h2 : k' = n <;> simp_all

/-- A read of a table that has dropped a range of keys. -/
theorem get_clear (d : α) (t : Tbl α) (lo hi n : Nat) :
    get d (clear t lo hi) n = if lo ≤ n ∧ n < hi then d else get d t n := by
  have := get_filter d t (fun k => decide (k < lo) || decide (hi ≤ k)) n
  simp only [clear, this]
  by_cases h : lo ≤ n ∧ n < hi
  · rw [if_pos h, if_neg]; simp; omega
  · rw [if_neg h, if_pos]; simp; omega

/-! ### The canonical form -/

theorem del_eq_filter (t : Tbl α) (k : Nat) : del k t = t.filter (fun e => decide (e.1 ≠ k)) := by
  induction t with
  | nil => rfl
  | cons e t ih =>
    obtain ⟨k', v⟩ := e
    by_cases h : k' = k <;> simp_all [del]

variable [DecidableEq α]

theorem wfFrom_cons (d : α) (lo k : Nat) (v : α) (t : Tbl α) :
    wfFrom d lo ((k, v) :: t) = true ↔ lo ≤ k ∧ v ≠ d ∧ wfFrom d (k + 1) t = true := by
  simp [wfFrom, and_assoc]

theorem wfFrom_mono (d : α) (lo lo' : Nat) (t : Tbl α) (h : wfFrom d lo t = true) (hl : lo' ≤ lo) : wfFrom d lo' t = true := by
  cases t with
  | nil => rfl
  | cons e t =>
    obtain ⟨k, v⟩ := e
    rw [wfFrom_cons] at h ⊢
    exact ⟨by omega, h.2⟩

theorem wfFrom_filter (d : α) (lo : Nat) (t : Tbl α) (q : Nat × α → Bool) (h : wfFrom d lo t = true) :
    wfFrom d lo (t.filter q) = true := by
  induction t generalizing lo with
  | nil => rfl
  | cons e t ih =>
    obtain ⟨k, v⟩ := e
    rw [wfFrom_cons] at h
    by_cases hq : q (k, v)
    · rw [List.filter_cons_of_pos hq, wfFrom_cons]
      exact ⟨h.1, h.2.1, ih _ h.2.2⟩
    · rw [List.filter_cons_of_neg (by simp [hq])]
      exact wfFrom_mono d _ _ _ (ih _ h.2.2) (by omega)

theorem wfFrom_ins (d : α) (lo k : Nat) (v : α) (t : Tbl α) (h : wfFrom d lo t = true) (hk : lo ≤ k) (hv : v ≠ d) :
    wfFrom d lo (ins k v t) = true := by
  induction t generalizing lo with
  | nil => simp [ins, wfFrom, hk, hv]
  | cons e t ih =>
    obtain ⟨k', v'⟩ := e
    rw [wfFrom_cons] at h
    simp only [ins]
    split
    · rw [wfFrom_cons, wfFrom_cons]; exact ⟨hk, hv, by omega, h.2⟩
    · split
      · rename_i h1 h2; rw [wfFrom_cons]; subst h2; exact ⟨hk, hv, h.2.2⟩
      · rw [wfFrom_cons]; exact ⟨h.1, h.2.1, ih _ h.2.2 (by omega)⟩

@[simp] theorem wf_nil (d : α) : wf d ([] : Tbl α) = true := rfl

theorem wf_filter (d : α) (t : Tbl α) (q : Nat × α → Bool) (h : wf d t = true) : wf d (t.filter q) = true :=
  wfFrom_filter d 0 t q h

theorem wf_clear (d : α) (t : Tbl α) (lo hi : Nat) (h : wf d t = true) : wf d (clear t lo hi) = true :=
  wfFrom_filter d 0 t _ h

/-- A write keeps the canonical form. -/
theorem wf_set (d : α) (t : Tbl α) (k : Nat) (v : α) (h : wf d t = true) : wf d (set d t k v) = true := by
  have hd : wfFrom d 0 (del k t) = true := by rw [del_eq_filter]; exact wfFrom_filter d 0 t _ h
  unfold set
  split
  · exact hd
  · exact wfFrom_ins d 0 k v _ hd (by omega) ‹_›

theorem wf_setMany (d : α) (t : Tbl α) (k : Nat) (vs : List α) (h : wf d t = true) : wf d (setMany d t k vs) = true := by
  induction vs generalizing t k with
  | nil => exact h
  | cons v vs ih => exact ih _ _ (wf_set d t k v h)

/-- Canonical tables that read alike at and above a key are equal. -/
theorem wfFrom_ext (d : α) (t u : Tbl α) (lo : Nat) (ht : wfFrom d lo t = true) (hu : wfFrom d lo u = true)
    (h : ∀ k, lo ≤ k → get d t k = get d u k) : t = u := by
  have low : ∀ (w : Tbl α) (m n : Nat), wfFrom d m w = true → n < m → get d w n = d := by
    intro w
    induction w with
    | nil => intros; rfl
    | cons e w ih =>
      obtain ⟨k, v⟩ := e
      intro m n hw hn
      rw [wfFrom_cons] at hw
      rw [get_cons, if_neg (by omega)]
      exact ih (k + 1) n hw.2.2 (by omega)
  induction t generalizing u lo with
  | nil =>
    cases u with
    | nil => rfl
    | cons e u =>
      obtain ⟨k, v⟩ := e
      rw [wfFrom_cons] at hu
      have := h k hu.1
      simp at this
      exact absurd this.symm hu.2.1
  | cons e t ih =>
    obtain ⟨k, v⟩ := e
    rw [wfFrom_cons] at ht
    cases u with
    | nil =>
      have := h k ht.1
      simp at this
      exact absurd this ht.2.1
    | cons e' u =>
      obtain ⟨k', v'⟩ := e'
      rw [wfFrom_cons] at hu
      have hkk : k = k' := by
        rcases Nat.lt_trichotomy k k' with hlt | he | hgt
        · have := h k ht.1
          rw [get_cons, if_pos rfl, get_cons, if_neg (by omega), low u (k' + 1) k hu.2.2 (by omega)] at this
          exact absurd this ht.2.1
        · exact he
        · have := h k' hu.1
          rw [get_cons, if_neg (by omega), get_cons, if_pos rfl, low t (k + 1) k' ht.2.2 (by omega)] at this
          exact absurd this.symm hu.2.1
      subst hkk
      have hv : v = v' := by have := h k ht.1; simpa using this
      subst hv
      rw [ih u (k + 1) ht.2.2 hu.2.2 (fun n hn => by
        have := h n (by omega)
        rwa [get_cons, if_neg (by omega), get_cons, if_neg (by omega)] at this)]

end Sys2Proof.Tbl
end

