-- ==== Sys2Proof/Laws/State.lean ====
section
/-! SUPPORT. What each update of the state leaves of each field, and what each part of the state reads as after an update:
the lemmas that keep proofs from unfolding a record update. -/

namespace Sys2Proof

/-! ### Numbers name their things -/

theorem CoreId.key_inj (c d : CoreId) (h : c.key = d.key) : c = d := by
  obtain ⟨p, k, j⟩ := c
  obtain ⟨p', k', j'⟩ := d
  simp only [CoreId.key] at h
  simp only [CoreId.mk.injEq, Fin.ext_iff]
  omega

theorem ClusterId.key_inj (c d : ClusterId) (h : c.key = d.key) : c = d := by
  obtain ⟨p, k⟩ := c
  obtain ⟨p', k'⟩ := d
  simp only [ClusterId.key] at h
  simp only [ClusterId.mk.injEq, Fin.ext_iff]
  omega

/-- Units of one stack. -/
theorem UnitId.key_inj (u v : UnitId) (hs : u.s = v.s) (h : u.key = v.key) : u = v := by
  obtain ⟨s, d, n⟩ := u
  obtain ⟨s', d', n'⟩ := v
  simp only [UnitId.key] at h
  simp only at hs
  simp only [UnitId.mk.injEq, hs, true_and, Fin.ext_iff]
  omega

@[simp] theorem CoreId.key_eq (c d : CoreId) : c.key = d.key ↔ c = d := ⟨CoreId.key_inj c d, fun h => h ▸ rfl⟩
@[simp] theorem ClusterId.key_eq (c d : ClusterId) : c.key = d.key ↔ c = d := ⟨ClusterId.key_inj c d, fun h => h ▸ rfl⟩

namespace Machine

/-! ### Changes written with a function -/

@[simp] theorem State.updCore_eq (s : State) (c : CoreId) (f : Core → Core) : s.updCore c f = s.setCore c (f (s.core c)) := rfl
@[simp] theorem State.updCluster_eq (s : State) (c : ClusterId) (f : Cluster → Cluster) : s.updCluster c f = s.setCluster c (f (s.cluster c)) := rfl
@[simp] theorem State.updPart_eq (s : State) (p : Fin 4) (f : Part → Part) : s.updPart p f = s.setPart p (f (s.part p)) := rfl
@[simp] theorem State.updLink_eq (s : State) (l : Fin 48) (f : Link → Link) : s.updLink l f = s.setLink l (f (s.link l)) := rfl
@[simp] theorem State.updStack_eq (s : State) (k : Fin 12) (f : Stack → Stack) : s.updStack k f = s.setStack k (f (s.stack k)) := rfl
@[simp] theorem State.updEventQ_eq (s : State) (e : Fin 8) (f : EvQ → EvQ) : s.updEventQ e f = s.setEventQ e (f (s.eventQ e)) := rfl
@[simp] theorem State.updSeqd_eq (s : State) (n : Nat) (f : SeqDesc → SeqDesc) : s.updSeqd n f = s.setSeqd n (f (s.seqd n)) := rfl
@[simp] theorem State.updCtx_eq (s : State) (p : Fin 4) (x : Fin 16) (f : Ctx → Ctx) : s.updCtx p x f = s.setCtx p x (f (s.ctx p x)) := rfl
@[simp] theorem State.updUnit_eq (s : State) (u : UnitId) (f : BankUnit → BankUnit) : s.updUnit u f = s.setUnit u (f (s.unit u)) := rfl
@[simp] theorem State.setCtx_eq (s : State) (p : Fin 4) (x : Fin 16) (v : Ctx) :
    s.setCtx p x v = s.setPart p ((s.part p).setCtx x v) := rfl
@[simp] theorem State.setUnit_eq (s : State) (u : UnitId) (v : BankUnit) :
    s.setUnit u v = s.setStack u.s ((s.stack u.s).setUnit u v) := rfl
theorem State.ctx_eq (s : State) (p : Fin 4) (x : Fin 16) : s.ctx p x = (s.part p).ctx x := rfl
theorem State.unit_eq (s : State) (u : UnitId) : s.unit u = (s.stack u.s).unit u := rfl

/-! ### What an update writes -/

@[simp] theorem State.core_setCore (s : State) (c : CoreId) (v : Core) (d : CoreId) :
    (s.setCore c v).core d = if d = c then v else s.core d := by simp [State.core, State.setCore]
@[simp] theorem State.cluster_setCluster (s : State) (c : ClusterId) (v : Cluster) (d : ClusterId) :
    (s.setCluster c v).cluster d = if d = c then v else s.cluster d := by simp [State.cluster, State.setCluster]
@[simp] theorem State.part_setPart (s : State) (p : Fin 4) (v : Part) (o : Fin 4) :
    (s.setPart p v).part o = if o = p then v else s.part o := by simp [State.part, State.setPart, Fin.ext_iff]
@[simp] theorem State.link_setLink (s : State) (l : Fin 48) (v : Link) (m : Fin 48) :
    (s.setLink l v).link m = if m = l then v else s.link m := by simp [State.link, State.setLink, Fin.ext_iff]
@[simp] theorem State.stack_setStack (s : State) (k : Fin 12) (v : Stack) (j : Fin 12) :
    (s.setStack k v).stack j = if j = k then v else s.stack j := by simp [State.stack, State.setStack, Fin.ext_iff]
@[simp] theorem State.queue_setQueue (s : State) (q : Fin 256) (v : Option WorkQ) (r : Fin 256) :
    (s.setQueue q v).queue r = if r = q then v else s.queue r := by simp [State.queue, State.setQueue, Fin.ext_iff]
@[simp] theorem State.eventQ_setEventQ (s : State) (e : Fin 8) (v : EvQ) (f : Fin 8) :
    (s.setEventQ e v).eventQ f = if f = e then v else s.eventQ f := by simp [State.eventQ, State.setEventQ, Fin.ext_iff]
@[simp] theorem State.seqd_setSeqd (s : State) (n : Nat) (v : SeqDesc) (m : Nat) :
    (s.setSeqd n v).seqd m = if m = n then v else s.seqd m := by simp [State.seqd, State.setSeqd]
@[simp] theorem Part.ctx_setCtx (p : Part) (x : Fin 16) (v : Ctx) (y : Fin 16) :
    (p.setCtx x v).ctx y = if y = x then v else p.ctx y := by simp [Part.ctx, Part.setCtx, Fin.ext_iff]
@[simp] theorem State.ctx_setPart (s : State) (p : Fin 4) (v : Part) (o : Fin 4) (x : Fin 16) :
    (s.setPart p v).ctx o x = if o = p then v.ctx x else s.ctx o x := by
  simp only [State.ctx, State.part_setPart]; split <;> rfl
@[simp] theorem Stack.unit_setUnit (k : Stack) (u : UnitId) (v : BankUnit) (w : UnitId) :
    (k.setUnit u v).unit w = if w.key = u.key then v else k.unit w := by simp [Stack.unit, Stack.setUnit]
@[simp] theorem State.unit_setStack (s : State) (k : Fin 12) (v : Stack) (u : UnitId) :
    (s.setStack k v).unit u = if u.s = k then v.unit u else s.unit u := by
  simp only [State.unit, State.stack_setStack]; split <;> rfl

/-! ### What an update of a context leaves of its partition, and one of a unit of its stack -/

@[simp] theorem Part.pll_setCtx (p : Part) (x : Fin 16) (v : Ctx) : (p.setCtx x v).pll = p.pll := rfl
@[simp] theorem Part.idleDelay_setCtx (p : Part) (x : Fin 16) (v : Ctx) : (p.setCtx x v).idleDelay = p.idleDelay := rfl
@[simp] theorem Part.restarts_setCtx (p : Part) (x : Fin 16) (v : Ctx) : (p.setCtx x v).restarts = p.restarts := rfl
@[simp] theorem Part.heldArr_setCtx (p : Part) (x : Fin 16) (v : Ctx) : (p.setCtx x v).heldArr = p.heldArr := rfl
@[simp] theorem Part.resetting_setCtx (p : Part) (x : Fin 16) (v : Ctx) : (p.setCtx x v).resetting = p.resetting := rfl
@[simp] theorem Part.thinMax_setCtx (p : Part) (x : Fin 16) (v : Ctx) : (p.setCtx x v).thinMax = p.thinMax := rfl
@[simp] theorem Part.rowsPart_setCtx (p : Part) (x : Fin 16) (v : Ctx) : (p.setCtx x v).rowsPart = p.rowsPart := rfl
@[simp] theorem Part.reserve_setCtx (p : Part) (x : Fin 16) (v : Ctx) : (p.setCtx x v).reserve = p.reserve := rfl
@[simp] theorem Part.regions_setCtx (p : Part) (x : Fin 16) (v : Ctx) : (p.setCtx x v).regions = p.regions := rfl
@[simp] theorem Part.allocs_setCtx (p : Part) (x : Fin 16) (v : Ctx) : (p.setCtx x v).allocs = p.allocs := rfl
@[simp] theorem Part.freeShare_setCtx (p : Part) (x : Fin 16) (v : Ctx) : (p.setCtx x v).freeShare = p.freeShare := rfl
@[simp] theorem Part.hits_setCtx (p : Part) (x : Fin 16) (v : Ctx) : (p.setCtx x v).hits = p.hits := rfl
@[simp] theorem Part.misses_setCtx (p : Part) (x : Fin 16) (v : Ctx) : (p.setCtx x v).misses = p.misses := rfl
@[simp] theorem Part.atomics_setCtx (p : Part) (x : Fin 16) (v : Ctx) : (p.setCtx x v).atomics = p.atomics := rfl
@[simp] theorem Part.lines_setCtx (p : Part) (x : Fin 16) (v : Ctx) : (p.setCtx x v).lines = p.lines := rfl
@[simp] theorem Part.xlat_setCtx (p : Part) (x : Fin 16) (v : Ctx) : (p.setCtx x v).xlat = p.xlat := rfl
@[simp] theorem Part.arbs_setCtx (p : Part) (x : Fin 16) (v : Ctx) : (p.setCtx x v).arbs = p.arbs := rfl
@[simp] theorem Part.st_setCtx (p : Part) (x : Fin 16) (v : Ctx) : (p.setCtx x v).st = p.st := rfl
@[simp] theorem Part.cur_setCtx (p : Part) (x : Fin 16) (v : Ctx) : (p.setCtx x v).cur = p.cur := rfl
@[simp] theorem Part.cut_setCtx (p : Part) (x : Fin 16) (v : Ctx) : (p.setCtx x v).cut = p.cut := rfl
@[simp] theorem Part.lastRun_setCtx (p : Part) (x : Fin 16) (v : Ctx) : (p.setCtx x v).lastRun = p.lastRun := rfl
@[simp] theorem Part.turn_setCtx (p : Part) (x : Fin 16) (v : Ctx) : (p.setCtx x v).turn = p.turn := rfl
@[simp] theorem Part.yieldHk_setCtx (p : Part) (x : Fin 16) (v : Ctx) : (p.setCtx x v).yieldHk = p.yieldHk := rfl
@[simp] theorem Part.switches_setCtx (p : Part) (x : Fin 16) (v : Ctx) : (p.setCtx x v).switches = p.switches := rfl
@[simp] theorem Part.holdBudget_setCtx (p : Part) (x : Fin 16) (v : Ctx) : (p.setCtx x v).holdBudget = p.holdBudget := rfl
@[simp] theorem Part.wdEn_setCtx (p : Part) (x : Fin 16) (v : Ctx) : (p.setCtx x v).wdEn = p.wdEn := rfl
@[simp] theorem Part.wdPeriod_setCtx (p : Part) (x : Fin 16) (v : Ctx) : (p.setCtx x v).wdPeriod = p.wdPeriod := rfl
@[simp] theorem Part.wdArmed_setCtx (p : Part) (x : Fin 16) (v : Ctx) : (p.setCtx x v).wdArmed = p.wdArmed := rfl
@[simp] theorem Part.wdReports_setCtx (p : Part) (x : Fin 16) (v : Ctx) : (p.setCtx x v).wdReports = p.wdReports := rfl
@[simp] theorem Part.wdCount_setCtx (p : Part) (x : Fin 16) (v : Ctx) : (p.setCtx x v).wdCount = p.wdCount := rfl
@[simp] theorem Part.repairMs_setCtx (p : Part) (x : Fin 16) (v : Ctx) : (p.setCtx x v).repairMs = p.repairMs := rfl
@[simp] theorem Part.expired_setCtx (p : Part) (x : Fin 16) (v : Ctx) : (p.setCtx x v).expired = p.expired := rfl
@[simp] theorem Part.disjoint_setCtx (p : Part) (x : Fin 16) (v : Ctx) : (p.setCtx x v).disjoint = p.disjoint := rfl
@[simp] theorem Part.replays_setCtx (p : Part) (x : Fin 16) (v : Ctx) : (p.setCtx x v).replays = p.replays := rfl
@[simp] theorem Part.seqFirst_setCtx (p : Part) (x : Fin 16) (v : Ctx) : (p.setCtx x v).seqFirst = p.seqFirst := rfl
@[simp] theorem Part.seqCount_setCtx (p : Part) (x : Fin 16) (v : Ctx) : (p.setCtx x v).seqCount = p.seqCount := rfl
@[simp] theorem Part.poolBase_setCtx (p : Part) (x : Fin 16) (v : Ctx) : (p.setCtx x v).poolBase = p.poolBase := rfl
@[simp] theorem Part.poolSize_setCtx (p : Part) (x : Fin 16) (v : Ctx) : (p.setCtx x v).poolSize = p.poolSize := rfl
@[simp] theorem Part.quar_setCtx (p : Part) (x : Fin 16) (v : Ctx) : (p.setCtx x v).quar = p.quar := rfl
@[simp] theorem Part.quarPeak_setCtx (p : Part) (x : Fin 16) (v : Ctx) : (p.setCtx x v).quarPeak = p.quarPeak := rfl
@[simp] theorem Part.kvMisses_setCtx (p : Part) (x : Fin 16) (v : Ctx) : (p.setCtx x v).kvMisses = p.kvMisses := rfl
@[simp] theorem Part.relFlags_setCtx (p : Part) (x : Fin 16) (v : Ctx) : (p.setCtx x v).relFlags = p.relFlags := rfl
@[simp] theorem Part.serveQ_setCtx (p : Part) (x : Fin 16) (v : Ctx) : (p.setCtx x v).serveQ = p.serveQ := rfl
@[simp] theorem Stack.gates_setUnit (k : Stack) (u : UnitId) (v : BankUnit) : (k.setUnit u v).gates = k.gates := rfl
@[simp] theorem Stack.sram_setUnit (k : Stack) (u : UnitId) (v : BankUnit) : (k.setUnit u v).sram = k.sram := rfl
@[simp] theorem Stack.sramErr_setUnit (k : Stack) (u : UnitId) (v : BankUnit) : (k.setUnit u v).sramErr = k.sramErr := rfl
@[simp] theorem Stack.waves_setUnit (k : Stack) (u : UnitId) (v : BankUnit) : (k.setUnit u v).waves = k.waves := rfl
@[simp] theorem Stack.slots_setUnit (k : Stack) (u : UnitId) (v : BankUnit) : (k.setUnit u v).slots = k.slots := rfl
@[simp] theorem Stack.turnNo_setUnit (k : Stack) (u : UnitId) (v : BankUnit) : (k.setUnit u v).turnNo = k.turnNo := rfl
@[simp] theorem Stack.picks_setUnit (k : Stack) (u : UnitId) (v : BankUnit) : (k.setUnit u v).picks = k.picks := rfl
@[simp] theorem Stack.rdBytes_setUnit (k : Stack) (u : UnitId) (v : BankUnit) : (k.setUnit u v).rdBytes = k.rdBytes := rfl
@[simp] theorem Stack.wrBytes_setUnit (k : Stack) (u : UnitId) (v : BankUnit) : (k.setUnit u v).wrBytes = k.wrBytes := rfl
@[simp] theorem Stack.queue_setUnit (k : Stack) (u : UnitId) (v : BankUnit) : (k.setUnit u v).queue = k.queue := rfl
@[simp] theorem Stack.limit_setUnit (k : Stack) (u : UnitId) (v : BankUnit) : (k.setUnit u v).limit = k.limit := rfl
@[simp] theorem Stack.slotMode_setUnit (k : Stack) (u : UnitId) (v : BankUnit) : (k.setUnit u v).slotMode = k.slotMode := rfl
@[simp] theorem Stack.slotOff_setUnit (k : Stack) (u : UnitId) (v : BankUnit) : (k.setUnit u v).slotOff = k.slotOff := rfl
@[simp] theorem Stack.double_setUnit (k : Stack) (u : UnitId) (v : BankUnit) : (k.setUnit u v).double = k.double := rfl
@[simp] theorem Stack.refPeak_setUnit (k : Stack) (u : UnitId) (v : BankUnit) : (k.setUnit u v).refPeak = k.refPeak := rfl
@[simp] theorem Stack.refHolds_setUnit (k : Stack) (u : UnitId) (v : BankUnit) : (k.setUnit u v).refHolds = k.refHolds := rfl
@[simp] theorem Stack.postponed_setUnit (k : Stack) (u : UnitId) (v : BankUnit) : (k.setUnit u v).postponed = k.postponed := rfl
@[simp] theorem Stack.ledger_setUnit (k : Stack) (u : UnitId) (v : BankUnit) : (k.setUnit u v).ledger = k.ledger := rfl
@[simp] theorem Stack.ledgerLost_setUnit (k : Stack) (u : UnitId) (v : BankUnit) : (k.setUnit u v).ledgerLost = k.ledgerLost := rfl
@[simp] theorem Stack.proxyRuns_setUnit (k : Stack) (u : UnitId) (v : BankUnit) : (k.setUnit u v).proxyRuns = k.proxyRuns := rfl
@[simp] theorem Stack.unitFail_setUnit (k : Stack) (u : UnitId) (v : BankUnit) : (k.setUnit u v).unitFail = k.unitFail := rfl
@[simp] theorem Stack.spares_setUnit (k : Stack) (u : UnitId) (v : BankUnit) : (k.setUnit u v).spares = k.spares := rfl
@[simp] theorem Stack.proxied_setUnit (k : Stack) (u : UnitId) (v : BankUnit) : (k.setUnit u v).proxied = k.proxied := rfl
@[simp] theorem Stack.migrating_setUnit (k : Stack) (u : UnitId) (v : BankUnit) : (k.setUnit u v).migrating = k.migrating := rfl
@[simp] theorem Stack.passHours_setUnit (k : Stack) (u : UnitId) (v : BankUnit) : (k.setUnit u v).passHours = k.passHours := rfl
@[simp] theorem Stack.scrubEn_setUnit (k : Stack) (u : UnitId) (v : BankUnit) : (k.setUnit u v).scrubEn = k.scrubEn := rfl
@[simp] theorem Stack.visited_setUnit (k : Stack) (u : UnitId) (v : BankUnit) : (k.setUnit u v).visited = k.visited := rfl
@[simp] theorem Stack.passes_setUnit (k : Stack) (u : UnitId) (v : BankUnit) : (k.setUnit u v).passes = k.passes := rfl
@[simp] theorem Stack.ceCount_setUnit (k : Stack) (u : UnitId) (v : BankUnit) : (k.setUnit u v).ceCount = k.ceCount := rfl
@[simp] theorem Stack.ueCount_setUnit (k : Stack) (u : UnitId) (v : BankUnit) : (k.setUnit u v).ueCount = k.ueCount := rfl
@[simp] theorem Stack.remapLive_setUnit (k : Stack) (u : UnitId) (v : BankUnit) : (k.setUnit u v).remapLive = k.remapLive := rfl
@[simp] theorem Stack.remapPending_setUnit (k : Stack) (u : UnitId) (v : BankUnit) : (k.setUnit u v).remapPending = k.remapPending := rfl
@[simp] theorem Stack.remaps_setUnit (k : Stack) (u : UnitId) (v : BankUnit) : (k.setUnit u v).remaps = k.remaps := rfl
@[simp] theorem Stack.pendingRows_setUnit (k : Stack) (u : UnitId) (v : BankUnit) : (k.setUnit u v).pendingRows = k.pendingRows := rfl
@[simp] theorem Stack.spareRows_setUnit (k : Stack) (u : UnitId) (v : BankUnit) : (k.setUnit u v).spareRows = k.spareRows := rfl
@[simp] theorem Stack.rowCnt_setUnit (k : Stack) (u : UnitId) (v : BankUnit) : (k.setUnit u v).rowCnt = k.rowCnt := rfl
@[simp] theorem Stack.laneCnt_setUnit (k : Stack) (u : UnitId) (v : BankUnit) : (k.setUnit u v).laneCnt = k.laneCnt := rfl

/-! ### What an update leaves of the other parts -/

@[simp] theorem State.cluster_setCore (s : State) (c : CoreId) (v : Core) (d : ClusterId) :
    (s.setCore c v).cluster d = s.cluster d := rfl
@[simp] theorem State.part_setCore (s : State) (c : CoreId) (v : Core) (o : Fin 4) :
    (s.setCore c v).part o = s.part o := rfl
@[simp] theorem State.link_setCore (s : State) (c : CoreId) (v : Core) (m : Fin 48) :
    (s.setCore c v).link m = s.link m := rfl
@[simp] theorem State.stack_setCore (s : State) (c : CoreId) (v : Core) (j : Fin 12) :
    (s.setCore c v).stack j = s.stack j := rfl
@[simp] theorem State.queue_setCore (s : State) (c : CoreId) (v : Core) (r : Fin 256) :
    (s.setCore c v).queue r = s.queue r := rfl
@[simp] theorem State.eventQ_setCore (s : State) (c : CoreId) (v : Core) (w : Fin 8) :
    (s.setCore c v).eventQ w = s.eventQ w := rfl
@[simp] theorem State.seqd_setCore (s : State) (c : CoreId) (v : Core) (m : Nat) :
    (s.setCore c v).seqd m = s.seqd m := rfl
@[simp] theorem State.ctx_setCore (s : State) (c : CoreId) (v : Core) (o : Fin 4) (x : Fin 16) :
    (s.setCore c v).ctx o x = s.ctx o x := rfl
@[simp] theorem State.unit_setCore (s : State) (c : CoreId) (v : Core) (u : UnitId) :
    (s.setCore c v).unit u = s.unit u := rfl
@[simp] theorem State.core_setCluster (s : State) (c : ClusterId) (v : Cluster) (d : CoreId) :
    (s.setCluster c v).core d = s.core d := rfl
@[simp] theorem State.part_setCluster (s : State) (c : ClusterId) (v : Cluster) (o : Fin 4) :
    (s.setCluster c v).part o = s.part o := rfl
@[simp] theorem State.link_setCluster (s : State) (c : ClusterId) (v : Cluster) (m : Fin 48) :
    (s.setCluster c v).link m = s.link m := rfl
@[simp] theorem State.stack_setCluster (s : State) (c : ClusterId) (v : Cluster) (j : Fin 12) :
    (s.setCluster c v).stack j = s.stack j := rfl
@[simp] theorem State.queue_setCluster (s : State) (c : ClusterId) (v : Cluster) (r : Fin 256) :
    (s.setCluster c v).queue r = s.queue r := rfl
@[simp] theorem State.eventQ_setCluster (s : State) (c : ClusterId) (v : Cluster) (w : Fin 8) :
    (s.setCluster c v).eventQ w = s.eventQ w := rfl
@[simp] theorem State.seqd_setCluster (s : State) (c : ClusterId) (v : Cluster) (m : Nat) :
    (s.setCluster c v).seqd m = s.seqd m := rfl
@[simp] theorem State.ctx_setCluster (s : State) (c : ClusterId) (v : Cluster) (o : Fin 4) (x : Fin 16) :
    (s.setCluster c v).ctx o x = s.ctx o x := rfl
@[simp] theorem State.unit_setCluster (s : State) (c : ClusterId) (v : Cluster) (u : UnitId) :
    (s.setCluster c v).unit u = s.unit u := rfl
@[simp] theorem State.core_setPart (s : State) (p : Fin 4) (v : Part) (d : CoreId) :
    (s.setPart p v).core d = s.core d := rfl
@[simp] theorem State.cluster_setPart (s : State) (p : Fin 4) (v : Part) (d : ClusterId) :
    (s.setPart p v).cluster d = s.cluster d := rfl
@[simp] theorem State.link_setPart (s : State) (p : Fin 4) (v : Part) (m : Fin 48) :
    (s.setPart p v).link m = s.link m := rfl
@[simp] theorem State.stack_setPart (s : State) (p : Fin 4) (v : Part) (j : Fin 12) :
    (s.setPart p v).stack j = s.stack j := rfl
@[simp] theorem State.queue_setPart (s : State) (p : Fin 4) (v : Part) (r : Fin 256) :
    (s.setPart p v).queue r = s.queue r := rfl
@[simp] theorem State.eventQ_setPart (s : State) (p : Fin 4) (v : Part) (w : Fin 8) :
    (s.setPart p v).eventQ w = s.eventQ w := rfl
@[simp] theorem State.seqd_setPart (s : State) (p : Fin 4) (v : Part) (m : Nat) :
    (s.setPart p v).seqd m = s.seqd m := rfl
@[simp] theorem State.unit_setPart (s : State) (p : Fin 4) (v : Part) (u : UnitId) :
    (s.setPart p v).unit u = s.unit u := rfl
@[simp] theorem State.core_setLink (s : State) (l : Fin 48) (v : Link) (d : CoreId) :
    (s.setLink l v).core d = s.core d := rfl
@[simp] theorem State.cluster_setLink (s : State) (l : Fin 48) (v : Link) (d : ClusterId) :
    (s.setLink l v).cluster d = s.cluster d := rfl
@[simp] theorem State.part_setLink (s : State) (l : Fin 48) (v : Link) (o : Fin 4) :
    (s.setLink l v).part o = s.part o := rfl
@[simp] theorem State.stack_setLink (s : State) (l : Fin 48) (v : Link) (j : Fin 12) :
    (s.setLink l v).stack j = s.stack j := rfl
@[simp] theorem State.queue_setLink (s : State) (l : Fin 48) (v : Link) (r : Fin 256) :
    (s.setLink l v).queue r = s.queue r := rfl
@[simp] theorem State.eventQ_setLink (s : State) (l : Fin 48) (v : Link) (w : Fin 8) :
    (s.setLink l v).eventQ w = s.eventQ w := rfl
@[simp] theorem State.seqd_setLink (s : State) (l : Fin 48) (v : Link) (m : Nat) :
    (s.setLink l v).seqd m = s.seqd m := rfl
@[simp] theorem State.ctx_setLink (s : State) (l : Fin 48) (v : Link) (o : Fin 4) (x : Fin 16) :
    (s.setLink l v).ctx o x = s.ctx o x := rfl
@[simp] theorem State.unit_setLink (s : State) (l : Fin 48) (v : Link) (u : UnitId) :
    (s.setLink l v).unit u = s.unit u := rfl
@[simp] theorem State.core_setStack (s : State) (k : Fin 12) (v : Stack) (d : CoreId) :
    (s.setStack k v).core d = s.core d := rfl
@[simp] theorem State.cluster_setStack (s : State) (k : Fin 12) (v : Stack) (d : ClusterId) :
    (s.setStack k v).cluster d = s.cluster d := rfl
@[simp] theorem State.part_setStack (s : State) (k : Fin 12) (v : Stack) (o : Fin 4) :
    (s.setStack k v).part o = s.part o := rfl
@[simp] theorem State.link_setStack (s : State) (k : Fin 12) (v : Stack) (m : Fin 48) :
    (s.setStack k v).link m = s.link m := rfl
@[simp] theorem State.queue_setStack (s : State) (k : Fin 12) (v : Stack) (r : Fin 256) :
    (s.setStack k v).queue r = s.queue r := rfl
@[simp] theorem State.eventQ_setStack (s : State) (k : Fin 12) (v : Stack) (w : Fin 8) :
    (s.setStack k v).eventQ w = s.eventQ w := rfl
@[simp] theorem State.seqd_setStack (s : State) (k : Fin 12) (v : Stack) (m : Nat) :
    (s.setStack k v).seqd m = s.seqd m := rfl
@[simp] theorem State.ctx_setStack (s : State) (k : Fin 12) (v : Stack) (o : Fin 4) (x : Fin 16) :
    (s.setStack k v).ctx o x = s.ctx o x := rfl
@[simp] theorem State.core_setQueue (s : State) (q : Fin 256) (v : Option WorkQ) (d : CoreId) :
    (s.setQueue q v).core d = s.core d := rfl
@[simp] theorem State.cluster_setQueue (s : State) (q : Fin 256) (v : Option WorkQ) (d : ClusterId) :
    (s.setQueue q v).cluster d = s.cluster d := rfl
@[simp] theorem State.part_setQueue (s : State) (q : Fin 256) (v : Option WorkQ) (o : Fin 4) :
    (s.setQueue q v).part o = s.part o := rfl
@[simp] theorem State.link_setQueue (s : State) (q : Fin 256) (v : Option WorkQ) (m : Fin 48) :
    (s.setQueue q v).link m = s.link m := rfl
@[simp] theorem State.stack_setQueue (s : State) (q : Fin 256) (v : Option WorkQ) (j : Fin 12) :
    (s.setQueue q v).stack j = s.stack j := rfl
@[simp] theorem State.eventQ_setQueue (s : State) (q : Fin 256) (v : Option WorkQ) (w : Fin 8) :
    (s.setQueue q v).eventQ w = s.eventQ w := rfl
@[simp] theorem State.seqd_setQueue (s : State) (q : Fin 256) (v : Option WorkQ) (m : Nat) :
    (s.setQueue q v).seqd m = s.seqd m := rfl
@[simp] theorem State.ctx_setQueue (s : State) (q : Fin 256) (v : Option WorkQ) (o : Fin 4) (x : Fin 16) :
    (s.setQueue q v).ctx o x = s.ctx o x := rfl
@[simp] theorem State.unit_setQueue (s : State) (q : Fin 256) (v : Option WorkQ) (u : UnitId) :
    (s.setQueue q v).unit u = s.unit u := rfl
@[simp] theorem State.core_setEventQ (s : State) (e : Fin 8) (v : EvQ) (d : CoreId) :
    (s.setEventQ e v).core d = s.core d := rfl
@[simp] theorem State.cluster_setEventQ (s : State) (e : Fin 8) (v : EvQ) (d : ClusterId) :
    (s.setEventQ e v).cluster d = s.cluster d := rfl
@[simp] theorem State.part_setEventQ (s : State) (e : Fin 8) (v : EvQ) (o : Fin 4) :
    (s.setEventQ e v).part o = s.part o := rfl
@[simp] theorem State.link_setEventQ (s : State) (e : Fin 8) (v : EvQ) (m : Fin 48) :
    (s.setEventQ e v).link m = s.link m := rfl
@[simp] theorem State.stack_setEventQ (s : State) (e : Fin 8) (v : EvQ) (j : Fin 12) :
    (s.setEventQ e v).stack j = s.stack j := rfl
@[simp] theorem State.queue_setEventQ (s : State) (e : Fin 8) (v : EvQ) (r : Fin 256) :
    (s.setEventQ e v).queue r = s.queue r := rfl
@[simp] theorem State.seqd_setEventQ (s : State) (e : Fin 8) (v : EvQ) (m : Nat) :
    (s.setEventQ e v).seqd m = s.seqd m := rfl
@[simp] theorem State.ctx_setEventQ (s : State) (e : Fin 8) (v : EvQ) (o : Fin 4) (x : Fin 16) :
    (s.setEventQ e v).ctx o x = s.ctx o x := rfl
@[simp] theorem State.unit_setEventQ (s : State) (e : Fin 8) (v : EvQ) (u : UnitId) :
    (s.setEventQ e v).unit u = s.unit u := rfl
@[simp] theorem State.core_setSeqd (s : State) (n : Nat) (v : SeqDesc) (d : CoreId) :
    (s.setSeqd n v).core d = s.core d := rfl
@[simp] theorem State.cluster_setSeqd (s : State) (n : Nat) (v : SeqDesc) (d : ClusterId) :
    (s.setSeqd n v).cluster d = s.cluster d := rfl
@[simp] theorem State.part_setSeqd (s : State) (n : Nat) (v : SeqDesc) (o : Fin 4) :
    (s.setSeqd n v).part o = s.part o := rfl
@[simp] theorem State.link_setSeqd (s : State) (n : Nat) (v : SeqDesc) (m : Fin 48) :
    (s.setSeqd n v).link m = s.link m := rfl
@[simp] theorem State.stack_setSeqd (s : State) (n : Nat) (v : SeqDesc) (j : Fin 12) :
    (s.setSeqd n v).stack j = s.stack j := rfl
@[simp] theorem State.queue_setSeqd (s : State) (n : Nat) (v : SeqDesc) (r : Fin 256) :
    (s.setSeqd n v).queue r = s.queue r := rfl
@[simp] theorem State.eventQ_setSeqd (s : State) (n : Nat) (v : SeqDesc) (w : Fin 8) :
    (s.setSeqd n v).eventQ w = s.eventQ w := rfl
@[simp] theorem State.ctx_setSeqd (s : State) (n : Nat) (v : SeqDesc) (o : Fin 4) (x : Fin 16) :
    (s.setSeqd n v).ctx o x = s.ctx o x := rfl
@[simp] theorem State.unit_setSeqd (s : State) (n : Nat) (v : SeqDesc) (u : UnitId) :
    (s.setSeqd n v).unit u = s.unit u := rfl
@[simp] theorem State.core_draw (s : State) (n : Nat) (d : CoreId) :
    (s.draw n).core d = s.core d := rfl
@[simp] theorem State.cluster_draw (s : State) (n : Nat) (d : ClusterId) :
    (s.draw n).cluster d = s.cluster d := rfl
@[simp] theorem State.part_draw (s : State) (n : Nat) (o : Fin 4) :
    (s.draw n).part o = s.part o := rfl
@[simp] theorem State.link_draw (s : State) (n : Nat) (m : Fin 48) :
    (s.draw n).link m = s.link m := rfl
@[simp] theorem State.stack_draw (s : State) (n : Nat) (j : Fin 12) :
    (s.draw n).stack j = s.stack j := rfl
@[simp] theorem State.queue_draw (s : State) (n : Nat) (r : Fin 256) :
    (s.draw n).queue r = s.queue r := rfl
@[simp] theorem State.eventQ_draw (s : State) (n : Nat) (w : Fin 8) :
    (s.draw n).eventQ w = s.eventQ w := rfl
@[simp] theorem State.seqd_draw (s : State) (n : Nat) (m : Nat) :
    (s.draw n).seqd m = s.seqd m := rfl
@[simp] theorem State.ctx_draw (s : State) (n : Nat) (o : Fin 4) (x : Fin 16) :
    (s.draw n).ctx o x = s.ctx o x := rfl
@[simp] theorem State.unit_draw (s : State) (n : Nat) (u : UnitId) :
    (s.draw n).unit u = s.unit u := rfl
@[simp] theorem State.core_toHost (s : State) (a : Nat) (bs : List Byte) (d : CoreId) :
    (s.toHost a bs).core d = s.core d := rfl
@[simp] theorem State.cluster_toHost (s : State) (a : Nat) (bs : List Byte) (d : ClusterId) :
    (s.toHost a bs).cluster d = s.cluster d := rfl
@[simp] theorem State.part_toHost (s : State) (a : Nat) (bs : List Byte) (o : Fin 4) :
    (s.toHost a bs).part o = s.part o := rfl
@[simp] theorem State.link_toHost (s : State) (a : Nat) (bs : List Byte) (m : Fin 48) :
    (s.toHost a bs).link m = s.link m := rfl
@[simp] theorem State.stack_toHost (s : State) (a : Nat) (bs : List Byte) (j : Fin 12) :
    (s.toHost a bs).stack j = s.stack j := rfl
@[simp] theorem State.queue_toHost (s : State) (a : Nat) (bs : List Byte) (r : Fin 256) :
    (s.toHost a bs).queue r = s.queue r := rfl
@[simp] theorem State.eventQ_toHost (s : State) (a : Nat) (bs : List Byte) (w : Fin 8) :
    (s.toHost a bs).eventQ w = s.eventQ w := rfl
@[simp] theorem State.seqd_toHost (s : State) (a : Nat) (bs : List Byte) (m : Nat) :
    (s.toHost a bs).seqd m = s.seqd m := rfl
@[simp] theorem State.ctx_toHost (s : State) (a : Nat) (bs : List Byte) (o : Fin 4) (x : Fin 16) :
    (s.toHost a bs).ctx o x = s.ctx o x := rfl
@[simp] theorem State.unit_toHost (s : State) (a : Nat) (bs : List Byte) (u : UnitId) :
    (s.toHost a bs).unit u = s.unit u := rfl
@[simp] theorem State.core_sendIrq (s : State) (v : Nat) (d : CoreId) :
    (s.sendIrq v).core d = s.core d := rfl
@[simp] theorem State.cluster_sendIrq (s : State) (v : Nat) (d : ClusterId) :
    (s.sendIrq v).cluster d = s.cluster d := rfl
@[simp] theorem State.part_sendIrq (s : State) (v : Nat) (o : Fin 4) :
    (s.sendIrq v).part o = s.part o := rfl
@[simp] theorem State.link_sendIrq (s : State) (v : Nat) (m : Fin 48) :
    (s.sendIrq v).link m = s.link m := rfl
@[simp] theorem State.stack_sendIrq (s : State) (v : Nat) (j : Fin 12) :
    (s.sendIrq v).stack j = s.stack j := rfl
@[simp] theorem State.queue_sendIrq (s : State) (v : Nat) (r : Fin 256) :
    (s.sendIrq v).queue r = s.queue r := rfl
@[simp] theorem State.eventQ_sendIrq (s : State) (v : Nat) (w : Fin 8) :
    (s.sendIrq v).eventQ w = s.eventQ w := rfl
@[simp] theorem State.seqd_sendIrq (s : State) (v : Nat) (m : Nat) :
    (s.sendIrq v).seqd m = s.seqd m := rfl
@[simp] theorem State.ctx_sendIrq (s : State) (v : Nat) (o : Fin 4) (x : Fin 16) :
    (s.sendIrq v).ctx o x = s.ctx o x := rfl
@[simp] theorem State.unit_sendIrq (s : State) (v : Nat) (u : UnitId) :
    (s.sendIrq v).unit u = s.unit u := rfl
@[simp] theorem State.core_updPkts (s : State) (f : Pkt → Bool) (g : Pkt → Pkt) (d : CoreId) :
    (s.updPkts f g).core d = s.core d := rfl
@[simp] theorem State.cluster_updPkts (s : State) (f : Pkt → Bool) (g : Pkt → Pkt) (d : ClusterId) :
    (s.updPkts f g).cluster d = s.cluster d := rfl
@[simp] theorem State.part_updPkts (s : State) (f : Pkt → Bool) (g : Pkt → Pkt) (o : Fin 4) :
    (s.updPkts f g).part o = s.part o := rfl
@[simp] theorem State.link_updPkts (s : State) (f : Pkt → Bool) (g : Pkt → Pkt) (m : Fin 48) :
    (s.updPkts f g).link m = s.link m := rfl
@[simp] theorem State.stack_updPkts (s : State) (f : Pkt → Bool) (g : Pkt → Pkt) (j : Fin 12) :
    (s.updPkts f g).stack j = s.stack j := rfl
@[simp] theorem State.queue_updPkts (s : State) (f : Pkt → Bool) (g : Pkt → Pkt) (r : Fin 256) :
    (s.updPkts f g).queue r = s.queue r := rfl
@[simp] theorem State.eventQ_updPkts (s : State) (f : Pkt → Bool) (g : Pkt → Pkt) (w : Fin 8) :
    (s.updPkts f g).eventQ w = s.eventQ w := rfl
@[simp] theorem State.seqd_updPkts (s : State) (f : Pkt → Bool) (g : Pkt → Pkt) (m : Nat) :
    (s.updPkts f g).seqd m = s.seqd m := rfl
@[simp] theorem State.ctx_updPkts (s : State) (f : Pkt → Bool) (g : Pkt → Pkt) (o : Fin 4) (x : Fin 16) :
    (s.updPkts f g).ctx o x = s.ctx o x := rfl
@[simp] theorem State.unit_updPkts (s : State) (f : Pkt → Bool) (g : Pkt → Pkt) (u : UnitId) :
    (s.updPkts f g).unit u = s.unit u := rfl

/-! ### What an update leaves of each field -/

@[simp] theorem State.pending_setCore (s : State) (c : CoreId) (v : Core) : (s.setCore c v).pending = s.pending := rfl
@[simp] theorem State.freeCtr_setCore (s : State) (c : CoreId) (v : Core) : (s.setCore c v).freeCtr = s.freeCtr := rfl
@[simp] theorem State.hkCount_setCore (s : State) (c : CoreId) (v : Core) : (s.setCore c v).hkCount = s.hkCount := rfl
@[simp] theorem State.mem_setCore (s : State) (c : CoreId) (v : Core) : (s.setCore c v).mem = s.mem := rfl
@[simp] theorem State.memErr_setCore (s : State) (c : CoreId) (v : Core) : (s.setCore c v).memErr = s.memErr := rfl
@[simp] theorem State.hostMem_setCore (s : State) (c : CoreId) (v : Core) : (s.setCore c v).hostMem = s.hostMem := rfl
@[simp] theorem State.hostErr_setCore (s : State) (c : CoreId) (v : Core) : (s.setCore c v).hostErr = s.hostErr := rfl
@[simp] theorem State.cxlOut_setCore (s : State) (c : CoreId) (v : Core) : (s.setCore c v).cxlOut = s.cxlOut := rfl
@[simp] theorem State.irqSent_setCore (s : State) (c : CoreId) (v : Core) : (s.setCore c v).irqSent = s.irqSent := rfl
@[simp] theorem State.hi_setCore (s : State) (c : CoreId) (v : Core) : (s.setCore c v).hi = s.hi := rfl
@[simp] theorem State.evq_setCore (s : State) (c : CoreId) (v : Core) : (s.setCore c v).evq = s.evq := rfl
@[simp] theorem State.evSeq_setCore (s : State) (c : CoreId) (v : Core) : (s.setCore c v).evSeq = s.evSeq := rfl
@[simp] theorem State.evLate_setCore (s : State) (c : CoreId) (v : Core) : (s.setCore c v).evLate = s.evLate := rfl
@[simp] theorem State.msix_setCore (s : State) (c : CoreId) (v : Core) : (s.setCore c v).msix = s.msix := rfl
@[simp] theorem State.pba_setCore (s : State) (c : CoreId) (v : Core) : (s.setCore c v).pba = s.pba := rfl
@[simp] theorem State.wqs_setCore (s : State) (c : CoreId) (v : Core) : (s.setCore c v).wqs = s.wqs := rfl
@[simp] theorem State.pkts_setCore (s : State) (c : CoreId) (v : Core) : (s.setCore c v).pkts = s.pkts := rfl
@[simp] theorem State.pw_setCore (s : State) (c : CoreId) (v : Core) : (s.setCore c v).pw = s.pw := rfl
@[simp] theorem State.th_setCore (s : State) (c : CoreId) (v : Core) : (s.setCore c v).th = s.th := rfl
@[simp] theorem State.hk_setCore (s : State) (c : CoreId) (v : Core) : (s.setCore c v).hk = s.hk := rfl
@[simp] theorem State.ta_setCore (s : State) (c : CoreId) (v : Core) : (s.setCore c v).ta = s.ta := rfl
@[simp] theorem State.spdm_setCore (s : State) (c : CoreId) (v : Core) : (s.setCore c v).spdm = s.spdm := rfl
@[simp] theorem State.img_setCore (s : State) (c : CoreId) (v : Core) : (s.setCore c v).img = s.img := rfl
@[simp] theorem State.cad_setCore (s : State) (c : CoreId) (v : Core) : (s.setCore c v).cad = s.cad := rfl
@[simp] theorem State.seqs_setCore (s : State) (c : CoreId) (v : Core) : (s.setCore c v).seqs = s.seqs := rfl
@[simp] theorem State.rowsDev_setCore (s : State) (c : CoreId) (v : Core) : (s.setCore c v).rowsDev = s.rowsDev := rfl
@[simp] theorem State.devId_setCore (s : State) (c : CoreId) (v : Core) : (s.setCore c v).devId = s.devId := rfl
@[simp] theorem State.stepping_setCore (s : State) (c : CoreId) (v : Core) : (s.setCore c v).stepping = s.stepping := rfl
@[simp] theorem State.fwVer_setCore (s : State) (c : CoreId) (v : Core) : (s.setCore c v).fwVer = s.fwVer := rfl
@[simp] theorem State.waits_setCore (s : State) (c : CoreId) (v : Core) : (s.setCore c v).waits = s.waits := rfl
@[simp] theorem State.hostDir_setCore (s : State) (c : CoreId) (v : Core) : (s.setCore c v).hostDir = s.hostDir := rfl
@[simp] theorem State.backInv_setCore (s : State) (c : CoreId) (v : Core) : (s.setCore c v).backInv = s.backInv := rfl
@[simp] theorem State.parked_setCore (s : State) (c : CoreId) (v : Core) : (s.setCore c v).parked = s.parked := rfl
@[simp] theorem State.weightSeen_setCore (s : State) (c : CoreId) (v : Core) : (s.setCore c v).weightSeen = s.weightSeen := rfl
@[simp] theorem State.colls_setCore (s : State) (c : CoreId) (v : Core) : (s.setCore c v).colls = s.colls := rfl
@[simp] theorem State.hostRsp_setCore (s : State) (c : CoreId) (v : Core) : (s.setCore c v).hostRsp = s.hostRsp := rfl
@[simp] theorem State.inc_setCore (s : State) (c : CoreId) (v : Core) : (s.setCore c v).inc = s.inc := rfl
@[simp] theorem State.spareGuard_setCore (s : State) (c : CoreId) (v : Core) : (s.setCore c v).spareGuard = s.spareGuard := rfl
@[simp] theorem State.repairImg_setCore (s : State) (c : CoreId) (v : Core) : (s.setCore c v).repairImg = s.repairImg := rfl
@[simp] theorem State.parts_setCore (s : State) (c : CoreId) (v : Core) : (s.setCore c v).parts = s.parts := rfl
@[simp] theorem State.clusters_setCore (s : State) (c : CoreId) (v : Core) : (s.setCore c v).clusters = s.clusters := rfl
@[simp] theorem State.links_setCore (s : State) (c : CoreId) (v : Core) : (s.setCore c v).links = s.links := rfl
@[simp] theorem State.stks_setCore (s : State) (c : CoreId) (v : Core) : (s.setCore c v).stks = s.stks := rfl
@[simp] theorem State.sramCnt_setCore (s : State) (c : CoreId) (v : Core) : (s.setCore c v).sramCnt = s.sramCnt := rfl
@[simp] theorem State.pending_setCluster (s : State) (c : ClusterId) (v : Cluster) : (s.setCluster c v).pending = s.pending := rfl
@[simp] theorem State.freeCtr_setCluster (s : State) (c : ClusterId) (v : Cluster) : (s.setCluster c v).freeCtr = s.freeCtr := rfl
@[simp] theorem State.hkCount_setCluster (s : State) (c : ClusterId) (v : Cluster) : (s.setCluster c v).hkCount = s.hkCount := rfl
@[simp] theorem State.mem_setCluster (s : State) (c : ClusterId) (v : Cluster) : (s.setCluster c v).mem = s.mem := rfl
@[simp] theorem State.memErr_setCluster (s : State) (c : ClusterId) (v : Cluster) : (s.setCluster c v).memErr = s.memErr := rfl
@[simp] theorem State.hostMem_setCluster (s : State) (c : ClusterId) (v : Cluster) : (s.setCluster c v).hostMem = s.hostMem := rfl
@[simp] theorem State.hostErr_setCluster (s : State) (c : ClusterId) (v : Cluster) : (s.setCluster c v).hostErr = s.hostErr := rfl
@[simp] theorem State.cxlOut_setCluster (s : State) (c : ClusterId) (v : Cluster) : (s.setCluster c v).cxlOut = s.cxlOut := rfl
@[simp] theorem State.irqSent_setCluster (s : State) (c : ClusterId) (v : Cluster) : (s.setCluster c v).irqSent = s.irqSent := rfl
@[simp] theorem State.hi_setCluster (s : State) (c : ClusterId) (v : Cluster) : (s.setCluster c v).hi = s.hi := rfl
@[simp] theorem State.evq_setCluster (s : State) (c : ClusterId) (v : Cluster) : (s.setCluster c v).evq = s.evq := rfl
@[simp] theorem State.evSeq_setCluster (s : State) (c : ClusterId) (v : Cluster) : (s.setCluster c v).evSeq = s.evSeq := rfl
@[simp] theorem State.evLate_setCluster (s : State) (c : ClusterId) (v : Cluster) : (s.setCluster c v).evLate = s.evLate := rfl
@[simp] theorem State.msix_setCluster (s : State) (c : ClusterId) (v : Cluster) : (s.setCluster c v).msix = s.msix := rfl
@[simp] theorem State.pba_setCluster (s : State) (c : ClusterId) (v : Cluster) : (s.setCluster c v).pba = s.pba := rfl
@[simp] theorem State.wqs_setCluster (s : State) (c : ClusterId) (v : Cluster) : (s.setCluster c v).wqs = s.wqs := rfl
@[simp] theorem State.pkts_setCluster (s : State) (c : ClusterId) (v : Cluster) : (s.setCluster c v).pkts = s.pkts := rfl
@[simp] theorem State.pw_setCluster (s : State) (c : ClusterId) (v : Cluster) : (s.setCluster c v).pw = s.pw := rfl
@[simp] theorem State.th_setCluster (s : State) (c : ClusterId) (v : Cluster) : (s.setCluster c v).th = s.th := rfl
@[simp] theorem State.hk_setCluster (s : State) (c : ClusterId) (v : Cluster) : (s.setCluster c v).hk = s.hk := rfl
@[simp] theorem State.ta_setCluster (s : State) (c : ClusterId) (v : Cluster) : (s.setCluster c v).ta = s.ta := rfl
@[simp] theorem State.spdm_setCluster (s : State) (c : ClusterId) (v : Cluster) : (s.setCluster c v).spdm = s.spdm := rfl
@[simp] theorem State.img_setCluster (s : State) (c : ClusterId) (v : Cluster) : (s.setCluster c v).img = s.img := rfl
@[simp] theorem State.cad_setCluster (s : State) (c : ClusterId) (v : Cluster) : (s.setCluster c v).cad = s.cad := rfl
@[simp] theorem State.seqs_setCluster (s : State) (c : ClusterId) (v : Cluster) : (s.setCluster c v).seqs = s.seqs := rfl
@[simp] theorem State.rowsDev_setCluster (s : State) (c : ClusterId) (v : Cluster) : (s.setCluster c v).rowsDev = s.rowsDev := rfl
@[simp] theorem State.devId_setCluster (s : State) (c : ClusterId) (v : Cluster) : (s.setCluster c v).devId = s.devId := rfl
@[simp] theorem State.stepping_setCluster (s : State) (c : ClusterId) (v : Cluster) : (s.setCluster c v).stepping = s.stepping := rfl
@[simp] theorem State.fwVer_setCluster (s : State) (c : ClusterId) (v : Cluster) : (s.setCluster c v).fwVer = s.fwVer := rfl
@[simp] theorem State.waits_setCluster (s : State) (c : ClusterId) (v : Cluster) : (s.setCluster c v).waits = s.waits := rfl
@[simp] theorem State.hostDir_setCluster (s : State) (c : ClusterId) (v : Cluster) : (s.setCluster c v).hostDir = s.hostDir := rfl
@[simp] theorem State.backInv_setCluster (s : State) (c : ClusterId) (v : Cluster) : (s.setCluster c v).backInv = s.backInv := rfl
@[simp] theorem State.parked_setCluster (s : State) (c : ClusterId) (v : Cluster) : (s.setCluster c v).parked = s.parked := rfl
@[simp] theorem State.weightSeen_setCluster (s : State) (c : ClusterId) (v : Cluster) : (s.setCluster c v).weightSeen = s.weightSeen := rfl
@[simp] theorem State.colls_setCluster (s : State) (c : ClusterId) (v : Cluster) : (s.setCluster c v).colls = s.colls := rfl
@[simp] theorem State.hostRsp_setCluster (s : State) (c : ClusterId) (v : Cluster) : (s.setCluster c v).hostRsp = s.hostRsp := rfl
@[simp] theorem State.inc_setCluster (s : State) (c : ClusterId) (v : Cluster) : (s.setCluster c v).inc = s.inc := rfl
@[simp] theorem State.spareGuard_setCluster (s : State) (c : ClusterId) (v : Cluster) : (s.setCluster c v).spareGuard = s.spareGuard := rfl
@[simp] theorem State.repairImg_setCluster (s : State) (c : ClusterId) (v : Cluster) : (s.setCluster c v).repairImg = s.repairImg := rfl
@[simp] theorem State.parts_setCluster (s : State) (c : ClusterId) (v : Cluster) : (s.setCluster c v).parts = s.parts := rfl
@[simp] theorem State.cores_setCluster (s : State) (c : ClusterId) (v : Cluster) : (s.setCluster c v).cores = s.cores := rfl
@[simp] theorem State.links_setCluster (s : State) (c : ClusterId) (v : Cluster) : (s.setCluster c v).links = s.links := rfl
@[simp] theorem State.stks_setCluster (s : State) (c : ClusterId) (v : Cluster) : (s.setCluster c v).stks = s.stks := rfl
@[simp] theorem State.sramCnt_setCluster (s : State) (c : ClusterId) (v : Cluster) : (s.setCluster c v).sramCnt = s.sramCnt := rfl
@[simp] theorem State.pending_setPart (s : State) (p : Fin 4) (v : Part) : (s.setPart p v).pending = s.pending := rfl
@[simp] theorem State.freeCtr_setPart (s : State) (p : Fin 4) (v : Part) : (s.setPart p v).freeCtr = s.freeCtr := rfl
@[simp] theorem State.hkCount_setPart (s : State) (p : Fin 4) (v : Part) : (s.setPart p v).hkCount = s.hkCount := rfl
@[simp] theorem State.mem_setPart (s : State) (p : Fin 4) (v : Part) : (s.setPart p v).mem = s.mem := rfl
@[simp] theorem State.memErr_setPart (s : State) (p : Fin 4) (v : Part) : (s.setPart p v).memErr = s.memErr := rfl
@[simp] theorem State.hostMem_setPart (s : State) (p : Fin 4) (v : Part) : (s.setPart p v).hostMem = s.hostMem := rfl
@[simp] theorem State.hostErr_setPart (s : State) (p : Fin 4) (v : Part) : (s.setPart p v).hostErr = s.hostErr := rfl
@[simp] theorem State.cxlOut_setPart (s : State) (p : Fin 4) (v : Part) : (s.setPart p v).cxlOut = s.cxlOut := rfl
@[simp] theorem State.irqSent_setPart (s : State) (p : Fin 4) (v : Part) : (s.setPart p v).irqSent = s.irqSent := rfl
@[simp] theorem State.hi_setPart (s : State) (p : Fin 4) (v : Part) : (s.setPart p v).hi = s.hi := rfl
@[simp] theorem State.evq_setPart (s : State) (p : Fin 4) (v : Part) : (s.setPart p v).evq = s.evq := rfl
@[simp] theorem State.evSeq_setPart (s : State) (p : Fin 4) (v : Part) : (s.setPart p v).evSeq = s.evSeq := rfl
@[simp] theorem State.evLate_setPart (s : State) (p : Fin 4) (v : Part) : (s.setPart p v).evLate = s.evLate := rfl
@[simp] theorem State.msix_setPart (s : State) (p : Fin 4) (v : Part) : (s.setPart p v).msix = s.msix := rfl
@[simp] theorem State.pba_setPart (s : State) (p : Fin 4) (v : Part) : (s.setPart p v).pba = s.pba := rfl
@[simp] theorem State.wqs_setPart (s : State) (p : Fin 4) (v : Part) : (s.setPart p v).wqs = s.wqs := rfl
@[simp] theorem State.pkts_setPart (s : State) (p : Fin 4) (v : Part) : (s.setPart p v).pkts = s.pkts := rfl
@[simp] theorem State.pw_setPart (s : State) (p : Fin 4) (v : Part) : (s.setPart p v).pw = s.pw := rfl
@[simp] theorem State.th_setPart (s : State) (p : Fin 4) (v : Part) : (s.setPart p v).th = s.th := rfl
@[simp] theorem State.hk_setPart (s : State) (p : Fin 4) (v : Part) : (s.setPart p v).hk = s.hk := rfl
@[simp] theorem State.ta_setPart (s : State) (p : Fin 4) (v : Part) : (s.setPart p v).ta = s.ta := rfl
@[simp] theorem State.spdm_setPart (s : State) (p : Fin 4) (v : Part) : (s.setPart p v).spdm = s.spdm := rfl
@[simp] theorem State.img_setPart (s : State) (p : Fin 4) (v : Part) : (s.setPart p v).img = s.img := rfl
@[simp] theorem State.cad_setPart (s : State) (p : Fin 4) (v : Part) : (s.setPart p v).cad = s.cad := rfl
@[simp] theorem State.seqs_setPart (s : State) (p : Fin 4) (v : Part) : (s.setPart p v).seqs = s.seqs := rfl
@[simp] theorem State.rowsDev_setPart (s : State) (p : Fin 4) (v : Part) : (s.setPart p v).rowsDev = s.rowsDev := rfl
@[simp] theorem State.devId_setPart (s : State) (p : Fin 4) (v : Part) : (s.setPart p v).devId = s.devId := rfl
@[simp] theorem State.stepping_setPart (s : State) (p : Fin 4) (v : Part) : (s.setPart p v).stepping = s.stepping := rfl
@[simp] theorem State.fwVer_setPart (s : State) (p : Fin 4) (v : Part) : (s.setPart p v).fwVer = s.fwVer := rfl
@[simp] theorem State.waits_setPart (s : State) (p : Fin 4) (v : Part) : (s.setPart p v).waits = s.waits := rfl
@[simp] theorem State.hostDir_setPart (s : State) (p : Fin 4) (v : Part) : (s.setPart p v).hostDir = s.hostDir := rfl
@[simp] theorem State.backInv_setPart (s : State) (p : Fin 4) (v : Part) : (s.setPart p v).backInv = s.backInv := rfl
@[simp] theorem State.parked_setPart (s : State) (p : Fin 4) (v : Part) : (s.setPart p v).parked = s.parked := rfl
@[simp] theorem State.weightSeen_setPart (s : State) (p : Fin 4) (v : Part) : (s.setPart p v).weightSeen = s.weightSeen := rfl
@[simp] theorem State.colls_setPart (s : State) (p : Fin 4) (v : Part) : (s.setPart p v).colls = s.colls := rfl
@[simp] theorem State.hostRsp_setPart (s : State) (p : Fin 4) (v : Part) : (s.setPart p v).hostRsp = s.hostRsp := rfl
@[simp] theorem State.inc_setPart (s : State) (p : Fin 4) (v : Part) : (s.setPart p v).inc = s.inc := rfl
@[simp] theorem State.spareGuard_setPart (s : State) (p : Fin 4) (v : Part) : (s.setPart p v).spareGuard = s.spareGuard := rfl
@[simp] theorem State.repairImg_setPart (s : State) (p : Fin 4) (v : Part) : (s.setPart p v).repairImg = s.repairImg := rfl
@[simp] theorem State.clusters_setPart (s : State) (p : Fin 4) (v : Part) : (s.setPart p v).clusters = s.clusters := rfl
@[simp] theorem State.cores_setPart (s : State) (p : Fin 4) (v : Part) : (s.setPart p v).cores = s.cores := rfl
@[simp] theorem State.links_setPart (s : State) (p : Fin 4) (v : Part) : (s.setPart p v).links = s.links := rfl
@[simp] theorem State.stks_setPart (s : State) (p : Fin 4) (v : Part) : (s.setPart p v).stks = s.stks := rfl
@[simp] theorem State.sramCnt_setPart (s : State) (p : Fin 4) (v : Part) : (s.setPart p v).sramCnt = s.sramCnt := rfl
@[simp] theorem State.pending_setLink (s : State) (l : Fin 48) (v : Link) : (s.setLink l v).pending = s.pending := rfl
@[simp] theorem State.freeCtr_setLink (s : State) (l : Fin 48) (v : Link) : (s.setLink l v).freeCtr = s.freeCtr := rfl
@[simp] theorem State.hkCount_setLink (s : State) (l : Fin 48) (v : Link) : (s.setLink l v).hkCount = s.hkCount := rfl
@[simp] theorem State.mem_setLink (s : State) (l : Fin 48) (v : Link) : (s.setLink l v).mem = s.mem := rfl
@[simp] theorem State.memErr_setLink (s : State) (l : Fin 48) (v : Link) : (s.setLink l v).memErr = s.memErr := rfl
@[simp] theorem State.hostMem_setLink (s : State) (l : Fin 48) (v : Link) : (s.setLink l v).hostMem = s.hostMem := rfl
@[simp] theorem State.hostErr_setLink (s : State) (l : Fin 48) (v : Link) : (s.setLink l v).hostErr = s.hostErr := rfl
@[simp] theorem State.cxlOut_setLink (s : State) (l : Fin 48) (v : Link) : (s.setLink l v).cxlOut = s.cxlOut := rfl
@[simp] theorem State.irqSent_setLink (s : State) (l : Fin 48) (v : Link) : (s.setLink l v).irqSent = s.irqSent := rfl
@[simp] theorem State.hi_setLink (s : State) (l : Fin 48) (v : Link) : (s.setLink l v).hi = s.hi := rfl
@[simp] theorem State.evq_setLink (s : State) (l : Fin 48) (v : Link) : (s.setLink l v).evq = s.evq := rfl
@[simp] theorem State.evSeq_setLink (s : State) (l : Fin 48) (v : Link) : (s.setLink l v).evSeq = s.evSeq := rfl
@[simp] theorem State.evLate_setLink (s : State) (l : Fin 48) (v : Link) : (s.setLink l v).evLate = s.evLate := rfl
@[simp] theorem State.msix_setLink (s : State) (l : Fin 48) (v : Link) : (s.setLink l v).msix = s.msix := rfl
@[simp] theorem State.pba_setLink (s : State) (l : Fin 48) (v : Link) : (s.setLink l v).pba = s.pba := rfl
@[simp] theorem State.wqs_setLink (s : State) (l : Fin 48) (v : Link) : (s.setLink l v).wqs = s.wqs := rfl
@[simp] theorem State.pkts_setLink (s : State) (l : Fin 48) (v : Link) : (s.setLink l v).pkts = s.pkts := rfl
@[simp] theorem State.pw_setLink (s : State) (l : Fin 48) (v : Link) : (s.setLink l v).pw = s.pw := rfl
@[simp] theorem State.th_setLink (s : State) (l : Fin 48) (v : Link) : (s.setLink l v).th = s.th := rfl
@[simp] theorem State.hk_setLink (s : State) (l : Fin 48) (v : Link) : (s.setLink l v).hk = s.hk := rfl
@[simp] theorem State.ta_setLink (s : State) (l : Fin 48) (v : Link) : (s.setLink l v).ta = s.ta := rfl
@[simp] theorem State.spdm_setLink (s : State) (l : Fin 48) (v : Link) : (s.setLink l v).spdm = s.spdm := rfl
@[simp] theorem State.img_setLink (s : State) (l : Fin 48) (v : Link) : (s.setLink l v).img = s.img := rfl
@[simp] theorem State.cad_setLink (s : State) (l : Fin 48) (v : Link) : (s.setLink l v).cad = s.cad := rfl
@[simp] theorem State.seqs_setLink (s : State) (l : Fin 48) (v : Link) : (s.setLink l v).seqs = s.seqs := rfl
@[simp] theorem State.rowsDev_setLink (s : State) (l : Fin 48) (v : Link) : (s.setLink l v).rowsDev = s.rowsDev := rfl
@[simp] theorem State.devId_setLink (s : State) (l : Fin 48) (v : Link) : (s.setLink l v).devId = s.devId := rfl
@[simp] theorem State.stepping_setLink (s : State) (l : Fin 48) (v : Link) : (s.setLink l v).stepping = s.stepping := rfl
@[simp] theorem State.fwVer_setLink (s : State) (l : Fin 48) (v : Link) : (s.setLink l v).fwVer = s.fwVer := rfl
@[simp] theorem State.waits_setLink (s : State) (l : Fin 48) (v : Link) : (s.setLink l v).waits = s.waits := rfl
@[simp] theorem State.hostDir_setLink (s : State) (l : Fin 48) (v : Link) : (s.setLink l v).hostDir = s.hostDir := rfl
@[simp] theorem State.backInv_setLink (s : State) (l : Fin 48) (v : Link) : (s.setLink l v).backInv = s.backInv := rfl
@[simp] theorem State.parked_setLink (s : State) (l : Fin 48) (v : Link) : (s.setLink l v).parked = s.parked := rfl
@[simp] theorem State.weightSeen_setLink (s : State) (l : Fin 48) (v : Link) : (s.setLink l v).weightSeen = s.weightSeen := rfl
@[simp] theorem State.colls_setLink (s : State) (l : Fin 48) (v : Link) : (s.setLink l v).colls = s.colls := rfl
@[simp] theorem State.hostRsp_setLink (s : State) (l : Fin 48) (v : Link) : (s.setLink l v).hostRsp = s.hostRsp := rfl
@[simp] theorem State.inc_setLink (s : State) (l : Fin 48) (v : Link) : (s.setLink l v).inc = s.inc := rfl
@[simp] theorem State.spareGuard_setLink (s : State) (l : Fin 48) (v : Link) : (s.setLink l v).spareGuard = s.spareGuard := rfl
@[simp] theorem State.repairImg_setLink (s : State) (l : Fin 48) (v : Link) : (s.setLink l v).repairImg = s.repairImg := rfl
@[simp] theorem State.parts_setLink (s : State) (l : Fin 48) (v : Link) : (s.setLink l v).parts = s.parts := rfl
@[simp] theorem State.clusters_setLink (s : State) (l : Fin 48) (v : Link) : (s.setLink l v).clusters = s.clusters := rfl
@[simp] theorem State.cores_setLink (s : State) (l : Fin 48) (v : Link) : (s.setLink l v).cores = s.cores := rfl
@[simp] theorem State.stks_setLink (s : State) (l : Fin 48) (v : Link) : (s.setLink l v).stks = s.stks := rfl
@[simp] theorem State.sramCnt_setLink (s : State) (l : Fin 48) (v : Link) : (s.setLink l v).sramCnt = s.sramCnt := rfl
@[simp] theorem State.pending_setStack (s : State) (k : Fin 12) (v : Stack) : (s.setStack k v).pending = s.pending := rfl
@[simp] theorem State.freeCtr_setStack (s : State) (k : Fin 12) (v : Stack) : (s.setStack k v).freeCtr = s.freeCtr := rfl
@[simp] theorem State.hkCount_setStack (s : State) (k : Fin 12) (v : Stack) : (s.setStack k v).hkCount = s.hkCount := rfl
@[simp] theorem State.mem_setStack (s : State) (k : Fin 12) (v : Stack) : (s.setStack k v).mem = s.mem := rfl
@[simp] theorem State.memErr_setStack (s : State) (k : Fin 12) (v : Stack) : (s.setStack k v).memErr = s.memErr := rfl
@[simp] theorem State.hostMem_setStack (s : State) (k : Fin 12) (v : Stack) : (s.setStack k v).hostMem = s.hostMem := rfl
@[simp] theorem State.hostErr_setStack (s : State) (k : Fin 12) (v : Stack) : (s.setStack k v).hostErr = s.hostErr := rfl
@[simp] theorem State.cxlOut_setStack (s : State) (k : Fin 12) (v : Stack) : (s.setStack k v).cxlOut = s.cxlOut := rfl
@[simp] theorem State.irqSent_setStack (s : State) (k : Fin 12) (v : Stack) : (s.setStack k v).irqSent = s.irqSent := rfl
@[simp] theorem State.hi_setStack (s : State) (k : Fin 12) (v : Stack) : (s.setStack k v).hi = s.hi := rfl
@[simp] theorem State.evq_setStack (s : State) (k : Fin 12) (v : Stack) : (s.setStack k v).evq = s.evq := rfl
@[simp] theorem State.evSeq_setStack (s : State) (k : Fin 12) (v : Stack) : (s.setStack k v).evSeq = s.evSeq := rfl
@[simp] theorem State.evLate_setStack (s : State) (k : Fin 12) (v : Stack) : (s.setStack k v).evLate = s.evLate := rfl
@[simp] theorem State.msix_setStack (s : State) (k : Fin 12) (v : Stack) : (s.setStack k v).msix = s.msix := rfl
@[simp] theorem State.pba_setStack (s : State) (k : Fin 12) (v : Stack) : (s.setStack k v).pba = s.pba := rfl
@[simp] theorem State.wqs_setStack (s : State) (k : Fin 12) (v : Stack) : (s.setStack k v).wqs = s.wqs := rfl
@[simp] theorem State.pkts_setStack (s : State) (k : Fin 12) (v : Stack) : (s.setStack k v).pkts = s.pkts := rfl
@[simp] theorem State.pw_setStack (s : State) (k : Fin 12) (v : Stack) : (s.setStack k v).pw = s.pw := rfl
@[simp] theorem State.th_setStack (s : State) (k : Fin 12) (v : Stack) : (s.setStack k v).th = s.th := rfl
@[simp] theorem State.hk_setStack (s : State) (k : Fin 12) (v : Stack) : (s.setStack k v).hk = s.hk := rfl
@[simp] theorem State.ta_setStack (s : State) (k : Fin 12) (v : Stack) : (s.setStack k v).ta = s.ta := rfl
@[simp] theorem State.spdm_setStack (s : State) (k : Fin 12) (v : Stack) : (s.setStack k v).spdm = s.spdm := rfl
@[simp] theorem State.img_setStack (s : State) (k : Fin 12) (v : Stack) : (s.setStack k v).img = s.img := rfl
@[simp] theorem State.cad_setStack (s : State) (k : Fin 12) (v : Stack) : (s.setStack k v).cad = s.cad := rfl
@[simp] theorem State.seqs_setStack (s : State) (k : Fin 12) (v : Stack) : (s.setStack k v).seqs = s.seqs := rfl
@[simp] theorem State.rowsDev_setStack (s : State) (k : Fin 12) (v : Stack) : (s.setStack k v).rowsDev = s.rowsDev := rfl
@[simp] theorem State.devId_setStack (s : State) (k : Fin 12) (v : Stack) : (s.setStack k v).devId = s.devId := rfl
@[simp] theorem State.stepping_setStack (s : State) (k : Fin 12) (v : Stack) : (s.setStack k v).stepping = s.stepping := rfl
@[simp] theorem State.fwVer_setStack (s : State) (k : Fin 12) (v : Stack) : (s.setStack k v).fwVer = s.fwVer := rfl
@[simp] theorem State.waits_setStack (s : State) (k : Fin 12) (v : Stack) : (s.setStack k v).waits = s.waits := rfl
@[simp] theorem State.hostDir_setStack (s : State) (k : Fin 12) (v : Stack) : (s.setStack k v).hostDir = s.hostDir := rfl
@[simp] theorem State.backInv_setStack (s : State) (k : Fin 12) (v : Stack) : (s.setStack k v).backInv = s.backInv := rfl
@[simp] theorem State.parked_setStack (s : State) (k : Fin 12) (v : Stack) : (s.setStack k v).parked = s.parked := rfl
@[simp] theorem State.weightSeen_setStack (s : State) (k : Fin 12) (v : Stack) : (s.setStack k v).weightSeen = s.weightSeen := rfl
@[simp] theorem State.colls_setStack (s : State) (k : Fin 12) (v : Stack) : (s.setStack k v).colls = s.colls := rfl
@[simp] theorem State.hostRsp_setStack (s : State) (k : Fin 12) (v : Stack) : (s.setStack k v).hostRsp = s.hostRsp := rfl
@[simp] theorem State.inc_setStack (s : State) (k : Fin 12) (v : Stack) : (s.setStack k v).inc = s.inc := rfl
@[simp] theorem State.spareGuard_setStack (s : State) (k : Fin 12) (v : Stack) : (s.setStack k v).spareGuard = s.spareGuard := rfl
@[simp] theorem State.repairImg_setStack (s : State) (k : Fin 12) (v : Stack) : (s.setStack k v).repairImg = s.repairImg := rfl
@[simp] theorem State.parts_setStack (s : State) (k : Fin 12) (v : Stack) : (s.setStack k v).parts = s.parts := rfl
@[simp] theorem State.clusters_setStack (s : State) (k : Fin 12) (v : Stack) : (s.setStack k v).clusters = s.clusters := rfl
@[simp] theorem State.cores_setStack (s : State) (k : Fin 12) (v : Stack) : (s.setStack k v).cores = s.cores := rfl
@[simp] theorem State.links_setStack (s : State) (k : Fin 12) (v : Stack) : (s.setStack k v).links = s.links := rfl
@[simp] theorem State.sramCnt_setStack (s : State) (k : Fin 12) (v : Stack) : (s.setStack k v).sramCnt = s.sramCnt := rfl
@[simp] theorem State.pending_setQueue (s : State) (q : Fin 256) (v : Option WorkQ) : (s.setQueue q v).pending = s.pending := rfl
@[simp] theorem State.freeCtr_setQueue (s : State) (q : Fin 256) (v : Option WorkQ) : (s.setQueue q v).freeCtr = s.freeCtr := rfl
@[simp] theorem State.hkCount_setQueue (s : State) (q : Fin 256) (v : Option WorkQ) : (s.setQueue q v).hkCount = s.hkCount := rfl
@[simp] theorem State.mem_setQueue (s : State) (q : Fin 256) (v : Option WorkQ) : (s.setQueue q v).mem = s.mem := rfl
@[simp] theorem State.memErr_setQueue (s : State) (q : Fin 256) (v : Option WorkQ) : (s.setQueue q v).memErr = s.memErr := rfl
@[simp] theorem State.hostMem_setQueue (s : State) (q : Fin 256) (v : Option WorkQ) : (s.setQueue q v).hostMem = s.hostMem := rfl
@[simp] theorem State.hostErr_setQueue (s : State) (q : Fin 256) (v : Option WorkQ) : (s.setQueue q v).hostErr = s.hostErr := rfl
@[simp] theorem State.cxlOut_setQueue (s : State) (q : Fin 256) (v : Option WorkQ) : (s.setQueue q v).cxlOut = s.cxlOut := rfl
@[simp] theorem State.irqSent_setQueue (s : State) (q : Fin 256) (v : Option WorkQ) : (s.setQueue q v).irqSent = s.irqSent := rfl
@[simp] theorem State.hi_setQueue (s : State) (q : Fin 256) (v : Option WorkQ) : (s.setQueue q v).hi = s.hi := rfl
@[simp] theorem State.evq_setQueue (s : State) (q : Fin 256) (v : Option WorkQ) : (s.setQueue q v).evq = s.evq := rfl
@[simp] theorem State.evSeq_setQueue (s : State) (q : Fin 256) (v : Option WorkQ) : (s.setQueue q v).evSeq = s.evSeq := rfl
@[simp] theorem State.evLate_setQueue (s : State) (q : Fin 256) (v : Option WorkQ) : (s.setQueue q v).evLate = s.evLate := rfl
@[simp] theorem State.msix_setQueue (s : State) (q : Fin 256) (v : Option WorkQ) : (s.setQueue q v).msix = s.msix := rfl
@[simp] theorem State.pba_setQueue (s : State) (q : Fin 256) (v : Option WorkQ) : (s.setQueue q v).pba = s.pba := rfl
@[simp] theorem State.pkts_setQueue (s : State) (q : Fin 256) (v : Option WorkQ) : (s.setQueue q v).pkts = s.pkts := rfl
@[simp] theorem State.pw_setQueue (s : State) (q : Fin 256) (v : Option WorkQ) : (s.setQueue q v).pw = s.pw := rfl
@[simp] theorem State.th_setQueue (s : State) (q : Fin 256) (v : Option WorkQ) : (s.setQueue q v).th = s.th := rfl
@[simp] theorem State.hk_setQueue (s : State) (q : Fin 256) (v : Option WorkQ) : (s.setQueue q v).hk = s.hk := rfl
@[simp] theorem State.ta_setQueue (s : State) (q : Fin 256) (v : Option WorkQ) : (s.setQueue q v).ta = s.ta := rfl
@[simp] theorem State.spdm_setQueue (s : State) (q : Fin 256) (v : Option WorkQ) : (s.setQueue q v).spdm = s.spdm := rfl
@[simp] theorem State.img_setQueue (s : State) (q : Fin 256) (v : Option WorkQ) : (s.setQueue q v).img = s.img := rfl
@[simp] theorem State.cad_setQueue (s : State) (q : Fin 256) (v : Option WorkQ) : (s.setQueue q v).cad = s.cad := rfl
@[simp] theorem State.seqs_setQueue (s : State) (q : Fin 256) (v : Option WorkQ) : (s.setQueue q v).seqs = s.seqs := rfl
@[simp] theorem State.rowsDev_setQueue (s : State) (q : Fin 256) (v : Option WorkQ) : (s.setQueue q v).rowsDev = s.rowsDev := rfl
@[simp] theorem State.devId_setQueue (s : State) (q : Fin 256) (v : Option WorkQ) : (s.setQueue q v).devId = s.devId := rfl
@[simp] theorem State.stepping_setQueue (s : State) (q : Fin 256) (v : Option WorkQ) : (s.setQueue q v).stepping = s.stepping := rfl
@[simp] theorem State.fwVer_setQueue (s : State) (q : Fin 256) (v : Option WorkQ) : (s.setQueue q v).fwVer = s.fwVer := rfl
@[simp] theorem State.waits_setQueue (s : State) (q : Fin 256) (v : Option WorkQ) : (s.setQueue q v).waits = s.waits := rfl
@[simp] theorem State.hostDir_setQueue (s : State) (q : Fin 256) (v : Option WorkQ) : (s.setQueue q v).hostDir = s.hostDir := rfl
@[simp] theorem State.backInv_setQueue (s : State) (q : Fin 256) (v : Option WorkQ) : (s.setQueue q v).backInv = s.backInv := rfl
@[simp] theorem State.parked_setQueue (s : State) (q : Fin 256) (v : Option WorkQ) : (s.setQueue q v).parked = s.parked := rfl
@[simp] theorem State.weightSeen_setQueue (s : State) (q : Fin 256) (v : Option WorkQ) : (s.setQueue q v).weightSeen = s.weightSeen := rfl
@[simp] theorem State.colls_setQueue (s : State) (q : Fin 256) (v : Option WorkQ) : (s.setQueue q v).colls = s.colls := rfl
@[simp] theorem State.hostRsp_setQueue (s : State) (q : Fin 256) (v : Option WorkQ) : (s.setQueue q v).hostRsp = s.hostRsp := rfl
@[simp] theorem State.inc_setQueue (s : State) (q : Fin 256) (v : Option WorkQ) : (s.setQueue q v).inc = s.inc := rfl
@[simp] theorem State.spareGuard_setQueue (s : State) (q : Fin 256) (v : Option WorkQ) : (s.setQueue q v).spareGuard = s.spareGuard := rfl
@[simp] theorem State.repairImg_setQueue (s : State) (q : Fin 256) (v : Option WorkQ) : (s.setQueue q v).repairImg = s.repairImg := rfl
@[simp] theorem State.parts_setQueue (s : State) (q : Fin 256) (v : Option WorkQ) : (s.setQueue q v).parts = s.parts := rfl
@[simp] theorem State.clusters_setQueue (s : State) (q : Fin 256) (v : Option WorkQ) : (s.setQueue q v).clusters = s.clusters := rfl
@[simp] theorem State.cores_setQueue (s : State) (q : Fin 256) (v : Option WorkQ) : (s.setQueue q v).cores = s.cores := rfl
@[simp] theorem State.links_setQueue (s : State) (q : Fin 256) (v : Option WorkQ) : (s.setQueue q v).links = s.links := rfl
@[simp] theorem State.stks_setQueue (s : State) (q : Fin 256) (v : Option WorkQ) : (s.setQueue q v).stks = s.stks := rfl
@[simp] theorem State.sramCnt_setQueue (s : State) (q : Fin 256) (v : Option WorkQ) : (s.setQueue q v).sramCnt = s.sramCnt := rfl
@[simp] theorem State.pending_setEventQ (s : State) (e : Fin 8) (v : EvQ) : (s.setEventQ e v).pending = s.pending := rfl
@[simp] theorem State.freeCtr_setEventQ (s : State) (e : Fin 8) (v : EvQ) : (s.setEventQ e v).freeCtr = s.freeCtr := rfl
@[simp] theorem State.hkCount_setEventQ (s : State) (e : Fin 8) (v : EvQ) : (s.setEventQ e v).hkCount = s.hkCount := rfl
@[simp] theorem State.mem_setEventQ (s : State) (e : Fin 8) (v : EvQ) : (s.setEventQ e v).mem = s.mem := rfl
@[simp] theorem State.memErr_setEventQ (s : State) (e : Fin 8) (v : EvQ) : (s.setEventQ e v).memErr = s.memErr := rfl
@[simp] theorem State.hostMem_setEventQ (s : State) (e : Fin 8) (v : EvQ) : (s.setEventQ e v).hostMem = s.hostMem := rfl
@[simp] theorem State.hostErr_setEventQ (s : State) (e : Fin 8) (v : EvQ) : (s.setEventQ e v).hostErr = s.hostErr := rfl
@[simp] theorem State.cxlOut_setEventQ (s : State) (e : Fin 8) (v : EvQ) : (s.setEventQ e v).cxlOut = s.cxlOut := rfl
@[simp] theorem State.irqSent_setEventQ (s : State) (e : Fin 8) (v : EvQ) : (s.setEventQ e v).irqSent = s.irqSent := rfl
@[simp] theorem State.hi_setEventQ (s : State) (e : Fin 8) (v : EvQ) : (s.setEventQ e v).hi = s.hi := rfl
@[simp] theorem State.evSeq_setEventQ (s : State) (e : Fin 8) (v : EvQ) : (s.setEventQ e v).evSeq = s.evSeq := rfl
@[simp] theorem State.evLate_setEventQ (s : State) (e : Fin 8) (v : EvQ) : (s.setEventQ e v).evLate = s.evLate := rfl
@[simp] theorem State.msix_setEventQ (s : State) (e : Fin 8) (v : EvQ) : (s.setEventQ e v).msix = s.msix := rfl
@[simp] theorem State.pba_setEventQ (s : State) (e : Fin 8) (v : EvQ) : (s.setEventQ e v).pba = s.pba := rfl
@[simp] theorem State.wqs_setEventQ (s : State) (e : Fin 8) (v : EvQ) : (s.setEventQ e v).wqs = s.wqs := rfl
@[simp] theorem State.pkts_setEventQ (s : State) (e : Fin 8) (v : EvQ) : (s.setEventQ e v).pkts = s.pkts := rfl
@[simp] theorem State.pw_setEventQ (s : State) (e : Fin 8) (v : EvQ) : (s.setEventQ e v).pw = s.pw := rfl
@[simp] theorem State.th_setEventQ (s : State) (e : Fin 8) (v : EvQ) : (s.setEventQ e v).th = s.th := rfl
@[simp] theorem State.hk_setEventQ (s : State) (e : Fin 8) (v : EvQ) : (s.setEventQ e v).hk = s.hk := rfl
@[simp] theorem State.ta_setEventQ (s : State) (e : Fin 8) (v : EvQ) : (s.setEventQ e v).ta = s.ta := rfl
@[simp] theorem State.spdm_setEventQ (s : State) (e : Fin 8) (v : EvQ) : (s.setEventQ e v).spdm = s.spdm := rfl
@[simp] theorem State.img_setEventQ (s : State) (e : Fin 8) (v : EvQ) : (s.setEventQ e v).img = s.img := rfl
@[simp] theorem State.cad_setEventQ (s : State) (e : Fin 8) (v : EvQ) : (s.setEventQ e v).cad = s.cad := rfl
@[simp] theorem State.seqs_setEventQ (s : State) (e : Fin 8) (v : EvQ) : (s.setEventQ e v).seqs = s.seqs := rfl
@[simp] theorem State.rowsDev_setEventQ (s : State) (e : Fin 8) (v : EvQ) : (s.setEventQ e v).rowsDev = s.rowsDev := rfl
@[simp] theorem State.devId_setEventQ (s : State) (e : Fin 8) (v : EvQ) : (s.setEventQ e v).devId = s.devId := rfl
@[simp] theorem State.stepping_setEventQ (s : State) (e : Fin 8) (v : EvQ) : (s.setEventQ e v).stepping = s.stepping := rfl
@[simp] theorem State.fwVer_setEventQ (s : State) (e : Fin 8) (v : EvQ) : (s.setEventQ e v).fwVer = s.fwVer := rfl
@[simp] theorem State.waits_setEventQ (s : State) (e : Fin 8) (v : EvQ) : (s.setEventQ e v).waits = s.waits := rfl
@[simp] theorem State.hostDir_setEventQ (s : State) (e : Fin 8) (v : EvQ) : (s.setEventQ e v).hostDir = s.hostDir := rfl
@[simp] theorem State.backInv_setEventQ (s : State) (e : Fin 8) (v : EvQ) : (s.setEventQ e v).backInv = s.backInv := rfl
@[simp] theorem State.parked_setEventQ (s : State) (e : Fin 8) (v : EvQ) : (s.setEventQ e v).parked = s.parked := rfl
@[simp] theorem State.weightSeen_setEventQ (s : State) (e : Fin 8) (v : EvQ) : (s.setEventQ e v).weightSeen = s.weightSeen := rfl
@[simp] theorem State.colls_setEventQ (s : State) (e : Fin 8) (v : EvQ) : (s.setEventQ e v).colls = s.colls := rfl
@[simp] theorem State.hostRsp_setEventQ (s : State) (e : Fin 8) (v : EvQ) : (s.setEventQ e v).hostRsp = s.hostRsp := rfl
@[simp] theorem State.inc_setEventQ (s : State) (e : Fin 8) (v : EvQ) : (s.setEventQ e v).inc = s.inc := rfl
@[simp] theorem State.spareGuard_setEventQ (s : State) (e : Fin 8) (v : EvQ) : (s.setEventQ e v).spareGuard = s.spareGuard := rfl
@[simp] theorem State.repairImg_setEventQ (s : State) (e : Fin 8) (v : EvQ) : (s.setEventQ e v).repairImg = s.repairImg := rfl
@[simp] theorem State.parts_setEventQ (s : State) (e : Fin 8) (v : EvQ) : (s.setEventQ e v).parts = s.parts := rfl
@[simp] theorem State.clusters_setEventQ (s : State) (e : Fin 8) (v : EvQ) : (s.setEventQ e v).clusters = s.clusters := rfl
@[simp] theorem State.cores_setEventQ (s : State) (e : Fin 8) (v : EvQ) : (s.setEventQ e v).cores = s.cores := rfl
@[simp] theorem State.links_setEventQ (s : State) (e : Fin 8) (v : EvQ) : (s.setEventQ e v).links = s.links := rfl
@[simp] theorem State.stks_setEventQ (s : State) (e : Fin 8) (v : EvQ) : (s.setEventQ e v).stks = s.stks := rfl
@[simp] theorem State.sramCnt_setEventQ (s : State) (e : Fin 8) (v : EvQ) : (s.setEventQ e v).sramCnt = s.sramCnt := rfl
@[simp] theorem State.pending_setSeqd (s : State) (n : Nat) (v : SeqDesc) : (s.setSeqd n v).pending = s.pending := rfl
@[simp] theorem State.freeCtr_setSeqd (s : State) (n : Nat) (v : SeqDesc) : (s.setSeqd n v).freeCtr = s.freeCtr := rfl
@[simp] theorem State.hkCount_setSeqd (s : State) (n : Nat) (v : SeqDesc) : (s.setSeqd n v).hkCount = s.hkCount := rfl
@[simp] theorem State.mem_setSeqd (s : State) (n : Nat) (v : SeqDesc) : (s.setSeqd n v).mem = s.mem := rfl
@[simp] theorem State.memErr_setSeqd (s : State) (n : Nat) (v : SeqDesc) : (s.setSeqd n v).memErr = s.memErr := rfl
@[simp] theorem State.hostMem_setSeqd (s : State) (n : Nat) (v : SeqDesc) : (s.setSeqd n v).hostMem = s.hostMem := rfl
@[simp] theorem State.hostErr_setSeqd (s : State) (n : Nat) (v : SeqDesc) : (s.setSeqd n v).hostErr = s.hostErr := rfl
@[simp] theorem State.cxlOut_setSeqd (s : State) (n : Nat) (v : SeqDesc) : (s.setSeqd n v).cxlOut = s.cxlOut := rfl
@[simp] theorem State.irqSent_setSeqd (s : State) (n : Nat) (v : SeqDesc) : (s.setSeqd n v).irqSent = s.irqSent := rfl
@[simp] theorem State.hi_setSeqd (s : State) (n : Nat) (v : SeqDesc) : (s.setSeqd n v).hi = s.hi := rfl
@[simp] theorem State.evq_setSeqd (s : State) (n : Nat) (v : SeqDesc) : (s.setSeqd n v).evq = s.evq := rfl
@[simp] theorem State.evSeq_setSeqd (s : State) (n : Nat) (v : SeqDesc) : (s.setSeqd n v).evSeq = s.evSeq := rfl
@[simp] theorem State.evLate_setSeqd (s : State) (n : Nat) (v : SeqDesc) : (s.setSeqd n v).evLate = s.evLate := rfl
@[simp] theorem State.msix_setSeqd (s : State) (n : Nat) (v : SeqDesc) : (s.setSeqd n v).msix = s.msix := rfl
@[simp] theorem State.pba_setSeqd (s : State) (n : Nat) (v : SeqDesc) : (s.setSeqd n v).pba = s.pba := rfl
@[simp] theorem State.wqs_setSeqd (s : State) (n : Nat) (v : SeqDesc) : (s.setSeqd n v).wqs = s.wqs := rfl
@[simp] theorem State.pkts_setSeqd (s : State) (n : Nat) (v : SeqDesc) : (s.setSeqd n v).pkts = s.pkts := rfl
@[simp] theorem State.pw_setSeqd (s : State) (n : Nat) (v : SeqDesc) : (s.setSeqd n v).pw = s.pw := rfl
@[simp] theorem State.th_setSeqd (s : State) (n : Nat) (v : SeqDesc) : (s.setSeqd n v).th = s.th := rfl
@[simp] theorem State.hk_setSeqd (s : State) (n : Nat) (v : SeqDesc) : (s.setSeqd n v).hk = s.hk := rfl
@[simp] theorem State.ta_setSeqd (s : State) (n : Nat) (v : SeqDesc) : (s.setSeqd n v).ta = s.ta := rfl
@[simp] theorem State.spdm_setSeqd (s : State) (n : Nat) (v : SeqDesc) : (s.setSeqd n v).spdm = s.spdm := rfl
@[simp] theorem State.img_setSeqd (s : State) (n : Nat) (v : SeqDesc) : (s.setSeqd n v).img = s.img := rfl
@[simp] theorem State.cad_setSeqd (s : State) (n : Nat) (v : SeqDesc) : (s.setSeqd n v).cad = s.cad := rfl
@[simp] theorem State.rowsDev_setSeqd (s : State) (n : Nat) (v : SeqDesc) : (s.setSeqd n v).rowsDev = s.rowsDev := rfl
@[simp] theorem State.devId_setSeqd (s : State) (n : Nat) (v : SeqDesc) : (s.setSeqd n v).devId = s.devId := rfl
@[simp] theorem State.stepping_setSeqd (s : State) (n : Nat) (v : SeqDesc) : (s.setSeqd n v).stepping = s.stepping := rfl
@[simp] theorem State.fwVer_setSeqd (s : State) (n : Nat) (v : SeqDesc) : (s.setSeqd n v).fwVer = s.fwVer := rfl
@[simp] theorem State.waits_setSeqd (s : State) (n : Nat) (v : SeqDesc) : (s.setSeqd n v).waits = s.waits := rfl
@[simp] theorem State.hostDir_setSeqd (s : State) (n : Nat) (v : SeqDesc) : (s.setSeqd n v).hostDir = s.hostDir := rfl
@[simp] theorem State.backInv_setSeqd (s : State) (n : Nat) (v : SeqDesc) : (s.setSeqd n v).backInv = s.backInv := rfl
@[simp] theorem State.parked_setSeqd (s : State) (n : Nat) (v : SeqDesc) : (s.setSeqd n v).parked = s.parked := rfl
@[simp] theorem State.weightSeen_setSeqd (s : State) (n : Nat) (v : SeqDesc) : (s.setSeqd n v).weightSeen = s.weightSeen := rfl
@[simp] theorem State.colls_setSeqd (s : State) (n : Nat) (v : SeqDesc) : (s.setSeqd n v).colls = s.colls := rfl
@[simp] theorem State.hostRsp_setSeqd (s : State) (n : Nat) (v : SeqDesc) : (s.setSeqd n v).hostRsp = s.hostRsp := rfl
@[simp] theorem State.inc_setSeqd (s : State) (n : Nat) (v : SeqDesc) : (s.setSeqd n v).inc = s.inc := rfl
@[simp] theorem State.spareGuard_setSeqd (s : State) (n : Nat) (v : SeqDesc) : (s.setSeqd n v).spareGuard = s.spareGuard := rfl
@[simp] theorem State.repairImg_setSeqd (s : State) (n : Nat) (v : SeqDesc) : (s.setSeqd n v).repairImg = s.repairImg := rfl
@[simp] theorem State.parts_setSeqd (s : State) (n : Nat) (v : SeqDesc) : (s.setSeqd n v).parts = s.parts := rfl
@[simp] theorem State.clusters_setSeqd (s : State) (n : Nat) (v : SeqDesc) : (s.setSeqd n v).clusters = s.clusters := rfl
@[simp] theorem State.cores_setSeqd (s : State) (n : Nat) (v : SeqDesc) : (s.setSeqd n v).cores = s.cores := rfl
@[simp] theorem State.links_setSeqd (s : State) (n : Nat) (v : SeqDesc) : (s.setSeqd n v).links = s.links := rfl
@[simp] theorem State.stks_setSeqd (s : State) (n : Nat) (v : SeqDesc) : (s.setSeqd n v).stks = s.stks := rfl
@[simp] theorem State.sramCnt_setSeqd (s : State) (n : Nat) (v : SeqDesc) : (s.setSeqd n v).sramCnt = s.sramCnt := rfl
@[simp] theorem State.pending_draw (s : State) (n : Nat) : (s.draw n).pending = s.pending := rfl
@[simp] theorem State.hkCount_draw (s : State) (n : Nat) : (s.draw n).hkCount = s.hkCount := rfl
@[simp] theorem State.mem_draw (s : State) (n : Nat) : (s.draw n).mem = s.mem := rfl
@[simp] theorem State.memErr_draw (s : State) (n : Nat) : (s.draw n).memErr = s.memErr := rfl
@[simp] theorem State.hostMem_draw (s : State) (n : Nat) : (s.draw n).hostMem = s.hostMem := rfl
@[simp] theorem State.hostErr_draw (s : State) (n : Nat) : (s.draw n).hostErr = s.hostErr := rfl
@[simp] theorem State.cxlOut_draw (s : State) (n : Nat) : (s.draw n).cxlOut = s.cxlOut := rfl
@[simp] theorem State.irqSent_draw (s : State) (n : Nat) : (s.draw n).irqSent = s.irqSent := rfl
@[simp] theorem State.hi_draw (s : State) (n : Nat) : (s.draw n).hi = s.hi := rfl
@[simp] theorem State.evq_draw (s : State) (n : Nat) : (s.draw n).evq = s.evq := rfl
@[simp] theorem State.evSeq_draw (s : State) (n : Nat) : (s.draw n).evSeq = s.evSeq := rfl
@[simp] theorem State.evLate_draw (s : State) (n : Nat) : (s.draw n).evLate = s.evLate := rfl
@[simp] theorem State.msix_draw (s : State) (n : Nat) : (s.draw n).msix = s.msix := rfl
@[simp] theorem State.pba_draw (s : State) (n : Nat) : (s.draw n).pba = s.pba := rfl
@[simp] theorem State.wqs_draw (s : State) (n : Nat) : (s.draw n).wqs = s.wqs := rfl
@[simp] theorem State.pkts_draw (s : State) (n : Nat) : (s.draw n).pkts = s.pkts := rfl
@[simp] theorem State.pw_draw (s : State) (n : Nat) : (s.draw n).pw = s.pw := rfl
@[simp] theorem State.th_draw (s : State) (n : Nat) : (s.draw n).th = s.th := rfl
@[simp] theorem State.hk_draw (s : State) (n : Nat) : (s.draw n).hk = s.hk := rfl
@[simp] theorem State.ta_draw (s : State) (n : Nat) : (s.draw n).ta = s.ta := rfl
@[simp] theorem State.spdm_draw (s : State) (n : Nat) : (s.draw n).spdm = s.spdm := rfl
@[simp] theorem State.img_draw (s : State) (n : Nat) : (s.draw n).img = s.img := rfl
@[simp] theorem State.cad_draw (s : State) (n : Nat) : (s.draw n).cad = s.cad := rfl
@[simp] theorem State.seqs_draw (s : State) (n : Nat) : (s.draw n).seqs = s.seqs := rfl
@[simp] theorem State.rowsDev_draw (s : State) (n : Nat) : (s.draw n).rowsDev = s.rowsDev := rfl
@[simp] theorem State.devId_draw (s : State) (n : Nat) : (s.draw n).devId = s.devId := rfl
@[simp] theorem State.stepping_draw (s : State) (n : Nat) : (s.draw n).stepping = s.stepping := rfl
@[simp] theorem State.fwVer_draw (s : State) (n : Nat) : (s.draw n).fwVer = s.fwVer := rfl
@[simp] theorem State.waits_draw (s : State) (n : Nat) : (s.draw n).waits = s.waits := rfl
@[simp] theorem State.hostDir_draw (s : State) (n : Nat) : (s.draw n).hostDir = s.hostDir := rfl
@[simp] theorem State.backInv_draw (s : State) (n : Nat) : (s.draw n).backInv = s.backInv := rfl
@[simp] theorem State.parked_draw (s : State) (n : Nat) : (s.draw n).parked = s.parked := rfl
@[simp] theorem State.weightSeen_draw (s : State) (n : Nat) : (s.draw n).weightSeen = s.weightSeen := rfl
@[simp] theorem State.colls_draw (s : State) (n : Nat) : (s.draw n).colls = s.colls := rfl
@[simp] theorem State.hostRsp_draw (s : State) (n : Nat) : (s.draw n).hostRsp = s.hostRsp := rfl
@[simp] theorem State.inc_draw (s : State) (n : Nat) : (s.draw n).inc = s.inc := rfl
@[simp] theorem State.spareGuard_draw (s : State) (n : Nat) : (s.draw n).spareGuard = s.spareGuard := rfl
@[simp] theorem State.repairImg_draw (s : State) (n : Nat) : (s.draw n).repairImg = s.repairImg := rfl
@[simp] theorem State.parts_draw (s : State) (n : Nat) : (s.draw n).parts = s.parts := rfl
@[simp] theorem State.clusters_draw (s : State) (n : Nat) : (s.draw n).clusters = s.clusters := rfl
@[simp] theorem State.cores_draw (s : State) (n : Nat) : (s.draw n).cores = s.cores := rfl
@[simp] theorem State.links_draw (s : State) (n : Nat) : (s.draw n).links = s.links := rfl
@[simp] theorem State.stks_draw (s : State) (n : Nat) : (s.draw n).stks = s.stks := rfl
@[simp] theorem State.sramCnt_draw (s : State) (n : Nat) : (s.draw n).sramCnt = s.sramCnt := rfl
@[simp] theorem State.pending_toHost (s : State) (a : Nat) (bs : List Byte) : (s.toHost a bs).pending = s.pending := rfl
@[simp] theorem State.freeCtr_toHost (s : State) (a : Nat) (bs : List Byte) : (s.toHost a bs).freeCtr = s.freeCtr := rfl
@[simp] theorem State.hkCount_toHost (s : State) (a : Nat) (bs : List Byte) : (s.toHost a bs).hkCount = s.hkCount := rfl
@[simp] theorem State.mem_toHost (s : State) (a : Nat) (bs : List Byte) : (s.toHost a bs).mem = s.mem := rfl
@[simp] theorem State.memErr_toHost (s : State) (a : Nat) (bs : List Byte) : (s.toHost a bs).memErr = s.memErr := rfl
@[simp] theorem State.hostMem_toHost (s : State) (a : Nat) (bs : List Byte) : (s.toHost a bs).hostMem = s.hostMem := rfl
@[simp] theorem State.hostErr_toHost (s : State) (a : Nat) (bs : List Byte) : (s.toHost a bs).hostErr = s.hostErr := rfl
@[simp] theorem State.irqSent_toHost (s : State) (a : Nat) (bs : List Byte) : (s.toHost a bs).irqSent = s.irqSent := rfl
@[simp] theorem State.hi_toHost (s : State) (a : Nat) (bs : List Byte) : (s.toHost a bs).hi = s.hi := rfl
@[simp] theorem State.evq_toHost (s : State) (a : Nat) (bs : List Byte) : (s.toHost a bs).evq = s.evq := rfl
@[simp] theorem State.evSeq_toHost (s : State) (a : Nat) (bs : List Byte) : (s.toHost a bs).evSeq = s.evSeq := rfl
@[simp] theorem State.evLate_toHost (s : State) (a : Nat) (bs : List Byte) : (s.toHost a bs).evLate = s.evLate := rfl
@[simp] theorem State.msix_toHost (s : State) (a : Nat) (bs : List Byte) : (s.toHost a bs).msix = s.msix := rfl
@[simp] theorem State.pba_toHost (s : State) (a : Nat) (bs : List Byte) : (s.toHost a bs).pba = s.pba := rfl
@[simp] theorem State.wqs_toHost (s : State) (a : Nat) (bs : List Byte) : (s.toHost a bs).wqs = s.wqs := rfl
@[simp] theorem State.pkts_toHost (s : State) (a : Nat) (bs : List Byte) : (s.toHost a bs).pkts = s.pkts := rfl
@[simp] theorem State.pw_toHost (s : State) (a : Nat) (bs : List Byte) : (s.toHost a bs).pw = s.pw := rfl
@[simp] theorem State.th_toHost (s : State) (a : Nat) (bs : List Byte) : (s.toHost a bs).th = s.th := rfl
@[simp] theorem State.hk_toHost (s : State) (a : Nat) (bs : List Byte) : (s.toHost a bs).hk = s.hk := rfl
@[simp] theorem State.ta_toHost (s : State) (a : Nat) (bs : List Byte) : (s.toHost a bs).ta = s.ta := rfl
@[simp] theorem State.spdm_toHost (s : State) (a : Nat) (bs : List Byte) : (s.toHost a bs).spdm = s.spdm := rfl
@[simp] theorem State.img_toHost (s : State) (a : Nat) (bs : List Byte) : (s.toHost a bs).img = s.img := rfl
@[simp] theorem State.cad_toHost (s : State) (a : Nat) (bs : List Byte) : (s.toHost a bs).cad = s.cad := rfl
@[simp] theorem State.seqs_toHost (s : State) (a : Nat) (bs : List Byte) : (s.toHost a bs).seqs = s.seqs := rfl
@[simp] theorem State.rowsDev_toHost (s : State) (a : Nat) (bs : List Byte) : (s.toHost a bs).rowsDev = s.rowsDev := rfl
@[simp] theorem State.devId_toHost (s : State) (a : Nat) (bs : List Byte) : (s.toHost a bs).devId = s.devId := rfl
@[simp] theorem State.stepping_toHost (s : State) (a : Nat) (bs : List Byte) : (s.toHost a bs).stepping = s.stepping := rfl
@[simp] theorem State.fwVer_toHost (s : State) (a : Nat) (bs : List Byte) : (s.toHost a bs).fwVer = s.fwVer := rfl
@[simp] theorem State.waits_toHost (s : State) (a : Nat) (bs : List Byte) : (s.toHost a bs).waits = s.waits := rfl
@[simp] theorem State.hostDir_toHost (s : State) (a : Nat) (bs : List Byte) : (s.toHost a bs).hostDir = s.hostDir := rfl
@[simp] theorem State.backInv_toHost (s : State) (a : Nat) (bs : List Byte) : (s.toHost a bs).backInv = s.backInv := rfl
@[simp] theorem State.parked_toHost (s : State) (a : Nat) (bs : List Byte) : (s.toHost a bs).parked = s.parked := rfl
@[simp] theorem State.weightSeen_toHost (s : State) (a : Nat) (bs : List Byte) : (s.toHost a bs).weightSeen = s.weightSeen := rfl
@[simp] theorem State.colls_toHost (s : State) (a : Nat) (bs : List Byte) : (s.toHost a bs).colls = s.colls := rfl
@[simp] theorem State.hostRsp_toHost (s : State) (a : Nat) (bs : List Byte) : (s.toHost a bs).hostRsp = s.hostRsp := rfl
@[simp] theorem State.inc_toHost (s : State) (a : Nat) (bs : List Byte) : (s.toHost a bs).inc = s.inc := rfl
@[simp] theorem State.spareGuard_toHost (s : State) (a : Nat) (bs : List Byte) : (s.toHost a bs).spareGuard = s.spareGuard := rfl
@[simp] theorem State.repairImg_toHost (s : State) (a : Nat) (bs : List Byte) : (s.toHost a bs).repairImg = s.repairImg := rfl
@[simp] theorem State.parts_toHost (s : State) (a : Nat) (bs : List Byte) : (s.toHost a bs).parts = s.parts := rfl
@[simp] theorem State.clusters_toHost (s : State) (a : Nat) (bs : List Byte) : (s.toHost a bs).clusters = s.clusters := rfl
@[simp] theorem State.cores_toHost (s : State) (a : Nat) (bs : List Byte) : (s.toHost a bs).cores = s.cores := rfl
@[simp] theorem State.links_toHost (s : State) (a : Nat) (bs : List Byte) : (s.toHost a bs).links = s.links := rfl
@[simp] theorem State.stks_toHost (s : State) (a : Nat) (bs : List Byte) : (s.toHost a bs).stks = s.stks := rfl
@[simp] theorem State.sramCnt_toHost (s : State) (a : Nat) (bs : List Byte) : (s.toHost a bs).sramCnt = s.sramCnt := rfl
@[simp] theorem State.pending_sendIrq (s : State) (v : Nat) : (s.sendIrq v).pending = s.pending := rfl
@[simp] theorem State.freeCtr_sendIrq (s : State) (v : Nat) : (s.sendIrq v).freeCtr = s.freeCtr := rfl
@[simp] theorem State.hkCount_sendIrq (s : State) (v : Nat) : (s.sendIrq v).hkCount = s.hkCount := rfl
@[simp] theorem State.mem_sendIrq (s : State) (v : Nat) : (s.sendIrq v).mem = s.mem := rfl
@[simp] theorem State.memErr_sendIrq (s : State) (v : Nat) : (s.sendIrq v).memErr = s.memErr := rfl
@[simp] theorem State.hostMem_sendIrq (s : State) (v : Nat) : (s.sendIrq v).hostMem = s.hostMem := rfl
@[simp] theorem State.hostErr_sendIrq (s : State) (v : Nat) : (s.sendIrq v).hostErr = s.hostErr := rfl
@[simp] theorem State.irqSent_sendIrq (s : State) (v : Nat) : (s.sendIrq v).irqSent = s.irqSent := rfl
@[simp] theorem State.hi_sendIrq (s : State) (v : Nat) : (s.sendIrq v).hi = s.hi := rfl
@[simp] theorem State.evq_sendIrq (s : State) (v : Nat) : (s.sendIrq v).evq = s.evq := rfl
@[simp] theorem State.evSeq_sendIrq (s : State) (v : Nat) : (s.sendIrq v).evSeq = s.evSeq := rfl
@[simp] theorem State.evLate_sendIrq (s : State) (v : Nat) : (s.sendIrq v).evLate = s.evLate := rfl
@[simp] theorem State.msix_sendIrq (s : State) (v : Nat) : (s.sendIrq v).msix = s.msix := rfl
@[simp] theorem State.pba_sendIrq (s : State) (v : Nat) : (s.sendIrq v).pba = s.pba := rfl
@[simp] theorem State.wqs_sendIrq (s : State) (v : Nat) : (s.sendIrq v).wqs = s.wqs := rfl
@[simp] theorem State.pkts_sendIrq (s : State) (v : Nat) : (s.sendIrq v).pkts = s.pkts := rfl
@[simp] theorem State.pw_sendIrq (s : State) (v : Nat) : (s.sendIrq v).pw = s.pw := rfl
@[simp] theorem State.th_sendIrq (s : State) (v : Nat) : (s.sendIrq v).th = s.th := rfl
@[simp] theorem State.hk_sendIrq (s : State) (v : Nat) : (s.sendIrq v).hk = s.hk := rfl
@[simp] theorem State.ta_sendIrq (s : State) (v : Nat) : (s.sendIrq v).ta = s.ta := rfl
@[simp] theorem State.spdm_sendIrq (s : State) (v : Nat) : (s.sendIrq v).spdm = s.spdm := rfl
@[simp] theorem State.img_sendIrq (s : State) (v : Nat) : (s.sendIrq v).img = s.img := rfl
@[simp] theorem State.cad_sendIrq (s : State) (v : Nat) : (s.sendIrq v).cad = s.cad := rfl
@[simp] theorem State.seqs_sendIrq (s : State) (v : Nat) : (s.sendIrq v).seqs = s.seqs := rfl
@[simp] theorem State.rowsDev_sendIrq (s : State) (v : Nat) : (s.sendIrq v).rowsDev = s.rowsDev := rfl
@[simp] theorem State.devId_sendIrq (s : State) (v : Nat) : (s.sendIrq v).devId = s.devId := rfl
@[simp] theorem State.stepping_sendIrq (s : State) (v : Nat) : (s.sendIrq v).stepping = s.stepping := rfl
@[simp] theorem State.fwVer_sendIrq (s : State) (v : Nat) : (s.sendIrq v).fwVer = s.fwVer := rfl
@[simp] theorem State.waits_sendIrq (s : State) (v : Nat) : (s.sendIrq v).waits = s.waits := rfl
@[simp] theorem State.hostDir_sendIrq (s : State) (v : Nat) : (s.sendIrq v).hostDir = s.hostDir := rfl
@[simp] theorem State.backInv_sendIrq (s : State) (v : Nat) : (s.sendIrq v).backInv = s.backInv := rfl
@[simp] theorem State.parked_sendIrq (s : State) (v : Nat) : (s.sendIrq v).parked = s.parked := rfl
@[simp] theorem State.weightSeen_sendIrq (s : State) (v : Nat) : (s.sendIrq v).weightSeen = s.weightSeen := rfl
@[simp] theorem State.colls_sendIrq (s : State) (v : Nat) : (s.sendIrq v).colls = s.colls := rfl
@[simp] theorem State.hostRsp_sendIrq (s : State) (v : Nat) : (s.sendIrq v).hostRsp = s.hostRsp := rfl
@[simp] theorem State.inc_sendIrq (s : State) (v : Nat) : (s.sendIrq v).inc = s.inc := rfl
@[simp] theorem State.spareGuard_sendIrq (s : State) (v : Nat) : (s.sendIrq v).spareGuard = s.spareGuard := rfl
@[simp] theorem State.repairImg_sendIrq (s : State) (v : Nat) : (s.sendIrq v).repairImg = s.repairImg := rfl
@[simp] theorem State.parts_sendIrq (s : State) (v : Nat) : (s.sendIrq v).parts = s.parts := rfl
@[simp] theorem State.clusters_sendIrq (s : State) (v : Nat) : (s.sendIrq v).clusters = s.clusters := rfl
@[simp] theorem State.cores_sendIrq (s : State) (v : Nat) : (s.sendIrq v).cores = s.cores := rfl
@[simp] theorem State.links_sendIrq (s : State) (v : Nat) : (s.sendIrq v).links = s.links := rfl
@[simp] theorem State.stks_sendIrq (s : State) (v : Nat) : (s.sendIrq v).stks = s.stks := rfl
@[simp] theorem State.sramCnt_sendIrq (s : State) (v : Nat) : (s.sendIrq v).sramCnt = s.sramCnt := rfl
@[simp] theorem State.pending_updPkts (s : State) (f : Pkt → Bool) (g : Pkt → Pkt) : (s.updPkts f g).pending = s.pending := rfl
@[simp] theorem State.freeCtr_updPkts (s : State) (f : Pkt → Bool) (g : Pkt → Pkt) : (s.updPkts f g).freeCtr = s.freeCtr := rfl
@[simp] theorem State.hkCount_updPkts (s : State) (f : Pkt → Bool) (g : Pkt → Pkt) : (s.updPkts f g).hkCount = s.hkCount := rfl
@[simp] theorem State.mem_updPkts (s : State) (f : Pkt → Bool) (g : Pkt → Pkt) : (s.updPkts f g).mem = s.mem := rfl
@[simp] theorem State.memErr_updPkts (s : State) (f : Pkt → Bool) (g : Pkt → Pkt) : (s.updPkts f g).memErr = s.memErr := rfl
@[simp] theorem State.hostMem_updPkts (s : State) (f : Pkt → Bool) (g : Pkt → Pkt) : (s.updPkts f g).hostMem = s.hostMem := rfl
@[simp] theorem State.hostErr_updPkts (s : State) (f : Pkt → Bool) (g : Pkt → Pkt) : (s.updPkts f g).hostErr = s.hostErr := rfl
@[simp] theorem State.cxlOut_updPkts (s : State) (f : Pkt → Bool) (g : Pkt → Pkt) : (s.updPkts f g).cxlOut = s.cxlOut := rfl
@[simp] theorem State.irqSent_updPkts (s : State) (f : Pkt → Bool) (g : Pkt → Pkt) : (s.updPkts f g).irqSent = s.irqSent := rfl
@[simp] theorem State.hi_updPkts (s : State) (f : Pkt → Bool) (g : Pkt → Pkt) : (s.updPkts f g).hi = s.hi := rfl
@[simp] theorem State.evq_updPkts (s : State) (f : Pkt → Bool) (g : Pkt → Pkt) : (s.updPkts f g).evq = s.evq := rfl
@[simp] theorem State.evSeq_updPkts (s : State) (f : Pkt → Bool) (g : Pkt → Pkt) : (s.updPkts f g).evSeq = s.evSeq := rfl
@[simp] theorem State.evLate_updPkts (s : State) (f : Pkt → Bool) (g : Pkt → Pkt) : (s.updPkts f g).evLate = s.evLate := rfl
@[simp] theorem State.msix_updPkts (s : State) (f : Pkt → Bool) (g : Pkt → Pkt) : (s.updPkts f g).msix = s.msix := rfl
@[simp] theorem State.pba_updPkts (s : State) (f : Pkt → Bool) (g : Pkt → Pkt) : (s.updPkts f g).pba = s.pba := rfl
@[simp] theorem State.wqs_updPkts (s : State) (f : Pkt → Bool) (g : Pkt → Pkt) : (s.updPkts f g).wqs = s.wqs := rfl
@[simp] theorem State.pw_updPkts (s : State) (f : Pkt → Bool) (g : Pkt → Pkt) : (s.updPkts f g).pw = s.pw := rfl
@[simp] theorem State.th_updPkts (s : State) (f : Pkt → Bool) (g : Pkt → Pkt) : (s.updPkts f g).th = s.th := rfl
@[simp] theorem State.hk_updPkts (s : State) (f : Pkt → Bool) (g : Pkt → Pkt) : (s.updPkts f g).hk = s.hk := rfl
@[simp] theorem State.ta_updPkts (s : State) (f : Pkt → Bool) (g : Pkt → Pkt) : (s.updPkts f g).ta = s.ta := rfl
@[simp] theorem State.spdm_updPkts (s : State) (f : Pkt → Bool) (g : Pkt → Pkt) : (s.updPkts f g).spdm = s.spdm := rfl
@[simp] theorem State.img_updPkts (s : State) (f : Pkt → Bool) (g : Pkt → Pkt) : (s.updPkts f g).img = s.img := rfl
@[simp] theorem State.cad_updPkts (s : State) (f : Pkt → Bool) (g : Pkt → Pkt) : (s.updPkts f g).cad = s.cad := rfl
@[simp] theorem State.seqs_updPkts (s : State) (f : Pkt → Bool) (g : Pkt → Pkt) : (s.updPkts f g).seqs = s.seqs := rfl
@[simp] theorem State.rowsDev_updPkts (s : State) (f : Pkt → Bool) (g : Pkt → Pkt) : (s.updPkts f g).rowsDev = s.rowsDev := rfl
@[simp] theorem State.devId_updPkts (s : State) (f : Pkt → Bool) (g : Pkt → Pkt) : (s.updPkts f g).devId = s.devId := rfl
@[simp] theorem State.stepping_updPkts (s : State) (f : Pkt → Bool) (g : Pkt → Pkt) : (s.updPkts f g).stepping = s.stepping := rfl
@[simp] theorem State.fwVer_updPkts (s : State) (f : Pkt → Bool) (g : Pkt → Pkt) : (s.updPkts f g).fwVer = s.fwVer := rfl
@[simp] theorem State.waits_updPkts (s : State) (f : Pkt → Bool) (g : Pkt → Pkt) : (s.updPkts f g).waits = s.waits := rfl
@[simp] theorem State.hostDir_updPkts (s : State) (f : Pkt → Bool) (g : Pkt → Pkt) : (s.updPkts f g).hostDir = s.hostDir := rfl
@[simp] theorem State.backInv_updPkts (s : State) (f : Pkt → Bool) (g : Pkt → Pkt) : (s.updPkts f g).backInv = s.backInv := rfl
@[simp] theorem State.parked_updPkts (s : State) (f : Pkt → Bool) (g : Pkt → Pkt) : (s.updPkts f g).parked = s.parked := rfl
@[simp] theorem State.weightSeen_updPkts (s : State) (f : Pkt → Bool) (g : Pkt → Pkt) : (s.updPkts f g).weightSeen = s.weightSeen := rfl
@[simp] theorem State.colls_updPkts (s : State) (f : Pkt → Bool) (g : Pkt → Pkt) : (s.updPkts f g).colls = s.colls := rfl
@[simp] theorem State.hostRsp_updPkts (s : State) (f : Pkt → Bool) (g : Pkt → Pkt) : (s.updPkts f g).hostRsp = s.hostRsp := rfl
@[simp] theorem State.inc_updPkts (s : State) (f : Pkt → Bool) (g : Pkt → Pkt) : (s.updPkts f g).inc = s.inc := rfl
@[simp] theorem State.spareGuard_updPkts (s : State) (f : Pkt → Bool) (g : Pkt → Pkt) : (s.updPkts f g).spareGuard = s.spareGuard := rfl
@[simp] theorem State.repairImg_updPkts (s : State) (f : Pkt → Bool) (g : Pkt → Pkt) : (s.updPkts f g).repairImg = s.repairImg := rfl
@[simp] theorem State.parts_updPkts (s : State) (f : Pkt → Bool) (g : Pkt → Pkt) : (s.updPkts f g).parts = s.parts := rfl
@[simp] theorem State.clusters_updPkts (s : State) (f : Pkt → Bool) (g : Pkt → Pkt) : (s.updPkts f g).clusters = s.clusters := rfl
@[simp] theorem State.cores_updPkts (s : State) (f : Pkt → Bool) (g : Pkt → Pkt) : (s.updPkts f g).cores = s.cores := rfl
@[simp] theorem State.links_updPkts (s : State) (f : Pkt → Bool) (g : Pkt → Pkt) : (s.updPkts f g).links = s.links := rfl
@[simp] theorem State.stks_updPkts (s : State) (f : Pkt → Bool) (g : Pkt → Pkt) : (s.updPkts f g).stks = s.stks := rfl
@[simp] theorem State.sramCnt_updPkts (s : State) (f : Pkt → Bool) (g : Pkt → Pkt) : (s.updPkts f g).sramCnt = s.sramCnt := rfl

/-! ### Parts that hang on one field -/

theorem State.core_of_cores (s t : State) (h : t.cores = s.cores) (d : CoreId) : t.core d = s.core d := by
  simp only [State.core, h]
theorem State.cluster_of_clusters (s t : State) (h : t.clusters = s.clusters) (d : ClusterId) : t.cluster d = s.cluster d := by
  simp only [State.cluster, h]
theorem State.part_of_parts (s t : State) (h : t.parts = s.parts) (o : Fin 4) : t.part o = s.part o := by
  simp only [State.part, h]
theorem State.link_of_links (s t : State) (h : t.links = s.links) (m : Fin 48) : t.link m = s.link m := by
  simp only [State.link, h]
theorem State.stack_of_stks (s t : State) (h : t.stks = s.stks) (j : Fin 12) : t.stack j = s.stack j := by
  simp only [State.stack, h]
theorem State.queue_of_wqs (s t : State) (h : t.wqs = s.wqs) (r : Fin 256) : t.queue r = s.queue r := by
  simp only [State.queue, h]
theorem State.eventQ_of_evq (s t : State) (h : t.evq = s.evq) (w : Fin 8) : t.eventQ w = s.eventQ w := by
  simp only [State.eventQ, h]
theorem State.seqd_of_seqs (s t : State) (h : t.seqs = s.seqs) (m : Nat) : t.seqd m = s.seqd m := by
  simp only [State.seqd, h]
theorem State.ctx_of_parts (s t : State) (h : t.parts = s.parts) (o : Fin 4) (x : Fin 16) : t.ctx o x = s.ctx o x := by
  simp only [State.ctx, State.part, h]
theorem State.unit_of_stks (s t : State) (h : t.stks = s.stks) (u : UnitId) : t.unit u = s.unit u := by
  simp only [State.unit, State.stack, h]

end Machine
end Sys2Proof
end

