-- ==== Sys2Proof/Laws/Records.lean ====
section
/-! SUPPORT. What event records, completions of management commands and counted errors change of the state: one lemma for
each operation, and the relations that chain them. -/

namespace Sys2Proof.Machine

/-- Nothing changes but what event records change: device writes on their way, event queues, the record number, records
that wait for room. -/
def OnlyRecords (s t : State) : Prop :=
  { t with cxlOut := s.cxlOut, evq := s.evq, evSeq := s.evSeq, evLate := s.evLate } = s

/-- Nothing changes but records, the Cadastre, and the stacks' counters, units and remaps: what a found or recurring error
changes. -/
def OnlyCounted (s t : State) : Prop :=
  { t with cxlOut := s.cxlOut, evq := s.evq, evSeq := s.evSeq, evLate := s.evLate, cad := s.cad, stks := s.stks, sramCnt := s.sramCnt } = s

theorem OnlyRecords.refl (s : State) : OnlyRecords s s := rfl

theorem OnlyRecords.trans {s t u : State} (h : OnlyRecords s t) (g : OnlyRecords t u) : OnlyRecords s u := by
  unfold OnlyRecords at *
  rw [← h, ← g]

theorem OnlyCounted.refl (s : State) : OnlyCounted s s := rfl

theorem OnlyCounted.trans {s t u : State} (h : OnlyCounted s t) (g : OnlyCounted t u) : OnlyCounted s u := by
  unfold OnlyCounted at *
  rw [← h, ← g]

theorem OnlyRecords.counted {s t : State} (h : OnlyRecords s t) : OnlyCounted s t := by
  unfold OnlyRecords at h
  unfold OnlyCounted
  rw [← h]

theorem OnlyCounted.mem_eq {s t : State} (h : OnlyCounted s t) : t.mem = s.mem := by rw [← h]
theorem OnlyCounted.memErr_eq {s t : State} (h : OnlyCounted s t) : t.memErr = s.memErr := by rw [← h]
theorem OnlyCounted.hostMem_eq {s t : State} (h : OnlyCounted s t) : t.hostMem = s.hostMem := by rw [← h]
theorem OnlyCounted.parts_eq {s t : State} (h : OnlyCounted s t) : t.parts = s.parts := by rw [← h]
theorem OnlyCounted.cores_eq {s t : State} (h : OnlyCounted s t) : t.cores = s.cores := by rw [← h]
theorem OnlyCounted.hk_eq {s t : State} (h : OnlyCounted s t) : t.hk = s.hk := by rw [← h]
theorem OnlyCounted.hi_eq {s t : State} (h : OnlyCounted s t) : t.hi = s.hi := by rw [← h]
theorem OnlyCounted.pkts_eq {s t : State} (h : OnlyCounted s t) : t.pkts = s.pkts := by rw [← h]
theorem OnlyCounted.links_eq {s t : State} (h : OnlyCounted s t) : t.links = s.links := by rw [← h]
theorem OnlyCounted.waits_eq {s t : State} (h : OnlyCounted s t) : t.waits = s.waits := by rw [← h]
theorem OnlyRecords.stks_eq {s t : State} (h : OnlyRecords s t) : t.stks = s.stks := by rw [← h]
theorem OnlyRecords.cad_eq {s t : State} (h : OnlyRecords s t) : t.cad = s.cad := by rw [← h]
theorem OnlyRecords.pkts_eq {s t : State} (h : OnlyRecords s t) : t.pkts = s.pkts := by rw [← h]

theorem updEventQ_records (s : State) (e : Fin 8) (f : EvQ → EvQ) : OnlyRecords s (s.updEventQ e f) := rfl
theorem toHost_records (s : State) (a : Nat) (bs : List Byte) : OnlyRecords s (s.toHost a bs) := rfl
theorem sendIrq_records (s : State) (v : Nat) : OnlyRecords s (s.sendIrq v) := rfl
theorem evSeq_records (s : State) (n : DWord) : OnlyRecords s { s with evSeq := n } := rfl
theorem evLate_records (s : State) (l : List (Event × DWord × BitVec 48)) : OnlyRecords s { s with evLate := l } := rfl
theorem late_records (s : State) (l : List (Event × DWord × BitVec 48)) (n : DWord) :
    OnlyRecords s { s with evLate := l, evSeq := n } := rfl
theorem updStack_counted (s : State) (k : Fin 12) (f : Stack → Stack) : OnlyCounted s (s.updStack k f) := rfl
theorem updUnit_counted (s : State) (u : UnitId) (f : BankUnit → BankUnit) : OnlyCounted s (s.updUnit u f) := rfl
theorem cad_counted (s : State) (c : Cad) : OnlyCounted s { s with cad := c } := rfl

/-! ### Records (R387 to R391) -/

theorem maybeIrq_records (s : State) (e : Fin 8) (fatal : Bool) : OnlyRecords s (s.maybeIrq e fatal) := by
  unfold State.maybeIrq
  split
  · exact (updEventQ_records s e _).trans (sendIrq_records _ _)
  · exact .refl s

theorem writeRecord_records (s : State) (e : Fin 8) (bs : List Byte) : OnlyRecords s (s.writeRecord e bs) := by
  unfold State.writeRecord
  refine OnlyRecords.trans ?_ (updEventQ_records _ e _)
  split
  · exact toHost_records s _ _
  · exact (toHost_records s _ _).trans (toHost_records _ _ _)

theorem putRecord_records (s : State) (e : Fin 8) (ev : Event) : OnlyRecords s (s.putRecord e ev) :=
  (writeRecord_records s e (ev.bytes s.evSeq s.hkCount)).trans (evSeq_records _ _)

theorem dropRecord_records (s : State) (e : Fin 8) : OnlyRecords s (s.dropRecord e) :=
  (updEventQ_records s e _).trans (evSeq_records _ _)

/-- A record changes nothing but the event queues, their number and what is on its way to the host. -/
theorem raise_records (s : State) (ev : Event) : OnlyRecords s (s.raise ev) := by
  unfold State.raise
  extract_lets +onlyGivenNames ev' e q
  split
  · exact dropRecord_records _ _
  · split
    · exact (putRecord_records _ _ _).trans (maybeIrq_records _ _ _)
    · split
      · exact late_records s _ _
      · refine OnlyRecords.trans (dropRecord_records s e) ?_
        split
        · exact .refl _
        · refine OnlyRecords.trans ?_ (maybeIrq_records _ _ _)
          exact (putRecord_records _ e _).trans (updEventQ_records _ _ _)

theorem flushLate_records (s : State) (e : Fin 8) (n : Nat) : OnlyRecords s (s.flushLate e n) := by
  induction n generalizing s with
  | zero => exact .refl s
  | succ n ih =>
    unfold State.flushLate
    split
    · exact .refl s
    · split
      · refine OnlyRecords.trans ?_ (ih _)
        refine OnlyRecords.trans ?_ (maybeIrq_records _ _ _)
        exact (evLate_records s _).trans (writeRecord_records _ _ _)
      · exact .refl s

theorem dropLate_records (s : State) (e : Fin 8) : OnlyRecords s (s.dropLate e) := by
  unfold State.dropLate
  extract_lets +onlyGivenNames n
  split
  · exact evLate_records s _
  · exact (evLate_records s _).trans (updEventQ_records _ _ _)

@[simp] theorem raise_mem (s : State) (ev : Event) : (s.raise ev).mem = s.mem := (raise_records s ev).counted.mem_eq
@[simp] theorem raise_parts (s : State) (ev : Event) : (s.raise ev).parts = s.parts := (raise_records s ev).counted.parts_eq
@[simp] theorem raise_cores (s : State) (ev : Event) : (s.raise ev).cores = s.cores := (raise_records s ev).counted.cores_eq
@[simp] theorem raise_hk (s : State) (ev : Event) : (s.raise ev).hk = s.hk := (raise_records s ev).counted.hk_eq
@[simp] theorem raise_hi (s : State) (ev : Event) : (s.raise ev).hi = s.hi := (raise_records s ev).counted.hi_eq
@[simp] theorem raise_pkts (s : State) (ev : Event) : (s.raise ev).pkts = s.pkts := (raise_records s ev).pkts_eq
@[simp] theorem raise_stks (s : State) (ev : Event) : (s.raise ev).stks = s.stks := (raise_records s ev).stks_eq
@[simp] theorem raise_links (s : State) (ev : Event) : (s.raise ev).links = s.links := (raise_records s ev).counted.links_eq
@[simp] theorem raise_waits (s : State) (ev : Event) : (s.raise ev).waits = s.waits := (raise_records s ev).counted.waits_eq

/-! ### Management commands (R375, R379) -/

/-- The completion of a management command changes nothing but `HEAD`, what has been taken, and what is on its way to the
host. -/
theorem mgmtDone_frame (s : State) (st : Status) (d : Word) :
    { s.mgmtDone st d with
        cxlOut := s.cxlOut
        hi := { (s.mgmtDone st d).hi with mcqHead := s.hi.mcqHead, mcqTaken := s.hi.mcqTaken } } = s := by
  simp only [State.mgmtDone]
  split <;> split <;> rfl

/-- The completion moves `HEAD` by one. -/
theorem mgmtDone_head (s : State) (st : Status) (d : Word) : (s.mgmtDone st d).hi.mcqHead = s.hi.mcqHead + 1 := by
  simp only [State.mgmtDone]
  split <;> split <;> rfl

/-- What the completion sends to the host, in order: the reply slot, the head write-back, the interrupt. -/
theorem mgmtDone_cxlOut (s : State) (st : Status) (d : Word) :
    (s.mgmtDone st d).cxlOut = s.cxlOut
      ++ ([HostReq.write (s.hi.mcqBase.toNat + 64 * (s.hi.mcqHead.toNat % 2 ^ s.hi.mcqLog2n.toNat) + 56) (replyBytes st d)]
        ++ (if s.hi.mcqHeadWb = 0 then [] else [.write s.hi.mcqHeadWb.toNat (leBytes 4 (s.hi.mcqHead + 1).toNat)])
        ++ (if s.hi.mcqIrq then [.irq 8] else [])) := by
  by_cases h1 : s.hi.mcqHeadWb = 0 <;> by_cases h2 : s.hi.mcqIrq = true <;>
    simp only [State.mgmtDone, State.toHost, State.sendIrq, h1, h2, if_true, if_false, List.append_assoc, List.append_nil,
      List.cons_append, List.nil_append, Bool.false_eq_true]

@[simp] theorem mgmtDone_mem (s : State) (st : Status) (d : Word) : (s.mgmtDone st d).mem = s.mem := by
  simp only [State.mgmtDone]; split <;> split <;> rfl
@[simp] theorem mgmtDone_parts (s : State) (st : Status) (d : Word) : (s.mgmtDone st d).parts = s.parts := by
  simp only [State.mgmtDone]; split <;> split <;> rfl
@[simp] theorem mgmtDone_cores (s : State) (st : Status) (d : Word) : (s.mgmtDone st d).cores = s.cores := by
  simp only [State.mgmtDone]; split <;> split <;> rfl

/-- A management command answers a next state, whatever its packet. -/
theorem mgmt_continues (s : State) (k : Packet) (bad : Option (Status × Word)) (body : State → State) :
    ∃ t, mgmt s k bad body = .next t := by
  unfold mgmt
  split
  · split
    · split <;> exact ⟨_, rfl⟩
    · exact ⟨_, rfl⟩
  · exact ⟨_, rfl⟩

/-- A management command that a check refuses completes with the check's status, and has no other effect, unless its packet
spells another command. -/
theorem mgmt_refused (s : State) (k : Packet) (st : Status) (d : Word) (body : State → State) (h : s.mcqReady = true)
    (hs : st ≠ .badOpcode ∨ pf k 0 1 = 0 ∨ 0x14 < pf k 0 1) : mgmt s k (some (st, d)) body = .next (s.mgmtDone st d) := by
  simp only [mgmt, h, if_true]
  rw [if_neg]
  simp only [Bool.and_eq_true, decide_eq_true_eq, not_and]
  intro h1 h2
  rcases hs with h3 | h3 | h3
  · exact absurd h1.1 h3
  · omega
  · omega

/-- A management command that no check refuses runs its body under its tag. -/
theorem mgmt_runs (s : State) (k : Packet) (body : State → State) (h : s.mcqReady = true) :
    ∃ u, u = body { s with hi := { s.hi with cmdTag := BitVec.ofNat 32 (pf k 4 4) } }
      ∧ mgmt s k none body = .next { u with hi := { u.hi with cmdTag := 0 } } := by
  simp [mgmt, h]

/-- Where no command is there, nothing happens. -/
theorem mgmt_idle (s : State) (k : Packet) (bad : Option (Status × Word)) (body : State → State) (h : s.mcqReady = false) :
    mgmt s k bad body = .next s := by
  simp [mgmt, h]

/-! ### Found and recurring errors (R406 to R409) -/

theorem addDefect_counted (s : State) (kind origin : Nat) (a b : BitVec 32) : OnlyCounted s (s.addDefect kind origin a b) := by
  unfold State.addDefect
  extract_lets +onlyGivenNames e
  split
  · exact .refl s
  · extract_lets +onlyGivenNames c u
    have hu : OnlyCounted s u := cad_counted s _
    split
    · exact hu.trans (raise_records _ _).counted
    · exact hu

theorem freeBanks_counted (s : State) (u : UnitId) (ts : List Step) : OnlyCounted s (s.freeBanks u ts) := by
  unfold State.freeBanks
  split
  · exact updStack_counted s u.s _
  · exact .refl s

theorem failUnit_counted (s : State) (u : UnitId) : OnlyCounted s (s.failUnit u) := by
  unfold State.failUnit
  split
  · exact .refl s
  · extract_lets +onlyGivenNames a f b sp
    have ha : OnlyCounted s a := addDefect_counted s _ _ _ _
    have hb : OnlyCounted s b := (ha.trans (freeBanks_counted a u _)).trans (updUnit_counted f u _)
    clear_value b
    split
    · extract_lets +onlyGivenNames j pair c
      have hc : OnlyCounted s c := hb.trans (updStack_counted b u.s _)
      clear_value c
      split
      · exact hc
      · exact (hc.trans (updUnit_counted c u _)).trans (updStack_counted _ u.s _)
    · extract_lets +onlyGivenNames j pair d c
      have hc : OnlyCounted s c := hb.trans (updStack_counted b u.s _)
      clear_value c
      split
      · exact hc.trans (updStack_counted c u.s _)
      · exact hc

theorem unitParity_counted (s : State) (u : UnitId) : OnlyCounted s (s.unitParity u) := by
  unfold State.unitParity
  extract_lets +onlyGivenNames win now a
  have ha : OnlyCounted s a := updUnit_counted s u _
  clear_value a
  split
  · exact ((ha.trans (raise_records _ _).counted).trans (updUnit_counted _ u _)).trans (failUnit_counted _ _)
  · exact ha

theorem retireRow_counted (s : State) (r : RowId) : OnlyCounted s (s.retireRow r) := by
  unfold State.retireRow
  extract_lets +onlyGivenNames k
  split
  · exact .refl s
  · extract_lets +onlyGivenNames u freed a live used reason ev
    have ha : OnlyCounted s a := (updStack_counted s r.s _).trans (addDefect_counted freed _ _ _ _)
    clear_value a
    split
    · exact ha.trans (failUnit_counted _ _)
    · split <;> exact ha.trans ((updStack_counted _ r.s _).trans (raise_records _ _).counted)

/-- Counting an error of an SRAM row changes its table, and what a lasting fault enters. -/
theorem countSram_counted (s : State) (a : SramArray) (group : Nat) (now : Bool) : OnlyCounted s (s.countSram a group now) := by
  unfold State.countSram
  extract_lets +onlyGivenNames win tbl
  generalize countFault _ _ _ _ _ _ = x
  obtain ⟨tbl', lasting⟩ := x
  dsimp -zeta only
  extract_lets +onlyGivenNames b
  have hb : OnlyCounted s b := rfl
  clear_value b
  split
  · exact hb.trans (addDefect_counted _ _ _ _ _)
  · exact hb

/-- Counting a corrected error changes records, counters and what its lasting fault retires. -/
theorem countCorrected_counted (s : State) (r : RowId) (e : BitVec 39) : OnlyCounted s (s.countCorrected r e) := by
  unfold State.countCorrected
  extract_lets +onlyGivenNames win k
  generalize countFault k.rowCnt 256 3 r.key s.hkCount win = x
  obtain ⟨rows, lasting⟩ := x
  dsimp -zeta only
  extract_lets +onlyGivenNames a b
  have ha : OnlyCounted s a := updStack_counted s r.s _
  have hb : OnlyCounted s b := by
    show OnlyCounted s (if lasting = true then a.retireRow r else a)
    split
    · exact ha.trans (retireRow_counted _ _)
    · exact ha
  clear_value b
  split
  · extract_lets +onlyGivenNames channel lane
    generalize countFault _ _ _ _ _ _ = y
    obtain ⟨lanes, lastingLane⟩ := y
    dsimp -zeta only
    extract_lets +onlyGivenNames c
    have hc : OnlyCounted s c := hb.trans (updStack_counted b r.s _)
    clear_value c
    split
    · exact hc.trans (addDefect_counted _ _ _ _ _)
    · exact hc
  · exact hb

end Sys2Proof.Machine
end

