-- ==== Sys2Proof/Laws/Memory.lean ====
section
/-! SUPPORT. What the operations over stack memory change, that each keeps the canonical form of the memory, and what a read
gives after a write. -/

namespace Sys2Proof.Machine

/-- Nothing changes but stack and host memory, error patterns, armed flip masks, and what found errors change. -/
def OnlyMemory (s t : State) : Prop :=
  { t with
    cxlOut := s.cxlOut, evq := s.evq, evSeq := s.evSeq, evLate := s.evLate, cad := s.cad, stks := s.stks, mem := s.mem,
    memErr := s.memErr, hostMem := s.hostMem, sramCnt := s.sramCnt, hk := { t.hk with flips := s.hk.flips, fired := s.hk.fired } } = s

theorem OnlyMemory.refl (s : State) : OnlyMemory s s := rfl

theorem OnlyMemory.trans {s t u : State} (h : OnlyMemory s t) (g : OnlyMemory t u) : OnlyMemory s u := by
  unfold OnlyMemory at *
  rw [← h, ← g]

theorem OnlyCounted.onlyMemory {s t : State} (h : OnlyCounted s t) : OnlyMemory s t := by
  unfold OnlyCounted at h
  unfold OnlyMemory
  rw [← h]

theorem OnlyMemory.parts_eq {s t : State} (h : OnlyMemory s t) : t.parts = s.parts := by rw [← h]
theorem OnlyMemory.cores_eq {s t : State} (h : OnlyMemory s t) : t.cores = s.cores := by rw [← h]
theorem OnlyMemory.clusters_eq {s t : State} (h : OnlyMemory s t) : t.clusters = s.clusters := by rw [← h]
theorem OnlyMemory.links_eq {s t : State} (h : OnlyMemory s t) : t.links = s.links := by rw [← h]
theorem OnlyMemory.pkts_eq {s t : State} (h : OnlyMemory s t) : t.pkts = s.pkts := by rw [← h]
theorem OnlyMemory.wqs_eq {s t : State} (h : OnlyMemory s t) : t.wqs = s.wqs := by rw [← h]
theorem OnlyMemory.hi_eq {s t : State} (h : OnlyMemory s t) : t.hi = s.hi := by rw [← h]
theorem OnlyMemory.waits_eq {s t : State} (h : OnlyMemory s t) : t.waits = s.waits := by rw [← h]
theorem OnlyMemory.seqs_eq {s t : State} (h : OnlyMemory s t) : t.seqs = s.seqs := by rw [← h]
theorem OnlyMemory.freeCtr_eq {s t : State} (h : OnlyMemory s t) : t.freeCtr = s.freeCtr := by rw [← h]
theorem OnlyMemory.rowsDev_eq {s t : State} (h : OnlyMemory s t) : t.rowsDev = s.rowsDev := by rw [← h]

/-- Stack memory stays canonical. -/
def KeepsForm (s t : State) : Prop := Memory.wf s.mem = true → Memory.wf t.mem = true

theorem KeepsForm.refl (s : State) : KeepsForm s s := id

theorem KeepsForm.trans {s t u : State} (h : KeepsForm s t) (g : KeepsForm t u) : KeepsForm s u := fun w => g (h w)

theorem KeepsForm.of_eq {s t : State} (h : t.mem = s.mem) : KeepsForm s t := by unfold KeepsForm; rw [h]; exact id

theorem OnlyCounted.keepsForm {s t : State} (h : OnlyCounted s t) : KeepsForm s t := .of_eq h.mem_eq

/-- What each turn of a loop keeps, the loop keeps. -/
theorem foldl_keeps {α : Type} (r : State → State → Prop) (hr : ∀ s, r s s) (ht : ∀ s t u, r s t → r t u → r s u)
    (f : State → α → State) (hf : ∀ s a, r s (f s a)) (l : List α) (s : State) : r s (l.foldl f s) := by
  induction l generalizing s with
  | nil => exact hr s
  | cons a l ih => exact ht _ _ _ (hf s a) (ih _)

theorem foldl_onlyMemory {α : Type} (f : State → α → State) (hf : ∀ s a, OnlyMemory s (f s a)) (l : List α) (s : State) :
    OnlyMemory s (l.foldl f s) := foldl_keeps OnlyMemory .refl (fun _ _ _ => .trans) f hf l s

theorem foldl_keepsForm {α : Type} (f : State → α → State) (hf : ∀ s a, KeepsForm s (f s a)) (l : List α) (s : State) :
    KeepsForm s (l.foldl f s) := foldl_keeps KeepsForm .refl (fun _ _ _ => .trans) f hf l s

theorem setMem_onlyMemory (s : State) (m : Tbl Byte) (e : Tbl (BitVec 39)) : OnlyMemory s { s with mem := m, memErr := e } := rfl
theorem setBytes_onlyMemory (s : State) (m : Tbl Byte) : OnlyMemory s { s with mem := m } := rfl
theorem setHost_onlyMemory (s : State) (m : Tbl Byte) : OnlyMemory s { s with hostMem := m } := rfl
theorem setErr_onlyMemory (s : State) (e : Tbl (BitVec 39)) : OnlyMemory s { s with memErr := e } := rfl

theorem setErr_keepsForm (s : State) (e : Tbl (BitVec 39)) : KeepsForm s { s with memErr := e } := .of_eq rfl

theorem setMany_keepsForm (s : State) (k : Nat) (vs : List Byte) (e : Tbl (BitVec 39)) :
    KeepsForm s { s with mem := s.mem.setMany 0 k vs, memErr := e } := fun h => Tbl.wf_setMany 0 s.mem k vs h

/-! ### Found errors (R394 to R396) -/

theorem poisonGroup_onlyMemory (s : State) (g : Nat) : OnlyMemory s (s.poisonGroup g) :=
  foldl_onlyMemory _ (fun s _ => setMem_onlyMemory s _ _) _ s

theorem poisonGroup_keepsForm (s : State) (g : Nat) : KeepsForm s (s.poisonGroup g) :=
  foldl_keepsForm _ (fun s _ => setMany_keepsForm s _ _ _) _ s

theorem poisonPlaces_onlyMemory (s : State) (ps : List Place) : OnlyMemory s (s.poisonPlaces ps) :=
  foldl_onlyMemory _ poisonGroup_onlyMemory _ s

theorem poisonPlaces_keepsForm (s : State) (ps : List Place) : KeepsForm s (s.poisonPlaces ps) :=
  foldl_keepsForm _ poisonGroup_keepsForm _ s

theorem fixWord_onlyMemory (s : State) (w : Nat) : OnlyMemory s (s.fixWord w) := by
  unfold State.fixWord
  extract_lets +onlyGivenNames e r stands
  have hs : ∀ e', OnlyMemory s (stands e') := fun e' => setMem_onlyMemory s _ _
  clear_value stands
  split
  · split
    · exact .refl s
    · exact hs _
  · split
    · exact .refl s
    · exact hs _
  · split
    · exact (hs _).trans (countSram_counted _ _ _ _).onlyMemory
    · exact (hs _).trans (countCorrected_counted _ _ _).onlyMemory
  · extract_lets +onlyGivenNames at_ a b c
    have ha : OnlyMemory s a := poisonGroup_onlyMemory s _
    have hb : OnlyMemory s b := ha.trans (updStack_counted a r.s _).onlyMemory
    have hc : OnlyMemory s c := hb.trans (raise_records b _).counted.onlyMemory
    clear_value at_ a b c
    cases at_ with
    | some a => exact hc.trans (countSram_counted _ _ _ _).onlyMemory
    | none => exact hc.trans (retireRow_counted c r).onlyMemory

theorem fixWord_keepsForm (s : State) (w : Nat) : KeepsForm s (s.fixWord w) := by
  unfold State.fixWord
  extract_lets +onlyGivenNames e r stands
  have hs : ∀ e', KeepsForm s (stands e') := fun e' => setMany_keepsForm s _ _ _
  clear_value stands
  split
  · split
    · exact .refl s
    · exact hs _
  · split
    · exact .refl s
    · exact hs _
  · split
    · exact (hs _).trans (countSram_counted _ _ _ _).keepsForm
    · exact (hs _).trans (countCorrected_counted _ _ _).keepsForm
  · extract_lets +onlyGivenNames at_ a b c
    have ha : KeepsForm s a := poisonGroup_keepsForm s _
    have hb : KeepsForm s b := ha.trans (updStack_counted a r.s _).keepsForm
    have hc : KeepsForm s c := hb.trans (raise_records b _).counted.keepsForm
    clear_value at_ a b c
    cases at_ with
    | some a => exact hc.trans (countSram_counted _ _ _ _).keepsForm
    | none => exact hc.trans (retireRow_counted c r).keepsForm

theorem touch_onlyMemory (s : State) (gs : List Nat) : OnlyMemory s (s.touch gs) :=
  foldl_onlyMemory _ fixWord_onlyMemory _ s

theorem touch_keepsForm (s : State) (gs : List Nat) : KeepsForm s (s.touch gs) :=
  foldl_keepsForm _ fixWord_keepsForm _ s

/-- Where no word holds an error, nothing is found. -/
theorem touch_clean (s : State) (gs : List Nat) (h : s.memErr = []) : s.touch gs = s := by
  simp [State.touch, h]

/-! ### Flip masks (R403, R404) -/

theorem fire_onlyMemory (s : State) (key : Nat) : OnlyMemory s (s.fire key).2 := by
  unfold State.fire
  extract_lets +onlyGivenNames m
  split <;> rfl

theorem fire_keepsForm (s : State) (key : Nat) : KeepsForm s (s.fire key).2 := by
  unfold State.fire
  extract_lets +onlyGivenNames m
  split <;> exact .of_eq rfl

/-- With no mask armed, no mask fires. -/
theorem fire_unarmed (s : State) (key : Nat) (h : s.hk.flips = []) : s.fire key = (0, s) := by
  simp [State.fire, h]

theorem flipWrite_onlyMemory (s : State) (cached : Bool) (k : Nat) : OnlyMemory s (s.flipWrite cached k) := by
  unfold State.flipWrite
  extract_lets +onlyGivenNames st
  split
  · exact .refl s
  · split
    · have hf := fire_onlyMemory s (encKey 3 (st / 3) 0 0 (s.sliceOf k))
      generalize s.fire (encKey 3 (st / 3) 0 0 (s.sliceOf k)) = x at hf ⊢
      obtain ⟨m, u⟩ := x
      dsimp only
      split
      · exact hf
      · exact hf.trans (setErr_onlyMemory u _)
    · refine foldl_onlyMemory _ (fun s wd => ?_) _ s
      have hf := fire_onlyMemory s (encKey 0 st 0 (keyDie k * 4 + keyPair k / 16) wd)
      generalize s.fire (encKey 0 st 0 (keyDie k * 4 + keyPair k / 16) wd) = x at hf ⊢
      obtain ⟨m, u⟩ := x
      dsimp only
      split
      · exact hf
      · exact hf.trans (setErr_onlyMemory u _)

/-- A flip mask changes error patterns, and no stored byte. -/
theorem flipWrite_mem (s : State) (cached : Bool) (k : Nat) :
    (s.flipWrite cached k).mem = s.mem ∧ (s.flipWrite cached k).hostMem = s.hostMem := by
  have fire (s : State) (key : Nat) : (s.fire key).2.mem = s.mem ∧ (s.fire key).2.hostMem = s.hostMem := by
    unfold State.fire
    extract_lets +onlyGivenNames m
    split <;> exact ⟨rfl, rfl⟩
  unfold State.flipWrite
  extract_lets +onlyGivenNames st
  split
  · exact ⟨rfl, rfl⟩
  · split
    · have hf := fire s (encKey 3 (st / 3) 0 0 (s.sliceOf k))
      generalize s.fire (encKey 3 (st / 3) 0 0 (s.sliceOf k)) = x at hf ⊢
      obtain ⟨m, u⟩ := x
      dsimp only
      split <;> exact hf
    · refine foldl_keeps (fun s t => t.mem = s.mem ∧ t.hostMem = s.hostMem) (fun _ => ⟨rfl, rfl⟩)
        (fun s t u h g => ⟨g.1.trans h.1, g.2.trans h.2⟩) _ (fun s wd => ?_) _ s
      have hf := fire s (encKey 0 st 0 (keyDie k * 4 + keyPair k / 16) wd)
      generalize s.fire (encKey 0 st 0 (keyDie k * 4 + keyPair k / 16) wd) = x at hf ⊢
      obtain ⟨m, u⟩ := x
      dsimp only
      split <;> exact hf

/-! ### Writes (R183, R184, R398) -/

/-- One byte stored at its place. -/
def putByte (s : State) (p : Place × Byte) : State :=
  match p.1 with
  | .dram k => { s with mem := s.mem.set 0 k p.2 }
  | .host a => { s with hostMem := s.hostMem.set 0 a p.2 }

theorem putByte_onlyMemory (s : State) (p : Place × Byte) : OnlyMemory s (putByte s p) := by
  obtain ⟨k | a, b⟩ := p
  · exact setBytes_onlyMemory s _
  · exact setHost_onlyMemory s _

theorem putByte_keepsForm (s : State) (p : Place × Byte) : KeepsForm s (putByte s p) := by
  obtain ⟨k | a, b⟩ := p
  · exact fun h => Tbl.wf_set 0 s.mem k b h
  · exact .of_eq rfl

theorem byteAt_putByte (s : State) (p : Place × Byte) (pl : Place) :
    (putByte s p).byteAt pl = if pl = p.1 then p.2 else s.byteAt pl := by
  obtain ⟨k | a, b⟩ := p <;> cases pl <;> simp [putByte, State.byteAt]

/-- The parts of a write: what it meets, the bytes, and the flip mask of its first word. -/
theorem writeAt_eq (s : State) (cached : Bool) (ps : List (Place × Byte)) :
    ∃ gs full : List Nat, ∃ u, u = ps.foldl putByte
        (full.foldl (fun s g => { s with memErr := s.memErr.clear (g * 16) (g * 16 + 16) }) (s.touch gs))
      ∧ (s.writeAt cached ps = u ∨ ∃ k, s.writeAt cached ps = u.flipWrite cached k) := by
  unfold State.writeAt
  extract_lets +onlyGivenNames keys groups whole full a b c
  refine ⟨_, full, c, rfl, ?_⟩
  clear_value keys c
  cases keys with
  | nil => exact .inl rfl
  | cons k l => exact .inr ⟨k, rfl⟩

/-- A write changes memory, error patterns, and what found errors and fired masks change. -/
theorem writeAt_onlyMemory (s : State) (cached : Bool) (ps : List (Place × Byte)) : OnlyMemory s (s.writeAt cached ps) := by
  obtain ⟨gs, full, u, hu, h⟩ := writeAt_eq s cached ps
  have h1 : OnlyMemory s u := by
    rw [hu]
    refine ((touch_onlyMemory s gs).trans ?_).trans (foldl_onlyMemory _ putByte_onlyMemory _ _)
    exact foldl_onlyMemory _ (fun s _ => setErr_onlyMemory s _) _ _
  rcases h with h | ⟨k, h⟩ <;> rw [h]
  · exact h1
  · exact h1.trans (flipWrite_onlyMemory u cached k)

/-- A write keeps the canonical form. -/
theorem writeAt_keepsForm (s : State) (cached : Bool) (ps : List (Place × Byte)) : KeepsForm s (s.writeAt cached ps) := by
  obtain ⟨gs, full, u, hu, h⟩ := writeAt_eq s cached ps
  have h1 : KeepsForm s u := by
    rw [hu]
    refine ((touch_keepsForm s gs).trans ?_).trans (foldl_keepsForm _ putByte_keepsForm _ _)
    exact foldl_keepsForm _ (fun s _ => setErr_keepsForm s _) _ _
  rcases h with h | ⟨k, h⟩ <;> rw [h]
  · exact h1
  · exact h1.trans (.of_eq (flipWrite_mem u cached k).1)

/-- What a byte reads as after a list of bytes has been stored, with each place in the list once. -/
theorem byteAt_foldl_putByte (ps : List (Place × Byte)) (s : State) (hn : (ps.map Prod.fst).Nodup) (pl : Place) :
    (∀ b, (pl, b) ∈ ps → (ps.foldl putByte s).byteAt pl = b)
      ∧ (pl ∉ ps.map Prod.fst → (ps.foldl putByte s).byteAt pl = s.byteAt pl) := by
  induction ps generalizing s with
  | nil => simp
  | cons p ps ih =>
    rw [List.map_cons, List.nodup_cons] at hn
    have h := ih (putByte s p) hn.2
    refine ⟨fun b hb => ?_, fun hb => ?_⟩
    · rcases List.mem_cons.1 hb with h2 | h2
      · subst h2
        rw [List.foldl_cons, h.2 hn.1, byteAt_putByte, if_pos rfl]
      · exact h.1 b h2
    · rw [List.map_cons, List.mem_cons, not_or] at hb
      rw [List.foldl_cons, h.2 hb.2, byteAt_putByte, if_neg hb.1]

/-- Reads after a write, where no word holds an error and each place is written once: the bytes written are there, and every
other byte is as it was. -/
theorem byteAt_writeAt (s : State) (cached : Bool) (ps : List (Place × Byte)) (hs : s.memErr = [])
    (hn : (ps.map Prod.fst).Nodup) (pl : Place) :
    (∀ b, (pl, b) ∈ ps → (s.writeAt cached ps).byteAt pl = b)
      ∧ (pl ∉ ps.map Prod.fst → (s.writeAt cached ps).byteAt pl = s.byteAt pl) := by
  obtain ⟨gs, full, u, hu, h⟩ := writeAt_eq s cached ps
  have hc : ∀ pl, (full.foldl (fun s g => { s with memErr := s.memErr.clear (g * 16) (g * 16 + 16) }) s).byteAt pl = s.byteAt pl := by
    intro pl
    refine foldl_keeps (fun s t => t.byteAt pl = s.byteAt pl) (fun _ => rfl) (fun s t u h g => g.trans h) _ (fun s g => ?_) _ s
    cases pl <;> rfl
  have hf : (s.writeAt cached ps).byteAt pl = u.byteAt pl := by
    rcases h with h | ⟨k, h⟩ <;> rw [h]
    have := flipWrite_mem u cached k
    cases pl <;> simp [State.byteAt, this.1, this.2]
  rw [touch_clean s gs hs] at hu
  have hb := byteAt_foldl_putByte ps (full.foldl (fun s g => { s with memErr := s.memErr.clear (g * 16) (g * 16 + 16) }) s) hn pl
  rw [hf, hu]
  exact ⟨hb.1, fun hp => (hb.2 hp).trans (hc pl)⟩

theorem writePart_onlyMemory (s : State) (p x : Nat) (bs : List Byte) : OnlyMemory s (s.writePart p x bs) :=
  writeAt_onlyMemory s false _

theorem writePart_keepsForm (s : State) (p x : Nat) (bs : List Byte) : KeepsForm s (s.writePart p x bs) :=
  writeAt_keepsForm s false _

theorem putWord_onlyMemory (s : State) (k w v : Nat) : OnlyMemory s (s.putWord k w v) := writeAt_onlyMemory s true _

theorem putWord_keepsForm (s : State) (k w v : Nat) : KeepsForm s (s.putWord k w v) := writeAt_keepsForm s true _

/-! ### The cache, traffic counters and copies: no stored byte changes -/

@[simp] theorem addTraffic_mem (s : State) (st rd wr p : Nat) : (s.addTraffic st rd wr p).mem = s.mem := rfl

@[simp] theorem makeRoom_mem (s : State) (l : Nat) : (s.makeRoom l).mem = s.mem := by
  unfold State.makeRoom
  extract_lets +onlyGivenNames rs
  split
  · rfl
  · split
    · rfl
    · simp only [State.updPart, State.mem_setPart, State.mem_draw]
      split <;> rfl

@[simp] theorem lineAccessOf_mem (s : State) (w a : Bool) (n p l : Nat) : (s.lineAccessOf w a n p l).mem = s.mem := by
  unfold State.lineAccessOf
  extract_lets +onlyGivenNames q old present now b c
  have hb : b.mem = s.mem := by
    show (if _ then s else s.makeRoom l).mem = s.mem
    split
    · rfl
    · exact makeRoom_mem s l
  exact hb

@[simp] theorem lineAccess_mem (s : State) (w a : Bool) (l : Nat) : (s.lineAccess w a l).mem = s.mem :=
  lineAccessOf_mem s w a 128 0 l

@[simp] theorem accessLines_mem (s : State) (w a : Bool) (ts : List Xlat) : (s.accessLines w a ts).mem = s.mem :=
  foldl_keeps (fun s t => t.mem = s.mem) (fun _ => rfl) (fun _ _ _ h g => g.trans h) _ (fun s l => lineAccessOf_mem s w a _ _ l) _ s

@[simp] theorem pickLines_mem (s : State) (ts : List Xlat) : (s.pickLines ts).mem = s.mem :=
  foldl_keeps (fun s t => t.mem = s.mem) (fun _ => rfl) (fun _ _ _ h g => g.trans h) _
    (fun s l => lineAccessOf_mem s false false _ _ l) _ s

@[simp] theorem countTraffic_mem (s : State) (w a : Bool) (ts : List Xlat) : (s.countTraffic w a ts).mem = s.mem := by
  unfold State.countTraffic
  extract_lets +onlyGivenNames keys
  refine foldl_keeps (fun s t => t.mem = s.mem) (fun _ => rfl) (fun _ _ _ h g => g.trans h) _ (fun s st => ?_) _ s
  dsimp only
  split <;> rfl

@[simp] theorem walkPage_mem (s : State) (p : Fin 4) (g : CachedPage) (r : Region) : (s.walkPage p g r).mem = s.mem := by
  unfold State.walkPage
  extract_lets +onlyGivenNames held
  split
  · rfl
  · extract_lets +onlyGivenNames mine gone b kept
    have hb : b.mem = s.mem := addTraffic_mem s _ _ _ _
    clear_value b
    simp only [State.updPart, State.mem_setPart]
    split
    · exact hb
    · simp only [State.mem_draw, hb]

@[simp] theorem cachePages_mem (s : State) (p : Fin 4) (c : Nat) (x : Fin 16) (ts : List Xlat) :
    (s.cachePages p c x ts).mem = s.mem :=
  foldl_keeps (fun s t => t.mem = s.mem) (fun _ => rfl) (fun _ _ _ h g => g.trans h) _ (fun s _ => walkPage_mem s p _ _) _ s

@[simp] theorem countAtomic_mem (s : State) (k : Nat) : (s.countAtomic k).mem = s.mem := rfl
@[simp] theorem backInvalidate_mem (s : State) (ls : List Nat) : (s.backInvalidate ls).mem = s.mem := rfl
@[simp] theorem dropCopies_mem (s : State) (gs : List Nat) : (s.dropCopies gs).mem = s.mem := rfl

/-! ### Columns of a bank unit, and the memory test -/

theorem flipUnit_mem (s : State) (u : UnitId) (wd w : Nat) : (s.flipUnit u wd w).mem = s.mem := by
  have hf : (s.fire (encKey 1 u.s.val u.d.val u.u.val wd)).2.mem = s.mem := by
    unfold State.fire
    extract_lets +onlyGivenNames m
    split <;> rfl
  unfold State.flipUnit
  generalize s.fire (encKey 1 u.s.val u.d.val u.u.val wd) = x at hf ⊢
  obtain ⟨m, v⟩ := x
  dsimp only
  split <;> exact hf

/-- The write of a column keeps the canonical form. -/
theorem writeColumn_keepsForm (s : State) (u : UnitId) (pair : Nat) (t : Step) (k : Nat) (new : List Byte) :
    KeepsForm s (s.writeColumn u pair t k new) := by
  unfold State.writeColumn
  extract_lets +onlyGivenNames mask w0 full
  have hc : KeepsForm s (if full = true then (s, (⟨new, List.replicate 8 false, []⟩ : Column)) else s.column u pair t k).1 := by
    split
    · exact .refl s
    · exact .of_eq rfl
  generalize (if full = true then (s, (⟨new, List.replicate 8 false, []⟩ : Column)) else s.column u pair t k) = x at hc ⊢
  obtain ⟨a, old⟩ := x
  dsimp only at hc ⊢
  exact hc.trans (foldl_keepsForm _ (fun s _ => (setMany_keepsForm s _ _ _).trans (.of_eq (flipUnit_mem _ _ _ _))) _ _)

theorem writeFill_keepsForm (s : State) (u : UnitId) (pair : Nat) (t : Step) (k : Nat) : KeepsForm s (s.writeFill u pair t k) :=
  foldl_keepsForm _ (fun s _ => writeColumn_keepsForm s u pair t _ _) _ s

/-- A memory test's zero fill keeps the canonical form. -/
theorem zeroStacks_keepsForm (s : State) (m : BitVec 12) : KeepsForm s (s.zeroStacks m) :=
  fun h => Tbl.wf_filter 0 s.mem _ h

end Sys2Proof.Machine
end

