-- ==== Sys2Proof/Laws/Issue.lean ====
section
/-! SUPPORT. What the issue unit does: trace records, the opening of a bundle, and a slot operation whose bundle stands open. -/

namespace Sys2Proof.Machine

theorem OnlyCore.refl (s : State) (c : CoreId) : OnlyCore s s c := ⟨rfl, fun _ _ => rfl, fun _ _ => rfl, rfl⟩

theorem OnlyCore.trans {s t u : State} {c : CoreId} (h : OnlyCore s t c) (g : OnlyCore t u c) : OnlyCore s u c := by
  refine ⟨?_, fun d hd => (g.2.1 d hd).trans (h.2.1 d hd), fun k hk => (g.2.2.1 k hk).trans (h.2.2.1 k hk), g.2.2.2.trans h.2.2.2⟩
  have h1 := h.1
  have g1 := g.1
  rw [← h1, ← g1]

/-- A change of the core alone. -/
theorem OnlyCore.of_updCore (s : State) (c : CoreId) (f : Core → Core) : OnlyCore s (s.updCore c f) c := by
  refine ⟨rfl, fun d hd => ?_, fun _ _ => rfl, rfl⟩
  simp [hd]

theorem OnlyCore.mem_eq {s t : State} {c : CoreId} (h : OnlyCore s t c) : t.mem = s.mem := by rw [← h.1]
theorem OnlyCore.parts_eq {s t : State} {c : CoreId} (h : OnlyCore s t c) : t.parts = s.parts := by rw [← h.1]
theorem OnlyCore.pkts_eq {s t : State} {c : CoreId} (h : OnlyCore s t c) : t.pkts = s.pkts := by rw [← h.1]
theorem OnlyCore.hk_eq {s t : State} {c : CoreId} (h : OnlyCore s t c) : t.hk = s.hk := by rw [← h.1]

theorem putTrace_untraced (k : Cluster) (r : BitVec 256) : (k.putTrace r).untraced = k.untraced := rfl
theorem dropTrace_untraced (k : Cluster) : k.dropTrace.untraced = k.untraced := rfl

/-- A trace record changes the trace of one cluster. -/
theorem trace_onlyCore (s : State) (c : CoreId) (type detail pc : Nat) (mtag : BitVec 16) (payload : Nat) :
    OnlyCore s (s.trace c type detail pc mtag payload) c := by
  unfold State.trace
  extract_lets +onlyGivenNames cl
  split
  · extract_lets +onlyGivenNames r
    refine ⟨rfl, fun _ _ => rfl, fun k hk => ?_, ?_⟩
    · simp [hk]
    · simp only [State.cluster_setCluster, if_true]
      split
      · exact putTrace_untraced _ _
      · exact dropTrace_untraced _
  · exact .refl s c

@[simp] theorem trace_core (s : State) (c : CoreId) (type detail pc : Nat) (mtag : BitVec 16) (payload : Nat) (d : CoreId) :
    (s.trace c type detail pc mtag payload).core d = s.core d := by
  unfold State.trace
  extract_lets +onlyGivenNames cl
  split <;> rfl

/-- The end of a hold. -/
theorem unhold_onlyCore (s : State) (c : CoreId) : OnlyCore s (s.unhold c) c := by
  unfold State.unhold
  extract_lets +onlyGivenNames x
  split
  · exact (trace_onlyCore s c _ _ _ _ _).trans (.of_updCore _ c _)
  · exact .refl s c

theorem unhold_core (s : State) (c : CoreId) : (s.unhold c).core c = { s.core c with hold := none } := by
  unfold State.unhold
  extract_lets +onlyGivenNames x
  split
  · simp [x]
  · rename_i h
    have hx : (s.core c).hold = none := h
    rw [← hx]

/-- A bundle that stands open, or issues now: after its command it stands open, and nothing but its core and the trace of its
cluster has changed. -/
theorem openBundle_stands (s : State) (c : CoreId) (b : Bundle) (slot op : Nat) (h : Stands s c b slot op) :
    ∃ u, s.openBundle c b = (u, true) ∧ u.core c = (s.core c).opened b ∧ OnlyCore s u c := by
  obtain ⟨-, -, h | h⟩ := h
  · obtain ⟨h1, h2, h3, h4, h5, h6⟩ := h
    refine ⟨_, by simp only [State.openBundle, h1, h2, h3, h4, h5, h6]; rfl, ?_, ?_⟩
    · simp [Core.opened, h2, unhold_core, Core.openWith, copyDescs, Core.descOf, Core.spBytes]
    · exact ((unhold_onlyCore s c).trans (trace_onlyCore _ c _ _ _ _ _)).trans (.of_updCore _ c _)
  · obtain ⟨h1, h2, -⟩ := h
    refine ⟨s, by simp [State.openBundle, h1, h2], ?_, .refl s c⟩
    simp [Core.opened, h1]

/-- A slot operation whose bundle stands open takes effect on the state with the bundle open and the slot marked. -/
theorem slotOp_stands (s : State) (c : CoreId) (b : Bundle) (slot op : Nat) (eff : State → State) (h : Stands s c b slot op) :
    ∃ u, slotOp c b slot op eff s = .next (eff u) ∧ u.core c = (s.core c).tookSlot b slot ∧ OnlyCore s u c := by
  obtain ⟨u, hu, hc, ho⟩ := openBundle_stands s c b slot op h
  have hd : (u.core c).curDone.getLsbD slot = false := by
    rw [hc]
    obtain ⟨-, -, h | h⟩ := h
    · simp [Core.opened, h.2.1, Core.openWith]
    · simp [Core.opened, h.1, h.2.2]
  refine ⟨u.updCore c (fun x => { x with curDone := x.curDone ||| BitVec.ofNat 6 (2 ^ slot) }), ?_, ?_, ho.trans (.of_updCore u c _)⟩
  · simp [slotOp, hu, h.1, h.2.1, hd]
  · simp [hc, Core.tookSlot]

/-- A slot operation that changes its core alone. -/
theorem slotOp_gives (s : State) (c : CoreId) (b : Bundle) (slot op : Nat) (i : Instr) (eff : State → State) (f : Core → Core)
    (hi : exec i s = slotOp c b slot op eff s) (h : Stands s c b slot op)
    (he : ∀ u, u.core c = (s.core c).tookSlot b slot → OnlyCore u (eff u) c ∧ (eff u).core c = f (u.core c)) :
    SlotGives s c b slot i f := by
  obtain ⟨u, hu, hc, ho⟩ := slotOp_stands s c b slot op eff h
  have g := he u hc
  exact ⟨eff u, hi.trans hu, by rw [g.2, hc], ho.trans g.1⟩

/-- A write put in flight. -/
theorem write_onlyCore (s : State) (c : CoreId) (f : RegFile) (n : Nat) (v : BitVec 48) (slot lat : Nat) :
    OnlyCore s (s.write c f n v slot lat) c := .of_updCore s c _

theorem write_core (s : State) (c : CoreId) (f : RegFile) (n : Nat) (v : BitVec 48) (slot lat : Nat) :
    (s.write c f n v slot lat).core c = (s.core c).flies f n v slot lat := by
  simp [State.write, Core.flies]

/-- A taken branch. -/
theorem branch_onlyCore (s : State) (c : CoreId) (target : Nat) : OnlyCore s (s.branch c target) c := .of_updCore s c _

theorem branch_core (s : State) (c : CoreId) (target : Nat) : (s.branch c target).core c = (s.core c).branches target := by
  simp [State.branch, Core.branches]

/-- What the opening of a bundle leaves of the registers that operands are read from. -/
theorem tookSlot_regs (x : Core) (b : Bundle) (slot : Nat) :
    (x.tookSlot b slot).a = x.a ∧ (x.tookSlot b slot).x = x.x ∧ (x.tookSlot b slot).i = x.i ∧ (x.tookSlot b slot).j = x.j
      ∧ (x.tookSlot b slot).bind = x.bind ∧ (x.tookSlot b slot).wtag = x.wtag ∧ (x.tookSlot b slot).mtag = x.mtag
      ∧ (x.tookSlot b slot).sp = x.sp ∧ (x.tookSlot b slot).acc = x.acc ∧ (x.tookSlot b slot).inflight = x.inflight := by
  unfold Core.tookSlot Core.opened
  split <;> exact ⟨rfl, rfl, rfl, rfl, rfl, rfl, rfl, rfl, rfl, rfl⟩

end Sys2Proof.Machine
end

