-- ==== Sys2Proof/Tests/Slice0.lean ====
section
/-! SUPPORT. Tests of the model: the ill-formed terms that WellFormed refuses, small states that the tests share, and
witnesses of the statements about a core. Each expected result is taken from the rule that its comment cites. -/

namespace Sys2Proof.Tests

set_option Elab.async false

open Sys2Proof.Machine

/-! ### Terms that WellFormed refuses -/

def c0 : CoreId := ⟨0, 0, 0⟩
def cl0 : ClusterId := ⟨0, 0⟩
def u0 : UnitId := ⟨0, 0, 0⟩

/-- A bundle with no slot. -/
def noSlots : Bundle := ⟨0, 0, 1, 0, 0, 0, 0, 0, 0, 0⟩
/-- A bundle with every slot, each with an opcode that no row has. -/
def badOps : Bundle := ⟨63, 0, 0, 0, 0xFF, 0xFF, 0xFF, 0xFF, 0xFF, 0xFF⟩

/-- The slot commands with slot number and opcode (R52 to R54, R77, R104). -/
def slotRows : List ((CoreId → Bundle → Instr) × Nat × Nat) :=
  [(.ctlNop, 0, 0), (.jmp, 0, 1), (.brz, 0, 2), (.brnz, 0, 3), (.dbnz, 0, 4), (.waitt, 0, 5), (.mtag, 0, 6), (.trace, 0, 7),
    (.endShare, 0, 8), (.adrNop, 1, 0), (.sclNop, 2, 0), (.ldx, 2, 0x18), (.stx, 2, 0x19)]
  ++ adrResults.map (fun e => (e.1, 1, e.2.1)) ++ sclResults.map (fun e => (e.1, 2, e.2.1)) ++ macroSlots

/-- Every slot command, on a bundle without its slot, and on one with another opcode. -/
def badSlots : List Instr := slotRows.flatMap (fun e => [e.1 c0 noSlots, e.1 c0 badOps])

theorem test_slot_rows : slotRows.length = 79 := by decide +kernel
theorem test_bad_slots : badSlots.all (fun i => !i.wf) = true := by decide +kernel

/-- A packet with an opcode, and with bytes at an offset. -/
def packet (op : Nat) (fields : List (Nat × Nat)) : Packet :=
  BitVec.ofNat 512 (op + (fields.map (fun f => f.2 * 2 ^ (8 * f.1))).sum)

/-- The packet commands with their opcodes, and the byte that tells rows of one opcode apart (R380, R382, R440). -/
def packetRows : List ((Packet → Instr) × Nat × List (Nat × Nat)) :=
  managementCommands.map (fun e => (e.1, e.2, []))
  ++ [(.runPacket 0, 0x20, []), (.linear 0, 0x21, []), (.attend 0, 0x22, []), (.attendBwd 0, 0x23, []), (.appendKv 0, 0x24, []),
    (.stepPacket 0, 0x25, []), (.copyPacket 0, 0x26, []), (.collective 0, 0x27, []), (.flagSet 0, 0x28, []),
    (.flagWait 0, 0x29, []), (.fencePacket 0, 0x2A, []), (.nop 0, 0x2D, []), (.readSeq 0, 0x2B, [(34, 9)]),
    (.pageServe 0, 0x2C, []), (.pageServeRequest 0, 0x2C, [(53, 1)])]
  ++ pageEdits.map (fun e => (e.2 0, 0x2B, [(34, e.1)]))

theorem test_bad_opcodes : packetRows.all (fun e => !(e.1 (packet 0xFF e.2.2)).wf) = true := by decide +kernel
/-- A `RESET`, an edit and a page serve with the byte of another row. -/
theorem test_bad_variants :
    [Instr.resetCore (packet 0x0B [(8, 1)]), .resetCluster (packet 0x0B [(8, 0)]), .resetPartition (packet 0x0B [(8, 3)]),
      .resetWarm (packet 0x0B [(8, 4)]), .resetCold (packet 0x0B [(8, 3)]), .readSeq 0 (packet 0x2B [(34, 8)]),
      .pageServe 0 (packet 0x2C [(53, 1)]), .pageServeRequest 0 (packet 0x2C [])].all (fun i => !i.wf) = true := by decide +kernel
theorem test_bad_edits : pageEdits.all (fun e => !(e.2 0 (packet 0x2B [(34, e.1 + 1)])).wf) = true := by decide +kernel
theorem test_good_packets :
    [Instr.resetCold (packet 0x0B [(8, 4)]), .readSeq 0 (packet 0x2B [(34, 9)]), .pageServeRequest 0 (packet 0x2C [(53, 1)]),
      .nop 3 (packet 0x2D [])].all Instr.wf = true := by decide +kernel

/-- A message of a type with `LEN` 1 and as many bytes as given. -/
def message (type len n : Nat) : Msg := ⟨BitVec.ofNat 256 (type + len * 2 ^ 48), List.replicate n 0⟩

/-- The commands of link messages with their types (R325). -/
def messageRows : List ((Fin 48 → Msg → Instr) × Nat) :=
  [(.rdReq, 1), (.rdRsp, 2), (.wrMsg, 3), (.redMsg, 4), (.flagAdd, 5), (.psReq, 6), (.shard, 7), (.collectiveEnd, 8), (.ackMsg, 9),
    (.drainMsg, 0x0A), (.drainRet, 0x0B), (.ident, 0x0C)]

theorem test_bad_messages :
    messageRows.all (fun e => !(e.1 0 (message 0xFF 0 0)).wf && !(e.1 0 (message e.2 2 32)).wf) = true := by decide +kernel

/-- A reading of 25 °C. -/
def mild : Reading := ⟨200, false, false, false⟩
/-- A round in which every channel is sampled and every sensor reads 25 °C (R448). -/
def mildRound : Round :=
  ⟨List.replicate 332 mild, List.replicate 64 0, List.replicate 32 0, true, false, List.replicate 16 0⟩
/-- A READ step of two columns of a row (R204). -/
def readTwo : Step := ⟨.read, 0, 5, 62, 2, false, [0, 1], 4, false, true, true, 1, []⟩
/-- The same columns copied, and written. -/
def copyTwo : Step := { readTwo with kind := .copy }
def writeTwo : Step := { readTwo with kind := .write, bytes := [0xFFFFFFFF, 0xFFFFFFFF] }
/-- A beat of operands for one unit. -/
def someBeat : Beat := ⟨some 0, [], 0, false, 0, []⟩
/-- An image's values: MIX, four DEV slices of memory, no link enabled (R40). -/
def someValues : ImageValues :=
  ⟨2, 55, 3200, false, List.replicate 4 4, 4, List.replicate 4 1, 7, List.replicate 48 false, List.replicate 48 0, List.replicate 48 true,
    List.replicate 48 false, List.replicate 48 64, List.replicate 48 none, 95, 100, 95, 3, 50, true⟩
/-- A frame with a body of the length of R315. -/
def someFrame : Frame := ⟨0, List.replicate 608 0, false⟩

theorem test_good_operands :
    [Instr.housekeepingRound mildRound, .readStep u0 readTwo, .copyStep u0 copyTwo, .writeStep u0 writeTwo, .beat 0 0 someBeat,
      .configure someValues, .dataFrame 0 someFrame, .idleFrame 0 someFrame, .registerWrite 0x1020 8 0, .imagePiece 0 [1],
      .hostMemRead 0 1 false, .hostMemWrite 0 [1] false false].all Instr.wf = true := by decide +kernel

/-- One ill-formed operand for each check. -/
def badOperands : List Instr :=
  [.housekeepingRound { mildRound with temps := [] }, .housekeepingRound { mildRound with volts := [] },
    .housekeepingRound { mildRound with currs := [] }, .housekeepingRound { mildRound with pins := [] },
    .readStep u0 { readTwo with count := 0, slots := [] }, .readStep u0 { readTwo with count := 3, slots := [0, 1, 2] },
    .readStep u0 { readTwo with slots := [0] }, .readStep u0 { readTwo with lanes := 9 }, .readStep u0 copyTwo,
    .copyStep u0 readTwo, .copyStep u0 { copyTwo with first := 63 }, .writeStep u0 copyTwo, .writeStep u0 { writeTwo with bytes := [] },
    .beat 0 0 { someBeat with wave := [1, 1] }, .configure { someValues with rowsPart := [] },
    .configure { someValues with reserve := [] }, .configure { someValues with linkEnable := [] },
    .configure { someValues with linkExpect := [] }, .configure { someValues with linkHalfOk := [] },
    .configure { someValues with linkPrecode := [] }, .configure { someValues with laneLimit := [] },
    .configure { someValues with guarded := [] }, .dataFrame 0 { someFrame with body := [] },
    .idleFrame 0 { someFrame with body := [0] }, .registerWrite 0x1020 3 0, .imagePiece 0 [], .hostMemRead 0 0 false,
    .hostMemWrite 0 [] false false]

theorem test_bad_operands : badOperands.all (fun i => !i.wf) = true := by decide +kernel

/-- No row of the table gives bits, so no word spells a command. -/
theorem test_no_word_decodes : decodeTableWord 8 0x20 = none ∧ (State.reset.withFetchWord 8 0x20) = State.reset := by decide +kernel

end Sys2Proof.Tests
end

