-- ==== Sys2Proof/Tests/WitnessCore.lean ====
section
/-! SUPPORT. Witnesses of the statements about a core: for each, a state and operands that meet its hypotheses together. -/

namespace Sys2Proof.Tests

set_option Elab.async false

open Sys2Proof.Machine

/-! ### A core that runs a share -/

/-- The device READY. -/
def ready : State := { State.reset with hi := { HostIf.reset with st := .ready } }
/-- A work queue of context 0 of partition 0. -/
def wq0 : WorkQ := ⟨0, 0, 0, 0x1000, 4, 0, 0, 1, 1⟩
/-- A `RUN` packet taken from it. -/
def runPkt : Pkt := newPkt 0 wq0 ⟨0, 0, 0⟩ .run (packet 0x20 [(24, 128), (34, 1)])
/-- Context 0 in a state. -/
def ctxAs (st : CtxSt) : Ctx := { Ctx.reset with st := st }
/-- Partition 0 RUNNING with context 0 in a state. -/
def partAs (st : CtxSt) : Part := { Part.reset with st := .running, cur := some 0, rowsPart := 4, reserve := 1, ctxs := [(0, ctxAs st)] }
/-- The core's share of that packet. -/
def share0 : Share := ⟨0, 0, 0, 0, 0, 0, 1, 0, 0⟩
/-- A core that runs it. -/
def busy : Core := { Core.reset with st := .running, share := some share0 }
/-- The state with that core as core 0.0.0. -/
def work (x : Core) : State :=
  { ready with
    parts := [(0, partAs .running)]
    cores := [(0, x)]
    wqs := [(0, some wq0)]
    pkts := [runPkt] }

/-- A bundle with one slot, in the form that the opcode needs. -/
def oneSlot (wide : Bool) (slot : Nat) (w : BitVec 64) : Bundle :=
  let b : Bundle := ⟨BitVec.ofNat 6 (2 ^ slot), if wide then 1 else 0, 0, 0, w.truncate 32, w, w, w, w, w⟩
  { b with len := BitVec.ofNat 5 (b.bytes / 2) }

/-- The slot word of an opcode, with some fields set. -/
def slotWord (op : Nat) (fields : List (Nat × Nat)) : BitVec 64 := BitVec.ofNat 64 (op + (fields.map (fun f => f.2 * 2 ^ f.1)).sum)

/-- X31 read and written, the highest number of each field (R50). -/
def sclBundle (op : Nat) : Bundle := oneSlot (op = 0x0E) 2 (slotWord op [(8, 31), (13, 31), (18, 31)])

theorem test_scalar_results_witness : ∀ e ∈ sclResults, Stands (work busy) c0 (sclBundle e.2.1) 2 e.2.1 := by
  simp only [Stands, Opens]; decide +kernel

/-- `LDX` of the last word of SP; `STX` to the first (R54). -/
theorem test_scalar_memory_witness :
    let s := work { busy with a := [(1, 2097152)] }
    let b := oneSlot false 2 (slotWord 0x18 [(13, 1), (23, 511)])
    Stands s c0 b 2 0x18 ∧ ((s.core c0).a.get 0 (b.f 2 17 13) + BitVec.ofInt 48 (4 * (BitVec.ofNat 9 (b.f 2 31 23)).toInt)).toNat = 2097148
      ∧ (s.core c0).spErr = [] ∧ Stands (work busy) c0 (oneSlot false 2 (slotWord 0x19 [])) 2 0x19 ∧ (work busy).hk.flips = [] := by
  simp only [Stands, Opens]; and_intros <;> decide +kernel

def adrBundle (op : Nat) : Bundle := oneSlot false 1 (slotWord op (if op = 0x05 then [(8, 63), (14, 63)] else [(8, 3), (14, 31)]))

theorem test_address_results_witness : ∀ e ∈ adrResults, Stands (work busy) c0 (adrBundle e.2.1) 1 e.2.1 := by
  simp only [Stands, Opens]; decide +kernel

/-- A branch to the highest target, with its register 0 and not 0 (R51). -/
theorem test_branches_witness : ∀ op ∈ [1, 2, 3, 4], ∀ v ∈ [0, 1, 0xFFFFFFFF],
    Stands (work { busy with x := [(31, BitVec.ofNat 32 v)] }) c0 (oneSlot false 0 (slotWord op [(8, 31), (16, 32767)])) 0 op := by
  simp only [Stands, Opens]; decide +kernel

/-- A `WAITT` whose count is just reached, with `C` 1 (R66). -/
def waitBundle (n : Nat) : Bundle := oneSlot false 0 (slotWord 0x05 [(8, 63), (14, 1), (16, n)])

theorem test_nops_witness :
    Stands (work busy) c0 (oneSlot false 0 (slotWord 0 [])) 0 0 ∧ Stands (work busy) c0 (oneSlot false 1 (slotWord 0 [])) 1 0
      ∧ Stands (work busy) c0 (oneSlot false 2 (slotWord 0 [])) 2 0 ∧ Stands (work busy) c0 (oneSlot false 0 (slotWord 6 [])) 0 6
      ∧ Stands (work busy) c0 (oneSlot false 0 (slotWord 8 [])) 0 8
      ∧ Stands (work { busy with tok := [(63, 255)] }) c0 (waitBundle 255) 0 5 ∧ (work busy).core c0 = busy ∧ busy.cur = none
      ∧ (waitBundle 255).f 0 14 14 = 1 := by
  simp only [Stands, Opens]; and_intros <;> decide +kernel

/-- A `TRACE` bundle that stands open, in a cluster that records. -/
def tracing : State :=
  { work { busy with cur := some (oneSlot false 0 (slotWord 7 [(8, 31)])) } with
    clusters := [(0, { Cluster.reset with trEnable := true })] }

theorem test_trace_mark_witness :
    let b := oneSlot false 0 (slotWord 7 [(8, 31)])
    Stands tracing c0 b 0 7 ∧ (tracing.core c0).cur = some b ∧ (tracing.cluster cl0).trEnable = true
      ∧ (tracing.cluster cl0).trTypes.getLsbD 7 = true ∧ (tracing.cluster cl0).trCores.getLsbD 0 = true
      ∧ (tracing.cluster cl0).traceRoom = true := by
  simp only [Stands, Opens]; and_intros <;> decide +kernel

/-- A header with `KIND` 2; a `WAITT` one short of its count. -/
theorem test_bundles_witness :
    (work busy).mayIssue c0 = true ∧ ((work busy).core c0).cur = none
      ∧ ((work busy).core c0).pc.toNat + 2 ≤ 65536 ∧ 2 ≤ ({ noSlots with kind := 2 } : Bundle).kind.toNat
      ∧ staticCauses (waitBundle 255) 0 = [] ∧ (waitBundle 255).has 0 = true ∧ (waitBundle 255).op 0 = 5 ∧ (work busy).core c0 = busy ∧ busy.tokPhase ≤ 1
      ∧ (work { busy with tok := [(63, 254)] }).mayIssue c0 = true
      ∧ ((work { busy with tok := [(63, 254)] }).core c0).tok.get 0 ((waitBundle 255).f 0 13 8) < (waitBundle 255).f 0 23 16 := by
  decide +kernel

/-- A tensor descriptor: 64 FP32 values in ROW (R143). -/
def rowDesc : List Byte :=
  [0, 0x10] ++ List.replicate 10 0 ++ leBytes 4 64 ++ leBytes 4 1 ++ leBytes 4 1 ++ leBytes 4 1 ++ leBytes 4 64 ++ leBytes 4 1
    ++ leBytes 4 1 ++ leBytes 4 1 ++ leBytes 4 1 ++ List.replicate 16 0

/-- A core with that descriptor in entry 0, J0 as given, and a token one below its largest count. -/
def macroCore (j0 : BitVec 16) (t : Nat) : Core :=
  { busy with sp := Tbl.setMany 0 [] 0x1FF000 rowDesc, j := [(0, j0)], tok := [(63, t)] }

/-- A macro slot with `SIG_EN` for T63, `WB` and depth 1; its other fields as its operation needs them (R55, R82 to R104). -/
def macroBundle (slot op : Nat) : Bundle :=
  let own : List (Nat × Nat) :=
    match op with
    | 0x1A => [(41, 3)]
    | 0x40 => [(28, 1), (33, 2), (38, 3), (43, 5), (47, 5)]
    | 0x88 => [(28, 1), (33, 2), (46, 1)]
    | 0x89 => [(28, 1), (33, 2), (46, 1)]
    | 0x8B => [(28, 1)]
    | _ => [(28, 1)]
  oneSlot false slot (slotWord op ([(8, 63), (14, 1), (23, 1), (26, 1)] ++ own))

theorem test_macro_slots_witness : ∀ e ∈ macroSlots,
    Stands (work (macroCore 65535 254)) c0 (macroBundle e.2.1 e.2.2) e.2.1 e.2.2
      ∧ ∀ l < mf ((macroBundle e.2.1 e.2.2).word e.2.1) 25 23, ((work (macroCore 65535 254)).core c0).j.get 0 l ≠ 0 := by
  simp only [Stands, Opens]; decide +kernel

/-- A repeat count of 0, with the token at 254 and at 255 (R59, R65). -/
theorem test_zero_repeat_witness : ∀ e ∈ macroSlots, ∀ t ∈ [254, 255],
    Stands (work (macroCore 0 t)) c0 (macroBundle e.2.1 e.2.2) e.2.1 e.2.2
      ∧ (∃ l < mf ((macroBundle e.2.1 e.2.2).word e.2.1) 25 23, ((work (macroCore 0 t)).core c0).j.get 0 l = 0)
      ∧ mf ((macroBundle e.2.1 e.2.2).word e.2.1) 14 14 = 1
      ∧ (((work (macroCore 0 t)).core c0).tookSlot (macroBundle e.2.1 e.2.2) e.2.1).tok.get 0
          (mf ((macroBundle e.2.1 e.2.2).word e.2.1) 13 8) = t := by
  simp only [Stands, Opens]; decide +kernel

/-- Two writes to A5 that land together from slots 1 and 3, one of slot 3 before them, one to X5 that lands later (R61). -/
def landing : State :=
  work { busy with inflight := [⟨.a, 5, 1, 3, 1⟩, ⟨.a, 5, 2, 3, 1⟩, ⟨.a, 5, 3, 1, 0⟩, ⟨.x, 5, 4, 2, 2⟩, ⟨.i, 0, 9, 1, 1⟩] }

theorem test_writes_land_witness :
    (landing.part 0).pll = .running ∧ (∀ k : Fin 9, (landing.core ⟨0, 0, k⟩).slotsLeft = false) ∧ (∀ w ∈ (landing.core c0).inflight, w.slot < 6)
      ∧ (landing.core c0).inflight = [⟨.a, 5, 1, 3, 1⟩] ++ ⟨.a, 5, 2, 3, 1⟩ :: [⟨.a, 5, 3, 1, 0⟩, ⟨.x, 5, 4, 2, 2⟩, ⟨.i, 0, 9, 1, 1⟩]
      ∧ (∀ v ∈ [(⟨.a, 5, 1, 3, 1⟩ : RegWrite)], v.left ≤ 1 → v.slot ≤ 3)
      ∧ (∀ v ∈ [(⟨.a, 5, 3, 1, 0⟩ : RegWrite)], v.left ≤ 1 → v.slot < 3) := by decide +kernel

/-! ### Instances -/

/-- A queued operation with an opcode: token wait T63 (R55), two instances, one operand address and one count. -/
def queued (op : Nat) (base : List Addr) (xs : List Word) : MacroOp :=
  ⟨0, slotWord op [(8, 62), (14, 1), (16, 63), (22, 1), (23, 1)], 0, 0, 0, [2], base, base.map (fun _ => [0]), xs, [], 0, false⟩

/-- A core whose VEC queue holds a `VZERO` of 32 values at an address. -/
def vzeroCore (a : Addr) : Core := { busy with vecQ := [queued 0x8B [a] [32]], tok := [(63, 1)], gateVe := false }

theorem test_instance_starts_witness :
    let good := work (vzeroCore 0)
    let bad := work (vzeroCore 2097120)
    let m (a : Addr) := queued 0x8B [a] [32]
    enginesOn good c0 ∧ headReady good c0 .vec (m 0) [] ∧ drainOrVecCheck (m 0) = none
      ∧ headReady bad c0 .vec (m 2097120) [] ∧ (drainOrVecCheck (m 2097120)).isSome = true := by
  have on (a : Addr) : enginesOn (work (vzeroCore a)) c0 := ⟨share0, rfl, rfl, rfl, rfl⟩
  have tok (a : Addr) : ((work (vzeroCore a)).core c0).tok = [(63, 1)] := rfl
  have word (a : Addr) : mf (queued 0x8B [a] [32]).word 21 16 = 63 :=
    (by decide +kernel : mf (slotWord 0x8B [(8, 62), (14, 1), (16, 63), (22, 1), (23, 1)]) 21 16 = 63)
  have opcode (a : Addr) : 0x80 ≤ (queued 0x8B [a] [32]).op :=
    (by decide +kernel : 0x80 ≤ mop (slotWord 0x8B [(8, 62), (14, 1), (16, 63), (22, 1), (23, 1)]))
  have head (a : Addr) : headReady (work (vzeroCore a)) c0 .vec (queued 0x8B [a] [32]) [] :=
    ⟨on a, rfl, by rfl, by simp [work, vzeroCore, busy, State.core, Core.reset, CoreId.key, c0, Tbl.get], .inr ⟨rfl, opcode a⟩,
      rfl, fun _ _ => by rw [tok a, word a]; exact ⟨by decide, rfl, Nat.zero_le _⟩⟩
  exact ⟨on 0, head 0, by decide +kernel, head _, by decide +kernel⟩

/-- A running instance of an operation, as a core's only one. -/
def running (eng : Engine) (op : MacroOp) (st : InstSt) : Inst := ⟨0, eng, op, 0, st, 0, 0, [], [], [], 0⟩

/-- An `SPCOPY` of 8,192 bytes from 0 to 4,096 of core 8 of the cluster, its token one below its largest count (R90). -/
def copyInst : Inst :=
  running .dma ⟨0, slotWord 0x04 [(8, 63), (14, 1), (38, 8)], 0, 0, 0, [], [0, 4096], [[], []], [8192], [], 1, false⟩ .running
def copyCore : Core := { busy with runs := [copyInst], tok := [(63, 254)] }

theorem test_spcopy_witness :
    copyRuns (work copyCore) c0 copyInst ∧ ((work copyCore).core c0).tokPhase = 0 ∧ ((work copyCore).core c0).tok.get 0 (mf copyInst.op.word 13 8) < 255 := by
  refine ⟨⟨⟨share0, rfl, rfl, rfl, rfl⟩, rfl, rfl, rfl, rfl, rfl, Nat.zero_le _, rfl, rfl⟩, rfl, by decide +kernel⟩

/-- The same while its context is SAVING. -/
def saving (x : Core) : State := { work x with parts := [(0, partAs .saving)] }

/-- A cut after the first 4 KiB; a cut of a registered `WAIT` (R113, R114). -/
theorem test_cut_points_witness :
    let s := saving copyCore
    let w := running .dma ⟨0, slotWord 0x19 [], 0, 0, 0, [], [0], [[]], [1, 0], [], 1, false⟩ .waiting
    (s.core c0).share = some share0 ∧ (s.ctx 0 0).st = .saving ∧ (s.core c0).st = .running ∧ (s.part 0).pll = .running
      ∧ (s.core c0).runs = [copyInst] ∧ copyInst.op.op = 4 ∧ mf copyInst.op.word 42 42 = 0 ∧ (s.core c0).spErr = []
      ∧ s.hk.flips = [] ∧ 4096 < copyInst.op.x 0 ∧ w.op.op = 0x19 ∧ w.st = .waiting
      ∧ ((saving { busy with runs := [w] }).core c0).runs = [w] := by decide +kernel

/-- A `WAITT` held for one core cycle more than its limit (R68). -/
theorem test_wait_timeout_witness :
    let s := work { busy with waitLimit := 1, hold := some ⟨63, 255, 1025⟩ }
    (s.core c0).share = some share0 ∧ (s.core c0).st = .running ∧ (s.ctx 0 0).st = .running ∧ (s.core c0).waitLimit ≠ 0
      ∧ (s.core c0).hold = some ⟨63, 255, 1025⟩ ∧ (s.core c0).waitLimit.toNat * 1024 < 1025 := by decide +kernel

/-- A `SEMTAKE` that has waited for one core cycle more than its limit (R96). -/
theorem test_flag_timeout_witness :
    let i : Inst := { running .dma ⟨0, slotWord 0x1B [], 0, 0, 0, [], [0], [[]], [], [], 1, false⟩ .waiting with held := 1025 }
    let s := work { busy with waitLimit := 1, runs := [i] }
    (s.core c0).share = some share0 ∧ (s.core c0).st = .running ∧ (s.ctx 0 0).st = .running ∧ (s.core c0).hold = none
      ∧ (s.core c0).runs = [i] ∧ i.op.op = 0x1B ∧ i.st = .waiting ∧ (s.core c0).waitLimit.toNat * 1024 < i.held := by
  decide +kernel

/-- A `WAITT` held for exactly its limit (R68). -/
theorem test_no_timeout_witness :
    let x := (work { busy with waitLimit := 1, hold := some ⟨63, 255, 1024⟩ }).core c0
    x.waitLimit ≠ 0 ∧ (∀ h, x.hold = some h → h.cycles ≤ x.waitLimit.toNat * 1024)
      ∧ ∀ i ∈ x.runs, i.held ≤ x.waitLimit.toNat * 1024 := by
  refine ⟨by decide +kernel, fun h e => ?_, by decide +kernel⟩
  cases e
  decide +kernel

/-! ### Traces, gates, clocks -/

/-- A cluster that dropped a record and has room again. -/
def dropped : State := { ready with clusters := [(0, { Cluster.reset with trEnable := true, trDropped := 2 ^ 64 - 1 })] }

theorem test_trace_control_witness :
    ready.hi.st ≠ .starting ∧ (dropped.cluster cl0).trEnable = true ∧ (dropped.cluster cl0).trTypes.getLsbD 15 = true
      ∧ 0 < (dropped.cluster cl0).trDropped ∧ (dropped.cluster cl0).trDropped < 2 ^ 64 ∧ (dropped.cluster cl0).traceRoom = true := by
  decide +kernel

/-- A core with work for every engine; a stack with a command, a unit with a program; partitions in each PLL state. -/
def clocked (pll : PllSt) : State :=
  { ready with
    parts := [(0, { Part.reset with pll := pll })]
    cores := [(0, { Core.reset with matQ := [queued 0x41 [] []], vecQ := [queued 0x8B [] []], dmaQ := [queued 0x08 [] []] })]
    stks := [(0, { Stack.reset with
      queue := [⟨.gemv, 0, 0, 0, 0, 0, .queued, 0⟩], units := [(0, { BankUnit.reset with program := [(0, some readTwo)] })] })] }

theorem test_clocks_witness :
    let s := clocked .running
    (s.core c0).matQ ≠ [] ∧ (s.core c0).vecQ ≠ [] ∧ queued 0x08 [] [] ∈ (s.core c0).dmaQ ∧ (queued 0x08 [] []).op = 8
      ∧ (s.part 0).pll = .running ∧ (s.stack 0).queue ≠ [] ∧ (s.unit u0).program ≠ []
      ∧ (∀ x, (ready.ctx 0 x).st = .free) ∧ ready.partBusy 0 = false ∧ (ready.part 0).idleDelay ≠ 0 ∧ (ready.part 0).pll = .running
      ∧ ((clocked .stopping).part 0).pll = .stopping ∧ ((clocked .stopped).part 0).pll = .stopped
      ∧ ((clocked .starting).part 0).pll = .starting := by decide +kernel

end Sys2Proof.Tests
end

