-- ==== Sys2Proof/Tests/WitnessHeat.lean ====
section
/-! SUPPORT. Witnesses of the statements about the watchdog, heat, rails, pins, starts and the SPDM responder. -/

namespace Sys2Proof.Tests

set_option Elab.async false

open Sys2Proof.Machine

/-! ### The watchdog -/

/-- A region of one cacheable PART page, at 0x1_0000, for context 0; its frame is 0. -/
def flagPage : Region := ⟨.part, false, true, false, false, 1, 0x10000, 1, 64, 0, 0⟩
/-- Queue 0 holds a `FLAG_WAIT` whose flag is 0 and target 1, in a partition whose count has reached the period (R306). -/
def blocked : State :=
  { ready with
    parts := [(0, { partAs .running with wdPeriod := 100, wdCount := 100, wdReports := 65534, regions := [(0, some flagPage)] })]
    wqs := [(0, some wq0)]
    evq := [(0, { EvQ.reset with enable := true })]
    pkts := [newPkt 0 wq0 ⟨0, 0, 0⟩ .flagWait (packet 0x29 [(8, 0x10000), (16, 1)])] }

theorem test_watchdog_witness :
    (blocked.part 0).wdEn = true ∧ (blocked.part 0).wdArmed = true ∧ blocked.deadlocked 0 = true
      ∧ (blocked.part 0).wdPeriod.toNat ≤ (blocked.part 0).wdCount.toNat ∧ (blocked.part 0).wdReports.toNat < 65535
      ∧ blocked.openQueues 0 = [(0, wq0)] ∧ (blocked.eventQ wq0.evq).enable = true ∧ (blocked.eventQ wq0.evq).room = true
      ∧ blocked.evLate = [] ∧ blocked.hi.cmdTag = 0 := by
  decide +kernel

/-- No queue, and a blocked one; a link that is not ACTIVE, and an ACTIVE one that has told its peer of everything. -/
theorem test_tick_witness :
    ready.pending = [] ∧ blocked.pending = [] ∧ (blocked.part 0).wdEn = true ∧ ready.hi.waiting = [] ∧ blocked.hi.waiting = []
      ∧ (ready.link 0).st ≠ .active
      ∧ (let k : Link := { Link.reset with st := .active, told := (Link.reset.rxSeq - 1, false) };
          k.st = .active ∧ k.retReq = 0 ∧ k.retRsp = 0 ∧ k.retBulk = 0 ∧ k.retCtl = 0 ∧ k.told = (k.rxSeq - 1, k.nak)) := by
  decide +kernel

/-! ### Housekeeping rounds -/

/-- A round in which one sensor reads `x` eighths of a degree and every other one 25 °C. -/
def roundWith (n : Nat) (x : BitVec 12) : Round := { mildRound with temps := setNth mildRound.temps n { mild with temp := x } }
/-- Domain `d` in a state and step, thresholds as at reset: warn 95 °C, throttle 100 °C (95 °C in a stack), H 3 °C. -/
def heat (d : Nat) (st : ThermSt) (tstep : Nat) : State := { ready with th := { Thermal.reset with domains := [(d, ⟨st, tstep, tstep, 0, 0, 0⟩)] } }

theorem hot_of (r : Round) (d n : Nat) (x : Int) (e : Reading) (hn : n ∈ domainSensors d) (he : r.temps[n]? = some e)
    (hx : x ≤ e.temp.toInt) : roundHot r d x := ⟨n, hn, e, he, hx⟩

theorem not_hot (r : Round) (d : Nat) (x : Int)
    (h : ∀ n ∈ domainSensors d, (match r.temps[n]? with | some e => decide (e.temp.toInt < x) | none => true) = true) :
    ¬ roundHot r d x := by
  rintro ⟨n, hn, e, he, hx⟩
  have := h n hn
  rw [he] at this
  simp at this
  omega

theorem sound_of (s : State) (r : Round) (hs : s.th.temps = []) (h1 : r.temps.length = 332) (h2 : ∀ e ∈ r.temps, Reading.cause e = 0) :
    soundRound s r := ⟨h1, h2, fun n => by simp [State.sensor, hs, Tbl.get, Sensor.reset]⟩

/-- Every clause about domain 0 (throttle 100 °C, so 800) and about a stack's refresh, each at its boundary. -/
theorem test_housekeeping_witness :
    (∀ x ∈ [(800 : BitVec 12), 799, 776, 775, 760, 759, 736, 735], ∀ e ∈ [(ThermSt.tripped, 0), (.throttled, 9), (.throttled, 1), (.normal, 0), (.warn, 0)],
      soundRound (heat 0 e.1 e.2) (roundWith 31 x) ∧ ((heat 0 e.1 e.2).domain 0).st = e.1)
    ∧ roundHot (roundWith 31 800) 0 800 ∧ ¬ roundHot (roundWith 31 799) 0 800 ∧ roundHot (roundWith 31 776) 0 776
    ∧ ¬ roundHot (roundWith 31 775) 0 776 ∧ roundHot (roundWith 31 760) 0 760 ∧ ¬ roundHot (roundWith 31 759) 0 760
    ∧ roundHot (roundWith 31 736) 0 736 ∧ ¬ roundHot (roundWith 31 735) 0 736
    ∧ roundHot (roundWith 128 680) 4 680 ∧ ¬ roundHot (roundWith 144 679) 4 680 ∧ roundHot (roundWith 144 664) 4 664
    ∧ ¬ roundHot (roundWith 128 663) 4 664 := by
  have rounds : ∀ x ∈ [(800 : BitVec 12), 799, 776, 775, 760, 759, 736, 735],
      (roundWith 31 x).temps.length = 332 ∧ ∀ e ∈ (roundWith 31 x).temps, Reading.cause e = 0 := by decide +kernel
  have states : ∀ e ∈ [(ThermSt.tripped, 0), (.throttled, 9), (.throttled, 1), (.normal, 0), (.warn, 0)],
      ((heat 0 e.1 e.2).domain 0).st = e.1 := by decide +kernel
  refine ⟨fun x hx e he => ⟨sound_of _ _ rfl (rounds x hx).1 (rounds x hx).2, states e he⟩, ?_⟩
  · refine ⟨hot_of _ _ 31 _ ⟨800, false, false, false⟩ (by decide) (by decide +kernel) (by decide),
      not_hot _ _ _ (by decide +kernel), hot_of _ _ 31 _ ⟨776, false, false, false⟩ (by decide) (by decide +kernel) (by decide),
      not_hot _ _ _ (by decide +kernel), hot_of _ _ 31 _ ⟨760, false, false, false⟩ (by decide) (by decide +kernel) (by decide),
      not_hot _ _ _ (by decide +kernel), hot_of _ _ 31 _ ⟨736, false, false, false⟩ (by decide) (by decide +kernel) (by decide),
      not_hot _ _ _ (by decide +kernel), hot_of _ _ 128 _ ⟨680, false, false, false⟩ (by decide) (by decide +kernel) (by decide),
      not_hot _ _ _ (by decide +kernel), hot_of _ _ 144 _ ⟨664, false, false, false⟩ (by decide) (by decide +kernel) (by decide),
      not_hot _ _ _ (by decide +kernel)⟩

/-- A change of the split in each of its two phases (R38). -/
theorem test_allowance_witness :
    soundRound { ready with pw := { Power.reset with phase := 1 } } mildRound
      ∧ soundRound { ready with pw := { Power.reset with phase := 2 } } mildRound ∧ ready.pw.phase = 0 :=
  ⟨sound_of _ _ rfl (by decide +kernel) (by decide +kernel), sound_of _ _ rfl (by decide +kernel) (by decide +kernel), rfl⟩

/-- A package with one broken sensor; a round in which sensor 331, of the last stack, breaks: at 0.125 °C above 150 °C (R453). -/
def oneBroken (n : Nat) : State := { ready with th := { Thermal.reset with temps := [(n, ⟨0, true, 1⟩)] } }

theorem test_broken_sensor_witness :
    ((oneBroken 5).sensor 5).broken = true ∧ 331 ∈ domainSensors 15 ∧ (ready.domain 15).st ≠ .tripped
      ∧ (roundWith 331 1201).temps.length = 332
      ∧ (∀ m < 332, ∀ e ∈ (roundWith 331 1201).temps[m]?, (Reading.cause e ≠ 0 ↔ m = 331)) := by decide +kernel

/-! ### Trips and their ends -/

theorem test_trips_witness :
    ready.th.tripped = false ∧ (ready.sensor 331).broken = false ∧ ((oneBroken 330).sensor 331).broken = false
      ∧ (∃ m ∈ domainSensors (sensorDomain 331), ((oneBroken 330).sensor m).broken = true)
      ∧ ready.hk.pg.getLsbD 0 = true
      ∧ ({ ready with hk := { Hk.reset with pg := 63, rails := 31 } } : State).hk.pg.getLsbD 5 = true
      ∧ ({ ready with hk := { Hk.reset with pg := 63, rails := 31 } } : State).hk.rails.getLsbD 4 = true
      ∧ ({ ready with th := { Thermal.reset with tripped := true } } : State).th.tripped = true := by decide +kernel

/-- A tripped package that has cooled to just below 80 °C (R457). -/
def cooled (held : Bool) : State :=
  { ready with
    th := { Thermal.reset with tripped := true, temps := [(0, ⟨639, false, 0⟩)] }
    hk := { Hk.reset with coldHeld := held, thermtrip := true } }
/-- The same with two broken sensors of one domain. -/
def twoBroken : State := { cooled false with th := { (cooled false).th with temps := [(0, ⟨0, true, 1⟩), (31, ⟨0, true, 1⟩)] } }

theorem test_trip_ends_witness :
    (∀ held ∈ [false, true], (cooled held).th.tripped = true
      ∧ (∀ n < 332, ((cooled held).sensor n).broken = false → ((cooled held).sensor n).temp.toInt < 640)
      ∧ (∀ d < 16, (cooled held).brokenIn d < 2) ∧ (cooled held).hk.pg.getLsbD 0 = true ∧ (cooled held).hk.coldHeld = held)
    ∧ twoBroken.th.tripped = true ∧ (∀ n < 332, (twoBroken.sensor n).broken = false → (twoBroken.sensor n).temp.toInt < 640)
    ∧ 2 ≤ twoBroken.brokenIn 0 ∧ twoBroken.hk.coldHeld = false := by decide +kernel

/-! ### Rails and pins -/

/-- Rails that come up, from the first group to the last but one; rails that go down, or a tripped package; rails that go down
from all up, or to the last, at their time limit and without it; a group that does not come up. -/
theorem test_rails_witness :
    ready.hk.down = false ∧ ready.th.tripped = false
      ∧ (∀ g ∈ [1, 4], let h : Hk := { Hk.reset with rails := BitVec.ofNat 5 (2 ^ g - 1), phase := .powerUp };
          h.down = false ∧ h.rails.getLsbD (g - 1) = true ∧ h.phase.powered = true)
      ∧ ({ Hk.reset with down := true } : Hk).down = true ∧ ({ Thermal.reset with tripped := true } : Thermal).tripped = true
      ∧ (∀ g ∈ [1, 5], let h : Hk := { Hk.reset with down := true, rails := BitVec.ofNat 5 (2 ^ (g - 1) - 1), pg := 63, phase := .hkBoot };
          h.down = true ∧ h.rails.toNat = 2 ^ (g - 1) - 1 ∧ h.pg.getLsbD g = true ∧ h.phase.powered = false)
      ∧ (let h : Hk := { Hk.reset with rails := 31, pg := 31, phase := .powerUp };
          h.rails.getLsbD 4 = true ∧ h.pg.getLsbD 5 = false ∧ h.down = false ∧ h.phase ≠ .ready ∧ h.phase ≠ .failed) := by
  decide +kernel

/-- Each state of a reset pin (R461, R462). -/
theorem test_reset_pins_witness :
    (∀ r ∈ [ResetPin.cold, .warm], ∀ st ∈ [PinSt.armed, .asserted, .begun, .ignored, .stuck],
      let s : State := { ready with hk := { Hk.reset with coldPin := st, warmPin := st, orient := 1 } }
      s.hk.pin r = st ∧ s.hk.orient ≠ 0 ∧ s.hk.pins.get 0 (pinNo r) = 0 ∧ s.th.tripped = false)
    ∧ ready.hk.orient = 0 ∧ ready.hk.pin .cold = .armed
    ∧ (ready.hk.cold = true ∧ ready.hk.phase ∈ [Phase.none, .hkBoot, .identity])
    ∧ ¬ (({ ready with hk := { Hk.reset with phase := .image } } : State).hk.phase ∈ [Phase.none, .hkBoot, .identity]) := by
  decide +kernel

theorem test_firmware_death_witness : ready.hi.st ≠ .faulted ∧ ready.th.tripped = false := by decide +kernel

/-! ### Starts -/

/-- An image whose header is well formed: no body, no configuration (R423). Whether its signatures verify is open. -/
def bareImage : List Byte :=
  leBytes 4 0x534C5256 ++ leBytes 4 1 ++ leBytes 4 12032 ++ leBytes 12 0 ++ leBytes 4 64 ++ List.replicate 12004 0

/-- A start that stands in a phase. -/
def starting (ph : Phase) (img : Image) : State := { State.reset with hk := { Hk.reset with phase := ph, pg := 63 }, img := img }

theorem test_start_to_verify_witness :
    (starting .hkBoot ⟨0, [], false⟩).hk.phase ∈ [Phase.none, .hkBoot] ∧ (starting .hkBoot ⟨0, [], false⟩).th.tripped = false
      ∧ (starting .hkBoot ⟨0, [], false⟩).hk.down = false ∧ (starting .hkBoot ⟨0, [], false⟩).hk.pg.getLsbD 0 = true
      ∧ (starting .identity ⟨0, [], false⟩).hk.phase = .identity ∧ (starting .image ⟨1, [], false⟩).hk.phase = .image
      ∧ (1 < 2 ∧ (starting .image ⟨1, [], false⟩).qspiBad = false)
      ∧ imageHeaderOk bareImage = true ∧ imageHeaderOk (List.replicate 64 0) = false
      ∧ 64 ≤ (List.replicate 64 (0 : Byte)).length ∧ lf (List.replicate 64 0) 8 4 ≤ (List.replicate 64 (0 : Byte)).length
      ∧ (starting .verify ⟨1, [], false⟩).hk.phase = .verify ∧ (starting .verify ⟨1, [], false⟩).hk.cold = true := by decide +kernel

theorem test_start_to_ready_witness :
    (∀ ph ∈ [Phase.powerUp, .memInit, .test, .cadastre, .apply, .configure], (starting ph ⟨0, [], false⟩).hk.phase = ph)
      ∧ (starting .powerUp ⟨0, [], false⟩).hk.pg = 63 ∧ (starting .cadastre ⟨0, [], false⟩).cad.runtime = []
      ∧ (starting .cadastre ⟨0, [], false⟩).cad.tested = [] := by decide +kernel

/-- The responder with its negotiation complete and the alias key there (R426); and before it. -/
theorem test_spdm_witness :
    let s : State := { starting .powerUp ⟨0, [], false⟩ with spdm := ⟨true, true, true, []⟩, ta := ⟨true, false, true, [], 0, 0⟩ }
    s.hk.phase ≠ .none ∧ s.spdm.version = true ∧ s.spdm.caps = true ∧ s.spdm.algs = true ∧ s.ta.aliased = true
      ∧ (starting .identity ⟨0, [], false⟩).hk.phase ≠ .none ∧ (starting .identity ⟨0, [], false⟩).spdm.version = false
      ∧ spdmSlot [0x13, 0x82, 0, 0] = 0 ∧ spdmSlot [0x13, 0x82, 1, 0] ≠ 0
      ∧ spdmIndex [0x13, 0xE0, 0, 255] = 255 ∧ spdmIndex [0x13, 0xE0, 0, 8] = 7 + 1
      ∧ 8 < spdmIndex [0x13, 0xE0, 0, 9] ∧ spdmIndex [0x13, 0xE0, 0, 9] ≠ 255 := by
  decide +kernel

end Sys2Proof.Tests
end

