-- ==== Sys2Proof/Tests/WitnessManage.lean ====
section
/-! SUPPORT. Witnesses of the statements about management commands and registers. -/

namespace Sys2Proof.Tests

set_option Elab.async false

open Sys2Proof.Machine

/-! ### Settings and reports -/

/-- A device in a state whose management queue holds one command. -/
def mgAs (st : DevSt) : State := { State.reset with hi := { HostIf.reset with st := st, mcqEnable := true, mcqTail := 1 } }
def mg : State := mgAs .ready

theorem test_refusals_witness :
    mg.mcqReady = true ∧ 0x14 < pf (packet 0xFF []) 0 1 ∧ pf (packet 0x15 []) 0 1 = 0x15 ∧ pf (packet 0 []) 0 1 = 0
      ∧ (∀ e ∈ managementCommands, pf (packet e.2 [(1, 1)]) 0 1 = e.2 ∧ pf (packet e.2 [(1, 1)]) 1 1 ≠ 0)
      ∧ (mgAs .faulted).mcqReady = true ∧ (mgAs .faulted).hi.st = .faulted ∧ MgmtForm (packet 3 []) 0x03 true []
      ∧ MgmtForm (packet 4 [(3, 3)]) 0x04 true [] ∧ ready.hi.mcqEnable = false := by
  simp only [MgmtForm]; decide +kernel

/-- Every role; the ends of the ranges of R33; the ends of the ranges of both groups of R458. -/
theorem test_settings_witness :
    mg.mcqReady = true ∧ mg.hi.st = .ready
      ∧ (∀ n < 5, MgmtForm (packet 2 [(8, n)]) 0x02 false [(8, 1)] ∧ (roleTable[pf (packet 2 [(8, n)]) 8 1]?).isSome = true)
      ∧ (∀ e ∈ [(10, 0, 1600), (90, 1, 3200)],
          let k := packet 0x10 [(8, e.1), (9, e.2.1), (10, e.2.2)]
          MgmtForm k 0x10 false [(8, 1), (9, 1), (10, 2)] ∧ 10 ≤ pf k 8 1 ∧ pf k 8 1 ≤ 90 ∧ pf k 8 1 % 5 = 0 ∧ pf k 9 1 ≤ 1
            ∧ 1600 ≤ pf k 10 2 ∧ pf k 10 2 ≤ 3200 ∧ pf k 10 2 % 25 = 0)
      ∧ (∀ e ∈ [(0, 60, 65, 1), (0, 95, 100, 10), (1, 0, 60, 1), (1, 0, 95, 10)],
          let k := packet 0x11 [(8, e.1), (9, e.2.1), (10, e.2.2.1), (11, e.2.2.2)]
          MgmtForm k 0x11 false [(8, 1), (9, 1), (10, 1), (11, 1)] ∧ 1 ≤ pf k 11 1 ∧ pf k 11 1 ≤ 10
            ∧ ((pf k 8 1 = 0 ∧ 60 ≤ pf k 9 1 ∧ pf k 9 1 ≤ 95 ∧ pf k 9 1 < pf k 10 1 ∧ 65 ≤ pf k 10 1 ∧ pf k 10 1 ≤ 100)
              ∨ (pf k 8 1 = 1 ∧ pf k 9 1 = 0 ∧ 60 ≤ pf k 10 1 ∧ pf k 10 1 ≤ 95))) := by
  simp only [MgmtForm]; and_intros <;> decide +kernel

/-- A device with 4 slices of PART memory in partition 0, 1 GiB of it reserved, RUNNING. -/
def mg0 (q : Part) : State := { mg with parts := [(0, { q with rowsPart := 4, reserve := 1 })], rowsDev := 4 }
def mgRun : State := mg0 { Part.reset with st := .running }

/-- Every target of R404 with the widest mask and the highest field values; a table of all sequences in the first place of the
reserved area, and one sequence in the last place. -/
theorem test_masks_and_tables_witness :
    (∀ t < 9,
      let k := packet 0x13 ([(8, t), (16, (if 5 ≤ t then 2 ^ 8 else 2 ^ 39) - 1)] ++ injectFields t)
      MgmtForm k 0x13 true [(8, 8), (16, 8)] ∧ pf k 8 1 ≤ 8
        ∧ (∀ o ∈ [3, 9, 10, 11, 12, 13, 14, 15], (match (injectFields (pf k 8 1)).find? (fun f => f.1 = o) with
          | some f => decide (pf k o 1 ≤ f.2)
          | none => decide (pf k o 1 = 0)) = true)
        ∧ 0 < pf k 16 8 ∧ pf k 16 8 < (if 5 ≤ pf k 8 1 then 2 ^ 8 else 2 ^ 39)
        ∧ mg.hk.injection = false ∧ ({ mg with hk := { mg.hk with injection := true } } : State).hk.flips.get 0 (injectKey k) = 0)
    ∧ (∀ e ∈ [(mgRun.reserveBase 0, 0, 16384, 1), (mgRun.partSize 0 - 2 ^ 21, 16383, 1, 1)],
      let k := packet 0x14 [(8, e.1), (16, e.2.1), (18, e.2.2.1), (20, e.2.2.2)]
      MgmtForm k 0x14 true [(8, 8), (16, 2), (18, 2), (20, 2)] ∧ (mgRun.part (mgmtPart k)).st = .running ∧ (mgRun.part (mgmtPart k)).pll = .running ∧ pf k 13 3 = 0
        ∧ pf k 8 5 % 2 ^ 21 = 0 ∧ 0 < pf k 20 2 * 2 ^ 21 ∧ mgRun.reserveBase (mgmtPart k) ≤ pf k 8 5
        ∧ pf k 8 5 + pf k 20 2 * 2 ^ 21 ≤ mgRun.partSize (mgmtPart k) ∧ (mgRun.part (mgmtPart k)).allocs = []
        ∧ pf k 16 2 ≤ 16383 ∧ pf k 16 2 + pf k 18 2 ≤ 16384 ∧ (∀ o ≠ mgmtPart k, (mgRun.part o).seqCount = 0) ∧ mgRun.seqs = []) := by
  simp only [MgmtForm]; and_intros <;> decide +kernel

/-- A list of two entries; room for the header, for one entry and for all (R435). -/
def listed : State :=
  { mg with cad := { State.reset.cad with list := ⟨7, 3, 2, List.replicate 32 9, [⟨1, 0, 1, 0, 3⟩, ⟨1, 0, 2, 0, 3⟩]⟩ } }

theorem test_reports_witness :
    listed.mcqReady = true
      ∧ (∀ e ∈ [(1, []), (0x12, []), (0x0C, [(16, 64)]), (0x0C, [(16, 95)]), (0x0C, [(16, 96)])],
          HostField (packet e.1 ([(8, 2 ^ 48 - 64)] ++ e.2)) 8)
      ∧ MgmtForm (packet 1 [(8, 2 ^ 48 - 64)]) 0x01 false [(8, 8)] ∧ MgmtForm (packet 0x12 [(8, 2 ^ 48 - 64)]) 0x12 false [(8, 8)]
      ∧ (∀ n ∈ [64, 95, 96], MgmtForm (packet 0x0C [(8, 2 ^ 48 - 64), (16, n)]) 0x0C false [(8, 8), (16, 4)]
          ∧ 64 ≤ pf (packet 0x0C [(8, 2 ^ 48 - 64), (16, n)]) 16 4)
      ∧ MgmtForm (packet 0x0C [(8, 2 ^ 48 - 64), (16, 63)]) 0x0C false [(8, 8), (16, 4)]
      ∧ pf (packet 0x0C [(8, 2 ^ 48 - 64), (16, 63)]) 16 4 < 64 ∧ HostField (packet 0x0C [(8, 2 ^ 48 - 64), (16, 63)]) 8
      ∧ listed.cad.list.ident.length = 32 := by
  simp only [MgmtForm, HostField]; decide +kernel

/-! ### Partitions, contexts, regions, queues -/

/-- A partition that stops with a READY context and a RUNNING one, with and without a semaphore; and with neither. -/
def stopping (held : List (Nat × Addr)) : State :=
  mg0 { Part.reset with
    st := .running, cur := some 0, pll := .stopping
    ctxs := [(0, { Ctx.reset with st := .running, held := held }), (1, { Ctx.reset with st := .ready })] }

theorem test_start_stop_witness :
    MgmtForm (packet 3 [(3, 3)]) 0x03 true [] ∧ (mg.part 3).st = .off
      ∧ (∀ pll ∈ [PllSt.running, .stopping, .stopped, .starting],
          ((mg0 { Part.reset with st := .stopped, pll := pll }).part (mgmtPart (packet 3 []))).st = .stopped
          ∧ ((mg0 { Part.reset with st := .running, pll := pll }).part (mgmtPart (packet 4 []))).st = .running)
      ∧ (∀ pll ∈ [PllSt.running, .stopping], ({ Part.reset with pll := pll } : Part).reached)
      ∧ MgmtForm (packet 4 []) 0x04 true [] ∧ (mgRun.part (mgmtPart (packet 4 []))).st = .running ∧ (mgRun.part 0).cur = none
      ∧ (mgRun.part 0).reached ∧ ((stopping []).part 0).reached ∧ ((stopping [(0, 0)]).part 0).reached
      ∧ (∀ h ∈ [[], [(0, 0)]], ((stopping h).part 0).st = .running ∧ ((stopping h).part 0).cur = some 0
          ∧ ((stopping h).ctx 0 0).st = .running ∧ ((stopping h).ctx 0 0).held = h ∧ ((stopping h).ctx 0 1).st = .ready) := by
  simp only [MgmtForm, Part.reached]; decide +kernel

theorem test_contexts_witness :
    let a := packet 5 [(8, 15)]
    let b := packet 6 [(8, 15)]
    let s := mg0 { Part.reset with st := .stopped, ctxs := [(15, { Ctx.reset with st := .faulted })] }
    pf a 8 1 ≤ 15 ∧ MgmtForm a 0x05 true [(8, 1)] ∧ (mgRun.part (mgmtPart a)).open' ∧ (mgRun.ctx 0 (ctxAt a 8)).st = .free
      ∧ (mgRun.allocate (mgmtPart a) (2 ^ 21) (208 * 2 ^ 20)).isSome = true ∧ mgRun.hasWork (mgmtPart a) (ctxAt a 8) = false
      ∧ MgmtForm b 0x06 true [(8, 1)] ∧ (s.part (mgmtPart b)).st = .stopped ∧ (s.ctx 0 (ctxAt b 8)).st = .faulted
      ∧ s.pktsOf 0 (ctxAt b 8) = [] ∧ (s.ctx 0 (ctxAt b 8)).held = [] ∧ s.waits = [] ∧ (s.part 0).reached ∧ (mgRun.part 0).reached := by
  refine ⟨by decide +kernel, by simp only [MgmtForm]; decide +kernel, .inl (by decide +kernel), by decide +kernel, ?_, ?_⟩
  · simp only [State.allocate]
    split
    · rfl
    · decide +kernel
  · simp only [MgmtForm, Part.reached]; decide +kernel

/-- A `REGION_MAP` of one small PART page at the top of the device space for context 15, its frame 0 (R178). -/
def mapPacket : Packet := packet 7 [(8, 2 ^ 48 - 65536), (16, 64), (24, 1), (28, 0x8000)]
def mapState : State := mg0 { Part.reset with st := .running, ctxs := [(15, { Ctx.reset with st := .waiting })] }
/-- Region 63 mapped already. -/
def unmapState : State := mg0 { Part.reset with st := .running, regions := [(63, some (mapRegion mapPacket))] }

theorem test_regions_witness :
    mapState.mcqReady = true ∧ mapState.mapCheck mapPacket = none ∧ mapState.hi.st = .ready ∧ (mapState.part (mgmtPart mapPacket)).open'
      ∧ (mapRegion mapPacket).datum = false ∧ (mapState.part 0).rowsPart.toNat ≤ 16
      ∧ (∀ x : Fin 16, (mapRegion mapPacket).ctxMask.getLsbD x.val = true → (mapState.ctx 0 x).st ≠ .free)
      ∧ (mapState.part 0).regions.get none 63 = none
      ∧ (mapState.allocate (mgmtPart mapPacket) 64 (4 * (mapRegion mapPacket).size.toNat)).isSome = true
      ∧ mapState.hostPoison (pa mapPacket 16) (4 * (mapRegion mapPacket).size.toNat) = false
      ∧ MgmtForm (packet 8 [(8, 63)]) 0x08 true [(8, 1)] ∧ (unmapState.part (mgmtPart (packet 8 [(8, 63)]))).open'
      ∧ (unmapState.part 0).regions.get none (pf (packet 8 [(8, 63)]) 8 1) = some (mapRegion mapPacket)
      ∧ unmapState.entryBusy 0 (mapRegion mapPacket) = false ∧ (mapState.part 0).reached ∧ (unmapState.part 0).reached := by
  refine ⟨by decide +kernel, by decide +kernel, by decide +kernel, .inl (by decide +kernel), by decide +kernel, by decide +kernel,
    by decide +kernel, by decide +kernel, ?_, by decide +kernel, by simp only [MgmtForm]; decide +kernel, .inl (by decide +kernel), by decide +kernel,
    by decide +kernel, .inl (by decide +kernel), .inl (by decide +kernel)⟩
  simp only [State.allocate]
  split
  · rfl
  · decide +kernel

theorem test_queues_witness :
    (∀ n ∈ [4, 16], let k := packet 9 [(8, 4096), (16, 8), (24, 15), (25, n), (26, 7)]
      MgmtForm k 0x09 true [(8, 8), (16, 8), (24, 1), (25, 1), (26, 1)] ∧ pf k 14 2 = 0 ∧ pa k 8 % 4096 = 0 ∧ pf k 22 2 = 0
        ∧ pa k 16 % 8 = 0 ∧ pf k 24 1 ≤ 15 ∧ 4 ≤ pf k 25 1 ∧ pf k 25 1 ≤ 16 ∧ pf k 26 1 ≤ 7
        ∧ (mapState.ctx (mgmtPart k) (ctxAt k 24)).st = .waiting ∧ mapState.queue 0 = none
        ∧ (mapState.part (mgmtPart k)).reached)
    ∧ (let k := packet 0x0A [(8, 255)]
      let s : State := { mapState with wqs := [(255, some { wq0 with head := 5, tail := 5, taken := 5 })] }
      MgmtForm k 0x0A false [(8, 1)] ∧ pf k 8 1 = 255 ∧ s.queue 255 = some { wq0 with head := 5, tail := 5, taken := 5 }) := by
  simp only [MgmtForm, Part.reached]; decide +kernel

/-! ### Resets by command, the Cadastre, repairs -/

/-- A core of partition 3 whose halted instance goes on to its cut point; a bank unit of stack 9 in a run. -/
def lateCore : Core := { Core.reset with st := .halted, stopping := [⟨share0, copyInst⟩] }
def lateUnit : State := mg.setUnit ⟨9, 0, 0⟩ { BankUnit.reset with inRun := true }

theorem test_resets_witness :
    (∀ e ∈ [(0, 9, 8), (1, 9, 0), (2, 0, 0)],
      let k := packet 0x0B [(3, 3), (8, e.1), (9, e.2.1), (10, e.2.2)]
      MgmtForm k 0x0B true [(8, 1), (9, 1), (10, 1)] ∧ pf k 8 1 = e.1 ∧ pf k 9 1 = e.2.1 ∧ pf k 10 1 = e.2.2
        ∧ (mg.core (resetCoreId k)).busy = false ∧ (∀ c ∈ coresOf (resetCl k), (mg.core c).busy = false) ∧ mg.hostHolds (mgmtPart k) = []
        ∧ (mg.part (mgmtPart k)).reached ∧ (mg.part (mgmtPart k)).resetting = false
        ∧ (∀ c ∈ coresOfPart (mgmtPart k), (mg.core c).runs = [] ∧ (mg.core c).stopping = []) ∧ mg.unitsCut (mgmtPart k) = true
        ∧ (∀ l ∈ linksOf (mgmtPart k), (mg.link l).rx = []))
    ∧ (∃ c ∈ coresOfPart 3, (({ mg with cores := [(CoreId.key ⟨3, 0, 0⟩, lateCore)] } : State).core c).stopping ≠ [])
    ∧ lateUnit.unitsCut 3 = false
    ∧ (∀ n ∈ [3, 4], let k := packet 0x0B [(8, n)]
      MgmtForm k 0x0B false [(8, 1), (9, 1), (10, 1)] ∧ pf k 8 1 = n ∧ pf k 9 1 = 0 ∧ pf k 10 1 = 0)
    ∧ mg.hi.mcqHeadWb = 0 ∧ mg.parked = [] ∧ mg.waits = [] := by
  simp only [MgmtForm, Part.reached]; decide +kernel

theorem test_memtest_witness :
    (∀ n ∈ [1, 4095], MgmtForm (packet 0x0E [(8, n)]) 0x0E false [(8, 2)] ∧ 1 ≤ pf (packet 0x0E [(8, n)]) 8 2
      ∧ pf (packet 0x0E [(8, n)]) 8 2 ≤ 4095)
    ∧ (∀ p, (mg.part p).st = .off) ∧ ({ mg with hk := { mg.hk with mtBusy := true } } : State).hk.mtBusy = true := by
  simp only [MgmtForm]; decide +kernel

/-- An import of a list with no entry, whose identity digest is this device's (R432, R436). -/
def importPacket : Packet := packet 0x0D [(8, 64), (16, 64)]
def emptyList : List Byte := CadList.bytes ⟨0, 0, 0, mg.ident, []⟩
def importing : State := { mg with hostMem := Tbl.setMany 0 [] 64 emptyList }

theorem getMany_setMany (m : Tbl Byte) (a : Nat) (bs : List Byte) : (Tbl.setMany 0 m a bs).getMany 0 a bs.length = bs := by
  apply List.ext_getElem?
  intro n
  by_cases h : n < bs.length
  · rw [Tbl.getMany_get _ _ _ _ _ h, Tbl.get_setMany]
    simp [h]
  · rw [List.getElem?_eq_none (by simp; omega), List.getElem?_eq_none (by omega)]

theorem leBytes_length (w n : Nat) : (leBytes w n).length = w := by
  induction w generalizing n with
  | zero => rfl
  | succ w ih => simp [leBytes, ih]

theorem leNat_leBytes (w n : Nat) (h : n < 256 ^ w) : leNat (leBytes w n) = n := by
  induction w generalizing n with
  | zero => simp [leBytes, leNat] at *; omega
  | succ w ih =>
    rw [leBytes, leNat, ih]
    · simp; omega
    · rw [Nat.pow_succ] at h; omega

theorem test_import_witness :
    importing.mcqReady = true ∧ importing.hi.st = .ready ∧ (∀ p, (importing.part p).st = .off)
      ∧ MgmtForm importPacket 0x0D false [(8, 8), (16, 4)] ∧ HostField importPacket 8
      ∧ importing.hostPoison (pa importPacket 8) (pf importPacket 16 4) = false ∧ importing.importCheck importPacket = none := by
  refine ⟨rfl, rfl, fun p => rfl, by simp only [MgmtForm]; decide +kernel, by simp only [HostField]; decide +kernel, by decide +kernel, ?_⟩
  have hi : mg.ident.length = 32 := leBytes_length _ _
  have hp : pa importPacket 8 = 64 := by decide +kernel
  have hn : pf importPacket 16 4 = 64 := by decide +kernel
  have hl : emptyList.length = 64 := by simp [emptyList, CadList.bytes, cadHead, leBytes_length, hi]
  have hr : importing.hostRead 64 64 = emptyList := by
    have := getMany_setMany [] 64 emptyList
    rw [hl] at this
    exact this
  have hid : importing.ident = mg.ident := rfl
  have hh : cadHead 0 0 0 0 = ([0x43, 0x44, 0x53, 0x54, 1] : List Byte) ++ List.replicate 23 0 := by decide
  have hc : leNat (leBytes 4 (crc32c (cadHead 0 0 0 0 ++ mg.ident)).toNat) = (crc32c (cadHead 0 0 0 0 ++ mg.ident)).toNat :=
    leNat_leBytes _ _ (crc32c (cadHead 0 0 0 0 ++ mg.ident)).isLt
  have hcl : (leBytes 4 (crc32c (cadHead 0 0 0 0 ++ mg.ident)).toNat).length = 4 := leBytes_length _ _
  have he : emptyList = cadHead 0 0 0 0 ++ leBytes 4 (crc32c (cadHead 0 0 0 0 ++ mg.ident)).toNat ++ mg.ident := by
    simp [emptyList, CadList.bytes]
  unfold State.importCheck
  dsimp only
  rw [hp, hn, hr, hid, he]
  revert hc hcl hi
  generalize leBytes 4 (crc32c (cadHead 0 0 0 0 ++ mg.ident)).toNat = c
  generalize mg.ident = i
  rw [hh]
  intro hi hc hcl
  have h28 : (([0x43, 0x44, 0x53, 0x54, 1] : List Byte) ++ List.replicate 23 0).length = 28 := by decide
  match c, hcl with
  | [a, b, c, d], _ =>
    have ht : (([0x43, 0x44, 0x53, 0x54, 1] : List Byte) ++ List.replicate 23 0 ++ [a, b, c, d] ++ i).take 28
        = [0x43, 0x44, 0x53, 0x54, 1] ++ List.replicate 23 0 := by simp [List.replicate]
    have hd : (([0x43, 0x44, 0x53, 0x54, 1] : List Byte) ++ List.replicate 23 0 ++ [a, b, c, d] ++ i).drop 32 = i := by
      simp [List.replicate]
    have hk : lf (([0x43, 0x44, 0x53, 0x54, 1] : List Byte) ++ List.replicate 23 0 ++ [a, b, c, d] ++ i) 28 4
        = leNat [a, b, c, d] := by simp [lf, List.replicate]
    have h32 : i.take 32 = i := by simp [← hi]
    simp only [ht, hd, hk, h32, hc]
    simp [badIf, firstBad, lf, leNat, List.replicate]
    rfl

/-! ### One mapped page -/

theorem translateAll_map (s : State) (p : Fin 4) (x : Fin 16) (f : Nat → Xlat) (as : List Nat)
    (h : ∀ a ∈ as, s.translate p x a = some (f a)) : s.translateAll p x as = some (as.map f) := by
  induction as with
  | nil => rfl
  | cons a as ih =>
    simp only [State.translateAll, h a (by simp), List.map_cons]
    rw [ih (fun b hb => h b (List.mem_cons_of_mem _ hb))]
    rfl

theorem access_map (s : State) (p : Fin 4) (x : Fin 16) (f : Nat → Xlat) (as : List Nat) (ok : Region → Bool)
    (h : ∀ a ∈ as, s.translate p x a = some (f a)) (hok : ∀ a, ok (f a).region = true) :
    s.access p x as ok = .ok (as.map f) := by
  have h1 : s.firstUnmapped p x as = none := by
    rw [State.firstUnmapped, List.find?_eq_none]
    intro a ha
    simp [h a ha]
  have h2 : (as.zip (as.map f)).find? (fun e => !ok e.2.region) = none := by
    rw [List.find?_eq_none]
    rintro ⟨a, t⟩ he
    obtain ⟨b, -, rfl⟩ := List.mem_map.1 (List.of_mem_zip he).2
    simp [hok b]
  simp only [State.access, h1, translateAll_map s p x f as h, h2]

/-- Translation through an only region of one small PART page for context 0, whose frame is 0. -/
theorem page_translate (s : State) (r : Region) (a : Nat) (h0 : (s.part 0).regions = [(0, some r)])
    (hc : r.covers 0 a = true) (hb : r.big = false) (hk : r.kind = .part) (ha : a < r.dbase.toNat + 65536)
    (hf : s.frameOf 0 r 0 = 0) (hp : 65536 ≤ s.partSize 0) :
    s.translate 0 0 a = some ⟨0, r, 0, .dram (partPlace 0 (a - r.dbase.toNat))⟩ := by
  have hd : a - r.dbase.toNat < 65536 := by omega
  have hn : (a - r.dbase.toNat) / 65536 = 0 := by omega
  have hm : (a - r.dbase.toNat) % 65536 = a - r.dbase.toNat := by omega
  have hpage : r.page = 65536 := by simp [Region.page, hb]
  simp only [State.translate, State.regionAt, h0, List.filterMap_cons, Option.map_some, List.filterMap_nil, List.find?_cons, hc, hpage, hn,
    hf, hk, hm, State.framePlace]
  rw [if_neg (by decide)]
  simp only [Nat.zero_mul, Nat.zero_add, Fin.val_zero]
  rw [if_pos (by omega)]
  rfl

/-- Context 0 RUNNING, with one small PART page at device address 0x1_0000 whose frame is 0, and its page array at the start
of the reserved area. -/
def page0 : Region := ⟨.part, false, false, false, false, 1, 0x10000, 1, BitVec.ofNat 40 (mgRun.reserveBase 0), 0, 0⟩
def mapped (st : CtxSt) : Part := { partAs st with regions := [(0, some page0)] }
def mem0 : State := mg0 (mapped .running)

/-- With every core PLL running, no unit at work and no line at the host, nothing holds an access up. -/
theorem reaches_of (s : State) (p : Fin 4) (w : Bool) (ts : List Xlat) (hp : ∀ q, (s.part q).pll = .running)
    (hu : ∀ u, s.unit u = BankUnit.reset) (hd : s.hostDir = []) : reaches s p w ts := by
  have hb : s.bridgeWaits p (placesOf ts) = none := by simp [State.bridgeWaits, hp]
  have hk (k : Nat) : s.bankOpen k = false := by simp [State.bankOpen, hu, BankUnit.reset]
  have hw : s.banksWait (placesOf ts) = false := by
    rw [State.banksWait, List.any_eq_false]
    rintro (k | a) _ <;> simp [hk]
  have hl : s.hostBlocks w (placesOf ts) = [] := by simp [State.hostBlocks, hd]
  simp [reaches, State.heldUp, State.heldAt, hb, hw, hl]

/-- The same where only partition 0 differs from its reset, and no stack does. -/
theorem reaches_with (s : State) (q : Part) (p : Fin 4) (w : Bool) (ts : List Xlat) (hs : s.parts = [(0, q)]) (hq : q.pll = .running)
    (hk : s.stks = []) (hd : s.hostDir = []) : reaches s p w ts := by
  refine reaches_of s p w ts (fun o => ?_) (fun u => ?_) hd
  · simp only [State.part, hs, Tbl.get_cons]
    split
    · exact hq
    · rfl
  · simp only [State.unit, State.stack, hk]
    rfl

/-- The last 4 KiB block of that page, its bytes, and the blocks of BAR2 that they lie in. -/
def repairPacket : Packet := packet 0x0F [(8, 0x1F000), (16, 64)]
def repairBytes : List Nat := addrRun 0x1F000 4096
def repairXlat (a : Nat) : Xlat := ⟨0, page0, 0, .dram (partPlace 0 (a - 0x10000))⟩
def repairBlocks : List Nat := (placesOf (repairBytes.map repairXlat)).map mem0.blockNo
/-- A parked instance on the block, and one on another block. -/
def onBlock (b : Nat) : ParkedOp := ⟨0, 0, .inst c0 0, b, 0x1F000, 0, 0⟩
def repairing : State := { mem0 with parked := [onBlock (repairBlocks.headD 0), onBlock (repairBlocks.sum + 1)] }

/-- The 16 granules of a 4 KiB block lie apart (R169). -/
theorem block_nodup : (placesOf (repairBytes.map repairXlat)).Nodup := by
  have h1 : ∀ g < 16, ∀ y < 256, partPlace 0 (0xF000 + 256 * g + y) = partPlace 0 (0xF000 + 256 * g) + y := by
    intro g _ y hy
    have e1 : (0xF000 + 256 * g + y) / 256 = (0xF000 + 256 * g) / 256 := by omega
    have e2 : (0xF000 + 256 * g + y) % 256 = (0xF000 + 256 * g) % 256 + y := by omega
    simp only [partPlace, granulePlace, physKey, e1, e2]
    omega
  have h2 : ∀ g < 16, ∀ h < 16, g = h ∨ partPlace 0 (0xF000 + 256 * g) + 256 ≤ partPlace 0 (0xF000 + 256 * h)
      ∨ partPlace 0 (0xF000 + 256 * h) + 256 ≤ partPlace 0 (0xF000 + 256 * g) := by decide +kernel
  have e : ∀ n : Nat, 0x1F000 + n - 0x10000 = 0xF000 + 256 * (n / 256) + n % 256 := fun n => by omega
  simp only [placesOf, repairBytes, addrRun, List.map_map]
  refine List.nodup_range.map_on ?_
  intro a ha b hb h
  simp only [List.mem_range, Function.comp, repairXlat, Place.dram.injEq] at ha hb h
  rw [e a, e b, h1 _ (by omega) _ (by omega), h1 _ (by omega) _ (by omega)] at h
  rcases h2 (a / 256) (by omega) (b / 256) (by omega) with e | e | e
  · rw [e] at h; omega
  · omega
  · omega

theorem repair_block : repairing.repairBlock repairPacket = some (repairBytes.map repairXlat) := by
  have hp : mgmtPart repairPacket = 0 := by decide +kernel
  have hx : ctxAt repairPacket 24 = 0 := by decide +kernel
  have ha : addrRun (pa repairPacket 8) 4096 = repairBytes := congrArg (fun n => addrRun n 4096) (by decide +kernel : pa repairPacket 8 = 0x1F000)
  have hd : page0.dbase.toNat = 0x10000 := by decide +kernel
  have hf : repairing.frameOf 0 page0 0 = 0 := by decide +kernel
  have hs : 65536 ≤ repairing.partSize 0 := by decide +kernel
  have ht : ∀ a ∈ repairBytes, repairing.translate 0 0 a = some (repairXlat a) := by
    intro a h
    simp only [repairBytes, addrRun, List.mem_map, List.mem_range] at h
    obtain ⟨n, hn, rfl⟩ := h
    have hc : page0.covers 0 (0x1F000 + n) = true := by
      have e1 : page0.ctxMask.getLsbD 0 = true := by decide
      have e2 : page0.size.toNat * page0.page = 65536 := by decide
      simp [Region.covers, hd, e1, e2]; omega
    rw [page_translate repairing page0 _ rfl hc rfl rfl (by omega) hf hs]
    simp [repairXlat, hd]
  have h := access_map repairing 0 0 repairXlat repairBytes (fun r => r.kind ≠ .host) ht (fun _ => by rfl)
  have e : repairing.repairBlock repairPacket
      = (repairing.access (mgmtPart repairPacket) (ctxAt repairPacket 24) (addrRun (pa repairPacket 8) 4096) (fun r => r.kind ≠ .host)).toOption := rfl
  rw [hp, hx, ha] at e
  exact e.trans (congrArg Except.toOption h)

theorem test_repair_witness :
    let s := repairing
    let ts := repairBytes.map repairXlat
    let k := repairPacket
    s.mcqReady = true ∧ s.hi.st = .ready ∧ MgmtForm k 0x0F true [(8, 8), (16, 8), (24, 1)] ∧ pf k 14 2 = 0 ∧ pa k 8 % 4096 = 0
      ∧ HostField k 16 ∧ pf k 24 1 ≤ 15 ∧ (s.ctx (mgmtPart k) (ctxAt k 24)).st = .running ∧ (s.part (mgmtPart k)).st = .running
      ∧ (s.part (mgmtPart k)).pll = .running
      ∧ s.repairBlock k = some ts ∧ (placesOf ts).Nodup ∧ (∀ t ∈ ts, t.region.datum = false)
      ∧ (s.heldUp (mgmtPart k) true ts).isNone = true
      ∧ s.hostPoison (pa k 16) 4096 = false ∧ s.waits = [] ∧ (∀ o ∈ s.parked, ∃ c n, o.who = .inst c n)
      ∧ s.parked = [onBlock (repairBlocks.headD 0), onBlock (repairBlocks.sum + 1)]
      ∧ repairBlocks = (placesOf ts).map s.blockNo ∧ repairBlocks.headD 0 ∈ repairBlocks ∧ repairBlocks.sum + 1 ∉ repairBlocks := by
  refine ⟨by decide +kernel, by decide +kernel, by simp only [MgmtForm]; decide +kernel, by decide +kernel, by decide +kernel,
    by simp only [HostField]; decide +kernel, by decide +kernel, by decide +kernel, by decide +kernel,
    by decide +kernel, repair_block, block_nodup, fun t ht => ?_, reaches_of _ _ _ _ (by decide +kernel) (fun _ => rfl) rfl,
    by decide +kernel, by decide +kernel, fun o ho => ?_, rfl, rfl, ?_, fun h => ?_⟩
  · obtain ⟨_, _, rfl⟩ := List.mem_map.1 ht
    rfl
  · rcases List.mem_cons.1 ho with rfl | ho
    · exact ⟨c0, 0, rfl⟩
    · exact ⟨c0, 0, by rw [List.mem_singleton.1 ho]; rfl⟩
  · have : repairBlocks ≠ [] := fun e => by
      have := congrArg List.length e
      simp only [repairBlocks, placesOf, repairBytes, addrRun, List.length_map, List.length_range, List.length_nil] at this
      omega
    cases e : repairBlocks with
    | nil => exact absurd e this
    | cons a l => simp
  · have := List.single_le_sum (fun x _ => Nat.zero_le x) _ h
    omega

theorem test_repair_window_witness :
    repairing.parked[1]? = some (onBlock (repairBlocks.sum + 1)) ∧ (repairing.ctx 0 0).st = .running
      ∧ (repairing.part 0).expired.toNat < 65535 := ⟨rfl, by decide +kernel, by decide +kernel⟩

/-! ### Registers -/

/-- A ring of 16 slots (the management queue as it is at reset), with indices that wrap. -/
def ringing (st : DevSt) : State := { State.reset with hi := { HostIf.reset with st := st, mcqHead := 0xFFFFFFFF } }
/-- Queue 255 of context 0, in a state, and an event ring with one record not consumed. -/
def belling (c : CtxSt) (susp : Bool) : State :=
  { ready with
    parts := [(0, { Part.reset with st := .running, ctxs := [(0, { Ctx.reset with st := c, suspend := susp })] })]
    wqs := [(255, some { wq0 with head := 0xFFFFFFFF })]
    evq := [(7, { EvQ.reset with cons := 0xFFFFFFFF, irqEn := true, pend := 1 })] }

/-- The last index inside each ring and the first one outside (R372). -/
theorem test_doorbells_witness :
    (ringing .ready).hi.st ≠ .resetting ∧ ((15 : Word) - (ringing .ready).hi.mcqHead).toNat ≤ 2 ^ (ringing .ready).hi.mcqLog2n.toNat
      ∧ 2 ^ (ringing .ready).hi.mcqLog2n.toNat < ((16 : Word) - (ringing .ready).hi.mcqHead).toNat
      ∧ (ringing .resetting).hi.st = .resetting
      ∧ (∀ c ∈ [CtxSt.faulted, .waiting, .running], ∀ b ∈ [true, false], (belling c b).queue 255 = some { wq0 with head := 0xFFFFFFFF }
          ∧ (belling c b).hi.st ≠ .resetting ∧ ((belling c b).ctx 0 0).st = c ∧ ((belling c b).part 0).st = .running
          ∧ ((belling c b).ctx 0 0).suspend = b)
      ∧ ((15 : Word) - 0xFFFFFFFF).toNat ≤ 2 ^ wq0.log2n ∧ 2 ^ wq0.log2n < ((16 : Word) - 0xFFFFFFFF).toNat ∧ (15 : Word) ≠ 0xFFFFFFFF
      ∧ (let e := (belling .waiting false).eventQ 7;
          ((0 : Word) - e.cons).toNat ≤ (e.prod - e.cons).toNat ∧ (e.prod - e.cons).toNat < ((1 : Word) - e.cons).toNat
            ∧ e.irqEn = true ∧ 0 < e.pend)
      ∧ (belling .waiting false).evLate = [] ∧ ready.hi.mcqEnable = false ∧ (ready.eventQ 7).enable = false
      ∧ (0x3F : Word).getLsbD 4 = true ∧ (0x70 : Word).getLsbD 5 = true := by decide +kernel

theorem test_register_access_witness :
    ready.hi.st ≠ .starting
      ∧ plainRegister 0x1020 32 ∧ plainRegister 0x5108 1 ∧ plainRegister 0x21DC 32 ∧ plainRegister (partReg 3 0x100) 20
      ∧ plainRegister (coreReg ⟨3, 9, 8⟩ 0x8) 24 ∧ plainRegister (linkReg 47 0x5C) 5 ∧ plainRegister (stackReg 11 0x1FC) 32
      ∧ (0xFFFFFFFF : DWord).toNat < 2 ^ 32 ∧ reservedWrite (partReg 3 0x310) 0 ∧ reservedWrite (partReg 0 0x108) 9
      ∧ reservedWrite (partReg 3 0x5E8) 0 ∧ ¬ (4 = 4 ∧ (0x1022 : BitVec 28).toNat % 4 = 0) ∧ ¬ (8 = 8 ∧ (0x1024 : BitVec 28).toNat % 8 = 0) := by
  refine ⟨by decide +kernel, .inl ⟨rfl, rfl⟩, .inr (.inr (.inl ⟨rfl, rfl⟩)), .inr (.inr (.inr (.inl ⟨7, by decide, .inr rfl, rfl⟩))),
    .inr (.inr (.inr (.inr (.inl ⟨3, .inl ⟨rfl, rfl⟩⟩)))), .inr (.inr (.inr (.inr (.inr (.inl ⟨⟨3, 9, 8⟩, .inr ⟨rfl, rfl⟩⟩))))),
    .inr (.inr (.inr (.inr (.inr (.inr (.inl ⟨47, .inr ⟨15, by decide, rfl, rfl⟩⟩)))))),
    .inr (.inr (.inr (.inr (.inr (.inr (.inr ⟨11, 15, by decide, .inr rfl, rfl⟩)))))), by decide, ⟨3, .inl ⟨rfl, rfl⟩⟩,
    ⟨0, .inr (.inr (.inr (.inl ⟨rfl, .inr rfl⟩)))⟩, ⟨3, .inr (.inr (.inr (.inr ⟨15, by decide, rfl, rfl⟩)))⟩, by decide, by decide⟩

/-- Each state of a context that a `SUSPEND` write acts on; each state of a link that its enable acts on (R311, R342). -/
theorem test_register_writes_witness :
    (∀ h ∈ [[], [(0, 0)]], ((stopping h).ctx 0 0).held = h ∧ ((stopping h).ctx 0 0).st = .running ∧ ((stopping h).part 0).cur = some 0
        ∧ ((stopping h).ctx 0 1).st = .ready ∧ (stopping h).hi.st ≠ .starting)
      ∧ (let s : State := { belling .waiting true with wqs := [(255, some { wq0 with head := 0, tail := 1 })] };
          (s.ctx 0 0).st = .waiting ∧ (s.part 0).st = .running ∧ s.hasWork 0 0 = true)
      ∧ (1 : Word) ≠ 0 ∧ (1 : Word).getLsbD 0 = true ∧ (0 : Word).getLsbD 0 = false
      ∧ (ready.link 47).st = .disabled
      ∧ (let s : State := { ready with links := [(47, { Link.reset with st := .active, enable := true, retrains := 65534 })] };
          (s.link 47).st = .active ∧ (s.link 47).ops = [] ∧ (s.link 47).reqWait = [] ∧ (s.link 47).drains = []
            ∧ (s.link 47).retrains.toNat < 65535) := by decide +kernel

end Sys2Proof.Tests
end

