-- ==== Sys2Proof/Tests/WitnessWork.lean ====
section
/-! SUPPORT. Witnesses of the statements about work packets, pages and home operations. -/

namespace Sys2Proof.Tests

set_option Elab.async false

open Sys2Proof.Machine

/-! ### Memory for packets -/

/-- Bytes of the first PART page, by offset. -/
def memBytes (l : List (Nat × List Byte)) : Tbl Byte :=
  l.foldl (fun m e => (e.2.zipIdx).foldl (fun m (b : Byte × Nat) => m.set 0 (partPlace 0 (e.1 + b.2)) b.1) m) []

/-- Regions: 0, a PART page at 0x1_0000 (frame 0); 1, a cacheable PART page at 0x2_0000 (frame 1); 2, a BANK page at
0x4_0000 (frame 0). The page arrays lie at the start of the reserved area, the page-table pool 2 MiB above. -/
def array0 : Nat := mgRun.reserveBase 0
def homed0 : Region := ⟨.part, false, true, false, false, 1, 0x20000, 1, BitVec.ofNat 40 (array0 + 64), 0, 0⟩
def bank0 : Region := ⟨.bank, false, false, false, false, 1, 0x40000, 1, BitVec.ofNat 40 (array0 + 128), 0, 0⟩
def pool0 : Nat := array0 + 2 ^ 21
/-- Sequence 7: pages of 16 tokens, one group, head dimension 64, one leaf. -/
def seqOf (len : Nat) : SeqDesc := ⟨1, 4, 1, 1, 0, 1, 5, BitVec.ofNat 32 len, BitVec.ofNat 40 pool0⟩
def part1 : Part :=
  { partAs .running with
    regions := [(0, some page0), (1, some homed0), (2, some bank0)]
    poolBase := BitVec.ofNat 40 pool0, poolSize := 1, seqFirst := 7, seqCount := 1 }
/-- Queue 0 holds one packet that has not been taken. -/
def queue0 : WorkQ := { wq0 with taken := 0, tail := 1, head := 0 }
def work0 (m : List (Nat × List Byte)) (seqs : Tbl SeqDesc) : State :=
  { mg0 part1 with mem := memBytes ((array0 + 64, leBytes 4 1) :: m), wqs := [(0, some queue0)], seqs := seqs }
def seat0 : Seat := ⟨0, 0, 0⟩
/-- A verdict that takes a packet. -/
def goes : Verdict → Bool
  | .go _ _ _ => true
  | _ => false
/-- What the sequencer finds about a packet of queue 0. -/
def asked (take : State → Pkt → List (Nat × Bool) → Verdict) (s : State) (kd : PktKind) (k : Packet) : Verdict :=
  take s (newPkt 0 queue0 seat0 kd k) (workChecks kd k)

/-- A packet that the sequencer takes from queue 0 in a state, as far as its row's own conditions do not say. -/
def taken0 (s : State) (kd : PktKind) (k : Packet) : Prop := takes s 0 queue0 seat0 kd k

/-! ### Packets without cores -/

/-- Scopes CTA and SYSTEM, and a drain over a link that the queue has written over (R282, R293). -/
def written : State := { work0 [] [] with links := [(0, { Link.reset with st := .active, grants := [(0, ⟨true, 5⟩)], undrained := [(360, 0)] })] }
def linked (s : State) : State := { s with links := [(0, { Link.reset with st := .active, grants := [(0, ⟨true, 5⟩)] })] }

theorem test_packets_witness :
    (let s := work0 [] [];
      taken0 s .nop (packet 0x2D []) ∧ taken0 s .flagWait (packet 0x29 [(8, 0x20008), (24, 4)])
        ∧ s.flagOk (newPkt 0 queue0 seat0 .flagWait (packet 0x29 [(8, 0x20008), (24, 4)])) 0x20008 Region.homed = true
        ∧ taken0 s .flagSet (packet 0x28 [(8, 0x2FFF8)]) ∧ bit (pf (packet 0x28 [(8, 0x2FFF8)]) 28 1) 3 = false
        ∧ s.flagOk (newPkt 0 queue0 seat0 .flagSet (packet 0x28 [(8, 0x2FFF8)])) 0x2FFF8 Region.atomicOk = true)
    ∧ (let k := packet 0x28 [(8, 8), (16, 1), (28, 12)];
      taken0 (linked (work0 [] [])) .flagSet k ∧ bit (pf k 28 1) 3 = true ∧ peerLink (BitVec.ofNat 32 (pf k 24 4)) = some 0
        ∧ (linked (work0 [] [])).granted 0 0 0 = true
        ∧ ∀ x ∈ linksOf 0, ((linked (work0 [] [])).link x).drains = [] ∧ ((linked (work0 [] [])).link x).undrained = [])
    ∧ (∀ e ∈ [(8, work0 [] []), (12, work0 [] []), (12, written)], taken0 e.2 .fence (packet 0x2A [(8, e.1)])
        ∧ (∀ l ∈ linksOf 0, (e.2.link l).drains = []) ∧ e.2.pkts = [])
    ∧ (pf (packet 0x2A [(8, 12)]) 8 1 % 8 = 4 ∧ bit (pf (packet 0x2A [(8, 12)]) 8 1) 3 = true)
    ∧ (0 : Fin 48) ∈ linksOf 0 ∧ (360, 0) ∈ (written.link 0).undrained ∧ (∀ l ∈ linksOf 0, ((work0 [] []).link l).undrained = []) := by
  simp only [taken0, takes]; and_intros <;> decide +kernel

theorem test_run_witness :
    let s := work0 [] []
    let k := packet 0x20 [(8, 0x1FFC0), (24, 64), (34, 80)]
    taken0 s .run k ∧ quietMemory s ∧ (s.translateAll 0 0 (addrRun (pa k 8) (pf k 24 4))).isSome = true
      ∧ pf k 34 1 ≤ (({ s with cores := (List.finRange 10).map (fun c => (CoreId.key ⟨0, c, 8⟩, { Core.reset with spare := true })) } : State).freeCores 0).length
      ∧ pf k 34 1 ≤ (s.freeCores 0).length := by
  simp only [taken0, takes, quietMemory]; and_intros <;> decide +kernel

/-- Nothing holds up what a packet reads there. -/
theorem test_run_reaches (ts : List Xlat) : reaches (work0 [] []) 0 false ts :=
  reaches_of _ _ _ _ (by decide +kernel) (fun _ => rfl) rfl

/-! ### Library packets -/

/-- A descriptor: layout, format, dimensions, base, extents (the block is the tensor) and strides (R143). -/
def descOf (layout fmt ndim base : Nat) (ext str : List Nat) : List Byte :=
  leBytes 1 layout ++ leBytes 1 (fmt + 16 * ndim) ++ leBytes 2 0 ++ leBytes 6 base ++ leBytes 2 0
    ++ ext.flatMap (leBytes 4) ++ ext.flatMap (leBytes 4) ++ str.flatMap (leBytes 4) ++ leBytes 4 0
/-- An argument block (R383): one query of one head of dimension 64, over one key of dense tensors or sequence 7. -/
def attBytes (tensor bwd : Bool) : List Byte :=
  leBytes 1 (b2n tensor) ++ leBytes 1 0 ++ leBytes 1 1 ++ leBytes 1 1 ++ leBytes 2 64 ++ leBytes 2 (if tensor then 0 else 7)
    ++ leBytes 4 1 ++ leBytes 4 0 ++ leBytes 4 0 ++ leBytes 4 (b2n tensor) ++ leBytes 4 0x3F800000 ++ leBytes 4 0
    ++ leBytes 8 0x11000 ++ leBytes 8 0x12000 ++ leBytes 8 0x13000 ++ leBytes 8 0 ++ leBytes 4 0 ++ leBytes 1 1 ++ leBytes 3 0
    ++ leBytes 8 0x14000 ++ leBytes 8 0x15000 ++ leBytes 8 0
    ++ (if bwd then leBytes 8 0x16000 ++ leBytes 8 0x17000 ++ leBytes 8 0x18000 ++ leBytes 8 0x19000 else leBytes 32 0)
/-- The table of sequence 7: its directory entry, and the key and the value entry of page 0 in a state (R246 to R248). -/
def tableOf (st : Nat) : List (Nat × List Byte) :=
  [(pool0, leBytes 5 (pool0 + 4096) ++ [1]),
    (pool0 + 4096, leBytes 5 0 ++ leBytes 1 0x34 ++ leBytes 1 st ++ [0] ++ leBytes 4 1024 ++ leBytes 4 5),
    (pool0 + 4112, leBytes 5 2048 ++ leBytes 1 0x34 ++ leBytes 1 (st + 4) ++ [0] ++ leBytes 4 1024 ++ leBytes 4 5)]
/-- A receive tensor of 4 FP32 values with its shard header (R157). -/
def recvBlock : List Byte :=
  setNth (descOf 0 0 1 0x11000 [4, 1, 1, 1] [1, 0, 0, 0]) 2 1 ++ [4, 1, 1, 1].flatMap (leBytes 4) ++ leBytes 48 0

def linPkt : Packet := packet 0x21 [(8, 0x10000), (16, 0x11000), (24, 0x12000), (40, 1), (44, 1), (46, 1)]
def appPkt : Packet := packet 0x24 [(8, 0x11000), (16, 0x12000), (28, 1), (32, 7), (35, 1)]
def stepPkt : Packet := packet 0x25 [(8, 0x10000), (16, 0x10040), (24, 0x20000), (32, 1), (34, 1)]
def copyPkt : Packet := packet 0x26 [(8, 0x10000), (16, 0x10040), (24, 0x11000), (32, 0x12000)]
def gatherPkt : Packet := packet 0x26 [(8, 0x10000), (24, 0x40000), (32, 0x12000), (40, 0x10040), (48, 1)]
def collPkt : Packet := packet 0x27 [(8, 0x10000), (24, 0x10100), (32, 9), (34, 1)]
def servePkt : Packet := packet 0x2C [(8, 0x9000), (16, 0x9100), (36, 1), (40, 2048), (48, 7), (51, 1), (52, 3)]
def reqPkt : Packet := packet 0x2C [(8, 0x12000), (16, 0x11000), (36, 1), (40, 2048), (48, 7), (51, 1), (52, 3), (53, 1)]
def nopEntry : List Byte := leBytes 64 0x2D

/-- Each packet with what takes it and a state in which it starts: on cores and in the stacks where both exist. -/
def libraryRows : List (PktKind × (State → Pkt → List (Nat × Bool) → Verdict) × Packet × State) :=
  [ (.linear, takeLinear, linPkt, work0 [(0, descOf 0 1 2 0x18000 [32, 1, 1, 1] [1, 32, 0, 0])] []),
    (.linear, takeLinear, linPkt, work0 [(0, descOf 2 1 2 0x40000 [32, 1, 1, 1] [1, 1024, 0, 0])] []),
    (.attend, takeAttend, packet 0x22 [(8, 0x10000)], work0 [(0, attBytes true false)] []),
    (.attend, takeAttend, packet 0x22 [(8, 0x10000)], work0 ((0, attBytes false false) :: tableOf 1) [(7, seqOf 1)]),
    (.attendBwd, takeAttendBwd, packet 0x23 [(8, 0x10000)], work0 [(0, attBytes true true)] []),
    (.appendKv, takeAppend, appPkt, work0 (tableOf 1) [(7, seqOf 0)]),
    (.copy, takeCopy, copyPkt, work0 [(0, descOf 0 1 1 0x11000 [4, 1, 1, 1] [1, 0, 0, 0] ++ descOf 0 1 1 0x12000 [4, 1, 1, 1] [1, 0, 0, 0])] []),
    (.copy, takeCopy, gatherPkt, work0 [(0, descOf 2 1 2 0x40000 [16, 2, 1, 1] [1, 1024, 0, 0])] []),
    (.step, takeStep, stepPkt, work0 [(0, nopEntry ++ nopEntry)] []),
    (.collective, takeCollective, collPkt, linked (work0 [(0, recvBlock), (0x100, leBytes 4 (3 + 2 ^ 18 + 31 * 2 ^ 19))] [])),
    (.pageServe, takePageServe, servePkt, linked (work0 (tableOf 1) [(7, seqOf 1)])) ]

theorem starts_of (v : Verdict) (h : goes v = true) : starts v := by
  cases v with
  | go s j f => exact ⟨s, j, f, rfl⟩
  | _ => cases h

theorem test_library_witness : ∀ e ∈ libraryRows, taken0 e.2.2.2 e.1 e.2.2.1 ∧ starts (asked e.2.1 e.2.2.2 e.1 e.2.2.1) := by
  have h1 : ∀ e ∈ libraryRows, taken0 e.2.2.2 e.1 e.2.2.1 := by simp only [taken0, takes]; decide +kernel
  have h2 : ∀ e ∈ libraryRows, goes (asked e.2.1 e.2.2.2 e.1 e.2.2.1) = true := by decide +kernel
  exact fun e he => ⟨h1 e he, starts_of _ (h2 e he)⟩

/-! ### Page edits -/

/-- Each edit with a packet and a state in which it starts. -/
def editRows : List (Nat × Packet × State) :=
  let k (op : Nat) (l : List (Nat × Nat)) : Packet := packet 0x2B ([(32, 7), (34, op)] ++ l)
  let one : List (Nat × Nat) := [(28, 1), (36, 1), (37, 1)]
  [ (0, k 0 [(8, pool0), (39, 4), (40, 1), (41, 1), (42, 1)], work0 [] []),
    (1, k 1 ([(8, 0x10000), (38, 6)] ++ one), work0 [(0, leBytes 8 0x40000)] [(7, seqOf 0)]),
    (2, k 2 one, work0 (tableOf 3) [(7, seqOf 0)]), (3, k 3 one, work0 (tableOf 1) [(7, seqOf 0)]),
    (4, k 4 one, work0 (tableOf 1) [(7, seqOf 0)]),
    (5, k 5 ([(8, 0x10000), (38, 6)] ++ one), work0 ((0, leBytes 8 0x41000) :: tableOf 1) [(7, seqOf 0)]),
    (6, k 6 [(24, 1)], work0 [] [(7, seqOf 1)]), (7, k 7 [], work0 [] [(7, seqOf 1)]), (8, k 8 [], work0 [] [(7, seqOf 1)]) ]

theorem test_edits_taken : ∀ e ∈ editRows, taken0 e.2.2 (.edit e.1) e.2.1 ∧ quietMemory e.2.2 := by
  simp only [taken0, takes, quietMemory]; decide +kernel
theorem test_edits_goes : ∀ e ∈ editRows, goes (asked takeEdit e.2.2 (.edit e.1) e.2.1) = true := by decide +kernel
theorem test_edits_start : ∀ e ∈ editRows, starts (asked takeEdit e.2.2 (.edit e.1) e.2.1) :=
  fun e he => starts_of _ (test_edits_goes e he)
theorem test_edits_entries : ∀ e ∈ editRows, e.1 ∈ [2, 3, 4] → editEnts (e.2.2.seqd 7) e.2.1 = [(0, 0, 0)] := by decide +kernel

theorem some_nodup (o : Option (List Xlat))
    (h : (match o with
      | some ts => decide (placesOf ts).Nodup
      | none => false) = true) : ∃ ts, o = some ts ∧ (placesOf ts).Nodup := by
  cases o with
  | none => cases h
  | some ts => exact ⟨ts, rfl, of_decide_eq_true h⟩

def readPkt : Packet := packet 0x2B [(8, 0x1FFC0), (32, 7), (34, 9)]
def readable : State := work0 [] [(7, seqOf 1)]

theorem test_read_taken : taken0 readable (.edit 9) readPkt ∧ quietMemory readable := by
  simp only [taken0, takes, quietMemory]; decide +kernel
theorem test_read_start : starts (asked takeRead readable (.edit 9) readPkt) := starts_of _ (by decide +kernel)
theorem test_read_places : ∃ ts, readable.translateAll 0 0 (addrRun (pa readPkt 8) 64) = some ts ∧ (placesOf ts).Nodup :=
  some_nodup _ (by decide +kernel)

/-- A request into a Datum-checked region at 0x5_0000, whose stride exceeds every page's footprint. -/
def datumPkt : Packet := packet 0x2C [(8, 0x50000), (16, 0x11000), (36, 1), (40, 4194304), (48, 7), (51, 1), (52, 3), (53, 1)]
def datum0 : Region := ⟨.part, false, false, true, false, 1, 0x50000, 1, BitVec.ofNat 40 (array0 + 192), BitVec.ofNat 40 (array0 + 256), 0⟩
def datumState : State := linked { work0 [] [] with parts := [(0, { part1 with regions := part1.regions ++ [(3, some datum0)] })] }

theorem test_serve_datum_witness :
    taken0 datumState .serveReq datumPkt ∧ (∀ c ∈ serveDest datumPkt true, c.2 = false)
      ∧ (datumState.regionAt 0 0 (pa datumPkt 8)).map (fun r => r.2.datum) = some true := by
  simp only [taken0, takes]; and_intros <;> decide +kernel
theorem test_serve_datum_quiet : quietMemory datumState := ⟨rfl, rfl, rfl, rfl, rfl⟩
theorem test_serve_stride : 4096 * cdiv (farFoot datumPkt) 4096 ≤ pf datumPkt 40 4 := by
  have h : ∀ a : Fin 7, ∀ b : Fin 3,
      4096 * cdiv (serveFoot { SeqDesc.reset with pageLog2 := BitVec.ofNat 8 (4 + a.val), dcode := 1 <<< b.val } (pf datumPkt 52 1)) 4096
        ≤ pf datumPkt 40 4 := by decide +kernel
  unfold farFoot
  generalize Config.farSeq (pf datumPkt 44 4) (pf datumPkt 48 2) = shape
  exact h shape.1 shape.2

theorem test_serve_request_witness :
    taken0 (linked (work0 [] [])) .serveReq reqPkt ∧ (∀ c ∈ serveDest reqPkt false, c.2 = false)
      ∧ ((linked (work0 [] [])).regionAt 0 0 (pa reqPkt 8)).map (fun r => r.2.datum) = some false
      ∧ peerLink (BitVec.ofNat 32 (pf reqPkt 44 4)) = some 0 ∧ (linked (work0 [] [])).granted 0 0 0 = true := by
  simp only [taken0, takes]; and_intros <;> decide +kernel

end Sys2Proof.Tests
end

