-- ==== Sys2Proof/Tests/WitnessSwitch.lean ====
section
/-! SUPPORT. Witnesses of the statements about home operations, completions and context switches. -/

namespace Sys2Proof.Tests

set_option Elab.async false

open Sys2Proof.Machine

/-! ### Home operations -/

theorem reached_of (s : State) (p : Fin 4) (x : Fin 16) (a k : Nat) (w : Bool) (ok : Region → Bool)
    (h : (match s.access p x (addrRun a 8) ok with
      | .ok ts => decide (placesOf ts = dramRun k 8)
      | .error _ => false) = true) (hr : ∀ ts, reaches s p w ts) : wordReached s p x a k w ok := by
  unfold wordReached
  cases e : s.access p x (addrRun a 8) ok with
  | error b => rw [e] at h; cases h
  | ok ts => rw [e] at h; exact ⟨ts, rfl, of_decide_eq_true h, hr ts⟩

/-- The place of the last word of the cacheable page. -/
def word0 : Nat := partPlace 0 0x1FFF8

/-- A waiting instance of a DMA operation on that word, with two scalar operands. -/
def homeInst (op : Nat) (lo : Word) : Inst := running .dma ⟨0, slotWord op [], 0, 0, 0, [], [0x2FFF8], [[]], [lo, 0], [], 1, false⟩ .waiting
/-- The word holds a value. -/
def homing (op : Nat) (lo : Word) (v : Nat) : State :=
  { work0 [(0x1FFF8, leBytes 8 v)] [] with cores := [(0, { busy with runs := [homeInst op lo] })] }

theorem homing_reaches (op : Nat) (lo : Word) (v : Nat) (w : Bool) (ts : List Xlat) : reaches (homing op lo v) 0 w ts :=
  reaches_with _ _ _ _ _ rfl rfl rfl rfl

/-- `SIGNAL`; `WAIT` met and one short; `SEMTAKE` of a free and of a held semaphore; `SEMGIVE` by the owner (R293, R299, R300). -/
theorem test_home_instances_witness :
    (∀ e ∈ [(0x18, 7, 2 ^ 64 - 1), (0x19, 5, 5), (0x19, 6, 5), (0x1B, 0, 0), (0x1B, 0, 1), (0x1C, 0, 1)],
      let s := homing e.1 e.2.1 e.2.2
      let i := homeInst e.1 e.2.1
      quietMemory s ∧ (s.core c0).share = some share0 ∧ (s.core c0).inst i.id = some i ∧ i.st = .waiting ∧ s.enginesRun c0 = true
        ∧ i.op.remote = false ∧ s.draining 0 (s.instWaiter c0 i.id) = false ∧ (s.ctx 0 0).deferred = false ∧ i.op.op = e.1
        ∧ (∀ r ∈ s.homeReqs, r.agent = .inst c0 i.id) ∧ s.wordAt word0 8 = e.2.2 ∧ i.op.addr 0 i.n = 0x2FFF8)
    ∧ (homeInst 0x19 5).op.x 0 + 4294967296 * (homeInst 0x19 5).op.x 1 = 5
    ∧ bit 1 1 = false ∧ semBad 1 = false ∧ bit 1 0 = true ∧ bit 0 0 = false ∧ bits 1 13 8 = ctxNo 0 0 := by
  simp only [quietMemory]; decide +kernel
theorem test_home_reached : ∀ e ∈ [(0x18, (7 : Word), 2 ^ 64 - 1), (0x1B, 0, 0)],
    wordReached (homing e.1 e.2.1 e.2.2) 0 0 0x2FFF8 word0 true Region.atomicOk := by
  have h : ∀ e ∈ [(0x18, (7 : Word), 2 ^ 64 - 1), (0x1B, 0, 0)],
      (match (homing e.1 e.2.1 e.2.2).access 0 0 (addrRun 0x2FFF8 8) Region.atomicOk with
        | .ok ts => decide (placesOf ts = dramRun word0 8)
        | .error _ => false) = true := by decide +kernel
  exact fun e he => reached_of _ _ _ _ _ _ _ (h e he) (homing_reaches _ _ _ _)
theorem test_home_reached_wait : wordReached (homing 0x19 6 5) 0 0 0x2FFF8 word0 false Region.homed :=
  reached_of _ _ _ _ _ _ _ (by decide +kernel) (homing_reaches _ _ _ _)

/-- A packet of queue 0 that has been taken. -/
def tookPkt (kd : PktKind) (k : Packet) : Pkt := newPkt 0 queue0 seat0 kd k
def withPkt (s : State) (j : Pkt) : State := { s with pkts := [j] }

/-- An add; a flag met and one short; a `STEP` whose thick lane has ended, with the thin one (R293, R358). -/
def homePkts : List Pkt :=
  [tookPkt .flagSet (packet 0x28 [(8, 0x2FFF8), (16, 2 ^ 64 - 1)]), tookPkt .flagWait (packet 0x29 [(8, 0x2FFF8), (16, 5)]),
    tookPkt .flagWait (packet 0x29 [(8, 0x2FFF8), (16, 6)]),
    { tookPkt .step (packet 0x25 [(24, 0x2FFF8), (32, 1), (34, 1)]) with laneDone := (1, 1) }]
theorem test_home_packets_witness :
    (∀ j ∈ homePkts, let s := withPkt (work0 [(0x1FFF8, leBytes 8 5)] []) j
      quietMemory s ∧ s.pkts = [j] ∧ j.q = 0 ∧ j.i = 0 ∧ j.lane < 3 ∧ s.homeDue j = true
        ∧ (∀ r ∈ s.homeReqs, r.agent = .packet 0 j.i) ∧ s.wordAt word0 8 = 5)
    ∧ (homePkts.getLast?.map Pkt.lanesDue) = some [1, 2] := by
  simp only [quietMemory]; decide +kernel
theorem test_home_packets_reached : ∀ j ∈ homePkts, ∀ w,
    wordReached (withPkt (work0 [(0x1FFF8, leBytes 8 5)] []) j) 0 0 0x2FFF8 word0 w (if w then Region.atomicOk else Region.homed) := by
  have h : ∀ w : Bool, ∀ j ∈ homePkts, (match (withPkt (work0 [(0x1FFF8, leBytes 8 5)] []) j).access 0 0 (addrRun 0x2FFF8 8)
      (if w then Region.atomicOk else Region.homed) with
      | .ok ts => decide (placesOf ts = dramRun word0 8)
      | .error _ => false) = true := by decide +kernel
  exact fun j hj w => reached_of _ _ _ _ _ _ _ (h w j hj) (fun _ => reaches_with _ _ _ _ _ rfl rfl rfl rfl)

/-! ### Completions -/

/-- A packet of each kind at its end, and a failed one (R375). -/
def endedPkts : List Pkt :=
  [tookPkt .nop (packet 0x2D []), { tookPkt .run (packet 0x20 []) with status := .failed, sharesLeft := 1 }, tookPkt .run (packet 0x20 []),
    { tookPkt .flagSet (packet 0x28 []) with effect := true }, { tookPkt .step (packet 0x25 []) with joined := 3 },
    tookPkt .appendKv (packet 0x24 [(24, 1048575), (28, 1), (32, 7)]),
    { tookPkt (.edit 1) (packet 0x2B [(32, 7), (34, 1)]) with seq := some 7 }]

theorem finished_nop (j : Pkt) (h : j.status ≠ .ok ∨ j.kind = .nop ∨ (j.kind = .run ∧ j.sharesLeft = 0)
    ∨ (j.kind ∈ [PktKind.flagSet, .flagWait, .fence, .serveReq] ∧ j.effect = true) ∨ (j.kind = .step ∧ j.joined = 3)
    ∨ (j.kind = .appendKv ∧ j.cmdsLeft = 0) ∨ (j.kind = .edit 1 ∧ j.cmdsLeft = 0)) : finished j := by
  rcases h with h | h | h | h | h | h | h
  · exact .inl h
  · exact .inr (.inl h)
  · exact .inr (.inr (.inl h))
  · exact .inr (.inr (.inr (.inl h)))
  · exact .inr (.inr (.inr (.inr (.inl h))))
  · exact .inr (.inr (.inr (.inr (.inr ⟨.inl h.1, h.2⟩))))
  · exact .inr (.inr (.inr (.inr (.inr ⟨.inr ⟨1, h.1⟩, h.2⟩))))

theorem test_completes_witness :
    let s (j : Pkt) : State := { withPkt (work0 [] [(7, seqOf 1)]) j with wqs := [(0, some { queue0 with taken := 1, headWb := 0x2000 })] }
    (∀ j ∈ endedPkts, (s j).queue 0 = some { queue0 with taken := 1, headWb := 0x2000 } ∧ (s j).pkts = [j] ∧ j.q = 0 ∧ j.i = 0 ∧ j.part = 0
      ∧ j.ctx = 0 ∧ j.lane = 0 ∧ j.done = false ∧ j.spans = [] ∧ ((s j).ctx 0 0).st = .running ∧ ((s j).part 0).pll = .running
      ∧ (s j).evLate = [] ∧ ((s j).part 0).relFlags = [] ∧ bit (pf j.pkt 1 1) 1 = false ∧ bit (pf j.pkt 37 1) 3 = false
      ∧ lf j.args 0 8 = 0 ∧ (s j).stillStops j = false)
    ∧ (∀ j ∈ endedPkts, finished j) := by
  refine ⟨by decide +kernel, ?_⟩
  have h : ∀ j ∈ endedPkts, (j.status ≠ .ok ∨ j.kind = .nop ∨ (j.kind = .run ∧ j.sharesLeft = 0)
    ∨ (j.kind ∈ [PktKind.flagSet, .flagWait, .fence, .serveReq] ∧ j.effect = true) ∨ (j.kind = .step ∧ j.joined = 3)
    ∨ (j.kind = .appendKv ∧ j.cmdsLeft = 0) ∨ (j.kind = .edit 1 ∧ j.cmdsLeft = 0)) := by decide +kernel
  exact fun j hj => finished_nop j (h j hj)

/-! ### Context switches -/

/-- Context 0 in a state, with semaphores held, and context 1 in a state. -/
def twoCtx (c : Ctx) (other : CtxSt) (cut : Bool) : State :=
  { work0 [] [] with parts := [(0, { part1 with cut := cut, rowsPart := 4, reserve := 1, ctxs := [(0, c), (1, { Ctx.reset with st := other })] })] }

theorem test_expiries_witness :
    (∀ h ∈ [[], [(word0, 0x2FFF8)]], let s := twoCtx { Ctx.reset with st := .running, held := h } .ready false
      (s.part 0).cur = some 0 ∧ (s.ctx 0 0).st = .running ∧ (s.ctx 0 0).held = h ∧ (s.ctx 0 1).st = .ready)
    ∧ (let s := withPkt (twoCtx { Ctx.reset with st := .running } .ready false) (tookPkt .flagWait (packet 0x29 [(8, 0x2FFF8), (16, 6)]));
      (s.part 0).yieldHk ≠ 0 ∧ s.ctxHeld 0 0 = true)
    ∧ (let s := twoCtx { Ctx.reset with st := .running, deferred := true, held := [(word0, 0x2FFF8)] } .free false;
      (s.ctx 0 0).deferred = true ∧ (s.ctx 0 0).held = [(word0, 0x2FFF8)] ∧ quietMemory s) := by
  simp only [quietMemory]; decide +kernel

/-- A core to be saved: stopped between bundles, with a live segment and a live tile. -/
def savedCore : Core := { busy with spLive := 1, accLive := 8, x := [(31, 1)], tok := [(63, 255)] }
def saving1 (cut : Bool) (cores : Tbl Core) : State := { twoCtx { Ctx.reset with st := .saving } .ready cut with cores := cores, pkts := [runPkt] }

theorem test_saves_witness :
    (let s := saving1 false [(0, savedCore)];
      (s.part 0).cur = some 0 ∧ (s.ctx 0 0).st = .saving ∧ (s.part 0).cut = false ∧ (∀ d ∈ s.coresOfCtx 0 0, s.coreCut d = true)
        ∧ (∀ d ∈ coresOfPart 0, ∀ j ∈ (s.core d).stopping, j.share.ctx ≠ 0) ∧ s.unitsCut 0 = true ∧ noCommands s 0 0)
    ∧ ((saving1 true []).part 0).cut = true ∧ (saving1 true []).coresOfCtx 0 0 = [] ∧ noCommands (saving1 true []) 0 0
    ∧ (let s := saving1 true [(0, savedCore)];
      s.coresOfCtx 0 0 = [c0] ∧ (s.core c0).st = .running ∧ quietMemory s ∧ (s.core c0).spErr = [] ∧ (s.core c0).accBad = []
        ∧ (s.core c0).regBad = []) := by
  simp only [quietMemory, noCommands]; decide +kernel

/-- A `LINEAR` whose share is out. -/
def linTaken : Pkt := { tookPkt .linear linPkt with cores := [c0], sharesLeft := 1 }
def restoring : State :=
  { twoCtx { Ctx.reset with st := .restoring, saved := [⟨0, 0, savedCore⟩] } .free false with pkts := [linTaken] }

theorem test_restore_witness :
    let s := restoring
    let c := s.ctx 0 0
    let v : SavedCore := ⟨0, 0, savedCore⟩
    (s.part 0).cur = some 0 ∧ c.st = .restoring ∧ c.saved = [v] ∧ c.mail = [] ∧ c.deferred = false ∧ c.suspend = false
      ∧ (s.part 0).st = .running ∧ (s.part 0).serveQ = [] ∧ c0 ∈ coresOfPart 0 ∧ v.key = c0.key ∧ v.core.share = some share0
      ∧ share0.ctx = 0 ∧ v.core.st = .running ∧ v.core.runs = [] ∧ s.pkts = [linTaken] ∧ share0.of linTaken = true
      ∧ linTaken.kind = .linear ∧ linTaken.status = .ok ∧ s.working c0 = true ∧ s.coresOfCtx 0 0 = [] ∧ (∀ y, y ≠ 0 → (s.ctx 0 y).st = .free)
      ∧ quietMemory s := by
  simp only [quietMemory]; and_intros <;> decide +kernel

/-- A halted share of a replayable `RUN`, the last time that it may be replayed; its cluster is disabled. -/
def replayPkt : Pkt := { tookPkt .run (packet 0x20 [(8, 0x10000), (24, 64), (34, 1)]) with replayable := true, cores := [c0], sharesLeft := 1 }
def replaying : State :=
  { work0 [] [] with
    cores := [(0, { busy with st := .halted, share := some { share0 with replays := 1 } })]
    clusters := [(0, { Cluster.reset with disabled := true })]
    pkts := [replayPkt] }

theorem test_replay_witness :
    (replaying.core c0).share = some { share0 with replays := 1 } ∧ (replaying.core c0).st = .halted
      ∧ replaying.pktOfCore c0 = some replayPkt ∧ replayPkt.kind = .run ∧ replayPkt.replayable = true
      ∧ ({ share0 with replays := 1 } : Share).replays < 2 ∧ replaying.live replayPkt = true ∧ quietMemory replaying
      ∧ (replaying.translateAll 0 0 (addrRun (pa replayPkt.pkt 8) (pf replayPkt.pkt 24 4))).isSome = true
      ∧ replaying.replayCore c0 = some ⟨0, 1, 0⟩ := by
  simp only [quietMemory]; and_intros <;> decide +kernel
theorem test_replay_reaches (ts : List Xlat) : reaches replaying 0 false ts := reaches_with _ _ _ _ _ rfl rfl rfl rfl

end Sys2Proof.Tests
end

