-- ==== Sys2Proof/Tests/WitnessStack.lean ====
section
/-! SUPPORT. Witnesses of the statements about stack commands, bank units and the upkeep of stacks. -/

namespace Sys2Proof.Tests

set_option Elab.async false

open Sys2Proof.Machine

/-! ### Stack commands -/

/-- A started packet in the stacks, with a plan. -/
def inStack (kd : PktKind) (k : Packet) (plan : List Nat) (left : Nat) : Pkt :=
  { tookPkt kd k with inStacks := true, plan := plan, cmdsLeft := left }
/-- Stack 0 with a queue of commands. -/
def stacked (s : State) (q : List StackCmd) : State := { s with stks := [(0, { Stack.reset with gates := if q.isEmpty then 15 else 14, queue := q })] }
/-- A command of packet 0 of queue 0. -/
def cmdOf (m : StackKind) (g : Nat) : StackCmd := ⟨m, 0, 0, 0, 0, g, .running, 0⟩

/-- The packet of each stack command, with its group; stack 1 takes it. -/
def givenRows : List (StackKind × Pkt × Nat) :=
  [(.gemv, inStack .linear linPkt [1] 1, 0), (.attend, inStack .attend (packet 0x22 []) [1, 17] 2, 1), (.append, inStack .appendKv appPkt [1] 1, 0),
    (.requant, inStack (.edit 5) (packet 0x2B []) [1] 1, 0), (.requant, inStack .pageServe servePkt [1, 17] 2, 0),
    (.gather, inStack .copy gatherPkt [1] 1, 0), (.gather, inStack .pageServe servePkt [1, 17] 2, 0)]

theorem test_given_witness : ∀ e ∈ givenRows,
    let s := withPkt (stacked (work0 [] []) (List.replicate 63 (cmdOf .gemv 0))) e.2.1
    (e.1 = .attend ∨ e.2.2 = 0) ∧ s.pkts = [e.2.1] ∧ e.2.1.q = 0 ∧ e.2.1.i = 0 ∧ e.2.1.lane < 3 ∧ kindIssues e.1 e.2.1.kind = true
      ∧ s.live e.2.1 = true ∧ e.2.1.inStacks = true ∧ planKey e.1 e.2.1 1 e.2.2 ∈ e.2.1.plan ∧ ownerOfStack 1 = e.2.1.part
      ∧ (s.stack 1).queue.length < 64 ∧ (s.stack 0).queue.length < 64
      ∧ (s.stack 1).gates = 15 ∧ (s.stack 0).gates ≠ 15
      ∧ (stacked (work0 [] []) []).stack 1 = Stack.reset
      ∧ (let k : Stack := { Stack.reset with gates := 14 }; k.gates ≠ 15 ∧ k.queue = []) := by decide +kernel

/-- A `COPY` that gathers row 1 of a table, and an `ATTEND` with a second command of the group under way. -/
def gathering : Pkt := { inStack .copy gatherPkt [] 1 with args := descOf 2 1 2 0x40000 [16, 2, 1, 1] [1, 1024, 0, 0] ++ leBytes 4 1 }
def gatherState : State := stacked (withPkt (work0 [] []) gathering) [cmdOf .gather 0]
def attending : Pkt := inStack .attend (packet 0x22 []) [2] 2

theorem test_command_ends_witness :
    (∀ e ∈ [(gatherState, cmdOf .gather 0, gathering), (stacked (withPkt (work0 [] []) attending) [cmdOf .attend 0], cmdOf .attend 0, attending)],
      (e.1.stack 0).queue[0]? = some e.2.1 ∧ e.1.pkts = [e.2.2] ∧ e.2.1.of e.2.2 = true ∧ e.2.1.st = .running ∧ (e.1.stack 0).gates ≠ 15
        ∧ (∀ o ∈ (e.1.stack 0).queue.take 0, o.of e.2.2 = false) ∧ e.2.1.done = 0
        ∧ e.1.live e.2.2 = true ∧ e.1.hk.flips = [])
    ∧ (stacked (withPkt (work0 [] []) attending) [cmdOf .attend 0]).groupOpen attending (cmdOf .attend 0) = true := by
  decide +kernel

theorem ok_of {α : Type} (e : Except α (List Xlat)) (p : List Place → Bool)
    (h : (match e with
      | .ok ts => p (placesOf ts)
      | .error _ => false) = true) : ∃ ts, e = .ok ts ∧ p (placesOf ts) = true := by
  cases e with
  | error b => cases h
  | ok ts => exact ⟨ts, rfl, h⟩

theorem gather_plls : ∀ q, (gatherState.part q).pll = .running := by
  have e : gatherState.parts = (work0 [] []).parts := rfl
  intro q
  rw [State.part, e]
  exact (by decide +kernel : ∀ q : Fin 4, ((work0 [] []).parts.get Part.reset q.val).pll = .running) q

theorem test_gather_witness :
    quietMemory gatherState ∧ (gatherState.gatherPairs gathering 0).length = 32
    ∧ (∃ ts, gatherState.access 0 0 ((gatherState.gatherPairs gathering 0).map Prod.snd) (fun r => r.kind = .bank) = .ok ts
        ∧ decide ((placesOf ts).length = 32) = true)
    ∧ (∃ ts, gatherState.access 0 0 ((gatherState.gatherPairs gathering 0).map Prod.fst) (Region.writable false) = .ok ts
        ∧ decide (placesOf ts).Nodup = true)
    ∧ ∀ tw, reaches gatherState 0 true tw :=
  ⟨by simp only [quietMemory]; decide +kernel, by decide +kernel, ok_of _ (fun l => decide (l.length = 32)) (by decide +kernel), ok_of _ (fun l => decide l.Nodup) (by decide +kernel),
    fun tw => reaches_of _ _ _ _ gather_plls (fun u => by
      simp only [State.unit, gatherState, stacked, State.stack, Tbl.get_cons]
      split <;> rfl) rfl⟩

/-! ### Bank units -/

/-- A bank unit of stack 0, alone in a wave, with its stack, in a device in reset. -/
def withUnit (k : Stack) (u : UnitId) (x : BankUnit) : State :=
  ({ State.reset with stks := [(0, { k with waves := [⟨u.d, [u.u], false, k.slotMode, 0, 0, false⟩] })] } : State).setUnit u x
/-- A unit whose next step is the one given. -/
def about (t : Step) (inRun : Bool) : BankUnit :=
  { BankUnit.reset with gate := false, program := [(0, some { t with runBegin := !inRun })], inRun := inRun, st := if inRun then .hold else .idle }

/-- Steps that begin a run, and that go on with one; the last column of a row; a spare unit. -/
theorem test_step_starts_witness :
    (∀ t ∈ [readTwo, copyTwo, writeTwo], ∀ r ∈ [false, true], stepStarts (withUnit Stack.reset u0 (about t r)) u0 0 { t with runBegin := !r })
    ∧ (let k : Stack := { Stack.reset with spares := [(3, ⟨true, false, 63⟩)] };
      stepStarts (withUnit k ⟨0, 0, 67⟩ (about copyTwo false)) ⟨0, 0, 67⟩ 63 copyTwo)
    ∧ readTwo.outer = false ∧ copyTwo.count = 2 ∧ writeTwo.count ≤ 16 ∧ writeCost writeTwo ≤ 64
    ∧ (∀ k < writeTwo.count, writeTwo.bytes.getD k 0 = 0xFFFFFFFF#32)
    ∧ (let t : Step := { writeTwo with count := 16, first := 48, slots := List.replicate 16 0, bytes := List.replicate 16 0xFFFFFFFF };
      stepStarts (withUnit Stack.reset u0 (about t false)) u0 0 { t with runBegin := true } ∧ ∀ k < 16, t.bytes.getD k 0 = 0xFFFFFFFF#32) := by
  simp only [stepStarts]; decide +kernel

/-- A beat of each kind, at the last unit of a die; flits of a unit, results and a report of a corrected word. -/
theorem test_beats_and_flits_witness :
    (∀ w ∈ [0, 1, 2], ∀ r ∈ [false, true], let x := about readTwo r
      let b : Beat := { someBeat with what := w, dest := some 67 }
      let s := withUnit Stack.reset ⟨0, 15, 67⟩ x
      b.dest = some 67 ∧ (s.unit ⟨0, 15, 67⟩).out = false ∧ State.reset.hk.flips = []
        ∧ x.cur = none ∧ x.inRun = r ∧ (∀ m, (s.unit ⟨0, 15, m⟩).ahead = none) ∧ joins s ⟨0, 15, 67⟩ b)
    ∧ (∀ f ∈ [(⟨0, 0, false, 0, 5⟩ : Flit), reportFlit u0 1 5 63 7 1 0], ∀ n ∈ [1, 2],
      let s := withUnit Stack.reset u0 { about readTwo true with outQ := [f, f], emitted := n }
      f.unit = 0 ∧ (s.unit u0).outQ = f :: [f] ∧ (f.kind = 3 → f.payload.toNat / 2 ^ 124 = 1) ∧ (s.stack 0).ledger = []
        ∧ (s.unit u0).emitted = n) := by
  simp only [joins]; decide +kernel

/-- A step that does not end its run, with the next one of its program. -/
theorem test_goes_on_witness :
    let t : Step := { copyTwo with runEnd := false }
    let x : BankUnit := { about t false with program := [(0, some t), (1, some { copyTwo with runBegin := false })] }
    stepStarts (withUnit Stack.reset u0 x) u0 0 t ∧ t.runEnd = false ∧ (x.program.get none (x.pc + 1).toNat).isSome = true := by
  simp only [stepStarts]; decide +kernel

/-! ### Upkeep -/

theorem test_upkeep_witness :
    (let s := withUnit Stack.reset u0 (about readTwo true); (s.unit u0).inRun = true ∧ (s.unit u0).out = false)
    ∧ (let k : Stack := { Stack.reset with spares := [(63, ⟨true, false, 63⟩)], migrating := [(1023, true)] };
      (k.spares.get SparePair.reset (4 * 15 + 3)).inUse = true ∧ k.migrating.get false (64 * 15 + 63) = true ∧ State.reset.memErr = [])
    ∧ (let k : Stack := { Stack.reset with ledger := [(31, some ⟨0, 0, 0, 5, 63, 7, 1⟩)] };
      ((withUnit k u0 BankUnit.reset).unit u0).begun = false ∧ ((withUnit k u0 BankUnit.reset).stack 0).ledger = k.ledger)
    ∧ (let s := withUnit Stack.reset u0 { about readTwo true with st := .step, cur := some readTwo };
      let a := withUnit Stack.reset u0 { about readTwo true with cur := some { readTwo with bank := 1 }, ahead := some readTwo };
      s.servedBy ⟨0, 0, 0, 0, 0⟩ = u0 ∧ (s.unit u0).cur = some readTwo ∧ readTwo.bank.val = 0 ∧ (s.stack 0).owed 0 < 8
        ∧ a.servedBy ⟨0, 0, 0, 0, 0⟩ = u0 ∧ (a.unit u0).ahead = some readTwo
        ∧ 8 ≤ ({ Stack.reset with postponed := (List.range 8).map (fun b => (b, 1)) } : Stack).owed 0)
    ∧ (∀ n : Fin 68, (State.reset.unit ⟨0, 0, n⟩).cur = none ∧ (State.reset.unit ⟨0, 0, n⟩).ahead = none)
    ∧ (let r : RowId := ⟨0, 15, 63, 1, 16383⟩
      let s : State := { State.reset with memErr := [(physKey 0 15 63 1 16383 0 / 4 + 511, 3)], stks := [(0, { Stack.reset with remaps := [⟨r, 0, false⟩] })] };
      (s.stack 0).scrubEn = true ∧ (∀ n, (s.unit ⟨0, 15, n⟩).inRun ≠ true) ∧ r.key ∉ (s.stack 0).visited ∧ (s.stack 0).visited.length + 1 < rowsOfStack
        ∧ s.bankOpen (physKey 0 15 63 1 16383 0) = false ∧ s.hk.mtBusy = false
        ∧ (∃ m ∈ (s.stack 0).remaps, m.row = r ∧ m.done = false)) := by
  decide +kernel

end Sys2Proof.Tests
end

