-- ==== Sys2Proof/Tests/WitnessLink.lean ====
section
/-! SUPPORT. Witnesses of the statements about the host and the links. -/

namespace Sys2Proof.Tests

set_option Elab.async false

open Sys2Proof.Machine

/-! ### The host -/

/-- READY, with 4 slices of PART memory in partition 0, 1 GiB of it reserved, a page-table pool there, 4 slices of DEV memory. -/
def attached : State := { mg0 part1 with hi := { HostIf.reset with st := .ready } }
/-- Size of DEV memory, and so the BAR2 offset of partition 0 (R367). -/
def devSize : Nat := 4 * 48 * 2 ^ 30

theorem attached_served : hostServed attached :=
  ⟨by decide +kernel, by decide +kernel, by decide +kernel, fun _ => ⟨rfl, rfl⟩, by decide +kernel, by decide +kernel⟩

/-- DEV memory, PART memory, the page-table pool, BANK memory, and the top of BAR2, which nothing backs. -/
theorem test_host_reads_witness :
    hostServed attached
    ∧ (∀ e ∈ [(0, true), (devSize - 1, true), (devSize, true), (devSize + pool0, true), (devSize + attached.partSize 0, false)],
        e.1 + 1 ≤ 2 ^ 40 ∧ (attached.hostPlace e.1).map Prod.snd = some e.2)
    ∧ (attached.hostPlace (2 ^ 40 - 1)).isNone = true
    ∧ (∀ st ∈ [DevSt.starting, .resetting], let s : State := { attached with hi := { attached.hi with st := st } };
        s.hi.st = .starting ∨ s.hi.st = .resetting) := by
  refine ⟨attached_served, ?_⟩
  decide +kernel

theorem places_apart (a b : Option (Nat × Bool)) (h : a.map Prod.fst ≠ b.map Prod.fst) (k : Nat) (x y : Bool)
    (e : a = some (k, x)) : b ≠ some (k, y) := by
  intro f; subst e; subst f; exact h rfl

theorem test_host_writes_witness : ∀ off ∈ [0, devSize, devSize + pool0, devSize + attached.partSize 0, 2 ^ 40 - 2],
    hostServed attached ∧ attached.hk.flips = [] ∧ attached.waits = [] ∧ off + 2 ≤ 2 ^ 40 ∧ (∀ j < 2, attached.reservedAt (off + j) = false) := by
  have h : ∀ off ∈ [0, devSize, devSize + pool0, devSize + attached.partSize 0, 2 ^ 40 - 2],
      attached.hk.flips = [] ∧ attached.waits = [] ∧ off + 2 ≤ 2 ^ 40 ∧ (∀ j < 2, attached.reservedAt (off + j) = false) := by decide +kernel
  exact fun off ho => ⟨attached_served, h off ho⟩
theorem test_host_writes_apart : ∀ i < 2, ∀ j < 2, i ≠ j → ∀ k b c, attached.hostPlace (devSize + i) = some (k, b) →
    attached.hostPlace (devSize + j) ≠ some (k, c) := by
  have h : ∀ i < 2, ∀ j < 2, i ≠ j →
      (attached.hostPlace (devSize + i)).map Prod.fst ≠ (attached.hostPlace (devSize + j)).map Prod.fst := by decide +kernel
  exact fun i hi j hj ne k b c => places_apart _ _ (h i hi j hj ne) k b c

/-- The first and the last byte of the reserved area, and the bytes beside the pool. -/
theorem test_reserved_witness : ∀ x ∈ [attached.reserveBase 0, pool0 - 1, pool0 + 2 ^ 21, attached.partSize 0 - 1],
    devSize + x + 1 ≤ 2 ^ 40 ∧ attached.hi.st = .ready ∧ attached.reservedAt (devSize + x + 0) = true := by decide +kernel

theorem test_host_rest_witness :
    (let s : State := { attached with cxlOut := [.write 0x1000 [1, 2], .irq 8] };
      s.cxlOut = .write 0x1000 [1, 2] :: [.irq 8])
    ∧ (let s : State := { attached with cxlOut := [.irq 8], msix := [(8, ⟨0, 0, false⟩)] };
      s.cxlOut = .irq 8 :: [] ∧ (s.msix.get ⟨0, 0, true⟩ 8).masked = false)
    ∧ (let s : State := { attached with backInv := [5], hostDir := [(5, 2)] };
      s.backInv.contains 5 = true ∧ s.hi.waiting = [] ∧ s.hostDir.get 0 5 = 2 ∧ s.hk.flips = [] ∧ s.waits = [] ∧ (leBytes 128 (7 ^ 300)).length = 128) := by
  decide +kernel

/-! ### Requests of peers -/

/-- A message as a peer builds it, from context 0's view. -/
def peerMsg (type flags len addr op fmt value : Nat) (data : List Byte) : Msg :=
  State.reset.mkMsg { MsgSpec.zero with type := type, flags := flags, len := len, addr := addr, op := op, fmt := fmt, value := value, data := data }
/-- Link 0 is ACTIVE, and context 0 may use it. -/
def peered : State := linked (work0 [] [(7, seqOf 1)])
theorem peered_reaches (w : Bool) (ts : List Xlat) : reaches peered 0 w ts := reaches_with _ _ _ _ _ rfl rfl rfl rfl
def data32 : List Byte := leBytes 32 (7 ^ 90)
/-- Fields of a page-serve request (R334). -/
def psData : List Byte := leBytes 2 7 ++ [0, 1] ++ leBytes 8 0 ++ [3, 0, 0, 0] ++ leBytes 48 0

def rdMsg : Msg := peerMsg 1 0 1 0x1FFE0 0 0 0 []
def wrMsg0 : Msg := peerMsg 3 0 1 0x1FFE0 0 0 0 data32
/-- FP32 and INT32 sums, a BF16 maximum, at the end of the cacheable page. -/
def redMsgs : List Msg := [peerMsg 4 0 1 0x2FFE0 0 0 0 data32, peerMsg 4 0 1 0x2FFE0 (4 * 12) 12 0 data32, peerMsg 4 0 1 0x2FFE0 (4 + 1) 1 0 data32]
def flagMsg : Msg := peerMsg 5 0 0 0x2FFF8 0 0 (2 ^ 64 - 1) []
def psMsg : Msg := peerMsg 6 0 2 0 0 0 0 psData
def drainMsg0 : Msg := peerMsg 0x0A 0 0 0 0 0 0 []

theorem test_requests_witness :
    quietMemory peered
    ∧ (∀ e ∈ [(rdMsg, 1), (wrMsg0, 3), (flagMsg, 5)] ++ redMsgs.map (fun m => (m, 4)),
        arrives peered 0 e.1 e.2 ∧ (peered.link 0).landed = [] ∧ peered.readParked 0 e.1 = false ∧ peered.denies 0 e.1 = 0 ∧ e.1.rdatum = false ∧ e.1.poison = false ∧ e.1.coded = false ∧ mdatBad e.1 = false)
    ∧ arrives peered 0 drainMsg0 0x0A ∧ (peered.link 0).chunk = [] ∧ flagMsg.addr % 8 = 0
    ∧ (arrives { peered with links := [(0, { peered.link 0 with grants := [] })] } 0 wrMsg0 3
        ∧ State.denies { peered with links := [(0, { peered.link 0 with grants := [] })] } 0 wrMsg0 = 1) := by
  simp only [quietMemory, arrives]; and_intros <;> decide +kernel

theorem test_requests_reach :
    (∃ ts, peered.reach 0 rdMsg (addrRun rdMsg.addr (32 * rdMsg.len)) (fun r => !r.datum || blockMsg rdMsg) = .ok ts ∧ decide ((placesOf ts).length = 32) = true)
    ∧ (∃ ts, peered.reach 0 wrMsg0 (addrRun wrMsg0.addr (32 * wrMsg0.len)) (Region.writable false) = .ok ts ∧ decide (placesOf ts).Nodup = true) :=
  ⟨ok_of _ (fun l => decide (l.length = 32)) (by decide +kernel), ok_of _ (fun l => decide l.Nodup) (by decide +kernel)⟩

theorem mem_of_get {α : Type} (t : Tbl (Option α)) (n : Nat) (r : α) (h : t.get none n = some r) : (n, some r) ∈ t := by
  induction t with
  | nil => cases h
  | cons e t ih =>
    obtain ⟨k, v⟩ := e
    rw [Tbl.get_cons] at h
    split at h
    · rename_i e; subst e; subst h; exact .head _
    · exact .tail _ (ih h)

theorem test_reduce_reach : ∀ m ∈ redMsgs, ∃ ts, peered.reach 0 m (addrRun m.addr (32 * m.len)) Region.atomicOk = .ok ts
    ∧ (placesOf ts).Nodup ∧ tablesApart peered 0 ts := by
  intro m hm
  have h : ∀ m ∈ redMsgs, (match peered.reach 0 m (addrRun m.addr (32 * m.len)) Region.atomicOk with
      | .ok ts => decide ((placesOf ts).Nodup ∧ ∀ e ∈ (peered.part 0).regions, ∀ r ∈ e.2, ∀ o < 4 * r.size.toNat,
          Place.dram (partPlace 0 (r.parray.toNat + o)) ∉ placesOf ts)
      | .error _ => false) = true := by decide +kernel
  have h := h m hm
  cases e : peered.reach 0 m (addrRun m.addr (32 * m.len)) Region.atomicOk with
  | error b => rw [e] at h; cases h
  | ok ts =>
    rw [e] at h
    have hp := of_decide_eq_true h
    exact ⟨ts, rfl, hp.1, fun n r hr o ho => hp.2 _ (mem_of_get _ n r hr) r rfl o ho⟩

theorem test_flag_reach : wordReached peered 0 flagMsg.dctx flagMsg.addr word0 true Region.atomicOk :=
  reached_of _ _ _ _ _ _ _ (by decide +kernel) (fun _ => peered_reaches _ _)

/-- A partition that runs no context: its context 0 is READY. -/
def idlePeered : State := { peered with parts := [(0, { part1 with cur := none, ctxs := [(0, ctxAs .ready)] })] }
theorem test_serve_witness :
    quietMemory idlePeered ∧ arrives idlePeered 0 psMsg 6 ∧ (idlePeered.link 0).landed = [] ∧ idlePeered.readParked 0 psMsg = false
      ∧ idlePeered.denies 0 psMsg = 0 ∧ psMsg.rdatum = false ∧ psMsg.poison = false
      ∧ psMsg.coded = false ∧ mdatBad psMsg = false ∧ idlePeered.seqDenied 0 psMsg.dctx (lf psMsg.data 0 2) = false
      ∧ (idlePeered.part 0).serveQ.length < 64 ∧ (idlePeered.part 0).cur = none := by
  simp only [quietMemory, arrives]; and_intros <;> decide +kernel

/-! ### Replies of peers -/

/-- A collective that awaits a shard and the `END` of one or of two peers. -/
def collTaken : Pkt := { tookPkt .collective collPkt with args := recvBlock ++ leBytes 4 (3 + 2 ^ 18 + 31 * 2 ^ 19), joined := 3 }
def collOf (ends : List (Nat × Nat)) : Coll := ⟨0, 0, 9, 0, 0, [], ends⟩
def collecting (ends : List (Nat × Nat)) : State := { withPkt peered collTaken with colls := [collOf ends] }
/-- Elements 2 and 3 of the tensor. -/
def shardMsg : Msg := peerMsg 7 0x21 2 0 0 0 9 ([2, 0, 0, 0, 2, 1, 1, 1].flatMap (leBytes 4) ++ data32)
def endMsg : Msg := peerMsg 8 0 0 0 0 0 9 []

theorem test_shard_witness :
    arrives (collecting []) 0 shardMsg 7 ∧ quietMemory (collecting []) ∧ (collecting []).shardReason 0 shardMsg = .ok collTaken
      ∧ ((collecting []).link 0).landed = [] ∧ mdatBad shardMsg = false ∧ shardMsg.coded = false ∧ shardMsg.poison = false ∧ bit (pf collTaken.pkt 37 1) 0 = false := by
  simp only [quietMemory, arrives]; and_intros <;> decide +kernel
theorem test_shard_places :
    let s := collecting []
    let w := (shardDesc collTaken.recvBytes).w
    let us := shardUpdates collTaken.recvBytes (shardMsg.data.take 32) (fun n => bitsAt (shardMsg.data.drop 32) (n * w) w)
    let tbl : Tbl Byte := us.foldl (fun t u => putBits (s.devBytes collTaken) t u.1 w u.2) []
    us.length = 2 ∧ (∃ ts, s.reach 0 shardMsg ((us.flatMap (fun u => bitBytes u.1 w)).dedup) (Region.writable false) = .ok ts
      ∧ decide ((placesOf ts).length = 8) = true)
    ∧ ∃ tw, s.translateAll (ownerOfLink 0) shardMsg.dctx (tbl.map Prod.fst) = some tw ∧ (placesOf tw).Nodup :=
  ⟨by decide +kernel, ok_of _ (fun l => decide (l.length = 8)) (by decide +kernel), some_nodup _ (by decide +kernel)⟩

theorem test_shard_reaches (ts : List Xlat) : reaches (collecting []) 0 true ts := reaches_with _ _ _ _ _ rfl rfl rfl rfl

theorem test_end_witness : ∀ e ∈ [[(0, 0)], [(0, 0), (3, 1)]],
    let s := collecting e
    arrives s 0 endMsg 8 ∧ s.denies 0 endMsg = 0 ∧ s.colls = [collOf e] ∧ s.pkts = [collTaken]
      ∧ s.collAt 0 endMsg.dctx (endMsg.value % 65536) = some (collOf e) ∧ s.collPkt (collOf e) = some collTaken ∧ collTaken.status = .ok
      ∧ collTaken.parked = false ∧ collTaken.done = false ∧ collTaken.joined = 3 ∧ (s.ctx 0 0).st = .running
      ∧ s.awaiting 0 collTaken.waiter = false ∧ (s.ctx 0 endMsg.dctx).st = .running ∧ (∀ x ∈ linksOf 0, (s.link x).landed = []) := by
  simp only [arrives]; decide +kernel

/-- The same while its context is SAVING. -/
theorem test_end_out_witness :
    let s : State := { collecting [(0, 0)] with parts := [(0, { part1 with ctxs := [(0, ctxAs .saving)] })] }
    arrives s 0 endMsg 8 ∧ s.denies 0 endMsg = 0 ∧ s.collAt 0 endMsg.dctx (endMsg.value % 65536) = some (collOf [(0, 0)])
      ∧ (s.ctx 0 endMsg.dctx).st ≠ .running := by
  simp only [arrives]; decide +kernel

/-- A remote `FLAG_SET`, an instance that reads, and their requests. -/
def remoteSet : Pkt := tookPkt .flagSet (packet 0x28 [(8, 8), (16, 1), (28, 12)])
def setOp : RemoteOp := ⟨3, remoteSet.waiter, peerMsg 5 0 0 8 0 0 1 [], false⟩
def readInst : Inst := homeInst 0x01 0
def readOp : RemoteOp := ⟨3, ⟨.inst c0 0, 0, 0, 0, 0⟩, peerMsg 1 0 1 0x100 0 0 0 [], false⟩
def asking (o : RemoteOp) (st : CtxSt) : State :=
  { withPkt (work0 [] []) remoteSet with
    links := [(0, { Link.reset with st := .active, grants := [(0, ⟨true, 5⟩)], ops := [o], rspRes := 32 * o.msg.replyUnits })]
    parts := [(0, { part1 with ctxs := [(0, ctxAs st)] })]
    cores := [(0, { busy with runs := [readInst] })] }
def tagged (m : Msg) : Msg := retag m 3
def ackOf (reason : Nat) : Msg := tagged (peerMsg 9 0 0 0 reason 0 0 [])
def rspMsg : Msg := tagged (peerMsg 2 0 1 0 0 0 0 data32)

theorem test_acks_witness :
    (∀ r ∈ [0, 1, 5, 6, 7], let s := asking setOp .running
      (s.link 0).ops = [setOp] ∧ setOp.tag.toNat = (ackOf r).tag ∧ (s.link 0).reqWait = [] ∧ arrives s 0 (ackOf r) 9 ∧ s.pkts = [remoteSet]
        ∧ remoteSet.kind = .flagSet ∧ remoteSet.q < 256 ∧ remoteSet.lane < 3 ∧ setOp.who = remoteSet.waiter ∧ (s.ctx 0 0).st = .running
        ∧ (ackOf r).op = r)
    ∧ ({ setOp with resend := true } : RemoteOp).resend = true
    ∧ (let s := asking setOp .saving; arrives s 0 (ackOf 0) 9 ∧ setOp.who.lane ≠ 3 ∧ (s.ctx setOp.who.part setOp.who.ctx).st ≠ .running)
    ∧ (let s := asking readOp .running;
      (s.link 0).ops = [readOp] ∧ readOp.tag.toNat = rspMsg.tag ∧ arrives s 0 rspMsg 2 ∧ rspMsg.op = 0 ∧ mdatBad rspMsg = false
        ∧ rspMsg.poison = false ∧ (s.core c0).inst readInst.id = some readInst ∧ readInst.buf = [] ∧ readOp.who = s.instWaiter c0 readInst.id
        ∧ (s.ctx 0 readOp.who.ctx).st = .running) := by
  simp only [arrives]; and_intros <;> decide +kernel

/-- A `FENCE` of scope SYSTEM whose marker is out over link 0. -/
def fencing : Pkt := tookPkt .fence (packet 0x2A [(8, 12)])
def drainingState : State :=
  { withPkt (work0 [] []) fencing with links := [(0, { Link.reset with st := .active, grants := [(0, ⟨true, 5⟩)], drains := [fencing.waiter] })] }
def retMsg : Msg := peerMsg 0x0B 0 0 0 0 0 0 []
theorem test_drain_witness :
    arrives drainingState 0 retMsg 0x0B ∧ drainingState.pkts = [fencing] ∧ fencing.kind = .fence ∧ fencing.q < 256 ∧ fencing.lane < 3
      ∧ (drainingState.link 0).drains = fencing.waiter :: [] ∧ (∀ x ∈ linksOf 0, x ≠ 0 → fencing.waiter ∉ (drainingState.link x).drains)
      ∧ (drainingState.ctx 0 0).st = .running := by
  simp only [arrives]; and_intros <;> decide +kernel

/-! ### Frames and training -/

/-- The first 28 bytes of the header of a frame of a kind and a number, with credit; then such a frame, whose CRC is right. -/
def frameLow (kind seq : Nat) : Nat :=
  leNat (leBytes 2 (seq + 4096 * kind) ++ leBytes 2 0 ++ [600, 5000, 5000, 3].flatMap (leBytes 2) ++ leBytes 16 0)
def frameOf (kind seq : Nat) (body : List Byte) : Frame :=
  ⟨BitVec.ofNat 256 (frameLow kind seq + 2 ^ 224 * (crc32c (leBytes 28 (frameLow kind seq) ++ body)).toNat), body, false⟩
theorem low_fields (h c : Nat) (hh : h < 2 ^ 224) (hc : c < 2 ^ 32) :
    (h + 2 ^ 224 * c) % 2 ^ 256 / 2 ^ (8 * 0) % 2 ^ (8 * 2) = h % 65536
    ∧ (h + 2 ^ 224 * c) % 2 ^ 256 / 2 ^ (8 * 2) % 2 ^ (8 * 2) = h / 65536 % 65536
    ∧ (h + 2 ^ 224 * c) % 2 ^ 256 / 2 ^ (8 * 12) % 2 ^ (8 * 2) = h / 2 ^ 96 % 65536
    ∧ (h + 2 ^ 224 * c) % 2 ^ 256 / 2 ^ (8 * 14) % 2 ^ (8 * 14) = h / 2 ^ 112
    ∧ (h + 2 ^ 224 * c) % 2 ^ 256 / 2 ^ (8 * 0) % 2 ^ (8 * 28) = h
    ∧ (h + 2 ^ 224 * c) % 2 ^ 256 / 2 ^ (8 * 28) % 2 ^ (8 * 4) = c := by
  norm_num at *; omega
theorem frame_good (kind seq : Nat) (body : List Byte) (hb : body.length = 608) (hh : frameLow kind seq < 2 ^ 112)
    (h0 : frameLow kind seq % 65536 = seq + 4096 * kind) (hs : seq < 4096) (h2 : frameLow kind seq / 65536 % 65536 = 0)
    (h12 : frameLow kind seq / 2 ^ 96 = 0) :
    frameBad (frameOf kind seq body) kind = false ∧ fhdr (frameOf kind seq body) 0 2 % 4096 = seq
      ∧ bit (fhdr (frameOf kind seq body) 2 2) 12 = false ∧ fhdr (frameOf kind seq body) 12 2 = 0 := by
  have hl := low_fields (frameLow kind seq) (crc32c (leBytes 28 (frameLow kind seq) ++ body)).toNat (by omega) (BitVec.isLt _)
  have e : ∀ o w, fhdr (frameOf kind seq body) o w
      = (frameLow kind seq + 2 ^ 224 * (crc32c (leBytes 28 (frameLow kind seq) ++ body)).toNat) % 2 ^ 256 / 2 ^ (8 * o) % 2 ^ (8 * w) := by
    intro o w; unfold fhdr frameOf; rw [BitVec.toNat_ofNat]
  obtain ⟨e0, e2, e12, e14, e28, ec⟩ := hl
  rw [← e] at e0 e2 e12 e14 e28 ec
  have hz : frameLow kind seq / 2 ^ 112 = 0 := by omega
  have hq : (seq + 4096 * kind) / 4096 = kind := by omega
  have hm : (seq + 4096 * kind) % 4096 = seq := by omega
  refine ⟨?_, by rw [e0, h0]; exact hm, by rw [e2, h2]; rfl, by rw [e12, h12]⟩
  unfold frameBad
  rw [e0, e2, e12, e14, e28, ec, h0, h2, h12, hz, hq]
  simp [frameOf, hb]

/-- A body that holds two messages. -/
def twoMsgs : List Byte := padTo 608 (leBytes 32 rdMsg.hdr.toNat ++ leBytes 32 wrMsg0.hdr.toNat ++ data32)
def linkAs (st : LinkSt) : Link := { Link.reset with st := st, enable := true }
def withLink (k : Link) : State := { ready with links := [(0, k)] }

theorem test_frames_witness :
    let s := withLink { linkAs .active with rxSeq := 4095 }
    (s.link 0).st = .active ∧ (s.link 0).rxSeq.toNat = 4095 ∧ (s.link 0).txQ = [] ∧ (s.link 0).rxPart = []
    ∧ frameBad { frameOf 0 4095 twoMsgs with uncorrectable := true } 0 = true
    ∧ frameBad { frameOf 1 0 (leBytes 608 0) with uncorrectable := true } 1 = true := by
  and_intros <;> decide +kernel
theorem test_good_data_frame : frameBad (frameOf 0 4095 twoMsgs) 0 = false ∧ fhdr (frameOf 0 4095 twoMsgs) 0 2 % 4096 = 4095
    ∧ bit (fhdr (frameOf 0 4095 twoMsgs) 2 2) 12 = false ∧ fhdr (frameOf 0 4095 twoMsgs) 12 2 = 0 := frame_good 0 4095 twoMsgs
  (by decide +kernel) (by decide +kernel) (by decide +kernel) (by decide) (by decide +kernel) (by decide +kernel)
theorem test_frame_messages : ∀ m ∈ (cutMsgs ((twoMsgs.drop (32 * 0)).length / 32 + 1) (twoMsgs.drop (32 * 0))).1, m.known = true := by
  decide +kernel
theorem test_unexpected_frame : fhdr (frameOf 0 0 twoMsgs) 0 2 % 4096 ≠ 4095 := by
  rw [(frame_good 0 0 twoMsgs (by decide +kernel) (by decide +kernel) (by decide +kernel) (by decide) (by decide +kernel)
    (by decide +kernel)).2.1]; decide
theorem test_good_idle_frame : frameBad (frameOf 1 0 (leBytes 608 0)) 1 = false ∧ fhdr (frameOf 1 0 (leBytes 608 0)) 0 2 % 4096 = 0
    ∧ bit (fhdr (frameOf 1 0 (leBytes 608 0)) 2 2) 12 = false ∧ fhdr (frameOf 1 0 (leBytes 608 0)) 12 2 = 0 := frame_good 1 0 (leBytes 608 0)
  (by decide +kernel) (by decide +kernel) (by decide +kernel) (by decide) (by decide +kernel) (by decide +kernel)

/-- An identity as a peer sends it: device 0, link 5, incarnation 9. -/
def identMsg : Msg := peerMsg 0x0C 0 0 0 0 0 (5 + 9 * 2 ^ 32) []

theorem test_training_witness :
    (∀ st : LinkSt, ((withLink (linkAs st)).link 0).st = st)
    ∧ (∀ st ∈ [LinkSt.train, .retrain],
      ((withLink (linkAs st)).link 0).canRun = true ∧ ((withLink (linkAs st)).link 0).downRaised = false
        ∧ ((withLink { linkAs st with downRaised := true }).link 0).downRaised = true
        ∧ ∀ n : Fin 2, (linkAs st).laneUsed n = true ∧ (linkAs st).spareIn = false ∧ (linkAs st).guarded = false
          ∧ ({ linkAs st with guarded := true } : Link).laneUsed n = true
          ∧ (withLink { linkAs st with guarded := true, spareLane := 7 }).spareWorks 7 = true)
    ∧ (∀ n : Fin 2, (linkAs .active).laneUsed n = true ∧ (linkAs .active).retrains.toNat < 65535 ∧ (linkAs .active).losses n = 0
        ∧ 1 ≤ ({ linkAs .active with lockLoss := (1, 1) } : Link).losses n ∧ (linkAs .active).spareIn = false)
    ∧ (linkAs .active).over 65536 = false ∧ (linkAs .active).over 65537 = true ∧ ({ linkAs .active with laneLimit := 0 } : Link).over 65537 = false
    ∧ identMsg.type = 0x0C ∧ identity identMsg = (0, 5, 9)
    ∧ (∀ k ∈ [{ linkAs .identify with met := some (0, 5, 9) }, { linkAs .identify with met := some (0, 5, 9), expAny := false, expLink := 5 }],
        k.st = .identify ∧ (k.expAny = true ∨ ((identity identMsg).1 = k.expDev ∧ (identity identMsg).2.1 = k.expLink)) ∧ k.met = some (identity identMsg)
          ∧ k.retry.any TxFrame.parityBad = false ∧ k.txQ = [] ∧ k.reqWait = [])
    ∧ (∀ k ∈ [linkAs .identify, { linkAs .identify with met := some (0, 5, 8) }], k.expAny = true ∧ k.met ≠ some (identity identMsg) ∧ k.ops = [] ∧ k.reqWait = [] ∧ k.drains = [])
    ∧ (let k : Link := { linkAs .identify with expAny := false, expLink := 6 };
      k.expAny = false ∧ ¬ ((identity identMsg).1 = k.expDev ∧ (identity identMsg).2.1 = k.expLink)) := by
  and_intros <;> first | decide +kernel | (intro st; cases st <;> decide +kernel)

/-! ### The whole machine -/

/-- A device with memory in use, and a command that changes it. -/
theorem test_canonical_witness :
    Memory.wf peered.mem = true ∧ peered.mem ≠ [] ∧ (match step { peered with pending := [.wrMsg 0 wrMsg0] } with
      | .next t => decide (t.mem ≠ peered.mem)
      | _ => false) = true := by
  and_intros <;> decide +kernel

end Sys2Proof.Tests
end

/-! ## What a register access covers (R11 to R13, R366)

The writes and the reads of BAR0 choose a block of the register map, then a register in it. Each step of that choice is an
equation here, so that a register needs only what its own write leaves and its own read shows. -/

namespace Sys2Proof.Machine

/-! ### Halves, bits and kept values -/

/-- The low half of a 64-bit register reads what was last written to it, and the high half likewise; neither write reaches
the other half (R12). -/
theorem half_putHalf (b c : Bool) (old : DWord) (w : Nat) (hw : w < 2 ^ 32) :
    half b (putHalf c old w).toNat = if b = c then w % 2 ^ 32 else half b old.toNat := by
  have hold := old.isLt
  cases b <;> cases c <;> simp [half, putHalf] <;> omega

theorem b2n_bit_zero (w : Nat) : b2n (bit w 0) = w % 2 ^ 1 := by
  simp only [b2n, bit, decide_eq_true_eq]
  split <;> omega

theorem b2n_le (b : Bool) : b2n b ≤ 1 := by cases b <;> decide

@[simp] theorem keepIf_true {α : Type} (old new : α) : keepIf true old new = old := rfl

/-! ### The blocks of BAR0 -/

variable {s : State}

/-- Writes reach the global block (R366). -/
theorem writeWord_global (h : s.hi.st ≠ .starting) (o w : Nat) (ho : o < 0x1000000) : s.writeWord o w = s.writeGlobal o w := by
  simp [State.writeWord, h, ho]

theorem readWord_host (h : s.hi.st ≠ .starting) (o : Nat) (ho : o < 0x4000) : s.readWord o = s.readHost o := by
  simp [State.readWord, h, ho]

theorem readWord_keep (h : s.hi.st ≠ .starting) (o : Nat) (ho : 0x4000 ≤ o ∧ o < 0x10000) : s.readWord o = s.readKeep o := by
  have h1 : ¬ o < 0x4000 := by omega
  have h2 : ¬ 0x10000 ≤ o := by omega
  have h3 : o < 0x1000000 := by omega
  simp [State.readWord, h, h1, h2, h3]

/-- The number of a partition and the offset in its block, as an offset of BAR0 gives them. -/
theorem partReg_split (p : Fin 4) (o : Nat) (ho : o < 0x1000000) :
    ¬ partReg p o < 0x1000000 ∧ partReg p o < 0x5000000 ∧ (partReg p o / 0x1000000 - 1) % 4 = p ∧ partReg p o % 0x1000000 = o := by
  unfold partReg
  omega

theorem writeWord_part (h : s.hi.st ≠ .starting) (p : Fin 4) (o w : Nat) (ho : o < 0x1000000) :
    s.writeWord (partReg p o) w = s.writePartReg p o w := by
  obtain ⟨h1, h2, h3, h4⟩ := partReg_split p o ho
  simp [State.writeWord, h, h1, h2, h3, h4]

theorem readWord_part (h : s.hi.st ≠ .starting) (p : Fin 4) (o : Nat) (ho : o < 0x1000000) :
    s.readWord (partReg p o) = s.readPartReg p o := by
  obtain ⟨h1, h2, h3, h4⟩ := partReg_split p o ho
  have h5 : ¬ partReg p o < 0x4000 := by omega
  have h6 : ¬ partReg p o < 0x110000 := by omega
  simp [State.readWord, h, h1, h2, h3, h4, h5, h6]

theorem linkReg_split (l : Fin 48) (o : Nat) (ho : o < 0x10000) :
    ¬ linkReg l o < 0x5000000 ∧ linkReg l o < 0x6000000 ∧ (linkReg l o - 0x5000000) / 0x10000 = l ∧ linkReg l o % 0x10000 = o := by
  unfold linkReg
  omega

theorem writeWord_link (h : s.hi.st ≠ .starting) (l : Fin 48) (o w : Nat) (ho : o < 0x10000) :
    s.writeWord (linkReg l o) w = s.writeLinkReg l o w := by
  obtain ⟨h1, h2, h3, h4⟩ := linkReg_split l o ho
  have h5 : ¬ linkReg l o < 0x1000000 := by omega
  simp [State.writeWord, h, h1, h2, h3, h4, h5]

theorem readWord_link (h : s.hi.st ≠ .starting) (l : Fin 48) (o : Nat) (ho : o < 0x10000) :
    s.readWord (linkReg l o) = (s.link l).read o := by
  obtain ⟨h1, h2, h3, h4⟩ := linkReg_split l o ho
  have h5 : ¬ linkReg l o < 0x1000000 := by omega
  have h6 : ¬ linkReg l o < 0x4000 := by omega
  have h7 : ¬ linkReg l o < 0x110000 := by omega
  simp [State.readWord, h, h1, h2, h3, h4, h5, h6, h7]

theorem stackReg_split (k : Fin 12) (o : Nat) (ho : o < 0x100000) :
    ¬ stackReg k o < 0x6000000 ∧ (stackReg k o - 0x6000000) / 0x100000 = k ∧ stackReg k o % 0x100000 = o := by
  unfold stackReg
  omega

theorem writeWord_stack (h : s.hi.st ≠ .starting) (k : Fin 12) (o w : Nat) (ho : o < 0x100000) :
    s.writeWord (stackReg k o) w = s.writeStackReg k o w := by
  obtain ⟨h1, h2, h3⟩ := stackReg_split k o ho
  have h4 : ¬ stackReg k o < 0x1000000 := by omega
  have h5 : ¬ stackReg k o < 0x5000000 := by omega
  simp [State.writeWord, h, h1, h2, h3, h4, h5]

theorem readWord_stack (h : s.hi.st ≠ .starting) (k : Fin 12) (o : Nat) (ho : o < 0x100000) :
    s.readWord (stackReg k o) = (s.stack k).read o := by
  obtain ⟨h1, h2, h3⟩ := stackReg_split k o ho
  have h4 : ¬ stackReg k o < 0x1000000 := by omega
  have h5 : ¬ stackReg k o < 0x5000000 := by omega
  have h6 : ¬ stackReg k o < 0x4000 := by omega
  have h7 : ¬ stackReg k o < 0x110000 := by omega
  simp [State.readWord, h, h1, h2, h3, h4, h5, h6, h7]

/-! ### The blocks of a partition: its cores and its contexts -/

/-- The offset of a core's register in its partition's block. -/
def coreOff (c : CoreId) (o : Nat) : Nat := 0x800000 + 0x10000 * c.c.val + 0x1000 * c.k.val + o

theorem coreOff_split (c : CoreId) (o : Nat) (ho : o < 0x1000) :
    0x800000 ≤ coreOff c o ∧ coreOff c o < 0x8A0000 ∧ (coreOff c o - 0x800000) / 65536 % 10 = c.c
      ∧ (coreOff c o - 0x800000) % 65536 / 4096 = c.k ∧ coreOff c o % 4096 = o := by
  unfold coreOff
  omega

theorem coreReg_eq (c : CoreId) (o : Nat) : coreReg c o = partReg c.p (coreOff c o) := rfl

theorem readPartReg_core (c : CoreId) (o : Nat) (ho : o < 0x1000) : s.readPartReg c.p (coreOff c o) = (s.core c).read o := by
  obtain ⟨h1, h2, h3, h4, h5⟩ := coreOff_split c o ho
  have h6 : ¬ coreOff c o < 0x10000 := by omega
  have h7 : ¬ coreOff c o < 0x30000 := by omega
  have h8 : ¬ coreOff c o < 0x680000 := by omega
  simp [State.readPartReg, h1, h2, h3, h4, h5, h6, h7, h8]

theorem writePartReg_hazEn (c : CoreId) (w : Nat) :
    s.writePartReg c.p (coreOff c 0x4) w = s.setCore c { s.core c with hazEn := bit w 0 } := by
  obtain ⟨h1, h2, h3, h4, h5⟩ := coreOff_split c 0x4 (by decide)
  have hne : ∀ n, n < 0x800000 → ¬ coreOff c 0x4 = n := by omega
  have hlt : ∀ n, n ≤ 0x800000 → ¬ coreOff c 0x4 < n := by omega
  simp [State.writePartReg, h1, h2, h3, h4, h5, hne, hlt]

theorem writePartReg_waitLimit (c : CoreId) (w : Nat) :
    s.writePartReg c.p (coreOff c 0x8) w = s.setCore c { s.core c with waitLimit := BitVec.ofNat 24 w } := by
  obtain ⟨h1, h2, h3, h4, h5⟩ := coreOff_split c 0x8 (by decide)
  have hne : ∀ n, n < 0x800000 → ¬ coreOff c 0x8 = n := by omega
  have hlt : ∀ n, n ≤ 0x800000 → ¬ coreOff c 0x8 < n := by omega
  simp [State.writePartReg, h1, h2, h3, h4, h5, hne, hlt]

theorem writePartReg_quantum (p : Fin 4) (x : Fin 16) (w : Nat) :
    s.writePartReg p (0x408 + 32 * x) w
      = s.updCtx p x (fun c => { c with quantum := keepIf (bits w 23 0 = 0) c.quantum (BitVec.ofNat 24 w) }) := by
  have h1 : (0x408 + 32 * x.val - 0x400) / 32 % 16 = x := by omega
  have h2 : (0x408 + 32 * x.val) % 32 = 0x8 := by omega
  have h3 : 0x400 ≤ 0x408 + 32 * x.val ∧ 0x408 + 32 * x.val < 0x600 := by omega
  have hne : ∀ n, n < 0x400 → ¬ 0x408 + 32 * x.val = n := by omega
  simp [State.writePartReg, hne, h1, h2, h3]

theorem readPartReg_quantum (p : Fin 4) (x : Fin 16) : s.readPartReg p (0x408 + 32 * x) = (s.ctx p x).quantum.toNat := by
  have h1 : (0x408 + 32 * x.val - 0x400) / 32 % 16 = x := by omega
  have h2 : (0x408 + 32 * x.val) % 32 = 0x8 := by omega
  have h3 : 0x400 ≤ 0x408 + 32 * x.val ∧ 0x408 + 32 * x.val < 0x600 := by omega
  have h4 : 0x408 + 32 * x.val < 0x10000 := by omega
  have hne : ∀ n, n < 0x400 → ¬ 0x408 + 32 * x.val = n := by omega
  simp [State.readPartReg, State.readSeq, Ctx.read, State.ctx, hne, h1, h2, h3, h4]

/-! ### RW registers that read the value last written (R13) -/

/-- The word at `o` keeps `n` bits of what is written to it; stack memory stays. -/
def ReadsBack (s : State) (o n : Nat) : Prop :=
  ∀ w < 2 ^ 32, (s.writeWord o w).readWord o = w % 2 ^ n ∧ (s.writeWord o w).mem = s.mem

/-- A register of a partition reads back if its block says so. -/
theorem readsBack_part (h : s.hi.st ≠ .starting) (p : Fin 4) (o n : Nat) (ho : o < 0x1000000)
    (hw : ∀ w < 2 ^ 32, ∃ v, s.writePartReg p o w = s.setPart p v ∧ (s.setPart p v).readPartReg p o = w % 2 ^ n) :
    ReadsBack s (partReg p o) n := by
  intro w hlt
  obtain ⟨v, h1, h2⟩ := hw w hlt
  rw [writeWord_part h p o w ho, h1, readWord_part (s := s.setPart p v) h p o ho]
  exact ⟨h2, rfl⟩

theorem readsBack_mcqHeadWb (h : s.hi.st ≠ .starting) : ReadsBack s 0x1020 32 ∧ ReadsBack s 0x1024 32 := by
  constructor <;> intro w hw <;> rw [writeWord_global h _ w (by decide), readWord_host (by exact h) _ (by decide)]
  · simp [State.writeGlobal, State.readHost, half_putHalf _ _ _ _ hw]
  · simp [State.writeGlobal, State.readHost, half_putHalf _ _ _ _ hw]

theorem readsBack_retention (h : s.hi.st ≠ .starting) : ReadsBack s 0x5108 1 := by
  intro w _
  rw [writeWord_global h _ w (by decide), readWord_keep (by exact h) _ (by decide)]
  simp [State.writeGlobal, State.readKeep, b2n_bit_zero]

/-- Either half of `EV_PROD_WB_e`: `b` picks the high one. -/
theorem readsBack_prodWb (h : s.hi.st ≠ .starting) (b : Bool) (e : Nat) (he : e < 8) (o : Nat)
    (ho : o = 0x2018 + 4 * b2n b + 0x40 * e) : ReadsBack s o 32 := by
  intro w hw
  have hb := b2n_le b
  have hin : 0x2000 ≤ o ∧ o < 0x2200 := by omega
  have hne : ∀ n, n < 0x2000 → ¬ o = n := by omega
  have hq : (o - 0x2000) / 64 % 8 = e := by omega
  have hoff : o % 64 = 0x18 + 4 * b2n b := by omega
  have hw' : s.writeWord o w = s.updEventQ ⟨e, he⟩ (fun q => { q with prodWb := putHalf b q.prodWb w }) := by
    rw [writeWord_global h _ w (by omega)]
    cases b <;> simp [State.writeGlobal, b2n, hne, hin, hq, hoff]
  rw [hw', readWord_host (by exact h) _ (by omega)]
  cases b <;> simp [State.readHost, b2n, hne, hin, hq, hoff, half_putHalf _ _ _ _ hw]

theorem readsBack_hazEn (h : s.hi.st ≠ .starting) (c : CoreId) : ReadsBack s (coreReg c 0x4) 1 := by
  intro w _
  have ho : coreOff c 0x4 < 0x1000000 := by have := coreOff_split c 0x4 (by decide); omega
  rw [coreReg_eq, writeWord_part h _ _ w ho, writePartReg_hazEn, readWord_part (by exact h) _ _ ho, readPartReg_core c _ (by decide)]
  simp [Core.read, b2n_bit_zero]

theorem readsBack_waitLimit (h : s.hi.st ≠ .starting) (c : CoreId) : ReadsBack s (coreReg c 0x8) 24 := by
  intro w _
  have ho : coreOff c 0x8 < 0x1000000 := by have := coreOff_split c 0x8 (by decide); omega
  rw [coreReg_eq, writeWord_part h _ _ w ho, writePartReg_waitLimit, readWord_part (by exact h) _ _ ho, readPartReg_core c _ (by decide)]
  simp [Core.read]

theorem readsBack_laneLimit (h : s.hi.st ≠ .starting) (l : Fin 48) : ReadsBack s (linkReg l 0x1C) 16 := by
  intro w _
  rw [writeWord_link h l _ w (by decide), readWord_link (by simpa [State.writeLinkReg] using h) l _ (by decide)]
  simp [State.writeLinkReg, Link.read]

theorem readsBack_grant (h : s.hi.st ≠ .starting) (l : Fin 48) (x : Nat) (hx : x < 16) :
    ReadsBack s (linkReg l (0x20 + 4 * x)) 5 := by
  intro w _
  have hin : 0x20 + 4 * x < 0x60 := by omega
  have hne : ∀ n, n < 0x20 → ¬ 0x20 + 4 * x = n := by omega
  have hw' : s.writeWord (linkReg l (0x20 + 4 * x)) w
      = s.updLink l (fun k => { k with grants := k.grants.set ⟨false, 0⟩ x ⟨bit w 0, BitVec.ofNat 4 (bits w 4 1)⟩ }) := by
    rw [writeWord_link h l _ w (by omega)]
    simp [State.writeLinkReg, hne, hin]
  rw [hw', readWord_link (by exact h) l _ (by omega)]
  simp [Link.read, hin, b2n_bit_zero, bits]
  omega

/-- Either half of `SE_SLOT_MAP_d`: `b` picks the high one. -/
theorem readsBack_slotOff (h : s.hi.st ≠ .starting) (k : Fin 12) (b : Bool) (d : Nat) (hd : d < 16) (o : Nat)
    (ho : o = 0x180 + 4 * b2n b + 8 * d) : ReadsBack s (stackReg k o) 32 := by
  intro w hw
  have hb := b2n_le b
  have hin : 0x180 ≤ o ∧ o < 0x200 := by omega
  have hne : ¬ o = 0x108 := by omega
  have hd' : (o - 0x180) / 8 = d := by omega
  have hhigh : decide (o % 8 = 4) = b := by cases b <;> simp [b2n] at ho ⊢ <;> omega
  have hw' : s.writeWord (stackReg k o) w
      = s.updStack k (fun y => { y with slotOff := y.slotOff.set 0 d (putHalf b (y.slotOff.get 0 d) w) }) := by
    rw [writeWord_stack h k _ w (by omega)]
    simp [State.writeStackReg, hne, hin, hd', hhigh]
  rw [hw', readWord_stack (by exact h) k _ (by omega)]
  simp [Stack.read, hin, hd', hhigh, half_putHalf _ _ _ _ hw]

/-- The sequencer's and the cache's plain words (R26, R342, R306, R262, R189). -/
theorem readsBack_sequencer (h : s.hi.st ≠ .starting) (p : Fin 4) :
    ReadsBack s (partReg p 0x100) 20 ∧ ReadsBack s (partReg p 0x304) 16 ∧ ReadsBack s (partReg p 0x318) 1
      ∧ ReadsBack s (partReg p 0x608) 16 ∧ ReadsBack s (partReg p 0x20000) 1 := by
  refine ⟨?_, ?_, ?_, ?_, ?_⟩ <;> refine readsBack_part h p _ _ (by decide) (fun w _ => ⟨_, rfl, ?_⟩)
  · simp [State.readPartReg, State.readSeq]
  · simp [State.readPartReg, State.readSeq]
  · simp [State.readPartReg, State.readSeq, b2n_bit_zero]
  · simp [State.readPartReg, State.readSeq]
  · simp [State.readPartReg, State.readMap, b2n_bit_zero]

/-- Every word of the list of plain registers reads back (R13). -/
theorem readsBack_of_plainRegister (h : s.hi.st ≠ .starting) (o n : Nat) (hp : plainRegister o n) : ReadsBack s o n := by
  obtain ⟨rfl, rfl⟩ | ⟨rfl, rfl⟩ | ⟨rfl, rfl⟩ | ⟨e, he, rfl | rfl, rfl⟩ | ⟨p, hp⟩ | ⟨c, hc⟩ | ⟨l, hl⟩ | ⟨k, d, hd, rfl | rfl, rfl⟩ := hp
  · exact (readsBack_mcqHeadWb h).1
  · exact (readsBack_mcqHeadWb h).2
  · exact readsBack_retention h
  · exact readsBack_prodWb h false e he _ rfl
  · exact readsBack_prodWb h true e he _ rfl
  · obtain ⟨h1, h2, h3, h4, h5⟩ := readsBack_sequencer h p
    obtain ⟨rfl, rfl⟩ | ⟨rfl, rfl⟩ | ⟨rfl, rfl⟩ | ⟨rfl, rfl⟩ | ⟨rfl, rfl⟩ := hp
    exacts [h1, h2, h3, h4, h5]
  · obtain ⟨rfl, rfl⟩ | ⟨rfl, rfl⟩ := hc
    exacts [readsBack_hazEn h c, readsBack_waitLimit h c]
  · obtain ⟨rfl, rfl⟩ | ⟨x, hx, rfl, rfl⟩ := hl
    exacts [readsBack_laneLimit h l, readsBack_grant h l x hx]
  · exact readsBack_slotOff h k false d hd _ rfl
  · exact readsBack_slotOff h k true d hd _ rfl

/-- The words of the list are aligned, and lie in BAR0. -/
theorem plainRegister_aligned (o n : Nat) (hp : plainRegister o n) : o < 2 ^ 28 ∧ o % 4 = 0 := by
  obtain ⟨rfl, -⟩ | ⟨rfl, -⟩ | ⟨rfl, -⟩ | ⟨e, he, ho, -⟩ | ⟨p, hp⟩ | ⟨c, hc⟩ | ⟨l, hl⟩ | ⟨k, d, hd, ho, -⟩ := hp
  · decide
  · decide
  · decide
  · omega
  · simp only [partReg] at hp
    omega
  · simp only [coreReg, partReg] at hc
    omega
  · obtain ⟨rfl, -⟩ | ⟨x, hx, rfl, -⟩ := hl <;> simp only [linkReg] <;> omega
  · simp only [stackReg] at ho
    omega

/-! ### Reserved encodings (R13) -/

/-- A register of a partition reads as before if its block says so. -/
theorem readWord_part_kept (h : s.hi.st ≠ .starting) (p : Fin 4) (o v : Nat) (ho : o < 0x1000000)
    (hw : ∃ q, s.writePartReg p o v = s.setPart p q ∧ (s.setPart p q).readPartReg p o = s.readPartReg p o) :
    (s.writeWord (partReg p o) v).readWord (partReg p o) = s.readWord (partReg p o) := by
  obtain ⟨q, h1, h2⟩ := hw
  rw [writeWord_part h p o v ho, h1, readWord_part (s := s.setPart p q) h p o ho, readWord_part h p o ho, h2]

/-- A word that is written a reserved encoding reads as before. -/
theorem readWord_reservedWrite (h : s.hi.st ≠ .starting) (o v : Nat) (hr : reservedWrite o v) :
    (s.writeWord o v).readWord o = s.readWord o := by
  obtain ⟨p, hr⟩ := hr
  obtain ⟨rfl, rfl⟩ | ⟨rfl, rfl⟩ | ⟨rfl, rfl⟩ | ⟨rfl, hv⟩ | ⟨x, hx, rfl, rfl⟩ := hr
  · exact readWord_part_kept h p _ _ (by decide) ⟨_, rfl, by simp [State.readPartReg, State.readSeq, bits]⟩
  · exact readWord_part_kept h p _ _ (by decide) ⟨_, rfl, by simp [State.readPartReg, State.readSeq]⟩
  · exact readWord_part_kept h p _ _ (by decide) ⟨_, rfl, by simp [State.readPartReg, State.readSeq, bits]⟩
  · refine readWord_part_kept h p _ _ (by decide) ⟨_, rfl, ?_⟩
    obtain rfl | rfl := hv <;> simp [State.readPartReg, State.readSeq, bits]
  · refine readWord_part_kept h p _ _ (by omega) ⟨_, writePartReg_quantum p ⟨x, hx⟩ 0, ?_⟩
    rw [readPartReg_quantum p ⟨x, hx⟩, readPartReg_quantum p ⟨x, hx⟩]
    simp [bits]

theorem reservedWrite_aligned (o v : Nat) (hr : reservedWrite o v) : o < 2 ^ 28 ∧ o % 4 = 0 ∧ v < 2 ^ 32 := by
  obtain ⟨p, hr | hr | hr | hr | ⟨x, hx, hr⟩⟩ := hr <;> simp only [partReg] at hr <;> omega

/-! ### Whole accesses (R11, R12) -/

/-- `REGISTER_WRITE` is a write of BAR0, and always goes on. -/
theorem exec_registerWrite (s : State) (o : BitVec 28) (size : Nat) (v : DWord) :
    exec (.registerWrite o size v) s = .next (s.writeReg o.toNat size v.toNat) := rfl

theorem writeReg_word (o v : Nat) (ho : o % 4 = 0) (hv : v < 2 ^ 32) : s.writeReg o 4 v = s.writeWord o v := by
  simp [State.writeReg, ho, Nat.mod_eq_of_lt (b := 4294967296) hv]

theorem readReg_word (o : Nat) (ho : o % 4 = 0) : s.readReg o 4 = s.readWord o := by
  simp [State.readReg, ho]

theorem writeReg_wide (o v : Nat) (ho : o % 8 = 0) :
    s.writeReg o 8 v = (s.writeWord o (v % 4294967296)).writeWord (o + 4) (v / 4294967296 % 4294967296) := by
  simp [State.writeReg, ho]

theorem readReg_wide (o : Nat) (ho : o % 8 = 0) : s.readReg o 8 = s.readWord o + 4294967296 * s.readWord (o + 4) := by
  simp [State.readReg, ho]

theorem putHalf_putHalf (old v : DWord) :
    putHalf true (putHalf false old (v.toNat % 4294967296)) (v.toNat / 4294967296 % 4294967296) = v := by
  have hold := old.isLt
  have hv := v.isLt
  apply BitVec.eq_of_toNat_eq
  simp only [putHalf, if_true, Bool.false_eq_true, if_false, BitVec.toNat_ofNat]
  omega

theorem half_add_half (v : DWord) : half false v.toNat + 4294967296 * half true v.toNat = v.toNat := by
  have hv := v.isLt
  simp only [half, if_true, Bool.false_eq_true, if_false]
  omega

/-- A 64-bit write of `HI_MCQ_HEAD_WB` covers both of its words (R12). -/
theorem writeReg_mcqHeadWb (h : s.hi.st ≠ .starting) (v : DWord) :
    s.writeReg 0x1020 8 v.toNat = { s with hi := { s.hi with mcqHeadWb := v } } := by
  rw [writeReg_wide _ _ (by decide), writeWord_global h _ _ (by decide), writeWord_global (by exact h) _ _ (by decide)]
  simp [State.writeGlobal, putHalf_putHalf]

/-- A 64-bit read of it returns both (R12). -/
theorem readReg_mcqHeadWb (h : s.hi.st ≠ .starting) : s.readReg 0x1020 8 = s.hi.mcqHeadWb.toNat := by
  rw [readReg_wide _ (by decide), readWord_host h _ (by decide), readWord_host h _ (by decide)]
  exact half_add_half _

/-- Any other access neither writes nor reads a register (R12). -/
theorem unaligned_access (o size v : Nat) (h4 : ¬ (size = 4 ∧ o % 4 = 0)) (h8 : ¬ (size = 8 ∧ o % 8 = 0)) :
    s.writeReg o size v = s ∧ s.readReg o size = 2 ^ (8 * size) - 1 := by
  have h4' : (decide (size = 4) && decide (o % 4 = 0)) = false := by simpa using h4
  have h8' : (decide (size = 8) && decide (o % 8 = 0)) = false := by simpa using h8
  simp [State.writeReg, State.readReg, h4', h8']

end Sys2Proof.Machine

section
open Sys2Proof Sys2Proof.Machine

/-- Settles O39, from what each block of BAR0 writes and reads. -/
theorem registerAccess : Obligations.RegisterAccess := by
  intro s h
  refine ⟨fun o n hp v hv => ?_, fun o v hr => ?_, fun v => ?_, fun o size v h4 h8 => ?_⟩
  · obtain ⟨hlt, hal⟩ := plainRegister_aligned o n hp
    have ho : (BitVec.ofNat 28 o).toNat = o := Nat.mod_eq_of_lt hlt
    obtain ⟨hread, hmem⟩ := readsBack_of_plainRegister h o n hp v.toNat hv
    refine ⟨_, exec_registerWrite s _ 4 v, ?_⟩
    rw [ho, writeReg_word o _ hal hv, readReg_word o hal]
    exact ⟨hread, hmem⟩
  · obtain ⟨hlt, hal, hv⟩ := reservedWrite_aligned o v hr
    have ho : (BitVec.ofNat 28 o).toNat = o := Nat.mod_eq_of_lt hlt
    have hv' : (BitVec.ofNat 64 v).toNat = v := Nat.mod_eq_of_lt (by omega)
    refine ⟨_, exec_registerWrite s _ 4 _, ?_⟩
    rw [ho, hv', writeReg_word o _ hal hv, readReg_word o hal, readReg_word o hal]
    exact readWord_reservedWrite h o v hr
  · have hw := writeReg_mcqHeadWb h v
    refine ⟨_, exec_registerWrite s _ 8 v, ?_⟩
    rw [show (0x1020 : BitVec 28).toNat = 0x1020 from rfl, hw, readReg_mcqHeadWb (by exact h)]
    exact ⟨rfl, rfl⟩
  · obtain ⟨hw, hr⟩ := unaligned_access (s := s) o.toNat size v.toNat h4 h8
    exact ⟨by rw [exec_registerWrite, hw], hr⟩

end

/-! ## An hk cycle on an empty queue (log 1, R15, R306, R315)

The cycle moves the hk count, then the watchdog counts of the partitions one after another, then the links one after another.
No watchdog's test reads a count, so that the turns of the partitions do not meet; no more do those of the links. -/

namespace Sys2Proof.Machine

/-! ### What the deadlock test reads (R306) -/

/-- Nothing changes but the hk count and the watchdog counts. -/
structure OnlyCounts (s t : State) : Prop where
  rest : { t with hkCount := s.hkCount, parts := s.parts } = s
  part : ∀ p, { t.part p with wdCount := (s.part p).wdCount } = s.part p

namespace OnlyCounts

theorem refl (s : State) : OnlyCounts s s := ⟨rfl, fun _ => rfl⟩

theorem trans {s t u : State} (h : OnlyCounts s t) (g : OnlyCounts t u) : OnlyCounts s u :=
  ⟨by rw [← h.rest, ← g.rest], fun p => by rw [← h.part p, ← g.part p]⟩

variable {s t : State} (h : OnlyCounts s t)
include h

theorem mem_eq : t.mem = s.mem := by rw [← h.rest]
theorem hostMem_eq : t.hostMem = s.hostMem := by rw [← h.rest]
theorem hi_eq : t.hi = s.hi := by rw [← h.rest]
theorem wqs_eq : t.wqs = s.wqs := by rw [← h.rest]
theorem pkts_eq : t.pkts = s.pkts := by rw [← h.rest]
theorem cxlOut_eq : t.cxlOut = s.cxlOut := by rw [← h.rest]
theorem rowsDev_eq : t.rowsDev = s.rowsDev := by rw [← h.rest]
theorem core_eq (c : CoreId) : t.core c = s.core c := by rw [← h.rest]; rfl
theorem cluster_eq (c : ClusterId) : t.cluster c = s.cluster c := by rw [← h.rest]; rfl
theorem link_eq (l : Fin 48) : t.link l = s.link l := by rw [← h.rest]; rfl
theorem stack_eq (k : Fin 12) : t.stack k = s.stack k := by rw [← h.rest]; rfl

theorem regions_eq (p : Fin 4) : (t.part p).regions = (s.part p).regions := by rw [← h.part p]
theorem rowsPart_eq (p : Fin 4) : (t.part p).rowsPart = (s.part p).rowsPart := by rw [← h.part p]
theorem cur_eq (p : Fin 4) : (t.part p).cur = (s.part p).cur := by rw [← h.part p]
theorem wdEn_eq (p : Fin 4) : (t.part p).wdEn = (s.part p).wdEn := by rw [← h.part p]
theorem ctx_eq (p : Fin 4) (x : Fin 16) : t.ctx p x = s.ctx p x := by rw [State.ctx, State.ctx, ← h.part p]; rfl

theorem byteAt_eq (k : Place) : t.byteAt k = s.byteAt k := by
  cases k <;> simp [State.byteAt, h.mem_eq, h.hostMem_eq]

theorem bytesAt_eq (ks : List Place) : t.bytesAt ks = s.bytesAt ks := by
  simp only [State.bytesAt, funext h.byteAt_eq]

theorem rowsPartOf_eq (k : Nat) : t.rowsPartOf k = s.rowsPartOf k := by rw [State.rowsPartOf, State.rowsPartOf, h.rowsPart_eq]
theorem partSize_eq (p : Fin 4) : t.partSize p = s.partSize p := by rw [State.partSize, State.partSize, h.rowsPart_eq]
theorem devSize_eq : t.devSize = s.devSize := by rw [State.devSize, State.devSize, h.rowsDev_eq]
theorem devPlace_eq (x : Nat) : t.devPlace x = s.devPlace x := by simp only [State.devPlace, h.rowsPartOf_eq]
theorem bankSize_eq (k : Nat) : t.bankSize k = s.bankSize k := by simp only [State.bankSize, h.rowsPartOf_eq, h.rowsDev_eq]
theorem bankPlace_eq (b : Nat) : t.bankPlace b = s.bankPlace b := by
  dsimp only [State.bankPlace]
  rw [h.bankSize_eq, h.rowsPartOf_eq, h.rowsDev_eq]

theorem framePlace_eq (p : Fin 4) (k : RegionKind) (f : Nat) : t.framePlace p k f = s.framePlace p k f := by
  unfold State.framePlace
  rw [h.partSize_eq, h.devSize_eq, h.devPlace_eq, h.bankPlace_eq]

theorem frameOf_eq (p : Fin 4) (r : Region) (n : Nat) : t.frameOf p r n = s.frameOf p r n := by
  rw [State.frameOf, State.frameOf, State.readPart, State.readPart, h.bytesAt_eq]

/-- Translation reads the region table, the frame lists in memory, and the sizes of the spaces. -/
theorem translate_eq (p : Fin 4) (x : Fin 16) (a : Nat) : t.translate p x a = s.translate p x a := by
  have hr : t.regionAt p x a = s.regionAt p x a := by rw [State.regionAt, State.regionAt, h.regions_eq]
  unfold State.translate
  rw [hr]
  split
  · rfl
  · dsimp only
    rw [h.frameOf_eq, h.framePlace_eq]

theorem flagNow_eq (p : Fin 4) (x : Fin 16) (a : Nat) : t.flagNow p x a = s.flagNow p x a := by
  simp only [State.flagNow, h.translate_eq, State.wordAt, h.mem_eq]

theorem waitUnmet_eq (p : Fin 4) (x : Fin 16) (i : Inst) : t.waitUnmet p x i = s.waitUnmet p x i := by
  simp only [State.waitUnmet, h.flagNow_eq]

theorem flagUnmet_eq (k : Pkt) : t.flagUnmet k = s.flagUnmet k := by
  simp only [State.flagUnmet, h.flagNow_eq]

theorem awaiting_eq (p : Fin 4) (w : Waiter) : t.awaiting p w = s.awaiting p w := by
  simp only [State.awaiting, h.link_eq]

theorem coreHeld_eq (c : CoreId) (links : Bool) : t.coreHeld c links = s.coreHeld c links := by
  have hi : t.instHeld c links = s.instHeld c links := by
    funext i
    simp only [State.instHeld, State.instWaiter, h.core_eq, h.waitUnmet_eq, h.awaiting_eq]
  simp only [State.coreHeld, h.core_eq, hi]

theorem savedHeld_eq (k : Pkt) (x : Core) : t.savedHeld k x = s.savedHeld k x := by
  simp only [State.savedHeld, h.waitUnmet_eq]

theorem pktHeld_eq (links : Bool) (k : Pkt) : t.pktHeld links k = s.pktHeld links k := by
  have hs : t.savedHeld k = s.savedHeld k := funext (h.savedHeld_eq k)
  simp only [State.pktHeld, State.coresOfPkt, State.savedOf, h.flagUnmet_eq, h.awaiting_eq, h.core_eq, h.ctx_eq, h.coreHeld_eq, hs]

theorem queueBlocked_eq (q : Nat) (w : WorkQ) : t.queueBlocked q w = s.queueBlocked q w := by
  have hk : t.pktHeld false = s.pktHeld false := funext (h.pktHeld_eq false)
  simp only [State.queueBlocked, State.pktAt, h.pkts_eq, h.flagUnmet_eq, hk]

theorem enginesIdle_eq (p : Fin 4) : t.enginesIdle p = s.enginesIdle p := by
  simp only [State.enginesIdle, h.core_eq, h.coreHeld_eq, h.stack_eq, h.cur_eq, h.ctx_eq]

/-- The deadlock test reads no count. -/
theorem deadlocked_eq (p : Fin 4) : t.deadlocked p = s.deadlocked p := by
  simp only [State.deadlocked, State.openQueues, State.requestsOut, h.wqs_eq, h.queueBlocked_eq, h.enginesIdle_eq, h.cxlOut_eq, h.link_eq]

end OnlyCounts

/-! ### The watchdogs (R306) -/

/-- What a partition's count becomes in one hk cycle. -/
def State.nextCount (s : State) (p : Fin 4) : Word :=
  if (s.part p).wdEn && s.deadlocked p then satAdd (s.part p).wdCount 1 else 0

theorem watch_eq (s : State) (p : Fin 4) : s.watch p = s.setPart p { s.part p with wdCount := s.nextCount p } := rfl

theorem watch_onlyCounts (s : State) (p : Fin 4) : OnlyCounts s (s.watch p) := by
  refine ⟨rfl, fun o => ?_⟩
  rw [watch_eq, State.part_setPart]
  split
  · subst o
    rfl
  · rfl

/-- A partition's next count rests on its own count alone. -/
theorem nextCount_congr {s t : State} (h : OnlyCounts s t) (p : Fin 4) (hc : (t.part p).wdCount = (s.part p).wdCount) :
    t.nextCount p = s.nextCount p := by
  rw [State.nextCount, State.nextCount, h.wdEn_eq, h.deadlocked_eq, hc]

/-- The turns of a list of partitions, each of which has one turn at most. -/
theorem foldl_watch (ps : List (Fin 4)) (hn : ps.Nodup) (s : State) :
    OnlyCounts s (ps.foldl State.watch s)
      ∧ ∀ p, ((ps.foldl State.watch s).part p).wdCount = if p ∈ ps then s.nextCount p else (s.part p).wdCount := by
  induction ps generalizing s with
  | nil => exact ⟨.refl s, fun p => by simp⟩
  | cons q ps ih =>
    obtain ⟨hq, hn⟩ := List.nodup_cons.1 hn
    obtain ⟨hrest, hcount⟩ := ih hn (s.watch q)
    have hone := watch_onlyCounts s q
    refine ⟨hone.trans hrest, fun p => ?_⟩
    rw [List.foldl_cons, hcount p]
    by_cases hp : p = q
    · subst hp
      simp [hq, watch_eq]
    · have hsame : ((s.watch q).part p).wdCount = (s.part p).wdCount := by simp [watch_eq, hp]
      simp [hp, hsame, nextCount_congr hone p hsame]

theorem foldl_watch_hkCount (ps : List (Fin 4)) (s : State) : (ps.foldl State.watch s).hkCount = s.hkCount :=
  foldl_keeps (fun s t => t.hkCount = s.hkCount) (fun _ => rfl) (fun _ _ _ h g => g.trans h) State.watch (fun _ _ => rfl) ps s

/-- A count adds 1 up to its largest value. -/
theorem satAdd_one (c : Word) : satAdd c 1 = if c.toNat + 1 < 2 ^ 32 then c + 1 else c := by
  unfold satAdd
  split <;> apply BitVec.eq_of_toNat_eq
  · simp
  · have hc := c.isLt
    simp only [BitVec.toNat_allOnes]
    omega

/-! ### The links (R315) -/

/-- Nothing changes but links. -/
def OnlyLinks (s t : State) : Prop := { t with links := s.links } = s

namespace OnlyLinks

variable {s t : State} (h : OnlyLinks s t)
include h

theorem hkCount_eq : t.hkCount = s.hkCount := by rw [← h]
theorem mem_eq : t.mem = s.mem := by rw [← h]
theorem part_eq (p : Fin 4) : t.part p = s.part p := by rw [← h]; rfl
theorem core_eq (c : CoreId) : t.core c = s.core c := by rw [← h]; rfl
theorem cluster_eq (c : ClusterId) : t.cluster c = s.cluster c := by rw [← h]; rfl

end OnlyLinks

/-- A link with nothing to return and nothing new to acknowledge, or that is not ACTIVE, sends no IDLE frame. -/
theorem sendIdle_quiet (k : Link) (h : k.st ≠ .active ∨ (k.retReq = 0 ∧ k.retRsp = 0 ∧ k.retBulk = 0 ∧ k.retCtl = 0
    ∧ k.told = (k.rxSeq - 1, k.nak))) : k.sendIdle = k := by
  unfold Link.sendIdle
  obtain h | ⟨h1, h2, h3, h4, h5⟩ := h
  · simp [h]
  · simp [h1, h2, h3, h4, h5]

/-- What one link's turn keeps of another state of the links: the rest, and each link that sends nothing. -/
def KeepsQuiet (s t : State) : Prop := OnlyLinks s t ∧ ∀ l, (s.link l).sendIdle = s.link l → t.link l = s.link l

theorem KeepsQuiet.trans {s t u : State} (h : KeepsQuiet s t) (g : KeepsQuiet t u) : KeepsQuiet s u := by
  obtain ⟨hst, hlink⟩ := h
  obtain ⟨htu, glink⟩ := g
  unfold OnlyLinks at hst htu
  refine ⟨by unfold OnlyLinks; rw [← hst, ← htu], fun l hl => ?_⟩
  have heq := hlink l hl
  rw [glink l (by rw [heq, hl]), heq]

theorem updLink_keepsQuiet (s : State) (l : Fin 48) : KeepsQuiet s (s.updLink l Link.sendIdle) := by
  refine ⟨rfl, fun m hm => ?_⟩
  rw [State.updLink_eq, State.link_setLink]
  split
  · subst m
    exact hm
  · rfl

theorem foldl_keepsQuiet (ls : List (Fin 48)) (s : State) : KeepsQuiet s (ls.foldl (fun s l => s.updLink l Link.sendIdle) s) :=
  foldl_keeps KeepsQuiet (fun _ => ⟨rfl, fun _ _ => rfl⟩) (fun _ _ _ => .trans) _ updLink_keepsQuiet ls s

/-! ### The cycle -/

/-- With no request of the host waiting for a line, none is tried again. -/
theorem serveWaiting_idle (s : State) (h : s.hi.waiting = []) : s.serveWaiting = s := by
  rw [State.serveWaiting, h]
  show { s with hi := { s.hi with waiting := [] } } = s
  rw [← h]

theorem step_empty (s : State) (h : s.pending = []) : step s = .next s.tick := by
  rw [step, h]

/-- The state between the watchdogs' turns and the links'. -/
def State.watched (s : State) : State := (List.finRange 4).foldl State.watch { s with hkCount := s.hkCount + 1 }

theorem watched_hkCount (s : State) : s.watched.hkCount = s.hkCount + 1 := foldl_watch_hkCount _ _

theorem watched_counts (s : State) : OnlyCounts s s.watched ∧ ∀ p, (s.watched.part p).wdCount = s.nextCount p := by
  have hstart : OnlyCounts s { s with hkCount := s.hkCount + 1 } := ⟨rfl, fun _ => rfl⟩
  obtain ⟨hturns, hcount⟩ := foldl_watch (List.finRange 4) (List.nodup_finRange 4) { s with hkCount := s.hkCount + 1 }
  refine ⟨hstart.trans hturns, fun p => ?_⟩
  rw [State.watched, hcount p, if_pos (List.mem_finRange p), nextCount_congr hstart p rfl]

/-- In a cycle with no request of the host waiting, the links' turns follow the watchdogs'. -/
theorem tick_keepsQuiet (s : State) (h : s.hi.waiting = []) : KeepsQuiet s.watched s.tick := by
  have hidle : s.watched.serveWaiting = s.watched := serveWaiting_idle _ (by rw [(watched_counts s).1.hi_eq, h])
  have htick : s.tick = (List.finRange 48).foldl (fun s l => s.updLink l Link.sendIdle) s.watched.serveWaiting := rfl
  rw [htick, hidle]
  exact foldl_keepsQuiet _ _

end Sys2Proof.Machine

section
open Sys2Proof Sys2Proof.Machine

/-- Settles O19, from the turns of the partitions and of the links. -/
theorem emptyQueueTicks : Obligations.EmptyQueueTicks := by
  intro s hp hw
  obtain ⟨hu, hcount⟩ := watched_counts s
  obtain ⟨hrest, hquiet⟩ := tick_keepsQuiet s hw
  refine ⟨s.tick, step_empty s hp, ?_, fun p => ?_, ?_, fun c => ?_, fun k => ?_, fun l hl => ?_⟩
  · rw [hrest.hkCount_eq, watched_hkCount]
  · rw [hrest.part_eq, hcount p, State.nextCount, satAdd_one]
    simp only [Bool.and_eq_true]
  · rw [hrest.mem_eq, hu.mem_eq]
  · rw [hrest.core_eq, hu.core_eq]
  · rw [hrest.cluster_eq, hu.cluster_eq]
  · rw [← hu.link_eq] at hl ⊢
    exact hquiet l (sendIdle_quiet _ hl)

end

/-! ## Management commands that complete (R375, R377 to R380)

What a command that no check refuses does: its checks pass, its body runs under its tag, and its reply follows what the
body has sent. -/

namespace Sys2Proof.Machine

/-! ### Checks that pass -/

theorem lowest_eq_none : ∀ l : List Nat, lowest l = none ↔ l = []
  | [] => by simp [lowest]
  | n :: l => by
    simp only [lowest, reduceCtorEq, iff_false]
    split <;> simp

theorem firstBad_eq_none (cs : List (Nat × Bool)) : firstBad cs = none ↔ ∀ c ∈ cs, c.2 = false := by
  simp [firstBad, lowest_eq_none, List.filter_eq_nil_iff]

/-- Reserved bytes that are 0 fail no check. -/
theorem reservedBad_passes (k : Packet) (lo hi : Nat) (used : List (Nat × Nat))
    (h : ∀ o, lo ≤ o → o < hi → (∀ u ∈ used, o < u.1 ∨ u.1 + u.2 ≤ o) → pf k o 1 = 0) :
    ∀ c ∈ reservedBad k lo hi used, c.2 = false := by
  intro c hc
  simp only [reservedBad, List.mem_filterMap, List.mem_map, List.mem_range] at hc
  obtain ⟨o, ⟨n, hn, rfl⟩, ho⟩ := hc
  split at ho
  · cases ho
  · next hu =>
    cases ho
    refine decide_eq_false (not_not.2 (h _ (by omega) (by omega) fun u hm => ?_))
    by_contra hcon
    refine hu (List.any_eq_true.2 ⟨u, hm, ?_⟩)
    simp only [Bool.and_eq_true, decide_eq_true_eq]
    omega

/-- A packet of the command's form whose parameters pass passes the check. -/
theorem mgmtCheck_passes {k : Packet} {op : Nat} {usesPart : Bool} {used : List (Nat × Nat)} {cs : List (Nat × Bool)}
    (h : MgmtForm k op usesPart used) (hc : ∀ c ∈ cs, c.2 = false) : mgmtCheck k op usesPart used cs = none := by
  obtain ⟨hop, h1, h2, hpart, hres⟩ := h
  have hp : (if usesPart then decide (pf k 3 1 ≥ 4) else decide (pf k 3 1 ≠ 0)) = false := by
    cases usesPart <;> simpa using hpart
  have hlow : ∀ c ∈ reservedBad k 1 3 [], c.2 = false := reservedBad_passes k 1 3 [] fun o h3 h4 _ => by
    obtain rfl | rfl : o = 1 ∨ o = 2 := by omega
    exacts [h1, h2]
  have hbad : firstBad (reservedBad k 1 3 [] ++ [(3, if usesPart then decide (pf k 3 1 ≥ 4) else decide (pf k 3 1 ≠ 0))]
      ++ reservedBad k 8 56 used ++ cs) = none := by
    rw [firstBad_eq_none]
    simp only [List.mem_append, List.mem_singleton]
    rintro c (((hm | rfl) | hm) | hm)
    exacts [hlow c hm, hp, reservedBad_passes k 8 56 used hres c hm, hc c hm]
  rw [mgmtCheck, if_neg (not_not.2 hop)]
  dsimp only
  rw [hbad]

theorem notReady_ready {s : State} (h : s.hi.st = .ready) : s.notReady = none := by
  simp [State.notReady, wrongIf, h]

theorem wrongIf_false {b : Bool} (h : b = false) : wrongIf b = none := by simp [wrongIf, h]

/-! ### The reply -/

/-- What the completion leaves, with the tag of the command dropped. -/
def State.answered (s : State) (st : Status) (d : Word) : State :=
  { s with
    cxlOut := s.cxlOut ++ mgmtReply s st d
    hi := { s.hi with mcqHead := s.hi.mcqHead + 1, mcqTaken := s.hi.mcqHead + 1, cmdTag := 0 } }

theorem mgmtDone_eq (s : State) (st : Status) (d : Word) :
    s.mgmtDone st d = { s with
      cxlOut := s.cxlOut ++ mgmtReply s st d
      hi := { s.hi with mcqHead := s.hi.mcqHead + 1, mcqTaken := s.hi.mcqHead + 1 } } := by
  by_cases h1 : s.hi.mcqHeadWb = 0 <;> by_cases h2 : s.hi.mcqIrq = true <;>
    simp only [State.mgmtDone, State.toHost, State.sendIrq, mgmtReply, replyBytes, h1, h2, if_true, if_false, List.append_assoc,
      List.append_nil, List.cons_append, List.nil_append, Bool.false_eq_true]

@[simp] theorem State.part_answered (s : State) (st : Status) (d : Word) (p : Fin 4) : (s.answered st d).part p = s.part p := rfl
@[simp] theorem State.ctx_answered (s : State) (st : Status) (d : Word) (p : Fin 4) (x : Fin 16) :
    (s.answered st d).ctx p x = s.ctx p x := rfl
@[simp] theorem State.cluster_answered (s : State) (st : Status) (d : Word) (c : ClusterId) :
    (s.answered st d).cluster c = s.cluster c := rfl
@[simp] theorem State.core_answered (s : State) (st : Status) (d : Word) (c : CoreId) : (s.answered st d).core c = s.core c := rfl
@[simp] theorem State.link_answered (s : State) (st : Status) (d : Word) (l : Fin 48) : (s.answered st d).link l = s.link l := rfl
@[simp] theorem State.queue_answered (s : State) (st : Status) (d : Word) (q : Fin 256) :
    (s.answered st d).queue q = s.queue q := rfl
@[simp] theorem State.seqd_answered (s : State) (st : Status) (d : Word) (n : Nat) : (s.answered st d).seqd n = s.seqd n := rfl
@[simp] theorem State.mem_answered (s : State) (st : Status) (d : Word) : (s.answered st d).mem = s.mem := rfl
@[simp] theorem State.cores_answered (s : State) (st : Status) (d : Word) : (s.answered st d).cores = s.cores := rfl

/-- The state in which the body of a command runs: the command's tag is in force (R377). -/
def State.tagged (s : State) (k : Packet) : State := { s with hi := { s.hi with cmdTag := BitVec.ofNat 32 (pf k 4 4) } }

/-- A command that no check refuses, and whose body completes it. -/
theorem mgmt_replies {s : State} {k : Packet} {bad : Option (Status × Word)} {body : State → State} {u : State} {st : Status}
    {d : Word} (h : s.mcqReady = true) (hbad : bad = none) (hb : body (s.tagged k) = u.mgmtDone st d) :
    mgmt s k bad body = .next (u.answered st d) := by
  subst hbad
  have hb' : body { s with hi := { s.hi with cmdTag := BitVec.ofNat 32 (pf k 4 4) } } = u.mgmtDone st d := hb
  simp only [mgmt, h, if_true, hb', mgmtDone_eq]
  rfl

/-- The reply reads the queue's registers alone. -/
theorem answered_completes {s u : State} {pre : List HostReq} {st : Status} {d : Word} (hx : u.cxlOut = s.cxlOut ++ pre)
    (hh : ∀ tag, { u.hi with cmdTag := tag } = { s.hi with cmdTag := tag }) : Completes s (u.answered st d) pre st d := by
  have hh0 := hh 0
  obtain ⟨h1, h2, h3, h4, h5⟩ : u.hi.mcqBase = s.hi.mcqBase ∧ u.hi.mcqLog2n = s.hi.mcqLog2n ∧ u.hi.mcqHead = s.hi.mcqHead
      ∧ u.hi.mcqHeadWb = s.hi.mcqHeadWb ∧ u.hi.mcqIrq = s.hi.mcqIrq := by
    injection hh0
    and_intros <;> assumption
  refine ⟨?_, ?_⟩
  · simp [State.answered, mgmtReply, hx, h1, h2, h3, h4, h5]
  · simp [State.answered, h3]

theorem answered_completes_tagged {s u : State} {k : Packet} {pre : List HostReq} {st : Status} {d : Word}
    (hx : u.cxlOut = s.cxlOut ++ pre) (hh : u.hi = (s.tagged k).hi) : Completes s (u.answered st d) pre st d :=
  answered_completes hx (fun tag => by rw [hh]; rfl)

theorem answered_completes_alone {s u : State} {st : Status} {d : Word} (hx : u.cxlOut = s.cxlOut)
    (hh : ∀ tag, { u.hi with cmdTag := tag } = { s.hi with cmdTag := tag }) : Completes s (u.answered st d) [] st d :=
  answered_completes (hx.trans (List.append_nil _).symm) hh

end Sys2Proof.Machine

namespace Sys2Proof.Machine

/-! ### Changes of partitions alone -/

/-- Nothing changes but partitions. -/
def OnlyParts (s t : State) : Prop := { t with parts := s.parts } = s

theorem OnlyParts.trans {s t u : State} (h : OnlyParts s t) (g : OnlyParts t u) : OnlyParts s u := by
  unfold OnlyParts at *
  rw [← h, ← g]

theorem OnlyParts.rest {s t : State} (h : OnlyParts s t) : t = { s with parts := t.parts } := by
  unfold OnlyParts at h
  rw [← h]

theorem OnlyParts.cluster_eq {s t : State} (h : OnlyParts s t) (c : ClusterId) : t.cluster c = s.cluster c := by rw [h.rest]; rfl
theorem OnlyParts.clusters_eq {s t : State} (h : OnlyParts s t) : t.clusters = s.clusters := by rw [h.rest]
theorem OnlyParts.cxlOut_eq {s t : State} (h : OnlyParts s t) : t.cxlOut = s.cxlOut := by rw [h.rest]
theorem OnlyParts.hi_eq {s t : State} (h : OnlyParts s t) : t.hi = s.hi := by rw [h.rest]
theorem OnlyParts.mem_eq {s t : State} (h : OnlyParts s t) : t.mem = s.mem := by rw [h.rest]
theorem OnlyParts.cores_eq {s t : State} (h : OnlyParts s t) : t.cores = s.cores := by rw [h.rest]

theorem updPart_onlyParts (s : State) (p : Fin 4) (f : Part → Part) : OnlyParts s (s.updPart p f) := rfl

theorem foldl_updPart (f : Part → Part) (ps : List (Fin 4)) (hn : ps.Nodup) (s : State) :
    OnlyParts s (ps.foldl (fun s p => s.updPart p f) s)
      ∧ ∀ p, (ps.foldl (fun s p => s.updPart p f) s).part p = if p ∈ ps then f (s.part p) else s.part p := by
  induction ps generalizing s with
  | nil => exact ⟨rfl, fun p => by simp⟩
  | cons q ps ih =>
    obtain ⟨hq, hn⟩ := List.nodup_cons.1 hn
    obtain ⟨hrest, hpart⟩ := ih hn (s.updPart q f)
    refine ⟨(updPart_onlyParts s q f).trans hrest, fun p => ?_⟩
    rw [List.foldl_cons, hpart]
    by_cases hp : p = q
    · subst hp
      simp [hq]
    · simp [hp]

/-! ### Settings (R31 to R33, R39, R458) -/

/-- The roles of the table are those that the firmware knows (R32). -/
theorem roleTable_eq (n : Nat) (e : Nat × Nat) (h : roleTable[n]? = some e) : n ≤ 4 ∧ e = (roleShare n, roleThin n) := by
  obtain ⟨hn, he⟩ := List.getElem?_eq_some_iff.1 h
  have hn' : n < 5 := hn
  interval_cases n <;> exact ⟨by decide, he.symm⟩

/-- The power settings of a role (R31 to R33). -/
def Power.ofRole (w : Power) (role : Nat) : Power :=
  { w with
    role := BitVec.ofNat 3 role, override := false, spill := false, shareC := BitVec.ofNat 7 (roleShare role)
    budget := 3200, phase := 1 }

theorem setRole_parts (s : State) (role : Nat) :
    OnlyParts { s with pw := s.pw.ofRole role } (s.setRole role)
      ∧ ∀ p, (s.setRole role).part p = { s.part p with thinMax := BitVec.ofNat 4 (roleThin role) } := by
  obtain ⟨hrest, hpart⟩ := foldl_updPart (fun q => { q with thinMax := BitVec.ofNat 4 (roleThin role) }) (List.finRange 4)
    (List.nodup_finRange 4) { s with pw := s.pw.ofRole role }
  exact ⟨hrest, fun p => (hpart p).trans (if_pos (List.mem_finRange p))⟩

theorem exec_setRole {s : State} {k : Packet} (hr : s.mcqReady = true) (hready : s.hi.st = .ready)
    (hf : MgmtForm k 0x02 false [(8, 1)]) (hn : pf k 8 1 ≤ 4) :
    exec (.setRole k) s = .next (((s.tagged k).setRole (pf k 8 1)).answered .ok 0) := by
  show execSetRole k s = _
  unfold execSetRole
  refine mgmt_replies hr ?_ ?_
  case refine_2 => rfl
  rw [mgmtCheck_passes hf (by simpa using hn), notReady_ready hready]
  rfl

/-- The settings of a `POWER_SPLIT` (R33). -/
def Power.splitBy (w : Power) (k : Packet) : Power :=
  { w with
    override := true, spill := decide (pf k 9 1 = 1), shareC := BitVec.ofNat 7 (pf k 8 1)
    budget := BitVec.ofNat 12 (pf k 10 2), phase := 1 }

theorem exec_powerSplit {s : State} {k : Packet} (hr : s.mcqReady = true) (hready : s.hi.st = .ready)
    (hf : MgmtForm k 0x10 false [(8, 1), (9, 1), (10, 2)]) (h10 : 10 ≤ pf k 8 1) (h90 : pf k 8 1 ≤ 90) (h5 : pf k 8 1 % 5 = 0)
    (hspill : pf k 9 1 ≤ 1) (hlo : 1600 ≤ pf k 10 2) (hhi : pf k 10 2 ≤ 3200) (h25 : pf k 10 2 % 25 = 0) :
    exec (.powerSplit k) s = .next (({ s.tagged k with pw := s.pw.splitBy k } : State).answered .ok 0) := by
  have hbit : bit (pf k 9 1) 0 = decide (pf k 9 1 = 1) := by
    obtain h | h : pf k 9 1 = 0 ∨ pf k 9 1 = 1 := by omega
    all_goals simp [bit, h]
  rw [Power.splitBy, ← hbit]
  show execPowerSplit k s = _
  unfold execPowerSplit
  refine mgmt_replies hr ?_ ?_
  case refine_2 => rfl
  rw [mgmtCheck_passes hf, notReady_ready hready]
  · rfl
  · simp only [List.mem_cons, List.not_mem_nil, or_false]
    rintro c (rfl | rfl | rfl) <;> simp <;> omega

/-- The thresholds that a `THERMAL_CONFIG` gives its group (R458). -/
def Thermal.configured (th : Thermal) (k : Packet) : Thermal :=
  let th := { th with hyst := BitVec.ofNat 4 (pf k 11 1) }
  if pf k 8 1 = 0 then { th with cmpWarn := BitVec.ofNat 8 (pf k 9 1), cmpThrottle := BitVec.ofNat 8 (pf k 10 1) }
  else { th with dramThrottle := BitVec.ofNat 8 (pf k 10 1) }

theorem exec_thermalConfig {s : State} {k : Packet} (hr : s.mcqReady = true) (hready : s.hi.st = .ready)
    (hf : MgmtForm k 0x11 false [(8, 1), (9, 1), (10, 1), (11, 1)]) (hlo : 1 ≤ pf k 11 1) (hhi : pf k 11 1 ≤ 10)
    (hg : pf k 8 1 = 0 ∧ 60 ≤ pf k 9 1 ∧ pf k 9 1 ≤ 95 ∧ pf k 9 1 < pf k 10 1 ∧ 65 ≤ pf k 10 1 ∧ pf k 10 1 ≤ 100
      ∨ pf k 8 1 = 1 ∧ pf k 9 1 = 0 ∧ 60 ≤ pf k 10 1 ∧ pf k 10 1 ≤ 95) :
    exec (.thermalConfig k) s = .next (({ s.tagged k with th := s.th.configured k } : State).answered .ok 0) := by
  show execThermalConfig k s = _
  unfold execThermalConfig
  refine mgmt_replies hr ?_ ?_
  case refine_2 => rfl
  rw [mgmtCheck_passes hf, notReady_ready hready]
  · rfl
  · simp only [List.mem_cons, List.not_mem_nil, or_false]
    rintro c (rfl | rfl | rfl | rfl) <;> obtain ⟨hg, hw⟩ | ⟨hg, hw⟩ := hg <;> simp [hg] <;> omega

end Sys2Proof.Machine

section
open Sys2Proof Sys2Proof.Machine

/-- Settles O27, from the state that each setting leaves before its reply. -/
theorem rolePowerAndHeatSettings : Obligations.RolePowerAndHeatSettings := by
  intro s k hr hready
  refine ⟨fun hf e he => ?_, fun hf h10 h90 h5 hspill hlo hhi h25 => ?_, fun hf hlo hhi => ⟨?_, ?_⟩⟩
  · obtain ⟨hn, rfl⟩ := roleTable_eq _ e he
    obtain ⟨hrest, hpart⟩ := setRole_parts (s.tagged k) (pf k 8 1)
    refine ⟨_, exec_setRole hr hready hf hn, ?_, ?_, fun p => ?_, ?_⟩
    case refine_3 => rw [State.part_answered, hpart]; rfl
    all_goals rw [hrest.rest]
    · exact answered_completes_alone rfl (fun _ => rfl)
    · rfl
    · rfl
  · exact ⟨_, exec_powerSplit hr hready hf h10 h90 h5 hspill hlo hhi h25,
      answered_completes_alone rfl (fun _ => rfl), rfl, rfl⟩
  · intro hg h60 h95 hlt h65 h100
    refine ⟨_, exec_thermalConfig hr hready hf hlo hhi (.inl ⟨hg, h60, h95, hlt, h65, h100⟩),
      answered_completes_alone rfl (fun _ => rfl), ?_, rfl⟩
    show s.th.configured k = _
    simp [Thermal.configured, hg]
  · intro hg hw h60 h95
    refine ⟨_, exec_thermalConfig hr hready hf hlo hhi (.inr ⟨hg, hw, h60, h95⟩),
      answered_completes_alone rfl (fun _ => rfl), ?_, rfl⟩
    show s.th.configured k = _
    simp [Thermal.configured, hg]

end

namespace Sys2Proof.Machine

/-! ### Commands for a partition's sequencer (R26, R27) -/

/-- A partition after an arrival there (R27). -/
def Part.arrived (q : Part) (h : Held) : Part :=
  match q.pll with
  | .running => q
  | .stopping => { q with pll := .running }
  | .stopped => { q with pll := .starting, restarts := satAdd q.restarts 1, heldArr := q.heldArr ++ [h] }
  | .starting => { q with heldArr := q.heldArr ++ [h] }

theorem part_arriveHeld (s : State) (p : Fin 4) (h : Held) (o : Fin 4) :
    (s.arriveHeld p h).part o = if o = p then (s.part p).arrived h else s.part o := by
  rw [State.arriveHeld, State.updPart_eq, State.part_setPart]
  rfl

theorem arriveHeld_onlyParts (s : State) (p : Fin 4) (h : Held) : OnlyParts s (s.arriveHeld p h) := rfl

/-- A partition once an arrival has reached it: a stop that was under way is cancelled (R27). -/
def Part.awake (q : Part) : Part := { q with pll := .running }

theorem Part.not_held {q : Part} (h : q.reached) : ¬ (q.pll = .stopped ∨ q.pll = .starting) := by
  obtain h | h := h <;> simp [h]

/-- An arrival at a partition whose PLL runs, or that is being stopped, brings it to run and holds nothing. -/
theorem Part.arrived_reached {q : Part} (hq : q.reached) (h : Held) : q.arrived h = q.awake := by
  obtain hq | hq := hq
  · simp only [Part.arrived, Part.awake, hq]
    rw [← hq]
  · simp only [Part.arrived, Part.awake, hq]

/-- An arrival at a partition whose PLL is stopped or starting starts the PLL, and is held. -/
theorem Part.arrived_held {q : Part} (hq : q.pll = .stopped ∨ q.pll = .starting) (h : Held) :
    (q.arrived h).pll = .starting ∧ (q.arrived h).heldArr = q.heldArr ++ [h] := by
  obtain hq | hq := hq <;> simp [Part.arrived, hq]

/-- The state in which the body of a command for a partition's sequencer runs. -/
def State.called (s : State) (k : Packet) (p : Fin 4) : State := (s.tagged k).arrive p .hkcCommand

theorem called_onlyParts (s : State) (k : Packet) (p : Fin 4) : OnlyParts (s.tagged k) (s.called k p) := rfl

theorem part_called {s : State} {p : Fin 4} (hp : (s.part p).reached) (k : Packet) (o : Fin 4) :
    (s.called k p).part o = if o = p then (s.part p).awake else s.part o := by
  rw [← Part.arrived_reached hp]
  exact part_arriveHeld (s.tagged k) p _ o

theorem called_updPart (s : State) (k : Packet) (p : Fin 4) (f : Part → Part) :
    OnlyParts (s.tagged k) ((s.called k p).updPart p f) := (called_onlyParts s k p).trans (updPart_onlyParts _ p f)

/-- A command whose body changes partitions alone changes those and what its reply changes. -/
theorem answered_onlyParts {s u : State} {k : Packet} {st : Status} {d : Word} (h : OnlyParts (s.tagged k) u) :
    { u.answered st d with parts := s.parts, hi := s.hi, cxlOut := s.cxlOut } = s := by
  rw [h.rest]
  rfl

/-- A command that no check refuses, and that reaches its partition. -/
theorem mgmtTo_replies {s : State} {p : Fin 4} {k : Packet} {bad : Option (Status × Word)} {body : State → State} {u : State}
    {st : Status} {d : Word} (h : s.mcqReady = true) (hp : (s.part p).reached) (hbad : bad = none)
    (hb : body (s.called k p) = u.mgmtDone st d) : mgmtTo s p k bad body = .next (u.answered st d) := by
  rw [mgmtTo, if_neg (by simpa using fun _ _ => Part.not_held hp)]
  refine mgmt_replies h hbad ?_
  exact hb

/-- A command that no check refuses, and whose partition's PLL does not run. -/
theorem mgmtTo_held {s : State} {p : Fin 4} {k : Packet} {bad : Option (Status × Word)} {body : State → State}
    (h : s.mcqReady = true) (hp : (s.part p).pll = .stopped ∨ (s.part p).pll = .starting) (hbad : bad = none) :
    ∃ t, mgmtTo s p k bad body = .next t ∧ HeldForPll s t p k := by
  obtain ⟨hpll, harr⟩ := Part.arrived_held hp (.command k)
  have hpart (o : Fin 4) : (({ s with hi := { s.hi with mcqWait := true } } : State).arriveHeld p (.command k)).part o
      = if o = p then (s.part p).arrived (.command k) else s.part o := part_arriveHeld _ p _ o
  refine ⟨_, if_pos ?_, ?_, ?_, rfl, fun o ho => ?_, rfl⟩
  · simpa [h, hbad] using hp
  · rw [hpart, if_pos rfl, hpll]
  · rw [hpart, if_pos rfl, harr]
  · rw [hpart, if_neg ho]

/-- A command that a check refuses completes with the check's status, with no other effect. -/
theorem mgmt_refuses {s : State} {k : Packet} {bad : Option (Status × Word)} {body : State → State} {st : Status} {d : Word}
    (h : s.mcqReady = true) (hbad : bad = some (st, d)) (hst : st ≠ .badOpcode) :
    ∃ t, mgmt s k bad body = .next t ∧ Completes s t [] st d ∧ t.hk = s.hk := by
  subst hbad
  refine ⟨_, mgmt_refused s k st d body h (.inl hst), ?_, ?_⟩ <;> rw [mgmtDone_eq]
  exact ⟨by simp, rfl⟩

/-! ### `ERRINJ_ARM` (R403, R404) -/

/-- The checks of `ERRINJ_ARM` on its parameters. -/
def injectChecks (k : Packet) : List (Nat × Bool) :=
  if 8 < pf k 8 1 then [(8, true)]
  else [3, 9, 10, 11, 12, 13, 14, 15].map (fun o => match (injectFields (pf k 8 1)).find? (fun f => f.1 = o) with
      | some f => (o, decide (f.2 < pf k o 1))
      | none => (o, decide (pf k o 1 ≠ 0)))
    ++ [(16, pf k 16 8 = 0 || decide (2 ^ (if parityTarget (pf k 8 1) then 8 else 39) ≤ pf k 16 8))]

theorem execErrinjArm_eq (k : Packet) (s : State) : exec (.errinjArm k) s
    = mgmt s k (mgmtCheck k 0x13 true [(8, 8), (16, 8)] (injectChecks k)
        <|> (if s.hk.injection then none else some (.denied, 0)) <|> s.notReady
        <|> (if s.hk.flips.get 0 (injectKey k) = 0 then none else some (.busy, 0)))
      (fun s => ({ s with hk := { s.hk with flips := s.hk.flips.set 0 (injectKey k) (BitVec.ofNat 64 (pf k 16 8)) } } : State).mgmtDone .ok 0) :=
  rfl

/-- A target, its fields within their ranges and those that it does not use 0, and a mask of its width pass. -/
theorem injectChecks_pass {k : Packet} (h8 : pf k 8 1 ≤ 8)
    (hf : ∀ o ∈ [3, 9, 10, 11, 12, 13, 14, 15], match (injectFields (pf k 8 1)).find? (fun f => f.1 = o) with
      | some f => pf k o 1 ≤ f.2
      | none => pf k o 1 = 0)
    (hpos : 0 < pf k 16 8) (hlt : pf k 16 8 < (if 5 ≤ pf k 8 1 then 2 ^ 8 else 2 ^ 39)) :
    ∀ c ∈ injectChecks k, c.2 = false := by
  intro c hc
  rw [injectChecks, if_neg (by omega), List.mem_append, List.mem_map, List.mem_singleton] at hc
  obtain ⟨o, ho, rfl⟩ | rfl := hc
  · have := hf o ho
    split <;> simp_all
  · have hw : 2 ^ (if parityTarget (pf k 8 1) then 8 else 39) = if 5 ≤ pf k 8 1 then 2 ^ 8 else 2 ^ 39 := by
      simp only [parityTarget, decide_eq_true_eq]
      split <;> rfl
    rw [← hw] at hlt
    simp only [Bool.or_eq_false_iff, decide_eq_false_iff_not]
    omega

/-! ### `SEQ_TABLE_SETUP` (R243) -/

/-- Two runs of bytes that lie apart do not meet. -/
theorem Area.meets_apart {a : Area} {b n : Nat} (h : a.base + a.size ≤ b ∨ b + n ≤ a.base) : a.meets b n = false := by
  simp only [Area.meets, Bool.and_eq_false_iff, decide_eq_false_iff_not]
  omega

/-- A partition may take commands on its tables. -/
theorem Part.open_passes {q : Part} (h : q.open') : (q.st ≠ .running && q.st ≠ .stopped : Bool) = false := by
  obtain h | h := h <;> simp [h]

/-- What `SEQ_TABLE_SETUP` writes. -/
def Part.withTable (q : Part) (k : Packet) : Part :=
  { q with
    seqFirst := BitVec.ofNat 14 (pf k 16 2), seqCount := BitVec.ofNat 15 (pf k 18 2), poolBase := BitVec.ofNat 40 (pf k 8 5)
    poolSize := BitVec.ofNat 16 (pf k 20 2) }

theorem Part.withTable_toNat (q : Part) {k : Packet} (hf : pf k 16 2 < 2 ^ 14) (hc : pf k 18 2 < 2 ^ 15) (hp : pf k 8 5 < 2 ^ 40)
    (hs : pf k 20 2 < 2 ^ 16) :
    (q.withTable k).seqFirst.toNat = pf k 16 2 ∧ (q.withTable k).seqCount.toNat = pf k 18 2
      ∧ (q.withTable k).poolBase.toNat = pf k 8 5 ∧ (q.withTable k).poolSize.toNat = pf k 20 2 := by
  simp only [Part.withTable, BitVec.toNat_ofNat, Nat.mod_eq_of_lt hf, Nat.mod_eq_of_lt hc, Nat.mod_eq_of_lt hp, Nat.mod_eq_of_lt hs,
    and_self]

/-- The descriptor range of a packet and that of a partition meet. -/
def State.seqsMeet (s : State) (k : Packet) (o : Fin 4) : Bool :=
  o ≠ mgmtPart k && decide (pf k 16 2 < (s.part o).seqFirst.toNat + (s.part o).seqCount.toNat)
    && decide ((s.part o).seqFirst.toNat < pf k 16 2 + pf k 18 2) && pf k 18 2 ≠ 0 && (s.part o).seqCount ≠ 0

theorem seqsMeet_apart {s : State} {k : Packet} {o : Fin 4}
    (h : o ≠ mgmtPart k → (s.part o).seqCount = 0 ∨ pf k 18 2 = 0 ∨ pf k 16 2 + pf k 18 2 ≤ (s.part o).seqFirst.toNat
      ∨ (s.part o).seqFirst.toNat + (s.part o).seqCount.toNat ≤ pf k 16 2) : s.seqsMeet k o = false := by
  by_contra hm
  simp only [State.seqsMeet, Bool.not_eq_false, Bool.and_eq_true, decide_eq_true_eq] at hm
  obtain ⟨⟨⟨⟨ho, h1⟩, h2⟩, h3⟩, h4⟩ := hm
  obtain hc | hc | hc | hc := h ho
  · exact h4 hc
  all_goals omega

/-- The place of a pool in the reserved area is refused. -/
def State.poolRefused (s : State) (k : Packet) : Bool :=
  decide (pf k 8 5 % 2 ^ 21 ≠ 0) || pf k 20 2 = 0 || decide (pf k 8 5 < s.reserveBase (mgmtPart k))
    || decide (s.partSize (mgmtPart k) < pf k 8 5 + pf k 20 2 * 2 ^ 21)
    || (s.part (mgmtPart k)).allocs.any (fun a => a.meets (pf k 8 5) (pf k 20 2 * 2 ^ 21))

theorem execSeqTableSetup_eq (k : Packet) (s : State) : exec (.seqTableSetup k) s
    = mgmtTo s (mgmtPart k) k (mgmtCheck k 0x14 true [(8, 8), (16, 2), (18, 2), (20, 2)]
        [(8, decide (pf k 13 3 ≠ 0)), (8, s.poolRefused k), (16, decide (16383 < pf k 16 2)), (18, decide (16384 < pf k 18 2)),
          (16, decide (16384 < pf k 16 2 + pf k 18 2) || (List.finRange 4).any (s.seqsMeet k))] <|> s.notReady
        <|> wrongIf (((s.part (mgmtPart k)).st ≠ .running && (s.part (mgmtPart k)).st ≠ .stopped)
          || s.seqs.any (fun e => (s.part (mgmtPart k)).inRange e.1 && e.2.st ≠ 0)))
      (fun s => (s.updPart (mgmtPart k) (fun q => q.withTable k)).mgmtDone .ok 0) := rfl

theorem pf_lt (k : Packet) (o w : Nat) : pf k o w < 2 ^ (8 * w) := Nat.mod_lt _ (by positivity)

end Sys2Proof.Machine

section
open Sys2Proof Sys2Proof.Machine

/-- Settles O28, from the checks of both commands and the state that each leaves. -/
theorem flipMasksAndSequenceTables : Obligations.FlipMasksAndSequenceTables := by
  intro s k hr hready
  refine ⟨fun hf h8 hfields hpos hlt => ?_, fun hf hopen hpll h13 hal hsz hlo hhi hallocs hfirst hend hapart hfree => ?_⟩
  · have hcheck : mgmtCheck k 0x13 true [(8, 8), (16, 8)] (injectChecks k) = none :=
      mgmtCheck_passes hf (injectChecks_pass h8 hfields hpos hlt)
    refine ⟨fun hoff => ?_, fun hon hunarmed => ?_⟩
    · rw [execErrinjArm_eq, hcheck, hoff]
      exact mgmt_refuses hr rfl (by decide)
    · refine ⟨({ s.tagged k with hk := { s.hk with flips := s.hk.flips.set 0 (injectKey k) (BitVec.ofNat 64 (pf k 16 8)) } } :
        State).answered .ok 0, ?_, answered_completes_alone rfl fun _ => rfl, fun n => Tbl.get_set .., rfl⟩
      rw [execErrinjArm_eq, hcheck, hon, notReady_ready hready, hunarmed]
      exact mgmt_replies hr rfl rfl
  · obtain ⟨hpool, hpsize⟩ : pf k 8 5 < 2 ^ 40 ∧ pf k 20 2 < 2 ^ 16 := ⟨pf_lt k 8 5, pf_lt k 20 2⟩
    have hnotBad : s.poolRefused k = false := by
      have hmeet : (s.part (mgmtPart k)).allocs.any (fun a => a.meets (pf k 8 5) (pf k 20 2 * 2 ^ 21)) = false := by
        simpa using fun a ha => Area.meets_apart (hallocs a ha)
      simp only [State.poolRefused, hmeet, Bool.or_false, Bool.or_eq_false_iff, decide_eq_false_iff_not]
      omega
    have hmeets : (List.finRange 4).any (s.seqsMeet k) = false := by
      simpa using fun o => seqsMeet_apart (hapart o)
    have hseqs : s.seqs.any (fun e => (s.part (mgmtPart k)).inRange e.1 && e.2.st ≠ 0) = false := by
      simpa using fun a b hab hin => hfree (a, b) hab hin
    have hpart (o : Fin 4) : ((s.called k (mgmtPart k)).updPart (mgmtPart k) (fun q => q.withTable k)).part o
        = if o = mgmtPart k then (s.part (mgmtPart k)).awake.withTable k else s.part o := by
      simp only [State.updPart_eq, State.part_setPart, part_called (.inl hpll)]
      split <;> simp [*]
    refine ⟨((s.called k (mgmtPart k)).updPart (mgmtPart k) (fun q => q.withTable k)).answered .ok 0, ?_,
      answered_completes_alone rfl fun _ => rfl, ?_⟩
    · rw [execSeqTableSetup_eq, mgmtCheck_passes hf, notReady_ready hready, Part.open_passes hopen, hseqs]
      · exact mgmtTo_replies hr (.inl hpll) rfl rfl
      · simp [h13, hnotBad, hmeets]
        omega
    · simp only [State.part_answered, hpart, if_true]
      obtain ⟨h1, h2, h3, h4⟩ := Part.withTable_toNat (s.part (mgmtPart k)).awake (k := k) (by omega) (by omega) hpool hpsize
      exact ⟨h1, h2, h3, h4, fun o ho => if_neg ho, answered_onlyParts (called_updPart s k _ _)⟩
end

namespace Sys2Proof.Machine

/-! ### Work queues (R374, R380) -/

/-- A choice among something chooses it. -/
theorem choose_mem {α : Type} (s : State) {l : List α} (h : l ≠ []) : ∃ a ∈ l, s.choose l = some a := by
  have hlen : 0 < l.length := List.length_pos_iff.2 h
  have hlt : Config.pick s.freeCtr % max 1 l.length < l.length := by
    rw [Nat.max_eq_right hlen]
    exact Nat.mod_lt _ hlen
  exact ⟨l[Config.pick s.freeCtr % max 1 l.length], List.getElem_mem hlt, List.getElem?_eq_getElem hlt⟩

/-- The numbers of queues that do not exist. -/
def State.freeQueues (s : State) : List (Fin 256) := (List.finRange 256).filter (fun q => (s.queue q).isNone)

theorem mem_freeQueues (s : State) (q : Fin 256) : q ∈ s.freeQueues ↔ s.queue q = none := by
  simp [State.freeQueues]

/-- The queue that a `QUEUE_CREATE` makes. -/
def newQueue (k : Packet) : WorkQ :=
  ⟨mgmtPart k, ctxAt k 24, ⟨pf k 26 1 % 8, by omega⟩, pa k 8, pf k 25 1, pa k 16, 0, 0, 0⟩

theorem execQueueCreate_eq (k : Packet) (s : State) : exec (.queueCreate k) s
    = mgmtTo s (mgmtPart k) k (mgmtCheck k 0x09 true [(8, 8), (16, 8), (24, 1), (25, 1), (26, 1)]
        [addrBad k 8, (8, decide (pa k 8 % 4096 ≠ 0)), addrBad k 16, (16, decide (pa k 16 % 8 ≠ 0)), (24, decide (15 < pf k 24 1)),
          (25, decide (pf k 25 1 < 4) || decide (16 < pf k 25 1)), (26, decide (7 < pf k 26 1))]
        <|> s.notReady
        <|> wrongIf ((s.ctx (mgmtPart k) (ctxAt k 24)).st = .free || (s.ctx (mgmtPart k) (ctxAt k 24)).st = .faulted)
        <|> (if s.freeQueues.isEmpty then some (.noResource, 0) else none))
      (fun t => match t.choose s.freeQueues with
        | none => t
        | some q => ((t.draw 1).setQueue q (some (newQueue k))).mgmtDone .ok (BitVec.ofNat 32 q.val)) := rfl

/-- The check of a `QUEUE_DESTROY` on its queue's state. -/
def State.queueOpen (s : State) (q : Fin 256) : Bool :=
  match s.queue q with
  | none => true
  | some w => w.head ≠ w.tail && (s.ctx w.part w.ctx).st ≠ .faulted

theorem queueOpen_drained {s : State} {q : Fin 256} {w : WorkQ} (hq : s.queue q = some w)
    (h : w.head = w.tail ∨ (s.ctx w.part w.ctx).st = .faulted) : s.queueOpen q = false := by
  simp only [State.queueOpen, hq]
  obtain h | h := h <;> simp [h]

theorem execQueueDestroy_eq (k : Packet) (s : State) (q : Fin 256) (hq : pf k 8 1 = q.val) : exec (.queueDestroy k) s
    = mgmt s k (mgmtCheck k 0x0A false [(8, 1)] [] <|> s.notReady <|> wrongIf (s.queueOpen q))
      (fun t => (({ t with pkts := t.pkts.filter (fun j => j.q ≠ q.val) } : State).setQueue q none).mgmtDone .ok 0) := by
  obtain ⟨n, hn⟩ := q
  subst hq
  rfl

end Sys2Proof.Machine

section
open Sys2Proof Sys2Proof.Machine

/-- Settles O33, from the number that a creation chooses among the free ones. -/
theorem workQueuesComeAndGo : Obligations.WorkQueuesComeAndGo := by
  intro s k hr hready
  refine ⟨fun hf h14 h8 h22 h16 h24 h25 h25' h26 hfree hfaulted hroom hpll => ?_, fun q w hf hn hq hdone => ?_⟩
  · obtain ⟨q0, hq0⟩ := hroom
    have hne : s.freeQueues ≠ [] := List.ne_nil_of_mem ((mem_freeQueues s q0).2 hq0)
    obtain ⟨q, hq, hchoose⟩ := choose_mem (s.called k (mgmtPart k)) hne
    have hnone : s.queue q = none := (mem_freeQueues s q).1 hq
    have hqueue (o : Fin 256) : (((s.called k (mgmtPart k)).draw 1).setQueue q (some (newQueue k))).queue o
        = if o = q then some (newQueue k) else s.queue o := State.queue_setQueue ..
    refine ⟨(((s.called k (mgmtPart k)).draw 1).setQueue q (some (newQueue k))).answered .ok (BitVec.ofNat 32 q.val), q,
      newQueue k, ?_, answered_completes_alone rfl fun _ => rfl, hnone, ?_, fun o ho => ?_, rfl, rfl, ?_, rfl, rfl, rfl, rfl, rfl,
      rfl, rfl, rfl⟩
    · rw [execQueueCreate_eq, mgmtCheck_passes hf, notReady_ready hready, wrongIf_false, if_neg (by simpa using hne)]
      · refine mgmtTo_replies hr hpll rfl ?_
        simp only [hchoose]
      · simp [hfree, hfaulted]
      · simp [addrBad, h14, h8, h22, h16]
        omega
    · rw [State.queue_answered, hqueue, if_pos rfl]
    · rw [State.queue_answered, hqueue, if_neg ho]
    · exact Nat.mod_eq_of_lt (by omega)
  · have hqueue (o : Fin 256) : (({ s.tagged k with pkts := s.pkts.filter (fun j => j.q ≠ q.val) } : State).setQueue q none).queue o
        = if o = q then none else s.queue o := State.queue_setQueue ..
    refine ⟨(({ s.tagged k with pkts := s.pkts.filter (fun j => j.q ≠ q.val) } : State).setQueue q none).answered .ok 0, ?_,
      answered_completes_alone rfl fun _ => rfl, ?_, fun o ho => ?_, rfl, rfl⟩
    · rw [execQueueDestroy_eq k s q hn, mgmtCheck_passes hf (by simp), notReady_ready hready, wrongIf_false (queueOpen_drained hq hdone)]
      refine mgmt_replies hr rfl ?_
      rfl
    · rw [State.queue_answered, hqueue, if_pos rfl]
    · rw [State.queue_answered, hqueue, if_neg ho]

end

namespace Sys2Proof.Machine

/-! ## The scheduler (R340 to R342, R352) -/

/-! ### Changes of the contexts of one partition -/

/-- Nothing changes but contexts of one partition, and records. -/
structure OnlyCtxs (p : Fin 4) (s t : State) : Prop where
  rest : { t with parts := s.parts, cxlOut := s.cxlOut, evq := s.evq, evSeq := s.evSeq, evLate := s.evLate } = s
  others : ∀ o, o ≠ p → t.part o = s.part o
  part : { t.part p with ctxs := (s.part p).ctxs } = s.part p

namespace OnlyCtxs

variable {p : Fin 4} {s t u : State}

theorem refl (p : Fin 4) (s : State) : OnlyCtxs p s s := ⟨rfl, fun _ _ => rfl, rfl⟩

theorem trans (h : OnlyCtxs p s t) (g : OnlyCtxs p t u) : OnlyCtxs p s u :=
  ⟨by rw [← h.rest, ← g.rest], fun o ho => (g.others o ho).trans (h.others o ho), by rw [← h.part, ← g.part]⟩

theorem of_records (h : OnlyRecords s t) : OnlyCtxs p s t := by
  have hp : t.parts = s.parts := h.counted.parts_eq
  refine ⟨?_, fun o _ => State.part_of_parts s t hp o, by rw [State.part_of_parts s t hp]⟩
  unfold OnlyRecords at h
  rw [← h]

theorem of_updCtx (p : Fin 4) (s : State) (x : Fin 16) (f : Ctx → Ctx) : OnlyCtxs p s (s.updCtx p x f) := by
  refine ⟨rfl, fun o ho => ?_, ?_⟩ <;> rw [State.updCtx_eq, State.setCtx_eq, State.part_setPart]
  · exact if_neg ho
  · rw [if_pos rfl]
    rfl

theorem wqs_eq (h : OnlyCtxs p s t) : t.wqs = s.wqs := by rw [← h.rest]
theorem mem_eq (h : OnlyCtxs p s t) : t.mem = s.mem := by rw [← h.rest]
theorem cores_eq (h : OnlyCtxs p s t) : t.cores = s.cores := by rw [← h.rest]
theorem hi_eq (h : OnlyCtxs p s t) : t.hi = s.hi := by rw [← h.rest]
theorem serveQ_eq (h : OnlyCtxs p s t) : (t.part p).serveQ = (s.part p).serveQ := by rw [← h.part]
theorem st_eq (h : OnlyCtxs p s t) : (t.part p).st = (s.part p).st := by rw [← h.part]
theorem cur_eq (h : OnlyCtxs p s t) : (t.part p).cur = (s.part p).cur := by rw [← h.part]

theorem hasWork_eq (h : OnlyCtxs p s t) (x : Fin 16) : t.hasWork p x = s.hasWork p x := by
  simp only [State.hasWork, State.queuesOf, h.wqs_eq, h.serveQ_eq]

end OnlyCtxs

/-- A loop over contexts, each turn of which changes its own context alone. -/
theorem foldl_ctxs (p : Fin 4) (s : State) (f : State → Fin 16 → State) (g : Fin 16 → Ctx → Ctx)
    (hf : ∀ t x, OnlyCtxs p s t → OnlyCtxs p t (f t x) ∧ ∀ y, (f t x).ctx p y = if y = x then g x (t.ctx p x) else t.ctx p y)
    (l : List (Fin 16)) (hl : l.Nodup) :
    ∀ t, OnlyCtxs p s t → OnlyCtxs p t (l.foldl f t) ∧ ∀ y, (l.foldl f t).ctx p y = if y ∈ l then g y (t.ctx p y) else t.ctx p y := by
  induction l with
  | nil => exact fun t _ => ⟨.refl p t, fun y => by simp⟩
  | cons x l ih =>
    intro t ht
    obtain ⟨hx, hl⟩ := List.nodup_cons.1 hl
    obtain ⟨hstep, hctx⟩ := hf t x ht
    obtain ⟨hrest, hall⟩ := ih hl (f t x) (ht.trans hstep)
    refine ⟨hstep.trans hrest, fun y => ?_⟩
    rw [List.foldl_cons, hall, hctx]
    by_cases hy : y = x
    · subst hy
      simp [hx]
    · simp [hy]

/-- A turn that changes a context where a test holds. -/
theorem ctx_updCtx (s : State) (p : Fin 4) (x : Fin 16) (f : Ctx → Ctx) (y : Fin 16) :
    (s.updCtx p x f).ctx p y = if y = x then f (s.ctx p x) else s.ctx p y := by
  simp [State.ctx_eq]

theorem ctx_updPart_kept (s : State) (p : Fin 4) {f : Part → Part} (hf : (f (s.part p)).ctxs = (s.part p).ctxs) (o : Fin 4)
    (y : Fin 16) : (s.updPart p f).ctx o y = s.ctx o y := by
  rw [State.ctx_eq, State.ctx_eq, State.updPart_eq, State.part_setPart]
  split
  · subst o
    rw [Part.ctx, hf]
    rfl
  · rfl

/-! ### WAITING contexts with work become READY (R341) -/

/-- A context that has work and is not suspended waits no longer. -/
def State.woken (s : State) (p : Fin 4) (x : Fin 16) (c : Ctx) : Ctx :=
  if c.st = .waiting && !(c.suspend || (s.part p).st ≠ .running) && s.hasWork p x then { c with st := .ready } else c

/-- The first half of the scheduler's turn. -/
def State.readied (s : State) (p : Fin 4) : State :=
  (List.finRange 16).foldl (fun s x =>
    if (s.ctx p x).st = .waiting && !(s.part p).suspended x && s.hasWork p x then s.updCtx p x (fun c => { c with st := .ready })
    else s) s

theorem readied_ctxs (s : State) (p : Fin 4) :
    OnlyCtxs p s (s.readied p) ∧ ∀ y, (s.readied p).ctx p y = s.woken p y (s.ctx p y) := by
  obtain ⟨h, hctx⟩ := foldl_ctxs p s (fun s x =>
    if (s.ctx p x).st = .waiting && !(s.part p).suspended x && s.hasWork p x then s.updCtx p x (fun c => { c with st := .ready })
    else s) (s.woken p) (fun t x ht => by
      have htest : ((t.ctx p x).st = .waiting && !(t.part p).suspended x && t.hasWork p x : Bool)
          = ((t.ctx p x).st = .waiting && !((t.ctx p x).suspend || (s.part p).st ≠ .running) && s.hasWork p x) := by
        rw [Part.suspended, ht.st_eq, ht.hasWork_eq]
        rfl
      rw [htest]
      split
      · next h => exact ⟨.of_updCtx p t x _, fun y => by rw [ctx_updCtx, State.woken, if_pos h]⟩
      · next h =>
        refine ⟨.refl p t, fun y => ?_⟩
        rw [State.woken, if_neg h]
        split
        · subst y
          rfl
        · rfl) (List.finRange 16) (List.nodup_finRange 16) s (.refl p s)
  exact ⟨h, fun y => (hctx y).trans (if_pos (List.mem_finRange y))⟩

/-- The second half: a context that is to leave begins to, a READY one is chosen, or a stop ends. -/
def State.elect (s : State) (p : Fin 4) : State :=
  match (s.part p).cur with
  | some x =>
    if ((s.part p).ctx x).st = .running && ((((s.part p).ctx x).deferred && ((s.part p).ctx x).held.isEmpty) || (s.part p).suspended x
        || ((s.part p).otherReady x && !s.hasWork p x)) then s.switchDue p x
    else s
  | none =>
    if (s.part p).st = .stopping then s.updPart p (fun q => { q with st := .stopped })
    else if (s.part p).st = .running then
      match (s.part p).nextReady with
      | some x => (s.updPart p (fun q => { q with cur := some x })).updCtx p x (fun c => { c with st := .restoring })
      | none => s
    else s

theorem schedule_eq (s : State) (p : Fin 4) : s.schedule p = (s.readied p).elect p := by
  unfold State.schedule State.readied
  generalize (List.finRange 16).foldl _ s = t
  rfl

/-- What a turn of the scheduler may change of a partition: its contexts, which of them is current, and the state of a cut. -/
structure Part.Scheduled (q r : Part) : Prop where
  rest : { r with ctxs := q.ctxs, cur := q.cur, cut := q.cut, wdCount := q.wdCount, st := q.st } = q
  st : r.st = q.st ∨ q.st = .stopping ∧ r.st = .stopped

theorem Part.Scheduled.trans {q r u : Part} (h : q.Scheduled r) (g : r.Scheduled u) : q.Scheduled u := by
  refine ⟨by rw [← h.rest, ← g.rest], ?_⟩
  obtain hst | ⟨hq, hr⟩ := h.st
  · rw [← hst]
    exact g.st
  · obtain gst | ⟨gr, -⟩ := g.st
    · exact .inr ⟨hq, gst.trans hr⟩
    · rw [hr] at gr
      cases gr

/-- What a turn of the scheduler may change. -/
structure Scheduled (p : Fin 4) (s t : State) : Prop where
  rest : OnlyParts s t
  others : ∀ o, o ≠ p → t.part o = s.part o
  part : (s.part p).Scheduled (t.part p)

namespace Scheduled

variable {p : Fin 4} {s t u : State}

theorem refl (p : Fin 4) (s : State) : Scheduled p s s := ⟨rfl, fun _ _ => rfl, rfl, .inl rfl⟩

theorem trans (h : Scheduled p s t) (g : Scheduled p t u) : Scheduled p s u :=
  ⟨h.rest.trans g.rest, fun o ho => (g.others o ho).trans (h.others o ho), h.part.trans g.part⟩

theorem of_updPart (p : Fin 4) (s : State) {f : Part → Part} (hf : (s.part p).Scheduled (f (s.part p))) :
    Scheduled p s (s.updPart p f) := by
  refine ⟨rfl, fun o ho => ?_, ?_⟩ <;> rw [State.updPart_eq, State.part_setPart]
  · exact if_neg ho
  · rw [if_pos rfl]
    exact hf

theorem of_updCtx (p : Fin 4) (s : State) (x : Fin 16) (f : Ctx → Ctx) : Scheduled p s (s.updCtx p x f) :=
  of_updPart p s (f := fun q => q.setCtx x (f (s.ctx p x))) ⟨rfl, .inl rfl⟩

end Scheduled

theorem switchDue_scheduled (s : State) (p : Fin 4) (x : Fin 16) : Scheduled p s (s.switchDue p x) := by
  unfold State.switchDue
  split
  · exact (Scheduled.of_updCtx p s x _).trans (.of_updPart p _ ⟨rfl, .inl rfl⟩)
  · exact .of_updCtx p s x _

theorem readied_scheduled (s : State) (p : Fin 4) : Scheduled p s (s.readied p) :=
  foldl_keeps (Scheduled p) (.refl p) (fun _ _ _ => .trans) _ (fun t x => by
    split
    · exact .of_updCtx p t x _
    · exact .refl p t) _ s

theorem elect_scheduled (s : State) (p : Fin 4) : Scheduled p s (s.elect p) := by
  unfold State.elect
  split
  · split
    · exact switchDue_scheduled s p _
    · exact .refl p s
  · split
    · exact .of_updPart p s ⟨rfl, .inr ⟨‹_›, rfl⟩⟩
    · split
      · split
        · exact (Scheduled.of_updPart p s ⟨rfl, .inl rfl⟩).trans (.of_updCtx p _ _ _)
        · exact .refl p s
      · exact .refl p s

/-- A turn of the scheduler changes contexts of its partition, which of them is current, and the state of a cut. -/
theorem schedule_scheduled (s : State) (p : Fin 4) : Scheduled p s (s.schedule p) := by
  rw [schedule_eq]
  exact (readied_scheduled s p).trans (elect_scheduled _ p)

/-! ### What a turn of the scheduler makes of a context -/

theorem ctx_switchDue (s : State) (p : Fin 4) (x y : Fin 16) :
    (s.switchDue p x).ctx p y = if y = x then
      (if (s.ctx p x).held.isEmpty then { s.ctx p x with st := .saving, deferred := false } else { s.ctx p x with deferred := true })
    else s.ctx p y := by
  unfold State.switchDue
  split
  · rw [ctx_updPart_kept _ p (f := fun q => { q with cut := false, wdCount := 0 }) rfl, ctx_updCtx]
  · exact ctx_updCtx s p x _ y

/-- A context that is neither RUNNING nor READY stays as it is when a context leaves or is chosen. -/
theorem elect_ctx (s : State) (p : Fin 4) (y : Fin 16) (hrun : (s.ctx p y).st ≠ .running) (hready : (s.ctx p y).st ≠ .ready) :
    (s.elect p).ctx p y = s.ctx p y := by
  unfold State.elect
  split
  · next x hx =>
    split
    · next hgo =>
      rw [ctx_switchDue, if_neg]
      rintro rfl
      simp only [Bool.and_eq_true, decide_eq_true_eq] at hgo
      exact hrun hgo.1
    · rfl
  · split
    · exact ctx_updPart_kept s p (f := fun q => { q with st := .stopped }) rfl p y
    · split
      · split
        · next x hx =>
          have hx' : ((s.part p).ctx x).st = .ready := by simpa using List.find?_some hx
          rw [ctx_updCtx, if_neg]
          · exact ctx_updPart_kept s p (f := fun q => { q with cur := some x }) rfl p y
          · rintro rfl
            exact hready hx'
        · rfl
      · rfl

/-- A WAITING context without work, and one that is FREE, SAVING, RESTORING or FAULTED, is left alone. -/
theorem schedule_ctx (s : State) (p : Fin 4) (y : Fin 16) (hrun : (s.ctx p y).st ≠ .running) (hready : (s.ctx p y).st ≠ .ready)
    (hwork : (s.ctx p y).st = .waiting → s.hasWork p y = false) : (s.schedule p).ctx p y = s.ctx p y := by
  have hread : (s.readied p).ctx p y = s.ctx p y := by
    rw [(readied_ctxs s p).2, State.woken, if_neg]
    simp only [Bool.and_eq_true, decide_eq_true_eq, not_and, Bool.not_eq_true]
    exact fun h => hwork h.1
  rw [schedule_eq, elect_ctx _ p y (by rw [hread]; exact hrun) (by rw [hread]; exact hready), hread]

/-- A partition with a RUNNING context that is to leave: its switch is due. -/
theorem elect_leaves {s : State} {p : Fin 4} {x : Fin 16} (hx : (s.part p).cur = some x) (hst : (s.ctx p x).st = .running)
    (hsus : (s.part p).suspended x = true) : s.elect p = s.switchDue p x := by
  have hst' : ((s.part p).ctx x).st = .running := hst
  simp [State.elect, hx, hst', hsus]

end Sys2Proof.Machine

namespace Sys2Proof.Machine

/-! ### What is on its way to the host only grows -/

/-- What was on its way to the host still is, in order. -/
def Grows (s t : State) : Prop := ∃ pre, t.cxlOut = s.cxlOut ++ pre

theorem Grows.refl (s : State) : Grows s s := ⟨[], (List.append_nil _).symm⟩

theorem Grows.trans {s t u : State} (h : Grows s t) (g : Grows t u) : Grows s u := by
  obtain ⟨a, ha⟩ := h
  obtain ⟨b, hb⟩ := g
  exact ⟨a ++ b, by rw [hb, ha, List.append_assoc]⟩

theorem Grows.of_eq {s t : State} (h : t.cxlOut = s.cxlOut) : Grows s t := ⟨[], by rw [h, List.append_nil]⟩

theorem toHost_grows (s : State) (a : Nat) (bs : List Byte) : Grows s (s.toHost a bs) := ⟨_, rfl⟩
theorem sendIrq_grows (s : State) (v : Nat) : Grows s (s.sendIrq v) := ⟨_, rfl⟩
theorem updCtx_grows (s : State) (p : Fin 4) (x : Fin 16) (f : Ctx → Ctx) : Grows s (s.updCtx p x f) := .of_eq rfl
theorem updEventQ_grows (s : State) (e : Fin 8) (f : EvQ → EvQ) : Grows s (s.updEventQ e f) := .of_eq rfl

theorem maybeIrq_grows (s : State) (e : Fin 8) (fatal : Bool) : Grows s (s.maybeIrq e fatal) := by
  unfold State.maybeIrq
  split
  · exact (updEventQ_grows s e _).trans (sendIrq_grows _ _)
  · exact .refl s

theorem writeRecord_grows (s : State) (e : Fin 8) (bs : List Byte) : Grows s (s.writeRecord e bs) := by
  unfold State.writeRecord
  refine Grows.trans ?_ (updEventQ_grows _ e _)
  split
  · exact toHost_grows s _ _
  · exact (toHost_grows s _ _).trans (toHost_grows _ _ _)

theorem putRecord_grows (s : State) (e : Fin 8) (ev : Event) : Grows s (s.putRecord e ev) :=
  (writeRecord_grows s e (ev.bytes s.evSeq s.hkCount)).trans (.of_eq rfl)

theorem dropRecord_grows (s : State) (e : Fin 8) : Grows s (s.dropRecord e) := .of_eq rfl

theorem raise_grows (s : State) (ev : Event) : Grows s (s.raise ev) := by
  unfold State.raise
  extract_lets +onlyGivenNames ev' e q
  split
  · exact dropRecord_grows _ _
  · split
    · exact (putRecord_grows _ _ _).trans (maybeIrq_grows _ _ _)
    · split
      · exact .of_eq rfl
      · refine (dropRecord_grows s e).trans ?_
        split
        · exact .refl _
        · refine Grows.trans ?_ (maybeIrq_grows _ _ _)
          exact (putRecord_grows _ e _).trans (updEventQ_grows _ _ _)

theorem foldl_grows {α : Type} (f : State → α → State) (hf : ∀ s a, Grows s (f s a)) (l : List α) (s : State) :
    Grows s (l.foldl f s) := foldl_keeps Grows .refl (fun _ _ _ => .trans) f hf l s

/-! ### `PARTITION_START` (R340) -/

theorem foldl_updCluster (f : Cluster → Cluster) (cs : List ClusterId) (hn : cs.Nodup) (s : State) :
    { cs.foldl (fun s c => s.updCluster c f) s with clusters := s.clusters } = s
      ∧ ∀ c, (cs.foldl (fun s c => s.updCluster c f) s).cluster c = if c ∈ cs then f (s.cluster c) else s.cluster c := by
  induction cs generalizing s with
  | nil => exact ⟨rfl, fun c => by simp⟩
  | cons d cs ih =>
    obtain ⟨hd, hn⟩ := List.nodup_cons.1 hn
    obtain ⟨hrest, hcl⟩ := ih hn (s.updCluster d f)
    generalize hu : cs.foldl (fun s c => s.updCluster c f) (s.updCluster d f) = u at hrest hcl
    rw [List.foldl_cons, hu]
    refine ⟨?_, fun c => ?_⟩
    · calc { u with clusters := s.clusters } = { { u with clusters := (s.updCluster d f).clusters } with clusters := s.clusters } := rfl
        _ = s := by rw [hrest]; rfl
    · rw [hcl]
      by_cases hc : c = d
      · subst hc
        simp [hd]
      · simp [hc]

theorem clustersOf_nodup (p : Fin 4) : (clustersOf p).Nodup :=
  (List.nodup_map_iff (fun a b h => by simpa using h)).2 (List.nodup_finRange 10)

theorem mem_clustersOf (p : Fin 4) (c : Fin 10) : (⟨p, c⟩ : ClusterId) ∈ clustersOf p := by simp [clustersOf]

/-- A partition that starts, but for its scheduler's turn: from OFF its counts are 0 (R74, R340). -/
def Part.started (q : Part) : Part :=
  if q.st = .off then { q with
    st := .running, switches := 0, wdReports := 0, wdCount := 0, lastRun := 15, hits := 0, misses := 0, atomics := 0
    expired := 0, replays := 0, quarPeak := 0, kvMisses := 0 }
  else { q with st := .running }

/-- Nothing changes but partitions and clusters. -/
def OnlyPartsClusters (s t : State) : Prop := { t with parts := s.parts, clusters := s.clusters } = s

theorem OnlyParts.withClusters {s t u : State} (h : OnlyPartsClusters s t) (g : OnlyParts t u) : OnlyPartsClusters s u := by
  unfold OnlyPartsClusters OnlyParts at *
  rw [← h, ← g]

theorem OnlyParts.thenClusters {s t u : State} (h : OnlyParts s t) (g : OnlyPartsClusters t u) : OnlyPartsClusters s u := by
  unfold OnlyPartsClusters OnlyParts at *
  rw [← h, ← g]

/-- A partition's start before its scheduler's turn. -/
def State.begun (s : State) (p : Fin 4) : State :=
  if (s.part p).st = .off then
    (clustersOf p).foldl (fun s cl => s.updCluster cl (fun y => { y with cycle := 0 })) (s.setPart p (s.part p).started)
  else s.setPart p (s.part p).started

theorem startPart_eq (s : State) (p : Fin 4) : s.startPart p = (s.begun p).schedule p := by
  unfold State.startPart State.begun Part.started
  by_cases hoff : (s.part p).st = .off
  · simp only [hoff, if_true]
  · simp only [hoff, if_false]

theorem begun_parts (s : State) (p : Fin 4) :
    OnlyPartsClusters s (s.begun p) ∧ (∀ o, (s.begun p).part o = if o = p then (s.part p).started else s.part o)
      ∧ ((s.part p).st = .off → ∀ c, ((s.begun p).cluster ⟨p, c⟩).cycle = 0) := by
  unfold State.begun
  split
  · obtain ⟨hrest, hcl⟩ := foldl_updCluster (fun y => { y with cycle := 0 }) (clustersOf p) (clustersOf_nodup p)
      (s.setPart p (s.part p).started)
    generalize (clustersOf p).foldl _ _ = u at hrest hcl ⊢
    have hparts : u.parts = (s.setPart p (s.part p).started).parts := by rw [← hrest]
    refine ⟨?_, fun o => ?_, fun _ c => ?_⟩
    · calc { u with parts := s.parts, clusters := s.clusters }
          = { { u with clusters := (s.setPart p (s.part p).started).clusters } with parts := s.parts } := rfl
        _ = s := by rw [hrest]; rfl
    · rw [State.part_of_parts _ u hparts o, State.part_setPart]
    · rw [hcl, if_pos (mem_clustersOf p c)]
  · next hoff => exact ⟨rfl, fun o => State.part_setPart .., fun h => absurd h hoff⟩

/-- What a start leaves of the state (R340). -/
theorem startPart_parts (s : State) (p : Fin 4) :
    OnlyPartsClusters s (s.startPart p) ∧ (∀ o, o ≠ p → (s.startPart p).part o = s.part o)
      ∧ (s.part p).started.Scheduled ((s.startPart p).part p)
      ∧ ((s.part p).st = .off → ∀ c, ((s.startPart p).cluster ⟨p, c⟩).cycle = 0) := by
  obtain ⟨hrest, hpart, hcl⟩ := begun_parts s p
  obtain ⟨hsched, hothers, hp⟩ := schedule_scheduled (s.begun p) p
  rw [hpart, if_pos rfl] at hp
  rw [startPart_eq]
  exact ⟨hsched.withClusters hrest, fun o ho => by rw [hothers o ho, hpart, if_neg ho], hp,
    fun h c => by rw [hsched.cluster_eq, hcl h c]⟩

/-- A command whose body changes partitions and clusters alone changes those and what its reply changes. -/
theorem answered_onlyPartsClusters {s u : State} {k : Packet} {st : Status} {d : Word} (h : OnlyPartsClusters (s.tagged k) u) :
    { u.answered st d with parts := s.parts, clusters := s.clusters, hi := s.hi, cxlOut := s.cxlOut } = s := by
  calc _ = { { u with parts := (s.tagged k).parts, clusters := (s.tagged k).clusters } with hi := s.hi, cxlOut := s.cxlOut } := rfl
    _ = s := by rw [h]; rfl

/-! ### `PARTITION_STOP` (R340, R341) -/

/-- A context that is READY as its partition stops waits. -/
def Ctx.preempted (c : Ctx) : Ctx := if c.st = .ready then { c with st := .waiting } else c

/-- One context of a partition that stops: if it is READY it waits, and `PREEMPT_DONE` says so (R341). -/
def State.preempt (s : State) (p : Fin 4) (x : Fin 16) : State :=
  if (s.ctx p x).st = .ready then (s.updCtx p x (fun c => { c with st := .waiting })).preemptDone p x else s

theorem preemptDone_records (s : State) (p : Fin 4) (x : Fin 16) : OnlyRecords s (s.preemptDone p x) := raise_records _ _
theorem preemptDone_grows (s : State) (p : Fin 4) (x : Fin 16) : Grows s (s.preemptDone p x) := raise_grows _ _

theorem preempt_ctx (s : State) (p : Fin 4) (x : Fin 16) :
    OnlyCtxs p s (s.preempt p x)
      ∧ ∀ y, (s.preempt p x).ctx p y = if y = x then (s.ctx p x).preempted else s.ctx p y := by
  unfold State.preempt
  split
  · next h =>
    have hu := OnlyCtxs.of_updCtx p s x (fun c => { c with st := .waiting })
    have hc := ctx_updCtx s p x (fun c => { c with st := .waiting })
    generalize s.updCtx p x (fun c => { c with st := .waiting }) = u at hu hc ⊢
    have hr := preemptDone_records u p x
    refine ⟨hu.trans (.of_records hr), fun y => ?_⟩
    rw [State.ctx_of_parts _ _ hr.counted.parts_eq, hc, Ctx.preempted, if_pos h]
  · next h =>
    refine ⟨.refl p s, fun y => ?_⟩
    rw [Ctx.preempted, if_neg h]
    split
    · subst y
      rfl
    · rfl

theorem preempt_grows (s : State) (p : Fin 4) (x : Fin 16) : Grows s (s.preempt p x) := by
  unfold State.preempt
  split
  · exact (updCtx_grows s p x _).trans (preemptDone_grows _ p x)
  · exact .refl s

/-- The contexts of a partition that stops. -/
def State.preempted (s : State) (p : Fin 4) : State := (List.finRange 16).foldl (fun s x => s.preempt p x) s

theorem preempted_ctxs (s : State) (p : Fin 4) :
    OnlyCtxs p s (s.preempted p) ∧ ∀ y, (s.preempted p).ctx p y = (s.ctx p y).preempted := by
  obtain ⟨h, hctx⟩ := foldl_ctxs p s (fun s x => s.preempt p x) (fun _ => Ctx.preempted) (fun t x _ => preempt_ctx t p x)
    (List.finRange 16) (List.nodup_finRange 16) s (.refl p s)
  exact ⟨h, fun y => (hctx y).trans (if_pos (List.mem_finRange y))⟩

theorem preempted_grows (s : State) (p : Fin 4) : Grows s (s.preempted p) := foldl_grows _ (fun t x => preempt_grows t p x) _ s

theorem stopPart_eq (s : State) (p : Fin 4) :
    s.stopPart p = ((s.updPart p (fun q => { q with st := .stopping })).preempted p).schedule p := rfl

end Sys2Proof.Machine

namespace Sys2Proof.Machine

/-- A partition that stops, once its READY contexts wait: no context becomes READY again. -/
def State.halting (s : State) (p : Fin 4) : State :=
  ((s.updPart p (fun q => { q with st := .stopping })).preempted p).readied p

theorem halting_ctxs (s : State) (p : Fin 4) :
    OnlyCtxs p (s.updPart p (fun q => { q with st := .stopping })) (s.halting p) ∧ Grows s (s.halting p)
      ∧ (∀ y, (s.halting p).ctx p y = (s.ctx p y).preempted) := by
  have hctx0 (y : Fin 16) : (s.updPart p (fun q => { q with st := .stopping })).ctx p y = s.ctx p y :=
    ctx_updPart_kept s p (f := fun q => { q with st := .stopping }) rfl p y
  have hst : ((s.updPart p (fun q => { q with st := .stopping })).part p).st = .stopping := by simp
  have hgrows0 : Grows s (s.updPart p (fun q => { q with st := .stopping })) := .of_eq rfl
  unfold State.halting
  generalize s.updPart p (fun q => { q with st := .stopping }) = u at hctx0 hst hgrows0 ⊢
  obtain ⟨hpre, hctx⟩ := preempted_ctxs u p
  obtain ⟨hread, hwake⟩ := readied_ctxs (u.preempted p) p
  refine ⟨hpre.trans hread, (hgrows0.trans (preempted_grows u p)).trans (.of_eq (readied_scheduled _ p).rest.cxlOut_eq), fun y => ?_⟩
  rw [hwake, State.woken, hpre.st_eq, hst, if_neg (by simp), hctx, hctx0]

theorem switchDue_st (s : State) (p : Fin 4) (x : Fin 16) : ((s.switchDue p x).part p).st = (s.part p).st := by
  unfold State.switchDue
  split <;> simp

/-- What a stop leaves of its partition (R340, R341). -/
theorem stopPart_spec (s : State) (p : Fin 4) :
    Grows s (s.stopPart p) ∧ (s.stopPart p).hi = s.hi ∧ (s.stopPart p).mem = s.mem ∧ (s.stopPart p).cores = s.cores
      ∧ (∀ o, o ≠ p → (s.stopPart p).part o = s.part o)
      ∧ ((s.part p).cur = none → ((s.stopPart p).part p).st = .stopped)
      ∧ ((s.part p).cur ≠ none → ((s.stopPart p).part p).st = .stopping)
      ∧ (∀ x, (s.ctx p x).st = .ready → ((s.stopPart p).ctx p x).st = .waiting)
      ∧ (∀ x, (s.part p).cur = some x → (s.ctx p x).st = .running → (s.ctx p x).held = [] →
          ((s.stopPart p).ctx p x).st = .saving)
      ∧ (∀ x, (s.part p).cur = some x → (s.ctx p x).st = .running → (s.ctx p x).held ≠ [] →
          ((s.stopPart p).ctx p x).st = .running ∧ ((s.stopPart p).ctx p x).deferred = true) := by
  obtain ⟨honly, hgrows, hctx⟩ := halting_ctxs s p
  have heq : s.stopPart p = (s.halting p).elect p := by rw [stopPart_eq, schedule_eq, State.halting]
  have hst : ((s.halting p).part p).st = .stopping := honly.st_eq.trans (by simp)
  have hcur : ((s.halting p).part p).cur = (s.part p).cur := honly.cur_eq.trans (by simp)
  obtain ⟨hrest, hothers, hpart⟩ := elect_scheduled (s.halting p) p
  rw [heq]
  have hleave (x : Fin 16) (hx : (s.part p).cur = some x) (hrun : (s.ctx p x).st = .running) :
      (s.halting p).elect p = (s.halting p).switchDue p x ∧ (s.halting p).ctx p x = s.ctx p x := by
    have hsame : (s.halting p).ctx p x = s.ctx p x := by rw [hctx, Ctx.preempted, if_neg (by rw [hrun]; decide)]
    exact ⟨elect_leaves (hcur.trans hx) (by rw [hsame, hrun]) (by simp [Part.suspended, hst]), hsame⟩
  refine ⟨hgrows.trans (.of_eq hrest.cxlOut_eq), hrest.hi_eq.trans honly.hi_eq, hrest.mem_eq.trans honly.mem_eq,
    hrest.cores_eq.trans honly.cores_eq, fun o ho => ?_, fun hnone => ?_, fun hsome => ?_, fun x hx => ?_, fun x hx hrun hheld => ?_,
    fun x hx hrun hheld => ?_⟩
  · rw [hothers o ho, honly.others o ho]
    simp [ho]
  · simp [State.elect, hcur, hnone, hst]
  · obtain ⟨x, hx⟩ := Option.ne_none_iff_exists'.1 hsome
    have hx' : ((s.halting p).part p).cur = some x := hcur.trans hx
    simp only [State.elect, hx']
    split
    · rw [switchDue_st, hst]
    · exact hst
  · have hw : ((s.halting p).ctx p x).st = .waiting := by rw [hctx, Ctx.preempted, if_pos hx]
    rw [elect_ctx _ p x (by rw [hw]; decide) (by rw [hw]; decide), hw]
  · obtain ⟨hel, hsame⟩ := hleave x hx hrun
    rw [hel, ctx_switchDue, if_pos rfl, hsame, hheld]
    rfl
  · obtain ⟨hel, hsame⟩ := hleave x hx hrun
    rw [hel, ctx_switchDue, if_pos rfl, hsame, if_neg (by simpa using hheld)]
    exact ⟨hrun, rfl⟩

/-! ### The commands -/

theorem OnlyPartsClusters.cxlOut_eq {s t : State} (h : OnlyPartsClusters s t) : t.cxlOut = s.cxlOut := by rw [← h]
theorem OnlyPartsClusters.hi_eq {s t : State} (h : OnlyPartsClusters s t) : t.hi = s.hi := by rw [← h]

theorem Part.Scheduled.pll_eq {q r : Part} (h : q.Scheduled r) : r.pll = q.pll := by rw [← h.rest]

theorem Part.Scheduled.counts_eq {q r : Part} (h : q.Scheduled r) : r.wdReports = q.wdReports ∧ r.switches = q.switches
    ∧ r.expired = q.expired ∧ r.replays = q.replays ∧ r.hits = q.hits ∧ r.misses = q.misses ∧ r.atomics = q.atomics
    ∧ r.kvMisses = q.kvMisses ∧ r.quarPeak = q.quarPeak := by
  rw [← h.rest]
  exact ⟨rfl, rfl, rfl, rfl, rfl, rfl, rfl, rfl, rfl⟩

theorem Part.Scheduled.started_st {q r : Part} (h : q.started.Scheduled r) : r.st = .running := by
  have hq : q.started.st = .running := by
    unfold Part.started
    split <;> rfl
  obtain hst | ⟨hst, -⟩ := h.st
  · rw [hst, hq]
  · rw [hq] at hst
    cases hst

theorem exec_partitionStart (k : Packet) (s : State) : exec (.partitionStart k) s
    = mgmtTo s (mgmtPart k) k (mgmtCheck k 0x03 true [] [] <|> s.notReady
        <|> wrongIf ((s.part (mgmtPart k)).st ≠ .off && (s.part (mgmtPart k)).st ≠ .stopped))
      (fun s => (s.startPart (mgmtPart k)).mgmtDone .ok 0) := rfl

theorem exec_partitionStop (k : Packet) (s : State) : exec (.partitionStop k) s
    = mgmtTo s (mgmtPart k) k (mgmtCheck k 0x04 true [] [] <|> s.notReady <|> wrongIf ((s.part (mgmtPart k)).st ≠ .running))
      (fun s => (s.stopPart (mgmtPart k)).mgmtDone .ok 0) := rfl

theorem startCheck_passes {s : State} {k : Packet} (hready : s.hi.st = .ready) (hf : MgmtForm k 0x03 true [])
    (hst : (s.part (mgmtPart k)).st = .off ∨ (s.part (mgmtPart k)).st = .stopped) :
    (mgmtCheck k 0x03 true [] [] <|> s.notReady
      <|> wrongIf ((s.part (mgmtPart k)).st ≠ .off && (s.part (mgmtPart k)).st ≠ .stopped)) = none := by
  rw [mgmtCheck_passes hf (by simp), notReady_ready hready, wrongIf_false (by obtain h | h := hst <;> simp [h])]
  rfl

theorem stopCheck_passes {s : State} {k : Packet} (hready : s.hi.st = .ready) (hf : MgmtForm k 0x04 true [])
    (hst : (s.part (mgmtPart k)).st = .running) :
    (mgmtCheck k 0x04 true [] [] <|> s.notReady <|> wrongIf ((s.part (mgmtPart k)).st ≠ .running)) = none := by
  rw [mgmtCheck_passes hf (by simp), notReady_ready hready, wrongIf_false (by simp [hst])]
  rfl

end Sys2Proof.Machine

section
open Sys2Proof Sys2Proof.Machine

/-- Settles O30, from what a start and a stop leave of the partition that the command has reached. -/
theorem partitionsStartAndStop : Obligations.PartitionsStartAndStop := by
  intro s k hr hready p q
  refine ⟨fun hf hst hreach => ?_, fun hpll => ⟨fun hf hst => ?_, fun hf hst => ?_⟩, fun hf hst hreach => ?_⟩
  · obtain ⟨hstart, hothers, hp, hcl⟩ := startPart_parts (s.called k p) p
    have hrest : OnlyPartsClusters (s.tagged k) ((s.called k p).startPart p) := (called_onlyParts s k p).thenClusters hstart
    rw [part_called hreach, if_pos rfl] at hp hcl
    refine ⟨((s.called k p).startPart p).answered .ok 0, ?_, answered_completes_tagged (k := k) ?_ ?_, ?_, ?_, fun hoff => ?_,
      fun o ho => ?_, answered_onlyPartsClusters (k := k) ?_⟩
    · rw [exec_partitionStart]
      exact mgmtTo_replies hr hreach (startCheck_passes hready hf hst) rfl
    · exact (OnlyPartsClusters.cxlOut_eq hrest).trans (List.append_nil _).symm
    · exact OnlyPartsClusters.hi_eq hrest
    · rw [State.part_answered, hp.started_st]
    · rw [State.part_answered, hp.pll_eq]
      unfold Part.started
      split <;> rfl
    · obtain ⟨h1, h2, h3, h4, h5, h6, h7, h8, h9⟩ := hp.counts_eq
      have hoff' : (s.part p).awake.st = .off := hoff
      simp only [State.part_answered, State.cluster_answered]
      simp only [Part.started, hoff', if_true] at h1 h2 h3 h4 h5 h6 h7 h8 h9
      exact ⟨h1, h2, h3, h4, h5, h6, h7, h8, h9, hcl hoff⟩
    · rw [State.part_answered, hothers o ho, part_called hreach, if_neg ho]
    · exact hrest
  · rw [exec_partitionStart]
    exact mgmtTo_held hr hpll (startCheck_passes hready hf hst)
  · rw [exec_partitionStop]
    exact mgmtTo_held hr hpll (stopCheck_passes hready hf hst)
  · have hpart := part_called hreach k
    have hctx (x : Fin 16) : (s.called k p).ctx p x = s.ctx p x := by
      rw [State.ctx_eq, hpart, if_pos rfl]
      rfl
    obtain ⟨⟨pre, hpre⟩, hhi, hmem, hcores, hothers, hnone, hsome, hready', hsave, hdefer⟩ := stopPart_spec (s.called k p) p
    rw [hpart, if_pos rfl] at hnone hsome hsave hdefer
    simp only [hctx] at hready' hsave hdefer
    have hcalled := called_onlyParts s k p
    refine ⟨((s.called k p).stopPart p).answered .ok 0, pre, ?_, answered_completes_tagged hpre (hhi.trans hcalled.hi_eq), ?_⟩
    · rw [exec_partitionStop]
      exact mgmtTo_replies hr hreach (stopCheck_passes hready hf hst) rfl
    · simp only [State.part_answered, State.ctx_answered, State.mem_answered, State.cores_answered]
      refine ⟨hnone, hsome, hready', hsave, hdefer, fun o ho => ?_, hmem.trans hcalled.mem_eq, hcores.trans hcalled.cores_eq⟩
      rw [hothers o ho, hpart, if_neg ho]

end

namespace Sys2Proof.Machine

/-! ### Found errors and writes: what is on its way to the host only grows -/

theorem addDefect_grows (s : State) (kind origin : Nat) (a b : BitVec 32) : Grows s (s.addDefect kind origin a b) := by
  unfold State.addDefect
  extract_lets +onlyGivenNames e
  split
  · exact .refl s
  · extract_lets +onlyGivenNames c u
    have hu : Grows s u := .of_eq rfl
    split
    · exact hu.trans (raise_grows _ _)
    · exact hu

theorem updStack_grows (s : State) (k : Fin 12) (f : Stack → Stack) : Grows s (s.updStack k f) := .of_eq rfl
theorem updUnit_grows (s : State) (u : UnitId) (f : BankUnit → BankUnit) : Grows s (s.updUnit u f) := .of_eq rfl

theorem freeBanks_grows (s : State) (u : UnitId) (ts : List Step) : Grows s (s.freeBanks u ts) := by
  unfold State.freeBanks
  split
  · exact updStack_grows s u.s _
  · exact .refl s

theorem failUnit_grows (s : State) (u : UnitId) : Grows s (s.failUnit u) := by
  unfold State.failUnit
  split
  · exact .refl s
  · extract_lets +onlyGivenNames a f b sp
    have hb : Grows s b := ((addDefect_grows s _ _ _ _).trans (freeBanks_grows a u _)).trans (updUnit_grows f u _)
    clear_value b
    split
    · extract_lets +onlyGivenNames j pair c
      have hc : Grows s c := hb.trans (updStack_grows b u.s _)
      clear_value c
      split
      · exact hc
      · exact (hc.trans (updUnit_grows c u _)).trans (updStack_grows _ u.s _)
    · extract_lets +onlyGivenNames j pair d c
      have hc : Grows s c := hb.trans (updStack_grows b u.s _)
      clear_value c
      split
      · exact hc.trans (updStack_grows c u.s _)
      · exact hc

theorem retireRow_grows (s : State) (r : RowId) : Grows s (s.retireRow r) := by
  unfold State.retireRow
  extract_lets +onlyGivenNames k
  split
  · exact .refl s
  · extract_lets +onlyGivenNames u freed a live used reason ev
    have ha : Grows s a := (updStack_grows s r.s _).trans (addDefect_grows freed _ _ _ _)
    clear_value a
    split
    · exact ha.trans (failUnit_grows _ _)
    · split <;> exact ha.trans ((updStack_grows _ r.s _).trans (raise_grows _ _))

theorem countSram_grows (s : State) (a : SramArray) (group : Nat) (now : Bool) : Grows s (s.countSram a group now) := by
  unfold State.countSram
  extract_lets +onlyGivenNames win tbl
  generalize countFault _ _ _ _ _ _ = x
  obtain ⟨tbl', lasting⟩ := x
  dsimp -zeta only
  extract_lets +onlyGivenNames b
  have hb : Grows s b := .of_eq rfl
  clear_value b
  split
  · exact hb.trans (addDefect_grows _ _ _ _ _)
  · exact hb

theorem countCorrected_grows (s : State) (r : RowId) (e : BitVec 39) : Grows s (s.countCorrected r e) := by
  unfold State.countCorrected
  extract_lets +onlyGivenNames win k
  generalize countFault k.rowCnt 256 3 r.key s.hkCount win = x
  obtain ⟨rows, lasting⟩ := x
  dsimp -zeta only
  extract_lets +onlyGivenNames a b
  have hb : Grows s b := by
    show Grows s (if lasting = true then a.retireRow r else a)
    have ha : Grows s a := updStack_grows s r.s _
    split
    · exact ha.trans (retireRow_grows _ _)
    · exact ha
  clear_value b
  split
  · extract_lets +onlyGivenNames channel lane
    generalize countFault _ _ _ _ _ _ = y
    obtain ⟨lanes, lastingLane⟩ := y
    dsimp -zeta only
    extract_lets +onlyGivenNames c
    have hc : Grows s c := hb.trans (updStack_grows b r.s _)
    clear_value c
    split
    · exact hc.trans (addDefect_grows _ _ _ _ _)
    · exact hc
  · exact hb

theorem setMem_grows (s : State) (m : Tbl Byte) (e : Tbl (BitVec 39)) : Grows s { s with mem := m, memErr := e } := .of_eq rfl
theorem setErr_grows (s : State) (e : Tbl (BitVec 39)) : Grows s { s with memErr := e } := .of_eq rfl

theorem poisonGroup_grows (s : State) (g : Nat) : Grows s (s.poisonGroup g) := foldl_grows _ (fun s _ => setMem_grows s _ _) _ s

theorem fixWord_grows (s : State) (w : Nat) : Grows s (s.fixWord w) := by
  unfold State.fixWord
  extract_lets +onlyGivenNames e r stands
  have hs : ∀ e', Grows s (stands e') := fun e' => .of_eq rfl
  clear_value stands
  split
  · split
    · exact .refl s
    · exact hs _
  · split
    · exact .refl s
    · exact hs _
  · split
    · exact (hs _).trans (countSram_grows _ _ _ _)
    · exact (hs _).trans (countCorrected_grows _ _ _)
  · extract_lets +onlyGivenNames at_ a b c
    have hc : Grows s c := ((poisonGroup_grows s _).trans (updStack_grows a r.s _)).trans (raise_grows b _)
    clear_value at_ a b c
    cases at_ with
    | some a => exact hc.trans (countSram_grows _ _ _ _)
    | none => exact hc.trans (retireRow_grows c r)

theorem touch_grows (s : State) (gs : List Nat) : Grows s (s.touch gs) := foldl_grows _ fixWord_grows _ s

theorem fire_cxlOut (s : State) (key : Nat) : (s.fire key).2.cxlOut = s.cxlOut := by
  unfold State.fire
  extract_lets +onlyGivenNames m
  split <;> rfl

theorem flipWrite_grows (s : State) (cached : Bool) (k : Nat) : Grows s (s.flipWrite cached k) := by
  unfold State.flipWrite
  extract_lets +onlyGivenNames st
  split
  · exact .refl s
  · split
    · have hf := fire_cxlOut s (encKey 3 (st / 3) 0 0 (s.sliceOf k))
      generalize s.fire (encKey 3 (st / 3) 0 0 (s.sliceOf k)) = x at hf ⊢
      obtain ⟨m, u⟩ := x
      dsimp only
      split <;> exact .of_eq hf
    · refine foldl_grows _ (fun s wd => ?_) _ s
      have hf := fire_cxlOut s (encKey 0 st 0 (keyDie k * 4 + keyPair k / 16) wd)
      generalize s.fire (encKey 0 st 0 (keyDie k * 4 + keyPair k / 16) wd) = x at hf ⊢
      obtain ⟨m, u⟩ := x
      dsimp only
      split <;> exact .of_eq hf

theorem putByte_grows (s : State) (p : Place × Byte) : Grows s (putByte s p) := by
  obtain ⟨k | a, b⟩ := p <;> exact .of_eq rfl

theorem writeAt_grows (s : State) (cached : Bool) (ps : List (Place × Byte)) : Grows s (s.writeAt cached ps) := by
  obtain ⟨gs, full, u, hu, h⟩ := writeAt_eq s cached ps
  have h1 : Grows s u := by
    rw [hu]
    refine ((touch_grows s gs).trans ?_).trans (foldl_grows _ putByte_grows _ _)
    exact foldl_grows _ (fun s _ => setErr_grows s _) _ _
  rcases h with h | ⟨k, h⟩ <;> rw [h]
  · exact h1
  · exact h1.trans (flipWrite_grows u cached k)

/-- Bytes that a write stores read as stored, whatever errors it meets; each place is written once. -/
theorem byteAt_writeAt_stored (s : State) (cached : Bool) (ps : List (Place × Byte)) (hn : (ps.map Prod.fst).Nodup) (pl : Place)
    (b : Byte) (hb : (pl, b) ∈ ps) : (s.writeAt cached ps).byteAt pl = b := by
  obtain ⟨gs, full, u, hu, h⟩ := writeAt_eq s cached ps
  have hbyte : u.byteAt pl = b := by
    rw [hu]
    exact (byteAt_foldl_putByte ps _ hn pl).1 b hb
  obtain h | ⟨k, h⟩ := h <;> rw [h]
  · exact hbyte
  · obtain ⟨hm, hhost⟩ := flipWrite_mem u cached k
    rw [← hbyte]
    cases pl <;> simp [State.byteAt, hm, hhost]

/-! ### Places of a PART space (R165 to R169) -/

theorem physKey_inj {st die pair bank row y st' die' pair' bank' row' y' : Nat} (hd : die < 16) (hd' : die' < 16) (hp : pair < 64)
    (hp' : pair' < 64) (hb : bank < 2) (hb' : bank' < 2) (hr : row < 16384) (hr' : row' < 16384) (hy : y < 2048) (hy' : y' < 2048)
    (h : physKey st die pair bank row y = physKey st' die' pair' bank' row' y') :
    st = st' ∧ die = die' ∧ pair = pair' ∧ bank = bank' ∧ row = row' ∧ y = y' := by
  unfold physKey at h
  omega

/-- What the upper fields of a granule index give for the exchange of its channel field (R169). -/
def foldHigh (w : Nat) : Nat := (w % 64) ^^^ ((w / 64 % 64) ^^^ ((w / 4096 % 64) ^^^ (w / 262144 % 64)))

theorem foldGranule_eq (q : Nat) : foldGranule q = (q % 64) ^^^ foldHigh (q / 64) := by
  simp only [foldHigh, Nat.div_div_eq_div_mul]
  rfl

theorem foldGranule_lt (q : Nat) : foldGranule q < 64 := by
  have hm : ∀ n : Nat, n % 64 < 2 ^ 6 := fun n => Nat.mod_lt n (by omega)
  exact Nat.xor_lt_two_pow (hm _) (Nat.xor_lt_two_pow (hm _) (Nat.xor_lt_two_pow (hm _) (Nat.xor_lt_two_pow (hm _) (hm _))))

/-- The exchange loses nothing: granules whose upper fields agree are told apart by their channel. -/
theorem foldGranule_inj {q q' : Nat} (hw : q / 64 = q' / 64) (h : foldGranule q = foldGranule q') : q = q' := by
  rw [foldGranule_eq, foldGranule_eq, hw] at h
  have := Nat.xor_left_inj.1 h
  omega

/-- Bytes of a PART space have places of their own (R169). -/
theorem partPlace_inj {p p' x x' : Nat} (hx : x < 206158430208) (hx' : x' < 206158430208) (h : partPlace p x = partPlace p' x') :
    x = x' := by
  unfold partPlace granulePlace at h
  have hf := foldGranule_lt (x / 256 / 3)
  have hf' := foldGranule_lt (x' / 256 / 3)
  obtain ⟨hst, hdie, hpair, hbank, hrow, hy⟩ := physKey_inj (by omega) (by omega) (by omega) (by omega) (by omega) (by omega)
    (by omega) (by omega) (by omega) (by omega) h
  have hw : x / 256 / 3 / 64 = x' / 256 / 3 / 64 := by omega
  have hq := foldGranule_inj hw (by omega)
  omega

/-- What a PART space reads after a write of bytes to it. -/
theorem readPart_writePart (s : State) (p x j n : Nat) (bs : List Byte) (hx : x + bs.length ≤ 206158430208)
    (hj : j + n ≤ bs.length) : (s.writePart p x bs).readPart p (x + j) n = (bs.drop j).take n := by
  have hlen : ((List.range bs.length).map (fun j => Place.dram (partPlace p (x + j)))).length = bs.length := by simp
  have hnd : ((((List.range bs.length).map (fun j => Place.dram (partPlace p (x + j)))).zip bs).map Prod.fst).Nodup := by
    rw [List.map_fst_zip hlen.le]
    refine List.Nodup.map_on (fun a ha b hb hab => ?_) List.nodup_range
    rw [List.mem_range] at ha hb
    have := partPlace_inj (by omega) (by omega) (Place.dram.inj hab)
    omega
  refine List.ext_getElem (by simp [State.readPart, State.bytesAt]; omega) fun i h1 h2 => ?_
  have hi : i < n := by simpa [State.readPart, State.bytesAt] using h1
  have hmem : (Place.dram (partPlace p (x + j + i)), bs[j + i]) ∈
      ((List.range bs.length).map (fun j => Place.dram (partPlace p (x + j)))).zip bs := by
    rw [List.mem_iff_getElem]
    exact ⟨j + i, by simp; omega, by simp [Nat.add_assoc]⟩
  simpa [State.readPart, State.bytesAt, State.writePart] using byteAt_writeAt_stored s false _ hnd _ _ hmem

theorem leNat_leBytes (w n : Nat) : leNat (leBytes w n) = n % 256 ^ w := by
  induction w generalizing n with
  | zero => simp [leNat, leBytes, Nat.mod_one]
  | succ w ih =>
    rw [leBytes, leNat, ih, BitVec.toNat_ofNat, pow_succ' 256 w, Nat.mod_mul]

theorem length_leBytes (w n : Nat) : (leBytes w n).length = w := by
  induction w generalizing n with
  | zero => rfl
  | succ w ih => simp [leBytes, ih]

theorem leNat_lt (bs : List Byte) : leNat bs < 256 ^ bs.length := by
  induction bs with
  | nil => simp [leNat]
  | cons b bs ih =>
    have := b.isLt
    rw [leNat, List.length_cons, pow_succ']
    omega

/-- One entry of a list that is laid out at `w` bytes each. -/
theorem take_drop_flatMap_leBytes (w : Nat) (fs : List Nat) (j f : Nat) (h : fs[j]? = some f) :
    ((fs.flatMap (leBytes w)).drop (w * j)).take w = leBytes w f := by
  induction fs generalizing j with
  | nil => simp at h
  | cons g fs ih =>
    cases j with
    | zero =>
      obtain rfl : g = f := by simpa using h
      simp [length_leBytes]
    | succ j =>
      rw [List.flatMap_cons, show w * (j + 1) = (leBytes w g).length + w * j by rw [length_leBytes]; ring, List.drop_length_add_append]
      simpa using ih j (by simpa using h)

theorem length_flatMap_leBytes (w : Nat) (fs : List Nat) : (fs.flatMap (leBytes w)).length = w * fs.length := by
  induction fs with
  | nil => rfl
  | cons g fs ih => rw [List.flatMap_cons, List.length_append, ih, length_leBytes, List.length_cons]; ring

end Sys2Proof.Machine

namespace Sys2Proof.Machine

/-! ### Room in the reserved area (R168) -/

theorem lowest_mem : ∀ (l : List Nat) (n : Nat), lowest l = some n → n ∈ l
  | [], n, h => by cases h
  | m :: l, n, h => by
    have ih := lowest_mem l
    simp only [lowest] at h
    split at h
    · obtain rfl : m = n := by simpa using h
      exact List.mem_cons_self
    · next k hk =>
      obtain hmk | hmk := Nat.le_total m k
      · obtain rfl : m = n := by simpa [Nat.min_eq_left hmk] using h
        exact List.mem_cons_self
      · obtain rfl : k = n := by simpa [Nat.min_eq_right hmk] using h
        exact List.mem_cons_of_mem _ (ih k hk)

/-- Where an allocation may lie: aligned, in the reserved area, apart from everything taken there. -/
def State.roomAt (s : State) (p : Fin 4) (align size b : Nat) : Prop :=
  b % align = 0 ∧ s.reserveBase p ≤ b ∧ b + size ≤ s.partSize p
    ∧ ∀ a ∈ (s.part p).taken, a.base + a.size ≤ b ∨ b + size ≤ a.base

/-- An allocation lies where it may. -/
theorem allocate_roomAt {s : State} {p : Fin 4} {align size b : Nat} (h : s.allocate p align size = some b) :
    s.roomAt p align size b := by
  have hfits (b : Nat) (hb : (b % align = 0 && decide (s.reserveBase p ≤ b) && decide (b + size ≤ s.partSize p)
      && !((s.part p).taken.any (fun a => a.meets b size))) = true) : s.roomAt p align size b := by
    simp only [Bool.and_eq_true, decide_eq_true_eq, Bool.not_eq_true', List.any_eq_false, Area.meets] at hb
    obtain ⟨⟨⟨h1, h2⟩, h3⟩, h4⟩ := hb
    refine ⟨h1, h2, h3, fun a ha => ?_⟩
    have := h4 a ha
    omega
  unfold State.allocate at h
  extract_lets +onlyGivenNames q lo fits free at h
  split at h
  · next hfree =>
    rw [← Option.some.inj h]
    exact hfits _ hfree
  · exact hfits b (List.mem_filter.1 (lowest_mem _ _ h)).2

/-- What an allocation depends on. -/
theorem allocate_awake {s t : State} {p : Fin 4} (hp : t.part p = (s.part p).awake) (hf : t.freeCtr = s.freeCtr)
    (align size : Nat) : t.allocate p align size = s.allocate p align size := by
  simp only [State.allocate, State.reserveBase, State.partSize, hp, hf]
  rfl

/-! ### `REGION_MAP` (R173, R176, R178) -/

/-- A page array's entry depends on stack memory alone. -/
theorem frameOf_congr {s t : State} (h : t.mem = s.mem) (p : Fin 4) (r : Region) (n : Nat) : t.frameOf p r n = s.frameOf p r n := by
  simp [State.frameOf, State.readPart, State.bytesAt, State.byteAt, h, List.map_map, Function.comp_def]

/-- A page array that was written as a list of frame numbers holds them. -/
theorem frameOf_writePart (s : State) (p : Fin 4) (r : Region) (fs : List Nat) (hr : r.parray.toNat + 4 * fs.length ≤ 206158430208)
    (hf : ∀ f ∈ fs, f < 2 ^ 32) {j f : Nat} (hj : fs[j]? = some f) :
    (s.writePart p.val r.parray.toNat (fs.flatMap (leBytes 4))).frameOf p r j = f := by
  obtain ⟨hlt, -⟩ := List.getElem?_eq_some_iff.1 hj
  unfold State.frameOf
  rw [readPart_writePart s p.val _ (4 * j) 4 _ (by rw [length_flatMap_leBytes]; exact hr)
    (by rw [length_flatMap_leBytes]; omega), take_drop_flatMap_leBytes 4 fs j f hj, leNat_leBytes]
  exact Nat.mod_eq_of_lt (hf f (List.mem_of_getElem? hj))

/-- The numbers of entries that a table does not use. -/
def State.freeEntries (s : State) (p : Fin 4) : List Nat :=
  (List.range 64).filter (fun n => ((s.part p).regions.get none n).isNone)

theorem mem_freeEntries (s : State) (p : Fin 4) (n : Nat) :
    n ∈ s.freeEntries p ↔ n < 64 ∧ (s.part p).regions.get none n = none := by
  simp [State.freeEntries]

/-- Without a Datum array an entry needs room for its page array alone. The definition is opened as a function: where the kernel
meets its first case distinction alone, it computes the sizes of the reserved area in unary. -/
theorem mapRoom_plain {s : State} {p : Fin 4} {r : Region} {a : Nat} (fs : List Nat) (hd : r.datum = false)
    (ha : s.allocate p 64 (4 * r.size.toNat) = some a) :
    s.mapRoom p r fs = some (s.take p a (4 * r.size.toNat), { r with parray := BitVec.ofNat 40 a, dpart := 0 }) := by
  have hdef : @State.mapRoom = @State.mapRoom := rfl
  conv at hdef => rhs; delta State.mapRoom
  rw [hdef]
  simp only [ha, hd]
  rfl

theorem mapWaits_plain (s : State) (p : Fin 4) {r : Region} (fs : List Nat) (h : r.datum = false) : s.mapWaits p r fs = none := by
  simp [State.mapWaits, h]

/-- The checks of a `REGION_MAP` on its partition's state. -/
def State.mapWrong (s : State) (k : Packet) : Bool :=
  ((s.part (mgmtPart k)).st ≠ .running && (s.part (mgmtPart k)).st ≠ .stopped)
    || (List.finRange 16).any (fun x => (mapRegion k).ctxMask.getLsbD x.val && ((s.part (mgmtPart k)).ctx x).st = .free)

/-- What a `REGION_MAP` leaves before its reply: the frame list in the page array, and the entry. -/
def State.mapped (s : State) (p : Fin 4) (r : Region) (fs : List Nat) (a n : Nat) : State :=
  (((s.take p a (4 * r.size.toNat)).writePart p.val a (fs.flatMap (leBytes 4))).draw 1).updPart p
    (fun q => { q with regions := q.regions.set none n (some { r with parray := BitVec.ofNat 40 a, dpart := 0 }) })

theorem exec_regionMap {k : Packet} {s : State} {a n : Nat} (hr : s.mcqReady = true) (hreach : (s.part (mgmtPart k)).reached)
    (hcheck : s.mapCheck k = none) (hready : s.hi.st = .ready) (hwrong : s.mapWrong k = false) (hd : (mapRegion k).datum = false)
    (hpoison : s.hostPoison (pa k 16) (4 * (mapRegion k).size.toNat) = false)
    (ha : s.allocate (mgmtPart k) 64 (4 * (mapRegion k).size.toNat) = some a) (h40 : a < 2 ^ 40)
    (hfree : s.freeEntries (mgmtPart k) ≠ []) (hn : (s.called k (mgmtPart k)).choose (s.freeEntries (mgmtPart k)) = some n) :
    exec (.regionMap k) s = .next (((s.called k (mgmtPart k)).mapped (mgmtPart k) (mapRegion k) (s.frameList k) a n).answered
      .ok (BitVec.ofNat 32 n)) := by
  have hcalled := (allocate_awake (s := s) (t := s.called k (mgmtPart k)) (p := mgmtPart k) (by rw [part_called hreach, if_pos rfl]) rfl 64
    (4 * (mapRegion k).size.toNat)).trans ha
  have hsame : (s.called k (mgmtPart k)).hostPoison (pa k 16) (4 * (mapRegion k).size.toNat) = false := hpoison
  have hempty : (s.freeEntries (mgmtPart k)).isEmpty = false := by simpa using hfree
  show execRegionMap k s = _
  unfold execRegionMap
  refine mgmtTo_replies hr hreach ?_ ?_
  · rw [hcheck, notReady_ready hready, mapRoom_plain (s.frameList k) hd ha]
    show (none <|> none <|> wrongIf (s.mapWrong k) <|> if (s.freeEntries (mgmtPart k)).isEmpty || false then _ else none) = none
    rw [hwrong, hempty]
    rfl
  · rw [hsame, mapWaits_plain _ _ _ hd, mapRoom_plain (s.frameList k) hd hcalled, if_neg Bool.false_ne_true]
    unfold State.freeEntries at hn
    simp only [hn, BitVec.toNat_ofNat, Nat.mod_eq_of_lt h40]
    rfl

theorem mapped_spec (s : State) (p : Fin 4) (r : Region) (fs : List Nat) (a n : Nat) :
    Grows s (s.mapped p r fs a n) ∧ (s.mapped p r fs a n).hi = s.hi
      ∧ (∀ m, ((s.mapped p r fs a n).part p).regions.get none m
          = if m = n then some { r with parray := BitVec.ofNat 40 a, dpart := 0 } else (s.part p).regions.get none m)
      ∧ (∀ o, o ≠ p → (s.mapped p r fs a n).part o = s.part o)
      ∧ (s.mapped p r fs a n).mem = ((s.take p a (4 * r.size.toNat)).writePart p.val a (fs.flatMap (leBytes 4))).mem := by
  have htake (o : Fin 4) : ((s.take p a (4 * r.size.toNat)).part o).regions = (s.part o).regions
      ∧ (o ≠ p → (s.take p a (4 * r.size.toNat)).part o = s.part o) := by
    rw [State.take, State.updPart_eq, State.part_setPart]
    split
    · subst o
      exact ⟨rfl, fun h => absurd rfl h⟩
    · exact ⟨rfl, fun _ => rfl⟩
  have hgrows : Grows s (s.take p a (4 * r.size.toNat)) := .of_eq rfl
  have hhi : (s.take p a (4 * r.size.toNat)).hi = s.hi := rfl
  unfold State.mapped
  generalize s.take p a (4 * r.size.toNat) = u at htake hgrows hhi ⊢
  have hmem := writePart_onlyMemory u p.val a (fs.flatMap (leBytes 4))
  have hw : Grows u (u.writePart p.val a (fs.flatMap (leBytes 4))) := writeAt_grows u _ _
  generalize u.writePart p.val a (fs.flatMap (leBytes 4)) = w at hmem hw ⊢
  have hpart (o : Fin 4) : w.part o = u.part o := State.part_of_parts u w hmem.parts_eq o
  have hset (o : Fin 4) (f : Part → Part) : ((w.draw 1).updPart p f).part o = if o = p then f (w.part p) else w.part o := by
    rw [State.updPart_eq, State.part_setPart]
    rfl
  refine ⟨hgrows.trans (hw.trans (.of_eq rfl)), hmem.hi_eq.trans hhi, fun m => ?_, fun o ho => ?_, rfl⟩
  · rw [hset, if_pos rfl, hpart, ← (htake p).1]
    simp
  · rw [hset, if_neg ho, hpart, (htake o).2 ho]

/-! ### `REGION_UNMAP` (R179) -/

theorem OnlyPartsClusters.mem_eq {s t : State} (h : OnlyPartsClusters s t) : t.mem = s.mem := by rw [← h]

theorem giveArea_onlyParts (s : State) (p : Fin 4) (b : Nat) : OnlyParts s (s.giveArea p b) := rfl

theorem giveArea_regions (s : State) (p : Fin 4) (b : Nat) (o : Fin 4) : ((s.giveArea p b).part o).regions = (s.part o).regions := by
  rw [State.giveArea, State.updPart_eq, State.part_setPart]
  split
  · subst o
    rfl
  · rfl

/-- Invalidating an entry empties it, and changes stream caches and partitions alone; no other entry changes. -/
theorem unmapEntry_spec (s : State) (p : Fin 4) (n : Nat) :
    OnlyPartsClusters s (s.unmapEntry p n)
      ∧ (∀ m, ((s.unmapEntry p n).part p).regions.get none m = if m = n then none else (s.part p).regions.get none m)
      ∧ ∀ o, o ≠ p → ((s.unmapEntry p n).part o).regions = (s.part o).regions := by
  unfold State.unmapEntry
  split
  · next h =>
    refine ⟨rfl, fun m => ?_, fun _ _ => rfl⟩
    split
    · next hm => rw [hm, h]
    · rfl
  · next r h =>
    extract_lets +onlyGivenNames a b c named
    have ha : OnlyPartsClusters s a ∧ ∀ o, a.part o = s.part o := by
      refine foldl_keeps (fun s t => OnlyPartsClusters s t ∧ ∀ o, t.part o = s.part o) (fun _ => ⟨rfl, fun _ => rfl⟩) ?_ _ ?_ _ s
      · rintro s t u ⟨h1, h2⟩ ⟨h3, h4⟩
        refine ⟨?_, fun o => (h4 o).trans (h2 o)⟩
        unfold OnlyPartsClusters at *
        rw [← h1, ← h3]
      · exact fun s cl => ⟨rfl, fun _ => rfl⟩
    obtain ⟨harest, hapart⟩ := ha
    have hc : OnlyPartsClusters s c
        ∧ (∀ m, (c.part p).regions.get none m = if m = n then none else (s.part p).regions.get none m)
        ∧ ∀ o, o ≠ p → (c.part o).regions = (s.part o).regions := by
      have hb (o : Fin 4) : (c.part o).regions = if o = p then (a.part p).regions.set none n none else (a.part o).regions := by
        refine (giveArea_regions b p _ o).trans ?_
        show (State.part (a.updPart p _) o).regions = _
        rw [State.updPart_eq, State.part_setPart]
        split <;> rfl
      refine ⟨OnlyParts.withClusters harest (OnlyParts.trans (updPart_onlyParts a p _) (giveArea_onlyParts b p _)), fun m => ?_,
        fun o ho => ?_⟩
      · rw [hb, if_pos rfl, Tbl.get_set, hapart]
      · rw [hb, if_neg ho, hapart]
    clear_value named c
    obtain ⟨hcrest, hcp, hco⟩ := hc
    split
    · exact ⟨OnlyParts.withClusters hcrest (giveArea_onlyParts c r.dpart _), fun m => by rw [giveArea_regions, hcp],
        fun o ho => by rw [giveArea_regions, hco o ho]⟩
    · exact ⟨hcrest, hcp, hco⟩

/-- The checks of a `REGION_UNMAP`. -/
def State.unmapBad (s : State) (k : Packet) : Option (Status × Word) :=
  mgmtCheck k 0x08 true [(8, 1)] [(8, decide (63 < pf k 8 1))] <|> s.notReady
    <|> wrongIf (((s.part (mgmtPart k)).st ≠ .running && (s.part (mgmtPart k)).st ≠ .stopped)
      || ((s.part (mgmtPart k)).regions.get none (pf k 8 1)).isNone)

/-- An entry through which nothing is under way is invalidated at once. -/
theorem exec_regionUnmap {k : Packet} {s : State} {r : Region} (hr : (s.part (mgmtPart k)).regions.get none (pf k 8 1) = some r)
    (hb : s.entryBusy (mgmtPart k) r = false) : exec (.regionUnmap k) s
    = mgmtTo s (mgmtPart k) k (s.unmapBad k) (fun s => (s.unmapEntry (mgmtPart k) (pf k 8 1)).mgmtDone .ok 0) := by
  show execRegionUnmap k s = _
  unfold execRegionUnmap
  simp only [hr, hb, Bool.and_false, Bool.false_eq_true, if_false]
  rw [State.unmapBad, hr]

end Sys2Proof.Machine

section
open Sys2Proof Sys2Proof.Machine

/-- Settles O32, from the places of a page array, which a write of the frame list fills, and from the entry alone. -/
theorem regionsMapAndUnmap : Obligations.RegionsMapAndUnmap := by
  intro s k hr hreach
  have hpart := part_called hreach k
  refine ⟨fun hcheck hready hopen hd hrows hctxs hfree hroom hpoison => ?_, fun hf hready hopen hn r hr' hbusy => ?_⟩
  · obtain ⟨n0, hn0, hn0'⟩ := hfree
    have hne : s.freeEntries (mgmtPart k) ≠ [] := List.ne_nil_of_mem ((mem_freeEntries s _ n0).2 ⟨hn0, hn0'⟩)
    obtain ⟨n, hn, hchoose⟩ := choose_mem (s.called k (mgmtPart k)) hne
    obtain ⟨hn64, hnone⟩ := (mem_freeEntries s _ n).1 hn
    obtain ⟨a, ha⟩ := Option.isSome_iff_exists.1 hroom
    obtain ⟨-, -, hend, -⟩ := allocate_roomAt ha
    have hsize : s.partSize (mgmtPart k) ≤ 206158430208 := by
      unfold State.partSize
      omega
    have h40 : a < 2 ^ 40 := by omega
    have hlen : (s.frameList k).length = (mapRegion k).size.toNat := by
      have := pf_lt k 24 4
      simp only [State.frameList, List.length_map, List.length_range, mapRegion, BitVec.toNat_ofNat]
      omega
    have hframes : ∀ f ∈ s.frameList k, f < 2 ^ 32 := by
      intro f hf
      obtain ⟨j, -, rfl⟩ := List.mem_map.1 hf
      simpa [State.hostRead] using leNat_lt (s.hostRead (pa k 16 + 4 * j) 4)
    obtain ⟨⟨pre, hpre⟩, hhi, hregs, hothers, hmem⟩ :=
      mapped_spec (s.called k (mgmtPart k)) (mgmtPart k) (mapRegion k) (s.frameList k) a n
    have hregions : ((s.called k (mgmtPart k)).part (mgmtPart k)).regions = (s.part (mgmtPart k)).regions := by
      rw [hpart, if_pos rfl]
      rfl
    refine ⟨((s.called k (mgmtPart k)).mapped (mgmtPart k) (mapRegion k) (s.frameList k) a n).answered .ok (BitVec.ofNat 32 n),
      pre, n, { mapRegion k with parray := BitVec.ofNat 40 a, dpart := 0 }, ?_, hn64, answered_completes_tagged hpre hhi, hnone,
      ?_, rfl, fun m hm => ?_, fun j f hj => ?_, fun o ho => ?_⟩
    · refine exec_regionMap hr hreach hcheck hready ?_ hd hpoison ha h40 hne hchoose
      simp only [State.mapWrong, Part.open_passes hopen, Bool.false_or, List.any_eq_false, Bool.and_eq_true,
        decide_eq_true_eq, not_and]
      exact fun x _ => hctxs x
    · rw [State.part_answered, hregs, if_pos rfl]
    · rw [State.part_answered, hregs, if_neg hm, hregions]
    · rw [frameOf_congr (State.mem_answered _ _ _), frameOf_congr hmem]
      have hbase : ({ mapRegion k with parray := BitVec.ofNat 40 a, dpart := 0 } : Region).parray.toNat = a := by
        exact Nat.mod_eq_of_lt h40
      have := frameOf_writePart ((s.called k (mgmtPart k)).take (mgmtPart k) a (4 * (mapRegion k).size.toNat)) (mgmtPart k)
        { mapRegion k with parray := BitVec.ofNat 40 a, dpart := 0 } (s.frameList k) (by rw [hbase, hlen]; omega) hframes hj
      rwa [hbase] at this
    · rw [State.part_answered, hothers o ho, hpart, if_neg ho]
  · obtain ⟨hrest, hregs, hothers⟩ := unmapEntry_spec (s.called k (mgmtPart k)) (mgmtPart k) (pf k 8 1)
    have hall := (called_onlyParts s k (mgmtPart k)).thenClusters hrest
    have hregions (o : Fin 4) : ((s.called k (mgmtPart k)).part o).regions = (s.part o).regions := by
      rw [hpart]
      split
      · subst o
        rfl
      · rfl
    refine ⟨((s.called k (mgmtPart k)).unmapEntry (mgmtPart k) (pf k 8 1)).answered .ok 0, ?_,
      answered_completes_tagged ((OnlyPartsClusters.cxlOut_eq hall).trans (List.append_nil _).symm) (OnlyPartsClusters.hi_eq hall), ?_, fun m hm => ?_, ?_, fun o ho => ?_⟩
    · rw [exec_regionUnmap hr' hbusy]
      refine mgmtTo_replies hr hreach ?_ rfl
      rw [State.unmapBad, mgmtCheck_passes hf (by simpa using hn), notReady_ready hready, Part.open_passes hopen, hr']
      rfl
    · rw [State.part_answered, hregs, if_pos rfl]
    · rw [State.part_answered, hregs, if_neg hm, hregions]
    · rw [State.mem_answered]
      exact (OnlyPartsClusters.mem_eq hall).trans rfl
    · rw [State.part_answered, hothers o ho, hregions]

end

namespace Sys2Proof.Machine

/-! ### `CONTEXT_CREATE` (R341, R348) -/

/-- The context that a `CONTEXT_CREATE` makes, with its save area. -/
def Ctx.created (c : Ctx) (b : Nat) : Ctx :=
  { Ctx.reset with
    st := .waiting, save := BitVec.ofNat 40 b, suspend := c.suspend, quantum := c.quantum, quantumNow := c.quantum }

/-- What a `CONTEXT_CREATE` does before its scheduler's turn. -/
def State.withCtx (s : State) (p : Fin 4) (x : Fin 16) (b : Nat) : State :=
  (s.take p b (208 * 2 ^ 20)).updCtx p x (fun c => c.created b)

theorem withCtx_spec (s : State) (p : Fin 4) (x : Fin 16) (b : Nat) :
    (s.withCtx p x b).ctx p x = (s.ctx p x).created b ∧ (s.withCtx p x b).hasWork p x = s.hasWork p x
      ∧ (s.withCtx p x b).cxlOut = s.cxlOut ∧ (s.withCtx p x b).hi = s.hi ∧ (s.withCtx p x b).mem = s.mem := by
  have htake : (s.take p b (208 * 2 ^ 20)).ctx p x = s.ctx p x :=
    ctx_updPart_kept (s.draw 1) p (f := fun q => { q with allocs := q.allocs ++ [⟨b, 208 * 2 ^ 20⟩] }) rfl p x
  have hq : ((s.take p b (208 * 2 ^ 20)).part p).serveQ = (s.part p).serveQ := by
    rw [State.take, State.updPart_eq, State.part_setPart, if_pos rfl]
    rfl
  refine ⟨by rw [State.withCtx, ctx_updCtx, if_pos rfl, htake], ?_, rfl, rfl, rfl⟩
  rw [State.withCtx, (OnlyCtxs.of_updCtx p _ x _).hasWork_eq]
  simp only [State.hasWork, hq]
  rfl

/-- The checks of a `CONTEXT_CREATE` on its partition's state. -/
def State.createWrong (s : State) (k : Packet) : Bool :=
  ((s.part (mgmtPart k)).st ≠ .running && (s.part (mgmtPart k)).st ≠ .stopped) || ((s.part (mgmtPart k)).ctx (ctxAt k 8)).st ≠ .free

theorem exec_contextCreate {k : Packet} {s : State} {b : Nat} (hr : s.mcqReady = true) (hreach : (s.part (mgmtPart k)).reached)
    (hf : MgmtForm k 0x05 true [(8, 1)]) (h8 : pf k 8 1 ≤ 15) (hready : s.hi.st = .ready) (hwrong : s.createWrong k = false)
    (hb : s.allocate (mgmtPart k) (2 ^ 21) (208 * 2 ^ 20) = some b) :
    exec (.contextCreate k) s = .next ((((s.called k (mgmtPart k)).withCtx (mgmtPart k) (ctxAt k 8) b).schedule (mgmtPart k)).answered
      .ok 0) := by
  show execContextCreate k s = _
  unfold execContextCreate
  refine mgmtTo_replies hr hreach ?_ ?_
  · rw [mgmtCheck_passes hf (by simpa using h8), notReady_ready hready, hb]
    show (none <|> none <|> wrongIf (s.createWrong k) <|> none) = none
    rw [hwrong]
    rfl
  · rw [hb]
    rfl

/-! ### `CONTEXT_DESTROY` (R361) -/

/-- A loop over keys, each turn of which changes what stands under its key, in a way that a second turn would not change. -/
theorem foldl_keyed {κ V : Type} [DecidableEq κ] (get : State → κ → V) (f : State → κ → State) (g : V → V)
    (hg : ∀ v, g (g v) = g v) (hf : ∀ s k m, get (f s k) m = if m = k then g (get s k) else get s m) (l : List κ) (s : State)
    (m : κ) : get (l.foldl f s) m = if m ∈ l then g (get s m) else get s m := by
  induction l generalizing s with
  | nil => simp
  | cons k l ih =>
    rw [List.foldl_cons, ih, hf]
    by_cases hm : m = k
    · subst hm
      simp [hg]
    · simp [hm]

/-- What a table answers other than its default stands in it. -/
theorem Tbl.mem_of_get_ne {α : Type} (t : Tbl α) (d : α) (n : Nat) (h : t.get d n ≠ d) : (n, t.get d n) ∈ t := by
  induction t with
  | nil => exact absurd rfl h
  | cons e t ih =>
    obtain ⟨k, v⟩ := e
    rw [Tbl.get_cons] at h ⊢
    split
    · next hk =>
      rw [hk]
      exact .head _
    · next hk =>
      rw [if_neg hk] at h
      exact .tail _ (ih h)

/-- Nothing changes but what work in the device changes: its engines, links, registrations, partitions, clusters, cores and
sequences. Memory and what is on its way to the host stay. -/
def OnlyWork (s t : State) : Prop :=
  { t with
    stks := s.stks, links := s.links, waits := s.waits, parked := s.parked, colls := s.colls, parts := s.parts
    clusters := s.clusters, cores := s.cores, seqs := s.seqs } = s

theorem OnlyWork.trans {s t u : State} (h : OnlyWork s t) (g : OnlyWork t u) : OnlyWork s u := by
  unfold OnlyWork at *
  rw [← h, ← g]

theorem OnlyWork.cxlOut_eq {s t : State} (h : OnlyWork s t) : t.cxlOut = s.cxlOut := by rw [← h]
theorem OnlyWork.hi_eq {s t : State} (h : OnlyWork s t) : t.hi = s.hi := by rw [← h]
theorem OnlyWork.mem_eq {s t : State} (h : OnlyWork s t) : t.mem = s.mem := by rw [← h]

theorem OnlyParts.onlyWork {s t : State} (h : OnlyParts s t) : OnlyWork s t := by
  rw [h.rest]
  rfl

theorem OnlyPartsClusters.onlyWork {s t : State} (h : OnlyPartsClusters s t) : OnlyWork s t := by
  unfold OnlyPartsClusters at h
  unfold OnlyWork
  rw [← h]

/-- What later steps of a context's destruction read of a partition. -/
def Part.kept (q r : Part) : Prop := r.regions = q.regions ∧ r.seqFirst = q.seqFirst ∧ r.seqCount = q.seqCount

theorem Part.kept.trans {q r u : Part} (h : q.kept r) (g : r.kept u) : q.kept u := by
  obtain ⟨h1, h2, h3⟩ := h
  obtain ⟨g1, g2, g3⟩ := g
  exact ⟨g1.trans h1, g2.trans h2, g3.trans h3⟩

theorem part_updPart_kept (s : State) (p : Fin 4) {f : Part → Part} (hf : (s.part p).kept (f (s.part p))) (o : Fin 4) :
    (s.part o).kept ((s.updPart p f).part o) := by
  rw [State.updPart_eq, State.part_setPart]
  split
  · next ho =>
    rw [ho]
    exact hf
  · exact ⟨rfl, rfl, rfl⟩

/-- Nothing changes but stacks' engines. -/
def OnlyStacks (s t : State) : Prop := { t with stks := s.stks } = s

/-- Nothing changes but cores. -/
def OnlyCores (s t : State) : Prop := { t with cores := s.cores } = s

/-- Nothing changes but sequences. -/
def OnlySeqs (s t : State) : Prop := { t with seqs := s.seqs } = s

theorem OnlyStacks.trans {s t u : State} (h : OnlyStacks s t) (g : OnlyStacks t u) : OnlyStacks s u := by
  unfold OnlyStacks at *
  rw [← h, ← g]

theorem OnlyLinks.trans {s t u : State} (h : OnlyLinks s t) (g : OnlyLinks t u) : OnlyLinks s u := by
  unfold OnlyLinks at *
  rw [← h, ← g]

theorem OnlyCores.trans {s t u : State} (h : OnlyCores s t) (g : OnlyCores t u) : OnlyCores s u := by
  unfold OnlyCores at *
  rw [← h, ← g]

theorem OnlySeqs.trans {s t u : State} (h : OnlySeqs s t) (g : OnlySeqs t u) : OnlySeqs s u := by
  unfold OnlySeqs at *
  rw [← h, ← g]

theorem OnlyStacks.rest {s t : State} (h : OnlyStacks s t) : t = { s with stks := t.stks } := by
  unfold OnlyStacks at h
  rw [← h]

theorem OnlyLinks.rest {s t : State} (h : OnlyLinks s t) : t = { s with links := t.links } := by
  unfold OnlyLinks at h
  rw [← h]

theorem OnlyCores.rest {s t : State} (h : OnlyCores s t) : t = { s with cores := t.cores } := by
  unfold OnlyCores at h
  rw [← h]

theorem OnlySeqs.rest {s t : State} (h : OnlySeqs s t) : t = { s with seqs := t.seqs } := by
  unfold OnlySeqs at h
  rw [← h]

theorem foldl_onlyStacks {α : Type} (f : State → α → State) (hf : ∀ s a, OnlyStacks s (f s a)) (l : List α) (s : State) :
    OnlyStacks s (l.foldl f s) := foldl_keeps OnlyStacks (fun _ => rfl) (fun _ _ _ => .trans) f hf l s

theorem foldl_onlyLinks {α : Type} (f : State → α → State) (hf : ∀ s a, OnlyLinks s (f s a)) (l : List α) (s : State) :
    OnlyLinks s (l.foldl f s) := foldl_keeps OnlyLinks (fun _ => rfl) (fun _ _ _ => .trans) f hf l s

theorem foldl_onlyCores {α : Type} (f : State → α → State) (hf : ∀ s a, OnlyCores s (f s a)) (l : List α) (s : State) :
    OnlyCores s (l.foldl f s) := foldl_keeps OnlyCores (fun _ => rfl) (fun _ _ _ => .trans) f hf l s

theorem foldl_onlySeqs {α : Type} (f : State → α → State) (hf : ∀ s a, OnlySeqs s (f s a)) (l : List α) (s : State) :
    OnlySeqs s (l.foldl f s) := foldl_keeps OnlySeqs (fun _ => rfl) (fun _ _ _ => .trans) f hf l s

theorem updStack_onlyStacks (s : State) (k : Fin 12) (f : Stack → Stack) : OnlyStacks s (s.updStack k f) := rfl
theorem updLink_onlyLinks (s : State) (l : Fin 48) (f : Link → Link) : OnlyLinks s (s.updLink l f) := rfl
theorem updCore_onlyCores (s : State) (c : CoreId) (f : Core → Core) : OnlyCores s (s.updCore c f) := rfl
theorem updSeqd_onlySeqs (s : State) (n : Nat) (f : SeqDesc → SeqDesc) : OnlySeqs s (s.updSeqd n f) := rfl

/-- The bank units of a partition drop their work where the context runs. -/
def State.unitsDropped (s : State) (p : Fin 4) (x : Fin 16) : State :=
  if (s.part p).cur = some x then (stacksOf p).foldl (fun s st => s.updStack st Stack.dropUnits) s else s

theorem unitsDropped_onlyStacks (s : State) (p : Fin 4) (x : Fin 16) : OnlyStacks s (s.unitsDropped p x) := by
  unfold State.unitsDropped
  split
  · exact foldl_onlyStacks _ (fun s st => updStack_onlyStacks s st _) _ s
  · rfl

/-- What a context has registered, parked and awaits goes. -/
def State.waitsDropped (s : State) (p : Fin 4) (x : Fin 16) : State :=
  { s.orphan (fun w => w.lane ≠ 3 && w.part = p && w.ctx = x) with
    waits := s.waits.filter (fun w => !(w.part = p && w.ctx = x))
    parked := s.parked.filter (fun k => !(k.part = p && k.ctx = x) || (match k.who with | .read _ _ => true | _ => false))
    colls := s.colls.filter (fun k => !(k.part = p && k.ctx = x)) }

/-- What a context itself, and its partition for it, hold of its work. -/
def State.ctxDropped (s : State) (p : Fin 4) (x : Fin 16) : State :=
  (s.updPart p (fun q => { q with serveQ := q.serveQ.filter (fun r => r.2.1 ≠ x.val) })).updCtx p x
    (fun c => { c with takes := 0, saved := [], mail := [], units := [], waves := [] })

theorem forget_eq (s : State) (p : Fin 4) (x : Fin 16) :
    s.forget p x = (((s.unitsDropped p x).waitsDropped p x).ctxDropped p x) := rfl

theorem retest_nothing {s : State} (h : s.waits = []) : s.retest = s := by
  have hall : s.retestAll = s := by rw [State.retestAll, h, List.foldl_nil]
  rw [State.retest, hall, hall]

theorem breakSems_nothing {s : State} {p : Fin 4} {x : Fin 16} (hheld : (s.ctx p x).held = []) (hwaits : s.waits = []) :
    s.breakSems p x = s.updCtx p x (fun c => { c with held := [] }) := by
  unfold State.breakSems
  rw [hheld]
  exact retest_nothing hwaits

theorem ctxDropped_spec (s : State) (p : Fin 4) (x : Fin 16) :
    OnlyParts s (s.ctxDropped p x) ∧ ((s.ctxDropped p x).ctx p x).held = (s.ctx p x).held
      ∧ (s.part p).kept ((s.ctxDropped p x).part p) := by
  have h1 := part_updPart_kept s p (f := fun q => { q with serveQ := q.serveQ.filter (fun r => r.2.1 ≠ x.val) }) ⟨rfl, rfl, rfl⟩ p
  have h2 := ctx_updPart_kept s p (f := fun q => { q with serveQ := q.serveQ.filter (fun r => r.2.1 ≠ x.val) }) rfl p x
  have h3 := updPart_onlyParts s p (fun q => { q with serveQ := q.serveQ.filter (fun r => r.2.1 ≠ x.val) })
  unfold State.ctxDropped
  generalize s.updPart p _ = u at h1 h2 h3 ⊢
  have h4 := part_updPart_kept u p (f := fun q => q.setCtx x
    { u.ctx p x with takes := 0, saved := [], mail := [], units := [], waves := [] }) ⟨rfl, rfl, rfl⟩ p
  refine ⟨h3.trans rfl, ?_, h1.trans h4⟩
  rw [ctx_updCtx, if_pos rfl, ← h2]

/-- What a context has under way is dropped, where it holds no semaphore and no wait is registered. -/
theorem forget_spec {s : State} {p : Fin 4} {x : Fin 16} (hheld : (s.ctx p x).held = []) (hwaits : s.waits = []) :
    OnlyWork s ((s.forget p x).breakSems p x) ∧ ((s.forget p x).breakSems p x).seqs = s.seqs
      ∧ (s.part p).kept (((s.forget p x).breakSems p x).part p) := by
  have hu := unitsDropped_onlyStacks s p x
  rw [forget_eq]
  generalize s.unitsDropped p x = u at hu ⊢
  have hparts : u.parts = s.parts := by rw [hu.rest]
  have huw : u.waits = [] := by rw [hu.rest, ← hwaits]
  have hv : (u.waitsDropped p x).waits = [] := by rw [State.waitsDropped, huw]; rfl
  have hvparts : (u.waitsDropped p x).parts = s.parts := hparts
  have hvw : OnlyWork s (u.waitsDropped p x) := by rw [hu.rest]; rfl
  have hvs : (u.waitsDropped p x).seqs = s.seqs := by rw [hu.rest]; rfl
  generalize u.waitsDropped p x = v at hv hvparts hvw hvs ⊢
  obtain ⟨hrest, hh, hk⟩ := ctxDropped_spec v p x
  have hvp : v.part p = s.part p := State.part_of_parts s v hvparts p
  have hheld' : ((v.ctxDropped p x).ctx p x).held = [] := by
    rw [hh, State.ctx_of_parts s v hvparts, hheld]
  have hw' : (v.ctxDropped p x).waits = [] := by rw [hrest.rest, ← hv]
  rw [breakSems_nothing hheld' hw', ← hvp]
  have hseqs : (v.ctxDropped p x).seqs = s.seqs := by rw [hrest.rest, ← hvs]
  generalize v.ctxDropped p x = w at hrest hk hseqs ⊢
  exact ⟨(hvw.trans hrest.onlyWork).trans rfl, hseqs, hk.trans (part_updPart_kept w p
    (f := fun q => q.setCtx x { w.ctx p x with held := [] }) ⟨rfl, rfl, rfl⟩ p)⟩

end Sys2Proof.Machine

namespace Sys2Proof.Machine

/-! ### What a destroyed context leaves (R361) -/

/-- A link with the grant of a context taken back. -/
def Link.revoked (x : Fin 16) (k : Link) : Link := { k with grants := k.grants.set ⟨false, 0⟩ x.val ⟨false, 0⟩ }

/-- The links of a partition with the grants of a context taken back. -/
def State.revoke (s : State) (p : Fin 4) (x : Fin 16) : State := (linksOf p).foldl (fun s l => s.updLink l (Link.revoked x)) s

theorem revoke_spec (s : State) (p : Fin 4) (x : Fin 16) :
    OnlyLinks s (s.revoke p x) ∧ ∀ l ∈ linksOf p, ((s.revoke p x).link l).grants.get ⟨false, 0⟩ x.val = ⟨false, 0⟩ := by
  refine ⟨foldl_onlyLinks _ (fun s l => updLink_onlyLinks s l _) _ s, fun l hl => ?_⟩
  refine (foldl_keyed (fun s l => (State.link s l).grants.get ⟨false, 0⟩ x.val) (fun s l => s.updLink l (Link.revoked x))
    (fun _ => ⟨false, 0⟩) (fun _ => rfl) (fun s l m => ?_) (linksOf p) s l).trans (if_pos hl)
  rw [State.updLink_eq, State.link_setLink]
  split
  · rw [Link.revoked, Tbl.get_set, if_pos rfl]
  · rfl

/-- A sequence descriptor that is closed at once: its generation stays. -/
def SeqDesc.closed (d : SeqDesc) : SeqDesc := { SeqDesc.reset with gen := d.gen }

/-- The sequences in use of a context. -/
def State.seqsOfCtx (s : State) (p : Fin 4) (x : Fin 16) : List Nat :=
  (s.seqs.filter (fun e => (s.part p).inRange e.1 && e.2.st ≠ 0 && e.2.ctx.toNat = x.val)).map Prod.fst

theorem mem_seqsOfCtx {s : State} {p : Fin 4} {x : Fin 16} {n : Nat} (hin : (s.part p).inRange n = true) (hst : (s.seqd n).st ≠ 0)
    (hx : (s.seqd n).ctx.toNat = x.val) : n ∈ s.seqsOfCtx p x := by
  have hne : s.seqs.get SeqDesc.reset n ≠ SeqDesc.reset := fun h => hst (by rw [State.seqd, h]; rfl)
  refine List.mem_map.2 ⟨(n, s.seqd n), List.mem_filter.2 ⟨Tbl.mem_of_get_ne s.seqs _ n hne, ?_⟩, rfl⟩
  rw [Bool.and_eq_true, Bool.and_eq_true]
  exact ⟨⟨hin, decide_eq_true hst⟩, decide_eq_true hx⟩

/-- A partition without quarantined pages and release flags of sequences. -/
def Part.seqsClosed (ns : List Nat) (q : Part) : Part :=
  { q with
    quar := q.quar.filter (fun g => !ns.contains g.seq)
    relFlags := q.relFlags.filter (fun f => !ns.contains f.seq) }

theorem closeAll_eq (s : State) (p : Fin 4) (x : Fin 16) : s.closeAll p x
    = ((s.seqsOfCtx p x).foldl (fun s n => s.updSeqd n SeqDesc.closed) s).updPart p (Part.seqsClosed (s.seqsOfCtx p x)) := rfl

/-- The sequences of a context are freed, and its partition's table of entries stays. -/
theorem closeAll_spec (s : State) (p : Fin 4) (x : Fin 16) :
    OnlyWork s (s.closeAll p x) ∧ (s.closeAll p x).links = s.links
      ∧ (∀ n ∈ s.seqsOfCtx p x, (s.closeAll p x).seqd n = (s.seqd n).closed)
      ∧ ((s.closeAll p x).part p).regions = (s.part p).regions := by
  have hrest := foldl_onlySeqs _ (fun s n => updSeqd_onlySeqs s n SeqDesc.closed) (s.seqsOfCtx p x) s
  have hseqs := foldl_keyed State.seqd (fun s n => s.updSeqd n SeqDesc.closed) SeqDesc.closed (fun _ => rfl)
    (fun s n m => by rw [State.updSeqd_eq, State.seqd_setSeqd]) (s.seqsOfCtx p x) s
  rw [closeAll_eq]
  generalize (s.seqsOfCtx p x).foldl (fun s n => s.updSeqd n SeqDesc.closed) s = u at hrest hseqs ⊢
  have hlinks : u.links = s.links := by rw [hrest.rest]
  have hwork : OnlyWork s u := by rw [hrest.rest]; rfl
  have hparts : u.parts = s.parts := by rw [hrest.rest]
  obtain ⟨hregs, -, -⟩ := part_updPart_kept u p (f := Part.seqsClosed (s.seqsOfCtx p x)) ⟨rfl, rfl, rfl⟩ p
  refine ⟨hwork.trans (updPart_onlyParts u p _).onlyWork, hlinks, fun n hn => (hseqs n).trans (if_pos hn), ?_⟩
  rw [hregs, State.part_of_parts s u hparts]

/-- An entry without a context in its mask; one whose mask is left empty goes. -/
def Region.without (x : Fin 16) (r : Region) : Option Region :=
  if r.ctxMask &&& ~~~(BitVec.ofNat 16 (2 ^ x.val)) = 0 then none
  else some { r with ctxMask := r.ctxMask &&& ~~~(BitVec.ofNat 16 (2 ^ x.val)) }

theorem without_mask {x : Fin 16} {r r' : Region} (h : r.without x = some r') : r'.ctxMask.getLsbD x.val = false := by
  unfold Region.without at h
  split at h
  · cases h
  · cases h
    have hpow : BitVec.ofNat 16 (2 ^ x.val) = BitVec.twoPow 16 x.val := by
      rw [BitVec.twoPow]
      exact BitVec.eq_of_toNat_eq (by simp [Nat.shiftLeft_eq])
    rw [hpow, BitVec.getLsbD_and, BitVec.getLsbD_not, BitVec.getLsbD_twoPow]
    simp

/-- One entry's turn: the context is taken out of its mask. -/
def State.unmask (s : State) (p : Fin 4) (x : Fin 16) (n : Nat) : State :=
  match (s.part p).regions.get none n with
  | some r =>
    let m := r.ctxMask &&& ~~~(BitVec.ofNat 16 (2 ^ x.val))
    if m = 0 then s.unmapEntry p n
    else s.updPart p (fun q => { q with regions := q.regions.set none n (some { r with ctxMask := m }) })
  | none => s

theorem unmask_spec (s : State) (p : Fin 4) (x : Fin 16) (n : Nat) :
    OnlyPartsClusters s (s.unmask p x n)
      ∧ ∀ m, ((s.unmask p x n).part p).regions.get none m
          = if m = n then ((s.part p).regions.get none n).bind (Region.without x) else (s.part p).regions.get none m := by
  unfold State.unmask
  split
  · next r h =>
    rw [h]
    dsimp only
    split
    · next hm =>
      obtain ⟨hrest, hregs, -⟩ := unmapEntry_spec s p n
      refine ⟨hrest, fun m => (hregs m).trans ?_⟩
      rw [Option.bind_some, Region.without, if_pos hm]
    · next hm =>
      refine ⟨rfl, fun m => ?_⟩
      rw [State.updPart_eq, State.part_setPart, if_pos rfl, Option.bind_some, Region.without, if_neg hm]
      dsimp only
      rw [Tbl.get_set]
  · next h =>
    refine ⟨rfl, fun m => ?_⟩
    split
    · next hm => rw [hm, h, Option.bind_none]
    · rfl

/-- The entries whose masks name a context. -/
def State.entriesOfCtx (s : State) (p : Fin 4) (x : Fin 16) : List Nat :=
  ((s.part p).regions.filter (fun e => match e.2 with | some r => r.ctxMask.getLsbD x.val | none => false)).map Prod.fst

theorem OnlyPartsClusters.trans {s t u : State} (h : OnlyPartsClusters s t) (g : OnlyPartsClusters t u) : OnlyPartsClusters s u := by
  unfold OnlyPartsClusters at *
  rw [← h, ← g]

/-- A context is taken out of every entry's mask. -/
def State.unmaskAll (s : State) (p : Fin 4) (x : Fin 16) : State := (s.entriesOfCtx p x).foldl (fun s n => s.unmask p x n) s

theorem unmaskAll_spec (s : State) (p : Fin 4) (x : Fin 16) :
    OnlyPartsClusters s (s.unmaskAll p x)
      ∧ ∀ n r, ((s.unmaskAll p x).part p).regions.get none n = some r → r.ctxMask.getLsbD x.val = false := by
  refine ⟨foldl_keeps OnlyPartsClusters (fun _ => rfl) (fun s t u h g => OnlyPartsClusters.trans h g) _
    (fun s n => (unmask_spec s p x n).1) _ s, fun n r hr => ?_⟩
  have hget := foldl_keyed (fun s n => ((State.part s p).regions.get none n).filter (fun r => r.ctxMask.getLsbD x.val))
    (fun s n => s.unmask p x n) (fun _ => none) (fun _ => rfl) (fun s n m => by
      rw [(unmask_spec s p x n).2]
      split
      · rw [Option.filter_eq_none_iff]
        intro r hr
        obtain ⟨r0, -, h⟩ := Option.bind_eq_some_iff.1 hr
        rw [without_mask h]
        decide
      · rfl) (s.entriesOfCtx p x) s n
  rw [← State.unmaskAll, hr] at hget
  by_contra hbit
  rw [Option.filter_some, if_pos (by simpa using hbit)] at hget
  split at hget
  · cases hget
  · next hn =>
    obtain ⟨hmem, hb⟩ := Option.filter_eq_some_iff.1 hget.symm
    have hin := Tbl.mem_of_get_ne (s.part p).regions none n (by rw [hmem]; exact Option.some_ne_none r)
    rw [hmem] at hin
    exact hn (List.mem_map.2 ⟨(n, some r), List.mem_filter.2 ⟨hin, hb⟩, rfl⟩)

end Sys2Proof.Machine

namespace Sys2Proof.Machine

/-! ### The end of a destruction, and the commands -/

/-- A core drops what it still does for a context, and forgets that the context ran there. -/
def Core.parted (x : Fin 16) (y : Core) : Core :=
  { y with
    stopping := y.stopping.filter (fun j => j.share.ctx ≠ x)
    lastCtx := if y.lastCtx = some x.val then none else y.lastCtx }

/-- A context that is destroyed: what is set by its registers stays (R361). -/
def Ctx.freed (c : Ctx) : Ctx := { Ctx.reset with suspend := c.suspend, quantum := c.quantum, quantumNow := c.quantum }

/-- A destroyed context's save area, cores and state go. -/
def State.ctxGone (s : State) (p : Fin 4) (x : Fin 16) : State :=
  ((((coresOfPart p).foldl (fun s c => s.updCore c (Core.parted x)) (s.giveArea p (s.ctx p x).save.toNat)).updCtx p x
    Ctx.freed).leave p x).schedule p

theorem destroyCtx_eq {s : State} {p : Fin 4} {x : Fin 16} (h : s.pktsOf p x = []) :
    s.destroyCtx p x = State.ctxGone
      (State.unmaskAll (((s.forget p x).breakSems p x |>.revoke p x).closeAll p x) p x) p x := by
  unfold State.destroyCtx
  rw [h]
  rfl

/-- Nothing changes but partitions and cores. -/
def OnlyPartsCores (s t : State) : Prop := { t with parts := s.parts, cores := s.cores } = s

theorem OnlyPartsCores.trans {s t u : State} (h : OnlyPartsCores s t) (g : OnlyPartsCores t u) : OnlyPartsCores s u := by
  unfold OnlyPartsCores at *
  rw [← h, ← g]

theorem OnlyParts.withCores {s t : State} (h : OnlyParts s t) : OnlyPartsCores s t := by
  rw [h.rest]
  rfl

theorem OnlyCores.withParts {s t : State} (h : OnlyCores s t) : OnlyPartsCores s t := by
  rw [h.rest]
  rfl

theorem OnlyPartsCores.onlyWork {s t : State} (h : OnlyPartsCores s t) : OnlyWork s t := by
  unfold OnlyPartsCores at h
  unfold OnlyWork
  rw [← h]

theorem OnlyPartsCores.links_eq {s t : State} (h : OnlyPartsCores s t) : t.links = s.links := by rw [← h]
theorem OnlyPartsCores.seqs_eq {s t : State} (h : OnlyPartsCores s t) : t.seqs = s.seqs := by rw [← h]

theorem OnlyPartsClusters.links_eq {s t : State} (h : OnlyPartsClusters s t) : t.links = s.links := by rw [← h]
theorem OnlyPartsClusters.seqs_eq {s t : State} (h : OnlyPartsClusters s t) : t.seqs = s.seqs := by rw [← h]

theorem leave_spec (s : State) (p : Fin 4) (x : Fin 16) :
    OnlyParts s (s.leave p x) ∧ ((s.leave p x).part p).regions = (s.part p).regions
      ∧ ∀ y, (s.leave p x).ctx p y = s.ctx p y := by
  unfold State.leave
  split
  · refine ⟨rfl, (part_updPart_kept s p (f := fun q => { q with cur := none, lastRun := x }) ⟨rfl, rfl, rfl⟩ p).1, fun y => ?_⟩
    exact ctx_updPart_kept s p (f := fun q => { q with cur := none, lastRun := x }) rfl p y
  · exact ⟨rfl, rfl, fun _ => rfl⟩

theorem Part.Scheduled.regions_eq {q r : Part} (h : q.Scheduled r) : r.regions = q.regions := by rw [← h.rest]

/-- At the end of its destruction a context is FREE. -/
theorem ctxGone_spec (s : State) (p : Fin 4) (x : Fin 16) :
    OnlyPartsCores s (s.ctxGone p x) ∧ ((s.ctxGone p x).part p).regions = (s.part p).regions
      ∧ ((s.ctxGone p x).ctx p x).st = .free := by
  have h1 := giveArea_onlyParts s p (s.ctx p x).save.toNat
  have r1 := giveArea_regions s p (s.ctx p x).save.toNat p
  unfold State.ctxGone
  generalize s.giveArea p _ = a at h1 r1 ⊢
  have h2 := foldl_onlyCores _ (fun s c => updCore_onlyCores s c (Core.parted x)) (coresOfPart p) a
  generalize (coresOfPart p).foldl _ a = b at h2 ⊢
  have r2 : b.part p = a.part p := State.part_of_parts a b (by rw [h2.rest]) p
  have c3 := ctx_updCtx b p x Ctx.freed x
  obtain ⟨h3, -, r3⟩ := Scheduled.of_updCtx p b x Ctx.freed
  generalize b.updCtx p x Ctx.freed = c at h3 c3 r3 ⊢
  obtain ⟨h4, r4, c4⟩ := leave_spec c p x
  have hfree : ((c.leave p x).ctx p x).st = .free := by
    rw [c4, c3, if_pos rfl]
    rfl
  generalize c.leave p x = d at h4 r4 hfree ⊢
  obtain ⟨h5, -, r5⟩ := schedule_scheduled d p
  have c5 : (d.schedule p).ctx p x = d.ctx p x := by
    refine schedule_ctx d p x ?_ ?_ ?_ <;> rw [hfree] <;> simp
  refine ⟨?_, by rw [r5.regions_eq, r4, r3.regions_eq, r2, r1], by rw [c5, hfree]⟩
  exact (OnlyParts.withCores h1).trans ((OnlyCores.withParts h2).trans (OnlyParts.withCores ((h3.trans h4).trans h5)))

/-- What a destruction leaves, where the context has no taken packet, no semaphore and nothing waits (R361). -/
theorem destroyCtx_spec {s : State} {p : Fin 4} {x : Fin 16} (hpkts : s.pktsOf p x = []) (hheld : (s.ctx p x).held = [])
    (hwaits : s.waits = []) :
    OnlyWork s (s.destroyCtx p x) ∧ ((s.destroyCtx p x).ctx p x).st = .free
      ∧ (∀ l ∈ linksOf p, ((s.destroyCtx p x).link l).grants.get ⟨false, 0⟩ x.val = ⟨false, 0⟩)
      ∧ (∀ n r, ((s.destroyCtx p x).part p).regions.get none n = some r → r.ctxMask.getLsbD x.val = false)
      ∧ (∀ n, (s.part p).inRange n = true → (s.seqd n).st ≠ 0 → (s.seqd n).ctx.toNat = x.val →
          (s.destroyCtx p x).seqd n = (s.seqd n).closed) := by
  obtain ⟨wa, sa, ra, fa, ca⟩ := forget_spec hheld hwaits
  rw [destroyCtx_eq hpkts]
  generalize (s.forget p x).breakSems p x = a at wa sa ra fa ca ⊢
  obtain ⟨wb, gb⟩ := revoke_spec a p x
  have pb : (a.revoke p x).part p = a.part p := wb.part_eq p
  have sb : (a.revoke p x).seqs = a.seqs := by rw [OnlyLinks.rest wb]
  have wb' : OnlyWork a (a.revoke p x) := by rw [OnlyLinks.rest wb]; rfl
  generalize a.revoke p x = b at wb' gb pb sb ⊢
  obtain ⟨wc, lc, qc, -⟩ := closeAll_spec b p x
  have hin (n : Nat) : (b.part p).inRange n = (s.part p).inRange n := by
    rw [pb, Part.inRange, Part.inRange, fa, ca]
  have hseq (n : Nat) : b.seqd n = s.seqd n := by rw [State.seqd, State.seqd, sb, sa]
  generalize hc : b.closeAll p x = c at wc lc qc ⊢
  obtain ⟨wd, rd⟩ := unmaskAll_spec c p x
  have wd' := OnlyPartsClusters.onlyWork wd
  have ld : (c.unmaskAll p x).links = c.links := OnlyPartsClusters.links_eq wd
  have sd : (c.unmaskAll p x).seqs = c.seqs := OnlyPartsClusters.seqs_eq wd
  generalize c.unmaskAll p x = d at wd' rd ld sd ⊢
  obtain ⟨we, re, fe⟩ := ctxGone_spec d p x
  refine ⟨wa.trans (wb'.trans (wc.trans (wd'.trans we.onlyWork))), fe, fun l hl => ?_, fun n r hr => rd n r (re ▸ hr),
    fun n hn hst hx => ?_⟩
  · rw [State.link, we.links_eq, ld, lc]
    exact gb l hl
  · rw [State.seqd, we.seqs_eq, sd, ← State.seqd, qc n (mem_seqsOfCtx (by rw [hin, hn]) (by rw [hseq]; exact hst)
      (by rw [hseq]; exact hx)), hseq]

/-- The checks of a `CONTEXT_DESTROY` on its partition's state. -/
def State.destroyWrong (s : State) (k : Packet) : Bool :=
  ((s.part (mgmtPart k)).st ≠ .running && (s.part (mgmtPart k)).st ≠ .stopping && (s.part (mgmtPart k)).st ≠ .stopped)
    || ((s.part (mgmtPart k)).ctx (ctxAt k 8)).st = .free

theorem exec_contextDestroy (k : Packet) (s : State) : exec (.contextDestroy k) s
    = mgmtTo s (mgmtPart k) k (mgmtCheck k 0x06 true [(8, 1)] [(8, decide (15 < pf k 8 1))] <|> s.notReady
        <|> wrongIf (s.destroyWrong k)) (fun s => (s.destroyCtx (mgmtPart k) (ctxAt k 8)).mgmtDone .ok 0) := rfl

end Sys2Proof.Machine

section
open Sys2Proof Sys2Proof.Machine

/-- Settles O31, from the area that an allocation finds, and from what each part of a destruction leaves. -/
theorem contextsComeAndGo : Obligations.ContextsComeAndGo := by
  intro s k hr hready h8 hreach
  have hpart := part_called hreach k
  have hctx (x : Fin 16) : (s.called k (mgmtPart k)).ctx (mgmtPart k) x = s.ctx (mgmtPart k) x := by
    rw [State.ctx_eq, hpart, if_pos rfl]
    rfl
  refine ⟨fun hf hopen hfree hroom hwork => ?_, fun hf hst hlive hpkts hheld hwaits => ?_⟩
  · obtain ⟨b, hb⟩ := Option.isSome_iff_exists.1 hroom
    obtain ⟨halign, hlo, hhi, hapart⟩ := allocate_roomAt hb
    have hrows := (s.part (mgmtPart k)).rowsPart.isLt
    have hsize : s.partSize (mgmtPart k) = (s.part (mgmtPart k)).rowsPart.toNat * 12 * 1073741824 := rfl
    obtain ⟨hnew, hidle, hx, hh, hm⟩ := withCtx_spec (s.called k (mgmtPart k)) (mgmtPart k) (ctxAt k 8) b
    have hwork' : (s.called k (mgmtPart k)).hasWork (mgmtPart k) (ctxAt k 8) = false := by
      rw [← hwork]
      simp only [State.hasWork, hpart, if_true]
      rfl
    rw [hctx] at hnew
    generalize hv : (s.called k (mgmtPart k)).withCtx (mgmtPart k) (ctxAt k 8) b = v at hnew hidle hx hh hm
    obtain ⟨hrest, -, -⟩ := schedule_scheduled v (mgmtPart k)
    have hst : ((s.ctx (mgmtPart k) (ctxAt k 8)).created b).st = .waiting := rfl
    have hkept : (v.schedule (mgmtPart k)).ctx (mgmtPart k) (ctxAt k 8) = (s.ctx (mgmtPart k) (ctxAt k 8)).created b := by
      rw [schedule_ctx v, hnew] <;> rw [hnew, hst]
      · decide
      · decide
      · exact fun _ => hidle.trans hwork'
    have hsave : ((s.ctx (mgmtPart k) (ctxAt k 8)).created b).save.toNat = b := by
      refine Nat.mod_eq_of_lt ?_
      omega
    refine ⟨(v.schedule (mgmtPart k)).answered .ok 0, ?_, answered_completes_tagged
      ((hrest.cxlOut_eq.trans hx).trans (List.append_nil _).symm) (hrest.hi_eq.trans hh), ?_⟩
    · rw [← hv]
      refine exec_contextCreate hr hreach hf h8 hready ?_ hb
      have hfree' : ((s.part (mgmtPart k)).ctx (ctxAt k 8)).st = .free := hfree
      rw [State.createWrong, Part.open_passes hopen, hfree']
      rfl
    · simp only [State.ctx_answered, hkept, hsave, State.mem_answered]
      exact ⟨rfl, rfl, rfl, rfl, halign, hlo, hhi, fun a ha => hapart a ha, hrest.mem_eq.trans hm⟩
  · obtain ⟨hwork, hst', hgrants, hregs, hseqs⟩ := destroyCtx_spec (s := s.called k (mgmtPart k)) (p := mgmtPart k)
      (x := ctxAt k 8) hpkts (by rw [hctx, hheld]) hwaits
    rw [hpart, if_pos rfl] at hseqs
    generalize hu : (s.called k (mgmtPart k)).destroyCtx (mgmtPart k) (ctxAt k 8) = u at hwork hst' hgrants hregs hseqs
    refine ⟨u.answered .ok 0, ?_, answered_completes_tagged (hwork.cxlOut_eq.trans (List.append_nil _).symm) hwork.hi_eq, hst',
      hgrants, hregs, fun n hin hn hx => ?_, hwork.mem_eq⟩
    · rw [exec_contextDestroy, ← hu]
      refine mgmtTo_replies hr hreach ?_ rfl
      rw [mgmtCheck_passes hf (by simpa using h8), notReady_ready hready, wrongIf_false]
      · rfl
      · have hlive' : ((s.part (mgmtPart k)).ctx (ctxAt k 8)).st ≠ .free := hlive
        obtain h | h | h := hst <;> simp [State.destroyWrong, h, hlive']
    · rw [State.seqd_answered, hseqs n hin hn hx]
      exact ⟨rfl, rfl⟩

end

namespace Sys2Proof.Machine

/-! ### Commands that a stack engine starts (R24, R219) -/

/-- What starting commands may change: which commands of one engine's queue run. -/
structure OnlyStarts (st : Fin 12) (s t : State) : Prop where
  rest : OnlyStacks s t
  others : ∀ o, o ≠ st → t.stack o = s.stack o
  stack : { t.stack st with queue := (s.stack st).queue } = s.stack st
  order : inOrder (t.stack st).queue = inOrder (s.stack st).queue

namespace OnlyStarts

variable {st : Fin 12} {s t u : State}

theorem refl (st : Fin 12) (s : State) : OnlyStarts st s s := ⟨rfl, fun _ _ => rfl, rfl, rfl⟩

theorem trans (h : OnlyStarts st s t) (g : OnlyStarts st t u) : OnlyStarts st s u :=
  ⟨OnlyStacks.trans h.rest g.rest, fun o ho => (g.others o ho).trans (h.others o ho), by rw [← h.stack, ← g.stack],
    g.order.trans h.order⟩

theorem gates_eq (h : OnlyStarts st s t) : (t.stack st).gates = (s.stack st).gates := by rw [← h.stack]

end OnlyStarts

/-- One command of an engine's queue starts. -/
def StackCmd.started (m j : StackCmd) : StackCmd := if j = m then { m with st := .running } else j

theorem inOrder_started (m : StackCmd) (l : List StackCmd) : inOrder (l.map m.started) = inOrder l := by
  simp only [inOrder, List.map_map]
  refine List.map_congr_left fun j _ => ?_
  simp only [Function.comp_apply, StackCmd.started]
  split
  · next h => rw [h]
  · rfl

theorem start_onlyStarts (s : State) (st : Fin 12) (m : StackCmd) :
    OnlyStarts st s (s.updStack st (fun y => { y with queue := y.queue.map m.started })) := by
  refine ⟨rfl, fun o ho => ?_, ?_, ?_⟩ <;> rw [State.updStack_eq, State.stack_setStack]
  · exact if_neg ho
  · rw [if_pos rfl]
  · rw [if_pos rfl]
    exact inOrder_started m _

theorem startSome_onlyStarts (st : Fin 12) (n : Nat) (s : State) : OnlyStarts st s (s.startSome st n) := by
  induction n generalizing s with
  | zero => exact .refl st s
  | succ n ih =>
    rw [State.startSome]
    split
    · exact .refl st s
    · next m hm =>
      split
      · exact .refl st s
      · exact (start_onlyStarts s st m).trans (ih _)

theorem startCommands_onlyStarts (s : State) (st : Fin 12) : OnlyStarts st s (s.startCommands st) := startSome_onlyStarts st _ s

/-! ### Gates (R24) -/

theorem wakes {s : State} {g : Gated} (h : s.wakeable g = true) : exec (.engineWake g) s = .next (s.ungate g) := if_pos h

/-- A core of a cluster. -/
theorem mem_coresOf (c : CoreId) : c ∈ coresOf c.cluster := by
  obtain ⟨p, cl, k⟩ := c
  simp [coresOf, CoreId.cluster]

/-- An engine of a cluster has work as soon as one of its cores has some. -/
theorem wakeable_dma {s : State} {c : CoreId} (hq : (s.core c).dmaQ ≠ []) (hp : (s.part c.p).pll = .running) :
    s.wakeable (.dma c.cluster) = true := by
  have hany : (coresOf c.cluster).any (fun c => !(s.core c).dmaQ.isEmpty || (s.core c).works .dma (fun _ => true)) = true :=
    List.any_eq_true.2 ⟨c, mem_coresOf c, by simp [hq]⟩
  simp only [State.wakeable, hany, Bool.true_and, decide_eq_true_eq]
  exact hp

theorem wakeable_trav {s : State} {c : CoreId} {m : MacroOp} (hm : m ∈ (s.core c).dmaQ) (hop : m.op = 0x08)
    (hp : (s.part c.p).pll = .running) : s.wakeable (.trav c.cluster) = true := by
  have hqueue : (s.core c).dmaQ.any (fun m => m.op = 0x08) = true := List.any_eq_true.2 ⟨m, hm, decide_eq_true hop⟩
  have hany : (coresOf c.cluster).any (fun c => (s.core c).dmaQ.any (fun m => m.op = 0x08)
      || (s.core c).works .dma (fun m => mop m.word = 0x08)) = true :=
    List.any_eq_true.2 ⟨c, mem_coresOf c, by rw [hqueue]; rfl⟩
  simp only [State.wakeable, hany, Bool.true_and, decide_eq_true_eq]
  exact hp

theorem gate_opened (gates : BitVec 4) (n : Fin 4) : (gates &&& ~~~(BitVec.ofNat 4 (2 ^ n.val))).getLsbD n.val = false := by
  have hpow : BitVec.ofNat 4 (2 ^ n.val) = BitVec.twoPow 4 n.val := by
    rw [BitVec.twoPow]
    exact BitVec.eq_of_toNat_eq (by simp [Nat.shiftLeft_eq])
  rw [hpow, BitVec.getLsbD_and, BitVec.getLsbD_not, BitVec.getLsbD_twoPow]
  simp

/-! ### The core PLL (R27) -/

/-- A step that changes one partition alone. -/
theorem setPart_alone (s : State) (p : Fin 4) (q : Part) :
    (s.setPart p q).part p = q ∧ { s.setPart p q with parts := s.parts } = s ∧ ∀ o, o ≠ p → (s.setPart p q).part o = s.part o := by
  refine ⟨?_, rfl, fun o ho => ?_⟩ <;> rw [State.part_setPart]
  · exact if_pos rfl
  · exact if_neg ho

theorem exec_arrival (s : State) (p : Fin 4) (a : ArrivalKind) :
    exec (.arrival p a) s = .next (s.setPart p ((s.part p).arrived (.event a))) := rfl

theorem exec_idleDelayExpiry {s : State} {p : Fin 4} (hpll : (s.part p).pll = .running) (hctx : ∀ x, ((s.part p).ctx x).st = .free)
    (hbusy : s.partBusy p = false) (hdelay : (s.part p).idleDelay ≠ 0) :
    exec (.idleDelayExpiry p) s = .next (s.setPart p { s.part p with pll := .stopping }) := by
  have hnone : (s.part p).hasContext = false := by simp [Part.hasContext, hctx]
  refine if_pos ?_
  simpa [hpll, hnone, hbusy] using hdelay

theorem exec_pllLocked {s : State} {p : Fin 4} (hpll : (s.part p).pll = .starting) : exec (.pllLocked p) s
    = .next ((s.part p).heldArr.foldl State.releaseHeld (s.setPart p { s.part p with pll := .running, heldArr := [] })) :=
  if_pos hpll

/-- What waits elsewhere is merely let go on. -/
theorem release_events (l : List Held) (h : ∀ e ∈ l, ∃ a, e = .event a) (s : State) : l.foldl State.releaseHeld s = s := by
  induction l with
  | nil => rfl
  | cons e l ih =>
    obtain ⟨a, rfl⟩ := h e (.head _)
    exact ih fun e he => h e (.tail _ he)

end Sys2Proof.Machine

section
open Sys2Proof Sys2Proof.Machine

/-- Settles O17, from the engines that a command may wake and from what an arrival makes of a partition. -/
theorem clocksStopAndStart : Obligations.ClocksStopAndStart := by
  intro s
  refine ⟨fun c hq hp => ?_, fun c hq hp => ?_, fun c hq hp => ?_, fun c m hm hop hp => ?_, fun k n hq => ?_, fun u hu => ?_,
    fun p => ⟨fun hpll hctx hbusy hdelay => ?_, fun hpll => ?_, fun a => ⟨fun hpll => ?_, fun hpll => ?_, fun hpll => ?_,
      fun hpll => ?_⟩, fun hpll hheld => ?_, fun hpll => ?_⟩⟩
  · exact ⟨_, wakes (by simp [State.wakeable, hq, hp]), by simp [State.ungate]⟩
  · exact ⟨_, wakes (by simp [State.wakeable, hq, hp]), by simp [State.ungate]⟩
  · exact ⟨_, wakes (wakeable_dma hq hp), by simp [State.ungate]⟩
  · exact ⟨_, wakes (wakeable_trav hm hop hp), by simp [State.ungate]⟩
  · refine ⟨_, wakes (by simp [State.wakeable, hq]), ?_⟩
    rw [State.ungate, (startCommands_onlyStarts _ k).gates_eq, State.updStack_eq, State.stack_setStack, if_pos rfl]
    exact gate_opened _ n
  · exact ⟨_, wakes (by simp [State.wakeable, hu]), by simp [State.ungate]⟩
  · exact ⟨_, exec_idleDelayExpiry hpll hctx hbusy hdelay, setPart_alone s p _⟩
  · exact ⟨_, if_pos hpll, setPart_alone s p _⟩
  · have harr : (s.part p).arrived (.event a) = { s.part p with pll := .running } := by simp only [Part.arrived, hpll]
    exact ⟨_, exec_arrival s p a, harr ▸ setPart_alone s p _⟩
  · have harr : (s.part p).arrived (.event a) = { s.part p with
        pll := .starting, restarts := satAdd (s.part p).restarts 1, heldArr := (s.part p).heldArr ++ [.event a] } := by
      simp only [Part.arrived, hpll]
    exact ⟨_, exec_arrival s p a, harr ▸ setPart_alone s p _⟩
  · have harr : (s.part p).arrived (.event a) = { s.part p with heldArr := (s.part p).heldArr ++ [.event a] } := by
      simp only [Part.arrived, hpll]
    exact ⟨_, exec_arrival s p a, harr ▸ setPart_alone s p _⟩
  · have harr : (s.part p).arrived (.event a) = s.part p := by simp only [Part.arrived, hpll]
    refine ⟨_, exec_arrival s p a, ?_⟩
    obtain ⟨h1, h2, h3⟩ := setPart_alone s p ((s.part p).arrived (.event a))
    exact ⟨h1.trans harr, h2, h3⟩
  · refine ⟨_, exec_pllLocked hpll, ?_⟩
    rw [release_events _ hheld]
    exact setPart_alone s p _
  · exact exec_pllLocked hpll

end

namespace Sys2Proof.Machine

/-! ## Accesses of device memory (R173 to R177, R183 to R194) -/

/-! ### What translation reads (R173 to R176) -/

/-- Two states translate alike: the entries, the sizes of the spaces and the page arrays are the same. -/
structure SameMap (s t : State) : Prop where
  mem : t.mem = s.mem
  rowsDev : t.rowsDev = s.rowsDev
  regions : ∀ p, (t.part p).regions = (s.part p).regions
  rowsPart : ∀ p, (t.part p).rowsPart = (s.part p).rowsPart

namespace SameMap

variable {s t : State} (h : SameMap s t)
include h

theorem rowsPartOf_eq (k : Nat) : t.rowsPartOf k = s.rowsPartOf k := by rw [State.rowsPartOf, State.rowsPartOf, h.rowsPart]

theorem bankPlace_eq (b : Nat) : t.bankPlace b = s.bankPlace b := by
  have hsize : t.bankSize (b / 2 ^ 36 % 16) = s.bankSize (b / 2 ^ 36 % 16) := by
    simp only [State.bankSize, h.rowsPartOf_eq, h.rowsDev]
  dsimp only [State.bankPlace]
  rw [hsize, h.rowsPartOf_eq, h.rowsDev]

theorem framePlace_eq (p : Fin 4) (k : RegionKind) (f : Nat) : t.framePlace p k f = s.framePlace p k f := by
  have hpart : t.partSize p = s.partSize p := by rw [State.partSize, State.partSize, h.rowsPart]
  have hdev : t.devSize = s.devSize := by rw [State.devSize, State.devSize, h.rowsDev]
  have hplace : t.devPlace f = s.devPlace f := by simp only [State.devPlace, h.rowsPartOf_eq]
  unfold State.framePlace
  rw [hpart, hdev, hplace, h.bankPlace_eq]

theorem translate_eq (p : Fin 4) (x : Fin 16) (a : Nat) : t.translate p x a = s.translate p x a := by
  have hr : t.regionAt p x a = s.regionAt p x a := by rw [State.regionAt, State.regionAt, h.regions]
  unfold State.translate
  rw [hr]
  split
  · rfl
  · dsimp only
    rw [frameOf_congr h.mem, h.framePlace_eq]

theorem translateAll_eq (p : Fin 4) (x : Fin 16) (as : List Nat) : t.translateAll p x as = s.translateAll p x as := by
  induction as with
  | nil => rfl
  | cons a as ih => rw [State.translateAll, State.translateAll, h.translate_eq, ih]

theorem access_eq (p : Fin 4) (x : Fin 16) (as : List Nat) (ok : Region → Bool) : t.access p x as ok = s.access p x as ok := by
  have hf : t.firstUnmapped p x as = s.firstUnmapped p x as := by simp only [State.firstUnmapped, h.translate_eq]
  unfold State.access
  rw [hf, h.translateAll_eq]

end SameMap

theorem translateAll_length {s : State} {p : Fin 4} {x : Fin 16} {as : List Nat} {ts : List Xlat}
    (h : s.translateAll p x as = some ts) : ts.length = as.length := by
  induction as generalizing ts with
  | nil =>
    cases h
    rfl
  | cons a as ih =>
    rw [State.translateAll] at h
    split at h
    · cases h
    · obtain ⟨ts', h', rfl⟩ := Option.map_eq_some_iff.1 h
      rw [List.length_cons, List.length_cons, ih h']

theorem access_length {s : State} {p : Fin 4} {x : Fin 16} {as : List Nat} {ok : Region → Bool} {ts : List Xlat}
    (h : s.access p x as ok = .ok ts) : ts.length = as.length := by
  unfold State.access at h
  split at h
  · cases h
  · split at h
    · cases h
    · next ts' hts =>
      split at h
      · cases h
      · cases h
        exact translateAll_length hts

/-! ### What holds an access up (R26 to R28, R231, R368) -/

/-- Two states hold the same accesses up. -/
structure SameHolds (s t : State) : Prop where
  pll : ∀ p, (t.part p).pll = (s.part p).pll
  lines : ∀ p, (t.part p).lines = (s.part p).lines
  banks : ∀ k, t.bankOpen k = s.bankOpen k
  host : t.hostDir = s.hostDir

theorem SameHolds.heldAt_eq {s t : State} (h : SameHolds s t) (p : Fin 4) (write : Bool) (ps : List Place) :
    (t.heldAt p write ps).isNone = (s.heldAt p write ps).isNone := by
  have hbridge : (t.bridgeWaits p ps).isNone = (s.bridgeWaits p ps).isNone := by
    unfold State.bridgeWaits
    simp only [h.pll]
    split <;> rfl
  have hbanks : t.banksWait ps = s.banksWait ps := by
    unfold State.banksWait
    congr 1
    funext pl
    cases pl
    · simp only [h.banks, h.lines]
    · rfl
  have hblocks : t.hostBlocks write ps = s.hostBlocks write ps := by rw [State.hostBlocks, State.hostBlocks, h.host]
  unfold State.heldAt
  rw [hbanks, hblocks]
  cases ht : t.bridgeWaits p ps <;> cases hs : s.bridgeWaits p ps <;> rw [ht, hs] at hbridge
  · cases s.banksWait ps <;> cases s.hostBlocks write ps <;> rfl
  · cases hbridge
  · cases hbridge
  · rfl

/-! ### The cache, traffic counters and translation caches (R177, R186) -/

/-- What an access counts and caches on its way: traffic of stacks, lines, hits, misses and pages of partitions. -/
structure OnlyTraffic (s t : State) : Prop where
  rest : { t with freeCtr := s.freeCtr, parts := s.parts, stks := s.stks } = s
  part : ∀ p, { t.part p with
    lines := (s.part p).lines, hits := (s.part p).hits, misses := (s.part p).misses, xlat := (s.part p).xlat } = s.part p
  stack : ∀ k, { t.stack k with
    rdBytes := (s.stack k).rdBytes, wrBytes := (s.stack k).wrBytes, picks := (s.stack k).picks } = s.stack k

namespace OnlyTraffic

theorem refl (s : State) : OnlyTraffic s s := ⟨rfl, fun _ => rfl, fun _ => rfl⟩

theorem trans {s t u : State} (h : OnlyTraffic s t) (g : OnlyTraffic t u) : OnlyTraffic s u :=
  ⟨by rw [← h.rest, ← g.rest], fun p => by rw [← h.part p, ← g.part p], fun k => by rw [← h.stack k, ← g.stack k]⟩

theorem of_draw (s : State) (n : Nat) : OnlyTraffic s (s.draw n) := ⟨rfl, fun _ => rfl, fun _ => rfl⟩

theorem of_addTraffic (s : State) (st rd wr picks : Nat) : OnlyTraffic s (s.addTraffic st rd wr picks) := by
  refine ⟨rfl, fun _ => rfl, fun k => ?_⟩
  rw [State.addTraffic, State.updStack_eq, State.stack_setStack]
  split
  · next hk => rw [hk]
  · rfl

theorem of_updPart (s : State) (p : Fin 4) {f : Part → Part} (hf : { f (s.part p) with
    lines := (s.part p).lines, hits := (s.part p).hits, misses := (s.part p).misses, xlat := (s.part p).xlat } = s.part p) :
    OnlyTraffic s (s.updPart p f) := by
  refine ⟨rfl, fun o => ?_, fun _ => rfl⟩
  rw [State.updPart_eq, State.part_setPart]
  split
  · next ho =>
    rw [ho]
    exact hf
  · rfl

theorem foldl {α : Type} (f : State → α → State) (hf : ∀ s a, OnlyTraffic s (f s a)) (l : List α) (s : State) :
    OnlyTraffic s (l.foldl f s) := foldl_keeps OnlyTraffic refl (fun _ _ _ => trans) f hf l s

end OnlyTraffic

theorem makeRoom_onlyTraffic (s : State) (line : Nat) : OnlyTraffic s (s.makeRoom line) := by
  unfold State.makeRoom
  extract_lets +onlyGivenNames rs
  split
  · exact .refl s
  · split
    · exact .refl s
    · next e _ =>
      dsimp only
      have hwritten : OnlyTraffic s (if e.2 = .dirty then s.addTraffic (keyStack (128 * e.1)) 0 128 0 else s) := by
        split
        · exact .of_addTraffic s _ _ _ _
        · exact .refl s
      exact (hwritten.trans (.of_draw _ 1)).trans (.of_updPart _ _ rfl)

theorem lineAccessOf_onlyTraffic (s : State) (w a : Bool) (n picks line : Nat) : OnlyTraffic s (s.lineAccessOf w a n picks line) := by
  unfold State.lineAccessOf
  extract_lets +onlyGivenNames q old present now b c
  have hb : OnlyTraffic s b := by
    show OnlyTraffic s (if _ then s else s.makeRoom line)
    split
    · exact .refl s
    · exact makeRoom_onlyTraffic s line
  have hc : OnlyTraffic s c := hb.trans (.of_addTraffic b _ _ _ _)
  clear_value b c
  exact hc.trans (.of_updPart c q rfl)

theorem accessLines_onlyTraffic (s : State) (w a : Bool) (ts : List Xlat) : OnlyTraffic s (s.accessLines w a ts) :=
  .foldl _ (fun s l => lineAccessOf_onlyTraffic s w a _ _ l) _ s

theorem countTraffic_onlyTraffic (s : State) (w picks : Bool) (ts : List Xlat) : OnlyTraffic s (s.countTraffic w picks ts) := by
  unfold State.countTraffic
  extract_lets +onlyGivenNames keys
  refine .foldl _ (fun s st => ?_) _ s
  dsimp only
  split
  · exact .refl s
  · exact .of_addTraffic s _ _ _ _

theorem walkPage_onlyTraffic (s : State) (p : Fin 4) (g : CachedPage) (r : Region) : OnlyTraffic s (s.walkPage p g r) := by
  unfold State.walkPage
  extract_lets +onlyGivenNames held
  split
  · exact .refl s
  · extract_lets +onlyGivenNames mine gone b kept
    have hb : OnlyTraffic s b := .of_addTraffic s _ _ _ _
    clear_value b
    refine OnlyTraffic.trans ?_ (.of_updPart _ p rfl)
    split
    · exact hb
    · exact hb.trans (.of_draw b 1)

theorem cachePages_onlyTraffic (s : State) (p : Fin 4) (cache : Nat) (x : Fin 16) (ts : List Xlat) :
    OnlyTraffic s (s.cachePages p cache x ts) := .foldl _ (fun s e => walkPage_onlyTraffic s p _ _) _ s

/-! ### Writes of device memory -/

/-- A write's bytes on their way to memory. -/
def State.writeOnWay (s : State) (ts : List Xlat) : State := (s.accessLines true true ts).countTraffic true false ts

theorem writeOnWay_onlyTraffic (s : State) (ts : List Xlat) : OnlyTraffic s (s.writeOnWay ts) :=
  (accessLines_onlyTraffic s true true ts).trans (countTraffic_onlyTraffic _ true false ts)

/-- Where nothing is registered, a write for no cluster tests nothing. -/
theorem devWrite_unwatched (s : State) (ts : List Xlat) (bs : List Byte) (h : s.waits = []) :
    s.devWrite none ts bs = (s.writeOnWay ts).writeAt (ts.any (fun t => t.region.cacheable)) ((placesOf ts).zip bs) := by
  have hway := writeOnWay_onlyTraffic s ts
  show (State.writeAt (s.writeOnWay ts) _ _).retest = _
  generalize s.writeOnWay ts = u at hway ⊢
  have hu : u.waits = [] := by rw [← h, ← hway.rest]
  exact retest_nothing ((writeAt_onlyMemory u _ _).waits_eq.trans hu)

/-- Nothing changes but stored bytes. -/
def OnlyBytes (s t : State) : Prop := { t with mem := s.mem, hostMem := s.hostMem } = s

theorem OnlyBytes.refl (s : State) : OnlyBytes s s := rfl

theorem OnlyBytes.trans {s t u : State} (h : OnlyBytes s t) (g : OnlyBytes t u) : OnlyBytes s u := by
  unfold OnlyBytes at *
  rw [← h, ← g]

theorem OnlyBytes.rest {s t : State} (h : OnlyBytes s t) : t = { s with mem := t.mem, hostMem := t.hostMem } := by
  unfold OnlyBytes at h
  rw [← h]

theorem putByte_onlyBytes (s : State) (p : Place × Byte) : OnlyBytes s (putByte s p) := by
  obtain ⟨k | a, b⟩ := p <;> rfl

/-- Where no word holds an error, there is none to clear. -/
theorem clearGroups_clean {s : State} (gs : List Nat) (he : s.memErr = []) :
    gs.foldl (fun s g => { s with memErr := s.memErr.clear (g * 16) (g * 16 + 16) }) s = s := by
  induction gs with
  | nil => rfl
  | cons g gs ih =>
    have hg : { s with memErr := s.memErr.clear (g * 16) (g * 16 + 16) } = s := by
      rw [he]
      show { s with memErr := [] } = s
      rw [← he]
    rw [List.foldl_cons, hg, ih]

/-- Where no word holds an error and no flip mask is armed, a write changes stored bytes alone. -/
theorem writeAt_onlyBytes {s : State} (cached : Bool) (ps : List (Place × Byte)) (he : s.memErr = []) (hf : s.hk.flips = []) :
    OnlyBytes s (s.writeAt cached ps) := by
  obtain ⟨gs, full, u, hu, h⟩ := writeAt_eq s cached ps
  rw [touch_clean s gs he, clearGroups_clean full he] at hu
  have hbytes : OnlyBytes s u := by
    rw [hu]
    exact foldl_keeps OnlyBytes .refl (fun _ _ _ => .trans) _ putByte_onlyBytes ps s
  rcases h with h | ⟨k, h⟩ <;> rw [h]
  · exact hbytes
  · have hflip : u.hk.flips = [] := by rw [hbytes.rest, ← hf]
    rw [State.flipWrite, hflip]
    exact hbytes

end Sys2Proof.Machine

namespace Sys2Proof.Machine

/-! ## Stack commands (R217 to R220, R228, R229) -/

/-! ### Taking a command (R217, R219) -/

theorem startSome_gated {s : State} {st : Fin 12} (h : (s.stack st).gates = 15) (n : Nat) : s.startSome st n = s := by
  cases n with
  | zero => rfl
  | succ n =>
    rw [State.startSome]
    split
    · rfl
    · rw [if_pos (by simp [h])]

/-- A command that waits alone fits. -/
theorem cmdFits_alone {s : State} {st : Fin 12} {c : StackCmd} (hq : (s.stack st).queue = [c]) (hc : c.st = .queued) :
    s.cmdFits st c = true := by
  have hnone : (s.stack st).queue.filter (fun j => j.st = .running) = [] := by simp [hq, hc]
  simp [State.cmdFits, hnone]

theorem startCommands_alone {s : State} {st : Fin 12} {c : StackCmd} (hq : (s.stack st).queue = [c]) (hc : c.st = .queued)
    (hg : (s.stack st).gates ≠ 15) : ((s.startCommands st).stack st).queue = [{ c with st := .running }] := by
  have hfirst : (s.stack st).queue.find? (fun m => m.st = .queued) = some c := by simp [hq, hc]
  have hlen : (s.stack st).queue.length = 1 := by rw [hq]; rfl
  rw [State.startCommands, hlen, State.startSome, hfirst]
  dsimp only
  rw [cmdFits_alone hq hc, if_neg (by simpa using hg), State.startSome, State.updStack_eq, State.stack_setStack, if_pos rfl]
  simp [hq]

/-- The command that an engine takes for a packet. -/
def Pkt.command (j : Pkt) (m : StackKind) (g : Nat) : StackCmd := ⟨m, j.q, j.i, j.lane, j.laneIdx, g, .queued, 0⟩

/-- A packet with a command fewer to give. -/
def Pkt.gave (j : Pkt) (n : Nat) : Pkt := { j with plan := j.plan.erase n }

/-- An engine's queue with a command behind those it has. -/
def Stack.with' (y : Stack) (c : StackCmd) : Stack := { y with queue := y.queue ++ [c] }

theorem same_self (j : Pkt) : j.same j = true := by simp [Pkt.same]

theorem updPkt_only {s : State} {j : Pkt} (h : s.pkts = [j]) (f : Pkt → Pkt) : s.updPkt j f = { s with pkts := [f j] } := by
  simp [State.updPkt, State.updPkts, h, same_self]

/-- An engine with room takes the command of the only packet, if that is placed in its partition's stacks and has it to give. -/
theorem giveCommand_only {s : State} {m : StackKind} {st : Fin 12} {j : Pkt} {g : Nat} (hpkts : s.pkts = [j]) (hlane : j.lane < 3)
    (hkind : kindIssues m j.kind = true) (hlive : s.live j = true) (hin : j.inStacks = true) (hplan : planKey m j st g ∈ j.plan)
    (howner : ownerOfStack st = j.part) (hroom : (s.stack st).queue.length < 64) :
    s.giveCommand m st j.q j.i g
      = ({ s.updStack st (Stack.with' · (j.command m g)) with pkts := [j.gave (planKey m j st g)] } : State).startCommands st := by
  have hfind : ((s.pkts.filter (fun k => k.q = j.q && k.i = j.i)).filter (fun k => decide (k.lane < 3))
      ++ (s.pkts.filter (fun k => k.q = j.q && k.i = j.i)).filter (fun k => k.lane = 4)).find?
        (fun k => kindIssues m k.kind && s.live k && k.inStacks && k.plan.contains (planKey m k st g) && ownerOfStack st = k.part)
      = some j := by
    simp [hpkts, hlane, hkind, hlive, hin, hplan, howner]
  unfold State.giveCommand
  dsimp only
  rw [hfind]
  dsimp only
  rw [if_neg (by omega)]
  congr 1
  exact updPkt_only (s := s.updStack st (Stack.with' · (j.command m g))) hpkts _

/-- Every command of the table is the taking of its kind's command; all but `ATTEND_D` have no group. -/
theorem exec_stackCommand {x : StackKind × (Fin 12 → Fin 256 → Word → Nat → Instr)} (hx : x ∈ stackCommands) (s : State) (st : Fin 12)
    (q : Fin 256) (i : Word) (g : Nat) (hg : x.1 = .attend ∨ g = 0) :
    exec (x.2 st q i g) s = .next (s.giveCommand x.1 st q.val i g) := by
  simp only [stackCommands, List.mem_cons, List.not_mem_nil, or_false] at hx
  obtain rfl | rfl | rfl | rfl | rfl := hx
  case inr.inl => rfl
  all_goals
    obtain h | rfl := hg
    · cases h
    · rfl

/-- What an engine that takes a command makes of the state. -/
theorem taken_spec (s : State) (st : Fin 12) (c : StackCmd) (js : List Pkt) (hc : c.st = .queued) :
    let t := State.startCommands { s.updStack st (Stack.with' · c) with pkts := js } st
    t.pkts = js ∧ inOrder (t.stack st).queue = inOrder ((s.stack st).queue ++ [c])
      ∧ ((s.stack st).gates = 15 → (t.stack st).queue = (s.stack st).queue ++ [c])
      ∧ ((s.stack st).gates ≠ 15 → (s.stack st).queue = [] → (t.stack st).queue = [{ c with st := .running }])
      ∧ { t.stack st with queue := (s.stack st).queue } = s.stack st ∧ (∀ o, o ≠ st → t.stack o = s.stack o)
      ∧ { t with pkts := s.pkts, stks := s.stks } = s := by
  have hstack (o : Fin 12) : State.stack { s.updStack st (Stack.with' · c) with pkts := js } o
      = if o = st then (s.stack st).with' c else s.stack o := State.stack_setStack ..
  have hrest : { ({ s.updStack st (Stack.with' · c) with pkts := js } : State) with pkts := s.pkts, stks := s.stks } = s := rfl
  have hpkts : State.pkts { s.updStack st (Stack.with' · c) with pkts := js } = js := rfl
  generalize ({ s.updStack st (Stack.with' · c) with pkts := js } : State) = u at hstack hrest hpkts ⊢
  have hself : u.stack st = (s.stack st).with' c := (hstack st).trans (if_pos rfl)
  obtain ⟨hstks, hothers, hsame, horder⟩ := startCommands_onlyStarts u st
  refine ⟨?_, by rw [horder, hself]; rfl, fun hg => ?_, fun hg hq => ?_, ?_, fun o ho => ?_, ?_⟩
  · rw [OnlyStacks.rest hstks]
    exact hpkts
  · rw [State.startCommands, startSome_gated (by rw [hself]; exact hg), hself]
    rfl
  · exact startCommands_alone (by rw [hself, Stack.with', hq]; rfl) hc (by rw [hself]; exact hg)
  · rw [hself] at hsame
    calc { (u.startCommands st).stack st with queue := (s.stack st).queue }
        = { { (u.startCommands st).stack st with queue := ((s.stack st).with' c).queue } with queue := (s.stack st).queue } := rfl
      _ = s.stack st := by rw [hsame]; rfl
  · rw [hothers o ho, hstack, if_neg ho]
  · rw [OnlyStacks.rest hstks]
    exact hrest

/-! ### Completion (R219, R229) -/

/-- What an engine's SRAM holds changes, and nothing else. -/
structure OnlySram (st : Fin 12) (s t : State) : Prop where
  rest : OnlyStacks s t
  others : ∀ o, o ≠ st → t.stack o = s.stack o
  stack : { t.stack st with sram := (s.stack st).sram, sramErr := (s.stack st).sramErr } = s.stack st

theorem OnlySram.of_updStack (s : State) (st : Fin 12) {f : Stack → Stack}
    (hf : ∀ y, { f y with sram := y.sram, sramErr := y.sramErr } = y) : OnlySram st s (s.updStack st f) := by
  refine ⟨rfl, fun o ho => ?_, ?_⟩ <;> rw [State.updStack_eq, State.stack_setStack]
  · exact if_neg ho
  · rw [if_pos rfl, hf]

theorem OnlySram.trans {st : Fin 12} {s t u : State} (h : OnlySram st s t) (g : OnlySram st t u) : OnlySram st s u :=
  ⟨OnlyStacks.trans h.rest g.rest, fun o ho => (g.others o ho).trans (h.others o ho), by rw [← h.stack, ← g.stack]⟩

/-- A stack engine's SRAM with a command's operands in it, and no error among them. -/
def Stack.loaded (bs : List Byte) (y : Stack) : Stack :=
  { y with
    sram := y.sram.setMany 0 0 (bs.take (2 ^ 23))
    sramErr := (y.sramErr.clear 0 (cdiv (max 1 bs.length) 4)).set 0 0 0 }

theorem loadSram_unarmed (s : State) (st : Fin 12) (bs : List Byte) (hf : s.hk.flips = []) :
    s.loadSram st bs = s.updStack st (Stack.loaded bs) := by
  unfold State.loadSram
  rw [fire_unarmed s _ hf]
  rfl

/-- With no flip mask armed, a command reads its operands from SRAM as it wrote them. -/
theorem useSram_quiet (s : State) (st : Fin 12) (m : StackCmd) (k : Pkt) (hf : s.hk.flips = []) :
    ∃ u, s.useSram st m k = (u, false) ∧ OnlySram st s u := by
  have hgood : (((s.updStack st (Stack.loaded (s.sramBytes st m k))).stack st).sramErr.get 0 0) = 0 := by
    rw [State.updStack_eq, State.stack_setStack, if_pos rfl, Stack.loaded, Tbl.get_set, if_pos rfl]
  have hload := OnlySram.of_updStack s st (f := Stack.loaded (s.sramBytes st m k)) (fun _ => rfl)
  unfold State.useSram
  dsimp only
  rw [loadSram_unarmed s st _ hf]
  generalize s.updStack st (Stack.loaded (s.sramBytes st m k)) = u at hgood hload ⊢
  rw [hgood, show eccOf 0 = .good from rfl]
  exact ⟨_, rfl, hload.trans (.of_updStack u st (f := fun y => { y with sramErr := y.sramErr.set 0 0 0 }) fun _ => rfl)⟩

namespace OnlySram

variable {st : Fin 12} {s t : State} (h : OnlySram st s t)
include h

theorem part_eq (p : Fin 4) : t.part p = s.part p := by rw [OnlyStacks.rest h.rest]; rfl
theorem pkts_eq : t.pkts = s.pkts := by rw [OnlyStacks.rest h.rest]
theorem mem_eq : t.mem = s.mem := by rw [OnlyStacks.rest h.rest]
theorem queue_eq (o : Fin 12) : (t.stack o).queue = (s.stack o).queue := by
  by_cases ho : o = st
  · rw [ho, ← h.stack]
  · rw [h.others o ho]

theorem sameMap : SameMap s t :=
  ⟨h.mem_eq, by rw [OnlyStacks.rest h.rest], fun p => by rw [h.part_eq], fun p => by rw [h.part_eq]⟩

theorem unitsOf_eq (o : Fin 12) : (t.stack o).units = (s.stack o).units ∧ (t.stack o).spares = (s.stack o).spares
    ∧ (t.stack o).migrating = (s.stack o).migrating := by
  by_cases ho : o = st
  · rw [ho, ← h.stack]
    exact ⟨rfl, rfl, rfl⟩
  · rw [h.others o ho]
    exact ⟨rfl, rfl, rfl⟩

theorem bankOpen_eq (k : Nat) : t.bankOpen k = s.bankOpen k := by
  have hpair (u : UnitId) : t.pairOf u = s.pairOf u := by
    obtain ⟨-, hs, hm⟩ := h.unitsOf_eq u.s
    simp only [State.pairOf, hs, hm]
  have hunit (u : UnitId) : t.unit u = s.unit u := by
    obtain ⟨hu, -, -⟩ := h.unitsOf_eq u.s
    simp only [State.unit, Stack.unit, hu]
  simp only [State.bankOpen, State.servedBy, hpair, hunit]

theorem sameHolds : SameHolds s t :=
  ⟨fun p => by rw [h.part_eq], fun p => by rw [h.part_eq], h.bankOpen_eq, by rw [OnlyStacks.rest h.rest]⟩

end OnlySram

theorem SameMap.gatherPairs_eq {s t : State} (h : SameMap s t) (k : Pkt) (st : Fin 12) : t.gatherPairs k st = s.gatherPairs k st := by
  have hs : t.stackAt = s.stackAt := by
    funext p x a
    rw [State.stackAt, State.stackAt, h.translate_eq]
  simp only [State.gatherPairs, hs]

/-- A completion whose command has computed all of its parts: the command ends. -/
theorem exec_stackCommandComplete {s u v : State} {st : Fin 12} {n : Nat} {m : StackCmd} {j : Pkt}
    (hq : (s.stack st).queue[n]? = some m) (hpkts : s.pkts = [j]) (hof : m.of j = true)
    (hfirst : ∀ o ∈ (s.stack st).queue.take n, o.of j = false) (hm : m.st = .running) (hg : (s.stack st).gates ≠ 15)
    (hlive : s.live j = true) (husram : s.useSram st m j = (u, false))
    (hrun : u.runCommand st m j m.done (u.cmdParts st m j) = (v, true)) (hv : v.pkts = [j]) :
    exec (.stackCommandComplete st n) s = .next ((v.countProxy st m j).endCommand st m j) := by
  have hpkt : s.pktOfCmd m = some j := by simp [State.pktOfCmd, hpkts, hof]
  have hnow : v.now j = some j := by simp [State.now, hv, same_self]
  have hstatus : j.status = .ok := by
    simp only [State.live, Bool.and_eq_true, decide_eq_true_eq] at hlive
    exact hlive.1.1.1.2
  have hnone : ((s.stack st).queue.take n).any (fun o => o.of j) = false := List.any_eq_false.2 fun o ho => by rw [hfirst o ho]; decide
  show execStackCommandComplete st n s = _
  unfold execStackCommandComplete
  simp only [hq, hpkt, hnone, hm, hlive, husram, hrun, hnow, hstatus, hg, decide_false, ne_eq, not_true_eq_false, Bool.not_false,
    Bool.not_true, Bool.or_false, Bool.false_eq_true, if_false, if_true]

/-- An engine without one of its commands; with none it is gated (R24). -/
def Stack.without (y : Stack) (m : StackCmd) : Stack :=
  { y with queue := y.queue.erase m, gates := if (y.queue.erase m).isEmpty then 15 else y.gates }

theorem endCommand_spec {s : State} {st : Fin 12} {m : StackCmd} {j : Pkt} (hpkts : s.pkts = [j]) (hk : j.kind ≠ .pageServe) :
    inOrder ((s.endCommand st m j).stack st).queue = inOrder ((s.stack st).queue.erase m)
      ∧ (s.endCommand st m j).pkts = [{ j with cmdsLeft := j.cmdsLeft - 1 }]
      ∧ { s.endCommand st m j with stks := s.stks, pkts := s.pkts } = s := by
  have hstack : (s.updStack st (Stack.without · m)).stack st = (s.stack st).without m := by
    rw [State.updStack_eq, State.stack_setStack, if_pos rfl]
  have hrest : OnlyStacks s (s.updStack st (Stack.without · m)) := rfl
  have hend : s.endCommand st m j
      = ((s.updStack st (Stack.without · m)).startCommands st).updPkt j (fun j => { j with cmdsLeft := j.cmdsLeft - 1 }) := if_neg hk
  rw [hend]
  generalize s.updStack st (Stack.without · m) = u at hstack hrest ⊢
  obtain ⟨hstks, -, -, horder⟩ := startCommands_onlyStarts u st
  have hall := OnlyStacks.trans hrest hstks
  generalize u.startCommands st = v at horder hall ⊢
  have hv : v.pkts = [j] := by rw [OnlyStacks.rest hall]; exact hpkts
  rw [updPkt_only hv]
  refine ⟨?_, rfl, ?_⟩
  · rw [hstack] at horder
    exact horder
  · rw [OnlyStacks.rest hall]

/-- Counting runs in proxy mode changes a counter of one stack. -/
theorem countProxy_spec (s : State) (st : Fin 12) (m : StackCmd) (k : Pkt) :
    OnlyStacks s (s.countProxy st m k) ∧ ((s.countProxy st m k).stack st).queue = (s.stack st).queue := by
  unfold State.countProxy
  dsimp only
  split
  · exact ⟨rfl, rfl⟩
  · refine ⟨rfl, ?_⟩
    rw [State.updStack_eq, State.stack_setStack, if_pos rfl]

/-- What the end of a stack command leaves: its queue without it, its packet with one fewer to await, and memory as it was. -/
theorem commandEnds {v : State} {st : Fin 12} {m : StackCmd} {j : Pkt} (hv : v.pkts = [j]) (hk : j.kind ≠ .pageServe) :
    let t := (v.countProxy st m j).endCommand st m j
    inOrder (t.stack st).queue = inOrder ((v.stack st).queue.erase m) ∧ t.pkts = [{ j with cmdsLeft := j.cmdsLeft - 1 }]
      ∧ t.mem = v.mem ∧ t.hostMem = v.hostMem := by
  obtain ⟨hrest, hqueue⟩ := countProxy_spec v st m j
  generalize v.countProxy st m j = w at hrest hqueue ⊢
  obtain ⟨horder, hpkts, hend⟩ := endCommand_spec (s := w) (st := st) (m := m) (j := j) (by rw [OnlyStacks.rest hrest]; exact hv) hk
  refine ⟨by rw [horder, hqueue], hpkts, ?_, ?_⟩
  · calc _ = w.mem := congrArg State.mem hend
      _ = v.mem := by rw [OnlyStacks.rest hrest]
  · calc _ = w.hostMem := congrArg State.hostMem hend
      _ = v.hostMem := by rw [OnlyStacks.rest hrest]

end Sys2Proof.Machine

namespace Sys2Proof.Machine

/-! ### Bytes that a device write stores -/

/-- The bytes that a write stores are there after it, whatever errors it meets. -/
theorem bytesAt_writeAt (s : State) (cached : Bool) {pls : List Place} {bs : List Byte} (hn : pls.Nodup)
    (hlen : bs.length = pls.length) : (s.writeAt cached (pls.zip bs)).bytesAt pls = bs := by
  refine List.ext_getElem (by simp [State.bytesAt, hlen]) fun i h1 h2 => ?_
  have hfst : ((pls.zip bs).map Prod.fst) = pls := List.map_fst_zip hlen.ge
  have hi : i < pls.length := by omega
  have hmem : (pls[i], bs[i]) ∈ pls.zip bs := List.mem_iff_getElem.2 ⟨i, by simp; omega, by simp⟩
  simpa [State.bytesAt] using byteAt_writeAt_stored s cached (pls.zip bs) (by rw [hfst]; exact hn) _ _ hmem

theorem OnlyTraffic.byteAt_eq {s t : State} (h : OnlyTraffic s t) (pl : Place) : t.byteAt pl = s.byteAt pl := by
  rw [← h.rest]
  cases pl <;> rfl

/-- A write where no word holds an error, no flip mask is armed and nothing is registered stores its bytes, and changes no other. -/
theorem devWrite_quiet {s : State} {ts : List Xlat} {bs : List Byte} (hw : s.waits = []) (he : s.memErr = []) (hf : s.hk.flips = [])
    (hn : (placesOf ts).Nodup) (hlen : bs.length = ts.length) :
    (∃ u, OnlyTraffic s u ∧ OnlyBytes u (s.devWrite none ts bs))
      ∧ (s.devWrite none ts bs).bytesAt (placesOf ts) = bs
      ∧ ∀ pl, pl ∉ placesOf ts → (s.devWrite none ts bs).byteAt pl = s.byteAt pl := by
  have hlen' : bs.length = (placesOf ts).length := by rw [hlen, placesOf, List.length_map]
  have hfst : ((placesOf ts).zip bs).map Prod.fst = placesOf ts := List.map_fst_zip hlen'.ge
  rw [devWrite_unwatched s ts bs hw]
  have hway := writeOnWay_onlyTraffic s ts
  generalize s.writeOnWay ts = u at hway ⊢
  have hue : u.memErr = [] := by rw [← he, ← hway.rest]
  have huf : u.hk.flips = [] := by rw [← hf, ← hway.rest]
  refine ⟨⟨u, hway, writeAt_onlyBytes _ _ hue huf⟩, bytesAt_writeAt u _ hn hlen', fun pl hpl => ?_⟩
  rw [(byteAt_writeAt u _ _ hue (by rw [hfst]; exact hn) pl).2 (by rw [hfst]; exact hpl), hway.byteAt_eq]

/-! ### Memory without poison (R394, R396) -/

theorem groupPoisoned_clean {s : State} (he : s.memErr = []) (g : Nat) : s.groupPoisoned g = false := by
  simp [State.groupPoisoned, he]

theorem wordPoisoned_clean {s : State} (he : s.memErr = []) (hh : s.hostErr = []) (pl : Place) : s.wordPoisoned pl = false := by
  cases pl <;> simp [State.wordPoisoned, he, hh]

/-- Where no word and no host line is poisoned, a read finds nothing. -/
theorem poisonIn_clean {s : State} (he : s.memErr = []) (hh : s.hostErr = []) (as : List Nat) (ts : List Xlat) :
    s.poisonIn as ts = (s, none) := by
  have hnone : (as.zip ts).find? (fun e => match e.2.place with
      | .dram k => s.groupPoisoned (k / 64)
      | .host a => s.hostErr.get false (a / 64)) = none := by
    rw [List.find?_eq_none]
    rintro ⟨a, n, r, p, pl⟩ -
    cases pl
    · simp [groupPoisoned_clean he]
    · simp [hh]
  unfold State.poisonIn
  dsimp only
  rw [touch_clean s _ he]
  refine Prod.ext rfl ?_
  dsimp only
  refine Option.map_eq_none_iff.2 ?_
  refine Eq.trans ?_ hnone
  congr 1

/-- A write of bytes none of which derives from poison. -/
theorem poisonWrite_clean (s : State) (ts : List Xlat) {o : List (Nat × Byte × Bool)} (ho : ∀ e ∈ o, e.2.2 = false) :
    s.poisonWrite ts o = (s.devWrite none ts (o.map (fun e => e.2.1)), none) := by
  have hbad : (o.zip ts).filter (fun e => e.1.2.2) = [] := by
    rw [List.filter_eq_nil_iff]
    rintro ⟨e, t⟩ he
    rw [ho e (List.of_mem_zip he).1]
    decide
  have hfind : o.find? (fun e => e.2.2) = none := by
    rw [List.find?_eq_none]
    intro e he
    rw [ho e he]
    decide
  unfold State.poisonWrite
  dsimp only
  rw [hbad, hfind]
  rfl

/-! ### `GATHER` of a `COPY` (R228) -/

/-- A gather whose source and destination translate, and which nothing holds up. -/
theorem runGather_quiet {s : State} {st : Fin 12} {j : Pkt} {ts tw : List Xlat} (hquiet : quietMemory s) (hreach : reaches s j.part true tw)
    (hts : s.access j.part j.ctx ((s.gatherPairs j st).map Prod.snd) (fun r => r.kind = .bank) = .ok ts)
    (htw : s.access j.part j.ctx ((s.gatherPairs j st).map Prod.fst) (Region.writable false) = .ok tw) (hn : (placesOf tw).Nodup) :
    ∃ u v, s.runGather st j 0 (cdiv (s.gatherPairs j st).length 4096) = (v, true) ∧ OnlyTraffic s u ∧ OnlyBytes u v
      ∧ v.bytesAt (placesOf tw) = s.bytesAt (placesOf ts) ∧ ∀ pl, pl ∉ placesOf tw → v.byteAt pl = s.byteAt pl := by
  obtain ⟨he, hh, hf, hw, -⟩ := hquiet
  have hall : ((s.gatherPairs j st).drop (4096 * 0)).take (4096 * (cdiv (s.gatherPairs j st).length 4096 - 0)) = s.gatherPairs j st := by
    refine List.take_of_length_le ?_
    simp only [Nat.mul_zero, List.drop_zero, cdiv]
    omega
  have hlts := access_length hts
  have hltw := access_length htw
  unfold State.runGather
  dsimp only
  rw [hall, hts]
  dsimp only
  rw [htw]
  dsimp only
  have hheld : s.heldUp j.part true tw = none := Option.isNone_iff_eq_none.1 hreach
  rw [hheld, poisonIn_clean he hh]
  dsimp only
  generalize (ts.filterMap _ : List Nat).dedup.length = n
  have hway := (OnlyTraffic.of_addTraffic s st.val 0 0 n).trans (cachePages_onlyTraffic _ j.part 10 j.ctx (ts ++ tw))
  generalize (s.addTraffic st.val 0 0 n).cachePages j.part 10 j.ctx (ts ++ tw) = u at hway ⊢
  have hue : u.memErr = [] := by rw [← he, ← hway.rest]
  have huh : u.hostErr = [] := by rw [← hh, ← hway.rest]
  have huf : u.hk.flips = [] := by rw [← hf, ← hway.rest]
  have huw : u.waits = [] := by rw [← hw, ← hway.rest]
  have hclean : ∀ e ∈ ((s.gatherPairs j st).zip ts).map (fun e => (e.1.1, u.byteAt e.2.place, u.wordPoisoned e.2.place)),
      e.2.2 = false := by
    intro e hmem
    obtain ⟨e0, -, rfl⟩ := List.mem_map.1 hmem
    exact wordPoisoned_clean hue huh _
  rw [poisonWrite_clean u tw hclean]
  dsimp only
  have hbytes : (((s.gatherPairs j st).zip ts).map (fun e => (e.1.1, u.byteAt e.2.place, u.wordPoisoned e.2.place))).map
      (fun e => e.2.1) = s.bytesAt (placesOf ts) := by
    have hsnd : ((s.gatherPairs j st).zip ts).map Prod.snd = ts := List.map_snd_zip (by rw [hlts, List.length_map])
    calc _ = (((s.gatherPairs j st).zip ts).map Prod.snd).map (fun t => u.byteAt t.place) := by simp [List.map_map, Function.comp_def]
      _ = s.bytesAt (placesOf ts) := by
        rw [hsnd, State.bytesAt, placesOf, List.map_map]
        exact List.map_congr_left fun t _ => hway.byteAt_eq t.place
  rw [hbytes]
  obtain ⟨⟨w, hw1, hw2⟩, hstored, hkept⟩ := devWrite_quiet huw hue huf hn (bs := s.bytesAt (placesOf ts))
    (by simp only [State.bytesAt, placesOf, List.length_map] at hlts hltw ⊢; omega)
  exact ⟨w, _, rfl, hway.trans hw1, hw2, hstored, fun pl hpl => (hkept pl hpl).trans (hway.byteAt_eq pl)⟩

theorem OnlyTraffic.queue_eq {s t : State} (h : OnlyTraffic s t) (k : Fin 12) : (t.stack k).queue = (s.stack k).queue := by
  rw [← h.stack k]

theorem OnlyTraffic.pkts_eq {s t : State} (h : OnlyTraffic s t) : t.pkts = s.pkts := by rw [← h.rest]

theorem OnlySram.byteAt_eq {st : Fin 12} {s t : State} (h : OnlySram st s t) (pl : Place) : t.byteAt pl = s.byteAt pl := by
  rw [OnlyStacks.rest h.rest]
  cases pl <;> rfl

theorem byteAt_congr {s t : State} (hm : t.mem = s.mem) (hh : t.hostMem = s.hostMem) (pl : Place) : t.byteAt pl = s.byteAt pl := by
  cases pl <;> simp [State.byteAt, hm, hh]

theorem OnlySram.quiet {st : Fin 12} {s t : State} (h : OnlySram st s t) (hq : quietMemory s) : quietMemory t := by
  rw [OnlyStacks.rest h.rest]
  exact hq

end Sys2Proof.Machine

section
open Sys2Proof Sys2Proof.Machine

/-- Settles O51, from what an engine with room takes, and from what the end of a command leaves. -/
theorem Sys2Proof.stackCommands : Obligations.StackCommands := by
  refine ⟨fun x hx s st q i g j hg hpkts hq hi hlane hkind hlive hin hplan howner hroom => ?_,
    fun s st n m j hq hpkts hof hfirst hm hgates hlive hflips => ⟨fun ts tw hkind hcopy hdone hquiet hreach hts htw hn => ?_,
      fun hkind hattend hopen => ?_⟩⟩
  · subst hi
    refine ⟨_, by rw [exec_stackCommand hx s st q j.i g hg, ← hq, giveCommand_only hpkts hlane hkind hlive hin hplan howner hroom],
      ?_⟩
    obtain ⟨h1, h2, h3, h4, h5, h6, h7⟩ := taken_spec s st (j.command x.1 g) [j.gave (planKey x.1 j st g)] rfl
    exact ⟨h1, ⟨h2, h3, h4⟩, h5, h6, h7⟩
  · obtain ⟨u, huse, hsram⟩ := useSram_quiet s st m j hflips
    have hmap := hsram.sameMap
    have hpairs := hmap.gatherPairs_eq j st
    have hreach' : reaches u j.part true tw := (hsram.sameHolds.heldAt_eq j.part true (placesOf tw)).trans hreach
    obtain ⟨a, v, hrun, hway, hbytes, hstored, hkept⟩ := runGather_quiet (hsram.quiet hquiet) hreach'
      (by rw [hpairs, hmap.access_eq]; exact hts) (by rw [hpairs, hmap.access_eq]; exact htw) hn
    have hvpkts : v.pkts = [j] := by rw [hbytes.rest, ← hpkts, ← hsram.pkts_eq, ← hway.pkts_eq]
    have hvqueue : (v.stack st).queue = (s.stack st).queue := by
      rw [← hsram.queue_eq, ← hway.queue_eq, hbytes.rest]
      rfl
    have hserve : j.kind ≠ .pageServe := by rw [hcopy]; decide
    obtain ⟨hends, hfewer, hmem, hhost⟩ := commandEnds (st := st) (m := m) hvpkts hserve
    refine ⟨_, exec_stackCommandComplete hq hpkts hof hfirst hm hgates hlive huse (v := v) ?_ hvpkts,
      ⟨by rw [hends, hvqueue], hfewer⟩, ?_, fun pl hpl => ?_⟩
    · simp only [State.runCommand, State.cmdParts, hkind, hcopy, hdone]
      exact hrun
    · have hsame : State.bytesAt ((v.countProxy st m j).endCommand st m j) = v.bytesAt := by
        funext pls
        exact List.map_congr_left fun pl _ => byteAt_congr hmem hhost pl
      rw [hsame, hstored]
      exact List.map_congr_left fun pl _ => hsram.byteAt_eq pl
    · rw [byteAt_congr hmem hhost, hkept pl hpl, hsram.byteAt_eq]
  · obtain ⟨u, huse, hsram⟩ := useSram_quiet s st m j hflips
    have hupkts : u.pkts = [j] := hsram.pkts_eq.trans hpkts
    have hserve : j.kind ≠ .pageServe := by rw [hattend]; decide
    obtain ⟨hends, hfewer, hmem, -⟩ := commandEnds (st := st) (m := m) hupkts hserve
    refine ⟨_, exec_stackCommandComplete hq hpkts hof hfirst hm hgates hlive huse (v := u) ?_ hupkts,
      ⟨by rw [hends, hsram.queue_eq], hfewer⟩, hmem.trans hsram.mem_eq⟩
    have hopen' : u.groupOpen j m = true := by
      rw [← hopen]
      simp only [State.groupOpen, hsram.queue_eq]
    simp only [State.runCommand, hkind, hopen', Bool.or_true, if_true]

end

namespace Sys2Proof.Machine

/-! ## Repair windows (R399 to R401) -/

/-! ### What a fault of a context leaves of the count of expired windows -/

/-- No partition's count of expired windows changes. -/
def SameExpired (s t : State) : Prop := ∀ p, (t.part p).expired = (s.part p).expired

namespace SameExpired

theorem refl (s : State) : SameExpired s s := fun _ => rfl

theorem trans {s t u : State} (h : SameExpired s t) (g : SameExpired t u) : SameExpired s u := fun p => (g p).trans (h p)

theorem of_parts {s t : State} (h : t.parts = s.parts) : SameExpired s t := fun p => by rw [State.part_of_parts s t h p]

theorem of_updPart (s : State) (p : Fin 4) {f : Part → Part} (hf : (f (s.part p)).expired = (s.part p).expired) :
    SameExpired s (s.updPart p f) := by
  intro o
  rw [State.updPart_eq, State.part_setPart]
  split
  · next ho => rw [ho, hf]
  · rfl

theorem of_updCtx (s : State) (p : Fin 4) (x : Fin 16) (f : Ctx → Ctx) : SameExpired s (s.updCtx p x f) :=
  of_updPart s p (f := fun q => q.setCtx x (f (s.ctx p x))) rfl

theorem of_traffic {s t : State} (h : OnlyTraffic s t) : SameExpired s t := fun p => by rw [← h.part p]

theorem foldl {α : Type} (f : State → α → State) (hf : ∀ s a, SameExpired s (f s a)) (l : List α) (s : State) :
    SameExpired s (l.foldl f s) := foldl_keeps SameExpired refl (fun _ _ _ => trans) f hf l s

end SameExpired

theorem raise_sameExpired (s : State) (ev : Event) : SameExpired s (s.raise ev) := .of_parts (raise_records s ev).counted.parts_eq

theorem addDefect_sameExpired (s : State) (kind origin : Nat) (a b : BitVec 32) : SameExpired s (s.addDefect kind origin a b) :=
  .of_parts (addDefect_counted s kind origin a b).parts_eq

theorem updCore_sameExpired (s : State) (c : CoreId) (f : Core → Core) : SameExpired s (s.updCore c f) := .of_parts rfl
theorem updStack_sameExpired (s : State) (k : Fin 12) (f : Stack → Stack) : SameExpired s (s.updStack k f) := .of_parts rfl
theorem updCluster_sameExpired (s : State) (c : ClusterId) (f : Cluster → Cluster) : SameExpired s (s.updCluster c f) := .of_parts rfl

theorem regate_sameExpired (s : State) (c : CoreId) : SameExpired s (s.regate c) :=
  (updCore_sameExpired s c _).trans (updCluster_sameExpired _ _ _)

theorem stopEngines_sameExpired (s : State) (c : CoreId) : SameExpired s (s.stopEngines c) := by
  unfold State.stopEngines
  extract_lets +onlyGivenNames takes releasing kept a mine b d e
  have ha : SameExpired s a := by
    show SameExpired s (match (s.core c).share with
      | some sh => s.updCtx c.p sh.ctx (fun k => { k with takes := k.takes - takes })
      | none => s)
    split
    · exact .of_updCtx s _ _ _
    · exact .refl s
  clear_value a
  have hb : SameExpired a b := .of_parts rfl
  clear_value b
  have hd : SameExpired b d := .of_parts rfl
  clear_value d
  have he : SameExpired d e := .of_parts rfl
  clear_value e
  exact ha.trans (hb.trans (hd.trans (he.trans ((updCore_sameExpired e c _).trans (regate_sameExpired _ c)))))

theorem failPkt_sameExpired (s : State) (k : Pkt) (detail : Word) : SameExpired s (s.failPkt k detail) := by
  unfold State.failPkt
  extract_lets +onlyGivenNames a b c mine d e same f
  have ha : SameExpired s a := .foldl _ (fun s c => (stopEngines_sameExpired s c).trans (updCore_sameExpired _ c _)) _ s
  have hb : SameExpired a b := .foldl _ (fun s st => updStack_sameExpired s st _) _ a
  have hc : SameExpired b c := .of_parts rfl
  have hd : SameExpired c d := .of_updCtx c _ _ _
  have hf : SameExpired d f := .of_parts rfl
  clear_value a b c d f
  exact ha.trans (hb.trans (hc.trans (hd.trans (hf.trans (.of_parts rfl)))))

theorem trace_sameExpired (s : State) (c : CoreId) (type detail pc : Nat) (mtag : BitVec 16) (payload : Nat) :
    SameExpired s (s.trace c type detail pc mtag payload) := by
  unfold State.trace
  dsimp only
  split <;> exact .of_parts rfl

theorem coreParity_sameExpired (s : State) (c : CoreId) : SameExpired s (s.coreParity c) := by
  unfold State.coreParity
  extract_lets +onlyGivenNames win now a b d
  have ha : SameExpired s a := .of_parts rfl
  have hb : SameExpired a b := .of_parts rfl
  have hd : SameExpired b d := raise_sameExpired b _
  clear_value a b d
  split
  · exact ha.trans (hb.trans (hd.trans (addDefect_sameExpired d _ _ _ _)))
  · exact ha

theorem haltCore_sameExpired (s : State) (c : CoreId) (h : HaltInfo) : SameExpired s (s.haltCore c h) := by
  unfold State.haltCore
  split
  · exact .refl s
  · extract_lets +onlyGivenNames a b d k again evq first e f
    have ha : SameExpired s a := stopEngines_sameExpired s c
    have hb : SameExpired a b := .of_parts rfl
    have hd : SameExpired b d := trace_sameExpired b _ _ _ _ _ _
    have he : SameExpired d e := raise_sameExpired d _
    have hf : SameExpired e f := by
      show SameExpired e (if h.reason = 0x30 then e.coreParity c else e)
      split
      · exact coreParity_sameExpired e c
      · exact .refl e
    have hall : SameExpired s f := ha.trans (hb.trans (hd.trans (he.trans hf)))
    clear_value f k again first
    split
    · split
      · exact hall.trans (.of_parts rfl)
      · exact hall.trans (failPkt_sameExpired f _ _)
    · exact hall

theorem haltOpWith_sameExpired (s : State) (c : CoreId) (e : Engine) (m : MacroOp) (n reason addr : Nat) (more : Bool) :
    SameExpired s (s.haltOpWith c e m n reason addr more) := by
  unfold State.haltOpWith
  split
  · exact .of_parts rfl
  · extract_lets +onlyGivenNames evq a x
    have ha : SameExpired s a := haltCore_sameExpired s c _
    clear_value a
    split
    · exact ha.trans (raise_sameExpired a _)
    · exact ha

theorem release_sameExpired (s : State) (w : WaitReg) : SameExpired s (s.release w) := by
  have hp := SameExpired.of_updPart s w.part (f := fun q => { q with wdArmed := true, wdCount := 0 }) rfl
  unfold State.release
  generalize s.updPart w.part _ = u at hp ⊢
  dsimp only
  split <;> exact hp.trans (.of_parts rfl)

theorem countAtomic_sameExpired (s : State) (k : Nat) : SameExpired s (s.countAtomic k) := .of_updPart s (homeOf k) rfl

theorem dropOf_sameExpired (s : State) (w : WaitReg) : SameExpired s (s.dropOf w) := by
  unfold State.dropOf
  split <;> exact .of_parts rfl

theorem putWord_sameExpired (s : State) (k w v : Nat) : SameExpired s (s.putWord k w v) := .of_parts (putWord_onlyMemory s k w v).parts_eq

theorem grantSem_sameExpired (s : State) (w : WaitReg) : SameExpired s (s.grantSem w) := by
  unfold State.grantSem State.takeSem
  refine SameExpired.trans ?_ (release_sameExpired _ w)
  refine SameExpired.trans ?_ (countAtomic_sameExpired _ _)
  refine SameExpired.trans ?_ (.of_updCtx _ _ _ _)
  refine SameExpired.trans ?_ (putWord_sameExpired _ _ _ _)
  refine SameExpired.trans ?_ (.of_traffic (lineAccessOf_onlyTraffic _ _ _ _ _ _))
  refine SameExpired.trans ?_ (dropOf_sameExpired _ w)
  exact .of_parts rfl

theorem haltWait_sameExpired (s : State) (w : WaitReg) (r : Nat × Bool) : SameExpired s (s.haltWait w r) := by
  unfold State.haltWait
  split
  · split
    · exact haltOpWith_sameExpired s _ _ _ _ _ _ _
    · exact .refl s
  · exact .refl s

theorem unregister_sameExpired (s : State) (w : WaitReg) : SameExpired s (s.unregister w) := .of_parts rfl

theorem retestOne_sameExpired (s : State) (w : WaitReg) : SameExpired s (s.retestOne w) := by
  unfold State.retestOne
  split
  · exact .refl s
  · split
    · split
      · exact ((unregister_sameExpired s w).trans (countAtomic_sameExpired _ _)).trans (release_sameExpired _ w)
      · exact .refl s
    · dsimp only
      split
      · exact (unregister_sameExpired s w).trans (haltWait_sameExpired _ w _)
      · split
        · exact .refl s
        · exact grantSem_sameExpired s w

theorem retest_sameExpired (s : State) : SameExpired s s.retest := by
  have hall (s : State) : SameExpired s s.retestAll := .foldl _ retestOne_sameExpired _ s
  exact (hall s).trans (hall _)

theorem breakSems_sameExpired (s : State) (p : Fin 4) (x : Fin 16) : SameExpired s (s.breakSems p x) := by
  unfold State.breakSems
  refine SameExpired.trans (.of_updCtx s p x _) (SameExpired.trans (.foldl _ (fun s h => ?_) _ _) (retest_sameExpired _))
  dsimp only
  refine SameExpired.trans ?_ (raise_sameExpired _ _)
  exact SameExpired.trans (.of_traffic (lineAccessOf_onlyTraffic _ _ _ _ _ _)) (putWord_sameExpired _ _ _ _)

theorem forget_sameExpired (s : State) (p : Fin 4) (x : Fin 16) : SameExpired s (s.forget p x) := by
  rw [forget_eq, State.ctxDropped]
  refine SameExpired.trans ?_ (.of_updCtx _ p x _)
  refine SameExpired.trans ?_ (.of_updPart _ p rfl)
  refine SameExpired.trans (.of_parts ?_) (.of_parts (s := s.unitsDropped p x) rfl)
  exact Eq.trans (congrArg State.parts (OnlyStacks.rest (unitsDropped_onlyStacks s p x))) rfl

theorem leave_sameExpired (s : State) (p : Fin 4) (x : Fin 16) : SameExpired s (s.leave p x) := by
  unfold State.leave
  split
  · exact .of_updPart s p rfl
  · exact .refl s

theorem schedule_sameExpired (s : State) (p : Fin 4) : SameExpired s (s.schedule p) := by
  obtain ⟨-, hothers, hpart⟩ := schedule_scheduled s p
  intro o
  by_cases ho : o = p
  · rw [ho, hpart.counts_eq.2.2.1]
  · rw [hothers o ho]

/-- A fault of a context that exists and has not met one makes it FAULTED, and counts no window. -/
theorem faultCtx_spec {s : State} {p : Fin 4} {x : Fin 16} (hst : (s.ctx p x).st = .running) (reason addr : Nat) (wtag : Word)
    (evq : Nat) : ((s.faultCtx p x reason addr wtag evq).ctx p x).st = .faulted
      ∧ SameExpired s (s.faultCtx p x reason addr wtag evq) := by
  unfold State.faultCtx
  rw [if_neg (by simp [hst])]
  extract_lets +onlyGivenNames seq a b c d
  have ha : SameExpired s a := raise_sameExpired s _
  have hb : SameExpired a b := .foldl _ (fun s k => failPkt_sameExpired s k seq) _ a
  have hc : SameExpired b c := (forget_sameExpired b p x).trans (breakSems_sameExpired _ p x)
  have hd : SameExpired c d := .of_updCtx c p x _
  have hdst : (d.ctx p x).st = .faulted := by
    show ((c.updCtx p x (fun c => { c with st := .faulted, deferred := false })).ctx p x).st = _
    rw [ctx_updCtx, if_pos rfl]
  have hall := ha.trans (hb.trans (hc.trans hd))
  clear_value a b c d
  obtain ⟨-, -, hleave⟩ := leave_spec d p x
  have hst' : ((d.leave p x).ctx p x).st = .faulted := by rw [hleave, hdst]
  refine ⟨?_, hall.trans ((leave_sameExpired d p x).trans (schedule_sameExpired _ p))⟩
  rw [schedule_ctx _ p x] <;> rw [hst'] <;> simp

end Sys2Proof.Machine

namespace Sys2Proof.Machine

/-! ### `REPAIR_BLOCK` (R400) -/

/-- The BAR2 offset of a place depends on the sizes of the spaces. -/
theorem blockNo_congr {s t : State} (hd : t.rowsDev = s.rowsDev) (hp : ∀ p, (t.part p).rowsPart = (s.part p).rowsPart) :
    t.blockNo = s.blockNo := by
  have hrows (k : Nat) : t.rowsPartOf k = s.rowsPartOf k := by rw [State.rowsPartOf, State.rowsPartOf, hp]
  have hbar (k : Nat) : t.bar2Of k = s.bar2Of k := by
    simp only [State.bar2Of, State.bankSize, hrows, hd]
  funext pl
  cases pl <;> simp only [State.blockNo, hbar]

/-- A parked operation of the core goes on. -/
def Inst.resumed (i : Inst) : Inst :=
  { i with st := if i.st = .parked then (if i.op.direct then .running else .waiting) else i.st }

theorem wakeInst_eq (s : State) (x : Fin 16) (c : CoreId) (n : Nat) :
    s.wakeInst x c n = s ∨ s.wakeInst x c n = s.updInst c n Inst.resumed := by
  unfold State.wakeInst
  split
  · split
    · exact .inr rfl
    · exact .inl rfl
  · exact .inl rfl

/-- What the resumption of parked instances may change. -/
def OnlyCoresParked (s t : State) : Prop := { t with cores := s.cores, parked := s.parked } = s

theorem OnlyCoresParked.trans {s t u : State} (h : OnlyCoresParked s t) (g : OnlyCoresParked t u) : OnlyCoresParked s u := by
  unfold OnlyCoresParked at *
  rw [← h, ← g]

theorem OnlyCoresParked.rest {s t : State} (h : OnlyCoresParked s t) : t = { s with cores := t.cores, parked := t.parked } := by
  unfold OnlyCoresParked at h
  rw [← h]

/-- One parked operation resumes, where its context holds the core. -/
theorem wake_inst {s : State} {o : ParkedOp} {c : CoreId} {n : Nat} (ho : o.who = .inst c n) :
    s.wake o = State.wakeInst { s with parked := s.parked.erase o } o.ctx c n := by
  unfold State.wake
  rw [ho]

/-- No operation of a number is parked in a core. -/
def Core.runsOn (y : Core) (n : Nat) : Prop := ∀ i ∈ y.runs, i.id = n → i.st ≠ .parked

theorem runsOn_resumed (y : Core) (n : Nat) : (y.updInst n Inst.resumed).runsOn n := by
  intro i hi hn
  obtain ⟨i0, -, rfl⟩ := List.mem_map.1 hi
  split
  · unfold Inst.resumed
    dsimp only
    split
    · split <;> decide
    · assumption
  · next h => 
    rw [if_neg h] at hn
    exact absurd hn h

theorem runsOn_kept {y : Core} {n : Nat} (h : y.runsOn n) (m : Nat) : (y.updInst m Inst.resumed).runsOn n := by
  intro i hi hn
  obtain ⟨i0, h0, rfl⟩ := List.mem_map.1 hi
  split
  · next hm =>
    rw [if_pos hm] at hn
    have hst := h i0 h0 hn
    unfold Inst.resumed
    rwa [if_neg hst]
  · next hm =>
    rw [if_neg hm] at hn
    exact h i0 h0 hn

/-- What the resumption of a parked operation leaves. -/
theorem wake_spec {s : State} {o : ParkedOp} {c : CoreId} {n : Nat} (ho : o.who = .inst c n) :
    OnlyCoresParked s (s.wake o) ∧ (s.wake o).parked = s.parked.erase o
      ∧ (∀ d, ((s.wake o).core d).share = (s.core d).share)
      ∧ (∀ d m, (s.core d).runsOn m → ((s.wake o).core d).runsOn m)
      ∧ ∀ sh, (s.core c).share = some sh → sh.ctx = o.ctx → ((s.wake o).core c).runsOn n := by
  have hcore (d : CoreId) : ((({ s with parked := s.parked.erase o } : State).updInst c n Inst.resumed).core d)
      = if d = c then (s.core c).updInst n Inst.resumed else s.core d := State.core_setCore ..
  have hheld : ∀ sh, (s.core c).share = some sh → sh.ctx = o.ctx → ((s.wake o).core c).runsOn n := by
    intro sh hsh hx
    have hupd : s.wake o = ({ s with parked := s.parked.erase o } : State).updInst c n Inst.resumed := by
      rw [wake_inst ho]
      have hsh' : (({ s with parked := s.parked.erase o } : State).core c).share = some sh := hsh
      unfold State.wakeInst
      rw [hsh']
      exact if_pos hx
    rw [hupd, hcore, if_pos rfl]
    exact runsOn_resumed _ n
  refine ⟨?_, ?_, ?_, ?_, hheld⟩ <;> rw [wake_inst ho]
  all_goals obtain h | h := wakeInst_eq { s with parked := s.parked.erase o } o.ctx c n <;> rw [h]
  case refine_1.inl | refine_1.inr | refine_2.inr => rfl
  case refine_3.inl => exact fun _ => rfl
  case refine_4.inl => exact fun _ _ h => h
  case refine_3.inr =>
    intro d
    rw [hcore]
    split
    · next hd => rw [hd]; rfl
    · rfl
  case refine_4.inr =>
    intro d m hd
    rw [hcore]
    split
    · next hdc => exact runsOn_kept (hdc ▸ hd) n
    · exact hd

/-- Parked instances resume one after the other. -/
theorem wakeAll_spec (l : List ParkedOp) (hl : ∀ o ∈ l, ∃ c n, o.who = .inst c n) (s : State) :
    OnlyCoresParked s (l.foldl State.wake s) ∧ (l.foldl State.wake s).parked = l.foldl List.erase s.parked
      ∧ (∀ d m, (s.core d).runsOn m → ((l.foldl State.wake s).core d).runsOn m)
      ∧ ∀ o ∈ l, ∀ c n, o.who = .inst c n → ∀ sh, (s.core c).share = some sh → sh.ctx = o.ctx →
          ((l.foldl State.wake s).core c).runsOn n := by
  induction l generalizing s with
  | nil => exact ⟨rfl, rfl, fun _ _ h => h, fun o ho => by cases ho⟩
  | cons o l ih =>
    obtain ⟨c0, n0, ho⟩ := hl o (.head _)
    obtain ⟨hrest, hparked, hshare, hkept, hruns⟩ := wake_spec (s := s) ho
    obtain ⟨irest, iparked, ikept, iruns⟩ := ih (fun o h => hl o (.tail _ h)) (s.wake o)
    rw [List.foldl_cons]
    refine ⟨hrest.trans irest, by rw [iparked, hparked]; rfl, fun d m h => ikept d m (hkept d m h), fun o' ho' c n hw sh hsh hx => ?_⟩
    obtain rfl | ho' := List.mem_cons.1 ho'
    · obtain ⟨rfl, rfl⟩ : c0 = c ∧ n0 = n := by
        rw [ho] at hw
        injection hw with h1 h2
        exact ⟨h1, h2⟩
      exact ikept _ _ (hruns sh hsh hx)
    · exact iruns o' ho' c n hw sh (by rw [hshare, hsh]) hx

/-- Resuming an operation and replying to a command do not meet. -/
theorem wake_mgmtDone {s : State} {o : ParkedOp} {c : CoreId} {n : Nat} (ho : o.who = .inst c n) (st : Status) (d : Word) :
    (s.mgmtDone st d).wake o = (s.wake o).mgmtDone st d := by
  have hcommute (v : State) : (v.mgmtDone st d).wakeInst o.ctx c n = (v.wakeInst o.ctx c n).mgmtDone st d := by
    rw [mgmtDone_eq, mgmtDone_eq]
    unfold State.wakeInst
    show (match (v.core c).share with | some sh => _ | none => _) = _
    cases (v.core c).share with
    | none => rfl
    | some sh =>
      dsimp only
      split <;> rfl
  rw [wake_inst ho, wake_inst ho, ← hcommute, mgmtDone_eq, mgmtDone_eq]
  rfl

theorem wakeAll_mgmtDone (l : List ParkedOp) (hl : ∀ o ∈ l, ∃ c n, o.who = .inst c n) (s : State) (st : Status) (d : Word) :
    l.foldl State.wake (s.mgmtDone st d) = (l.foldl State.wake s).mgmtDone st d := by
  induction l generalizing s with
  | nil => rfl
  | cons o l ih =>
    obtain ⟨c, n, ho⟩ := hl o (.head _)
    rw [List.foldl_cons, List.foldl_cons, wake_mgmtDone ho, ih fun o h => hl o (.tail _ h)]

/-- Erasing all that a test picks leaves exactly the others. -/
theorem mem_foldl_erase (l : List ParkedOp) (t : ParkedOp → Bool) (o : ParkedOp) :
    o ∈ (l.filter t).foldl List.erase l ↔ o ∈ l ∧ t o = false := by
  rw [← List.diff_eq_foldl, ← List.count_pos_iff, List.count_diff]
  cases ht : t o
  · have hnone : (l.filter t).count o = 0 := List.count_eq_zero.2 fun h => by simp [ht] at h
    rw [hnone, Nat.sub_zero, List.count_pos_iff]
    simp
  · rw [List.count_filter ht, Nat.sub_self]
    simp

end Sys2Proof.Machine

namespace Sys2Proof.Machine

/-- A block that `REPAIR_BLOCK` has written, before the reply and the operations that resume. -/
def State.rewritten (s : State) (ts : List Xlat) (data : List Byte) : State :=
  let t := (s.devWrite none ts data).dropCopies (groupsOf (placesOf ts))
  { t with weightSeen := (((placesOf ts).map t.blockNo).dedup).foldl (fun (w : Tbl Bool) b => w.set false b false) t.weightSeen }

theorem repair_eq {s : State} {ts : List Xlat} (p : Fin 4) (x : Fin 16) (a : Nat) (data : List Byte)
    (hd : ∀ t ∈ ts, t.region.datum = false) : s.repair p x a ts data
    = ((s.rewritten ts data).parked.filter (fun o => (((placesOf ts).map (s.rewritten ts data).blockNo).dedup).contains o.block)).foldl
        State.wake ((s.rewritten ts data).mgmtDone .ok 0) := by
  have hany : ts.any (fun t => t.region.datum) = false := List.any_eq_false.2 fun t ht => by rw [hd t ht]; decide
  unfold State.repair
  dsimp only
  rw [hany, if_neg Bool.false_ne_true]
  have hparked : ((s.rewritten ts data).mgmtDone .ok 0).parked = (s.rewritten ts data).parked := by rw [mgmtDone_eq]
  rw [← hparked]
  rfl

theorem OnlyMemory.parked_eq {s t : State} (h : OnlyMemory s t) : t.parked = s.parked := by rw [← h]

theorem rewritten_spec {s : State} {ts : List Xlat} {data : List Byte} (hw : s.waits = []) (hn : (placesOf ts).Nodup)
    (hlen : data.length = ts.length) :
    Grows s (s.rewritten ts data) ∧ (s.rewritten ts data).hi = s.hi ∧ (s.rewritten ts data).parked = s.parked
      ∧ (s.rewritten ts data).cores = s.cores ∧ (s.rewritten ts data).blockNo = s.blockNo
      ∧ (s.rewritten ts data).bytesAt (placesOf ts) = data := by
  have hgrows : Grows (s.devWrite none ts data) (s.rewritten ts data) := .of_eq rfl
  have hblock : (s.rewritten ts data).blockNo = (s.devWrite none ts data).blockNo := blockNo_congr rfl fun _ => rfl
  have hbytes : (s.rewritten ts data).bytesAt (placesOf ts) = (s.devWrite none ts data).bytesAt (placesOf ts) :=
    List.map_congr_left fun pl _ => byteAt_congr rfl rfl pl
  rw [hblock, hbytes]
  suffices h : Grows s (s.devWrite none ts data) ∧ (s.devWrite none ts data).hi = s.hi ∧ (s.devWrite none ts data).parked = s.parked
      ∧ (s.devWrite none ts data).cores = s.cores ∧ (s.devWrite none ts data).blockNo = s.blockNo
      ∧ (s.devWrite none ts data).bytesAt (placesOf ts) = data by
    obtain ⟨h1, h2⟩ := h
    exact ⟨h1.trans hgrows, h2⟩
  rw [devWrite_unwatched s ts data hw]
  have hway := writeOnWay_onlyTraffic s ts
  generalize s.writeOnWay ts = u at hway ⊢
  have hmem := writeAt_onlyMemory u (ts.any (fun t => t.region.cacheable)) ((placesOf ts).zip data)
  have hgr := writeAt_grows u (ts.any (fun t => t.region.cacheable)) ((placesOf ts).zip data)
  refine ⟨Grows.trans (.of_eq (by rw [← hway.rest])) hgr, hmem.hi_eq.trans (by rw [← hway.rest]), ?_,
    hmem.cores_eq.trans (by rw [← hway.rest]), blockNo_congr (hmem.rowsDev_eq.trans (by rw [← hway.rest])) fun p => ?_,
    bytesAt_writeAt u _ hn (by rw [hlen, placesOf, List.length_map])⟩
  · exact hmem.parked_eq.trans (by rw [← hway.rest])
  · rw [State.part_of_parts u _ hmem.parts_eq, ← hway.part p]

/-- What a command's arrival leaves of a partition. -/
theorem part_called_rest {s : State} {p : Fin 4} (hp : (s.part p).reached) (k : Packet) (o : Fin 4) :
    { (s.called k p).part o with pll := (s.part o).pll } = s.part o := by
  rw [part_called hp]
  split
  · next h =>
    rw [h]
    rfl
  · rfl

/-- A command's arrival leaves translation as it was. -/
theorem called_sameMap {s : State} {p : Fin 4} (hp : (s.part p).reached) (k : Packet) : SameMap s (s.called k p) :=
  ⟨rfl, rfl, fun o => by rw [← part_called_rest hp k o], fun o => by rw [← part_called_rest hp k o]⟩

/-- Where the partition's PLL runs, a command's arrival leaves what holds accesses up as it was. -/
theorem called_sameHolds {s : State} {p : Fin 4} (hp : (s.part p).pll = .running) (k : Packet) : SameHolds s (s.called k p) := by
  refine ⟨fun o => ?_, fun o => by rw [← part_called_rest (.inl hp) k o], fun _ => rfl, rfl⟩
  rw [part_called (.inl hp)]
  split
  · next h =>
    rw [h, hp]
    rfl
  · rfl

/-- The checks of a `REPAIR_BLOCK` on the packet and on what it names. -/
theorem repairCheck_passes {s : State} {k : Packet} {ts : List Xlat} (hready : s.hi.st = .ready)
    (hf : MgmtForm k 0x0F true [(8, 8), (16, 8), (24, 1)]) (h14 : pf k 14 2 = 0) (h8 : pa k 8 % 4096 = 0) (h16 : HostField k 16)
    (h24 : pf k 24 1 ≤ 15) (hlive : ((s.part (mgmtPart k)).ctx (ctxAt k 24)).st ≠ .free)
    (hst : (s.part (mgmtPart k)).st = .running ∨ (s.part (mgmtPart k)).st = .stopping ∨ (s.part (mgmtPart k)).st = .stopped)
    (hts : s.repairBlock k = some ts) :
    (let q := s.part (mgmtPart k)
      let free := (q.ctx (ctxAt k 24)).st = .free
      let own := (addrBad k 8).2 || decide (pa k 8 % 4096 ≠ 0) || decide (15 < pf k 24 1)
      mgmtCheck k 0x0F true [(8, 8), (16, 8), (24, 1)]
        [addrBad k 8, (8, decide (pa k 8 % 4096 ≠ 0)), hostAddrBad k 16, (24, decide (15 < pf k 24 1)), (24, free),
          (8, !own && !free && (s.repairBlock k).isNone)]
        <|> s.notReady <|> wrongIf (q.st ≠ .running && q.st ≠ .stopping && q.st ≠ .stopped)) = none := by
  obtain ⟨h22, h64⟩ := h16
  dsimp only
  rw [mgmtCheck_passes hf, notReady_ready hready, wrongIf_false]
  · rfl
  · obtain h | h | h := hst <;> simp [h]
  · simp only [List.mem_cons, List.not_mem_nil, or_false]
    rintro c (rfl | rfl | rfl | rfl | rfl | rfl)
    · simpa [addrBad] using h14
    · simpa using h8
    · simpa [hostAddrBad] using ⟨h64, h22⟩
    · simpa using h24
    · simpa using hlive
    · simp [hts]

/-- A `REPAIR_BLOCK` that nothing refuses or holds up. -/
theorem exec_repairBlock {s : State} {k : Packet} {ts : List Xlat} (hr : s.mcqReady = true) (hready : s.hi.st = .ready)
    (hf : MgmtForm k 0x0F true [(8, 8), (16, 8), (24, 1)]) (h14 : pf k 14 2 = 0) (h8 : pa k 8 % 4096 = 0) (h16 : HostField k 16)
    (h24 : pf k 24 1 ≤ 15) (hlive : (s.ctx (mgmtPart k) (ctxAt k 24)).st ≠ .free)
    (hst : (s.part (mgmtPart k)).st = .running ∨ (s.part (mgmtPart k)).st = .stopping ∨ (s.part (mgmtPart k)).st = .stopped)
    (hpll : (s.part (mgmtPart k)).pll = .running) (hts : s.repairBlock k = some ts) (hd : ∀ t ∈ ts, t.region.datum = false)
    (hheld : (s.heldUp (mgmtPart k) true ts).isNone = true) (hpoison : s.hostPoison (pa k 16) 4096 = false)
    (hinst : ∀ o ∈ ((s.called k (mgmtPart k)).rewritten ts (s.hostRead (pa k 16) 4096)).parked, ∃ c n, o.who = .inst c n) :
    let v := (s.called k (mgmtPart k)).rewritten ts (s.hostRead (pa k 16) 4096)
    exec (.repairBlock k) s = .next (((v.parked.filter (fun o => (((placesOf ts).map v.blockNo).dedup).contains o.block)).foldl
      State.wake v).answered .ok 0) := by
  have hts' : (s.called k (mgmtPart k)).repairBlock k = some ts := by
    rw [State.repairBlock, (called_sameMap (.inl hpll) k).access_eq]
    exact hts
  have hheld' : (s.called k (mgmtPart k)).heldUp (mgmtPart k) true ts = none :=
    Option.isNone_iff_eq_none.1 (((called_sameHolds hpll k).heldAt_eq _ true (placesOf ts)).trans hheld)
  have hpoison' : (s.called k (mgmtPart k)).hostPoison (pa k 16) 4096 = false := hpoison
  show execRepairBlock k s = _
  unfold execRepairBlock
  refine mgmtTo_replies hr (.inl hpll) (repairCheck_passes hready hf h14 h8 h16 h24 hlive hst hts) ?_
  rw [hpoison', hts', if_neg Bool.false_ne_true]
  dsimp only
  rw [hheld']
  dsimp only
  rw [repair_eq _ _ _ _ hd]
  exact wakeAll_mgmtDone _ (fun o ho => hinst o (List.mem_filter.1 ho).1) _ _ _

/-- The window of a parked operation ends. -/
theorem exec_repairWindowExpiry {s : State} {n : Nat} {o : ParkedOp} {c : CoreId} {j : Nat} (hn : s.parked[n]? = some o)
    (ho : o.who = .inst c j) : exec (.repairWindowExpiry n) s
    = .next ((({ s with parked := delNth s.parked n } : State).updPart o.part (fun q => { q with expired := satAdd q.expired 1 })).faultCtx
        o.part o.ctx 5 (o.addr.toNat - o.addr.toNat % 4096) o.wtag o.evq) := by
  show execRepairWindowExpiry n s = _
  unfold execRepairWindowExpiry
  rw [hn]
  dsimp only
  rw [ho]

theorem satAdd_below {w : Nat} (c : BitVec w) (h : c.toNat + 1 < 2 ^ w) : satAdd c 1 = c + 1 := by
  rw [satAdd, if_pos h]
  apply BitVec.eq_of_toNat_eq
  simp [BitVec.toNat_add]

/-- The block that a repair names is translated byte by byte. -/
theorem repairBlock_length {s : State} {k : Packet} {ts : List Xlat} (h : s.repairBlock k = some ts) : ts.length = 4096 := by
  unfold State.repairBlock at h
  cases hacc : s.access (mgmtPart k) (ctxAt k 24) (addrRun (pa k 8) 4096) (fun r => r.kind ≠ .host) with
  | error b =>
    rw [hacc] at h
    cases h
  | ok ts' =>
    rw [hacc] at h
    obtain rfl : ts' = ts := Option.some.inj h
    rw [access_length hacc, addrRun, List.length_map, List.length_range]

end Sys2Proof.Machine

section
open Sys2Proof Sys2Proof.Machine

/-- Settles O37, from the block that a repair stores, the instances that it lets go on, and what a fault of a context leaves. -/
theorem weightRepair : Obligations.WeightRepair := by
  refine ⟨fun s k ts hr hready hf h14 h8 h16 h24 hlive hst hpll hts hn hd hheld hpoison hwaits hinst => ?_,
    fun s n o c j hn ho hrun hlt => ?_⟩
  · have hlen : (s.hostRead (pa k 16) 4096).length = ts.length := by
      rw [repairBlock_length hts, State.hostRead, Tbl.getMany_length]
    obtain ⟨⟨pre, hpre⟩, hhi, hparked, hcores, hblock, hbytes⟩ :=
      rewritten_spec (s := s.called k (mgmtPart k)) (ts := ts) (data := s.hostRead (pa k 16) 4096) hwaits hn hlen
    have hinst' : ∀ o ∈ ((s.called k (mgmtPart k)).rewritten ts (s.hostRead (pa k 16) 4096)).parked, ∃ c n, o.who = .inst c n := by
      rw [hparked]
      exact hinst
    have hexec := exec_repairBlock hr hready hf h14 h8 h16 h24 hlive hst hpll hts hd hheld hpoison hinst'
    dsimp only at hexec
    have hblock' : ((s.called k (mgmtPart k)).rewritten ts (s.hostRead (pa k 16) 4096)).blockNo = s.blockNo :=
      hblock.trans (blockNo_congr rfl (called_sameMap (.inl hpll) k).rowsPart)
    generalize (s.called k (mgmtPart k)).rewritten ts (s.hostRead (pa k 16) 4096) = v at *
    have hvparked : v.parked = s.parked := hparked
    obtain ⟨wrest, wparked, -, wruns⟩ := wakeAll_spec
      (v.parked.filter (fun o => (((placesOf ts).map v.blockNo).dedup).contains o.block))
      (fun o ho => hinst' o (List.mem_filter.1 ho).1) v
    generalize (v.parked.filter (fun o => (((placesOf ts).map v.blockNo).dedup).contains o.block)).foldl State.wake v = t
      at hexec wrest wparked wruns
    have hleft (o : ParkedOp) : o ∈ t.parked ↔ o ∈ s.parked ∧ o.block ∉ (placesOf ts).map s.blockNo := by
      rw [wparked, mem_foldl_erase, hvparked, hblock']
      simp
    refine ⟨_, pre, hexec, answered_completes_tagged (k := k) (by rw [wrest.rest]; exact hpre) (by rw [wrest.rest]; exact hhi), ?_,
      fun o ho c n hw hin => ⟨fun hmem => ((hleft o).1 hmem).2 hin, fun sh hsh hx => ?_⟩, fun o ho hout => (hleft o).2 ⟨ho, hout⟩⟩
    · rw [← hbytes, wrest.rest]
      exact List.map_congr_left fun pl _ => byteAt_congr rfl rfl pl
    · refine wruns o (List.mem_filter.2 ⟨hvparked ▸ ho, ?_⟩) c n hw sh ?_ hx
      · rw [hblock']
        simpa using hin
      · have hvcore : v.core c = s.core c := congrArg (fun cs => Tbl.get _ cs _) hcores
        rw [hvcore, hsh]
  · have hexp : ((({ s with parked := delNth s.parked n } : State).updPart o.part (fun q => { q with
        expired := satAdd q.expired 1 })).part o.part).expired = (s.part o.part).expired + 1 := by
      rw [State.updPart_eq, State.part_setPart, if_pos rfl]
      refine satAdd_below (w := 16) (s.part o.part).expired ?_
      omega
    have hst : ((({ s with parked := delNth s.parked n } : State).updPart o.part (fun q => { q with
        expired := satAdd q.expired 1 })).ctx o.part o.ctx).st = .running := by
      rw [ctx_updPart_kept { s with parked := delNth s.parked n } o.part (f := fun q => { q with expired := satAdd q.expired 1 }) rfl]
      exact hrun
    have hexec := exec_repairWindowExpiry hn ho
    generalize ({ s with parked := delNth s.parked n } : State).updPart o.part (fun q => { q with expired := satAdd q.expired 1 }) = u
      at hexp hst hexec
    obtain ⟨hfault, hsame⟩ := faultCtx_spec hst 5 (o.addr.toNat - o.addr.toNat % 4096) o.wtag o.evq
    exact ⟨_, hexec, by rw [hsame, hexp], hfault⟩

end

namespace Sys2Proof.Machine

/-! ### Places of a host access (R367, R368) -/

/-- The place of one byte among those that a host access reaches. -/
theorem find_indexed {α : Type} (f : Nat → Option α) (l : List Nat) (j : Nat) :
    (l.filterMap (fun i => (f i).map (fun e => (i, e)))).find? (fun e => e.1 = j)
      = if j ∈ l then (f j).map (fun e => (j, e)) else none := by
  induction l with
  | nil => rfl
  | cons i l ih =>
    rw [List.filterMap_cons]
    by_cases hij : i = j
    · subst hij
      cases hf : f i with
      | none =>
        rw [hf] at ih
        simp [ih]
      | some e => simp
    · have hji : j ≠ i := fun h => hij h.symm
      cases hf : f i with
      | none => simp [ih, hji]
      | some e => simp [ih, hij, hji]

theorem mem_hostPlaces {s : State} {off n j k : Nat} {b : Bool} :
    (j, k, b) ∈ s.hostPlaces off n ↔ j < n ∧ s.hostPlace (off + j) = some (k, b) := by
  unfold State.hostPlaces
  rw [List.mem_filterMap]
  constructor
  · rintro ⟨i, hi, h⟩
    obtain ⟨e, he, h⟩ := Option.map_eq_some_iff.1 h
    obtain ⟨rfl, rfl, rfl⟩ := h
    exact ⟨List.mem_range.1 hi, he⟩
  · rintro ⟨hj, h⟩
    exact ⟨j, List.mem_range.2 hj, by rw [h]; rfl⟩

/-- Bytes that lie apart are each at a place of their own. -/
theorem hostPlaces_nodup {s : State} {off n : Nat} (happart : ∀ i < n, ∀ j < n, i ≠ j → ∀ k b c,
    s.hostPlace (off + i) = some (k, b) → s.hostPlace (off + j) ≠ some (k, c)) :
    ((s.hostPlaces off n).map (fun e => Place.dram e.2.1)).Nodup := by
  refine List.Nodup.map_on ?_ (List.Nodup.filterMap ?_ List.nodup_range)
  · rintro ⟨i, k, b⟩ hi ⟨j, k', c⟩ hj h
    obtain ⟨hin, hi⟩ := mem_hostPlaces.1 hi
    obtain ⟨hjn, hj⟩ := mem_hostPlaces.1 hj
    have hk : k = k' := Place.dram.inj h
    subst hk
    by_cases hij : i = j
    · subst hij
      rw [hi] at hj
      rw [Option.some.inj hj]
    · exact absurd hj (happart i hin j hjn hij k b c hi)
  · rintro i j e hi hj
    obtain ⟨x, -, rfl⟩ := Option.map_eq_some_iff.1 hi
    obtain ⟨y, -, h⟩ := Option.map_eq_some_iff.1 hj
    exact (congrArg Prod.fst h).symm

/-! ### What a host access counts and records (R368) -/

/-- Nothing changes but lines, traffic counters and the directory of lines that the host holds. -/
def OnlyHostLines (s t : State) : Prop :=
  { t with freeCtr := s.freeCtr, parts := s.parts, stks := s.stks, backInv := s.backInv, hostDir := s.hostDir } = s

namespace OnlyHostLines

theorem refl (s : State) : OnlyHostLines s s := rfl

theorem trans {s t u : State} (h : OnlyHostLines s t) (g : OnlyHostLines t u) : OnlyHostLines s u := by
  unfold OnlyHostLines at *
  rw [← h, ← g]

theorem of_onlyTraffic {s t : State} (h : OnlyTraffic s t) : OnlyHostLines s t := by
  unfold OnlyHostLines
  rw [← h.rest]

section
variable {s t : State} (h : OnlyHostLines s t)
include h

theorem mem_eq : t.mem = s.mem := by rw [← h]
theorem memErr_eq : t.memErr = s.memErr := by rw [← h]
theorem waits_eq : t.waits = s.waits := by rw [← h]
theorem hi_eq : t.hi = s.hi := by rw [← h]
theorem hk_eq : t.hk = s.hk := by rw [← h]

end

end OnlyHostLines

/-- The host may hold a line; a full directory gives up another one for it. -/
theorem recordLine_eq (s : State) (excl : Bool) (l : Nat) :
    ∃ u, (u = s ∨ ∃ v, u = s.backInvalidate [v])
      ∧ s.recordLine excl l = { u.draw 1 with hostDir := u.hostDir.set 0 l (if excl then 2 else 1) } := by
  unfold State.recordLine
  extract_lets +onlyGivenNames others u
  refine ⟨u, ?_, rfl⟩
  show (match Config.dirVictim s.freeCtr with
      | some n => match others[n % max 1 others.length]? with
        | some v => s.backInvalidate [v]
        | none => s
      | none => s) = s ∨ ∃ v, (match Config.dirVictim s.freeCtr with
      | some n => match others[n % max 1 others.length]? with
        | some v => s.backInvalidate [v]
        | none => s
      | none => s) = s.backInvalidate [v]
  split
  · split
    · next v _ => exact .inr ⟨v, rfl⟩
    · exact .inl rfl
  · exact .inl rfl

theorem recordLine_onlyHostLines (s : State) (excl : Bool) (l : Nat) : OnlyHostLines s (s.recordLine excl l) := by
  obtain ⟨u, rfl | ⟨v, rfl⟩, h⟩ := recordLine_eq s excl l <;> rw [h] <;> rfl

theorem recordLine_hostDir (s : State) (excl : Bool) (l m : Nat) :
    (s.recordLine excl l).hostDir.get 0 m = if m = l then (if excl then 2 else 1) else s.hostDir.get 0 m := by
  obtain ⟨u, hu, h⟩ := recordLine_eq s excl l
  have hdir : u.hostDir = s.hostDir := by
    obtain rfl | ⟨v, rfl⟩ := hu <;> rfl
  rw [h]
  dsimp only
  rw [Tbl.get_set, hdir]

theorem OnlyTraffic.hostDir_eq {s t : State} (h : OnlyTraffic s t) : t.hostDir = s.hostDir := by rw [← h.rest]

/-- One line of a host access. -/
def State.hostLine (s : State) (write excl : Bool) (l : Nat) : State := (s.lineAccess write write l).recordLine excl l

theorem lineAccess_onlyTraffic (s : State) (w a : Bool) (l : Nat) : OnlyTraffic s (s.lineAccess w a l) :=
  lineAccessOf_onlyTraffic s w a 128 0 l

theorem hostLine_onlyHostLines (s : State) (write excl : Bool) (l : Nat) : OnlyHostLines s (s.hostLine write excl l) :=
  (OnlyHostLines.of_onlyTraffic (lineAccess_onlyTraffic s write write l)).trans (recordLine_onlyHostLines _ excl l)

theorem hostLine_hostDir (s : State) (write excl : Bool) (l m : Nat) :
    (s.hostLine write excl l).hostDir.get 0 m = if m = l then (if excl then 2 else 1) else s.hostDir.get 0 m := by
  rw [State.hostLine, recordLine_hostDir, (lineAccess_onlyTraffic s write write l).hostDir_eq]

theorem hostLines_onlyHostLines (s : State) (write excl : Bool) (ls : List Nat) :
    OnlyHostLines s (ls.foldl (fun s l => s.hostLine write excl l) s) :=
  foldl_keeps OnlyHostLines .refl (fun _ _ _ => .trans) _ (fun s l => hostLine_onlyHostLines s write excl l) ls s

/-- The directory shows each line of an access as the access takes it. -/
theorem hostLines_hostDir (s : State) (write excl : Bool) (ls : List Nat) (m : Nat) :
    (ls.foldl (fun s l => s.hostLine write excl l) s).hostDir.get 0 m
      = if m ∈ ls then (if excl then 2 else 1) else s.hostDir.get 0 m :=
  foldl_keyed (fun s m => s.hostDir.get 0 m) _ (fun _ => if excl then 2 else 1) (fun _ => rfl)
    (fun s l m => by
      rw [hostLine_hostDir]) ls s m

theorem hostTraffic_onlyTraffic (s : State) (write : Bool) (ps : List (Nat × Nat × Bool)) : OnlyTraffic s (s.hostTraffic write ps) := by
  unfold State.hostTraffic
  extract_lets +onlyGivenNames keys
  exact .foldl _ (fun s st => .of_addTraffic s _ _ _ _) _ s

/-! ### Nothing holds a host access up (R26, R231, R418, R439, R442) -/

theorem memErr_served {s : State} (h : hostServed s) : s.memErr = [] := by
  obtain ⟨-, -, -, -, -, hclean⟩ := h
  exact hclean

theorem hostShut_served {s : State} (h : hostServed s) (ps : List (Nat × Nat × Bool)) : s.hostShut ps = false := by
  obtain ⟨hready, hmt, -⟩ := h
  simp [State.hostShut, hready, hmt]

theorem bankOpen_served {s : State} (h : hostServed s) (k : Nat) : s.bankOpen k = false := by
  obtain ⟨-, -, -, hunits, -⟩ := h
  unfold State.bankOpen
  extract_lets +onlyGivenNames r x
  obtain ⟨hcur, hahead⟩ := hunits (s.servedBy r)
  show (x.cur.toList ++ x.ahead.toList).any _ = false
  rw [show x.cur = none from hcur, show x.ahead = none from hahead]
  rfl

theorem banksWait_served {s : State} (h : hostServed s) (ps : List Place) : s.banksWait ps = false := by
  refine List.any_eq_false.2 fun pl _ => ?_
  cases pl with
  | dram k => simp [bankOpen_served h]
  | host a => simp

theorem hostWaits_served {s : State} (h : hostServed s) (e : Fin 4) (ps : List (Nat × Nat × Bool)) (r : Held) :
    s.hostWaits e ps r = none := by
  have hbanks := banksWait_served h (ps.map (fun e => .dram e.2.1))
  obtain ⟨-, -, hparts, -, hback, -⟩ := h
  have hasleep : s.asleep e ps = none := by
    unfold State.asleep
    refine if_pos (List.all_eq_true.2 fun p _ => ?_)
    simp [(hparts p).1]
  have hany : (ps.any (fun e => s.backInv.contains (e.2.1 / 128) || (s.part (homeOf e.2.1)).resetting)) = false := by
    refine List.any_eq_false.2 fun e _ => ?_
    simp [hback, (hparts _).2]
  unfold State.hostWaits
  rw [hasleep]
  dsimp only
  rw [hany, hbanks]
  rfl

/-! ### Reads (R368, R370) -/

/-- What a host read counts and records on its way. -/
def State.hostReadWay (s : State) (ps : List (Nat × Nat × Bool)) (excl : Bool) : State :=
  (coherentLines ps).foldl (fun s l => s.hostLine false excl l) (s.hostTraffic false ps)

theorem hostReadWay_onlyHostLines (s : State) (ps : List (Nat × Nat × Bool)) (excl : Bool) : OnlyHostLines s (s.hostReadWay ps excl) :=
  (OnlyHostLines.of_onlyTraffic (hostTraffic_onlyTraffic s false ps)).trans (hostLines_onlyHostLines _ false excl _)

theorem exec_hostMemRead {s : State} {off n : Nat} {excl : Bool} (h : hostServed s) (hoff : off + n ≤ 2 ^ 40) :
    exec (.hostMemRead off n excl) s = .next ({ s.hostReadWay (s.hostPlaces off n) excl with
      hostRsp := some ((s.hostReadWay (s.hostPlaces off n) excl).hostAnswer n (s.hostPlaces off n)) } : State).takeEntry := by
  show execHostMemRead off n excl s = _
  unfold execHostMemRead
  rw [if_neg (show ¬ bar2Size < off + n from Nat.not_lt.2 hoff)]
  unfold State.hostRead64
  dsimp only
  rw [hostShut_served h, hostWaits_served h, touch_clean s _ (memErr_served h)]
  rfl

theorem mem_coherentLines {s : State} {off n j k : Nat} (hj : j < n) (hk : s.hostPlace (off + j) = some (k, true)) :
    k / 128 ∈ coherentLines (s.hostPlaces off n) := by
  rw [coherentLines, List.mem_dedup, List.mem_filterMap]
  exact ⟨(j, k, true), mem_hostPlaces.2 ⟨hj, hk⟩, rfl⟩

/-- The answer to a read where no word holds an error. -/
theorem hostAnswer_spec {s u : State} {off n : Nat} (hmem : u.mem = s.mem) (he : u.memErr = []) :
    (u.hostAnswer n (s.hostPlaces off n)).2 = false ∧ (u.hostAnswer n (s.hostPlaces off n)).1.length = n
      ∧ ∀ j < n, (u.hostAnswer n (s.hostPlaces off n)).1[j]? = some (match s.hostPlace (off + j) with
          | some e => s.mem.get 0 e.1
          | none => 0xFF#8) := by
  refine ⟨List.any_eq_false.2 fun e _ => by rw [groupPoisoned_clean he]; decide, by simp [State.hostAnswer], fun j hj => ?_⟩
  have hfind : (s.hostPlaces off n).find? (fun e => e.1 = j) = (s.hostPlace (off + j)).map (fun e => (j, e)) := by
    have h := find_indexed (fun j => s.hostPlace (off + j)) (List.range n) j
    rwa [if_pos (List.mem_range.2 hj)] at h
  unfold State.hostAnswer
  dsimp only
  rw [List.getElem?_map, List.getElem?_range hj, Option.map_some, hfind, hmem]
  cases s.hostPlace (off + j) <;> rfl

/-! ### Writes (R277, R368, R370) -/

/-- What a host write counts, records and discards, once its bytes are stored. -/
def State.hostWritten (s : State) (ps : List (Nat × Nat × Bool)) (excl : Bool) : State :=
  (coherentLines ps).foldl (fun s l => s.hostLine true excl l) (s.hostTraffic true ps)

theorem hostWritten_onlyHostLines (s : State) (ps : List (Nat × Nat × Bool)) (excl : Bool) :
    OnlyHostLines s (s.hostWritten ps excl) :=
  (OnlyHostLines.of_onlyTraffic (hostTraffic_onlyTraffic s true ps)).trans (hostLines_onlyHostLines _ true excl _)

/-- A host write where nothing is registered stores its bytes, and changes no other byte. -/
theorem hostStore_mem {s : State} {ps : List (Nat × Nat × Bool)} {data : List Byte} (excl : Bool) (hw : s.waits = []) :
    (s.hostStore ps data false excl).mem
      = ((s.dropShared ((ps.map (fun e => e.2.1 / 64)).dedup)).writeAt (ps.any (fun e => e.2.2))
          (ps.map (fun e => (Place.dram e.2.1, data.getD e.1 0)))).mem := by
  have hm := writeAt_onlyMemory (s.dropShared ((ps.map (fun e => e.2.1 / 64)).dedup)) (ps.any (fun e => e.2.2))
    (ps.map (fun e => (Place.dram e.2.1, data.getD e.1 0)))
  unfold State.hostStore
  dsimp only
  rw [if_neg (by decide)]
  generalize (s.dropShared ((ps.map (fun e => e.2.1 / 64)).dedup)).writeAt (ps.any (fun e => e.2.2))
    (ps.map (fun e => (Place.dram e.2.1, data.getD e.1 0))) = u at hm ⊢
  have hlines : OnlyHostLines u ((coherentLines ps).foldl (fun s l => (s.lineAccess true true l).recordLine excl l) (u.hostTraffic true ps)) :=
    hostWritten_onlyHostLines u ps excl
  generalize (coherentLines ps).foldl (fun s l => (s.lineAccess true true l).recordLine excl l) (u.hostTraffic true ps) = v at hlines ⊢
  rw [retest_nothing]
  · exact hlines.mem_eq
  · exact hlines.waits_eq.trans (hm.waits_eq.trans hw)

theorem exec_hostMemWrite {s : State} {off : Nat} {data : List Byte} {excl : Bool} (h : hostServed s) (hoff : off + data.length ≤ 2 ^ 40)
    (hres : ∀ j < data.length, s.reservedAt (off + j) = false) :
    exec (.hostMemWrite off data false excl) s = .next (if (s.hostPlaces off data.length).isEmpty then s.takeEntry
      else (s.hostStore (s.hostPlaces off data.length) data false excl).takeEntry) := by
  show execHostMemWrite off data false excl s = _
  have hany : (List.range data.length).any (fun j => s.reservedAt (off + j)) = false :=
    List.any_eq_false.2 fun j hj => by rw [hres j (List.mem_range.1 hj)]; decide
  unfold execHostMemWrite
  rw [if_neg (show ¬ bar2Size < off + data.length from Nat.not_lt.2 hoff), hany, Bool.and_false, if_neg (by decide)]
  unfold State.hostWrite64
  dsimp only
  rw [hostShut_served h, hostWaits_served h, Bool.false_or]
  cases (s.hostPlaces off data.length).isEmpty <;> rfl

/-- The bytes of a host write are at their places, and no other byte changes. -/
theorem hostStore_bytes {s : State} {off : Nat} {data : List Byte} {excl : Bool} (h : hostServed s) (hw : s.waits = [])
    (happart : ∀ i < data.length, ∀ j < data.length, i ≠ j → ∀ k b c,
      s.hostPlace (off + i) = some (k, b) → s.hostPlace (off + j) ≠ some (k, c)) :
    (∀ j < data.length, ∀ k b, s.hostPlace (off + j) = some (k, b) →
        some ((s.hostStore (s.hostPlaces off data.length) data false excl).mem.get 0 k) = data[j]?)
      ∧ ∀ a, (∀ j < data.length, ∀ b, s.hostPlace (off + j) ≠ some (a, b)) →
        (s.hostStore (s.hostPlaces off data.length) data false excl).mem.get 0 a = s.mem.get 0 a := by
  rw [hostStore_mem excl hw]
  have hn := hostPlaces_nodup happart
  have he : (s.dropShared (((s.hostPlaces off data.length).map (fun e => e.2.1 / 64)).dedup)).memErr = [] := memErr_served h
  generalize hd : s.dropShared (((s.hostPlaces off data.length).map (fun e => e.2.1 / 64)).dedup) = d at he ⊢
  have hdm : d.mem = s.mem := by rw [← hd]; rfl
  have hbytes (a : Nat) := byteAt_writeAt d ((s.hostPlaces off data.length).any (fun e => e.2.2))
    ((s.hostPlaces off data.length).map (fun e => (Place.dram e.2.1, data.getD e.1 0))) he
    (by rw [List.map_map]; exact hn) (.dram a)
  generalize d.writeAt _ _ = w at hbytes ⊢
  refine ⟨fun j hj k b hk => ?_, fun a ha => ?_⟩
  · have hin := (hbytes k).1 (data.getD j 0) (List.mem_map.2 ⟨(j, k, b), mem_hostPlaces.2 ⟨hj, hk⟩, rfl⟩)
    show some (w.byteAt (.dram k)) = _
    rw [hin]
    simp [hj]
  · refine Eq.trans ((hbytes a).2 ?_) (congrArg (fun m => Tbl.get 0 m a) hdm)
    rw [List.map_map, List.mem_map]
    rintro ⟨⟨j, k, b⟩, hjk, hka⟩
    obtain ⟨hj, hk⟩ := mem_hostPlaces.1 hjk
    have hka : k = a := Place.dram.inj hka
    exact ha j hj b (hka ▸ hk)

end Sys2Proof.Machine

namespace Sys2Proof.Machine

/-! ### The attach (R363, R409, R427, R431) -/

/-- Byte 0 of a location. -/
theorem bits_locBytes (n : Nat) (hn : n < 256) : bits (locBytes n 0 0 0).toNat 7 0 = n := by
  simp [bits, locBytes]
  omega

/-- The Cadastre, or what a start has found for it, holds a repair of a lane of a module. -/
def Cad.lane (c : Cad) (m : Nat) : Prop :=
  ∃ e ∈ c.list.entries ++ c.runtime ++ c.tested, e.kind = 8 ∧ e.a 0 = m

/-- Entries stay while others come behind them. -/
def Cad.grown (c d : Cad) : Prop :=
  d.list = c.list ∧ c.runtime ⊆ d.runtime ∧ c.tested ⊆ d.tested

theorem Cad.grown.lane {c d : Cad} (h : c.grown d) {m : Nat} (hm : c.lane m) : d.lane m := by
  obtain ⟨hl, hr, ht⟩ := h
  obtain ⟨e, he, hkind⟩ := hm
  refine ⟨e, ?_, hkind⟩
  simp only [List.mem_append] at he ⊢
  rcases he with (he | he) | he
  · exact .inl (.inl (hl ▸ he))
  · exact .inl (.inr (hr he))
  · exact .inr (ht he)

theorem Cad.grown.refl (c : Cad) : c.grown c := ⟨rfl, fun _ h => h, fun _ h => h⟩

theorem Cad.grown.trans {c d e : Cad} (h : c.grown d) (g : d.grown e) : c.grown e := by
  obtain ⟨hl, hr, ht⟩ := h
  obtain ⟨gl, gr, gt⟩ := g
  exact ⟨gl.trans hl, List.Subset.trans hr gr, List.Subset.trans ht gt⟩

theorem Cad.lane_of_same {c : Cad} {l : List CadEntry} (hl : l ⊆ c.list.entries ++ c.runtime ++ c.tested) {m : Nat}
    (hm : m < 256) {e : CadEntry} (hk : e.kind = 8) (ha : e.locA = locBytes m 0 0 0) (h : l.any e.same = true) : c.lane m := by
  obtain ⟨x, hx, hsame⟩ := List.any_eq_true.1 h
  simp only [CadEntry.same, Bool.and_eq_true, decide_eq_true_eq] at hsame
  obtain ⟨⟨hkind, hlocA⟩, -⟩ := hsame
  refine ⟨x, hl hx, hkind ▸ hk, ?_⟩
  rw [CadEntry.a, ← hlocA, ha]
  exact bits_locBytes m hm

/-- A defect's entry is in the list, or among those found since. -/
theorem addDefect_cad (s : State) (kind origin : Nat) (a b : BitVec 32) :
    (s.cad.grown (s.addDefect kind origin a b).cad) ∧ ∃ e : CadEntry, e.kind = BitVec.ofNat 8 kind ∧ e.locA = a
      ∧ ((s.addDefect kind origin a b).cad.list.entries ++ (s.addDefect kind origin a b).cad.runtime).any e.same = true := by
  unfold State.addDefect
  extract_lets +onlyGivenNames e
  split
  · next h =>
    exact ⟨.refl _, e, rfl, rfl, by rw [List.any_append]; exact h⟩
  · extract_lets +onlyGivenNames c u
    have hu : s.cad.grown u.cad ∧ (u.cad.list.entries ++ u.cad.runtime).any e.same = true := by
      refine ⟨⟨rfl, List.subset_append_left _ _, fun _ h => h⟩, List.any_eq_true.2 ⟨e, ?_, ?_⟩⟩
      · exact List.mem_append_right _ (List.mem_append_right _ List.mem_cons_self)
      · simp [CadEntry.same]
    have hr : ∀ v : State, v.cad = u.cad → s.cad.grown v.cad ∧ ∃ e : CadEntry, e.kind = BitVec.ofNat 8 kind ∧ e.locA = a
        ∧ (v.cad.list.entries ++ v.cad.runtime).any e.same = true := fun v hv => by
      rw [hv]
      exact ⟨hu.1, e, rfl, rfl, hu.2⟩
    split
    · refine hr _ ?_
      exact (congrArg State.cad (raise_records u (cadLocate e ((mkEvent 0x14 0 0).withReason kind))) :)
    · exact hr u rfl

theorem repairedLane_counted (s : State) (m j : Nat) : OnlyCounted s (s.repairedLane m j) := by
  unfold State.repairedLane
  extract_lets +onlyGivenNames e
  split
  · exact addDefect_counted s _ _ _ _
  · split
    · exact .refl s
    · rfl

/-- A repaired lane of a module is a defect of that module. -/
theorem repairedLane_cad (s : State) {m : Nat} (j : Nat) (hm : m < 256) :
    s.cad.grown (s.repairedLane m j).cad ∧ (s.repairedLane m j).cad.lane m := by
  unfold State.repairedLane
  extract_lets +onlyGivenNames e
  split
  · obtain ⟨hgrown, x, hk, ha, h⟩ := addDefect_cad s 8 0 e.locA e.locB
    exact ⟨hgrown, Cad.lane_of_same (List.subset_append_left _ _) hm hk ha h⟩
  · split
    · next h => exact ⟨.refl _, Cad.lane_of_same (List.subset_append_right _ _) hm (e := e) rfl rfl h⟩
    · refine ⟨⟨rfl, fun _ h => h, List.subset_append_left _ _⟩, e, ?_, rfl, bits_locBytes m hm⟩
      exact List.mem_append_right _ (List.mem_append_right _ List.mem_cons_self)

theorem repairedLanes_foldl_cad (l : List (Nat × Nat)) (hl : ∀ e ∈ l, e.1 < 256) (s : State) :
    s.cad.grown (l.foldl (fun s e => s.repairedLane e.1 e.2) s).cad
      ∧ ∀ e ∈ l, (l.foldl (fun s e => s.repairedLane e.1 e.2) s).cad.lane e.1 := by
  induction l generalizing s with
  | nil => exact ⟨.refl _, by simp⟩
  | cons a l ih =>
    obtain ⟨h1, h2⟩ := repairedLane_cad s a.2 (hl a List.mem_cons_self)
    obtain ⟨h3, h4⟩ := ih (fun e he => hl e (List.mem_cons_of_mem a he)) (s.repairedLane a.1 a.2)
    refine ⟨h1.trans h3, fun e he => ?_⟩
    rcases List.mem_cons.1 he with rfl | he
    · exact h3.lane h2
    · exact h4 e he

/-- The lanes that a training repaired, by module. -/
def lanesOf (rep : BitVec 16) : List (Nat × Nat) :=
  (List.range 4).flatMap (fun m => (List.range (bits rep.toNat (4 * m + 3) (4 * m))).map (fun j => (m, j)))

theorem repairedLanes_eq (s : State) (rep : BitVec 16) :
    s.repairedLanes rep = ((lanesOf rep).foldl (fun s e => s.repairedLane e.1 e.2) s).draw 1 := rfl

theorem repairedLanes_zero (s : State) : s.repairedLanes 0 = s.draw 1 := by
  rw [repairedLanes_eq, show lanesOf 0 = [] by decide, List.foldl_nil]

theorem repairedLanes_counted (s : State) (rep : BitVec 16) : ∃ u, OnlyCounted s u ∧ s.repairedLanes rep = u.draw 1 := by
  rw [repairedLanes_eq]
  have h := foldl_keeps OnlyCounted .refl (fun _ _ _ => .trans) _
    (fun (s : State) (e : Nat × Nat) => repairedLane_counted s e.1 e.2) (lanesOf rep) s
  generalize (lanesOf rep).foldl (fun s e => s.repairedLane e.1 e.2) s = u at h ⊢
  exact ⟨u, h, rfl⟩

/-- A module with repaired lanes has an entry in the Cadastre. -/
theorem repairedLanes_lane (s : State) (rep : BitVec 16) {m : Nat} (hm : m < 4) (hrep : bits rep.toNat (4 * m + 3) (4 * m) ≠ 0) :
    (s.repairedLanes rep).cad.lane m := by
  have hall : ∀ e ∈ lanesOf rep, e.1 < 256 := by
    intro e he
    obtain ⟨k, hk, he⟩ := List.mem_flatMap.1 he
    obtain ⟨j, -, rfl⟩ := List.mem_map.1 he
    have := List.mem_range.1 hk
    show k < 256
    omega
  refine (repairedLanes_foldl_cad (lanesOf rep) hall s).2 (m, 0) ?_
  exact List.mem_flatMap.2 ⟨m, List.mem_range.2 hm, List.mem_map.2 ⟨0, List.mem_range.2 (Nat.pos_of_ne_zero hrep), rfl⟩⟩

/-- Modules and rate after a training at a rate that is not down. -/
theorem ucieTrained_hi (s : State) (m : BitVec 4) {r : BitVec 2} (rep : BitVec 16) (h0 : r ≠ 0) (h3 : r ≠ 3) :
    (s.ucieTrained m r rep).hi = { (s.repairedLanes rep).hi with
      modules := pairsInUse m
      rate := if pairsInUse m = 0 then 0 else r
      repairs := rep
      err := (s.repairedLanes rep).hi.err ||| (if rep ≠ 0 then 2 else 0)
        ||| (if pairsInUse m ≠ 0 ∧ (pairsInUse m ≠ 15 ∨ r = 1) then 4 else 0) } := by
  unfold State.ucieTrained
  dsimp only
  rw [if_neg h3]
  have h0 : r ≠ 0#2 := h0
  by_cases h : pairsInUse m = 0#4 <;> simp [h, h0]

theorem ucieTrained_rest (s : State) (m : BitVec 4) (r : BitVec 2) (rep : BitVec 16) :
    s.ucieTrained m r rep = { s.repairedLanes rep with hi := (s.ucieTrained m r rep).hi } := rfl

theorem pairsInUse_all : pairsInUse 15 = 15 := rfl

theorem pairsInUse_first {m : BitVec 4} (h : m ≠ 15) (h0 : m.getLsbD 0 = true) (h1 : m.getLsbD 1 = true) : pairsInUse m = 3 := by
  rw [pairsInUse, if_neg h, h0, h1]
  rfl

theorem pairsInUse_second {m : BitVec 4} (h : ¬ (m.getLsbD 0 = true ∧ m.getLsbD 1 = true)) (h2 : m.getLsbD 2 = true)
    (h3 : m.getLsbD 3 = true) : pairsInUse m = 12 := by
  have hm : m ≠ 15 := fun hm => h (by rw [hm]; decide)
  rw [pairsInUse, if_neg hm, if_neg (by simpa using h), h2, h3]
  rfl

/-- Bits 1 and 2 of the host interface's errors. -/
theorem err_repaired (e b : BitVec 3) : (e ||| 2 ||| b).getLsbD 1 = true := by simp
theorem err_degraded (e b : BitVec 3) : (e ||| b ||| 4).getLsbD 2 = true := by simp

/-! ### Completions (R365, R390, R391) -/

theorem exec_hostCxlCompletion {s : State} {r : HostReq} {rest : List HostReq} (h : s.cxlOut = r :: rest) :
    exec .hostCxlCompletion s = .next (({ s with cxlOut := rest } : State).hostTakes r) := by
  show execHostCxlCompletion s = _
  rw [execHostCxlCompletion, h]

theorem getMany_setMany_same (t : Tbl Byte) (a : Nat) (bs : List Byte) : (Tbl.setMany 0 t a bs).getMany 0 a bs.length = bs := by
  refine List.ext_getElem (Tbl.getMany_length ..) fun i h1 h2 => ?_
  have h := Tbl.getMany_get 0 (Tbl.setMany 0 t a bs) a bs.length i h2
  rw [List.getElem?_eq_getElem h1, Tbl.get_setMany, dif_pos (by omega)] at h
  simpa using Option.some.inj h

/-! ### Answers to back-invalidations (R368) -/

/-- Where every group that a write touches is written whole, no byte but those written changes, whatever errors there are. -/
theorem byteAt_writeAt_whole (s : State) (cached : Bool) (ps : List (Place × Byte)) (hn : (ps.map Prod.fst).Nodup)
    (hwhole : ∀ g ∈ groupsOf (ps.map Prod.fst), ∀ j < 64, Place.dram (64 * g + j) ∈ ps.map Prod.fst) {pl : Place}
    (hpl : pl ∉ ps.map Prod.fst) : (s.writeAt cached ps).byteAt pl = s.byteAt pl := by
  have hparts : ((groupsOf (ps.map Prod.fst)).filter (fun g => !(List.range 64).all (fun j =>
      (ps.filterMap (fun p => match p.1 with | .dram k => some k | .host _ => none)).contains (g * 64 + j)))) = [] := by
    refine List.filter_eq_nil_iff.2 fun g hg => ?_
    rw [Bool.not_eq_true', Bool.not_eq_false]
    refine List.all_eq_true.2 fun j hj => ?_
    obtain ⟨⟨q, b⟩, he, rfl⟩ := List.mem_map.1 (hwhole g hg j (List.mem_range.1 hj))
    rw [List.contains_iff_mem]
    exact List.mem_filterMap.2 ⟨_, he, by simp; omega⟩
  have htouch : s.touch [] = s := by simp [State.touch]
  have hclear (gs : List Nat) : (gs.foldl (fun s g => { s with memErr := s.memErr.clear (g * 16) (g * 16 + 16) }) s).byteAt pl
      = s.byteAt pl := by
    refine foldl_keeps (fun s t => t.byteAt pl = s.byteAt pl) (fun _ => rfl) (fun s t u h g => g.trans h) _ (fun s g => ?_) _ s
    cases pl <;> rfl
  unfold State.writeAt
  extract_lets +onlyGivenNames keys groups whole full a b c
  have ha : a = s := by
    show s.touch _ = s
    exact (congrArg s.touch hparts).trans htouch
  have hc : c.byteAt pl = s.byteAt pl := by
    show (ps.foldl putByte (full.foldl _ a)).byteAt pl = _
    rw [(byteAt_foldl_putByte ps _ hn pl).2 hpl, ha]
    exact hclear full
  clear_value keys c
  cases keys with
  | nil => exact hc
  | cons k l =>
    refine Eq.trans ?_ hc
    obtain ⟨hm, hh⟩ := flipWrite_mem c cached k
    dsimp only
    cases pl <;> simp [State.byteAt, hm, hh]

theorem mem_dramRun {k n : Nat} {pl : Place} : pl ∈ dramRun k n ↔ ∃ a, k ≤ a ∧ a < k + n ∧ pl = .dram a := by
  simp only [dramRun, List.mem_map, List.mem_range]
  constructor
  · rintro ⟨j, hj, rfl⟩
    exact ⟨k + j, by omega, by omega, rfl⟩
  · rintro ⟨a, h1, h2, rfl⟩
    exact ⟨a - k, by omega, by rw [show k + (a - k) = a by omega]⟩

theorem dramRun_nodup (k n : Nat) : (dramRun k n).Nodup :=
  List.Nodup.map (fun i j h => by have := Place.dram.inj h; omega) List.nodup_range

/-- A line's two groups are written whole with it. -/
theorem line_whole (line : Nat) : ∀ g ∈ groupsOf (dramRun (128 * line) 128), ∀ j < 64,
    Place.dram (64 * g + j) ∈ dramRun (128 * line) 128 := by
  intro g hg j hj
  rw [groupsOf, List.mem_dedup, List.mem_filterMap] at hg
  obtain ⟨pl, hpl, hg⟩ := hg
  obtain ⟨a, h1, h2, rfl⟩ := mem_dramRun.1 hpl
  have hg : a / 64 = g := Option.some.inj hg
  exact mem_dramRun.2 ⟨_, by omega, by omega, rfl⟩

/-- A line's bytes are stored, and no other byte of memory changes. -/
theorem writeLine_mem (s : State) (cached : Bool) (line : Nat) {bs : List Byte} (hlen : bs.length = 128) :
    (s.writeAt cached ((dramRun (128 * line) 128).zip bs)).mem.getMany 0 (128 * line) 128 = bs
      ∧ ∀ a, a < 128 * line ∨ 128 * line + 128 ≤ a →
        (s.writeAt cached ((dramRun (128 * line) 128).zip bs)).mem.get 0 a = s.mem.get 0 a := by
  have hrun : (dramRun (128 * line) 128).length = 128 := by simp [dramRun]
  have hfst : ((dramRun (128 * line) 128).zip bs).map Prod.fst = dramRun (128 * line) 128 :=
    List.map_fst_zip (by rw [hrun, hlen])
  have hstored := bytesAt_writeAt s cached (dramRun_nodup (128 * line) 128) (hlen.trans hrun.symm)
  have hkept (pl : Place) := byteAt_writeAt_whole s cached ((dramRun (128 * line) 128).zip bs)
    (by rw [hfst]; exact dramRun_nodup _ _) (by rw [hfst]; exact line_whole line) (pl := pl)
  rw [hfst] at hkept
  generalize s.writeAt cached ((dramRun (128 * line) 128).zip bs) = t at hstored hkept ⊢
  refine ⟨?_, fun a ha => hkept (.dram a) fun hin => ?_⟩
  · refine List.ext_getElem? fun j => ?_
    by_cases hj : j < 128
    · rw [Tbl.getMany_get 0 t.mem _ _ _ hj, ← hstored]
      simp [State.bytesAt, dramRun, hj, State.byteAt]
    · rw [List.getElem?_eq_none (by rw [Tbl.getMany_length]; omega), List.getElem?_eq_none (by omega)]
  · obtain ⟨b, h1, h2, hb⟩ := mem_dramRun.1 hin
    have := Place.dram.inj hb
    omega

theorem serveWaiting_nothing {s : State} (h : s.hi.waiting = []) : s.serveWaiting = s := by
  unfold State.serveWaiting
  rw [h, List.foldl_nil]
  show { s with hi := { s.hi with waiting := [] } } = s
  rw [← h]

/-- The device no longer awaits the answer for a line, and the host no longer holds it. -/
def State.answeredLine (s : State) (line : Nat) : State :=
  { s with backInv := s.backInv.erase line, hostDir := s.hostDir.set 0 line 0 }

theorem exec_backInvalidation_clean {s : State} {line : Nat} (h : s.backInv.contains line = true) (hw : s.hi.waiting = []) :
    exec (.backInvalidationResponse line none) s = .next (s.answeredLine line) := by
  show execBackInvalidationResponse line none s = _
  unfold execBackInvalidationResponse
  rw [if_pos h]
  exact congrArg _ (serveWaiting_nothing (s := s.answeredLine line) hw)

/-- What the device counts and discards before a returned line is stored. -/
def State.returnedLine (s : State) (line : Nat) : State :=
  let t := ((s.answeredLine line).dropShared [2 * line, 2 * line + 1]).lineAccess true true line
  { t with weightSeen := t.weightSeen.set false (t.blockNo (.dram (128 * line))) false }

theorem returnedLine_spec (s : State) (line : Nat) : (s.returnedLine line).mem = s.mem ∧ (s.returnedLine line).waits = s.waits
    ∧ (s.returnedLine line).hi = s.hi ∧ (s.returnedLine line).backInv = s.backInv.erase line
    ∧ (s.returnedLine line).hostDir = s.hostDir.set 0 line 0 := by
  have h := (lineAccess_onlyTraffic ((s.answeredLine line).dropShared [2 * line, 2 * line + 1]) true true line).rest
  unfold State.returnedLine
  dsimp only
  generalize ((s.answeredLine line).dropShared [2 * line, 2 * line + 1]).lineAccess true true line = t at h ⊢
  exact ⟨(congrArg State.mem h :), (congrArg State.waits h :), (congrArg State.hi h :), (congrArg State.backInv h :), (congrArg State.hostDir h :)⟩

theorem exec_backInvalidation_data {s : State} {line : Nat} {bs : List Byte} (h : s.backInv.contains line = true)
    (hw : s.hi.waiting = []) (hlen : bs.length = 128) (hheld : s.hostDir.get 0 line = 2) (hwaits : s.waits = []) :
    exec (.backInvalidationResponse line (some bs)) s
      = .next ((s.returnedLine line).writeAt true ((dramRun (128 * line) 128).zip bs)) := by
  obtain ⟨-, hrw, hrh, -⟩ := returnedLine_spec s line
  show execBackInvalidationResponse line (some bs) s = _
  unfold execBackInvalidationResponse
  rw [if_pos h]
  dsimp only
  rw [if_pos hheld, List.take_of_length_le hlen.le]
  show Host.Outcome.next ((s.returnedLine line).writeAt true ((dramRun (128 * line) 128).zip bs)).retest.serveWaiting = _
  have hm := writeAt_onlyMemory (s.returnedLine line) true ((dramRun (128 * line) 128).zip bs)
  rw [retest_nothing (hm.waits_eq.trans (hrw.trans hwaits)), serveWaiting_nothing]
  rw [hm.hi_eq, hrh, hw]

end Sys2Proof.Machine

namespace Sys2Proof.Machine

/-! ### The clauses of the host's access -/

theorem hostMemRead_spec {s : State} {off n : Nat} {excl : Bool} (h : hostServed s) (hoff : off + n ≤ 2 ^ 40) :
    ∃ t bs, exec (.hostMemRead off n excl) s = .next t
      ∧ t.hostRsp = some (bs, false) ∧ bs.length = n
      ∧ (∀ j < n, bs[j]? = some (match s.hostPlace (off + j) with
          | some e => s.mem.get 0 e.1
          | none => 0xFF#8))
      ∧ (∀ j < n, ∀ k, s.hostPlace (off + j) = some (k, true) → t.hostDir.get 0 (k / 128) = if excl then 2 else 1)
      ∧ t.mem = s.mem := by
  rw [exec_hostMemRead h hoff]
  have hway := hostReadWay_onlyHostLines s (s.hostPlaces off n) excl
  have hdir (j k : Nat) (hj : j < n) (hk : s.hostPlace (off + j) = some (k, true)) :
      (s.hostReadWay (s.hostPlaces off n) excl).hostDir.get 0 (k / 128) = if excl then 2 else 1 := by
    rw [State.hostReadWay, hostLines_hostDir, if_pos (mem_coherentLines hj hk)]
  generalize s.hostReadWay (s.hostPlaces off n) excl = u at hway hdir ⊢
  obtain ⟨hclean, hlen, hbytes⟩ := hostAnswer_spec (off := off) (n := n) hway.mem_eq (hway.memErr_eq.trans (memErr_served h))
  refine ⟨_, (u.hostAnswer n (s.hostPlaces off n)).1, rfl, ?_, hlen, hbytes, fun j hj k hk => hdir j k hj hk, hway.mem_eq⟩
  show some (u.hostAnswer n (s.hostPlaces off n)) = _
  rw [← hclean]

theorem hostMemRead_shut {s : State} {off n : Nat} {excl : Bool} (hoff : off + n ≤ 2 ^ 40)
    (h : s.hi.st = .starting ∨ s.hi.st = .resetting) :
    exec (.hostMemRead off n excl) s = .next { s with
      hostRsp := some (List.replicate n 0xFF#8, true), hi := { s.hi with entries := s.hi.entries + 1 } } := by
  show execHostMemRead off n excl s = _
  unfold execHostMemRead
  rw [if_neg (show ¬ bar2Size < off + n from Nat.not_lt.2 hoff)]
  have hshut : s.hostShut (s.hostPlaces off n) = true := by
    rcases h with h | h <;> simp [State.hostShut, h]
  unfold State.hostRead64
  dsimp only
  rw [hshut]
  rfl

theorem hostMemWrite_spec {s : State} {off : Nat} {data : List Byte} {excl : Bool} (h : hostServed s) (hw : s.waits = [])
    (hoff : off + data.length ≤ 2 ^ 40) (hres : ∀ j < data.length, s.reservedAt (off + j) = false)
    (happart : ∀ i < data.length, ∀ j < data.length, i ≠ j → ∀ k b c,
      s.hostPlace (off + i) = some (k, b) → s.hostPlace (off + j) ≠ some (k, c)) :
    ∃ t, exec (.hostMemWrite off data false excl) s = .next t
      ∧ (∀ j < data.length, ∀ k b, s.hostPlace (off + j) = some (k, b) → some (t.mem.get 0 k) = data[j]?)
      ∧ ∀ a, (∀ j < data.length, ∀ b, s.hostPlace (off + j) ≠ some (a, b)) → t.mem.get 0 a = s.mem.get 0 a := by
  rw [exec_hostMemWrite h hoff hres]
  refine ⟨_, rfl, ?_⟩
  split
  · next hempty =>
    have hnone : s.hostPlaces off data.length = [] := List.isEmpty_iff.1 hempty
    refine ⟨fun j hj k b hk => ?_, fun _ _ => rfl⟩
    have hin := mem_hostPlaces.2 ⟨hj, hk⟩
    rw [hnone] at hin
    exact absurd hin List.not_mem_nil
  · exact hostStore_bytes h hw happart

theorem hostMemWrite_reserved {s : State} {off : Nat} {data : List Byte} {poison excl : Bool} {j : Nat}
    (hoff : off + data.length ≤ 2 ^ 40) (hready : s.hi.st = .ready) (hj : j < data.length) (hres : s.reservedAt (off + j) = true) :
    exec (.hostMemWrite off data poison excl) s = .fault .reservedAreaWrite := by
  show execHostMemWrite off data poison excl s = _
  have hany : (List.range data.length).any (fun j => s.reservedAt (off + j)) = true :=
    List.any_eq_true.2 ⟨j, List.mem_range.2 hj, hres⟩
  unfold execHostMemWrite
  rw [if_neg (show ¬ bar2Size < off + data.length from Nat.not_lt.2 hoff), hany, if_pos (by simp [hready])]

theorem ucieTrained_spec {s : State} {m : BitVec 4} {r : BitVec 2} {rep : BitVec 16} (h0 : r ≠ 0) (h3 : r ≠ 3) :
    ∃ t, exec (.ucieTrained m r rep) s = .next t
      ∧ (m = 15 → t.hi.modules = 15) ∧ (m ≠ 15 → m.getLsbD 0 = true → m.getLsbD 1 = true → t.hi.modules = 3)
      ∧ (¬ (m.getLsbD 0 = true ∧ m.getLsbD 1 = true) → m.getLsbD 2 = true → m.getLsbD 3 = true → t.hi.modules = 12)
      ∧ t.hi.rate = (if t.hi.modules = 0 then 0 else r) ∧ t.hi.repairs = rep
      ∧ (rep ≠ 0 → t.hi.err.getLsbD 1 = true)
      ∧ (t.hi.modules ≠ 0 → t.hi.modules ≠ 15 ∨ r = 1 → t.hi.err.getLsbD 2 = true)
      ∧ t.mem = s.mem ∧ t.cores = s.cores ∧ t.hk = s.hk
      ∧ (rep = 0 → { t with
          freeCtr := s.freeCtr
          hi := { t.hi with modules := s.hi.modules, rate := s.hi.rate, repairs := s.hi.repairs, err := s.hi.err } } = s)
      ∧ ∀ n < 4, bits rep.toNat (4 * n + 3) (4 * n) ≠ 0 →
          ∃ e ∈ t.cad.list.entries ++ t.cad.runtime ++ t.cad.tested, e.kind = 8 ∧ e.a 0 = n := by
  have hhi := ucieTrained_hi s m rep h0 h3
  have hrest := ucieTrained_rest s m r rep
  have hlane (n : Nat) (hn : n < 4) := repairedLanes_lane s rep (m := n) hn
  have hzero : rep = 0 → s.repairedLanes rep = s.draw 1 := by
    rintro rfl
    exact repairedLanes_zero s
  obtain ⟨u, hu, hlanes⟩ := repairedLanes_counted s rep
  generalize hl : s.repairedLanes rep = l at hhi hrest hlane hzero hlanes
  refine ⟨s.ucieTrained m r rep, rfl, ?_⟩
  generalize s.ucieTrained m r rep = t at hhi hrest ⊢
  have hmods : t.hi.modules = pairsInUse m := by rw [hhi]
  have herr : t.hi.err = l.hi.err ||| (if rep ≠ 0 then 2 else 0) ||| (if pairsInUse m ≠ 0 ∧ (pairsInUse m ≠ 15 ∨ r = 1) then 4 else 0) := by
    rw [hhi]
  have hrate : t.hi.rate = if pairsInUse m = 0 then 0 else r := by rw [hhi]
  have hreps : t.hi.repairs = rep := by rw [hhi]
  have hcad : t.cad = l.cad := by rw [hrest]
  rw [hmods, herr, hrate, hreps, hcad]
  refine ⟨?_, pairsInUse_first, pairsInUse_second, rfl, rfl, ?_, ?_, ?_, ?_, ?_, ?_, hlane⟩
  · rintro rfl
    exact pairsInUse_all
  · intro hrep
    rw [if_pos hrep]
    exact err_repaired _ _
  · intro hup hlow
    rw [if_pos (And.intro hup hlow)]
    exact err_degraded _ _
  · rw [hrest, hlanes]
    exact (congrArg State.mem hu :)
  · rw [hrest, hlanes]
    exact (congrArg State.cores hu :)
  · rw [hrest, hlanes]
    exact (congrArg State.hk hu :)
  · intro hrep
    have hup : t.hi = { s.hi with modules := t.hi.modules, rate := t.hi.rate, repairs := t.hi.repairs, err := t.hi.err } := by
      rw [hhi, hzero hrep]
      rfl
    rw [hrest, hzero hrep]
    rw [hup]
    rfl

theorem ucieTrained_down (s : State) (m : BitVec 4) (rep : BitVec 16) :
    ∃ t, exec (.ucieTrained m 0 rep) s = .next t ∧ t.hi.modules = 0 ∧ t.hi.rate = 0 := by
  refine ⟨s.ucieTrained m 0 rep, rfl, ?_⟩
  unfold State.ucieTrained
  dsimp only
  simp

theorem hostCxlCompletion_write {s : State} {a : Nat} {bs : List Byte} {rest : List HostReq} (h : s.cxlOut = .write a bs :: rest) :
    ∃ t, exec .hostCxlCompletion s = .next t ∧ t.cxlOut = rest
      ∧ t.hostMem.getMany 0 a bs.length = bs ∧ { t with cxlOut := s.cxlOut, hostMem := s.hostMem } = s := by
  rw [exec_hostCxlCompletion h]
  exact ⟨_, rfl, rfl, getMany_setMany_same _ a bs, rfl⟩

theorem hostCxlCompletion_irq {s : State} {v : Nat} {rest : List HostReq} (h : s.cxlOut = .irq v :: rest)
    (hv : (s.msix.get ⟨0, 0, true⟩ v).masked = false) :
    exec .hostCxlCompletion s = .next { s with cxlOut := rest, irqSent := s.irqSent ++ [v] } := by
  rw [exec_hostCxlCompletion h]
  show Host.Outcome.next (if (s.msix.get ⟨0, 0, true⟩ v).masked then _ else _) = _
  rw [hv]
  rfl

theorem backInvalidation_clean {s : State} {line : Nat} (h : s.backInv.contains line = true) (hw : s.hi.waiting = []) :
    ∃ t, exec (.backInvalidationResponse line none) s = .next t ∧ t.backInv = s.backInv.erase line
      ∧ t.hostDir.get 0 line = 0 ∧ t.mem = s.mem := by
  rw [exec_backInvalidation_clean h hw]
  refine ⟨_, rfl, rfl, ?_, rfl⟩
  show (s.hostDir.set 0 line 0).get 0 line = 0
  rw [Tbl.get_set, if_pos rfl]

theorem backInvalidation_data {s : State} {line : Nat} {bs : List Byte} (h : s.backInv.contains line = true)
    (hw : s.hi.waiting = []) (hlen : bs.length = 128) (hheld : s.hostDir.get 0 line = 2) (hwaits : s.waits = []) :
    ∃ t, exec (.backInvalidationResponse line (some bs)) s = .next t ∧ t.backInv = s.backInv.erase line
      ∧ t.hostDir.get 0 line = 0 ∧ t.mem.getMany 0 (128 * line) 128 = bs
      ∧ ∀ a, a < 128 * line ∨ 128 * line + 128 ≤ a → t.mem.get 0 a = s.mem.get 0 a := by
  rw [exec_backInvalidation_data h hw hlen hheld hwaits]
  obtain ⟨hmem, -, -, hback, hdir⟩ := returnedLine_spec s line
  generalize s.returnedLine line = u at hmem hback hdir ⊢
  have hm := writeAt_onlyMemory u true ((dramRun (128 * line) 128).zip bs)
  obtain ⟨hline, hother⟩ := writeLine_mem u true line hlen
  rw [hmem] at hother
  refine ⟨_, rfl, ?_, ?_, hline, hother⟩
  · exact (congrArg State.backInv hm :).trans hback
  · rw [show (u.writeAt true ((dramRun (128 * line) 128).zip bs)).hostDir = u.hostDir from (congrArg State.hostDir hm :), hdir,
      Tbl.get_set, if_pos rfl]

end Sys2Proof.Machine

section
open Sys2Proof Sys2Proof.Machine

/-- Settles O54: each access reduces to the bytes at its places, with what it counts on its way apart. -/
theorem hostAccess : Obligations.HostAccess := by
  unfold Obligations.HostAccess
  intro s
  refine ⟨fun off n excl h hoff => hostMemRead_spec h hoff, fun off n excl hoff h => hostMemRead_shut hoff h,
    fun off data excl h _ hw hoff hres happart => hostMemWrite_spec h hw hoff hres happart, fun off n excl h => if_pos h,
    fun off data poison excl h => if_pos h, fun off data poison excl j hoff hready hj hres => hostMemWrite_reserved hoff hready hj hres,
    fun _ => rfl, fun m r rep h0 h3 => ucieTrained_spec h0 h3, ucieTrained_down s, fun a bs rest h => hostCxlCompletion_write h,
    fun v rest h hv => hostCxlCompletion_irq h hv, fun line h hw => ⟨backInvalidation_clean h hw,
      fun bs hlen hheld _ hwaits => backInvalidation_data h hw hlen hheld hwaits⟩⟩

end

namespace Sys2Proof.Machine

/-- A loop over distinct keys, each of whose turns changes what its own key shows: a key shows what its turn makes of it, in a
state that the other turns have led to. -/
theorem foldl_once {κ V : Type} [DecidableEq κ] (get : State → κ → V) (f : State → κ → State) (R : State → State → Prop)
    (hrefl : ∀ s, R s s) (htrans : ∀ s t u, R s t → R t u → R s u) (hf : ∀ s k, R s (f s k))
    (hother : ∀ s k m, m ≠ k → get (f s k) m = get s m) (l : List κ) (hn : l.Nodup) (s : State) (m : κ) (hm : m ∈ l) :
    ∃ u, R s u ∧ get u m = get s m ∧ get (l.foldl f s) m = get (f u m) m := by
  have hkeep (l : List κ) (hm : m ∉ l) (s : State) : get (l.foldl f s) m = get s m := by
    induction l generalizing s with
    | nil => rfl
    | cons k l ih =>
      rw [List.mem_cons, not_or] at hm
      rw [List.foldl_cons, ih hm.2, hother s k m hm.1]
  induction l generalizing s with
  | nil => exact absurd hm List.not_mem_nil
  | cons k l ih =>
    rw [List.nodup_cons] at hn
    rw [List.foldl_cons]
    rcases List.mem_cons.1 hm with rfl | hml
    · exact ⟨s, hrefl s, rfl, hkeep l hn.1 (f s m)⟩
    · have hmk : m ≠ k := fun h => hn.1 (h ▸ hml)
      obtain ⟨u, hu, hget, hlast⟩ := ih hn.2 (f s k) hml
      exact ⟨u, htrans _ _ _ (hf s k) hu, hget.trans (hother s k m hmk), hlast⟩

/-! ### What a housekeeping round changes (R448 to R455) -/

/-- Nothing changes but records, sensors, domains, `TH_STATUS`, the measured channels and the sideband pins. -/
def OnlyThermal (s t : State) : Prop :=
  { t with
    cxlOut := s.cxlOut, evq := s.evq, evSeq := s.evSeq, evLate := s.evLate, hk := s.hk
    th := { t.th with temps := s.th.temps, domains := s.th.domains, status := s.th.status, volts := s.th.volts, currs := s.th.currs } } = s

namespace OnlyThermal

theorem refl (s : State) : OnlyThermal s s := rfl

theorem trans {s t u : State} (h : OnlyThermal s t) (g : OnlyThermal t u) : OnlyThermal s u := by
  unfold OnlyThermal at *
  rw [← h, ← g]

theorem of_records {s t : State} (h : OnlyRecords s t) : OnlyThermal s t := by
  unfold OnlyRecords at h
  unfold OnlyThermal
  rw [← h]

theorem foldl {α : Type} (f : State → α → State) (hf : ∀ s a, OnlyThermal s (f s a)) (l : List α) (s : State) :
    OnlyThermal s (l.foldl f s) := foldl_keeps OnlyThermal refl (fun _ _ _ => trans) f hf l s

section
variable {s t : State} (h : OnlyThermal s t)
include h

theorem hi_eq : t.hi = s.hi := by rw [← h]
theorem pw_eq : t.pw = s.pw := by rw [← h]
theorem stks_eq : t.stks = s.stks := by rw [← h]
theorem th_eq : t.th = { s.th with
    temps := t.th.temps, domains := t.th.domains, status := t.th.status, volts := t.th.volts, currs := t.th.currs } := by rw [← h]
theorem thresholds_eq (d : Nat) : t.thresholds d = s.thresholds d := by rw [State.thresholds, State.thresholds, h.th_eq]
theorem hyst_eq : t.th.hyst = s.th.hyst := by rw [h.th_eq]

end

end OnlyThermal

/-- Bits of `TH_STATUS` stay set. -/
def StatusGrows (s t : State) : Prop := ∀ n, s.th.status.getLsbD n = true → t.th.status.getLsbD n = true

theorem StatusGrows.trans {s t u : State} (h : StatusGrows s t) (g : StatusGrows t u) : StatusGrows s u := fun n hn => g n (h n hn)

theorem thermal_grows (s : State) (b : Nat) : StatusGrows s (s.thermal b) := fun n hn => by
  simp only [State.thermal, BitVec.getLsbD_or, hn, Bool.true_or]

theorem thermal_broken (s : State) : (s.thermal 4).th.status.getLsbD 2 = true := by
  simp [State.thermal]

theorem OnlyRecords.th_eq {s t : State} (h : OnlyRecords s t) : t.th = s.th := by rw [← h]

/-! ### Samples -/

@[simp] theorem sensor_setSensor (s : State) (n m : Nat) (v : Sensor) : (s.setSensor n v).sensor m = if m = n then v else s.sensor m := by
  show (s.th.temps.set Sensor.reset n v).get Sensor.reset m = _
  rw [Tbl.get_set]
  rfl

@[simp] theorem domain_setDomain (s : State) (d e : Nat) (v : Domain) : (s.setDomain d v).domain e = if e = d then v else s.domain e := by
  show (s.th.domains.set Domain.reset d v).get Domain.reset e = _
  rw [Tbl.get_set]
  rfl

/-- What a sensor shows after a sample (R453): a broken one stays broken. -/
def Sensor.sampled (o : Sensor) (r : Reading) : Sensor :=
  if o.broken then { o with temp := r.temp } else ⟨r.temp, Reading.cause r ≠ 0, BitVec.ofNat 3 (Reading.cause r)⟩

/-- A sample writes its sensor, and sets `BROKEN` where it finds the sensor broken. -/
theorem sample_spec (s : State) (n : Nat) (r : Reading) :
    OnlyThermal s (s.sample n r) ∧ StatusGrows s (s.sample n r) ∧ (∀ d, (s.sample n r).domain d = s.domain d)
      ∧ (∀ m, (s.sample n r).sensor m = if m = n then (s.sensor n).sampled r else s.sensor m)
      ∧ ((s.sensor n).broken = false → Reading.cause r ≠ 0 → (s.sample n r).th.status.getLsbD 2 = true) := by
  unfold State.sample
  extract_lets +onlyGivenNames old c
  split
  · next hb =>
    refine ⟨rfl, fun _ h => h, fun _ => rfl, fun m => ?_, fun hf => absurd (hf.symm.trans hb) (by decide)⟩
    rw [sensor_setSensor, Sensor.sampled, if_pos hb]
  · next hb =>
    split
    · next hc =>
      refine ⟨rfl, fun _ h => h, fun _ => rfl, fun m => ?_, fun _ hf => absurd hc hf⟩
      rw [sensor_setSensor, Sensor.sampled, if_neg hb, show Reading.cause r = 0 from hc]
      rfl
    · next hc =>
      extract_lets +onlyGivenNames d u
      have hrec := raise_records (u.thermal 4) (((mkEvent 0x0E 1 0).atDomain d).withReason (n - (domainSensors d).headD 0))
      have hth := hrec.th_eq
      have hsens : (u.thermal 4).th.temps = u.th.temps := rfl
      have hu : OnlyThermal s (u.thermal 4) := rfl
      refine ⟨hu.trans (.of_records hrec), fun m hm => ?_, fun e => ?_, fun m => ?_, fun _ _ => ?_⟩
      · rw [hth]
        exact thermal_grows u 4 m hm
      · rw [State.domain, hth]
        rfl
      · rw [State.sensor, hth, hsens]
        show u.sensor m = _
        rw [show u = s.setSensor n ⟨r.temp, true, BitVec.ofNat 3 c⟩ from rfl, sensor_setSensor, Sensor.sampled, if_neg hb,
          decide_eq_true (show Reading.cause r ≠ 0 from hc)]
      · rw [hth]
        exact thermal_broken u

theorem sample_grows (s : State) (n : Nat) (r : Reading) : StatusGrows s (s.sample n r) := by
  obtain ⟨-, hgrows, -⟩ := sample_spec s n r
  exact hgrows

theorem sample_domain (s : State) (n : Nat) (r : Reading) (d : Nat) : (s.sample n r).domain d = s.domain d := by
  obtain ⟨-, -, hdomain, -⟩ := sample_spec s n r
  exact hdomain d

theorem sample_sensor (s : State) (n : Nat) (r : Reading) (m : Nat) :
    (s.sample n r).sensor m = if m = n then (s.sensor n).sampled r else s.sensor m := by
  obtain ⟨-, -, -, hsensor, -⟩ := sample_spec s n r
  exact hsensor m

/-- All the samples of a list, which begins with a sensor. -/
def State.sampleFrom (s : State) (l : List Reading) (k : Nat) : State :=
  (l.zipIdx k).foldl (fun (s : State) (e : Reading × Nat) => s.sample e.2 e.1) s

theorem sampleFrom_onlyThermal (s : State) (l : List Reading) (k : Nat) : OnlyThermal s (s.sampleFrom l k) :=
  .foldl _ (fun (s : State) (e : Reading × Nat) => (sample_spec s e.2 e.1).1) _ s

theorem sampleFrom_grows (s : State) (l : List Reading) (k : Nat) : StatusGrows s (s.sampleFrom l k) :=
  foldl_keeps StatusGrows (fun _ _ h => h) (fun _ _ _ => .trans) _ (fun (s : State) (e : Reading × Nat) => sample_grows s e.2 e.1) _ s

theorem sampleFrom_domain (s : State) (l : List Reading) (k d : Nat) : (s.sampleFrom l k).domain d = s.domain d :=
  foldl_keeps (fun s t => t.domain d = s.domain d) (fun _ => rfl) (fun _ _ _ h g => g.trans h) _
    (fun (s : State) (e : Reading × Nat) => sample_domain s e.2 e.1 d) _ s

/-- A broken sensor stays broken, whatever is read. -/
theorem sampleFrom_broken (s : State) (l : List Reading) (k n : Nat) : (s.sensor n).broken = true →
    ((s.sampleFrom l k).sensor n).broken = true ∧ ((s.sampleFrom l k).sensor n).cause = (s.sensor n).cause := by
  refine foldl_keeps (fun s t => (s.sensor n).broken = true → (t.sensor n).broken = true ∧ (t.sensor n).cause = (s.sensor n).cause)
    (fun _ h => ⟨h, rfl⟩) (fun s t u h g hb => ?_) _ (fun s e hb => ?_) _ s
  · obtain ⟨h1, h2⟩ := h hb
    obtain ⟨h3, h4⟩ := g h1
    exact ⟨h3, h4.trans h2⟩
  · rw [sample_sensor s e.2 e.1]
    split
    · next h =>
      subst h
      rw [Sensor.sampled, if_pos hb]
      exact ⟨hb, rfl⟩
    · exact ⟨hb, rfl⟩

theorem sampleFrom_before (s : State) (l : List Reading) (k m : Nat) (hm : m < k) : (s.sampleFrom l k).sensor m = s.sensor m := by
  induction l generalizing s k with
  | nil => rfl
  | cons a l ih =>
    show ((s.sample k a).sampleFrom l (k + 1)).sensor m = _
    rw [ih (s.sample k a) (k + 1) (by omega), sample_sensor s k a, if_neg (by omega)]

/-- Each sensor with a reading is sampled once. -/
theorem sampleFrom_sensor (s : State) (l : List Reading) (k m : Nat) {e : Reading} (he : l[m]? = some e) :
    (s.sampleFrom l k).sensor (k + m) = (s.sensor (k + m)).sampled e := by
  induction l generalizing s k m with
  | nil => simp at he
  | cons a l ih =>
    show ((s.sample k a).sampleFrom l (k + 1)).sensor (k + m) = _
    have hone := sample_sensor s k a
    cases m with
    | zero =>
      have ha : a = e := by simpa using he
      subst ha
      rw [sampleFrom_before _ _ _ _ (by omega), hone, if_pos (Nat.add_zero k), Nat.add_zero]
    | succ m =>
      have h := ih (s.sample k a) (k + 1) m (by simpa using he)
      rw [show k + (m + 1) = k + 1 + m by omega, h, hone, if_neg (by omega)]

/-- A reading that finds its sensor broken sets `BROKEN`. -/
theorem sampleFrom_status (s : State) (l : List Reading) (k m : Nat) {e : Reading} (he : l[m]? = some e)
    (hb : (s.sensor (k + m)).broken = false) (hc : Reading.cause e ≠ 0) : (s.sampleFrom l k).th.status.getLsbD 2 = true := by
  induction l generalizing s k m with
  | nil => simp at he
  | cons a l ih =>
    show ((s.sample k a).sampleFrom l (k + 1)).th.status.getLsbD 2 = true
    obtain ⟨-, -, -, hone, hset⟩ := sample_spec s k a
    cases m with
    | zero =>
      have ha : a = e := by simpa using he
      subst ha
      exact sampleFrom_grows _ l (k + 1) 2 (hset hb hc)
    | succ m =>
      rw [show k + (m + 1) = k + 1 + m by omega] at hb
      refine ih (s.sample k a) (k + 1) m (by simpa using he) ?_
      rw [hone, if_neg (by omega)]
      exact hb

end Sys2Proof.Machine

namespace Sys2Proof.Machine

/-! ### The stages of a round -/

/-- A round's voltages and currents are kept. -/
def State.channelsRead (s : State) (r : Round) : State := { s with th := { s.th with
  volts := (r.volts.zipIdx).foldl (fun (t : Tbl (BitVec 16)) (e : BitVec 16 × Nat) => if e.2 < 64 then t.set 0 e.2 e.1 else t) s.th.volts
  currs := (r.currs.zipIdx).foldl (fun (t : Tbl (BitVec 16)) (e : BitVec 16 × Nat) => if e.2 < 32 then t.set 0 e.2 e.1 else t) s.th.currs } }

/-- The orientation is compared with the one read before. -/
def State.oriented (s : State) (r : Round) : State :=
  if s.hk.orient = 0 then s
  else { s with hk := { s.hk with
    orient := orientOf r.keyA r.keyB
    sbFault := if orientOf r.keyA r.keyB ≠ s.hk.orient then s.hk.sbFault ||| 0x10000 else s.hk.sbFault } }

/-- A round's readings are taken: channels, sensors, orientation and pins. -/
def State.readings (s : State) (r : Round) : State :=
  ((r.pins.take 16).zipIdx).foldl (fun (s : State) (e : BitVec 2 × Nat) => s.pinRound e.2 e.1)
    (((s.channelsRead r).sampleFrom (r.temps.take 332) 0).oriented r)

/-- The allowances and the compute dies' power steps follow. -/
def State.powered (s : State) : State := (List.finRange 4).foldl State.powerRound { s with pw := s.pw.round }

/-- The thermal domains follow. -/
def State.heated (s : State) : State := (List.range 16).foldl State.thermalRound s

/-- A round up to the question whether two sensors of a domain are broken. -/
def State.afterRound (s : State) (r : Round) : State := (List.finRange 12).foldl State.stackRound (s.readings r).powered.heated

theorem exec_housekeepingRound (r : Round) (s : State) : exec (.housekeepingRound r) s
    = match (List.range 16).find? (fun d => 2 ≤ (s.afterRound r).brokenIn d) with
      | some d => .next ((s.afterRound r).trip d
          ((((domainSensors d).filter (fun n => ((s.afterRound r).sensor n).broken)).getLast?).getD 0) true false)
      | none => .next (s.afterRound r) := by
  show execHousekeepingRound r s = _
  have hafter : (List.finRange 12).foldl State.stackRound (s.readings r).powered.heated = s.afterRound r := rfl
  have hread : ((r.pins.take 16).zipIdx).foldl (fun (s : State) (e : BitVec 2 × Nat) => s.pinRound e.2 e.1)
    (((s.channelsRead r).sampleFrom (r.temps.take 332) 0).oriented r) = s.readings r := rfl
  have hpower (t : State) : (List.finRange 4).foldl State.powerRound { t with pw := t.pw.round } = t.powered := rfl
  have hheat (t : State) : (List.range 16).foldl State.thermalRound t = t.heated := rfl
  unfold execHousekeepingRound
  extract_lets +onlyGivenNames th a b o hk c d e f g h
  have ha : a = s.channelsRead r := rfl
  clear_value a
  have hb : b = (s.channelsRead r).sampleFrom (r.temps.take 332) 0 := by rw [← ha]; rfl
  clear_value b
  have hc : c = ((s.channelsRead r).sampleFrom (r.temps.take 332) 0).oriented r := by rw [← hb]; rfl
  clear_value c
  have hd : d = s.readings r := by rw [← hread, ← hc]
  clear_value d
  have hf : f = (s.readings r).powered := by rw [← hd, ← hpower]
  clear_value f
  have hg : g = (s.readings r).powered.heated := by rw [← hf, ← hheat]
  clear_value g
  have hh : h = s.afterRound r := by rw [← hafter, ← hg]
  clear_value h
  subst hh
  cases (List.range 16).find? (fun d => 2 ≤ (s.afterRound r).brokenIn d) <;> rfl

/-! ### Stages that leave the sensors -/

/-- Nothing changes but what a round changes, and sensors are as they were. -/
structure KeepsSensors (s t : State) : Prop where
  rest : OnlyThermal s t
  temps : t.th.temps = s.th.temps
  status : StatusGrows s t

namespace KeepsSensors

theorem refl (s : State) : KeepsSensors s s := ⟨.refl s, rfl, fun _ h => h⟩

theorem trans {s t u : State} (h : KeepsSensors s t) (g : KeepsSensors t u) : KeepsSensors s u :=
  ⟨h.rest.trans g.rest, g.temps.trans h.temps, h.status.trans g.status⟩

theorem foldl {α : Type} (f : State → α → State) (hf : ∀ s a, KeepsSensors s (f s a)) (l : List α) (s : State) :
    KeepsSensors s (l.foldl f s) := foldl_keeps KeepsSensors refl (fun _ _ _ => trans) f hf l s

theorem of_records {s t : State} (h : OnlyRecords s t) : KeepsSensors s t :=
  ⟨.of_records h, by rw [h.th_eq], fun _ hn => by rw [h.th_eq]; exact hn⟩

theorem of_setDomain (s : State) (d : Nat) (v : Domain) : KeepsSensors s (s.setDomain d v) := ⟨rfl, rfl, fun _ h => h⟩

theorem of_thermal (s : State) (b : Nat) : KeepsSensors s (s.thermal b) := ⟨rfl, rfl, thermal_grows s b⟩

section
variable {s t : State} (h : KeepsSensors s t)
include h

theorem sensor_eq (n : Nat) : t.sensor n = s.sensor n := by rw [State.sensor, h.temps]; rfl
theorem working_eq (d : Nat) : t.working' d = s.working' d := by
  simp only [State.working', h.sensor_eq]
theorem brokenIn_eq (d : Nat) : t.brokenIn d = s.brokenIn d := by
  simp only [State.brokenIn, h.sensor_eq]

end

end KeepsSensors

theorem powerRound_keepsSensors (s : State) (p : Fin 4) : KeepsSensors s (s.powerRound p) := .of_setDomain s _ _

/-- A power step of a domain leaves its thermal state. -/
theorem powerRound_domain (s : State) (p : Fin 4) (d : Nat) :
    { (s.powerRound p).domain d with pstep := (s.domain d).pstep } = s.domain d := by
  rw [State.powerRound]
  dsimp only
  rw [domain_setDomain]
  split
  · next h => rw [h]
  · rfl

theorem pinRound_onlyThermal (s : State) (j : Nat) (f : BitVec 2) : OnlyThermal s (s.pinRound j f) := rfl

theorem pinRound_th (s : State) (j : Nat) (f : BitVec 2) : (s.pinRound j f).th = s.th := rfl

theorem oriented_spec (s : State) (r : Round) : OnlyThermal s (s.oriented r) ∧ (s.oriented r).th = s.th := by
  unfold State.oriented
  split <;> exact ⟨rfl, rfl⟩

/-- What a round's readings leave: each sensor sampled, the rest of the heat as it was. -/
theorem readings_spec (s : State) (r : Round) :
    OnlyThermal s (s.readings r) ∧ StatusGrows s (s.readings r) ∧ (∀ d, (s.readings r).domain d = s.domain d)
      ∧ (∀ n e, n < 332 → r.temps[n]? = some e → (s.readings r).sensor n = (s.sensor n).sampled e)
      ∧ (∀ n, (s.sensor n).broken = true →
        ((s.readings r).sensor n).broken = true ∧ ((s.readings r).sensor n).cause = (s.sensor n).cause)
      ∧ (∀ n e, n < 332 → r.temps[n]? = some e → (s.sensor n).broken = false → Reading.cause e ≠ 0 →
        (s.readings r).th.status.getLsbD 2 = true) := by
  have hpins : OnlyThermal (((s.channelsRead r).sampleFrom (r.temps.take 332) 0).oriented r) (s.readings r) :=
    .foldl _ (fun (s : State) (e : BitVec 2 × Nat) => pinRound_onlyThermal s e.2 e.1) _ _
  have hpth : (s.readings r).th = (((s.channelsRead r).sampleFrom (r.temps.take 332) 0).oriented r).th :=
    foldl_keeps (fun s t => t.th = s.th) (fun _ => rfl) (fun _ _ _ h g => g.trans h) _
      (fun (s : State) (e : BitVec 2 × Nat) => pinRound_th s e.2 e.1) _ _
  obtain ⟨horient, hoth⟩ := oriented_spec ((s.channelsRead r).sampleFrom (r.temps.take 332) 0) r
  have hth : (s.readings r).th = ((s.channelsRead r).sampleFrom (r.temps.take 332) 0).th := hpth.trans hoth
  have hsamples := sampleFrom_onlyThermal (s.channelsRead r) (r.temps.take 332) 0
  have hm : OnlyThermal s (s.channelsRead r) := rfl
  have htake {n : Nat} {e : Reading} (hn : n < 332) (he : r.temps[n]? = some e) : (r.temps.take 332)[n]? = some e := by
    rw [List.getElem?_take_of_lt hn, he]
  have hsensor (n : Nat) : (s.readings r).sensor n = ((s.channelsRead r).sampleFrom (r.temps.take 332) 0).sensor n := by
    rw [State.sensor, hth]
    rfl
  refine ⟨((hm.trans hsamples).trans horient).trans hpins, fun n hn => ?_, fun d => ?_, fun n e hn he => ?_, fun n hb => ?_,
    fun n e hn he hb hc => ?_⟩
  · rw [hth]
    exact sampleFrom_grows (s.channelsRead r) _ 0 n hn
  · rw [State.domain, hth]
    exact sampleFrom_domain (s.channelsRead r) _ 0 d
  · have h := sampleFrom_sensor (s.channelsRead r) (r.temps.take 332) 0 n (htake hn he)
    rw [Nat.zero_add] at h
    rw [hsensor, h]
    rfl
  · rw [hsensor]
    exact sampleFrom_broken (s.channelsRead r) _ 0 n hb
  · rw [hth]
    refine sampleFrom_status (s.channelsRead r) (r.temps.take 332) 0 n (htake hn he) ?_ hc
    rw [Nat.zero_add]
    exact hb

/-! ### Thermal domains (R454, R455) -/

/-- What a round makes of a domain. -/
def State.nextOf (s : State) (d : Nat) : ThermSt × Nat :=
  thermNext (s.domain d) (s.working' d) (s.brokenIn d) (s.thresholds d).1 (s.thresholds d).2 (8 * (s.th.hyst.toNat : Int))

theorem thermalRound_spec (s : State) (d : Nat) : KeepsSensors s (s.thermalRound d)
    ∧ (∀ e, e ≠ d → (s.thermalRound d).domain e = s.domain e) ∧ ((s.thermalRound d).domain d).st = (s.nextOf d).1
    ∧ ((s.thermalRound d).domain d).tstep = (s.nextOf d).2 ∧ ((s.thermalRound d).domain d).nbroken = min 2 (s.brokenIn d) := by
  unfold State.thermalRound State.nextOf
  extract_lets +onlyGivenNames o ts n w
  generalize thermNext o ts n w.1 w.2 (8 * (s.th.hyst.toNat : Int)) = x
  obtain ⟨st, k⟩ := x
  dsimp only
  generalize hv : ({ o with
    st := st
    tstep := k
    peak := if k = 0 then 0 else max o.peak k
    nbroken := min 2 n
    hot := BitVec.ofInt 12 (ts.foldl max (ts.headD 0)) } : Domain) = v
  have hset := KeepsSensors.of_setDomain s d v
  have hdom (e : Nat) : (s.setDomain d v).domain e = if e = d then v else s.domain e := domain_setDomain s d e v
  generalize s.setDomain d v = a at hset hdom ⊢
  have hwarn : KeepsSensors a (if st = .warn && o.st ≠ .warn then a.thermal 1 else a)
      ∧ (if st = .warn && o.st ≠ .warn then a.thermal 1 else a).th.domains = a.th.domains := by
    split
    · exact ⟨.of_thermal a 1, rfl⟩
    · exact ⟨.refl a, rfl⟩
  generalize (if st = .warn && o.st ≠ .warn then a.thermal 1 else a) = b at hwarn ⊢
  have hthr : KeepsSensors b (if st = .throttled && o.st ≠ .throttled then b.thermal 2 else b)
      ∧ (if st = .throttled && o.st ≠ .throttled then b.thermal 2 else b).th.domains = b.th.domains := by
    split
    · exact ⟨.of_thermal b 2, rfl⟩
    · exact ⟨.refl b, rfl⟩
  generalize (if st = .throttled && o.st ≠ .throttled then b.thermal 2 else b) = c at hthr ⊢
  generalize (((mkEvent 0x0C 1 0).atDomain d).withReason (k + 16 * b2n (decide (0 < n)))) = ev
  have hraise : KeepsSensors c (if o.peak < k || (k = 0 && o.tstep ≠ 0) then c.raise ev else c)
      ∧ (if o.peak < k || (k = 0 && o.tstep ≠ 0) then c.raise ev else c).th.domains = c.th.domains := by
    split
    · exact ⟨.of_records (raise_records c ev), by rw [(raise_records c ev).th_eq]⟩
    · exact ⟨.refl c, rfl⟩
  generalize (if o.peak < k || (k = 0 && o.tstep ≠ 0) then c.raise ev else c) = t at hraise ⊢
  have hall (e : Nat) : t.domain e = if e = d then v else s.domain e := by
    rw [State.domain, hraise.2, hthr.2, hwarn.2]
    exact hdom e
  refine ⟨((hset.trans hwarn.1).trans hthr.1).trans hraise.1, fun e he => by rw [hall, if_neg he], ?_, ?_, ?_⟩ <;>
    rw [hall, if_pos rfl, ← hv]

theorem thermalRound_other (s : State) {d e : Nat} (h : e ≠ d) : (s.thermalRound d).domain e = s.domain e := by
  obtain ⟨-, hother, -⟩ := thermalRound_spec s d
  exact hother e h

/-- After a round of the domains: each shows what its sensors and thresholds make of it. -/
theorem heated_spec (s : State) : KeepsSensors s s.heated
    ∧ ∀ d < 16, (s.heated.domain d).st = (s.nextOf d).1 ∧ (s.heated.domain d).tstep = (s.nextOf d).2
      ∧ (s.heated.domain d).nbroken = min 2 (s.brokenIn d) := by
  refine ⟨.foldl _ (fun s d => (thermalRound_spec s d).1) _ s, fun d hd => ?_⟩
  obtain ⟨u, hu, hdom, hlast⟩ := foldl_once (fun s d => s.domain d) State.thermalRound KeepsSensors .refl (fun _ _ _ => .trans)
    (fun s d => (thermalRound_spec s d).1) (fun s k m h => thermalRound_other s h) (List.range 16) List.nodup_range s d
    (List.mem_range.2 hd)
  obtain ⟨-, -, hst, hstep, hbroken⟩ := thermalRound_spec u d
  have hnext : u.nextOf d = s.nextOf d := by
    rw [State.nextOf, State.nextOf, hdom, hu.working_eq, hu.brokenIn_eq, hu.rest.thresholds_eq, hu.rest.hyst_eq]
  show ((s.heated.domain d).st = _) ∧ _
  rw [show s.heated.domain d = (u.thermalRound d).domain d from hlast, hst, hstep, hbroken, hnext, hu.brokenIn_eq]
  exact ⟨rfl, rfl, rfl⟩

/-! ### Stacks (R36, R232) -/

theorem stackRound_stack (s : State) (k m : Fin 12) (h : m ≠ k) : (s.stackRound k).stack m = s.stack m := by
  rw [State.stackRound]
  rw [State.updStack_eq, State.stack_setStack, if_neg h]

theorem stackRound_onlyStacks (s : State) (k : Fin 12) : OnlyStacks s (s.stackRound k) := rfl

theorem OnlyStacks.th_eq {s t : State} (h : OnlyStacks s t) : t.th = s.th := by rw [h.rest]
theorem OnlyStacks.pw_eq {s t : State} (h : OnlyStacks s t) : t.pw = s.pw := by rw [h.rest]

theorem stackRound_spec (s : State) (k : Fin 12) :
    ((s.stackRound k).stack k).limit = BitVec.ofNat 7 (min (s.stack k).slotCount ((s.pw.curS - 44400) / 1800))
      ∧ ((s.stackRound k).stack k).double
        = if 0 < s.brokenIn (4 + k.val) ∨ (s.working' (4 + k.val)).any (fun t => 680 ≤ t) = true then true
          else if s.brokenIn (4 + k.val) = 0 ∧ (s.working' (4 + k.val)).all (fun t => t < 664) = true then false
          else (s.stack k).double := by
  rw [State.stackRound]
  rw [State.updStack_eq, State.stack_setStack, if_pos rfl]
  refine ⟨rfl, ?_⟩
  dsimp only
  simp only [Bool.or_eq_true, decide_eq_true_eq, Bool.and_eq_true]

end Sys2Proof.Machine

namespace Sys2Proof.Machine

/-! ### The table of R454 -/

/-- A domain without broken sensors after a round (R454); the compute dies alone have a warning threshold. -/
theorem thermNext_table {o : Domain} {ts : List Int} {hot : Int → Prop} (hhot : ∀ x, (ts.any (fun t => x ≤ t)) = true ↔ hot x)
    (cmp : Prop) [Decidable cmp] (warn thr h : Int) :
    let u := thermNext o ts 0 (if cmp then some warn else none) thr h
    (o.st = .tripped → u.1 = .tripped ∧ u.2 = o.tstep)
      ∧ (o.st = .throttled → hot thr → u.1 = .throttled ∧ u.2 = min 9 (o.tstep + 1))
      ∧ (o.st = .throttled → ¬ hot thr → hot (thr - h) → u.1 = .throttled ∧ u.2 = o.tstep)
      ∧ (o.st = .throttled → ¬ hot (thr - h) → 1 < o.tstep → ¬ hot thr → u.1 = .throttled ∧ u.2 = o.tstep - 1)
      ∧ (o.st = .throttled → ¬ hot (thr - h) → o.tstep ≤ 1 → ¬ hot thr → u.2 = 0
          ∧ (cmp ∧ hot (warn - h) → u.1 = .warn) ∧ (¬ (cmp ∧ hot (warn - h)) → u.1 = .normal))
      ∧ (o.st = .normal ∨ o.st = .warn → hot thr → u.1 = .throttled ∧ u.2 = 1)
      ∧ (o.st = .normal → ¬ hot thr → u.2 = 0
          ∧ (cmp ∧ hot warn → u.1 = .warn) ∧ (¬ (cmp ∧ hot warn) → u.1 = .normal))
      ∧ (o.st = .warn → ¬ hot thr → u.2 = 0
          ∧ (cmp ∧ hot (warn - h) → u.1 = .warn) ∧ (¬ (cmp ∧ hot (warn - h)) → u.1 = .normal)) := by
  classical
  have hany (x : Int) : (ts.any (fun t => x ≤ t)) = decide (hot x) := by
    rw [Bool.eq_iff_iff, hhot, decide_eq_true_eq]
  have hwarm (x : Int) : (match (if cmp then some warn else none : Option Int) with
      | some w => ts.any (fun t => w - x ≤ t)
      | none => false) = decide (cmp ∧ hot (warn - x)) := by
    by_cases hc : cmp
    · rw [if_pos hc]
      exact (hany _).trans (by simp [hc])
    · simp [hc]
  unfold thermNext
  extract_lets +onlyGivenNames hotb warm u
  have hb (x : Int) : hotb x = decide (hot x) := hany x
  have hw (x : Int) : warm x = decide (cmp ∧ hot (warn - x)) := hwarm x
  clear_value hotb warm
  refine ⟨fun hst => ?_, fun hst h1 => ?_, fun hst h1 h2 => ?_, fun hst h1 h2 h3 => ?_, fun hst h1 h2 h3 => ?_, fun hst h1 => ?_,
    fun hst h1 => ?_, fun hst h1 => ?_⟩
  · simp [u, hst]
  · simp [u, hst, hb, h1]
  · simp [u, hst, hb, h1, h2]
  · simp [u, hst, hb, h1, h3, Nat.not_le.2 h2]
  · by_cases hc : cmp ∧ hot (warn - h) <;> simp [u, hst, hb, hw, h1, h2, h3, hc]
  · obtain hst | hst := hst <;> simp [u, hst, hb, h1]
  · by_cases hc : cmp ∧ hot warn <;> simp [u, hst, hb, hw, h1, hc]
  · by_cases hc : cmp ∧ hot (warn - h) <;> simp [u, hst, hb, hw, h1, hc]

/-- A domain with a broken sensor is throttled as far as it goes (R455). -/
theorem thermNext_broken {o : Domain} (ts : List Int) {n : Nat} (w : Option Int) (thr h : Int) (hn : 0 < n) (ho : o.st ≠ .tripped) :
    thermNext o ts n w thr h = (.throttled, 9) := by
  unfold thermNext
  cases hst : o.st with
  | tripped => exact absurd hst ho
  | _ => simp [hn]

/-! ### The end of a round -/

theorem powered_spec (s : State) : KeepsSensors { s with pw := s.pw.round } s.powered
    ∧ ∀ d, { s.powered.domain d with pstep := (s.domain d).pstep } = s.domain d := by
  refine ⟨.foldl _ powerRound_keepsSensors _ _, fun d => ?_⟩
  refine foldl_keeps (fun s t => { t.domain d with pstep := (s.domain d).pstep } = s.domain d) (fun _ => rfl)
    (fun s t u h g => ?_) State.powerRound (fun s p => powerRound_domain s p d) _ { s with pw := s.pw.round }
  rw [← h, ← g]

theorem thermNext_pstep {o v : Domain} (h : { v with pstep := o.pstep } = o) (ts : List Int) (n : Nat) (w : Option Int) (thr x : Int) :
    thermNext v ts n w thr x = thermNext o ts n w thr x := by
  rw [← h]
  rfl

theorem afterRound_stacks (s : State) (r : Round) : OnlyStacks (s.readings r).powered.heated (s.afterRound r) :=
  foldl_onlyStacks _ stackRound_onlyStacks _ _

/-- Sensors, allowances and domains after a round. -/
theorem afterRound_spec (s : State) (r : Round) : (∀ n, (s.afterRound r).sensor n = (s.readings r).sensor n)
    ∧ StatusGrows (s.readings r) (s.afterRound r) ∧ (s.afterRound r).pw = s.pw.round ∧ (s.afterRound r).hi = s.hi
    ∧ ∀ d < 16, ((s.afterRound r).domain d).st = (thermNext (s.domain d) ((s.readings r).working' d) ((s.readings r).brokenIn d)
          (s.thresholds d).1 (s.thresholds d).2 (8 * (s.th.hyst.toNat : Int))).1
        ∧ ((s.afterRound r).domain d).tstep = (thermNext (s.domain d) ((s.readings r).working' d) ((s.readings r).brokenIn d)
          (s.thresholds d).1 (s.thresholds d).2 (8 * (s.th.hyst.toNat : Int))).2
        ∧ ((s.afterRound r).domain d).nbroken = min 2 ((s.readings r).brokenIn d) := by
  obtain ⟨hread, -, hdom, -⟩ := readings_spec s r
  obtain ⟨hpower, hpdom⟩ := powered_spec (s.readings r)
  obtain ⟨hheat, hnext⟩ := heated_spec (s.readings r).powered
  have hstacks := afterRound_stacks s r
  generalize s.afterRound r = t at hstacks ⊢
  generalize s.readings r = a at *
  generalize a.powered = b at *
  generalize b.heated = c at *
  have hbsens (n : Nat) : b.sensor n = a.sensor n := hpower.sensor_eq n
  have hbworking (d : Nat) : b.working' d = a.working' d := hpower.working_eq d
  have hbbroken (d : Nat) : b.brokenIn d = a.brokenIn d := hpower.brokenIn_eq d
  have hath : (({ a with pw := a.pw.round } : State)).thresholds = a.thresholds := rfl
  have hpw : b.pw = a.pw.round := hpower.rest.pw_eq
  have hhi : b.hi = a.hi := hpower.rest.hi_eq
  have hhyst : b.th.hyst = a.th.hyst := hpower.rest.hyst_eq
  refine ⟨fun n => ?_, fun n hn => ?_, ?_, ?_, fun d hd => ?_⟩
  · rw [State.sensor, hstacks.th_eq]
    exact (hheat.sensor_eq n).trans (hbsens n)
  · rw [hstacks.th_eq]
    exact hheat.status n (hpower.status n hn)
  · rw [hstacks.pw_eq, hheat.rest.pw_eq, hpw, hread.pw_eq]
  · rw [hstacks.rest]
    exact hheat.rest.hi_eq.trans (hhi.trans hread.hi_eq)
  · obtain ⟨h1, h2, h3⟩ := hnext d hd
    have hb : b.nextOf d = thermNext (s.domain d) (a.working' d) (a.brokenIn d)
        (s.thresholds d).1 (s.thresholds d).2 (8 * (s.th.hyst.toNat : Int)) := by
      rw [State.nextOf, thermNext_pstep (hpdom d), hdom, hbworking, hbbroken, hpower.rest.thresholds_eq, hath, hread.thresholds_eq,
        hhyst, hread.hyst_eq]
    rw [State.domain, hstacks.th_eq]
    rw [← hb, ← hbbroken]
    exact ⟨h1, h2, h3⟩

/-- Stacks after a round. -/
theorem afterRound_stack (s : State) (r : Round) (k : Fin 12) :
    ((s.afterRound r).stack k).limit = BitVec.ofNat 7 (min (s.stack k).slotCount (((s.afterRound r).pw.curS - 44400) / 1800))
      ∧ ((s.afterRound r).stack k).double
        = if 0 < (s.readings r).brokenIn (4 + k.val) ∨ ((s.readings r).working' (4 + k.val)).any (fun t => 680 ≤ t) = true then true
          else if (s.readings r).brokenIn (4 + k.val) = 0 ∧ ((s.readings r).working' (4 + k.val)).all (fun t => t < 664) = true then false
          else (s.stack k).double := by
  obtain ⟨hread, -⟩ := readings_spec s r
  obtain ⟨hpower, -⟩ := powered_spec (s.readings r)
  obtain ⟨hheat, -⟩ := heated_spec (s.readings r).powered
  obtain ⟨u, hu, hstack, hlast⟩ := foldl_once (fun s k => s.stack k) State.stackRound OnlyStacks (fun _ => rfl) (fun _ _ _ => .trans)
    stackRound_onlyStacks stackRound_stack (List.finRange 12) (List.nodup_finRange 12) (s.readings r).powered.heated k
    (List.mem_finRange k)
  have hend := afterRound_stacks s r
  have hlast : (s.afterRound r).stack k = (u.stackRound k).stack k := hlast
  rw [hlast, hend.pw_eq, ← hu.pw_eq]
  generalize s.readings r = a at *
  have hbworking (d : Nat) : a.powered.working' d = a.working' d := hpower.working_eq d
  have hbbroken (d : Nat) : a.powered.brokenIn d = a.brokenIn d := hpower.brokenIn_eq d
  have hbstks : a.powered.stks = a.stks := hpower.rest.stks_eq
  generalize a.powered = b at *
  have hsens (n : Nat) : u.sensor n = b.sensor n := by
    rw [State.sensor, hu.th_eq]
    exact hheat.sensor_eq n
  have hworking (d : Nat) : u.working' d = a.working' d := by
    rw [← hbworking, State.working', State.working']
    simp only [hsens]
  have hbroken (d : Nat) : u.brokenIn d = a.brokenIn d := by
    rw [← hbbroken, State.brokenIn, State.brokenIn]
    simp only [hsens]
  have hk : u.stack k = s.stack k := by
    rw [show u.stack k = b.heated.stack k from hstack, State.stack, hheat.rest.stks_eq, hbstks, hread.stks_eq]
    rfl
  have h := stackRound_spec u k
  rwa [hworking, hbroken, hk] at h

/-! ### Sensors of a domain -/

theorem domainSensors_lt {d n : Nat} (hd : d < 16) (hn : n ∈ domainSensors d) : n < 332 := by
  unfold domainSensors at hn
  split at hn
  · obtain ⟨i, hi, rfl⟩ := List.mem_map.1 hn
    have := List.mem_range.1 hi
    omega
  · obtain ⟨i, hi, rfl⟩ := List.mem_map.1 hn
    have := List.mem_range.1 hi
    omega

theorem domainSensors_nodup (d : Nat) : (domainSensors d).Nodup := by
  unfold domainSensors
  split
  · exact List.Nodup.map (fun i j h => by simpa using h) List.nodup_range
  · exact List.Nodup.map (fun i j h => by simpa using h) List.nodup_range

/-- With one broken sensor, its domain has one, and no domain has two. -/
theorem brokenIn_single {u : State} {n : Nat} (h : ∀ m < 332, (u.sensor m).broken = true ↔ m = n) {d : Nat} (hd : d < 16) :
    u.brokenIn d ≤ 1 ∧ (n ∈ domainSensors d → u.brokenIn d = 1) := by
  have hcount : u.brokenIn d = (domainSensors d).count n := by
    rw [State.brokenIn, List.count_eq_length_filter]
    congr 1
    refine List.filter_congr fun m hm => ?_
    rw [Bool.eq_iff_iff, h m (domainSensors_lt hd hm), beq_iff_eq]
  rw [hcount]
  exact ⟨List.nodup_iff_count_le_one.1 (domainSensors_nodup d) n, List.count_eq_one_of_mem (domainSensors_nodup d)⟩

section
variable {s : State} {r : Round}

/-- After sound readings every sensor shows its own. -/
theorem readings_sound (h : soundRound s r) {n : Nat} {e : Reading} (he : r.temps[n]? = some e) :
    (s.readings r).sensor n = ⟨e.temp, false, 0⟩ := by
  obtain ⟨hlen, hgood, hwhole⟩ := h
  obtain ⟨-, -, -, hsensor, -⟩ := readings_spec s r
  have hn : n < 332 := by
    rw [← hlen]
    exact (List.getElem?_eq_some_iff.1 he).1
  rw [hsensor n e hn he, Sensor.sampled, hwhole, hgood e (List.mem_of_getElem? he)]
  rfl

theorem brokenIn_sound (h : soundRound s r) {d : Nat} (hd : d < 16) : (s.readings r).brokenIn d = 0 := by
  rw [State.brokenIn, List.length_eq_zero_iff, List.filter_eq_nil_iff]
  intro n hn
  have hlt : n < r.temps.length := by
    rw [h.1]
    exact domainSensors_lt hd hn
  rw [readings_sound h (List.getElem?_eq_getElem hlt)]
  exact Bool.false_ne_true

/-- A domain has a reading at or above a temperature. -/
theorem working_hot (h : soundRound s r) {d : Nat} (hd : d < 16) (x : Int) :
    (((s.readings r).working' d).any (fun t => x ≤ t)) = true ↔ roundHot r d x := by
  have hshow (n : Nat) (hn : n ∈ domainSensors d) : ∃ e, r.temps[n]? = some e ∧ (s.readings r).sensor n = ⟨e.temp, false, 0⟩ := by
    have hlt : n < r.temps.length := by
      rw [h.1]
      exact domainSensors_lt hd hn
    exact ⟨_, List.getElem?_eq_getElem hlt, readings_sound h (List.getElem?_eq_getElem hlt)⟩
  simp only [State.working', List.any_eq_true, List.mem_map, List.mem_filter, decide_eq_true_eq]
  constructor
  · rintro ⟨t, ⟨n, ⟨hn, -⟩, rfl⟩, hx⟩
    obtain ⟨e, he, hs⟩ := hshow n hn
    rw [hs] at hx
    exact ⟨n, hn, e, he, hx⟩
  · rintro ⟨n, hn, e, he, hx⟩
    have hs := readings_sound h he
    exact ⟨_, ⟨n, ⟨hn, by rw [hs]; rfl⟩, rfl⟩, by rw [hs]; exact hx⟩

theorem working_cool (h : soundRound s r) {d : Nat} (hd : d < 16) (x : Int) :
    (((s.readings r).working' d).all (fun t => t < x)) = true ↔ ¬ roundHot r d x := by
  rw [← working_hot h hd]
  simp

end

end Sys2Proof.Machine

namespace Sys2Proof.Machine

/-! ### The clauses of the round -/

theorem roundHot_mono {r : Round} {d : Nat} {x y : Int} (hxy : y ≤ x) (h : roundHot r d x) : roundHot r d y := by
  obtain ⟨n, hn, e, he, hx⟩ := h
  exact ⟨n, hn, e, he, hxy.trans hx⟩

/-- Where no domain has two broken sensors, the package does not trip. -/
theorem exec_round_untripped {s : State} {r : Round} (h : ∀ d < 16, (s.readings r).brokenIn d ≤ 1) :
    exec (.housekeepingRound r) s = .next (s.afterRound r) := by
  have hsame : ∀ d, (s.afterRound r).brokenIn d = (s.readings r).brokenIn d := fun d => by
    simp only [State.brokenIn, (afterRound_spec s r).1]
  have hnone : (List.range 16).find? (fun d => 2 ≤ (s.afterRound r).brokenIn d) = none := by
    rw [List.find?_eq_none]
    intro d hd
    rw [hsame, decide_eq_true_eq]
    have := h d (List.mem_range.1 hd)
    omega
  rw [exec_housekeepingRound, hnone]

/-- The allowances after a round (R38). -/
theorem round_phase (p : Power) : (p.phase = 0 → p.round = p)
    ∧ (p.phase = 1 → p.round.curC = min p.curC p.target.1 ∧ p.round.curS = min p.curS p.target.2 ∧ p.round.phase = 2)
    ∧ (p.phase = 2 → p.round.curC = p.target.1 ∧ p.round.curS = p.target.2 ∧ p.round.phase = 0) := by
  refine ⟨fun h => ?_, fun h => ?_, fun h => ?_⟩ <;> simp [Power.round, h]

theorem thresholds_eq (s : State) (d : Nat) : s.thresholds d
    = ((if d < 4 then some (8 * (s.th.cmpWarn.toNat : Int)) else none),
      8 * ((if d < 4 then s.th.cmpThrottle.toNat else s.th.dramThrottle.toNat : Nat) : Int)) := by
  rw [State.thresholds]
  split <;> rfl

/-- Each domain follows the table of R454. -/
theorem round_domain {s : State} {r : Round} (h : soundRound s r) {d : Nat} (hd : d < 16) :
    let o := s.domain d
    let u := (s.afterRound r).domain d
    let thr : Int := 8 * (if d < 4 then s.th.cmpThrottle.toNat else s.th.dramThrottle.toNat)
    let warn : Int := 8 * s.th.cmpWarn.toNat
    let h : Int := 8 * s.th.hyst.toNat
    let hot := roundHot r d
    (o.st = .tripped → u.st = .tripped ∧ u.tstep = o.tstep)
      ∧ (o.st = .throttled → hot thr → u.st = .throttled ∧ u.tstep = min 9 (o.tstep + 1))
      ∧ (o.st = .throttled → ¬ hot thr → hot (thr - h) → u.st = .throttled ∧ u.tstep = o.tstep)
      ∧ (o.st = .throttled → ¬ hot (thr - h) → 1 < o.tstep → u.st = .throttled ∧ u.tstep = o.tstep - 1)
      ∧ (o.st = .throttled → ¬ hot (thr - h) → o.tstep ≤ 1 → u.tstep = 0
          ∧ (d < 4 ∧ hot (warn - h) → u.st = .warn) ∧ (¬ (d < 4 ∧ hot (warn - h)) → u.st = .normal))
      ∧ (o.st = .normal ∨ o.st = .warn → hot thr → u.st = .throttled ∧ u.tstep = 1)
      ∧ (o.st = .normal → ¬ hot thr → u.tstep = 0
          ∧ (d < 4 ∧ hot warn → u.st = .warn) ∧ (¬ (d < 4 ∧ hot warn) → u.st = .normal))
      ∧ (o.st = .warn → ¬ hot thr → u.tstep = 0
          ∧ (d < 4 ∧ hot (warn - h) → u.st = .warn) ∧ (¬ (d < 4 ∧ hot (warn - h)) → u.st = .normal)) := by
  obtain ⟨-, -, -, -, hdomains⟩ := afterRound_spec s r
  obtain ⟨hst, hstep, -⟩ := hdomains d hd
  rw [brokenIn_sound h hd, thresholds_eq] at hst hstep
  have htable := thermNext_table (o := s.domain d) (working_hot h hd) (d < 4) (8 * (s.th.cmpWarn.toNat : Int))
    (8 * ((if d < 4 then s.th.cmpThrottle.toNat else s.th.dramThrottle.toNat : Nat) : Int)) (8 * (s.th.hyst.toNat : Int))
  dsimp only at htable hst hstep ⊢
  rw [← hst, ← hstep] at htable
  obtain ⟨h1, h2, h3, h4, h5, h6, h7, h8⟩ := htable
  have hcool : ¬ roundHot r d (8 * ((if d < 4 then s.th.cmpThrottle.toNat else s.th.dramThrottle.toNat : Nat) : Int) - 8 * (s.th.hyst.toNat : Int))
      → ¬ roundHot r d (8 * ((if d < 4 then s.th.cmpThrottle.toNat else s.th.dramThrottle.toNat : Nat) : Int)) :=
    fun hlow hhigh => hlow (roundHot_mono (by omega) hhigh)
  exact ⟨h1, h2, h3, fun ho hlow hk => h4 ho hlow hk (hcool hlow), fun ho hlow hk => h5 ho hlow hk (hcool hlow), h6, h7, h8⟩

/-- Each stack's limit and refresh interval follow (R36, R232). -/
theorem round_stack {s : State} {r : Round} (h : soundRound s r) (k : Fin 12) :
    ((s.afterRound r).stack k).limit = BitVec.ofNat 7 (min (s.stack k).slotCount (((s.afterRound r).pw.curS - 44400) / 1800))
      ∧ (roundHot r (4 + k.val) 680 → ((s.afterRound r).stack k).double = true)
      ∧ (¬ roundHot r (4 + k.val) 664 → ((s.afterRound r).stack k).double = false)
      ∧ (¬ roundHot r (4 + k.val) 680 → roundHot r (4 + k.val) 664 → ((s.afterRound r).stack k).double = (s.stack k).double) := by
  obtain ⟨hlimit, hdouble⟩ := afterRound_stack s r k
  have hk : 4 + k.val < 16 := by omega
  rw [brokenIn_sound h hk] at hdouble
  have hhot := working_hot h hk 680
  have hcool := working_cool h hk 664
  have hlow (h680 : ¬ roundHot r (4 + k.val) 680) :
      ¬ (0 < 0 ∨ (((s.readings r).working' (4 + k.val)).any (fun t => 680 ≤ t)) = true) := fun h =>
    h.elim (Nat.lt_irrefl 0) (fun h => h680 (hhot.1 h))
  refine ⟨hlimit, fun h680 => ?_, fun h664 => ?_, fun h680 h664 => ?_⟩
  · rw [hdouble, if_pos (.inr (hhot.2 h680))]
  · have h680 : ¬ roundHot r (4 + k.val) 680 := fun h680 => h664 (roundHot_mono (by decide) h680)
    rw [hdouble, if_neg (hlow h680), if_pos ⟨rfl, hcool.2 h664⟩]
  · rw [hdouble, if_neg (hlow h680), if_neg (fun h => hcool.1 h.2 h664)]

theorem trip_sensor (s : State) (d n : Nat) (broken supply : Bool) (m : Nat) : (s.trip d n broken supply).sensor m = s.sensor m := by
  unfold State.trip
  split
  · rfl
  · extract_lets +onlyGivenNames ev a th v b o c
    have ha : a.th.temps = s.th.temps := by
      rw [(raise_records ({ s with cxlOut := [] } : State) (if supply then ev else ev.atDomain d)).th_eq]
    have hb : b.th.temps = s.th.temps := ha
    have hc : c.th.temps = b.th.temps := by
      show (if supply then b else b.setDomain d { b.domain d with st := .tripped }).th.temps = b.th.temps
      split <;> rfl
    show c.th.temps.get Sensor.reset m = s.th.temps.get Sensor.reset m
    rw [hc, hb]

/-- A broken sensor stays broken, whether the package trips or not. -/
theorem round_broken {s : State} (r : Round) {n : Nat} (hn : (s.sensor n).broken = true) :
    ∃ t, exec (.housekeepingRound r) s = .next t ∧ (t.sensor n).broken = true ∧ (t.sensor n).cause = (s.sensor n).cause := by
  obtain ⟨-, -, -, -, hbroken, -⟩ := readings_spec s r
  obtain ⟨hsensor, -⟩ := afterRound_spec s r
  have hkept := hbroken n hn
  rw [← hsensor] at hkept
  rw [exec_housekeepingRound]
  generalize s.afterRound r = u at hkept ⊢
  cases (List.range 16).find? (fun d => 2 ≤ u.brokenIn d) with
  | none => exact ⟨u, rfl, hkept⟩
  | some d => exact ⟨_, rfl, by rw [trip_sensor]; exact hkept⟩

/-- The first broken sensor of a domain throttles it (R455). -/
theorem round_breaks {s : State} {r : Round} {d n : Nat} (hd : d < 16) (hn : n ∈ domainSensors d) (hst : (s.domain d).st ≠ .tripped)
    (hwhole : ∀ m, (s.sensor m).broken = false) (hlen : r.temps.length = 332)
    (hone : ∀ m e, r.temps[m]? = some e → (Reading.cause e ≠ 0 ↔ m = n)) :
    ∃ t, exec (.housekeepingRound r) s = .next t ∧ (t.domain d).st = .throttled ∧ (t.domain d).tstep = 9
      ∧ (t.domain d).nbroken = 1 ∧ t.th.status.getLsbD 2 = true ∧ t.hi.st = s.hi.st := by
  obtain ⟨-, -, -, hsensor, -, hstatus⟩ := readings_spec s r
  obtain ⟨-, hgrows, -, hhi, hdomains⟩ := afterRound_spec s r
  have hread {m : Nat} (hm : m < 332) : r.temps[m]? = some (r.temps[m]'(hlen ▸ hm)) := List.getElem?_eq_getElem _
  have hbroken : ∀ m < 332, ((s.readings r).sensor m).broken = true ↔ m = n := fun m hm => by
    rw [hsensor m _ hm (hread hm), Sensor.sampled, hwhole, ← hone m _ (hread hm)]
    exact decide_eq_true_iff
  have hlt : n < 332 := domainSensors_lt hd hn
  obtain ⟨h1, h2, h3⟩ := hdomains d hd
  rw [(brokenIn_single hbroken hd).2 hn] at h1 h2 h3
  rw [thermNext_broken _ _ _ _ Nat.one_pos hst] at h1 h2
  refine ⟨_, exec_round_untripped fun e he => (brokenIn_single hbroken he).1, h1, h2, h3, hgrows 2 ?_, by rw [hhi]⟩
  exact hstatus n _ hlt (hread hlt) (hwhole n) ((hone n _ (hread hlt)).2 rfl)

end Sys2Proof.Machine

section
open Sys2Proof Sys2Proof.Machine

/-- Settles O20: a round samples every sensor once, and steps every domain and stack once, from what it has read. -/
theorem housekeepingRound : Obligations.HousekeepingRound := by
  unfold Obligations.HousekeepingRound
  refine ⟨fun s r h => ?_, fun s r n hn => round_broken r hn, fun s r d n hd hn hst hwhole hlen hone =>
    round_breaks hd hn hst hwhole hlen hone⟩
  obtain ⟨hsensor, -, hpw, -⟩ := afterRound_spec s r
  obtain ⟨h0, h1, h2⟩ := round_phase s.pw
  refine ⟨s.afterRound r, exec_round_untripped fun d hd => (brokenIn_sound h hd).le.trans Nat.one_pos.le, ?_, ?_, ?_,
    fun n e he => (hsensor n).trans (readings_sound h he), fun d hd => round_domain h hd, round_stack h⟩
  · rw [hpw]
    exact h0
  · rw [hpw]
    exact h1
  · rw [hpw]
    exact h2

end

namespace Sys2Proof.Machine

/-- A loop each of whose turns gives the keys that it hits a value of their own. -/
theorem foldl_sets {κ V α : Type} (get : State → κ → V) (f : State → α → State) (hits : α → κ → Prop)
    [∀ a k, Decidable (hits a k)] (v : κ → V) (hf : ∀ s a k, get (f s a) k = if hits a k then v k else get s k) (l : List α)
    (s : State) (k : κ) : ((∃ a ∈ l, hits a k) → get (l.foldl f s) k = v k)
      ∧ ((∀ a ∈ l, ¬ hits a k) → get (l.foldl f s) k = get s k) := by
  induction l generalizing s with
  | nil => exact ⟨fun h => by simp at h, fun _ => rfl⟩
  | cons a l ih =>
    rw [List.foldl_cons]
    obtain ⟨ih1, ih2⟩ := ih (f s a)
    refine ⟨fun h => ?_, fun h => ?_⟩
    · by_cases hl : ∃ b ∈ l, hits b k
      · exact ih1 hl
      · have hno : ∀ b ∈ l, ¬ hits b k := fun b hb hbk => hl ⟨b, hb, hbk⟩
        obtain ⟨b, hb, hbk⟩ := h
        have hba : b = a := (List.mem_cons.1 hb).resolve_right fun hb => hno b hb hbk
        rw [ih2 hno, hf, if_pos (hba ▸ hbk)]
    · rw [ih2 fun b hb => h b (List.mem_cons_of_mem a hb), hf, if_neg (h a List.mem_cons_self)]

/-! ### POWER_UP, MEM_INIT and TEST (R416, R427 to R429) -/

/-- The start is in a phase. -/
def State.inPhase (s : State) (p : Phase) : State := { s with hk := { s.hk with phase := p } }

theorem inPhase_core (s : State) (p : Phase) (c : CoreId) : (s.inPhase p).core c = s.core c := State.core_of_cores s (s.inPhase p) rfl c

theorem inPhase_phase (s : State) (p : Phase) : (s.inPhase p).hk.phase = p := rfl

theorem exec_powerUp {s : State} (hp : s.hk.phase = .powerUp) (hg : s.hk.pg = 63) :
    exec .powerUp s = .next (s.inPhase .memInit) := by
  show execPowerUp s = _
  rw [execPowerUp, hp, hg]
  rfl

theorem exec_memInit {s : State} (hp : s.hk.phase = .memInit) : exec .memInit s = .next (s.inPhase .test) := by
  show execMemInit s = _
  rw [execMemInit, if_pos hp, State.inPhase]

/-- A phase that is set and set back. -/
theorem phase_restored {s : State} {p : Phase} (h : s.hk.phase = p) (q : Phase) :
    { s.inPhase q with hk := { (s.inPhase q).hk with phase := p } } = s := by
  rw [← h]
  rfl

theorem failStart_spec (s : State) : startFailed s.failStart ∧ s.failStart.cad.runtime = s.cad.runtime ++ s.cad.tested :=
  ⟨⟨rfl, rfl, rfl⟩, rfl⟩

theorem testDone_spec {s : State} (hp : s.hk.phase = .test) (r : TestResult) : ∃ t, exec (.testDone r) s = .next t
    ∧ (let found := s.cad.tested ++ r.found.map (fun e => { e with origin := 0 })
      let fails := r.badBases ≠ 0 ∨ r.uncovered = true ∨ r.tsvOver = true ∨ r.sramOver = true
      (fails → startFailed t ∧ t.cad.runtime = s.cad.runtime ++ found)
      ∧ (¬ fails → t.hk.phase = .cadastre ∧ t.cad.tested = found ∧ t.cad.runtime = s.cad.runtime)) := by
  show ∃ t, execTestDone r s = .next t ∧ _
  unfold execTestDone
  rw [if_neg (not_not.2 hp)]
  dsimp only
  have hiff : (decide (r.badBases ≠ 0) || r.uncovered || r.tsvOver || r.sramOver) = true
      ↔ r.badBases ≠ 0 ∨ r.uncovered = true ∨ r.tsvOver = true ∨ r.sramOver = true := by
    simp [or_assoc]
  split
  · next h =>
    obtain ⟨hfail, hrun⟩ := failStart_spec { s with
      cad := { s.cad with tested := s.cad.tested ++ r.found.map (fun (e : CadEntry) => { e with origin := 0 }) }
      hk := { s.hk with
        slice := match s.prior s.hk.cold with
          | some p => p.2.nextSlice
          | none => 0
        badBases := r.badBases } }
    exact ⟨_, rfl, fun _ => ⟨hfail, hrun⟩, fun hn => absurd (hiff.1 h) hn⟩
  · next h => exact ⟨_, rfl, fun hf => absurd (hiff.2 hf) h, fun _ => ⟨rfl, rfl, rfl⟩⟩

/-! ### CADASTRE (R429, R433, R434) -/

/-- A write of a flash copy leaves the list and the phase. -/
theorem writeFlash_kept (s : State) (old : Option Nat) (l : CadList) (present ok : Bool) :
    { (s.writeFlash old l present ok) with cad := s.cad, hk := s.hk } = s := rfl

/-- The merged list of a start (R433 steps 2 and 3). -/
def State.mergedList (s : State) (base : CadList) : List CadEntry :=
  cadCompact s.freeCtr (base.startCount + 1) (cadMerge base.entries
    (s.cad.runtime ++ s.cad.tested.map (fun (e : CadEntry) => { e with startNo := base.startCount + 1 })))

theorem mergedList_nothing {s : State} {base : CadList} (hb : base.entries = []) (hr : s.cad.runtime = []) (ht : s.cad.tested = []) :
    s.mergedList base = [] := by
  rw [State.mergedList, hb, hr, ht]
  rfl

theorem cadastrePhase_spec {s : State} (hp : s.hk.phase = .cadastre) (w : FlashWrite) {base : CadList}
    (hbase : (match s.prior s.hk.cold with | some p => p.2 | none => CadList.empty) = base) :
    ∃ t, exec (.cadastrePhase w) s = .next t
      ∧ (if 4092 < (s.mergedList base).length ∨ tsvShort (s.mergedList base) = true then startFailed t
        else t.hk.phase = .apply ∧ t.cad.runtime = [] ∧ t.cad.kept = some t.cad.list
          ∧ t.cad.list = ⟨base.seq + 1, base.startCount + 1, base.nextSlice + 1, s.ident, s.mergedList base⟩) := by
  have hexec : exec (.cadastrePhase w) s = execCadastrePhase w s := rfl
  rw [hexec]
  unfold execCadastrePhase
  rw [if_neg (not_not.2 hp)]
  extract_lets +onlyGivenNames pr b starts tested all l foreign u hk v
  have hb : b = base := hbase
  have hall : all = s.mergedList base := by rw [← hb]; rfl
  have hl : l = ⟨base.seq + 1, base.startCount + 1, base.nextSlice + 1, s.ident, s.mergedList base⟩ := by
    rw [← hall, ← hb]
  clear_value v l all
  subst hall hl
  by_cases h : 4092 < (s.mergedList base).length ∨ tsvShort (s.mergedList base) = true
  · rw [if_pos (by simpa using h)]
    exact ⟨_, rfl, by rw [if_pos h]; exact (failStart_spec v).1⟩
  · rw [if_neg (by simpa using h)]
    exact ⟨_, rfl, by rw [if_neg h]; exact ⟨rfl, rfl, rfl, rfl⟩⟩

theorem tsvShort_nil : tsvShort [] = false := rfl

/-! ### APPLY (R433 step 5) -/

/-- The list retires a core. -/
def retires (es : List CadEntry) (c : CoreId) : Bool :=
  es.any (fun e => e.kind = 1 && e.a 0 = c.p.val && e.a 1 = c.c.val && e.a 2 = c.k.val)

theorem retires_iff (es : List CadEntry) (c : CoreId) :
    retires es c = true ↔ ∃ e ∈ es, e.kind = 1 ∧ e.a 0 = c.p.val ∧ e.a 1 = c.c.val ∧ e.a 2 = c.k.val := by
  simp [retires, and_assoc]

/-- The cores of a cluster show what the list says of them. -/
theorem applyCluster_retired (s : State) (es : List CadEntry) (cl : ClusterId) (c : CoreId) :
    ((s.applyCluster es cl).core c).retired = if c ∈ coresOf cl then retires es c else (s.core c).retired := by
  unfold State.applyCluster
  extract_lets +onlyGivenNames off u dead good
  have hu : u.core c = s.core c := State.core_of_cores s u rfl c
  clear_value u off good
  obtain ⟨h1, h2⟩ := foldl_sets (fun s c => (s.core c).retired) (fun s c => s.updCore c (fun x => { x with
    retired := dead c, spare := good.idxOf c = 8 && !dead c && !off })) (fun d c => c = d) dead
    (fun s d c => by
      rw [State.updCore_eq, State.core_setCore]
      split
      · next h => rw [h]
      · rfl) (coresOf cl) u c
  split
  · next h => exact h1 ⟨c, h, rfl⟩
  · next h =>
    rw [← hu]
    exact h2 fun d hd hcd => h (hcd ▸ hd)

theorem mem_coresOf_self (c : CoreId) : c ∈ coresOf ⟨c.p, c.c⟩ := List.mem_map.2 ⟨c.k, List.mem_finRange _, rfl⟩

theorem mem_clusters (cl : ClusterId) : cl ∈ (List.finRange 4).flatMap clustersOf :=
  List.mem_flatMap.2 ⟨cl.p, List.mem_finRange _, List.mem_map.2 ⟨cl.c, List.mem_finRange _, rfl⟩⟩

theorem applyLanes_onlyLinks (s : State) (es : List CadEntry) : OnlyLinks s (s.applyLanes es) := by
  refine foldl_onlyLinks _ ?_ _ s
  intro s l
  exact updLink_onlyLinks s l _

/-- What a list says of the clusters and cores is applied. -/
def State.applyClusters (s : State) (es : List CadEntry) : State :=
  ((List.finRange 4).flatMap clustersOf).foldl (fun s cl => s.applyCluster es cl) s

theorem applyClusters_retired (s : State) (es : List CadEntry) (c : CoreId) :
    ((s.applyClusters es).core c).retired = retires es c :=
  (foldl_sets (fun s c => (s.core c).retired) (fun s cl => s.applyCluster es cl) (fun cl c => c ∈ coresOf cl)
    (retires es) (fun s cl c => applyCluster_retired s es cl c) ((List.finRange 4).flatMap clustersOf) s c).1
    ⟨⟨c.p, c.c⟩, mem_clusters _, mem_coresOf_self c⟩

theorem applyList_cores (s : State) (es : List CadEntry) :
    (s.applyList es).cores = (((s.applyStacks es).applyClusters es).applyLanes es).cores := by
  unfold State.applyList State.applyClusters
  generalize ((List.finRange 4).flatMap clustersOf).foldl (fun s cl => s.applyCluster es cl) (s.applyStacks es) = u
  dsimp only

theorem applyList_retired (s : State) (es : List CadEntry) (c : CoreId) : ((s.applyList es).core c).retired = retires es c := by
  have hcores := applyList_cores s es
  have hret := applyClusters_retired (s.applyStacks es) es c
  generalize (s.applyStacks es).applyClusters es = u at hcores hret
  have hlanes := applyLanes_onlyLinks u es
  generalize u.applyLanes es = v at hcores hlanes
  have hv : v.cores = u.cores := by rw [hlanes.rest]
  rw [← hret, State.core_of_cores u _ (hcores.trans hv) c]

theorem exec_applyCad {s : State} (hp : s.hk.phase = .apply) :
    exec .applyCad s = .next ((s.applyList s.cad.list.entries).inPhase .configure) := by
  show execApplyCad s = _
  rw [execApplyCad, if_neg (not_not.2 hp), State.inPhase]

end Sys2Proof.Machine

namespace Sys2Proof.Machine

/-! ### CONFIGURE (R40, R312, R313, R419, R425) -/

/-- The image's values of the device, with every memory at 0. -/
def State.imageDevice (s : State) (v : ImageValues) : State :=
  let t := powerSplit v.share.toNat v.budget.toNat v.spill
  ({ s with
    mem := []
    memErr := []
    pw := { Power.reset with
      role := v.role, spill := v.spill, shareC := v.share, budget := v.budget, curC := t.1, curS := t.2 }
    rowsDev := v.rowsDev
    devId := v.devId
    fwVer := BitVec.ofNat 32 (lf s.img.bytes 12 4)
    inc := Config.incarnation s.freeCtr
    repairImg := v.repairMs
    th := { s.th with cmpWarn := v.cmpWarn, cmpThrottle := v.cmpThrottle, dramThrottle := v.dramThrottle, hyst := v.hyst }
    spareGuard := (List.range 8).foldl (fun t n => t.set none n ((v.guarded.getD n none).map (fun l => l.val))) []
    hk := { s.hk with injection := v.injection } } : State).draw 1

/-- The image's values of the partitions. -/
def State.imageParts (s : State) (v : ImageValues) : State := (List.finRange 4).foldl (fun s p => s.imagePart v p) s

/-- The image's values of the links. -/
def State.imageLinks (s : State) (v : ImageValues) : State := (List.finRange 48).foldl (fun s l => s.imageLink v l) s

/-- The last step of a start: what is in force is measured, and the device is READY. -/
def State.started (s : State) : State :=
  let u := s.extend 5 (leBytes 4 s.hk.startReg ++ s.infoBlock 0)
  { u with
    hi := { u.hi with st := .ready }
    hk := { u.hk with phase := .ready, startTime := BitVec.ofNat 32 (u.hkCount - u.hk.startHk).toNat } }

/-- The start's last step changes the trust block, the phase and the status. -/
theorem started_spec (s : State) : s.started.hk.phase = .ready ∧ s.started.hi.st = .ready
    ∧ { s.started with ta := s.ta, hi := s.hi, hk := s.hk } = s := by
  unfold State.started State.extend
  generalize leBytes 4 s.hk.startReg ++ s.infoBlock 0 = d
  exact ⟨rfl, rfl, rfl⟩

theorem exec_configure {s : State} (hp : s.hk.phase = .configure) (v : ImageValues) :
    exec (.configure v) s = .next (((s.imageDevice v).imageParts v).imageLinks v).started := by
  have hexec : exec (.configure v) s = execConfigure v s := rfl
  have hparts (u : State) : (List.finRange 4).foldl (fun s p => s.imagePart v p) u = u.imageParts v := rfl
  have hlinks (u : State) : (List.finRange 48).foldl (fun s l => s.imageLink v l) u = u.imageLinks v := rfl
  rw [hexec]
  unfold execConfigure
  rw [if_neg (not_not.2 hp)]
  extract_lets +onlyGivenNames t pw th hk a b c d
  have hb : b = s.imageDevice v := rfl
  clear_value b
  have hc : c = (s.imageDevice v).imageParts v := by rw [← hparts, ← hb]
  clear_value c
  have hd : d = ((s.imageDevice v).imageParts v).imageLinks v := by rw [← hlinks, ← hc]
  clear_value d
  rw [← hd]
  rfl

theorem imageParts_onlyParts (s : State) (v : ImageValues) : OnlyParts s (s.imageParts v) := by
  refine foldl_keeps OnlyParts (fun _ => rfl) (fun _ _ _ => .trans) _ ?_ _ s
  intro s p
  unfold State.imagePart
  exact updPart_onlyParts s p _

theorem imageParts_part (s : State) (v : ImageValues) (p : Fin 4) :
    ((s.imageParts v).part p).rowsPart = v.rowsPart.getD p.val 0 ∧ ((s.imageParts v).part p).repairMs = v.repairMs := by
  have h : (((s.imageParts v).part p).rowsPart, ((s.imageParts v).part p).repairMs) = (v.rowsPart.getD p.val 0, v.repairMs) :=
    (foldl_sets (fun s p => ((s.part p).rowsPart, (s.part p).repairMs)) (fun s p => s.imagePart v p) (fun o p => p = o)
    (fun p => (v.rowsPart.getD p.val 0, v.repairMs))
    (fun s o p => by
      rw [State.imagePart, State.updPart_eq, State.part_setPart]
      split
      · next h => rw [h]
      · rfl) (List.finRange 4) s p).1 ⟨p, List.mem_finRange p, rfl⟩
  exact Prod.mk.inj h

theorem imageLink_onlyLinks (s : State) (v : ImageValues) (l : Fin 48) : OnlyLinks s (s.imageLink v l) := by
  unfold State.imageLink
  extract_lets +onlyGivenNames x g ok
  exact updLink_onlyLinks s l _

theorem imageLinks_onlyLinks (s : State) (v : ImageValues) : OnlyLinks s (s.imageLinks v) := by
  refine foldl_onlyLinks _ ?_ _ s
  intro s l
  exact imageLink_onlyLinks s v l

theorem imageLinks_link (s : State) (v : ImageValues) (l : Fin 48) :
    ((s.imageLinks v).link l).enable = v.linkEnable.getD l.val false
      ∧ ((s.imageLinks v).link l).st = (if v.linkEnable.getD l.val false then LinkSt.detect else LinkSt.disabled) := by
  have h : (((s.imageLinks v).link l).enable, ((s.imageLinks v).link l).st)
      = (v.linkEnable.getD l.val false, if v.linkEnable.getD l.val false then LinkSt.detect else LinkSt.disabled) :=
    (foldl_sets (fun s l => ((s.link l).enable, (s.link l).st)) (fun s l => s.imageLink v l) (fun o l => l = o)
    (fun l => (v.linkEnable.getD l.val false, if v.linkEnable.getD l.val false then LinkSt.detect else LinkSt.disabled))
    (fun s o l => by
      unfold State.imageLink
      extract_lets +onlyGivenNames x g ok
      rw [State.updLink_eq, State.link_setLink]
      split
      · next h => rw [h]
      · rfl) (List.finRange 48) s l).1 ⟨l, List.mem_finRange l, rfl⟩
  exact Prod.mk.inj h

/-- The power settings that the image gives: its split, in force at once. -/
def imagePower (v : ImageValues) : Power :=
  let t := powerSplit v.share.toNat v.budget.toNat v.spill
  { Power.reset with role := v.role, spill := v.spill, shareC := v.share, budget := v.budget, curC := t.1, curS := t.2 }

theorem power_target (v : ImageValues) : ((imagePower v).curC, (imagePower v).curS) = (imagePower v).target := by
  unfold imagePower Power.target
  generalize powerSplit v.share.toNat v.budget.toNat v.spill = t
  rfl

/-- The image's values of the device are in force, and memory reads 0. -/
theorem imageDevice_spec (s : State) (v : ImageValues) : (s.imageDevice v).mem = []
    ∧ (s.imageDevice v).pw = (imagePower v) ∧ (s.imageDevice v).devId = v.devId
    ∧ (s.imageDevice v).rowsDev = v.rowsDev ∧ (s.imageDevice v).fwVer.toNat = lf s.img.bytes 12 4 := by
  refine ⟨rfl, rfl, rfl, rfl, ?_⟩
  show (BitVec.ofNat 32 (lf s.img.bytes 12 4)).toNat = _
  rw [BitVec.toNat_ofNat, Nat.mod_eq_of_lt]
  calc lf s.img.bytes 12 4 < 256 ^ ((s.img.bytes.drop 12).take 4).length := leNat_lt _
    _ ≤ 256 ^ 4 := Nat.pow_le_pow_right (by decide) (by simp)
    _ = 2 ^ 32 := by decide

theorem applyCad_spec {s : State} (hp : s.hk.phase = .apply) : ∃ t, exec .applyCad s = .next t ∧ t.hk.phase = .configure
    ∧ ∀ c, ((t.core c).retired = true ↔ ∃ e ∈ s.cad.list.entries, e.kind = 1 ∧ e.a 0 = c.p.val ∧ e.a 1 = c.c.val ∧ e.a 2 = c.k.val) := by
  have hret := applyList_retired s s.cad.list.entries
  rw [exec_applyCad hp]
  generalize s.applyList s.cad.list.entries = u at hret ⊢
  refine ⟨_, rfl, inPhase_phase u .configure, fun c => ?_⟩
  rw [inPhase_core, hret, retires_iff]

theorem configure_spec {s : State} (hp : s.hk.phase = .configure) (v : ImageValues) :
    ∃ t, exec (.configure v) s = .next t ∧ t.hk.phase = .ready
      ∧ t.hi.st = .ready ∧ (∀ n, t.mem.get 0 n = 0) ∧ t.pw.role = v.role ∧ t.pw.budget = v.budget ∧ t.pw.shareC = v.share
      ∧ t.pw.spill = v.spill ∧ t.pw.override = false ∧ t.pw.phase = 0 ∧ (t.pw.curC, t.pw.curS) = t.pw.target ∧ t.devId = v.devId
      ∧ t.rowsDev = v.rowsDev ∧ t.fwVer.toNat = lf s.img.bytes 12 4
      ∧ (∀ p : Fin 4, (t.part p).rowsPart = v.rowsPart.getD p.val 0 ∧ (t.part p).repairMs = v.repairMs)
      ∧ (∀ l : Fin 48, (t.link l).enable = v.linkEnable.getD l.val false
          ∧ (t.link l).st = (if v.linkEnable.getD l.val false then LinkSt.detect else LinkSt.disabled)) := by
  have hdev := imageDevice_spec s v
  have hpart := imageParts_part (s.imageDevice v) v
  have hlink := imageLinks_link ((s.imageDevice v).imageParts v) v
  have h1 := imageParts_onlyParts (s.imageDevice v) v
  have h2 := imageLinks_onlyLinks ((s.imageDevice v).imageParts v) v
  have h3 := (started_spec (((s.imageDevice v).imageParts v).imageLinks v))
  rw [exec_configure hp]
  generalize ((s.imageDevice v).imageParts v).imageLinks v = c at *
  generalize (s.imageDevice v).imageParts v = b at *
  generalize s.imageDevice v = a at *
  obtain ⟨hready, hst, h3⟩ := h3
  generalize c.started = t at *
  have hmem : t.mem = a.mem := (congrArg State.mem h3 :).trans (by rw [h2.rest, h1.rest])
  have hpw : t.pw = a.pw := (congrArg State.pw h3 :).trans (by rw [h2.rest, h1.rest])
  have hdevId : t.devId = a.devId := (congrArg State.devId h3 :).trans (by rw [h2.rest, h1.rest])
  have hrows : t.rowsDev = a.rowsDev := (congrArg State.rowsDev h3 :).trans (by rw [h2.rest, h1.rest])
  have hfw : t.fwVer = a.fwVer := (congrArg State.fwVer h3 :).trans (by rw [h2.rest, h1.rest])
  have hparts : t.parts = b.parts := (congrArg State.parts h3 :).trans (by rw [h2.rest])
  have hlinks : t.links = c.links := (congrArg State.links h3 :)
  rw [← hmem, ← hpw, ← hdevId, ← hrows, ← hfw] at hdev
  obtain ⟨hm, hp, hid, hrd, hv⟩ := hdev
  refine ⟨t, rfl, hready, hst, fun n => ?_, by rw [hp]; rfl, by rw [hp]; rfl, by rw [hp]; rfl, by rw [hp]; rfl,
    by rw [hp]; rfl, by rw [hp]; rfl, by rw [hp]; exact power_target v, hid, hrd, hv, fun p => ?_, fun l => ?_⟩
  · rw [hm]
    rfl
  · have hp : t.part p = b.part p := by rw [State.part, hparts]; rfl
    have h := hpart p
    rw [← hp] at h
    exact h
  · rw [State.link_of_links c t hlinks l]
    exact hlink l

end Sys2Proof.Machine

section
open Sys2Proof Sys2Proof.Machine

/-- Settles O43: each phase writes what it is for, and a loop over partitions, links or clusters writes each once. -/
theorem startToReady : Obligations.StartToReady := by
  unfold Obligations.StartToReady
  intro s
  refine ⟨fun hp hg => ?_, fun hp => ?_, fun hp r => testDone_spec hp r, fun hp w => ?_, fun hp => ?_,
    fun hp v => configure_spec hp v⟩
  · exact ⟨_, exec_powerUp hp hg, rfl, phase_restored hp _⟩
  · exact ⟨_, exec_memInit hp, rfl, phase_restored hp _⟩
  · intro base
    obtain ⟨t, hexec, ht⟩ := cadastrePhase_spec hp w (base := base) rfl
    have hnothing := mergedList_nothing (s := s) (base := base)
    clear_value base
    refine ⟨t, hexec, ?_⟩
    by_cases hfail : 4092 < (s.mergedList base).length ∨ tsvShort (s.mergedList base) = true
    · rw [if_pos hfail] at ht
      refine ⟨.inr ht, fun h => absurd (ht.1.symm.trans h) (by decide), fun hb hr hn => ?_⟩
      rw [hnothing hb hr hn] at hfail
      exact absurd hfail (by decide)
    · rw [if_neg hfail] at ht
      obtain ⟨hphase, hrun, hkept, hlist⟩ := ht
      rw [not_or, Nat.not_lt] at hfail
      refine ⟨.inl hphase, fun _ => ?_, fun hb hr hn => ⟨hphase, ?_⟩⟩
      · rw [hkept, hrun, hlist]
        exact ⟨rfl, rfl, rfl, hfail.1, rfl, rfl⟩
      · rw [hlist]
        exact hnothing hb hr hn
  · exact applyCad_spec hp

end

/-! ## Slots that the issue unit executes (R50 to R54)

A slot whose bundle stands open takes effect on its core with the bundle open and the slot marked; what it reads there are
the registers as they stood before. -/

namespace Sys2Proof.Machine

/-! ### What opening a bundle leaves of a core -/

@[simp] theorem tookSlot_a (x : Core) (b : Bundle) (n : Nat) : (x.tookSlot b n).a = x.a := (tookSlot_regs x b n).1
@[simp] theorem tookSlot_x (x : Core) (b : Bundle) (n : Nat) : (x.tookSlot b n).x = x.x := (tookSlot_regs x b n).2.1
@[simp] theorem tookSlot_i (x : Core) (b : Bundle) (n : Nat) : (x.tookSlot b n).i = x.i := (tookSlot_regs x b n).2.2.1
@[simp] theorem tookSlot_wtag (x : Core) (b : Bundle) (n : Nat) : (x.tookSlot b n).wtag = x.wtag := by
  unfold Core.tookSlot Core.opened
  split <;> rfl

/-- The cycle count of a cluster is no part of its trace. -/
theorem OnlyCore.cycle_eq {s t : State} {c : CoreId} (h : OnlyCore s t c) :
    (t.cluster c.cluster).cycle = (s.cluster c.cluster).cycle := by
  obtain ⟨-, -, -, hcluster⟩ := h
  exact (congrArg Cluster.cycle hcluster :)

/-! ### SCL (R54) -/

/-- An SCL operation puts in flight the value that it computes from the registers as they stand at issue. -/
theorem sclOp_gives {s : State} {c : CoreId} {b : Bundle} {op lat : Nat} {i : Instr} {val : State → Core → Word} {v : Word}
    {run : State → Host.Outcome State Fault Refusal} (hexec : exec i s = run s) (hrun : run s = sclOp c b op lat val s)
    (h : Stands s c b 2 op)
    (hv : ∀ u, OnlyCore s u c → val u ((s.core c).tookSlot b 2) = v) :
    SlotGives s c b 2 i (Core.flies .x (b.f 2 12 8) (v.zeroExtend 48) 2 lat) := by
  obtain ⟨u, hu, hcore, honly⟩ := slotOp_stands s c b 2 op
    (fun s => s.write c .x (sclD b) ((val s (s.core c)).zeroExtend 48) 2 lat) h
  refine ⟨_, (hexec.trans hrun).trans hu, ?_, honly.trans (write_onlyCore u c _ _ _ _ _)⟩
  rw [write_core, hcore, hv u honly]
  rfl

end Sys2Proof.Machine

section
open Sys2Proof Sys2Proof.Machine

/-- Settles O2: every row is an `sclOp` whose value the opening of the bundle does not change. -/
theorem scalarResults : Obligations.ScalarResults := by
  unfold Obligations.ScalarResults sclResults
  simp only [List.forall_mem_cons, List.not_mem_nil, false_imp_iff, implies_true, and_true]
  refine ⟨fun s c b h => sclOp_gives (run := execAdd c b) rfl rfl h ?add,
    fun s c b h => sclOp_gives (run := execSub c b) rfl rfl h ?sub,
    fun s c b h => sclOp_gives (run := execSclAddi c b) rfl rfl h ?sclAddi,
    fun s c b h => sclOp_gives (run := execAndX c b) rfl rfl h ?andX,
    fun s c b h => sclOp_gives (run := execOrX c b) rfl rfl h ?orX,
    fun s c b h => sclOp_gives (run := execXorX c b) rfl rfl h ?xorX,
    fun s c b h => sclOp_gives (run := execShl c b) rfl rfl h ?shl,
    fun s c b h => sclOp_gives (run := execShr c b) rfl rfl h ?shr,
    fun s c b h => sclOp_gives (run := execSra c b) rfl rfl h ?sra,
    fun s c b h => sclOp_gives (run := execCmplt c b) rfl rfl h ?cmplt,
    fun s c b h => sclOp_gives (run := execCmpltu c b) rfl rfl h ?cmpltu,
    fun s c b h => sclOp_gives (run := execCmpeq c b) rfl rfl h ?cmpeq,
    fun s c b h => sclOp_gives (run := execMul c b) rfl rfl h ?mul,
    fun s c b h => sclOp_gives (run := execSclMovi c b) rfl rfl h ?sclMovi,
    fun s c b h => sclOp_gives (run := execFadd c b) rfl rfl h ?fadd,
    fun s c b h => sclOp_gives (run := execFmul c b) rfl rfl h ?fmul,
    fun s c b h => sclOp_gives (run := execFfma c b) rfl rfl h ?ffma,
    fun s c b h => sclOp_gives (run := execFcvti c b) rfl rfl h ?fcvti,
    fun s c b h => sclOp_gives (run := execIcvtf c b) rfl rfl h ?icvtf,
    fun s c b h => sclOp_gives (run := execMovax c b) rfl rfl h ?movax,
    fun s c b h => sclOp_gives (run := execRdtag c b) rfl rfl h ?rdtag,
    fun s c b h => sclOp_gives (run := execRdcyc c b) rfl rfl h ?rdcyc⟩ <;> intro u hu
  case cmplt => simp [flag32, Core.xr, sclS1, sclS2, BitVec.slt]
  case cmpltu => simp [flag32, Core.xr, sclS1, sclS2, BitVec.ult]
  case cmpeq => simp [flag32, Core.xr, sclS1, sclS2]
  case rdcyc => rw [hu.cycle_eq]
  case rdtag => exact tookSlot_wtag _ b 2
  case sclMovi => rfl
  case movax => simp [Core.ar, sclS1]
  all_goals simp [Core.xr, sclS1, sclS2, sclD, imm9, signed]

end

namespace Sys2Proof.Machine

/-! ### ADR (R53) -/

/-- The model's reading of an ADR immediate as an address. -/
theorem ofInt_adrImm (b : Bundle) : BitVec.ofInt 48 (adrImm b) = adrImmediate b := by
  unfold adrImm adrImmediate Bundle.wide signed
  by_cases h : b.kind = 1
  · simp only [h, decide_true, if_true]
    exact BitVec.ofInt_toInt
  · simp only [h, decide_false, if_false]
    rfl

/-- A slot operation that puts one write in flight, its value read from the registers as they stand at issue. -/
theorem writeOp_gives {s : State} {c : CoreId} {b : Bundle} {slot op n lat : Nat} {f : RegFile} {i : Instr} {val : Core → BitVec 48}
    {v : BitVec 48} (hi : exec i s = slotOp c b slot op (fun s => s.write c f n (val (s.core c)) slot lat) s)
    (h : Stands s c b slot op) (hv : val ((s.core c).tookSlot b slot) = v) :
    SlotGives s c b slot i (Core.flies f n v slot lat) :=
  slotOp_gives s c b slot op i _ _ hi h fun u hu => ⟨write_onlyCore u c _ _ _ _ _, by rw [write_core, hu, hv]⟩

end Sys2Proof.Machine

section
open Sys2Proof Sys2Proof.Machine

/-- Settles O4: every row puts one write in flight, whose value the opening of the bundle does not change. -/
theorem addressResults : Obligations.AddressResults := by
  unfold Obligations.AddressResults adrResults
  simp only [List.forall_mem_cons, List.not_mem_nil, false_imp_iff, implies_true, and_true]
  refine ⟨?movi, ?addi, ?addx, ?addin, ?seti, ?movxi, ?setj, ?movxj, ?bind⟩ <;> intro s c b h
  case movi => exact writeOp_gives (val := fun _ => BitVec.ofInt 48 (adrImm b)) rfl h (ofInt_adrImm b)
  case seti => exact writeOp_gives (val := fun _ => BitVec.ofInt 48 (adrImm b)) rfl h (ofInt_adrImm b)
  case setj => exact writeOp_gives (val := fun _ => BitVec.ofInt 48 (adrImm b)) rfl h (ofInt_adrImm b)
  case bind => exact writeOp_gives (val := fun _ => BitVec.ofNat 48 (adrS b)) rfl h rfl
  case addi =>
    refine writeOp_gives (val := fun x => x.ar (adrS b) + BitVec.ofInt 48 (adrImm b)) rfl h ?_
    simp [Core.ar, adrS, ofInt_adrImm]
  case addx =>
    refine writeOp_gives (val := fun x => x.ar (adrS b) + (x.xr (b.f 1 24 20)).signExtend 48) rfl h ?_
    simp [Core.ar, Core.xr, adrS]
  case addin =>
    refine writeOp_gives (val := fun x => x.ar (adrS b) + x.incr (b.f 1 25 20)) rfl h ?_
    by_cases h0 : b.f 1 25 20 = 0 <;> simp [Core.ar, Core.incr, Core.ir, adrS, h0]
  case movxi => exact writeOp_gives (val := fun x => (x.xr (adrS b)).zeroExtend 48) rfl h (by simp [Core.xr, adrS])
  case movxj => exact writeOp_gives (val := fun x => (x.xr (adrS b)).zeroExtend 48) rfl h (by simp [Core.xr, adrS])

end

namespace Sys2Proof.Machine

/-! ### CTL (R51, R52) -/

/-- A branch that depends on a condition. -/
theorem branchIf_onlyCore (s : State) (c : CoreId) (target : Nat) (p : Prop) [Decidable p] :
    OnlyCore s (if p then s.branch c target else s) c := by
  split
  · exact branch_onlyCore s c target
  · exact .refl s c

theorem branchIf_core (s : State) (c : CoreId) (target : Nat) (p : Prop) [Decidable p] :
    (if p then s.branch c target else s).core c = (if p then Core.branches target else id) (s.core c) := by
  split
  · exact branch_core s c target
  · rfl

/-- A `NOP`, or a `WAITT` whose bundle has opened. -/
theorem idle_gives {s : State} {c : CoreId} {b : Bundle} {slot op : Nat} {i : Instr} (hi : exec i s = slotOp c b slot op id s)
    (h : Stands s c b slot op) : SlotGives s c b slot i id :=
  slotOp_gives s c b slot op i id id hi h fun u _ => ⟨.refl u c, rfl⟩

/-- A bundle that no other stands before opens with its slot. -/
theorem Stands.opens {s : State} {c : CoreId} {b : Bundle} {slot op : Nat} (h : Stands s c b slot op) (hcur : (s.core c).cur = none) :
    Opens s c b := by
  obtain ⟨-, -, hopens | ⟨hopen, -⟩⟩ := h
  · exact hopens
  · exact absurd (hcur.symm.trans hopen) (by simp)

/-- The `WAITT` of a bundle that nothing holds has reached its count. -/
theorem count_reached {x : Core} {b : Bundle} (h0 : b.has 0 = true) (h5 : b.op 0 = 5) (h : holdOf x b = none) :
    b.f 0 23 16 ≤ x.tok.get 0 (b.f 0 13 8) := by
  by_contra hlt
  simp [holdOf, h0, h5, Nat.lt_of_not_le hlt] at h

end Sys2Proof.Machine

section
open Sys2Proof Sys2Proof.Machine

/-- Settles O5: the condition of a branch is read on the core as the bundle opens it. -/
theorem branches : Obligations.Branches := by
  intro s c b v go
  have hv : ((s.core c).tookSlot b 0).xr (b.f 0 12 8) = v := by rw [Core.xr, tookSlot_x]
  refine ⟨fun h => ?jmp, fun h => ?brz, fun h => ?brnz, fun h => ?dbnz⟩
  case jmp => exact slotOp_gives s c b 0 1 _ (fun s => s.branch c (b.f 0 31 16)) _ rfl h fun u _ => ⟨branch_onlyCore u c _, branch_core u c _⟩
  case brz =>
    refine slotOp_gives s c b 0 2 _ (fun s => if (s.core c).xr (b.f 0 12 8) = 0 then s.branch c (b.f 0 31 16) else s) _ rfl h
      fun u hu => ⟨branchIf_onlyCore u c _ _, ?_⟩
    rw [branchIf_core, hu, hv]
  case brnz =>
    refine slotOp_gives s c b 0 3 _ (fun s => if (s.core c).xr (b.f 0 12 8) ≠ 0 then s.branch c (b.f 0 31 16) else s) _ rfl h
      fun u hu => ⟨branchIf_onlyCore u c _ _, ?_⟩
    rw [branchIf_core, hu, hv]
  case dbnz =>
    let less (u : State) : Word := (u.core c).xr (b.f 0 12 8) - 1
    let put (u : State) : State := u.write c .x (b.f 0 12 8) ((less u).zeroExtend 48) 0 1
    refine slotOp_gives s c b 0 4 _ (fun u => if less u ≠ 0 then (put u).branch c (b.f 0 31 16) else put u) _ rfl h
      fun u hu => ⟨(write_onlyCore u c _ _ _ _ _).trans (branchIf_onlyCore _ c _ _), ?_⟩
    have hless : less u = v - 1 := by simp only [less, hu, hv]
    rw [branchIf_core, write_core, hless, hu]

/-- Settles O6: the opening of the bundle is all that a NOP and a `WAITT` do. -/
theorem nopsTagEndAndWait : Obligations.NopsTagEndAndWait := by
  intro s c b
  refine ⟨idle_gives rfl, idle_gives rfl, idle_gives rfl, fun h => ?_, fun h => ?_, idle_gives rfl, fun h hcur hc => ?_⟩
  · exact writeOp_gives (val := fun _ => _) rfl h rfl
  · refine slotOp_gives s c b 0 8 _ (fun s => s.updCore c fun x => { x with ended := true }) _ rfl h fun u _ => ⟨.of_updCore u c _, ?_⟩
    rw [State.updCore_eq, State.core_setCore, if_pos rfl]
  · obtain ⟨t, hexec, hcore, -⟩ := idle_gives (i := .waitt c b) rfl h
    obtain ⟨-, -, -, hhold, -, -⟩ := h.opens hcur
    refine ⟨t, hexec, ?_, count_reached h.1 h.2.1 hhold⟩
    simp [hcore, Core.tookSlot, Core.opened, hcur, Core.openWith, h.1, h.2.1, hc]

end

namespace Sys2Proof.Machine

/-! ### SP words (R54, R346, R393) -/

@[simp] theorem tookSlot_sp (x : Core) (b : Bundle) (n : Nat) : (x.tookSlot b n).sp = x.sp := (tookSlot_regs x b n).2.2.2.2.2.2.2.1
@[simp] theorem tookSlot_spErr (x : Core) (b : Bundle) (n : Nat) : (x.tookSlot b n).spErr = x.spErr := by
  unfold Core.tookSlot Core.opened
  split <;> rfl

/-- A write of SP leaves its bytes there and every other byte of SP. -/
theorem spHolds_spWrite (x : Core) (off : Nat) (bs : List Byte) : SpHolds x (x.spWrite off bs) off bs := by
  intro k
  show (x.sp.setMany 0 off bs).get 0 k = _
  rw [Tbl.get_setMany]
  split
  · rw [List.getD_eq_getElem _ _ (by omega)]
  · rfl

/-- A read of SP words none of which has a recorded error finds nothing. -/
theorem spCheckIf_clean {s : State} {c : CoreId} {t : Nat → Bool} (h : ∀ e ∈ (s.core c).spErr, t e.1 = false) :
    s.spCheckIf c t = (s, none) := by
  have hwords : ((s.core c).spErr.map Prod.fst).filter t = [] := by
    simpa [List.filter_eq_nil_iff] using fun w e he => h (w, e) he
  simp only [State.spCheckIf, hwords, List.foldl_nil]

/-- A read of one SP word. -/
theorem spCheck_word {s : State} {c : CoreId} {a : Nat} (ha : a % 4 = 0) (h : ∀ e ∈ (s.core c).spErr, e.1 ≠ a / 4) :
    s.spCheck c a 4 = (s, none) :=
  spCheckIf_clean fun e he => by
    have := h e he
    simp only [Bool.and_eq_false_iff, decide_eq_false_iff_not]
    omega

/-- With no flip of an encoder armed, a write of SP changes its core alone. -/
theorem spWrite_unflipped {s : State} (c : CoreId) (off : Nat) (bs : List Byte) (h : s.hk.flips = []) :
    s.spWrite c off bs = s.updCore c (fun x => x.spWrite off bs) := by
  have h' : (s.updCore c (fun x => x.spWrite off bs)).hk.flips.isEmpty = true := by rw [List.isEmpty_iff]; exact h
  simp only [State.spWrite, h', Bool.or_true, if_true]

end Sys2Proof.Machine

section
open Sys2Proof Sys2Proof.Machine

/-- Settles O3: the word of an `LDX` passes its check, and the write of an `STX` meets no flip. -/
theorem scalarMemory : Obligations.ScalarMemory := by
  intro s c b a
  refine ⟨fun h ha _ herr => ?_, fun h _ _ hflips => ?_⟩
  · refine slotOp_gives s c b 2 0x18 _ _ _ (Eq.trans (b := execLdx c b s) rfl rfl) h fun u hu => ?_
    have haddr : ldxAddr (u.core c) b = a := by rw [hu, ldxAddr, tookSlot_a]; rfl
    have hcheck : u.spCheck c a 4 = (u, none) := spCheck_word ha (by rwa [hu, tookSlot_spErr])
    simp only [haddr, hcheck]
    refine ⟨write_onlyCore u c _ _ _ _ _, ?_⟩
    rw [write_core, hu, Core.spBytes, tookSlot_sp]
    rfl
  · obtain ⟨u, hexec, hu, honly⟩ := slotOp_stands s c b 2 0x19
      (fun s => s.spWrite c (ldxAddr (s.core c) b) (leBytes 4 ((s.core c).xr (sclS2 b)).toNat)) h
    have haddr : ldxAddr (u.core c) b = a := by rw [hu, ldxAddr, tookSlot_a]; rfl
    have hval : (u.core c).xr (sclS2 b) = (s.core c).x.get 0 (b.f 2 22 18) := by rw [hu, Core.xr, tookSlot_x]; rfl
    have hflips' : u.hk.flips = [] := by rw [honly.hk_eq, hflips]
    rw [haddr, hval, spWrite_unflipped c _ _ hflips'] at hexec
    refine ⟨_, hexec, honly.trans (.of_updCore u c _), ?_, ?_⟩
    · have hsp := spHolds_spWrite (u.core c) a (leBytes 4 ((s.core c).x.get 0 (b.f 2 22 18)).toNat)
      simpa [SpHolds, hu] using hsp
    · have hold : ((s.core c).tookSlot b 2).spLive = (s.core c).spLive := by
        unfold Core.tookSlot Core.opened
        split <;> rfl
      rw [State.updCore_eq, State.core_setCore, if_pos rfl, hu, ← hold, ← tookSlot_sp (s.core c) b 2,
        ← tookSlot_spErr (s.core c) b 2]
      rfl

end

namespace Sys2Proof.Machine

/-! ### Trace records (R72 to R74) -/

theorem leNat_append (l m : List Byte) : leNat (l ++ m) = leNat l + 256 ^ l.length * leNat m := by
  induction l with
  | nil => simp [leNat]
  | cons b l ih =>
    rw [List.cons_append, leNat, leNat, ih, List.length_cons, pow_succ]
    ring

/-- The fields of a trace record, each at its place. -/
theorem traceBytes_toNat {type core detail pc payload : Nat} (wtag : Word) (mtag seq : BitVec 16) (cycle : BitVec 48)
    (ht : type + 16 * core < 256) (hd : detail < 256) (hp : pc < 65536) (hx : payload < 2 ^ 64) :
    (traceBytes type core detail pc wtag mtag seq cycle payload).toNat
      = type + 16 * core + 2 ^ 8 * detail + 2 ^ 16 * pc + 2 ^ 32 * wtag.toNat + 2 ^ 64 * mtag.toNat + 2 ^ 80 * seq.toNat
        + 2 ^ 128 * cycle.toNat + 2 ^ 192 * payload := by
  have hw := wtag.isLt
  have hm := mtag.isLt
  have hs := seq.isLt
  have hc := cycle.isLt
  simp only [traceBytes, BitVec.toNat_ofNat, leNat_append, leNat_leBytes, length_leBytes, List.length_append, List.length_cons,
    List.length_nil, leNat]
  norm_num at *
  omega

/-- A slot of a bundle that stands open already changes no trace before it takes effect. -/
theorem slotOp_open {s : State} {c : CoreId} {b : Bundle} {slot op : Nat} (eff : State → State) (h : Stands s c b slot op)
    (hcur : (s.core c).cur = some b) :
    slotOp c b slot op eff s = .next (eff (s.setCore c ((s.core c).tookSlot b slot))) := by
  obtain ⟨hhas, hop, hopens | ⟨-, hst, hleft⟩⟩ := h
  · exact absurd (hopens.2.1.symm.trans hcur) (by simp)
  · simp [slotOp, State.openBundle, hcur, hst, hhas, hop, hleft, Core.tookSlot, Core.opened]

/-- What is traced of a core whose type and core are recorded, while there is room. -/
theorem trace_recorded {s : State} {c : CoreId} {type : Nat} (detail pc : Nat) (mtag : BitVec 16) (payload : Nat)
    (hen : (s.cluster c.cluster).trEnable = true) (htype : (s.cluster c.cluster).trTypes.getLsbD type = true)
    (hcore : (s.cluster c.cluster).trCores.getLsbD c.k.val = true) (h1 : type ≠ 1)
    (hroom : (s.cluster c.cluster).traceRoom = true) :
    s.trace c type detail pc mtag payload = s.setCluster c.cluster ((s.cluster c.cluster).putTrace
      (traceBytes type c.k.val detail pc (s.core c).wtag mtag (s.cluster c.cluster).trSeq (s.cluster c.cluster).cycle payload)) := by
  simp [State.trace, hen, htype, hcore, h1, hroom]

/-- The fields of a record, each cut out of its number. -/
theorem traceBytes_fields {type core detail pc payload : Nat} (wtag : Word) (mtag seq : BitVec 16) (cycle : BitVec 48)
    (ht : type + 16 * core < 256) (hd : detail < 256) (hp : pc < 65536) (hx : payload < 2 ^ 64) :
    let r := (traceBytes type core detail pc wtag mtag seq cycle payload).toNat
    r % 256 = type + 16 * core ∧ r / 2 ^ 8 % 256 = detail ∧ r / 2 ^ 16 % 65536 = pc ∧ r / 2 ^ 32 % 2 ^ 32 = wtag.toNat
      ∧ r / 2 ^ 64 % 65536 = mtag.toNat ∧ r / 2 ^ 80 % 65536 = seq.toNat ∧ r / 2 ^ 128 % 2 ^ 48 = cycle.toNat
      ∧ r / 2 ^ 192 = payload := by
  intro r
  have hr : r = _ := traceBytes_toNat wtag mtag seq cycle ht hd hp hx
  have hw := wtag.isLt
  have hm := mtag.isLt
  have hs := seq.isLt
  have hc := cycle.isLt
  clear_value r
  norm_num at *
  omega

theorem bits_lt (n hi lo : Nat) : bits n hi lo < 2 ^ (hi + 1 - lo) := Nat.mod_lt _ (by positivity)

theorem bit_toNat {w : Nat} (v : BitVec w) (k : Nat) : bit v.toNat k = v.getLsbD k := by
  simp [bit, BitVec.getLsbD, Nat.testBit_eq_decide_div_mod_eq]

theorem bits_toNat {w : Nat} (v : BitVec w) (hi lo n : Nat) (hn : n = hi + 1 - lo) :
    BitVec.ofNat n (bits v.toNat hi lo) = v.extractLsb' lo n := by
  subst hn
  apply BitVec.eq_of_toNat_eq
  simp [bits, BitVec.extractLsb', Nat.shiftRight_eq_div_pow]

end Sys2Proof.Machine

section
open Sys2Proof Sys2Proof.Machine

/-- Settles O7: the record is made of the core as the open bundle has it. -/
theorem traceWritesMark : Obligations.TraceWritesMark := by
  intro s c b h hcur hen htype hcore hroom
  have hexec := slotOp_open (fun s => s.trace c 7 (b.f 0 12 8) (s.core c).curPc.toNat (s.core c).mtag
    ((s.core c).xr (b.f 0 12 8)).toNat) h hcur
  have hu : (s.setCore c ((s.core c).tookSlot b 0)).core c = (s.core c).tookSlot b 0 := by rw [State.core_setCore, if_pos rfl]
  have honly : OnlyCore s (s.setCore c ((s.core c).tookSlot b 0)) c := .of_updCore s c (fun x => x.tookSlot b 0)
  have hmtag : ((s.core c).tookSlot b 0).mtag = (s.core c).mtag := by simp [Core.tookSlot, Core.opened, hcur]
  have hpc : ((s.core c).tookSlot b 0).curPc = (s.core c).curPc := by simp [Core.tookSlot, Core.opened, hcur]
  have hrec := trace_recorded (s := s.setCore c ((s.core c).tookSlot b 0)) (b.f 0 12 8) (s.core c).curPc.toNat (s.core c).mtag
    ((s.core c).xr (b.f 0 12 8)).toNat hen htype hcore (by decide) hroom
  refine ⟨_, _, hexec, honly.trans (trace_onlyCore _ c _ _ _ _ _), by rw [trace_core, hu], ?_,
    traceBytes_fields (type := 7) (core := c.k.val) _ _ _ _ (by omega) (lt_trans (bits_lt _ 12 8) (by decide))
      (s.core c).curPc.isLt (lt_trans ((s.core c).x.get 0 (b.f 0 12 8)).isLt (by decide))⟩
  rw [hu, Core.xr, tookSlot_x, hmtag, hpc]
  rw [Core.xr] at hrec
  rw [hrec, State.cluster_setCluster, if_pos rfl, hu, tookSlot_wtag]
  rfl

/-- Settles O16: both commands write the cluster alone, and the LOST record has its fields at their places. -/
theorem traceControl : Obligations.TraceControl := by
  intro s cl
  refine ⟨fun v hstart => ?_, fun hen htype hdrop hsmall hroom => ?_⟩
  · refine ⟨s.writeTrace cl v.toNat, congrArg _ (if_neg hstart), ?_⟩
    simp only [State.writeTrace, State.updCluster_eq, State.cluster_setCluster, if_true, bit_toNat, bits_toNat v 11 3 9 rfl,
      bits_toNat v 31 16 16 rfl]
    refine ⟨trivial, trivial, trivial, trivial, trivial, fun hv hold => ?_, trivial, fun _ => rfl, rfl⟩
    simp [hv, hold]
  · obtain ⟨htype15, -, -, -, -, -, -, hcount⟩ := traceBytes_fields (type := 15) (core := 0) (detail := 0) (pc := 0) 0 0
      (s.cluster cl).trSeq (s.cluster cl).cycle (by decide) (by decide) (by decide) hsmall
    refine ⟨_, _, if_pos (by simp [hen, htype, hdrop, hroom]), ?_, htype15, hcount, fun _ => rfl, rfl⟩
    rw [State.cluster_setCluster, if_pos rfl]

end

namespace Sys2Proof.Machine

/-! ## Halts (R69, R70, R76)

What stopping a core's engines, and ending its packet, leave of a core and of stack memory. -/

/-- What a halt leaves of a core: all but its queues, instances, hold, open bundle, gates, share, state and count of parity
faults. A core that has halted stays halted, and one that has nothing queued and nothing running stays so. -/
structure Core.Kept (x y : Core) : Prop where
  rest : { y with
    dmaQ := x.dmaQ, matQ := x.matQ, vecQ := x.vecQ, runs := x.runs, stopping := x.stopping, hold := x.hold, cur := x.cur
    gateMe := x.gateMe, gateVe := x.gateVe, share := x.share, st := x.st, parFaults := x.parFaults, retired := x.retired } = x
  halted : x.st = .halted → y.st = .halted
  empty : x.dmaQ = [] ∧ x.matQ = [] ∧ x.vecQ = [] ∧ x.runs = [] → y.dmaQ = [] ∧ y.matQ = [] ∧ y.vecQ = [] ∧ y.runs = []

namespace Core.Kept

theorem refl (x : Core) : x.Kept x := ⟨rfl, id, id⟩

theorem trans {x y z : Core} (h : x.Kept y) (g : y.Kept z) : x.Kept z :=
  ⟨by rw [← h.rest, ← g.rest], g.halted ∘ h.halted, g.empty ∘ h.empty⟩

variable {x y : Core} (h : x.Kept y)
include h

theorem a_eq : y.a = x.a := by rw [← h.rest]
theorem x_eq : y.x = x.x := by rw [← h.rest]
theorem sp_eq : y.sp = x.sp := by rw [← h.rest]
theorem acc_eq : y.acc = x.acc := by rw [← h.rest]
theorem tok_eq : y.tok = x.tok := by rw [← h.rest]
theorem inflight_eq : y.inflight = x.inflight := by rw [← h.rest]
theorem hReason_eq : y.hReason = x.hReason := by rw [← h.rest]
theorem hSlot_eq : y.hSlot = x.hSlot := by rw [← h.rest]
theorem hMore_eq : y.hMore = x.hMore := by rw [← h.rest]
theorem hFile_eq : y.hFile = x.hFile := by rw [← h.rest]
theorem hReg_eq : y.hReg = x.hReg := by rw [← h.rest]
theorem hPc_eq : y.hPc = x.hPc := by rw [← h.rest]
theorem hAddr_eq : y.hAddr = x.hAddr := by rw [← h.rest]

end Core.Kept

/-- Every core keeps what a halt leaves, and stack memory is as it was. -/
structure Halts (s t : State) : Prop where
  mem : t.mem = s.mem
  core : ∀ d, (s.core d).Kept (t.core d)

namespace Halts

theorem refl (s : State) : Halts s s := ⟨rfl, fun d => .refl (s.core d)⟩

theorem trans {s t u : State} (h : Halts s t) (g : Halts t u) : Halts s u :=
  ⟨g.mem.trans h.mem, fun d => (h.core d).trans (g.core d)⟩

theorem of_cores {s t : State} (hm : t.mem = s.mem) (hc : t.cores = s.cores) : Halts s t :=
  ⟨hm, fun d => by rw [State.core_of_cores s t hc d]; exact .refl _⟩

theorem of_updCore (s : State) (c : CoreId) {f : Core → Core} (hf : (s.core c).Kept (f (s.core c))) : Halts s (s.updCore c f) :=
  ⟨rfl, fun d => by
    rw [State.updCore_eq, State.core_setCore]
    split
    · next hd => exact hd ▸ hf
    · exact .refl _⟩

theorem foldl {α : Type} (f : State → α → State) (hf : ∀ s a, Halts s (f s a)) (l : List α) (s : State) : Halts s (l.foldl f s) :=
  foldl_keeps Halts refl (fun _ _ _ => trans) f hf l s

end Halts

theorem updCluster_halts (s : State) (c : ClusterId) (f : Cluster → Cluster) : Halts s (s.updCluster c f) := .of_cores rfl rfl

theorem updStack_halts (s : State) (k : Fin 12) (f : Stack → Stack) : Halts s (s.updStack k f) := .of_cores rfl rfl

/-- The gates of a core whose engines may have no work left. -/
def Core.regated (x : Core) : Core :=
  { x with
    gateMe := x.gateMe || (x.matQ.isEmpty && !(x.works .mat (fun _ => true)))
    gateVe := x.gateVe || (x.vecQ.isEmpty && !(x.works .vec (fun _ => true))) }

theorem regate_core (s : State) (c d : CoreId) : (s.regate c).core d = if d = c then (s.core c).regated else s.core d := by
  simp only [State.regate, State.updCluster_eq, State.core_setCluster, State.updCore_eq, State.core_setCore]
  rfl

theorem regate_halts (s : State) (c : CoreId) : Halts s (s.regate c) :=
  ⟨rfl, fun d => by
    rw [regate_core]
    split
    · next h => exact h ▸ ⟨rfl, id, id⟩
    · exact .refl _⟩

/-- A core whose engines are stopped: some of its instances go on to their cut points. -/
def Core.emptied (x : Core) (kept : List Stopped) : Core :=
  { x with dmaQ := [], matQ := [], vecQ := [], runs := [], stopping := x.stopping ++ kept, hold := none, cur := none }

/-- Stopping a core's engines empties its queues, and changes no register of any core and no byte of memory. -/
theorem stopEngines_spec (s : State) (c : CoreId) :
    Halts s (s.stopEngines c) ∧ ∃ kept, (s.stopEngines c).core c = ((s.core c).emptied kept).regated := by
  unfold State.stopEngines
  extract_lets +onlyGivenNames takes releasing kept a mine b d e
  have ha : a.mem = s.mem ∧ a.cores = s.cores := by
    unfold a
    split <;> exact ⟨rfl, rfl⟩
  have hb : b.mem = a.mem ∧ b.cores = a.cores := ⟨rfl, rfl⟩
  have hd : d.mem = b.mem ∧ d.cores = b.cores := ⟨rfl, rfl⟩
  have he : e.mem = d.mem ∧ e.cores = d.cores := ⟨rfl, rfl⟩
  clear_value a b d e
  have hmem : e.mem = s.mem := by rw [he.1, hd.1, hb.1, ha.1]
  have hcores : e.cores = s.cores := by rw [he.2, hd.2, hb.2, ha.2]
  have hcore := State.core_of_cores s e hcores c
  refine ⟨(Halts.of_cores hmem hcores).trans (Halts.trans ?_ (regate_halts _ c)), kept, ?_⟩
  · exact .of_updCore e c ⟨rfl, id, fun _ => ⟨rfl, rfl, rfl, rfl⟩⟩
  · rw [regate_core, if_pos rfl, State.updCore_eq, State.core_setCore, if_pos rfl, hcore]
    rfl

theorem trace_halts (s : State) (c : CoreId) (type detail pc : Nat) (mtag : BitVec 16) (payload : Nat) :
    Halts s (s.trace c type detail pc mtag payload) :=
  ⟨(trace_onlyCore s c type detail pc mtag payload).mem_eq, fun d => by rw [trace_core]; exact .refl _⟩

theorem raise_halts (s : State) (ev : Event) : Halts s (s.raise ev) := .of_cores (raise_mem s ev) (raise_cores s ev)

theorem addDefect_halts (s : State) (kind origin : Nat) (a b : BitVec 32) : Halts s (s.addDefect kind origin a b) :=
  .of_cores (addDefect_counted s kind origin a b).mem_eq (addDefect_counted s kind origin a b).cores_eq

theorem coreParity_halts (s : State) (c : CoreId) : Halts s (s.coreParity c) := by
  unfold State.coreParity
  extract_lets +onlyGivenNames win now a b d
  have ha : Halts s a := .of_updCore s c ⟨rfl, id, id⟩
  have hb : Halts a b := .of_updCore a c ⟨rfl, id, id⟩
  have hd : Halts b d := raise_halts b _
  clear_value a b d
  split
  · exact ha.trans (hb.trans (hd.trans (addDefect_halts d _ _ _ _)))
  · exact ha

/-- The shares of a packet that ends leave their cores. -/
theorem leaveShare_kept (x : Core) : x.Kept { x with st := if x.st = .halted then .halted else .idle, share := none } :=
  ⟨rfl, fun h => if_pos h, id⟩

theorem failPkt_halts (s : State) (k : Pkt) (detail : Word) : Halts s (s.failPkt k detail) := by
  unfold State.failPkt
  extract_lets +onlyGivenNames a b c mine d e same f
  have ha : Halts s a := .foldl _ (fun s c => (stopEngines_spec s c).1.trans (.of_updCore _ c (leaveShare_kept _))) _ s
  have hb : Halts a b := .foldl _ (fun s st => updStack_halts s st _) _ a
  have hc : Halts b c := .of_cores rfl rfl
  have hd : Halts c d := .of_cores rfl rfl
  have hf : Halts d f := .of_cores rfl rfl
  clear_value a b c d f
  exact ha.trans (hb.trans (hc.trans (hd.trans (hf.trans (.of_cores rfl rfl)))))

/-- A core that a cause has halted: its registers record the cause, nothing of it is queued or runs, and the rest of it is as it
was. -/
structure Core.HaltedBy (h : HaltInfo) (x y : Core) : Prop where
  kept : (x.recordHalt h).Kept y
  st : y.st = .halted
  dmaQ : y.dmaQ = []
  runs : y.runs = []

/-- What a halt makes of a running core; stack memory is as it was. -/
theorem haltCore_spec {s : State} {c : CoreId} (h : HaltInfo) (hst : (s.core c).st = .running) :
    (s.core c).HaltedBy h ((s.haltCore c h).core c) ∧ (s.haltCore c h).mem = s.mem := by
  unfold State.haltCore
  rw [if_neg (by simp [hst])]
  extract_lets +onlyGivenNames a b d k again evq first e f
  obtain ⟨ha, kept, hcore⟩ := stopEngines_spec s c
  have hb : b.core c = (((s.core c).emptied kept).regated).recordHalt h := by
    rw [← hcore]
    simp [b, a]
  have hmem : b.mem = s.mem := ha.mem
  have hd : Halts b d := trace_halts b _ _ _ _ _ _
  have he : Halts d e := raise_halts d _
  have hf : Halts e f := by
    unfold f
    split
    · exact coreParity_halts e c
    · exact .refl e
  have hbf : Halts b f := hd.trans (he.trans hf)
  clear_value b f k again first
  suffices hall : ∀ t, Halts b t → (s.core c).HaltedBy h (t.core c) ∧ t.mem = s.mem by
    split
    · split
      · exact hall _ (hbf.trans (.of_updCore f c ⟨rfl, id, id⟩))
      · exact hall _ (hbf.trans (failPkt_halts f _ _))
    · exact hall _ hbf
  intro t ht
  have hrec : ((s.core c).recordHalt h).Kept (b.core c) := hb ▸ ⟨rfl, id, fun _ => ⟨rfl, rfl, rfl, rfl⟩⟩
  obtain ⟨hdma, -, -, hruns⟩ := (ht.core c).empty (hb ▸ ⟨rfl, rfl, rfl, rfl⟩)
  exact ⟨⟨hrec.trans (ht.core c), (ht.core c).halted (hb ▸ rfl), hdma, hruns⟩, ht.mem.trans hmem⟩

end Sys2Proof.Machine

namespace Sys2Proof.Machine

/-! ### Bundles that do not issue (R48, R62) -/

/-- A core that may issue runs. -/
theorem mayIssue_running {s : State} {c : CoreId} (h : s.mayIssue c = true) : (s.core c).st = .running := by
  unfold State.mayIssue at h
  dsimp only at h
  split at h
  · simp only [Bool.and_eq_true, decide_eq_true_eq] at h
    obtain ⟨⟨⟨⟨hst, -⟩, -⟩, -⟩, -⟩ := h
    exact hst
  · exact absurd h (by simp)

/-- A slot operation whose bundle does not stand open leaves the state as the offer of the bundle does. -/
theorem slotOp_shut {s t : State} {c : CoreId} {b : Bundle} {i : Instr} {run : State → Host.Outcome State Fault Refusal}
    {slot op : Nat} {eff : State → State} (h : s.openBundle c b = (t, false)) (hexec : exec i s = run s)
    (hrun : run s = slotOp c b slot op eff s) : exec i s = .next t := by
  simp [hexec, hrun, slotOp, h]

/-- A bundle whose header cannot be read is refused for that cause alone. -/
theorem openBundle_headerBad {s : State} {c : CoreId} {b : Bundle} (hissue : s.mayIssue c = true) (hcur : (s.core c).cur = none)
    (hpc : (s.core c).pc.toNat + 2 ≤ 65536) (hbad : b.headerBad = true) :
    s.openBundle c b
      = (s.haltCore c ⟨1, 7, false, 6, 0, 0, (s.core c).pc.toNat, (s.core c).mtag, 0, 0⟩, false) := by
  have hstatic : staticCauses b (s.core c).pc.toNat = [mkCause 1 7] := by
    simp only [staticCauses]
    rw [if_neg (by omega), if_pos hbad]
  simp only [State.openBundle, hcur, hissue, hstatic, hbad, State.refuse]
  rfl

/-- A bundle that something holds is held, and no slot of it takes effect. -/
theorem openBundle_held {s : State} {c : CoreId} {b : Bundle} {tok want : Nat} (hissue : s.mayIssue c = true)
    (hcur : (s.core c).cur = none) (hstatic : staticCauses b (s.core c).pc.toNat = []) (htok : (s.core c).tokensOpen b = true)
    (hhold : holdOf (s.core c) b = some (tok, want)) : s.openBundle c b = (s.holdOn c tok want, false) := by
  simp [State.openBundle, hcur, hissue, hstatic, htok, hhold]

/-- A core that is held: nothing changes but its hold, and the trace. -/
theorem holdOn_spec (s : State) (c : CoreId) (tok want : Nat) :
    OnlyCore s (s.holdOn c tok want) c
      ∧ (∃ h, ((s.holdOn c tok want).core c).hold = some h ∧ h.tok = tok ∧ h.want = want)
      ∧ { (s.holdOn c tok want).core c with hold := (s.core c).hold } = s.core c := by
  have hnew : ∀ u, OnlyCore s u c → u.core c = s.core c →
      OnlyCore s (u.updCore c fun x => { x with hold := some ⟨tok, want, 0⟩ }) c
      ∧ (∃ h, ((u.updCore c fun x => { x with hold := some ⟨tok, want, 0⟩ }).core c).hold = some h ∧ h.tok = tok ∧ h.want = want)
      ∧ { (u.updCore c fun x => { x with hold := some ⟨tok, want, 0⟩ }).core c with hold := (s.core c).hold } = s.core c := by
    intro u honly hcore
    refine ⟨honly.trans (.of_updCore u c _), ⟨⟨tok, want, 0⟩, by simp, rfl, rfl⟩, ?_⟩
    simp [hcore]
  unfold State.holdOn
  extract_lets +onlyGivenNames x
  split
  · next h hold =>
    split
    · next hsame =>
      simp only [Bool.and_eq_true, decide_eq_true_eq] at hsame
      exact ⟨.refl s c, ⟨h, hold, hsame⟩, rfl⟩
    · exact hnew _ ((trace_onlyCore s c _ _ _ _ _).trans (trace_onlyCore _ c _ _ _ _ _)) (by rw [trace_core, trace_core])
  · exact hnew _ (trace_onlyCore s c _ _ _ _ _) (trace_core s c _ _ _ _ _ c)

/-- A `WAITT` that awaits more than its token's count holds its bundle. -/
theorem holdOf_waitt {x : Core} {b : Bundle} (h0 : b.has 0 = true) (h5 : b.op 0 = 5)
    (hlow : x.tok.get 0 (b.f 0 13 8) < b.f 0 23 16) : holdOf x b = some (b.f 0 13 8, b.f 0 23 16) := by
  simp [holdOf, h0, h5, hlow]

end Sys2Proof.Machine

section
open Sys2Proof Sys2Proof.Machine

/-- Settles O8: whichever slot offers the bundle, it is refused or held. -/
theorem bundlesThatDoNotIssue : Obligations.BundlesThatDoNotIssue := by
  intro s c b hissue hcur
  refine ⟨fun hpc hbad => ?_, fun hstatic h0 h5 hphase hlow => ?_⟩
  · have hopen := openBundle_headerBad hissue hcur hpc (by simpa [Bundle.headerBad] using hbad)
    obtain ⟨hhalt, -⟩ := haltCore_spec ⟨1, 7, false, 6, 0, 0, (s.core c).pc.toNat, (s.core c).mtag, 0, 0⟩ (mayIssue_running hissue)
    have hpc16 : BitVec.ofNat 16 (s.core c).pc.toNat = (s.core c).pc.truncate 16 := (BitVec.truncate_eq_setWidth ▸ rfl)
    have hgives : ∀ i, exec i s = .next _ → ∃ t, exec i s = .next t
        ∧ (t.core c).st = .halted ∧ (t.core c).hReason = 0x01 ∧ (t.core c).hSlot = 7 ∧ (t.core c).hMore = false
        ∧ (t.core c).hPc = (s.core c).pc.truncate 16 ∧ (t.core c).inflight = (s.core c).inflight
        ∧ (t.core c).a = (s.core c).a ∧ (t.core c).x = (s.core c).x ∧ (t.core c).sp = (s.core c).sp
        ∧ (t.core c).acc = (s.core c).acc := fun i hi =>
      ⟨_, hi, hhalt.st, hhalt.kept.hReason_eq, hhalt.kept.hSlot_eq, hhalt.kept.hMore_eq, hhalt.kept.hPc_eq.trans hpc16,
        hhalt.kept.inflight_eq, hhalt.kept.a_eq, hhalt.kept.x_eq, hhalt.kept.sp_eq, hhalt.kept.acc_eq⟩
    simp only [List.forall_mem_cons, List.not_mem_nil, false_imp_iff, implies_true, and_true]
    exact ⟨hgives _ (slotOp_shut hopen (run := execCtlNop c b) rfl rfl),
      hgives _ (slotOp_shut hopen (run := execAdd c b) rfl (by unfold execAdd sclOp; rfl))⟩
  · have hopen := openBundle_held hissue hcur hstatic (by simp [Core.tokensOpen, hphase]) (holdOf_waitt h0 h5 hlow)
    obtain ⟨honly, hhold, hrest⟩ := holdOn_spec s c (b.f 0 13 8) (b.f 0 23 16)
    simp only [List.forall_mem_cons, List.not_mem_nil, false_imp_iff, implies_true, and_true]
    exact ⟨⟨_, slotOp_shut hopen (run := execWaitt c b) rfl rfl, honly, hhold, hrest⟩,
      ⟨_, slotOp_shut hopen (run := execAdd c b) rfl (by unfold execAdd sclOp; rfl), honly, hhold, hrest⟩,
      ⟨_, slotOp_shut hopen (run := execLoad c b) rfl rfl, honly, hhold, hrest⟩⟩

end

namespace Sys2Proof.Machine

/-! ### Macro slots (R55 to R59, R64) -/

/-- Every row of `macroSlots` issues its slot's word. -/
theorem exec_macroSlot : ∀ e ∈ macroSlots, ∀ (c : CoreId) (b : Bundle) (s : State),
    exec (e.1 c b) s = slotOp c b e.2.1 e.2.2 (fun s => s.issueMacro c e.2.1 (b.word e.2.1)) s := by
  simp only [macroSlots, List.forall_mem_cons, List.not_mem_nil, false_imp_iff, implies_true, and_true]
  repeat' apply And.intro
  all_goals intros; rfl

/-- The slots of `macroSlots` are 3, 4 and 5. -/
theorem macroSlots_slot : ∀ e ∈ macroSlots, e.2.1 = 3 ∨ e.2.1 = 4 ∨ e.2.1 = 5 := by
  simp [macroSlots]

@[simp] theorem tookSlot_j (x : Core) (b : Bundle) (n : Nat) : (x.tookSlot b n).j = x.j := (tookSlot_regs x b n).2.2.2.1
@[simp] theorem tookSlot_bind (x : Core) (b : Bundle) (n : Nat) : (x.tookSlot b n).bind = x.bind := (tookSlot_regs x b n).2.2.2.2.1
@[simp] theorem tookSlot_mtag (x : Core) (b : Bundle) (n : Nat) : (x.tookSlot b n).mtag = x.mtag :=
  (tookSlot_regs x b n).2.2.2.2.2.2.1

/-- The increment that the model reads through a binding. -/
theorem incr_bind (x : Core) (a l : Nat) : x.incr (x.bind.get 0 (4 * a + l)).toNat = boundIncr x a l := by
  unfold Core.incr Core.ir boundIncr
  dsimp only
  split
  · exact (by decide : (0 : Word).signExtend 48 = 0)
  · rfl

theorem advanced_eq (x : Core) (w : BitVec 64) (a : Nat) :
    advanced x w a = x.a.get 0 a + (if mf w 25 23 = 0 then boundIncr x a 0
      else BitVec.ofNat 48 (x.j.get 0 (mf w 25 23 - 1)).toNat * boundIncr x a (mf w 25 23 - 1)) := by
  have h0 : x.incr (x.bind.get 0 (4 * a)).toNat = boundIncr x a 0 := incr_bind x a 0
  unfold advanced
  simp only [incr_bind, h0, Core.ar, Core.jr]
  split <;> rfl

theorem macroReps_zero (x : Core) (w : BitVec 64) : (macroReps x w).any (· = 0) = true ↔ noInstance x w := by
  simp [macroReps, noInstance, Core.jr, BitVec.toNat_eq]

/-- What a slot reads of its core is what the core held before the bundle opened. -/
theorem noInstance_tookSlot (x : Core) (b : Bundle) (n : Nat) (w : BitVec 64) : noInstance (x.tookSlot b n) w ↔ noInstance x w := by
  simp [noInstance]

theorem writeBack_tookSlot (x : Core) (b : Bundle) (n : Nat) (w : BitVec 64) (slot : Nat) :
    writeBack (x.tookSlot b n) w slot = writeBack x w slot := by
  simp [writeBack, boundIncr]

/-- A core with its address registers' writes in flight (R58). -/
def Core.wroteBack (x : Core) (w : BitVec 64) (slot : Nat) : Core := { x with inflight := x.inflight ++ writeBack x w slot }

/-- Writes of address registers, one behind the other. -/
theorem foldl_write (c : CoreId) (slot lat : Nat) (v : Nat → BitVec 48) (l : List Nat) (s : State) :
    OnlyCore s (l.foldl (fun s a => s.write c .a a (v a) slot lat) s) c
      ∧ (l.foldl (fun s a => s.write c .a a (v a) slot lat) s).core c
        = { s.core c with inflight := (s.core c).inflight ++ l.map (fun a => ⟨.a, a, v a, slot, lat⟩) } := by
  induction l generalizing s with
  | nil => exact ⟨.refl s c, by simp⟩
  | cons a l ih =>
    obtain ⟨honly, hcore⟩ := ih (s.write c .a a (v a) slot lat)
    refine ⟨(write_onlyCore s c _ _ _ _ _).trans honly, ?_⟩
    rw [List.foldl_cons, hcore, write_core]
    simp [Core.flies]

/-- The write-back of slots 3 to 5 (R58). -/
def State.wroteBack (s : State) (c : CoreId) (slot : Nat) (w : BitVec 64) : State :=
  if mf w 26 26 = 1 then ((macroA w).dedup).foldl (fun t a => t.write c .a a (advanced (s.core c) w a) slot 2) s else s

theorem wroteBack_spec (s : State) (c : CoreId) (slot : Nat) (w : BitVec 64) :
    OnlyCore s (s.wroteBack c slot w) c ∧ (s.wroteBack c slot w).core c = (s.core c).wroteBack w slot := by
  unfold State.wroteBack Core.wroteBack writeBack
  split
  · obtain ⟨honly, hcore⟩ := foldl_write c slot 2 (advanced (s.core c) w) (macroA w).dedup s
    simp only [advanced_eq] at honly hcore ⊢
    exact ⟨honly, hcore⟩
  · exact ⟨.refl s c, by simp⟩

/-- What slots 3 to 5 do after their write-back. -/
theorem issueMacro_eq (s : State) (c : CoreId) (slot : Nat) (w : BitVec 64) :
    s.issueMacro c slot w
      = if (macroReps (s.core c) w).any (· = 0) then
          (if mf w 14 14 = 1 then
            (s.wroteBack c slot w).signalToken c (mf w 13 8) slot (s.core c).curPc.toNat (s.core c).mtag
          else s.wroteBack c slot w)
        else
          (if slot = 3 then
            ((s.wroteBack c slot w).updCore c (fun x => x.enqueue slot (macroCapture x slot w))).askDma c
          else (s.wroteBack c slot w).updCore c (fun x => x.enqueue slot (macroCapture x slot w))) := rfl

/-- A request to the DMA engine changes no core. -/
theorem askDma_onlyCore {s t : State} {c : CoreId} (h : OnlyCore s t c) : OnlyCore (s.askDma c) (t.askDma c) c := by
  have hask : ∀ y : Cluster, (if y.dmaOrder.contains c.k.val then y else { y with dmaOrder := y.dmaOrder ++ [c.k.val] }).untraced
      = if y.untraced.dmaOrder.contains c.k.val then y.untraced
        else { y.untraced with dmaOrder := y.untraced.dmaOrder ++ [c.k.val] } := by
    intro y
    split
    · next hy => exact (if_pos hy).symm
    · next hy => exact (if_neg hy).symm
  obtain ⟨hrest, hcores, hclusters, hcluster⟩ := h
  refine ⟨congrArg (fun u => { u with clusters := (s.askDma c).clusters }) hrest, hcores, fun k hk => ?_, ?_⟩
  · simp only [State.askDma, State.updCluster_eq, State.cluster_setCluster, if_neg hk]
    exact hclusters k hk
  · simp only [State.askDma, State.updCluster_eq, State.cluster_setCluster, if_true]
    rw [hask, hask, hcluster]

/-- A slot with no repeat count of 0 queues its operation behind its write-back. -/
theorem issueMacro_queues {s : State} {c : CoreId} {slot : Nat} {w : BitVec 64} (h : ¬ noInstance (s.core c) w) :
    OnlyCore (if slot = 3 then s.askDma c else s) (s.issueMacro c slot w) c
      ∧ (s.issueMacro c slot w).core c
        = ((s.core c).wroteBack w slot).enqueue slot (macroCapture ((s.core c).wroteBack w slot) slot w) := by
  obtain ⟨honly, hcore⟩ := wroteBack_spec s c slot w
  rw [issueMacro_eq, if_neg (mt (macroReps_zero _ w).1 h)]
  have hqueue := honly.trans (.of_updCore (s.wroteBack c slot w) c (fun x => x.enqueue slot (macroCapture x slot w)))
  split
  · refine ⟨askDma_onlyCore hqueue, ?_⟩
    rw [← hcore]
    simp [State.askDma]
  · refine ⟨hqueue, ?_⟩
    rw [← hcore]
    simp

/-- A signal below the largest count adds 1 to its token. -/
theorem signalToken_below {s : State} {c : CoreId} {k : Nat} (slot pc : Nat) (mtag : BitVec 16) (h : (s.core c).tok.get 0 k < 255) :
    s.signalToken c k slot pc mtag = s.updCore c (fun x => { x with tok := x.tok.set 0 k (x.tok.get 0 k + 1) }) := by
  rw [State.signalToken, if_neg (by omega)]
  rfl

/-- A slot with a repeat count of 0 signals once, if it signals, behind its write-back. -/
theorem issueMacro_empty {s : State} {c : CoreId} {slot : Nat} {w : BitVec 64} (h : noInstance (s.core c) w)
    (hlow : (s.core c).tok.get 0 (mf w 13 8) < 255) :
    OnlyCore s (s.issueMacro c slot w) c
      ∧ (s.issueMacro c slot w).core c = { (s.core c).wroteBack w slot with
          tok := if mf w 14 14 = 1 then (s.core c).tok.set 0 (mf w 13 8) ((s.core c).tok.get 0 (mf w 13 8) + 1)
            else (s.core c).tok } := by
  obtain ⟨honly, hcore⟩ := wroteBack_spec s c slot w
  rw [issueMacro_eq, if_pos ((macroReps_zero _ w).2 h)]
  split
  · have hlow' : ((s.wroteBack c slot w).core c).tok.get 0 (mf w 13 8) < 255 := by rw [hcore]; exact hlow
    rw [signalToken_below _ _ _ hlow']
    refine ⟨honly.trans (.of_updCore _ c _), ?_⟩
    rw [State.updCore_eq, State.core_setCore, if_pos rfl, hcore]
    rfl
  · exact ⟨honly, hcore⟩

/-- An operation goes to the end of its slot's queue, and nothing else of the core but its count of operations changes. -/
theorem enqueue_spec (y : Core) {slot : Nat} (m : MacroOp) (h : slot = 3 ∨ slot = 4 ∨ slot = 5) :
    (y.enqueue slot m).queueOf (slotEngine slot) = y.queueOf (slotEngine slot) ++ [m]
      ∧ (∀ g, g ≠ slotEngine slot → (y.enqueue slot m).queueOf g = y.queueOf g)
      ∧ (y.enqueue slot m).inflight = y.inflight
      ∧ { y.enqueue slot m with dmaQ := y.dmaQ, matQ := y.matQ, vecQ := y.vecQ, issued := y.issued } = y := by
  rcases h with rfl | rfl | rfl <;> refine ⟨rfl, fun g hg => ?_, rfl, rfl⟩ <;> cases g <;>
    simp_all [slotEngine, Core.enqueue, Core.queueOf]

/-- The opening of a bundle leaves the queues, the writes in flight and the count of operations. -/
theorem tookSlot_queues (x : Core) (b : Bundle) (n : Nat) : (x.tookSlot b n).dmaQ = x.dmaQ ∧ (x.tookSlot b n).matQ = x.matQ
    ∧ (x.tookSlot b n).vecQ = x.vecQ ∧ (x.tookSlot b n).inflight = x.inflight ∧ (x.tookSlot b n).issued = x.issued := by
  unfold Core.tookSlot Core.opened
  split <;> exact ⟨rfl, rfl, rfl, rfl, rfl⟩

theorem queueOf_tookSlot (x : Core) (b : Bundle) (n : Nat) (g : Engine) : (x.tookSlot b n).queueOf g = x.queueOf g := by
  obtain ⟨hdma, hmat, hvec, -, -⟩ := tookSlot_queues x b n
  cases g
  · exact hdma
  · exact hmat
  · exact hvec

theorem queueOf_wroteBack (x : Core) (w : BitVec 64) (slot : Nat) (g : Engine) : (x.wroteBack w slot).queueOf g = x.queueOf g := by
  cases g <;> rfl

/-- What is queued is what the slot read as its bundle opened. -/
theorem macroCapture_queuedAs (x : Core) (b : Bundle) (n slot : Nat) (w : BitVec 64) :
    queuedAs x w (macroCapture ((x.tookSlot b n).wroteBack w slot) slot w) := by
  refine ⟨rfl, tookSlot_wtag x b n, tookSlot_mtag x b n, rfl, ?_, ?_, ?_, ?_⟩
  · simp [macroCapture, macroReps, Core.wroteBack, Core.jr]
  · simp [macroCapture, Core.wroteBack, Core.ar]
  · simp [macroCapture, Core.wroteBack, Core.xr]
  · have hincr : ∀ a l, boundIncr ((x.tookSlot b n).wroteBack w slot) a l = boundIncr x a l := by
      simp [boundIncr, Core.wroteBack]
    refine List.map_congr_left fun a _ => List.map_congr_left fun l _ => ?_
    rw [incr_bind, hincr]

end Sys2Proof.Machine

section
open Sys2Proof Sys2Proof.Machine

/-- Settles O9: the operation stands behind the others of its engine, as `macroCapture` reads it. -/
theorem macroSlotQueues : Obligations.MacroSlotQueues := by
  intro e he s c b w x h hsome
  obtain ⟨u, hexec, hu, honly⟩ := slotOp_stands s c b e.2.1 e.2.2 (fun s => s.issueMacro c e.2.1 w) h
  have hsome' : ¬ noInstance (u.core c) w := by rwa [hu, noInstance_tookSlot]
  obtain ⟨hqueue, hcore⟩ := issueMacro_queues (slot := e.2.1) hsome'
  refine ⟨_, macroCapture ((x.tookSlot b e.2.1).wroteBack w e.2.1) e.2.1 w, (exec_macroSlot e he c b s).trans hexec, ?_,
    macroCapture_queuedAs x b e.2.1 e.2.1 w, ?_⟩
  · refine OnlyCore.trans ?_ hqueue
    split
    · exact askDma_onlyCore honly
    · exact honly
  · rw [hcore, hu]
    obtain ⟨hdma, hmat, hvec, hfly, hissued⟩ := tookSlot_queues x b e.2.1
    obtain ⟨hend, hother, hinflight, hrest⟩ := enqueue_spec ((x.tookSlot b e.2.1).wroteBack w e.2.1)
      (macroCapture ((x.tookSlot b e.2.1).wroteBack w e.2.1) e.2.1 w) (macroSlots_slot e he)
    refine ⟨?_, fun g hg => ?_, hinflight.trans ?_, ?_⟩
    · rw [hend, queueOf_wroteBack, queueOf_tookSlot]
    · rw [hother g hg, queueOf_wroteBack, queueOf_tookSlot]
    · rw [Core.wroteBack, hfly, writeBack_tookSlot]
    · rw [← hdma, ← hmat, ← hvec, ← hfly, ← hissued]
      exact congrArg (fun y : Core => { y with inflight := (x.tookSlot b e.2.1).inflight }) hrest

/-- Settles O10: the one signal finds its token below the largest count. -/
theorem zeroRepeatSignalsOnce : Obligations.ZeroRepeatSignalsOnce := by
  intro e he s c b w x y h hnone hlow
  obtain ⟨u, hexec, hu, honly⟩ := slotOp_stands s c b e.2.1 e.2.2 (fun s => s.issueMacro c e.2.1 w) h
  have hnone' : noInstance (u.core c) w := by rwa [hu, noInstance_tookSlot]
  obtain ⟨hissue, hcore⟩ := issueMacro_empty (slot := e.2.1) hnone' (by rwa [hu])
  refine ⟨_, (exec_macroSlot e he c b s).trans hexec, ?_, honly.trans hissue⟩
  rw [hcore, hu, Core.wroteBack, writeBack_tookSlot]

end

namespace Sys2Proof.Machine

/-! ### Tokens and waits that halt a core (R65, R68, R70) -/

/-- A core whose slot takes effect runs. -/
theorem stands_running {s : State} {c : CoreId} {b : Bundle} {slot op : Nat} (h : Stands s c b slot op) : (s.core c).st = .running := by
  obtain ⟨-, -, ⟨hissue, -⟩ | ⟨-, hst, -⟩⟩ := h
  · exact mayIssue_running hissue
  · exact hst

@[simp] theorem tookSlot_st (x : Core) (b : Bundle) (n : Nat) : (x.tookSlot b n).st = x.st := by
  unfold Core.tookSlot Core.opened
  split <;> rfl

/-- A signal at the largest count halts the core. -/
theorem signalToken_full {s : State} {c : CoreId} {k : Nat} (slot pc : Nat) (mtag : BitVec 16) (h : (s.core c).tok.get 0 k = 255) :
    s.signalToken c k slot pc mtag = s.haltCore c ⟨0x21, slot, false, 5, k, 0, pc, mtag, 0, 0⟩ := by
  rw [State.signalToken, h]
  rfl

/-- The signal of a slot with a repeat count of 0 that finds its token at the largest count. -/
theorem issueMacro_overflow {s : State} {c : CoreId} {slot : Nat} {w : BitVec 64} (h : noInstance (s.core c) w)
    (hsig : mf w 14 14 = 1) (hfull : (s.core c).tok.get 0 (mf w 13 8) = 255) :
    s.issueMacro c slot w = (s.wroteBack c slot w).haltCore c
      ⟨0x21, slot, false, 5, mf w 13 8, 0, (s.core c).curPc.toNat, (s.core c).mtag, 0, 0⟩ := by
  have hfull' : ((s.wroteBack c slot w).core c).tok.get 0 (mf w 13 8) = 255 := by rw [(wroteBack_spec s c slot w).2]; exact hfull
  rw [issueMacro_eq, if_pos ((macroReps_zero _ w).2 h), if_pos hsig, signalToken_full _ _ _ hfull']

/-- A core's waits are timed: a limit is set, and its share runs. -/
def State.timesWaits (s : State) (c : CoreId) : Bool :=
  !((s.core c).waitLimit = 0 || !(match (s.core c).share with
      | some sh => (s.core c).st = .running && (s.ctx c.p sh.ctx).st = .running
      | none => false))

theorem timesWaits_share {s : State} {c : CoreId} {sh : Share} (hsh : (s.core c).share = some sh) (hst : (s.core c).st = .running)
    (hctx : (s.ctx c.p sh.ctx).st = .running) (hlimit : (s.core c).waitLimit ≠ 0) : s.timesWaits c = true := by
  simpa [State.timesWaits, hsh, hst, hctx] using hlimit

theorem waitTimeout_untimed {s : State} {c : CoreId} (h : s.timesWaits c = false) : exec (.waitTimeout c) s = .next s := by
  rw [State.timesWaits, Bool.not_eq_false'] at h
  exact if_pos h

theorem waitTimeout_timed {s : State} {c : CoreId} (h : s.timesWaits c = true) : exec (.waitTimeout c) s
    = match (s.core c).waittOver, (s.core c).waitOver with
      | some h, w => .next (s.haltCore c ⟨0x40, 0, w.isSome, 5, h.tok, 0, (s.core c).pc.toNat, (s.core c).mtag, 0, 0⟩)
      | none, some i => .next (s.haltOp c i.eng i.op i.n 0x40 (i.op.addr 0 i.n))
      | none, none => .next s := by
  rw [State.timesWaits, Bool.not_eq_true'] at h
  exact if_neg (Bool.eq_false_iff.1 h)

/-- A `WAITT` that has waited no longer than the limit. -/
theorem waittOver_within {x : Core} (h : ∀ o, x.hold = some o → o.cycles ≤ x.waitLimit.toNat * 1024) : x.waittOver = none := by
  unfold Core.waittOver
  split
  · next o ho => exact if_neg (by simp [h o ho])
  · rfl

/-- No `WAIT` and no `SEMTAKE` has waited longer than the limit. -/
theorem waitOver_within {x : Core} (h : ∀ i ∈ x.runs, i.held ≤ x.waitLimit.toNat * 1024) : x.waitOver = none :=
  List.find?_eq_none.2 fun i hi => by simp [h i hi]

/-- A halt over an operation, for a cause other than a Datum. -/
theorem haltOp_eq {s : State} {c : CoreId} (e : Engine) (m : MacroOp) (n addr : Nat) {reason : Nat} (hst : (s.core c).st = .running)
    (hr : reason ≠ 0x33) :
    s.haltOp c e m n reason addr
      = s.haltCore c ⟨reason, Engine.slot e, false, 6, 0, 0, m.pc.toNat, m.mtag, addr, m.haltIdx n⟩ := by
  unfold State.haltOp State.haltOpWith
  rw [if_neg (by simp [hst])]
  exact if_neg hr

end Sys2Proof.Machine

section
open Sys2Proof Sys2Proof.Machine

/-- Settles O15: each clause finds the one halt that its hypotheses make due, or none. -/
theorem tokensThatHalt : Obligations.TokensThatHalt := by
  refine ⟨?_, fun s c sh o hsh hst hctx hlimit hhold htok hover => ?_,
    fun s c sh i hsh hst hctx hlimit hhold hruns hop hwait hover => ?_, fun s c h => ?_⟩
  · intro e he s c b w h hnone hsig hfull
    obtain ⟨u, hexec, hu, -⟩ := slotOp_stands s c b e.2.1 e.2.2 (fun s => s.issueMacro c e.2.1 w) h
    rw [issueMacro_overflow (by rwa [hu, noInstance_tookSlot]) hsig (by rwa [hu])] at hexec
    have hback := (wroteBack_spec u c e.2.1 w).2
    obtain ⟨hhalt, -⟩ := haltCore_spec (s := u.wroteBack c e.2.1 w) (c := c)
      ⟨0x21, e.2.1, false, 5, mf w 13 8, 0, (u.core c).curPc.toNat, (u.core c).mtag, 0, 0⟩
      (by rw [hback, hu]; exact (tookSlot_st _ b e.2.1).trans (stands_running h))
    refine ⟨_, (exec_macroSlot e he c b s).trans hexec, hhalt.st, hhalt.kept.hReason_eq, hhalt.kept.hSlot_eq, ?_⟩
    rw [hhalt.kept.tok_eq, hback, hu]
    exact hfull
  · have hwaitt : (s.core c).waittOver = some o := by
      have hne : o.tok ≠ 0xFF := by omega
      simp [Core.waittOver, hhold, hne, hover]
    have hexec := waitTimeout_timed (timesWaits_share hsh hst hctx hlimit)
    simp only [hwaitt] at hexec
    obtain ⟨hhalt, hmem⟩ := haltCore_spec (s := s) (c := c)
      ⟨0x40, 0, (s.core c).waitOver.isSome, 5, o.tok, 0, (s.core c).pc.toNat, (s.core c).mtag, 0, 0⟩ hst
    exact ⟨_, hexec, hhalt.st, hhalt.kept.hReason_eq, hhalt.kept.hFile_eq, hhalt.kept.hReg_eq, hhalt.kept.hPc_eq.trans rfl,
      hhalt.dmaQ, hhalt.runs, hhalt.kept.sp_eq, hhalt.kept.acc_eq, hmem⟩
  · have hwaitt : (s.core c).waittOver = none := waittOver_within fun o ho => absurd (hhold.symm.trans ho) (by simp)
    have hwaits : (s.core c).waitOver = some i := by simp [Core.waitOver, hruns, hop, hwait, hover]
    have hexec := waitTimeout_timed (timesWaits_share hsh hst hctx hlimit)
    simp only [hwaitt, hwaits] at hexec
    rw [haltOp_eq _ _ _ _ hst (by decide)] at hexec
    obtain ⟨hhalt, hmem⟩ := haltCore_spec (s := s) (c := c)
      ⟨0x40, Engine.slot i.eng, false, 6, 0, 0, i.op.pc.toNat, i.op.mtag, i.op.addr 0 i.n, i.op.haltIdx i.n⟩ hst
    exact ⟨_, hexec, hhalt.st, hhalt.kept.hReason_eq, hhalt.kept.hSlot_eq, hhalt.kept.hAddr_eq, hhalt.dmaQ, hhalt.runs,
      hhalt.kept.sp_eq, hhalt.kept.acc_eq, hmem⟩
  · by_cases htimed : s.timesWaits c = true
    · rcases h with hzero | ⟨hhold, hruns⟩
      · simp [State.timesWaits, hzero] at htimed
      · have hexec := waitTimeout_timed htimed
        simpa only [waittOver_within hhold, waitOver_within hruns] using hexec
    · exact waitTimeout_untimed (Bool.eq_false_iff.2 htimed)

end

namespace Sys2Proof.Machine

/-! ## Instances of operations (R64, R65, R81, R90, R109) -/

/-- No byte of stack memory changes, and of no core SP, ACC, the instances or the tokens. -/
structure SameWork (s t : State) : Prop where
  mem : t.mem = s.mem
  core : ∀ d, (t.core d).sp = (s.core d).sp ∧ (t.core d).acc = (s.core d).acc ∧ (t.core d).runs = (s.core d).runs
    ∧ (t.core d).tok = (s.core d).tok

namespace SameWork

theorem refl (s : State) : SameWork s s := ⟨rfl, fun _ => ⟨rfl, rfl, rfl, rfl⟩⟩

theorem trans {s t u : State} (h : SameWork s t) (g : SameWork t u) : SameWork s u :=
  ⟨g.mem.trans h.mem, fun d => by
    obtain ⟨hsp, hacc, hruns, htok⟩ := h.core d
    obtain ⟨gsp, gacc, gruns, gtok⟩ := g.core d
    exact ⟨gsp.trans hsp, gacc.trans hacc, gruns.trans hruns, gtok.trans htok⟩⟩

theorem of_cores {s t : State} (hm : t.mem = s.mem) (hc : t.cores = s.cores) : SameWork s t :=
  ⟨hm, fun d => by rw [State.core_of_cores s t hc d]; exact ⟨rfl, rfl, rfl, rfl⟩⟩

theorem of_updCore (s : State) (c : CoreId) {f : Core → Core} (hf : (f (s.core c)).sp = (s.core c).sp
    ∧ (f (s.core c)).acc = (s.core c).acc ∧ (f (s.core c)).runs = (s.core c).runs ∧ (f (s.core c)).tok = (s.core c).tok) :
    SameWork s (s.updCore c f) :=
  ⟨rfl, fun d => by
    rw [State.updCore_eq, State.core_setCore]
    split
    · next hd => exact hd ▸ hf
    · exact ⟨rfl, rfl, rfl, rfl⟩⟩

theorem of_trace (s : State) (c : CoreId) (type detail pc : Nat) (mtag : BitVec 16) (payload : Nat) :
    SameWork s (s.trace c type detail pc mtag payload) :=
  ⟨(trace_onlyCore s c type detail pc mtag payload).mem_eq, fun d => by rw [trace_core]; exact ⟨rfl, rfl, rfl, rfl⟩⟩

end SameWork

theorem regate_sameWork (s : State) (c : CoreId) : SameWork s (s.regate c) :=
  ⟨rfl, fun d => by
    rw [regate_core]
    split
    · next h => exact h ▸ ⟨rfl, rfl, rfl, rfl⟩
    · exact ⟨rfl, rfl, rfl, rfl⟩⟩

theorem shareEnd_sameWork (s : State) (c : CoreId) : SameWork s (s.shareEnd c) := by
  unfold State.shareEnd
  dsimp only
  split
  · exact .refl s
  · split
    · have hidle : ∀ u : State, SameWork u (u.updCore c fun x => { x with st := .idle, share := none, ended := false }) :=
        fun u => .of_updCore u c ⟨rfl, rfl, rfl, rfl⟩
      exact ((SameWork.of_trace s c _ _ _ _ _).trans (hidle _)).trans (.of_cores rfl rfl)
    · exact .refl s

/-! ### The completion of a move (R65, R109) -/

/-- A completion signals its token: each of them does, or the operation's last one alone. -/
def Core.signalsEnd (x : Core) (i : Inst) : Prop :=
  mf i.op.word 14 14 = 1 ∧ (mf i.op.word 15 15 = 1 ∨ ¬ ∃ m ∈ x.queueOf i.eng, m.num = i.op.num)

/-- The state in which a core's only running operation is gone. -/
def State.withoutInst (s : State) (c : CoreId) (i : Inst) : State :=
  s.updCore c (fun x => { x with runs := x.runs.filter (fun j => j.id ≠ i.id) })

theorem withoutInst_core {s : State} {c : CoreId} {i : Inst} (hruns : (s.core c).runs = [i]) :
    (s.withoutInst c i).core c = { s.core c with runs := [] } := by
  simp [State.withoutInst, hruns]

/-- With nothing left to run, an operation is over once its queue holds it no more. -/
theorem opDone_iff {x : Core} (e : Engine) (num : Nat) (h : x.runs = []) :
    x.opDone e num = true ↔ ¬ ∃ m ∈ x.queueOf e, m.num = num := by
  simp [Core.opDone, h]

/-- The end of an operation that acquires nothing and returns no value, as far as its signal: its trace, and the
state that the signal finds. -/
def State.untilSignal (s : State) (c : CoreId) (i : Inst) : State :=
  let d := s.withoutInst c i
  if (d.core c).opDone i.eng i.op.num then d.trace c 3 (Engine.slot i.eng) i.op.pc.toNat i.op.mtag i.op.count else d

theorem untilSignal_spec {s : State} {c : CoreId} {i : Inst} (hruns : (s.core c).runs = [i]) :
    (s.untilSignal c i).mem = s.mem ∧ (∀ d, ((s.untilSignal c i).core d).sp = (s.core d).sp)
      ∧ (s.untilSignal c i).core c = { s.core c with runs := [] } := by
  have hd : (s.withoutInst c i).mem = s.mem ∧ (∀ d, ((s.withoutInst c i).core d).sp = (s.core d).sp)
      ∧ (s.withoutInst c i).core c = { s.core c with runs := [] } := by
    refine ⟨rfl, fun d => ?_, withoutInst_core hruns⟩
    simp only [State.withoutInst, State.updCore_eq, State.core_setCore]
    split
    · next h => rw [h]
    · rfl
  unfold State.untilSignal
  dsimp only
  split
  · simpa only [trace_core, (trace_onlyCore _ c _ _ _ _ _).mem_eq] using hd
  · exact hd

theorem finishInst_eq {s : State} {i : Inst} (c : CoreId) (hop : i.op.op = 0x04) :
    s.finishInst c i = ((if mf i.op.word 14 14 = 1 && (mf i.op.word 15 15 = 1 || ((s.withoutInst c i).core c).opDone i.eng i.op.num) then
        (s.untilSignal c i).signalToken c (mf i.op.word 13 8) (Engine.slot i.eng) i.op.pc.toNat i.op.mtag
      else s.untilSignal c i).regate c).shareEnd c := by
  have hacquire : s.acquireOf c i.op = s := by simp [State.acquireOf, hop]
  unfold State.finishInst
  simp only [hacquire, hop]
  rfl

/-- The end of a core's only running operation, which acquires nothing and returns no value: nothing runs, and its token grows by 1
where it signals. -/
theorem finishInst_spec {s : State} {c : CoreId} {i : Inst} (hop : i.op.op = 0x04) (hruns : (s.core c).runs = [i])
    (hlow : (s.core c).signalsEnd i → (s.core c).tok.get 0 (mf i.op.word 13 8) < 255) :
    (s.finishInst c i).mem = s.mem ∧ (∀ d, ((s.finishInst c i).core d).sp = (s.core d).sp)
      ∧ ((s.finishInst c i).core c).runs = []
      ∧ ((s.core c).signalsEnd i →
        ((s.finishInst c i).core c).tok.get 0 (mf i.op.word 13 8) = (s.core c).tok.get 0 (mf i.op.word 13 8) + 1)
      ∧ (¬ (s.core c).signalsEnd i → ((s.finishInst c i).core c).tok = (s.core c).tok) := by
  obtain ⟨hmem, hsp, hcore⟩ := untilSignal_spec hruns
  have hwhole := opDone_iff (x := (s.withoutInst c i).core c) i.eng i.op.num (by rw [withoutInst_core hruns])
  have hsignal : (mf i.op.word 14 14 = 1 && (mf i.op.word 15 15 = 1 || ((s.withoutInst c i).core c).opDone i.eng i.op.num)) = true
      ↔ (s.core c).signalsEnd i := by
    have hqueue : ((s.withoutInst c i).core c).queueOf i.eng = (s.core c).queueOf i.eng := by
      rw [withoutInst_core hruns]
      cases i.eng <;> rfl
    rw [hqueue] at hwhole
    simp only [Bool.and_eq_true, Bool.or_eq_true, decide_eq_true_eq, hwhole, Core.signalsEnd]
  rw [finishInst_eq c hop]
  have hend : ∀ u : State, u.mem = s.mem → (∀ d, (u.core d).sp = (s.core d).sp) → (u.core c).runs = [] →
      ((u.regate c).shareEnd c).mem = s.mem ∧ (∀ d, (((u.regate c).shareEnd c).core d).sp = (s.core d).sp)
        ∧ (((u.regate c).shareEnd c).core c).runs = [] ∧ (((u.regate c).shareEnd c).core c).tok = (u.core c).tok := by
    intro u um usp uruns
    have hu := (regate_sameWork u c).trans (shareEnd_sameWork _ c)
    obtain ⟨-, -, hr, ht⟩ := hu.core c
    exact ⟨hu.mem.trans um, fun d => (hu.core d).1.trans (usp d), hr.trans uruns, ht⟩
  by_cases hsig : (s.core c).signalsEnd i
  · rw [if_pos (hsignal.2 hsig), signalToken_below _ _ _ (by rw [hcore]; exact hlow hsig)]
    set u := (s.untilSignal c i).updCore c (fun x =>
      { x with tok := x.tok.set 0 (mf i.op.word 13 8) (x.tok.get 0 (mf i.op.word 13 8) + 1) }) with hu
    have usp : ∀ d, (u.core d).sp = (s.core d).sp := by
      intro d
      rw [← hsp d, hu, State.updCore_eq, State.core_setCore]
      split
      · next hd => rw [hd]
      · rfl
    obtain ⟨h1, h2, h3, h4⟩ := hend u hmem usp (by simp [u, hcore])
    refine ⟨h1, h2, h3, fun _ => ?_, fun h => absurd hsig h⟩
    rw [h4]
    simp [u, hcore]
  · rw [if_neg (mt hsignal.1 hsig)]
    obtain ⟨h1, h2, h3, h4⟩ := hend (s.untilSignal c i) hmem hsp (by rw [hcore])
    exact ⟨h1, h2, h3, fun h => absurd h hsig, fun _ => by rw [h4, hcore]⟩

/-! ### `SPCOPY` (R90) -/

/-- What an `SPCOPY` with good source bytes writes into the other core. -/
theorem runPart_spcopy {s : State} {c : CoreId} {i : Inst} (hop : i.op.op = 0x04) (hdir : mf i.op.word 42 42 = 0)
    (hclean : (s.core c).spErr = []) (lo hi : Nat) (last : Bool) :
    s.runPart c i lo hi last = .done (s.spWrite (copyTo c i) (i.op.addr 1 i.n + lo)
      ((s.core c).sp.getMany 0 (i.op.addr 0 i.n + lo) (hi - lo))) := by
  have hidle : i.op.idle = false := by simp [MacroOp.idle, hop]
  have hcheck : s.spCheck c (i.op.addr 0 i.n + lo) (hi - lo) = (s, none) := spCheckIf_clean (by simp [hclean])
  have hraw : s.runRaw c i lo hi last = .done (s.spWrite (copyTo c i) (i.op.addr 1 i.n + lo)
      ((s.core c).sp.getMany 0 (i.op.addr 0 i.n + lo) (hi - lo))) := by
    simp only [State.runRaw, hidle, hop, State.runSpcopy, hdir, if_true, hcheck]
    rfl
  simp only [State.runPart, hraw]

/-- A core's engines run. -/
theorem enginesOn_run {s : State} {c : CoreId} (h : enginesOn s c) : s.enginesRun c = true := by
  obtain ⟨sh, hsh, hst, hctx, hpll⟩ := h
  simp [State.enginesRun, hsh, hst, hctx, hpll]

end Sys2Proof.Machine

section
open Sys2Proof Sys2Proof.Machine

/-- Settles O13: the copy's last part is one write into the other core's SP, and its end touches no byte of SP. -/
theorem spcopyCompletes : Obligations.SpcopyCompletes := by
  intro s c i hcopy d x n src signals hphase hlow
  obtain ⟨hon, hruns, heng, hop, hdir, hst, hprog, hclean, hflips⟩ := hcopy
  have hinst : x.inst i.id = some i := by simp [x, Core.inst, hruns]
  have hdirect : i.op.direct = true := by simp [MacroOp.direct, MacroOp.remote, MacroOp.reduces, MacroOp.orders, hop]
  have hends : (s.core c).mayEnd i = true := by simp [Core.mayEnd, hst, hdirect, hruns]
  have hphase' : ((s.core c).tokPhase = 0 || mf i.op.word 14 14 = 0 : Bool) = true := by
    have hbit : mf i.op.word 14 14 < 2 := bits_lt _ 14 14
    by_cases h0 : mf i.op.word 14 14 = 0
    · simp [h0]
    · simp [show (s.core c).tokPhase = 0 from hphase (by omega)]
  have hlen : s.workLen c i = i.op.x 0 := by simp [State.workLen, MacroOp.idle, hop]
  have hwrite := runPart_spcopy (s := s) (c := c) hop hdir hclean i.progress (s.workLen c i) true
  rw [hlen, spWrite_unflipped _ _ _ hflips] at hwrite
  set u := s.updCore d (fun y => y.spWrite (i.op.addr 1 i.n + i.progress) src) with hu
  have hexec : exec (.macroComplete c i.id) s = .next (u.finishInst c i) := by
    show execMacroComplete c i.id s = _
    simp only [execMacroComplete, show (s.core c).inst i.id = some i from hinst, enginesOn_run hon, hends, hphase', hst, hlen,
      hwrite, State.endPart]
    rfl
  have hcore : (u.core c).runs = [i] ∧ (u.core c).tok = x.tok ∧ (u.core c).dmaQ = x.dmaQ := by
    rw [hu, State.updCore_eq, State.core_setCore]
    split
    · next hd => exact ⟨hd ▸ hruns, congrArg (fun e => (s.core e).tok) hd.symm, congrArg (fun e => (s.core e).dmaQ) hd.symm⟩
    · exact ⟨hruns, rfl, rfl⟩
  obtain ⟨huruns, hutok, hudma⟩ := hcore
  have hsignals : (u.core c).signalsEnd i ↔ signals := by simp only [Core.signalsEnd, signals, heng, Core.queueOf, hudma]
  obtain ⟨hmem, hsp, hnone, hsig, hnot⟩ := finishInst_spec hop huruns (fun h => hutok ▸ hlow (hsignals.1 h))
  refine ⟨_, hexec, fun k => ?_, hnone, fun h => ?_, fun h => ?_, hmem⟩
  · have hholds := spHolds_spWrite (s.core d) (i.op.addr 1 i.n + i.progress) src k
    have hud : u.core d = (s.core d).spWrite (i.op.addr 1 i.n + i.progress) src := by
      rw [hu, State.updCore_eq, State.core_setCore, if_pos rfl]
    rw [hsp d, hud]
    exact hholds
  · rw [hsig (hsignals.2 h), hutok]
  · rw [hnot (mt hsignals.1 h), hutok]

end

namespace Sys2Proof.Machine

/-! ### Starts (R56, R64 to R66, R81) -/

/-- An operation of the ME's drain or of the VE: it works in its core's SP and ACC alone. -/
def MacroOp.drainOrVec (m : MacroOp) : Prop := m.op = 0x41 ∨ 0x80 ≤ m.op

/-- An operation has still to await its token. -/
def MacroOp.awaits (m : MacroOp) : Bool := mf m.word 22 22 = 1 && !m.waited

theorem awaits_iff (m : MacroOp) : m.awaits = true ↔ mf m.word 22 22 = 1 ∧ m.waited = false := by simp [MacroOp.awaits]

theorem firstCheck_mem {l : List (Option Bad)} {r : Bad} (h : firstCheck l = some r) : some r ∈ l := by
  have hfold : ∀ (bs : List Bad) (o : Option Bad), bs.foldl (fun r b => match r with
      | none => some b
      | some a => if b.1 < a.1 then some b else some a) o = some r → o = some r ∨ r ∈ bs := by
    intro bs
    induction bs with
    | nil => exact fun o ho => Or.inl ho
    | cons b bs ih =>
      intro o ho
      rcases ih _ ho with hb | hb
      · have hkept : o = some r ∨ r = b := by
          cases o with
          | none => exact Or.inr (Option.some.inj hb).symm
          | some a =>
            simp only at hb
            split at hb
            · exact Or.inr (Option.some.inj hb).symm
            · exact Or.inl hb
        rcases hkept with ho | hr
        · exact Or.inl ho
        · exact Or.inr (hr ▸ List.mem_cons_self)
      · exact Or.inr (List.mem_cons_of_mem _ hb)
  rcases hfold _ none h with hn | hmem
  · cases hn
  · simpa using hmem

theorem bounds_code {bad : Bool} {a : Nat} {r : Bad} (h : bounds bad a = some r) : r.1 = 0x12 := by
  unfold bounds at h
  split at h
  · rw [← Option.some.inj h]
  · cases h

/-- What a `MDRAIN` or a VEC operation fails for is `BOUNDS` (R81). -/
theorem drainOrVecCheck_code {m : MacroOp} {r : Bad} (h : drainOrVecCheck m = some r) : r.1 = 0x12 := by
  unfold drainOrVecCheck at h
  split at h
  · have hmem := firstCheck_mem h
    simp only [List.mem_cons, List.not_mem_nil, or_false] at hmem
    rcases hmem with hr | hr <;> exact bounds_code hr.symm
  · split at h
    · cases h
    · have hmem := firstCheck_mem h
      simp only [List.mem_append, List.mem_cons, List.not_mem_nil, or_false, List.mem_map] at hmem
      rcases hmem with ((hr | hr | hr | hr) | ⟨v, -, hr⟩) | ⟨v, -, hr⟩
      · exact bounds_code hr.symm
      · exact bounds_code hr.symm
      · exact bounds_code hr.symm
      · exact bounds_code hr.symm
      · exact bounds_code hr
      · exact bounds_code hr

theorem startCheck_drainOrVec (s : State) (c : CoreId) {m : MacroOp} (h : m.drainOrVec) :
    s.startCheck c m m.next = drainOrVecCheck m := by
  unfold State.startCheck drainOrVecCheck
  rcases h with h | h
  · have hidle : m.idle = false := by simp [MacroOp.idle, h]
    simp [hidle, h]
  · rw [if_neg (show m.op ≠ 0x41 by omega)]
    split
    · rfl
    · split
      case h_11 => exact if_neg (by omega)
      all_goals omega

theorem launch_drainOrVec (s : State) (c : CoreId) (id n : Nat) {m : MacroOp} (h : m.drainOrVec) :
    s.launch c id m n = (s, .running) := by
  have hreduces : m.reduces = false := by
    unfold MacroOp.drainOrVec at h
    simp only [MacroOp.reduces, Bool.or_eq_false_iff, Bool.and_eq_false_iff, decide_eq_false_iff_not]
    omega
  have hop : 0x41 ≤ m.op := h.elim (fun h => h.ge) (by omega)
  unfold State.launch
  extract_lets x w span
  split
  · rfl
  · split
    case h_9 => simp only [hreduces]; simp; omega
    case h_10 => rfl
    all_goals omega

/-- The number that a start takes is none of the running or stopping instances'. -/
theorem freshId_fresh (x : Core) : (∀ j ∈ x.runs, j.id ≠ x.freshId) ∧ ∀ j ∈ x.stopping, j.inst.id ≠ x.freshId := by
  unfold Core.freshId
  extract_lets ids
  have hfresh : ((List.range (ids.length + 1)).find? (fun k => !(ids.contains k))).getD 0 ∉ ids := by
    cases hfind : (List.range (ids.length + 1)).find? (fun k => !(ids.contains k)) with
    | some k => simpa using List.find?_some hfind
    | none =>
      have hall : List.range (ids.length + 1) ⊆ ids := fun k hk => by
        simpa using List.find?_eq_none.1 hfind k hk
      have hlen := (List.nodup_range.subperm hall).length_le
      rw [List.length_range] at hlen
      omega
  exact ⟨fun j hj h => hfresh (h ▸ List.mem_append_left _ (List.mem_map_of_mem hj)),
    fun j hj h => hfresh (h ▸ List.mem_append_right _ (List.mem_map.2 ⟨j, hj, rfl⟩))⟩

/-- The state in which the operands of a start are checked: the token that the operation awaits has lost 1, and its first start is
traced (R65, R72). -/
def State.tokenTaken (s : State) (c : CoreId) (e : Engine) (m : MacroOp) : State :=
  let s := if m.awaits then s.updCore c (fun x => { x with
    tok := x.tok.set 0 (mf m.word 21 16) (x.tok.get 0 (mf m.word 21 16) - 1), tokPhase := Engine.slot e - 1 }) else s
  if m.next = 0 then s.trace c 2 (Engine.slot e) m.pc.toNat m.mtag (m.addr 0 0) else s

/-- The core in that state. -/
def Core.tokenTaken (x : Core) (e : Engine) (m : MacroOp) : Core :=
  if m.awaits then { x with
    tok := x.tok.set 0 (mf m.word 21 16) (x.tok.get 0 (mf m.word 21 16) - 1), tokPhase := Engine.slot e - 1 } else x

theorem tokenTaken_spec (s : State) (c : CoreId) (e : Engine) (m : MacroOp) :
    (s.tokenTaken c e m).core c = (s.core c).tokenTaken e m ∧ (s.tokenTaken c e m).mem = s.mem := by
  unfold State.tokenTaken Core.tokenTaken
  extract_lets +onlyGivenNames a
  have ha : a.core c = (s.core c).tokenTaken e m ∧ a.mem = s.mem := by
    unfold a Core.tokenTaken
    split
    · rw [State.updCore_eq, State.core_setCore, if_pos rfl]
      exact ⟨rfl, rfl⟩
    · exact ⟨rfl, rfl⟩
  clear_value a
  split
  · exact ⟨(trace_core ..).trans ha.1, ((trace_onlyCore ..).mem_eq).trans ha.2⟩
  · exact ha

/-- A core whose engine has started the operation at the head of its queue once more. -/
def Core.started (x : Core) (e : Engine) (m : MacroOp) (i : Inst) : Core :=
  { x.updQueue e (fun q => if m.next + 1 < m.count then { m with next := m.next + 1, waited := true } :: q.drop 1 else q.drop 1) with
    runs := x.runs ++ [i] }

/-- A start whose token is there: the operands are checked, and the operation runs. -/
theorem startNext_eq {s : State} {c : CoreId} {e : Engine} {m : MacroOp} (h : m.drainOrVec)
    (htok : m.awaits = true → 0 < (s.core c).tok.get 0 (mf m.word 21 16)
      ∧ (s.core c).regFault 5 (mf m.word 21 16) = false ∧ (s.core c).tokPhase ≤ Engine.slot e - 1) :
    s.startNext c e m = match drainOrVecCheck m with
      | some b => (s.tokenTaken c e m).haltOp c e m m.next b.1 b.2
      | none => ((s.tokenTaken c e m).updCore c fun x =>
          x.started e m ⟨(s.core c).freshId, e, m, m.next, .running, 0, 0, [], [], [], 0⟩).updInst c (s.core c).freshId
            fun i => { i with st := .running } := by
  have hreduces : m.reduces = false := by
    unfold MacroOp.drainOrVec at h
    simp only [MacroOp.reduces, Bool.or_eq_false_iff, Bool.and_eq_false_iff, decide_eq_false_iff_not]
    omega
  have hop : 0x41 ≤ m.op := h.elim (fun h => h.ge) (by omega)
  have hblocked : (m.awaits && ((s.core c).tok.get 0 (mf m.word 21 16) = 0 || Engine.slot e - 1 < (s.core c).tokPhase)) = false := by
    cases ha : m.awaits with
    | false => rfl
    | true =>
      obtain ⟨hpos, -, hphase⟩ := htok ha
      simp; omega
  have hparity : (m.awaits && (s.core c).regFault 5 (mf m.word 21 16)) = false := by
    cases ha : m.awaits with
    | false => rfl
    | true => exact (htok ha).2.1
  have htrav : (m.op = 0x08 && mf m.word 43 38 = 63 : Bool) = false := by simp; omega
  have htaints : (m.reduces || m.op = 0x11 || m.op = 0x04 || m.op = 0x18 || m.op = 0x1B || m.op = 0x1C : Bool) = false := by
    simp [hreduces]; omega
  rw [State.startNext]
  extract_lets +onlyGivenNames u v id m' route taints w y r
  have hroute : route = [] := if_neg (Bool.eq_false_iff.1 htrav)
  have hy : y = w := by
    unfold y
    split
    · exact if_neg (Bool.eq_false_iff.1 htaints)
    · rfl
  have hr : r = (w, .running) := hy ▸ launch_drainOrVec y c id m.next h
  have hw : w = v.updCore c fun x => x.started e m ⟨id, e, m, m.next, .running, 0, 0, [], [], [], 0⟩ := by
    unfold w
    rw [hroute]
    rfl
  refine (if_neg (Bool.eq_false_iff.1 hblocked)).trans ((if_neg (Bool.eq_false_iff.1 hparity)).trans ?_)
  rw [startCheck_drainOrVec v c h, hr, hw]
  rfl

/-- An engine that may start the operation at the head of its queue. -/
theorem headReady_starts {s : State} {c : CoreId} {e : Engine} {m : MacroOp} {q : List MacroOp} (h : headReady s c e m q) :
    exec (.macroInstanceStart c e) s = .next (s.startNext c e m) := by
  obtain ⟨⟨sh, hsh, hst, hctx, hpll⟩, hqueue, hungated, hfree, hop, hstx, -⟩ := h
  have hdma : e ≠ .dma := by rcases hop with ⟨rfl, -⟩ | ⟨rfl, -⟩ <;> decide
  have htrav : m.op ≠ 0x08 := by rcases hop with ⟨-, h⟩ | ⟨-, h⟩ <;> omega
  have hengine : (s.core c).engineFree e = true := by
    have hnone : (s.core c).runs.any (fun i => i.eng = e) = false := by simpa using hfree
    have hparked : (s.core c).runs.any (fun i => i.st = .parked && i.eng = e) = false := by
      simpa using fun i hi _ => hfree i hi
    cases e with
    | dma => exact absurd rfl hdma
    | mat => simp only [Core.engineFree, hparked, hnone]; rfl
    | vec => simp only [Core.engineFree, hparked, hnone]; rfl
  have hmay : s.mayStart c e = some m := by
    simp [State.mayStart, hsh, hqueue, hst, hctx, hpll, hungated, hengine, hstx, htrav]
  show execMacroInstanceStart c e s = _
  simp only [execMacroInstanceStart, hmay]
  exact if_neg hdma

theorem started_queueOf (x : Core) (e : Engine) (m : MacroOp) (i : Inst) : (x.started e m i).queueOf e
    = if m.next + 1 < m.count then { m with next := m.next + 1, waited := true } :: (x.queueOf e).drop 1 else (x.queueOf e).drop 1 := by
  cases e <;> rfl

theorem started_rest (x : Core) (e : Engine) (m : MacroOp) (i : Inst) :
    (x.started e m i).tok = x.tok ∧ (x.started e m i).sp = x.sp ∧ (x.started e m i).acc = x.acc := by
  cases e <;> exact ⟨rfl, rfl, rfl⟩

/-- What an engine has started is the only one of its number. -/
theorem started_updInst_runs (x : Core) (e : Engine) (m : MacroOp) (i : Inst) (f : Inst → Inst) (h : ∀ j ∈ x.runs, j.id ≠ i.id) :
    ((x.started e m i).updInst i.id f).runs = x.runs ++ [f i] := by
  have hold : x.runs.map (fun j => if j.id = i.id then f j else j) = x.runs := by
    conv_rhs => rw [← List.map_id x.runs]
    exact List.map_congr_left fun j hj => if_neg (h j hj)
  simp only [Core.updInst, Core.started, List.map_append, hold, List.map_cons, List.map_nil, if_true]

theorem tokenTaken_rest (x : Core) (e : Engine) (m : MacroOp) : (x.tokenTaken e m).queueOf e = x.queueOf e
    ∧ (x.tokenTaken e m).runs = x.runs ∧ (x.tokenTaken e m).sp = x.sp ∧ (x.tokenTaken e m).acc = x.acc
    ∧ (x.tokenTaken e m).st = x.st := by
  unfold Core.tokenTaken
  split
  · exact ⟨by cases e <;> rfl, rfl, rfl, rfl, rfl⟩
  · exact ⟨rfl, rfl, rfl, rfl, rfl⟩

end Sys2Proof.Machine

section
open Sys2Proof Sys2Proof.Machine

/-- Settles O12: a `MDRAIN` or VEC operation whose head is ready starts or fails by its own check alone; a halt leaves SP, ACC
and memory. -/
theorem instanceStarts : Obligations.InstanceStarts := by
  intro s c e m q h x
  have hstart := headReady_starts h
  obtain ⟨⟨-, -, hst, -⟩, hqueue, -, -, hop, -, htok⟩ := h
  have hlocal : m.drainOrVec := hop.imp And.right And.right
  rw [startNext_eq hlocal fun h => htok ((awaits_iff m).1 h).1 ((awaits_iff m).1 h).2] at hstart
  obtain ⟨hcore, hmem⟩ := tokenTaken_spec s c e m
  obtain ⟨hq, hruns, hsp, hacc, hst'⟩ := tokenTaken_rest x e m
  refine ⟨fun hgood => ?_, fun r hbad => ?_⟩
  · have hfresh : ∀ j ∈ (x.tokenTaken e m).runs, j.id ≠ x.freshId := hruns ▸ (freshId_fresh x).1
    set i : Inst := ⟨x.freshId, e, m, m.next, .running, 0, 0, [], [], [], 0⟩
    obtain ⟨gtok, gsp, gacc⟩ := started_rest (x.tokenTaken e m) e m i
    rw [hgood] at hstart
    set t := ((s.tokenTaken c e m).updCore c fun x => x.started e m i).updInst c x.freshId fun i => { i with st := .running }
    have ht : t.core c = ((x.tokenTaken e m).started e m i).updInst i.id fun i => { i with st := .running } := by
      unfold t
      rw [State.updInst, State.updCore_eq, State.core_setCore, if_pos rfl, State.updCore_eq, State.core_setCore, if_pos rfl, hcore]
    have hqueueOf : ∀ (y : Core) n f, (y.updInst n f).queueOf e = y.queueOf e := by intros; cases e <;> rfl
    refine ⟨t, i, hstart, ?_, rfl, rfl, rfl, rfl, rfl, (freshId_fresh x).1, ?_, ?_, ?_, ?_, hmem⟩
    · rw [ht, started_updInst_runs _ e m i _ hfresh, hruns]
    · rw [ht, hqueueOf, started_queueOf, hq, hqueue]
      rfl
    · have hawaits : (x.tokenTaken e m).tok = if mf m.word 22 22 = 1 ∧ m.waited = false
          then x.tok.set 0 (mf m.word 21 16) (x.tok.get 0 (mf m.word 21 16) - 1) else x.tok := by
        simp only [Core.tokenTaken, awaits_iff]
        split <;> rfl
      rw [ht, ← hawaits, ← gtok]
      rfl
    · rw [ht, ← hsp, ← gsp]
      rfl
    · rw [ht, ← hacc, ← gacc]
      rfl
  · have hcode := drainOrVecCheck_code hbad
    obtain ⟨code, addr⟩ := r
    subst hcode
    simp only [hbad] at hstart
    have hrun : ((s.tokenTaken c e m).core c).st = .running := by rw [hcore, hst', hst]
    rw [haltOp_eq e m m.next addr hrun (by decide)] at hstart
    obtain ⟨hhalt, hkept⟩ := haltCore_spec
      ⟨0x12, Engine.slot e, false, 6, 0, 0, m.pc.toNat, m.mtag, addr, m.haltIdx m.next⟩ hrun
    refine ⟨_, hstart, hhalt.st, hhalt.kept.hReason_eq, hhalt.kept.hAddr_eq, ?_, hhalt.runs, ?_, ?_, hkept.trans hmem⟩
    · rcases hop with ⟨rfl, -⟩ | ⟨rfl, -⟩ <;> exact hhalt.kept.hSlot_eq
    · rw [hhalt.kept.sp_eq, ← hsp, ← hcore]
      rfl
    · rw [hhalt.kept.acc_eq, ← hacc, ← hcore]
      rfl

end

namespace Sys2Proof.Machine

/-! ## The end of a core cycle (R60 to R62) -/

@[simp] theorem reg_i_zero (x : Core) : x.reg .i 0 = 0 := by simp [Core.reg, Core.ir]

/-- A write that lands gives its register its value; I0 ignores it (R49). -/
theorem land_reg_hit (x : Core) {w : RegWrite} {f : RegFile} {n : Nat} (h : w.hits f n) (h0 : ¬ (f = .i ∧ n = 0)) :
    (x.land w).reg f n = f.keep w.val := by
  obtain ⟨file, idx, val, slot, left⟩ := w
  obtain ⟨rfl, hidx⟩ := h
  cases file with
  | mtag => rfl
  | i =>
    obtain rfl : idx = n := by simpa using hidx
    have hne : idx ≠ 0 := fun h => h0 ⟨rfl, h⟩
    simp [Core.land, Core.reg, Core.ir, RegFile.keep, hne]
  | _ =>
    obtain rfl : idx = n := by simpa using hidx
    simp [Core.land, Core.reg, RegFile.keep]

/-- A write that lands changes no other register. -/
theorem land_reg_other (x : Core) {w : RegWrite} {f : RegFile} {n : Nat} (h : ¬ w.hits f n) : (x.land w).reg f n = x.reg f n := by
  obtain ⟨file, idx, val, slot, left⟩ := w
  by_cases hf : file = f
  · subst hf
    have hmtag : file ≠ .mtag := fun hm => h ⟨rfl, Or.inl hm⟩
    have hidx : n ≠ idx := fun hn => h ⟨rfl, Or.inr hn.symm⟩
    cases file with
    | mtag => exact absurd rfl hmtag
    | i =>
      simp only [Core.land]
      split
      · rfl
      · simp [Core.reg, Core.ir, hidx]
    | _ => simp [Core.land, Core.reg, hidx]
  · cases file with
    | i =>
      simp only [Core.land]
      split
      · cases f <;> rfl
      · cases f with
        | i => exact absurd rfl hf
        | _ => rfl
    | _ => cases f <;> simp_all [Core.land, Core.reg, Core.ir]

theorem foldl_land_other (ws : List RegWrite) (x : Core) {f : RegFile} {n : Nat} (h : ∀ w ∈ ws, ¬ w.hits f n) :
    (ws.foldl Core.land x).reg f n = x.reg f n := by
  induction ws generalizing x with
  | nil => rfl
  | cons w ws ih =>
    rw [List.foldl_cons, ih _ fun v hv => h v (List.mem_cons_of_mem _ hv), land_reg_other x (h w List.mem_cons_self)]

/-- Of several writes of a register, the last one stands. -/
theorem foldl_land_last (ws vs : List RegWrite) (x : Core) {w : RegWrite} {f : RegFile} {n : Nat} (h : w.hits f n)
    (h0 : ¬ (f = .i ∧ n = 0)) (hvs : ∀ v ∈ vs, ¬ v.hits f n) : ((ws ++ w :: vs).foldl Core.land x).reg f n = f.keep w.val := by
  rw [List.foldl_append, List.foldl_cons, foldl_land_other vs _ hvs, land_reg_hit _ h h0]

/-- What a write that lands leaves of its core. -/
theorem land_rest (x : Core) (w : RegWrite) : (x.land w).sp = x.sp ∧ (x.land w).acc = x.acc := by
  obtain ⟨file, idx, val, slot, left⟩ := w
  cases file with
  | i =>
    simp only [Core.land]
    split <;> exact ⟨rfl, rfl⟩
  | _ => exact ⟨rfl, rfl⟩

theorem foldl_land_rest (ws : List RegWrite) (x : Core) :
    (ws.foldl Core.land x).sp = x.sp ∧ (ws.foldl Core.land x).acc = x.acc := by
  induction ws generalizing x with
  | nil => exact ⟨rfl, rfl⟩
  | cons w ws ih =>
    obtain ⟨hsp, hacc⟩ := land_rest x w
    obtain ⟨gsp, gacc⟩ := ih (x.land w)
    exact ⟨gsp.trans hsp, gacc.trans hacc⟩

/-- What lands stood in flight, with no core cycle left. -/
theorem mem_due {x : Core} {w : RegWrite} (h : w ∈ x.due) : w ∈ x.inflight ∧ w.left ≤ 1 := by
  simp only [Core.due, List.mem_flatMap, List.mem_filter, decide_eq_true_eq] at h
  obtain ⟨-, -, hw, -⟩ := h
  exact hw

/-- A write that no later one of its slot, and none of a higher slot, follows lands last of those that `p` picks. -/
theorem due_last {x : Core} {l r : List RegWrite} {w : RegWrite} (p : RegWrite → Prop) (hx : x.inflight = l ++ w :: r)
    (hslot : w.slot < 6) (hleft : w.left ≤ 1) (hl : ∀ v ∈ l, v.left ≤ 1 → p v → v.slot ≤ w.slot)
    (hr : ∀ v ∈ r, v.left ≤ 1 → p v → v.slot < w.slot) : ∃ ws vs, x.due = ws ++ w :: vs ∧ ∀ v ∈ vs, ¬ p v := by
  obtain ⟨lo, hi, hrange⟩ := List.append_of_mem (List.mem_range.2 hslot)
  have hhi : ∀ n ∈ hi, w.slot < n := by
    have hsorted := List.pairwise_lt_range (n := 6)
    rw [hrange, List.pairwise_append] at hsorted
    exact (List.pairwise_cons.1 hsorted.2.1).1
  set of : Nat → List RegWrite → List RegWrite := fun n q => (q.filter (fun w => w.left ≤ 1)).filter (fun w => w.slot = n) with hof
  have hmem : ∀ {n q v}, v ∈ of n q → v ∈ q ∧ v.left ≤ 1 ∧ v.slot = n := by
    intro n q v hv
    obtain ⟨hv, hs⟩ := List.mem_filter.1 hv
    obtain ⟨hv, hl⟩ := List.mem_filter.1 hv
    exact ⟨hv, of_decide_eq_true hl, of_decide_eq_true hs⟩
  have hdue : x.due = (lo.flatMap (fun n => of n x.inflight) ++ of w.slot l) ++ w ::
      (of w.slot r ++ hi.flatMap (fun n => of n x.inflight)) := by
    have hmid : of w.slot x.inflight = of w.slot l ++ w :: of w.slot r := by simp [hof, hx, hleft]
    show (List.range 6).flatMap (fun n => of n x.inflight) = _
    rw [hrange, List.flatMap_append, List.flatMap_cons, hmid]
    simp only [List.append_assoc, List.cons_append]
  refine ⟨_, _, hdue, fun v hv hp => ?_⟩
  rcases List.mem_append.1 hv with hv | hv
  · obtain ⟨hvr, hvl, hvs⟩ := hmem hv
    exact absurd (hr v hvr hvl hp) (by omega)
  · obtain ⟨n, hn, hv⟩ := List.mem_flatMap.1 hv
    obtain ⟨hvx, hvl, rfl⟩ := hmem hv
    have hlt := hhi _ hn
    rw [hx, List.mem_append, List.mem_cons] at hvx
    rcases hvx with hv | rfl | hv
    · exact absurd (hl v hv hvl hp) (by omega)
    · exact absurd hlt (by omega)
    · exact absurd (hr v hv hvl hp) (by omega)

/-- A register after a core cycle's end is as the landing writes leave it. -/
theorem endCycle_reg (x : Core) (f : RegFile) (n : Nat) : x.endCycle.reg f n = (x.due.foldl Core.land x).reg f n := by
  cases f <;> rfl

/-! ### The end of a cluster's core cycle -/

/-- A core whose share has completed. -/
def Core.freed (x : Core) : Core := { x with st := .idle, share := none, ended := false }

/-- A share's end changes its own core alone. -/
theorem shareEnd_core (s : State) (c d : CoreId) :
    (s.shareEnd c).core d = s.core d ∨ d = c ∧ (s.shareEnd c).core d = (s.core d).freed := by
  unfold State.shareEnd
  dsimp only
  split
  · exact Or.inl rfl
  · split
    · have hcore : ∀ u : State, (u.updCore c Core.freed).core d = if d = c then (u.core c).freed else u.core d := fun u => by
        rw [State.updCore_eq, State.core_setCore]
      have htrace := hcore (s.trace c 9 0 (s.core c).curPc.toNat (s.core c).mtag 0)
      rw [trace_core, trace_core] at htrace
      by_cases hd : d = c
      · subst hd
        exact Or.inr ⟨rfl, htrace.trans (if_pos rfl)⟩
      · exact Or.inl (htrace.trans (if_neg hd))
    · exact Or.inl rfl

/-- The cycle counts and stack memory stand. -/
def SameClock (s t : State) : Prop := t.mem = s.mem ∧ ∀ k, (t.cluster k).cycle = (s.cluster k).cycle

theorem SameClock.trans {s t u : State} (h : SameClock s t) (g : SameClock t u) : SameClock s u :=
  ⟨g.1.trans h.1, fun k => (g.2 k).trans (h.2 k)⟩

theorem shareEnd_sameClock (s : State) (c : CoreId) : SameClock s (s.shareEnd c) := by
  refine ⟨(shareEnd_sameWork s c).mem, fun k => ?_⟩
  unfold State.shareEnd
  dsimp only
  split
  · rfl
  · split
    · have htrace := trace_onlyCore s c 9 0 (s.core c).curPc.toNat (s.core c).mtag 0
      show ((s.trace c 9 0 _ _ 0).cluster k).cycle = _
      by_cases hk : k = c.cluster
      · exact hk ▸ htrace.cycle_eq
      · rw [htrace.2.2.1 k hk]
    · rfl

/-- One core's turn at the end of its cluster's core cycle. -/
def State.endTurn (s : State) (c : CoreId) : State := (s.updCore c Core.endCycle).shareEnd c

theorem endTurn_sameClock (s : State) (c : CoreId) : SameClock s (s.endTurn c) :=
  SameClock.trans (t := s.updCore c Core.endCycle) ⟨rfl, fun _ => rfl⟩ (shareEnd_sameClock _ c)

theorem endTurn_other (s : State) (c d : CoreId) (h : d ≠ c) : (s.endTurn c).core d = s.core d := by
  have hend : (s.updCore c Core.endCycle).core d = s.core d := by rw [State.updCore_eq, State.core_setCore, if_neg h]
  rcases shareEnd_core (s.updCore c Core.endCycle) c d with hc | ⟨hc, -⟩
  · exact hc.trans hend
  · exact absurd hc h

theorem endTurn_self (s : State) (c : CoreId) :
    (s.endTurn c).core c = (s.core c).endCycle ∨ (s.endTurn c).core c = (s.core c).endCycle.freed := by
  have hend : (s.updCore c Core.endCycle).core c = (s.core c).endCycle := by
    rw [State.updCore_eq, State.core_setCore, if_pos rfl]
  have hturn := shareEnd_core (s.updCore c Core.endCycle) c c
  rw [hend] at hturn
  exact hturn.imp id And.right

theorem cluster_of_mem_coresOf {cl : ClusterId} {c : CoreId} (h : c ∈ coresOf cl) : c.cluster = cl := by
  obtain ⟨k, -, rfl⟩ := List.mem_map.1 h
  rfl

/-- A core cycle of a cluster ends: each of its cores takes its turn. -/
theorem writeLands_core {s : State} {cl : ClusterId} (hpll : (s.part cl.p).pll = .running)
    (hslots : ∀ d : CoreId, d.cluster = cl → (s.core d).slotsLeft = false) (k : Fin 9) :
    ∃ t, exec (.writeLands cl) s = .next t ∧ (t.cluster cl).cycle = (s.cluster cl).cycle + 1 ∧ t.mem = s.mem
      ∧ ∃ u, SameClock s u ∧ u.core ⟨cl.p, cl.c, k⟩ = s.core ⟨cl.p, cl.c, k⟩
        ∧ t.core ⟨cl.p, cl.c, k⟩ = (u.endTurn ⟨cl.p, cl.c, k⟩).core ⟨cl.p, cl.c, k⟩ := by
  have hnone : (coresOf cl).any (fun c => (s.core c).slotsLeft) = false := by
    simpa using fun d hd => hslots d (cluster_of_mem_coresOf hd)
  have hnodup : (coresOf cl).Nodup := (List.nodup_finRange 9).map fun a b h => by simpa using h
  have hall := foldl_keeps SameClock (fun _ => ⟨rfl, fun _ => rfl⟩) (fun _ _ _ => .trans) State.endTurn endTurn_sameClock (coresOf cl) s
  obtain ⟨u, hu, hcore, hlast⟩ := foldl_once (fun s d => s.core d) State.endTurn SameClock (fun _ => ⟨rfl, fun _ => rfl⟩)
    (fun _ _ _ => .trans) endTurn_sameClock endTurn_other (coresOf cl) hnodup s ⟨cl.p, cl.c, k⟩ (mem_coresOf_self ⟨cl.p, cl.c, k⟩)
  have hexec : exec (.writeLands cl) s = .next (((coresOf cl).foldl State.endTurn s).updCluster cl fun y =>
      { y with cycle := y.cycle + 1, trThisCycle := 0 }) := if_neg (by simp [hpll, hnone])
  generalize (coresOf cl).foldl State.endTurn s = v at hall hlast hexec
  obtain ⟨hmem, hcycle⟩ := hall
  exact ⟨_, hexec, by rw [← hcycle cl]; simp, hmem, u, hu, hcore, hlast⟩

end Sys2Proof.Machine

section
open Sys2Proof Sys2Proof.Machine

/-- Settles O11: each core's turn lands its due writes in one order, and no other turn touches the core. -/
theorem writesLandInSlotOrder : Obligations.WritesLandInSlotOrder := by
  intro s cl k hpll hslots c x hsix
  obtain ⟨t, hexec, hcycle, hmem, u, -, hu, ht⟩ := writeLands_core hpll hslots k
  have hturn := endTurn_self u c
  rw [← ht, hu] at hturn
  have hinflight : (t.core c).inflight = x.endCycle.inflight := 
    hturn.elim (fun h => (congrArg Core.inflight h).trans rfl) (fun h => (congrArg Core.inflight h).trans rfl)
  have hreg : ∀ f n, (t.core c).reg f n = (x.due.foldl Core.land x).reg f n := by
    intro f n
    rw [← endCycle_reg]
    rcases hturn with h | h
    · rw [h]
    · rw [h]
      cases f <;> rfl
  have hsp : (t.core c).sp = x.endCycle.sp := hturn.elim (fun h => (congrArg Core.sp h).trans rfl) (fun h => (congrArg Core.sp h).trans rfl)
  have hacc : (t.core c).acc = x.endCycle.acc := hturn.elim (fun h => (congrArg Core.acc h).trans rfl) (fun h => (congrArg Core.acc h).trans rfl)
  obtain ⟨gsp, gacc⟩ := foldl_land_rest x.due x
  refine ⟨t, hexec, hcycle, hinflight, fun f n hnone => ?_, fun f n l r w h0 hx hleft hits hl hr => ?_,
    reg_i_zero _, hsp.trans gsp, hacc.trans gacc, hmem⟩
  · rw [hreg]
    exact foldl_land_other _ _ fun w hw => hnone w (mem_due hw).1 (mem_due hw).2
  · obtain ⟨ws, vs, hdue, hvs⟩ := due_last (fun v => v.hits f n) hx (hsix w (by simp [hx])) hleft hl hr
    rw [hreg, hdue]
    exact foldl_land_last ws vs x hits h0 hvs

end

namespace Sys2Proof.Machine

/-! ## Taking a packet (R343, R344, R379) -/

/-! ### Checks and reads -/

/-- Checks that pass let a packet go on. -/
theorem passing_checks {cs : List (Nat × Bool)} (h : ∀ c ∈ cs, c.2 = false) (v : Verdict) : passing cs v = v := by
  unfold passing
  rw [(firstBad_eq_none cs).2 h]

theorem fieldOk_checks {cs : List (Nat × Bool)} (h : ∀ c ∈ cs, c.2 = false) (o : Nat) : fieldOk cs o = true := by
  have hnone : cs.any (fun c => c.1 = o && c.2) = false := by
    simpa using fun a b hab _ => h (a, b) hab
  simp [fieldOk, hnone]

/-- A state whose caches and counters have served a packet's read. -/
def State.fetched (s : State) (p : Fin 4) (x : Fin 16) (ts : List Xlat) : State :=
  ((s.accessLines false true ts).countTraffic false false ts).cachePages p 10 x ts

theorem fetched_onlyTraffic (s : State) (p : Fin 4) (x : Fin 16) (ts : List Xlat) : OnlyTraffic s (s.fetched p x ts) :=
  ((accessLines_onlyTraffic s false true ts).trans (countTraffic_onlyTraffic _ false false ts)).trans (cachePages_onlyTraffic _ p 10 x ts)

/-- A packet's read of mapped memory that nothing holds up and that holds no error. -/
theorem withArg_read {s : State} {j : Pkt} {cs : List (Nat × Bool)} {field a n : Nat} {ts : List Xlat} (f : State → List Byte → Verdict)
    (hcs : ∀ c ∈ cs, c.2 = false) (hts : s.translateAll j.part j.ctx (addrRun a n) = some ts) (hreach : reaches s j.part false ts)
    (herr : s.memErr = []) (hhost : s.hostErr = []) : s.withArg j cs field a n f = f (s.fetched j.part j.ctx ts) (s.bytesAt (placesOf ts)) := by
  have hheld : s.heldUp j.part false ts = none := Option.isNone_iff_eq_none.1 hreach
  have hbytes : (s.fetched j.part j.ctx ts).bytesAt (placesOf ts) = s.bytesAt (placesOf ts) := by
    have hrest := (fetched_onlyTraffic s j.part j.ctx ts).rest
    generalize s.fetched j.part j.ctx ts = u at hrest
    rw [← hrest]
    rfl
  unfold State.withArg
  rw [fieldOk_checks hcs field, hts, ← hbytes]
  simp only [hheld, poisonIn_clean herr hhost]
  rfl

/-! ### Free cores (R344) -/

theorem perm_delNth {α : Type} {l : List α} {k : Nat} {v : α} (h : l[k]? = some v) : l.Perm (v :: delNth l k) := by
  induction l generalizing k with
  | nil => cases h
  | cons a l ih =>
    cases k with
    | zero =>
      obtain rfl : a = v := Option.some.inj h
      exact .refl _
    | succ k => exact ((ih h).cons a).trans (.swap v a _)

/-- What is picked from a list, and what is left of it. -/
theorem pickMany_perm {α : Type} (ctr n : Nat) (l : List α) (h : n ≤ l.length) :
    (pickMany ctr n l).length = n ∧ ∃ rest, l.Perm (pickMany ctr n l ++ rest) := by
  induction n generalizing l with
  | zero => exact ⟨rfl, l, .refl l⟩
  | succ n ih =>
    have hk : Config.pick (ctr + n) % max 1 l.length < l.length := by
      rw [show max 1 l.length = l.length by omega]
      exact Nat.mod_lt _ (by omega)
    obtain ⟨v, hv⟩ : ∃ v, l[Config.pick (ctr + n) % max 1 l.length]? = some v := ⟨_, List.getElem?_eq_getElem hk⟩
    have hperm := perm_delNth hv
    have hlen := hperm.length_eq
    rw [List.length_cons] at hlen
    obtain ⟨hpicked, rest, hrest⟩ := ih (delNth l (Config.pick (ctr + n) % max 1 l.length)) (by omega)
    simp only [pickMany, hv]
    exact ⟨by rw [List.length_cons, hpicked], rest, hperm.trans (hrest.cons v)⟩

theorem pickMany_free {α : Type} {ctr n : Nat} {l : List α} (h : n ≤ l.length) (hl : l.Nodup) :
    (pickMany ctr n l).length = n ∧ (pickMany ctr n l).Nodup ∧ ∀ v ∈ pickMany ctr n l, v ∈ l := by
  obtain ⟨hlen, rest, hperm⟩ := pickMany_perm ctr n l h
  exact ⟨hlen, (List.nodup_append.1 (hperm.nodup_iff.1 hl)).1, fun v hv => hperm.mem_iff.2 (List.mem_append_left _ hv)⟩

theorem coresOfPart_nodup (p : Fin 4) : (coresOfPart p).Nodup := by
  refine List.nodup_flatMap.2 ⟨fun cl _ => (List.nodup_finRange 9).map fun a b h => by simpa using h, ?_⟩
  refine (clustersOf_nodup p).imp_of_mem fun {a b} _ _ hab => ?_
  exact fun c ha hb => hab ((cluster_of_mem_coresOf ha).symm.trans (cluster_of_mem_coresOf hb))

theorem freeCores_nodup (s : State) (p : Fin 4) : (s.freeCores p).Nodup := (coresOfPart_nodup p).filter _

/-- A packet is given cores where enough are free. -/
theorem withCores_given {s : State} {j : Pkt} {n : Nat} (f : State → List CoreId → Verdict) (h : n ≤ (s.freeCores j.part).length) :
    s.withCores j n f = f (s.draw n) (pickMany s.freeCtr n (s.freeCores j.part)) := by
  have hworking : (s.freeCores j.part).length ≤ ((coresOfPart j.part).filter s.working).length := by
    refine (List.Sublist.length_le (List.monotone_filter_right _ fun c hc => ?_))
    simp only [Bool.and_eq_true] at hc
    exact hc.1.1.1
  unfold State.withCores
  rw [if_neg (by omega), if_neg (by omega)]

/-! ### The packet is taken -/

/-- A packet that starts is among those that have not completed, and then does what it does. -/
theorem takeWork_go {s u : State} {q : Fin 256} {w : WorkQ} {e : Seat} {kd : PktKind} {k : Packet} {j : Pkt} {f : State → State}
    {body : State → Pkt → List (Nat × Bool) → Verdict} (h : takes s q w e kd k)
    (hbody : body s (newPkt q w e kd k) (workChecks kd k) = .go u j f) : takeWork kd q k body s = .next (f (u.enlist j)) := by
  obtain ⟨hq, hkind, hseat, hflips, hpoison, -⟩ := h
  have hrow : rowTakes kd k = true := by
    unfold rowTakes
    rw [hkind]
    cases kd <;> simp
  unfold takeWork
  simp only [hq, hrow, hseat, fire_unarmed s _ hflips, hpoison, hkind, hbody]
  rfl

theorem enlist_spec {s : State} {q : Fin 256} {w : WorkQ} (hw : s.queue q = some w) {j : Pkt} (hj : j.q = q.val) :
    (s.enlist j).pkts = s.pkts ++ [j] ∧ (s.enlist j).mem = s.mem ∧ (s.enlist j).cores = s.cores
      ∧ (s.enlist j).queue q = some (if j.lane = 0 then { w with taken := w.taken + 1 } else w)
      ∧ ∀ o, o ≠ q → (s.enlist j).queue o = s.queue o := by
  have hq : (⟨j.q % 256, by omega⟩ : Fin 256) = q := Fin.ext (by simp [hj, Nat.mod_eq_of_lt q.isLt])
  unfold State.enlist
  extract_lets +onlyGivenNames a b r
  have hr : r = q := hq
  have hb : b.pkts = s.pkts ++ [j] ∧ b.mem = s.mem ∧ b.cores = s.cores ∧ ∀ o, b.queue o = s.queue o := ⟨rfl, rfl, rfl, fun _ => rfl⟩
  clear_value b r
  subst hr
  obtain ⟨hpkts, hmem, hcores, hqueue⟩ := hb
  split
  · have hset : ∀ o, ((b.setQueue r (some { w with taken := w.taken + 1 })).visit r.val w).queue o
        = if o = r then some { w with taken := w.taken + 1 } else b.queue o :=  by
      intro o
      have hvisit : ∀ x : State, (x.visit r.val w).queue o = x.queue o := fun _ => rfl
      rw [hvisit, State.queue_setQueue]
    rw [hqueue r, hw]
    exact ⟨hpkts, hmem, hcores, (hset r).trans (if_pos rfl), fun o ho => ((hset o).trans (if_neg ho)).trans (hqueue o)⟩
  · exact ⟨hpkts, hmem, hcores, (hqueue r).trans hw, fun o _ => hqueue o⟩

/-! ### Shares start -/

theorem Tbl.getMany_setMany {α : Type} [DecidableEq α] (d : α) (m : Tbl α) (k : Nat) (vs : List α) :
    (m.setMany d k vs).getMany d k vs.length = vs := by
  refine List.ext_getElem? fun n => ?_
  by_cases hn : n < vs.length
  · rw [Tbl.getMany_get _ _ _ _ _ hn, Tbl.get_setMany, dif_pos ⟨by omega, by omega⟩]
    simp [hn]
  · rw [List.getElem?_eq_none (by simp; omega), List.getElem?_eq_none (by omega)]

/-- Nothing changes but cores and clusters. -/
def OnlyCoresClusters (s t : State) : Prop := { t with cores := s.cores, clusters := s.clusters } = s

theorem OnlyCoresClusters.trans {s t u : State} (h : OnlyCoresClusters s t) (g : OnlyCoresClusters t u) : OnlyCoresClusters s u := by
  unfold OnlyCoresClusters at *
  rw [← h, ← g]

/-- The core that a share starts on, and no other, is as the share's start leaves it. -/
theorem startShare_spec (s : State) (j : Pkt) (c : CoreId) (index count args entry replays : Nat) (image : List Byte) :
    OnlyCoresClusters s (s.startShare j c index count args entry replays image)
      ∧ ∀ d, (s.startShare j c index count args entry replays image).core d = if d = c
        then (s.core c).startShare ⟨j.q, j.i, j.lane, j.laneIdx, j.ctx, index, count, replays, 0⟩ j.wtag args entry image else s.core d := by
  refine ⟨?_, fun d => ?_⟩
  · exact OnlyCoresClusters.trans (t := s.updCore c _) rfl (trace_onlyCore ..).1
  · rw [State.startShare, trace_core, State.updCore_eq, State.core_setCore]

/-- Shares start on distinct cores, each with its index. -/
theorem foldl_startShare (j : Pkt) (count args entry : Nat) (image : List Byte) (es : List (CoreId × Nat)) (hes : (es.map Prod.fst).Nodup)
    (s : State) : OnlyCoresClusters s (es.foldl (fun s e => s.startShare j e.1 e.2 count args entry 0 image) s)
      ∧ (∀ e ∈ es, (es.foldl (fun s e => s.startShare j e.1 e.2 count args entry 0 image) s).core e.1
        = (s.core e.1).startShare ⟨j.q, j.i, j.lane, j.laneIdx, j.ctx, e.2, count, 0, 0⟩ j.wtag args entry image)
      ∧ ∀ d, d ∉ es.map Prod.fst → (es.foldl (fun s e => s.startShare j e.1 e.2 count args entry 0 image) s).core d = s.core d := by
  induction es generalizing s with
  | nil => exact ⟨rfl, fun _ h => absurd h List.not_mem_nil, fun _ _ => rfl⟩
  | cons a es ih =>
    rw [List.map_cons, List.nodup_cons] at hes
    obtain ⟨honly, hcore⟩ := startShare_spec s j a.1 a.2 count args entry 0 image
    obtain ⟨ihonly, ihmem, ihother⟩ := ih hes.2 (s.startShare j a.1 a.2 count args entry 0 image)
    refine ⟨honly.trans ihonly, fun e he => ?_, fun d hd => ?_⟩
    · rcases List.mem_cons.1 he with rfl | he
      · exact (ihother _ hes.1).trans ((hcore _).trans (if_pos rfl))
      · have hne : e.1 ≠ a.1 := fun h => hes.1 (h ▸ List.mem_map_of_mem he)
        refine (ihmem e he).trans ?_
        rw [hcore, if_neg hne]
    · rw [List.map_cons, List.mem_cons, not_or] at hd
      exact (ihother d hd.2).trans ((hcore d).trans (if_neg hd.1))

theorem startShares_spec (s : State) (j : Pkt) (args entry : Nat) (image : List Byte) (hcores : j.cores.Nodup) :
    OnlyCoresClusters s (s.startShares j args entry image)
      ∧ (∀ n c, j.cores[n]? = some c → (s.startShares j args entry image).core c
        = (s.core c).startShare ⟨j.q, j.i, j.lane, j.laneIdx, j.ctx, n, j.cores.length, 0, 0⟩ j.wtag args entry image)
      ∧ ∀ c, c ∉ j.cores → (s.startShares j args entry image).core c = s.core c := by
  have hacquire : OnlyCoresClusters s (s.acquireFor j.cores) ∧ (s.acquireFor j.cores).cores = s.cores :=
    foldl_keeps (fun s t => OnlyCoresClusters s t ∧ t.cores = s.cores) (fun _ => ⟨rfl, rfl⟩)
      (fun _ _ _ h g => ⟨h.1.trans g.1, g.2.trans h.2⟩) (fun s cl => s.updCluster cl Cluster.acquire) (fun _ _ => ⟨rfl, rfl⟩) _ s
  have hcore := State.core_of_cores s (s.acquireFor j.cores) hacquire.2
  have hkeys : (j.cores.zipIdx).map Prod.fst = j.cores := List.zipIdx_map_fst 0 j.cores
  obtain ⟨honly, hin, hout⟩ := foldl_startShare j j.cores.length args entry image j.cores.zipIdx (by rwa [hkeys]) (s.acquireFor j.cores)
  refine ⟨hacquire.1.trans honly, fun n c hc => ?_, fun c hc => ?_⟩
  · have hmem : (c, n) ∈ j.cores.zipIdx := List.mem_zipIdx_iff_getElem?.2 hc
    exact (hin (c, n) hmem).trans (by rw [hcore])
  · exact (hout c (by rwa [hkeys])).trans (hcore c)

end Sys2Proof.Machine

section
open Sys2Proof Sys2Proof.Machine

/-- Settles O46: the read leaves cores, queues and memory, the cores given are distinct and free, and each starts its share
once. -/
theorem runStartsShares : Obligations.RunStartsShares := by
  intro s q w e k ts htakes hquiet hts hreach hfree
  obtain ⟨herr, hhost, -⟩ := hquiet
  have ⟨hq, _, _, _, _, hcs⟩ := htakes
  set j := newPkt q w e .run k with hj
  set u := s.fetched w.part w.ctx ts with hu
  have hway : OnlyTraffic s u := fetched_onlyTraffic s w.part w.ctx ts
  have hfreeCores : u.freeCores w.part = s.freeCores w.part := by
    rw [← hway.rest]
    rfl
  set cores := pickMany u.freeCtr (pf k 34 1) (u.freeCores w.part) with hcores
  obtain ⟨hlen, hnodup, hmem⟩ := pickMany_free (ctr := u.freeCtr) (hfreeCores ▸ hfree) (freeCores_nodup u w.part)
  set i : Pkt := { j with
    cores := cores, sharesLeft := cores.length, replayable := (u.part w.part).disjoint.getLsbD w.ctx.val } with hi
  have hbody : takeRun s j (workChecks .run k) = .go (u.draw (pf k 34 1)) i
      fun t => t.startShares i (pa k 16) (pf k 32 2) (s.bytesAt (placesOf ts)) := by
    unfold takeRun
    extract_lets k'
    rw [fieldOk_checks hcs 24, if_pos rfl, withArg_read (ts := ts) _ hcs hts hreach herr hhost, passing_checks hcs,
      withCores_given _ (hfreeCores ▸ hfree)]
    rfl
  have hdisjoint : (u.part w.part).disjoint = (s.part w.part).disjoint := by rw [← hway.part w.part]
  have hsame : (u.draw (pf k 34 1)).pkts = s.pkts ∧ (u.draw (pf k 34 1)).mem = s.mem ∧ (u.draw (pf k 34 1)).cores = s.cores
      ∧ ∀ o, (u.draw (pf k 34 1)).queue o = s.queue o := by
    rw [← hway.rest]
    exact ⟨rfl, rfl, rfl, fun _ => rfl⟩
  obtain ⟨gpkts, gmem, gcores, gqueue⟩ := hsame
  obtain ⟨lpkts, lmem, lcores, lqueue, lother⟩ := enlist_spec ((gqueue q).trans hq) (j := i) rfl
  obtain ⟨honly, hin, hout⟩ := startShares_spec ((u.draw (pf k 34 1)).enlist i) i (pa k 16) (pf k 32 2) (s.bytesAt (placesOf ts)) hnodup
  have hcore := State.core_of_cores s ((u.draw (pf k 34 1)).enlist i) (lcores.trans gcores)
  refine ⟨_, cores, takeWork_go htakes hbody, hlen, hnodup, fun c hc => hfreeCores ▸ hmem c hc, ⟨?_, fun o ho => ?_⟩, ?_, ?_,
    fun n c hc => ?_, fun c hc => (hout c hc).trans (hcore c)⟩
  · exact (congrArg (fun t => State.queue t q) honly).trans lqueue
  · exact ((congrArg (fun t => State.queue t o) honly).trans (lother o ho)).trans (gqueue o)
  · exact ((congrArg State.mem honly).trans lmem).trans gmem
  · rw [← hdisjoint, ← gpkts]
    exact (congrArg State.pkts honly).trans lpkts
  · rw [hin n c hc]
    refine ⟨rfl, rfl, fun r => ?_, fun r => ?_, fun r hr => ?_, rfl, rfl, rfl, rfl, rfl, rfl, ?_⟩
    · exact Tbl.get_set ..
    · simp only [Core.startShare, Tbl.get_set]
      split
      · next h1 =>
        rw [h1]
        rfl
      · rfl
    · simp only [Core.startShare]
      interval_cases r <;> rfl
    · have himage : (s.bytesAt (placesOf ts)).length = pf k 24 4 := by
        rw [State.bytesAt, placesOf, List.length_map, List.length_map, translateAll_length hts, addrRun, List.length_map,
          List.length_range]
      rw [← himage]
      exact Tbl.getMany_setMany ..

end

namespace Sys2Proof.Machine

/-! ## A `RESET` of a partition while a flip mask is armed (R403, R443) -/

/-- Partition 0 with a context that holds the semaphore at place 0, a flip mask armed at the encoder of that place's cache slice,
and a bank unit in a run; a command stands at `HEAD`. -/
def breaksSemaphore : State :=
  { State.reset with
    hi := { HostIf.reset with st := .ready, mcqEnable := true, mcqTail := 1 }
    hk := { Hk.reset with flips := [(encKey 3 0 0 0 0, 1)] }
    parts := [(0, { Part.reset with ctxs := [(0, { Ctx.reset with held := [(0, 0)] })] })]
    stks := [(0, { Stack.reset with units := [(UnitId.key ⟨0, 0, 0⟩, { BankUnit.reset with inRun := true })] })] }

/-- `RESET` of partition 0 at PARTITION level. -/
def resetsPartition : Packet := BitVec.ofNat 512 (0x0B + 2 * 2 ^ 64)

/-- Masks fired once a step has led to its next state. -/
def firedAfter : Host.Outcome State Fault Refusal → Nat
  | .next t => t.hk.fired.toNat
  | _ => 0

/-- The reset breaks the semaphore, and the write of its word fires the mask. -/
theorem breaksSemaphore_fires : firedAfter (exec (.resetPartition resetsPartition) breaksSemaphore) = 1 := by decide +kernel

/-- The packet is a `RESET` of partition 0 at PARTITION level. -/
theorem resetsPartition_form : MgmtForm resetsPartition 0x0B true [(8, 1), (9, 1), (10, 1)] ∧ pf resetsPartition 8 1 = 2
    ∧ pf resetsPartition 9 1 = 0 ∧ pf resetsPartition 10 1 = 0 := by
  simp only [MgmtForm]
  decide +kernel

end Sys2Proof.Machine

section
open Sys2Proof Sys2Proof.Machine

/-- Refutes O34: while a bank unit has still to reach its cut point, the reset of a partition breaks the semaphores that its
contexts hold (R443), and the write of a semaphore's word fires the flip mask armed at its slice's encoder (R403): `fired`
counts 1, and the housekeeping state is not as it was. -/
theorem not_partialResets : ¬ Obligations.PartialResets := by
  intro h
  obtain ⟨hform, hlevel, hcl, hcore⟩ := resetsPartition_form
  have hready : breaksSemaphore.mcqReady = true := by decide +kernel
  have huncut : breaksSemaphore.unitsCut (mgmtPart resetsPartition) = false := by decide +kernel
  obtain ⟨-, -, -, hwaits⟩ := h breaksSemaphore resetsPartition hready rfl (Or.inl (by decide +kernel))
  obtain ⟨t, hexec, -, -, -, -, hhk⟩ := hwaits hform hlevel hcl hcore (by decide +kernel) (Or.inr huncut) (fun _ _ => rfl) rfl rfl
  have hfired := breaksSemaphore_fires
  rw [hexec, firedAfter, hhk] at hfired
  exact absurd hfired (by decide)

end

namespace Sys2Proof.Machine

/-! ## Cut points (R113, R114, R349) -/

/-- A core's engines run on while its context is being saved. -/
theorem enginesRun_saving {s : State} {c : CoreId} {sh : Share} (hsh : (s.core c).share = some sh)
    (hctx : (s.ctx c.p sh.ctx).st = .saving) (hst : (s.core c).st = .running) (hpll : (s.part c.p).pll = .running) :
    s.enginesRun c = true := by
  simp [State.enginesRun, hsh, hst, hctx, hpll]

/-- The context of a core that runs a share is the share's. -/
theorem Core.ctx_of_share {x : Core} {sh : Share} (h : x.share = some sh) : x.ctx = sh.ctx := by simp [Core.ctx, h]

/-- A core's only running operation is found by its number. -/
theorem Core.inst_of_runs {x : Core} {i : Inst} (h : x.runs = [i]) : x.inst i.id = some i := by simp [Core.inst, h]

/-- A change of a core's only running operation changes that operation, and neither SP nor memory. -/
theorem updInst_only {s : State} {c : CoreId} {i : Inst} (h : (s.core c).runs = [i]) (f : Inst → Inst) :
    ((s.updInst c i.id f).core c).runs = [f i] ∧ (∀ d, ((s.updInst c i.id f).core d).sp = (s.core d).sp)
      ∧ (s.updInst c i.id f).mem = s.mem := by
  refine ⟨by simp [State.updInst, Core.updInst, h], fun d => ?_, rfl⟩
  rw [State.updInst, State.updCore_eq, State.core_setCore]
  split
  · next hd => rw [hd]; rfl
  · rfl

/-- What a running `SPCOPY` has done at a cut point after a whole number of 4 KiB: the bytes from where it stood up to there
lie in the other core's SP, and it stands cut. -/
theorem cutPoint_spcopy {s : State} {c : CoreId} {i : Inst} {amount : Nat} (hruns : (s.core c).runs = [i])
    (hsaving : (s.ctx c.p (s.core c).ctx).st = .saving) (hon : s.enginesRun c = true) (hop : i.op.op = 0x04)
    (hdir : mf i.op.word 42 42 = 0) (hst : i.st = .running) (hclean : (s.core c).spErr = []) (hflips : s.hk.flips = [])
    (hcut : amount % 4096 = 0) (hfrom : i.progress ≤ amount) (hto : amount < i.op.x 0) :
    ∃ u : State, execCutPointReached c i.id amount s
        = .next (u.updInst c i.id (fun j => { j with st := .cut, progress := amount }))
      ∧ SpHolds (s.core (copyTo c i)) (u.core (copyTo c i)) (i.op.addr 1 i.n + i.progress)
          ((s.core c).sp.getMany 0 (i.op.addr 0 i.n + i.progress) (amount - i.progress))
      ∧ (u.core c).runs = [i] ∧ u.mem = s.mem := by
  have hlen : s.workLen c i = i.op.x 0 := by simp [State.workLen, MacroOp.idle, hop]
  have hwhole : cutAt i.op amount = true := by simp [cutAt, hop, hcut]
  have hexec : execCutPointReached c i.id amount s
      = .next (s.endPart c i (if amount = i.progress then .done s else s.runPart c i i.progress amount false)
          (fun s => s.updInst c i.id (fun j => { j with st := .cut, progress := amount }))) := by
    simp [execCutPointReached, Core.inst_of_runs hruns, hsaving, hon, hop, hst, hwhole, hfrom, hto, hlen]
  by_cases hnone : amount = i.progress
  · refine ⟨s, by rw [hexec, if_pos hnone]; rfl, fun k => ?_, hruns, rfl⟩
    rw [if_neg (by simp [hnone, Tbl.getMany])]
  · rw [if_neg hnone, runPart_spcopy hop hdir hclean, spWrite_unflipped _ _ _ hflips] at hexec
    refine ⟨_, hexec, ?_, ?_, rfl⟩
    · rw [State.updCore_eq, State.core_setCore, if_pos rfl]
      exact spHolds_spWrite _ _ _
    · rw [State.updCore_eq, State.core_setCore]
      split
      · next hd => exact hd ▸ hruns
      · exact hruns

/-- A `WAIT` or `SEMTAKE` that waits is cut whatever it has done, and no longer registered. -/
theorem cutPoint_wait {s : State} {c : CoreId} {i : Inst} (amount : Nat) (hruns : (s.core c).runs = [i])
    (hsaving : (s.ctx c.p (s.core c).ctx).st = .saving) (hon : s.enginesRun c = true)
    (hop : i.op.op = 0x19 ∨ i.op.op = 0x1B) (hst : i.st = .waiting) :
    execCutPointReached c i.id amount s = .next (({ s with
      waits := s.waits.filter (fun w => w.agent ≠ HomeAgent.inst c i.id) } : State).updInst c i.id (fun j => { j with st := .cut })) := by
  simp [execCutPointReached, Core.inst_of_runs hruns, hsaving, hon, hop, hst]

end Sys2Proof.Machine

section
open Sys2Proof Sys2Proof.Machine

/-- Settles O14: an `SPCOPY` copies up to its cut point as it does at its end, and the cut of a wait moves nothing. -/
theorem cutPoints : Obligations.CutPoints := by
  refine ⟨fun s c i sh amount hsh hsaving hst hpll hruns _ hop hdir hrun hclean hflips hcut hfrom hto => ?_,
    fun s c i sh amount hsh hsaving hst hpll hruns hop hwait => ?_⟩
  · have hctx : (s.ctx c.p (s.core c).ctx).st = .saving := Core.ctx_of_share hsh ▸ hsaving
    obtain ⟨u, hexec, hsp, huruns, humem⟩ := cutPoint_spcopy hruns hctx (enginesRun_saving hsh hsaving hst hpll) hop hdir hrun
      hclean hflips hcut hfrom hto
    obtain ⟨hcutRuns, hcutSp, hcutMem⟩ := updInst_only huruns (fun j => { j with st := .cut, progress := amount })
    exact ⟨_, hexec, fun k => by rw [hcutSp]; exact hsp k, hcutRuns, hcutMem.trans humem⟩
  · have hctx : (s.ctx c.p (s.core c).ctx).st = .saving := Core.ctx_of_share hsh ▸ hsaving
    obtain ⟨hcutRuns, -, hcutMem⟩ := updInst_only (s := { s with
      waits := s.waits.filter (fun w => w.agent ≠ HomeAgent.inst c i.id) }) hruns (fun j => { j with st := .cut })
    exact ⟨_, cutPoint_wait amount hruns hctx (enginesRun_saving hsh hsaving hst hpll) hop hwait, hcutRuns, rfl, hcutMem⟩

end

namespace Sys2Proof.Machine

/-! ## A raw reduction that a peer sends (R92, R279, R318, R322) -/

theorem fire_mem (s : State) (key : Nat) : (s.fire key).2.mem = s.mem := by
  unfold State.fire
  dsimp only
  split <;> rfl

theorem pump_mem (s : State) (l : Fin 48) (n : Nat) : (s.pump l n).mem = s.mem := by
  induction n generalizing s with
  | zero => rfl
  | succ n ih =>
    rw [State.pump]
    dsimp only
    split
    · rfl
    · split
      · rfl
      · rw [ih]
        exact fire_mem s _

/-- A message that arrives with none before it is performed, and the credit that then returns changes no memory. -/
theorem receive_mem {s t : State} {l : Fin 48} {m : Msg} {type : Nat} {f : State → State × Bool} (h : arrives s l m type)
    (hf : f (s.updLink l (fun k => { k with rx := k.rx.erase m })) = (t, true)) : (s.receive l m f).mem = t.mem := by
  obtain ⟨hactive, hrx, hpll, -⟩ := h
  unfold State.receive
  simp only [hactive, hrx, hpll, hf]
  dsimp
  split
  · rfl
  · exact pump_mem _ l _

/-- Where no word and no host line is poisoned, no place is. -/
theorem firstPoison_clean {s : State} (he : s.memErr = []) (hh : s.hostErr = []) (ps : List Place) : s.firstPoison ps = none := by
  rw [State.firstPoison, List.find?_eq_none]
  rintro (k | a) -
  · simp [groupPoisoned_clean he]
  · simp [hh]

/-- A reduction that its checks accept has been acknowledged, and its pages are cached. -/
def State.reductionMet (s : State) (l : Fin 48) (m : Msg) (ts : List Xlat) : State :=
  ((s.ack l m 0).updLink l (fun k => { k with landed := k.landed.erase m })).cachePages (ownerOfLink l) 10 m.dctx ts

/-- What a good reduction that nothing holds up does: it is acknowledged, and then its elements are combined. -/
theorem serveReduce_accepted {s : State} {l : Fin 48} {m : Msg} {ts : List Xlat} (hland : s.hasLanded l m = false)
    (hdenies : s.denies l m = 0) (hreach : s.reach l m (addrRun m.addr (32 * m.len)) Region.atomicOk = .ok ts)
    (hdatum : mdatBad m = false) (hpoison : m.poison = false) (he : s.memErr = []) (hh : s.hostErr = [])
    (hheld : (s.ack l m 0).heldUp (ownerOfLink l) true ts = none) :
    s.serveReduce l m = ((s.reductionMet l m ts).peerReduce (ownerOfLink l) m.dctx (m.op % 4) m.target (rawUpdates m) ts, true) := by
  have hreason : s.landReason false true ts = (s, 0) := by
    simp [State.landReason, touch_clean s _ he, firstPoison_clean he hh]
  simp only [State.serveReduce, State.checked, hland, hdenies, State.accept, hreach, hdatum, hpoison, hreason, State.perform, hheld,
    Bool.false_eq_true, if_false]
  rfl

/-- A list in a free order has the same members. -/
theorem freeOrder_perm {α : Type} (ctr n : Nat) (l : List α) : (freeOrder ctr n l).Perm l := by
  induction n generalizing l with
  | zero => exact .refl l
  | succ n ih =>
    unfold freeOrder
    extract_lets k
    split
    · next v hv => exact ((ih _).cons v).trans (perm_delNth hv).symm
    · exact .refl l

theorem reduceAll_waits (s : State) (p : Fin 4) (x : Fin 16) (rop fmt : Nat) (us : List (Nat × Nat)) :
    (s.reduceAll p x rop fmt us).waits = s.waits := by
  refine foldl_keeps (fun s t => t.waits = s.waits) (fun _ => rfl) (fun _ _ _ h g => g.trans h) _ (fun s u => ?_) us s
  dsimp only
  split
  · rfl
  · exact (writeAt_onlyMemory s _ _).waits_eq

theorem countAtomics_memory (s : State) (ks : List Nat) : (s.countAtomics ks).mem = s.mem ∧ (s.countAtomics ks).waits = s.waits := by
  refine foldl_keeps (fun s t => t.mem = s.mem ∧ t.waits = s.waits) (fun _ => ⟨rfl, rfl⟩)
    (fun _ _ _ h g => ⟨g.1.trans h.1, g.2.trans h.2⟩) _ (fun s p => ?_) _ s
  dsimp only
  split <;> exact ⟨rfl, rfl⟩

/-- Without poison and without waits, the updates of a reduction make its memory, one after another in a free order. -/
theorem peerReduce_mem {s : State} {p : Fin 4} {x : Fin 16} {fmt : Nat} {us : List (Nat × Nat)} {ts : List Xlat} (rop : Nat)
    (he : s.memErr = []) (hh : s.hostErr = []) (hw : s.waits = [])
    (hmap : ∀ u ∈ us, ∀ a ∈ bitBytes u.1 (rawWidth fmt), ((s.accessLines true true ts).translate p x a).isSome = true) :
    (s.peerReduce p x rop fmt us ts).mem
      = ((s.accessLines true true ts).reduceAll p x rop fmt (freeOrder (s.accessLines true true ts).freeCtr us.length us)).mem := by
  have hway := accessLines_onlyTraffic s true true ts
  unfold State.peerReduce
  generalize s.accessLines true true ts = v at hway hmap ⊢
  have hve : v.memErr = [] := by rw [← he, ← hway.rest]
  have hvh : v.hostErr = [] := by rw [← hh, ← hway.rest]
  have hvw : v.waits = [] := by rw [← hw, ← hway.rest]
  have hself : ∀ good : Nat × Nat → Bool, (∀ u ∈ us, good u = true) → us.filter good = us := fun _ => List.filter_eq_self.2
  rw [touch_clean v _ hve]
  dsimp only
  rw [hself]
  · have hwaits : (v.reduceAll p x rop fmt (freeOrder v.freeCtr us.length us)).waits = [] := (reduceAll_waits v p x rop fmt _).trans hvw
    obtain ⟨hcmem, hcwaits⟩ := countAtomics_memory ((v.reduceAll p x rop fmt (freeOrder v.freeCtr us.length us)).draw 1)
      (((v.reduceAll p x rop fmt (freeOrder v.freeCtr us.length us)).draw 1).placesOfUpdates p x us)
    rw [retest_nothing (hcwaits.trans hwaits), hcmem]
    rfl
  · intro u hu
    rw [List.all_eq_true]
    intro a ha
    obtain ⟨t, ht⟩ := Option.isSome_iff_exists.1 (hmap u hu a ha)
    simp only [ht, firstPoison_clean hve hvh, Option.isNone_none]

/-- Updates of elements that are not mapped change nothing. -/
theorem reduceAll_unmapped {s : State} {p : Fin 4} {x : Fin 16} (rop : Nat) {fmt : Nat} {us : List (Nat × Nat)}
    (h : ∀ u ∈ us, s.translateAll p x (bitBytes u.1 (rawWidth fmt)) = none) : s.reduceAll p x rop fmt us = s := by
  induction us with
  | nil => rfl
  | cons u us ih =>
    obtain ⟨hu, hus⟩ := List.forall_mem_cons.1 h
    show State.reduceAll (match s.translateAll p x (bitBytes u.1 (rawWidth fmt)) with
      | none => s
      | some ts => s.writeAt true ((placesOf ts).zip (leBytes (rawWidth fmt / 8)
          (combine rop fmt (leNat (ts.map (fun t => s.byteAt t.place))) u.2)))) p x rop fmt us = s
    rw [hu]
    exact ih hus

/-- Once an update has unmapped the elements that follow it, it is the last that changes anything. -/
theorem reduceAll_last {s t : State} {p : Fin 4} {x : Fin 16} {rop fmt : Nat} {u : Nat × Nat} {us : List (Nat × Nat)}
    (hu : s.reduceAll p x rop fmt [u] = t) (h : ∀ v ∈ us, t.translateAll p x (bitBytes v.1 (rawWidth fmt)) = none) :
    s.reduceAll p x rop fmt (u :: us) = t := by
  subst hu
  exact reduceAll_unmapped rop h

/-- A raw reduction that arrives leaves the memory that serving it leaves. -/
theorem redMsg_mem {s t : State} {l : Fin 48} {m : Msg} (h : arrives s l m 0x04) (hcoded : m.coded = false)
    (hserved : (s.updLink l (fun k => { k with rx := k.rx.erase m })).serveReduce l m = (t, true)) :
    ∃ u, exec (.redMsg l m) s = .next u ∧ u.mem = t.mem := by
  obtain ⟨-, -, -, htype⟩ := id h
  refine ⟨_, if_pos htype, receive_mem h ?_⟩
  simpa [State.serveCoded, hcoded] using hserved

/-! ### A page array that the table hides, in the target of a reduction (R173 to R176)

`tablesApart` reads the region table by number, and so the first entry of a number; a translation searches every entry. In a table
that is not canonical, because it lists a number twice, the second entry's page array may therefore lie in the target of a reduction
through it. The element that holds the page array unmaps those combined after it. Which element comes first is free
(`Config.reduceOrder`, R92), so that the state has the page array in whichever does. -/

/-- One cacheable page of PART memory at device address 0, whose page array is the word of element `e` of its frame 0. -/
def hiddenRegion (e : Nat) : Region := ⟨.part, false, true, false, false, 1, 0, 1, BitVec.ofNat 40 (4 * e), 0, 0⟩

/-- Memory is 0, link 0 is ACTIVE for context 0 of partition 0, and entry 0 is listed twice: empty, and then as the region. -/
def selfMapped (e : Nat) : State :=
  { State.reset with
    parts := [(0, { Part.reset with
      pll := .running
      rowsPart := 1
      regions := [(0, none), (0, some (hiddenRegion e))]
      ctxs := [(0, { Ctx.reset with st := .running })] })]
    links := [(0, { Link.reset with st := .active, grants := [(0, ⟨true, 0⟩)] })] }

/-- An INT32 addition of -1 to each of the eight elements at device address 0. -/
def addsOnes : Msg :=
  State.reset.mkMsg { MsgSpec.zero with type := 4, len := 1, op := 48, fmt := 12, data := List.replicate 32 255 }

/-- What its addresses translate to. -/
def hiddenXlats (e : Nat) : List Xlat := (List.range 32).map (fun a => ⟨0, hiddenRegion e, 0, .dram a⟩)

/-- The state in which the message is performed. -/
def selfMappedHeard (e : Nat) : State := (selfMapped e).updLink 0 (fun k => { k with rx := k.rx.erase addsOnes })

/-- The state in which its elements are combined. -/
def selfMappedMet (e : Nat) : State :=
  ((selfMappedHeard e).reductionMet 0 addsOnes (hiddenXlats e)).accessLines true true (hiddenXlats e)

/-- The state once the element that holds the page array has been combined. -/
def selfUnmapped (e : Nat) : State := (selfMappedMet e).reduceAll 0 0 0 12 [(32 * e, 2 ^ 32 - 1)]

theorem selfMapped_quiet_arrives : ∀ e < 8, quietMemory (selfMapped e) ∧ arrives (selfMapped e) 0 addsOnes 0x04 := by
  simp only [quietMemory, arrives]
  decide +kernel

theorem selfMapped_plain : ∀ e < 8, ((selfMapped e).link 0).landed = [] ∧ (selfMapped e).readParked 0 addsOnes = false
    ∧ (selfMapped e).denies 0 addsOnes = 0 ∧ addsOnes.rdatum = false ∧ addsOnes.poison = false ∧ addsOnes.coded = false
    ∧ mdatBad addsOnes = false := by decide +kernel

theorem selfMapped_reaches_nodup : ∀ e < 8, reaches (selfMapped e) 0 true (hiddenXlats e) ∧ (placesOf (hiddenXlats e)).Nodup := by
  simp only [reaches]
  decide +kernel

theorem selfMapped_reach : ∀ e < 8,
    ((selfMapped e).reach 0 addsOnes (addrRun addsOnes.addr (32 * addsOnes.len)) Region.atomicOk).toOption = some (hiddenXlats e)
    ∧ ((selfMappedHeard e).reach 0 addsOnes (addrRun addsOnes.addr (32 * addsOnes.len)) Region.atomicOk).toOption
      = some (hiddenXlats e) := by decide +kernel

theorem selfMappedHeard_accepts : ∀ e < 8, (selfMappedHeard e).hasLanded 0 addsOnes = false ∧ (selfMappedHeard e).denies 0 addsOnes = 0
    ∧ (((selfMappedHeard e).ack 0 addsOnes 0).heldUp 0 true (hiddenXlats e)).isNone = true := by decide +kernel

theorem selfMappedMet_clean : ∀ e < 8, ((selfMappedHeard e).reductionMet 0 addsOnes (hiddenXlats e)).memErr = []
    ∧ ((selfMappedHeard e).reductionMet 0 addsOnes (hiddenXlats e)).hostErr = []
    ∧ ((selfMappedHeard e).reductionMet 0 addsOnes (hiddenXlats e)).waits = [] ∧ (selfMappedMet e).freeCtr = 0 := by decide +kernel

theorem selfMappedMet_mapped : ∀ e < 8, ∀ u ∈ rawUpdates addsOnes, ∀ a ∈ bitBytes u.1 (rawWidth 12),
    ((selfMappedMet e).translate 0 0 a).isSome = true := by decide +kernel

theorem selfUnmapped_unmapped : ∀ e < 8, ∀ j < 8,
    (selfUnmapped e).translateAll 0 0 (bitBytes (32 * j) (rawWidth 12)) = none := by decide +kernel

theorem selfUnmapped_elem : ∀ e < 8, ∀ j < 8, j ≠ e →
    leNat ((((selfUnmapped e).bytesAt (placesOf (hiddenXlats e))).drop (j * 4)).take 4) = 0 := by decide +kernel

theorem combine_addsOnes : ∀ e < 8, ∀ j < 8, combine (addsOnes.op % 4) addsOnes.target
    (leNat ((((selfMapped e).bytesAt (placesOf (hiddenXlats e))).drop (j * 4)).take 4)) (leNat ((addsOnes.data.drop (j * 4)).take 4))
      = 2 ^ 32 - 1 := by decide +kernel

/-- The updates of the message: the bit of each element's target, and its pattern. -/
theorem rawUpdates_addsOnes : rawUpdates addsOnes = (List.range 8).map (fun j => (32 * j, 2 ^ 32 - 1)) := by decide +kernel

theorem addsOnes_fields : addsOnes.dctx = 0 ∧ addsOnes.op % 4 = 0 ∧ addsOnes.target = 12 ∧ addsOnes.len = 1 := by decide +kernel

theorem eq_ok_of_toOption {ε α : Type} {r : Except ε α} {a : α} (h : r.toOption = some a) : r = .ok a := by
  cases r with
  | error e => cases h
  | ok b => exact congrArg _ (Option.some.inj h)

/-- An order of the eight updates that begins with the element that holds the page array ends with that element. -/
theorem selfMappedMet_reduceAll {e : Nat} (he : e < 8) (horder : Config.reduceOrder 0 7 % 8 = e) :
    (selfMappedMet e).reduceAll 0 0 0 12 (freeOrder 0 8 (rawUpdates addsOnes)) = selfUnmapped e := by
  have hfirst : (rawUpdates addsOnes)[e]? = some (32 * e, 2 ^ 32 - 1) := by simp [rawUpdates_addsOnes, he]
  have hbegins : freeOrder 0 8 (rawUpdates addsOnes) = (32 * e, 2 ^ 32 - 1) :: freeOrder 0 7 (delNth (rawUpdates addsOnes) e) := by
    have hlen : max 1 (rawUpdates addsOnes).length = 8 := by simp [rawUpdates_addsOnes]
    rw [freeOrder]
    simp only [hlen, horder, hfirst]
  rw [hbegins]
  refine reduceAll_last rfl fun u hu => ?_
  have hmem : u ∈ rawUpdates addsOnes :=
    (perm_delNth hfirst).mem_iff.2 (List.mem_cons_of_mem _ ((freeOrder_perm 0 7 _).mem_iff.1 hu))
  rw [rawUpdates_addsOnes] at hmem
  obtain ⟨j, hj, rfl⟩ := List.mem_map.1 hmem
  exact selfUnmapped_unmapped e he j (List.mem_range.1 hj)

/-- What memory the message leaves. -/
theorem redMsg_selfMapped {e : Nat} (he : e < 8) (horder : Config.reduceOrder 0 7 % 8 = e) :
    ∃ t, exec (.redMsg 0 addsOnes) (selfMapped e) = .next t ∧ t.mem = (selfUnmapped e).mem := by
  obtain ⟨-, harr⟩ := selfMapped_quiet_arrives e he
  obtain ⟨-, -, -, -, hpoison, hcoded, hdatum⟩ := selfMapped_plain e he
  obtain ⟨hland, hdenies, hheld⟩ := selfMappedHeard_accepts e he
  obtain ⟨hmem, hhost, hwaits, hctr⟩ := selfMappedMet_clean e he
  obtain ⟨hctx, hrop, htarget, -⟩ := addsOnes_fields
  have hserved := serveReduce_accepted hland hdenies (eq_ok_of_toOption (selfMapped_reach e he).2) hdatum hpoison rfl rfl
    (Option.isNone_iff_eq_none.1 hheld)
  obtain ⟨t, hexec, ht⟩ := redMsg_mem harr hcoded hserved
  refine ⟨t, hexec, ht.trans ?_⟩
  have hlen : (rawUpdates addsOnes).length = 8 := by simp [rawUpdates_addsOnes]
  have howner : ownerOfLink 0 = 0 := rfl
  rw [howner, hctx, hrop, htarget, peerReduce_mem 0 hmem hhost hwaits (selfMappedMet_mapped e he), hlen]
  show ((selfMappedMet e).reduceAll 0 0 0 12 (freeOrder (selfMappedMet e).freeCtr 8 (rawUpdates addsOnes))).mem = _
  rw [hctr, selfMappedMet_reduceAll he horder]

/-- No entry of the table can be read by its number, so that no page array is known to lie in the message's target. -/
theorem selfMapped_tablesApart (e : Nat) : tablesApart (selfMapped e) 0 (hiddenXlats e) := by
  intro n r hr
  have hnone : ((selfMapped e).part 0).regions.get none n = none := by
    show Tbl.get none [(0, none), (0, some (hiddenRegion e))] n = none
    by_cases hn : 0 = n <;> simp [hn]
  rw [hnone] at hr
  cases hr

/-- The target lies in stack memory. -/
theorem bytesAt_hiddenXlats {s t : State} (e : Nat) (h : t.mem = s.mem) :
    t.bytesAt (placesOf (hiddenXlats e)) = s.bytesAt (placesOf (hiddenXlats e)) := by
  simp [State.bytesAt, placesOf, hiddenXlats, State.byteAt, h]

end Sys2Proof.Machine

section
open Sys2Proof Sys2Proof.Machine

/-- Refutes O55: a region table that lists entry 0 twice, empty and then as a region whose page array is an element of the reduction's
target, meets `tablesApart` (R175, R176). The element's sum, 0xFFFFFFFF, unmaps the page, and no element after it is combined. -/
theorem not_peerRequests : ¬ Obligations.PeerRequests := by
  intro h
  obtain ⟨e, he, horder⟩ : ∃ e < 8, Config.reduceOrder 0 7 % 8 = e := ⟨_, Nat.mod_lt _ (by decide), rfl⟩
  obtain ⟨hquiet, harr⟩ := selfMapped_quiet_arrives e he
  obtain ⟨hreaches, hnodup⟩ := selfMapped_reaches_nodup e he
  obtain ⟨-, -, -, hred, -⟩ := h (selfMapped e) 0 addsOnes hquiet
  obtain ⟨t, hexec, -, helem, -⟩ := hred (hiddenXlats e) harr (selfMapped_plain e he) (eq_ok_of_toOption (selfMapped_reach e he).1)
    hreaches hnodup (selfMapped_tablesApart e)
  obtain ⟨u, hexec', hmem⟩ := redMsg_selfMapped he horder
  obtain rfl : t = u := Host.Outcome.next.inj (hexec.symm.trans hexec')
  obtain ⟨j, hj, hne⟩ : ∃ j < 8, j ≠ e := ⟨if e = 0 then 1 else 0, by split <;> decide, by split <;> omega⟩
  obtain ⟨-, -, htarget, hlen⟩ := addsOnes_fields
  have hwidth : rawWidth addsOnes.target / 8 = 4 := by rw [htarget]; rfl
  have hbecomes := helem j (by rw [hwidth, hlen]; exact hj)
  rw [bytesAt_hiddenXlats e hmem, hwidth] at hbecomes
  beta_reduce at hbecomes
  rw [selfUnmapped_elem e he j hj hne, combine_addsOnes e he j hj] at hbecomes
  exact absurd hbecomes (by decide)

end

namespace Sys2Proof.Machine

/-! ## Messages that go out over a link (R315, R318, R319) -/

/-- What sending over a link and the return of credit leave of it: all but its queue, its frames and its credit. -/
def Link.OnlySends (k j : Link) : Prop :=
  { j with
    txQ := k.txQ, retry := k.retry, txSeq := k.txSeq, credReq := k.credReq, credRsp := k.credRsp, credBulk := k.credBulk,
    credCtl := k.credCtl, sentAll := k.sentAll, sentBulk := k.sentBulk, told := k.told, retReq := k.retReq, retRsp := k.retRsp,
    retBulk := k.retBulk, retCtl := k.retCtl, refused := k.refused } = k

/-- A message is in a link's queue or begins in one of its unacknowledged frames. -/
def Link.sends (k : Link) (r : Msg) : Prop := r ∈ k.txQ ∨ ∃ f ∈ k.retry, r ∈ f.msgs

theorem Link.OnlySends.trans {k j i : Link} (h : k.OnlySends j) (g : j.OnlySends i) : k.OnlySends i := by
  unfold Link.OnlySends at *
  rw [← h, ← g]

/-- Nothing changes but links, armed flip masks and the count of those fired. -/
def OnlyLinkWork (s t : State) : Prop :=
  { t with links := s.links, hk := { t.hk with flips := s.hk.flips, fired := s.hk.fired } } = s

theorem OnlyLinkWork.trans {s t u : State} (h : OnlyLinkWork s t) (g : OnlyLinkWork t u) : OnlyLinkWork s u := by
  unfold OnlyLinkWork at *
  rw [← h, ← g]

/-- What goes out over link `l` between two states: the other links, what `l` awaits and what it has received are as they were, no
message on its way is lost, and no flip mask is armed. -/
structure SendsOver (l : Fin 48) (s t : State) : Prop where
  rest : OnlyLinkWork s t
  others : ∀ o, o ≠ l → t.link o = s.link o
  own : (s.link l).OnlySends (t.link l)
  out : ∀ r, goesOut s l r → goesOut t l r
  unarmed : s.hk.flips = [] → t.hk.flips = []

namespace SendsOver

variable {l : Fin 48} {s t u : State}

theorem refl (l : Fin 48) (s : State) : SendsOver l s s := ⟨rfl, fun _ _ => rfl, rfl, fun _ => id, id⟩

theorem trans (h : SendsOver l s t) (g : SendsOver l t u) : SendsOver l s u :=
  ⟨h.rest.trans g.rest, fun o ho => (g.others o ho).trans (h.others o ho), h.own.trans g.own, fun r hr => g.out r (h.out r hr),
    fun hf => g.unarmed (h.unarmed hf)⟩

theorem of_updLink (s : State) (l : Fin 48) {f : Link → Link} (hf : (s.link l).OnlySends (f (s.link l)))
    (hout : ∀ r, (s.link l).sends r → (f (s.link l)).sends r) : SendsOver l s (s.updLink l f) := by
  have hlink : (s.updLink l f).link l = f (s.link l) := by simp
  exact ⟨rfl, fun o ho => by simp [ho], hlink ▸ hf, fun r hr => (congrArg (Link.sends · r) hlink).mpr (hout r hr), id⟩

theorem of_fire (s : State) (l : Fin 48) (key : Nat) : SendsOver l s (s.fire key).2 := by
  unfold State.fire
  dsimp only
  split
  · exact refl l s
  · next hm => exact ⟨rfl, fun _ _ => rfl, rfl, fun _ => id, fun h => absurd (by rw [h]; rfl) hm⟩

end SendsOver

/-! ### What sending leaves of a link -/

theorem spend_onlySends (k : Link) (vc n : Nat) : k.OnlySends (k.spend vc n) := by
  unfold Link.spend
  split <;> rfl

theorem giveBack_onlySends (k : Link) (vc n : Nat) : k.OnlySends (k.giveBack vc n) ∧ (k.giveBack vc n).txQ = k.txQ
    ∧ (k.giveBack vc n).retry = k.retry := by
  unfold Link.giveBack
  split <;> exact ⟨rfl, rfl, rfl⟩

theorem units_pos (m : Msg) : 0 < m.units := by
  unfold Msg.units
  split <;> omega

/-- Every message fills at least one frame. -/
theorem frames_pos (m : Msg) : 0 < Msg.frames m := by
  have := units_pos m
  unfold Msg.frames cdiv
  omega

theorem transmit_onlySends (k : Link) (m : Msg) (bad : Bool) : k.OnlySends (k.transmit m bad) := by
  have hspend := spend_onlySends k m.vc m.units
  unfold Link.OnlySends at hspend
  unfold Link.transmit
  dsimp only
  split <;> exact hspend

/-- A message that is put into frames begins in the first of them; the others stay in the queue. -/
theorem transmit_sends {k : Link} (m : Msg) (bad : Bool) {r : Msg} (h : k.sends r) : (k.transmit m bad).sends r := by
  have hq : (k.transmit m bad).txQ = k.txQ.erase m := by
    unfold Link.transmit
    dsimp only
    split <;> rfl
  obtain ⟨fs, hretry, f, hf, hm⟩ : ∃ fs, (k.transmit m bad).retry = k.retry ++ fs ∧ ∃ f ∈ fs, m ∈ f.msgs := by
    unfold Link.transmit
    dsimp only
    split <;> exact ⟨_, rfl, _, List.mem_map.2 ⟨0, List.mem_range.2 (frames_pos m), rfl⟩, by simp⟩
  rw [Link.sends, hq, hretry]
  obtain h | ⟨g, hg, hr⟩ := h
  · by_cases hrm : r = m
    · exact .inr ⟨f, List.mem_append_right _ hf, hrm ▸ hm⟩
    · exact .inl ((List.mem_erase_of_ne hrm).2 h)
  · exact .inr ⟨g, List.mem_append_left _ hg, hr⟩

/-! ### Sending -/

theorem pump_sendsOver (s : State) (l : Fin 48) (n : Nat) : SendsOver l s (s.pump l n) := by
  induction n generalizing s with
  | zero => exact .refl l s
  | succ n ih =>
    rw [State.pump]
    dsimp only
    split
    · exact .refl l s
    · split
      · exact .refl l s
      · next m _ =>
        exact ((SendsOver.of_fire s l _).trans (.of_updLink _ l (f := fun k => k.transmit m _) (transmit_onlySends _ m _)
          (fun _ => transmit_sends m _))).trans (ih _)

/-- A message that is sent is on its way to the peer. -/
theorem sendMsg_sendsOver (s : State) (l : Fin 48) (m : Msg) : SendsOver l s (s.sendMsg l m) ∧ goesOut (s.sendMsg l m) l m := by
  have hqueued : SendsOver l s (s.updLink l (fun k => { k with txQ := k.txQ ++ [m] })) :=
    .of_updLink s l rfl (fun r hr => hr.imp_left (List.mem_append_left _))
  have hpump := pump_sendsOver (s.updLink l (fun k => { k with txQ := k.txQ ++ [m] })) l
    ((s.updLink l (fun k => { k with txQ := k.txQ ++ [m] })).link l).txQ.length
  exact ⟨hqueued.trans hpump, hpump.out m (.inl (by simp))⟩

/-- Sending a request changes links, and fires flip masks. -/
theorem request_onlyLinkWork (s : State) (l : Fin 48) (who : Waiter) (m : Msg) : OnlyLinkWork s (s.request l who m) := by
  unfold State.request
  dsimp only
  split
  · exact OnlyLinkWork.trans (t := s.setLink l _) rfl (sendMsg_sendsOver _ l _).1.rest
  · rfl

theorem askFor_onlyLinkWork (s : State) (c : CoreId) (id : Nat) (l : Fin 48) (m : MacroOp) (as : List Nat) :
    OnlyLinkWork s (s.askFor c id l m as) :=
  foldl_keeps OnlyLinkWork (fun _ => rfl) (fun _ _ _ => .trans) _ (fun s _ => request_onlyLinkWork s l _ _) _ s

/-! ### What is as it was -/

namespace OnlyLinkWork

variable {s t : State} (h : OnlyLinkWork s t)
include h

theorem mem_eq : t.mem = s.mem := by rw [← h]
theorem cores_eq : t.cores = s.cores := by rw [← h]
theorem pkts_eq : t.pkts = s.pkts := by rw [← h]
theorem colls_eq : t.colls = s.colls := by rw [← h]
theorem parts_eq : t.parts = s.parts := by rw [← h]
theorem part_eq (p : Fin 4) : t.part p = s.part p := State.part_of_parts s t h.parts_eq p
theorem ctx_eq (p : Fin 4) (x : Fin 16) : t.ctx p x = s.ctx p x := State.ctx_of_parts s t h.parts_eq p x
theorem core_eq (c : CoreId) : t.core c = s.core c := State.core_of_cores s t h.cores_eq c

theorem byteAt_eq (pl : Place) : t.byteAt pl = s.byteAt pl := byteAt_congr (by rw [← h]) (by rw [← h]) pl

theorem sameMap : SameMap s t := ⟨h.mem_eq, by rw [← h], fun p => by rw [h.part_eq], fun p => by rw [h.part_eq]⟩

theorem sameHolds : SameHolds s t :=
  ⟨fun p => by rw [h.part_eq], fun p => by rw [h.part_eq], fun k => by rw [← h]; rfl, by rw [← h]⟩

theorem collAt_eq (p : Fin 4) (x : Fin 16) (id : Nat) : t.collAt p x id = s.collAt p x id := by
  rw [State.collAt, State.collAt, h.colls_eq]

theorem collPkt_eq (c : Coll) : t.collPkt c = s.collPkt c := by rw [State.collPkt, State.collPkt, h.pkts_eq]

end OnlyLinkWork

namespace SendsOver

variable {l : Fin 48} {s t : State} (h : SendsOver l s t)
include h

theorem link_onlySends (o : Fin 48) : (s.link o).OnlySends (t.link o) := by
  by_cases ho : o = l
  · exact ho ▸ h.own
  · rw [h.others o ho]
    rfl

theorem ops_eq (o : Fin 48) : (t.link o).ops = (s.link o).ops := by rw [← h.link_onlySends o]
theorem rspRes_eq (o : Fin 48) : (t.link o).rspRes = (s.link o).rspRes := by rw [← h.link_onlySends o]
theorem reqWait_eq (o : Fin 48) : (t.link o).reqWait = (s.link o).reqWait := by rw [← h.link_onlySends o]
theorem drains_eq (o : Fin 48) : (t.link o).drains = (s.link o).drains := by rw [← h.link_onlySends o]
theorem landed_eq (o : Fin 48) : (t.link o).landed = (s.link o).landed := by rw [← h.link_onlySends o]
theorem grants_eq (o : Fin 48) : (t.link o).grants = (s.link o).grants := by rw [← h.link_onlySends o]

theorem awaiting_eq (p : Fin 4) (w : Waiter) : t.awaiting p w = s.awaiting p w := by
  simp only [State.awaiting, h.ops_eq, h.reqWait_eq, h.drains_eq]

theorem hasLanded_eq (o : Fin 48) (m : Msg) : t.hasLanded o m = s.hasLanded o m := by
  rw [State.hasLanded, State.hasLanded, h.landed_eq]

theorem denies_eq (o : Fin 48) (m : Msg) : t.denies o m = s.denies o m := by
  simp only [State.denies, State.granted, h.grants_eq, h.rest.ctx_eq]

theorem shardReason_eq (o : Fin 48) (m : Msg) : t.shardReason o m = s.shardReason o m := by
  have hpkt : t.collPkt = s.collPkt := funext h.rest.collPkt_eq
  rw [State.shardReason, State.shardReason, h.hasLanded_eq, h.denies_eq, h.rest.collAt_eq, hpkt]

theorem reach_eq (o : Fin 48) (m : Msg) (as : List Nat) (ok : Region → Bool) : t.reach o m as ok = s.reach o m as ok := by
  rw [State.reach, State.reach, h.rest.sameMap.access_eq]

theorem quiet (hq : quietMemory s) : quietMemory t := by
  obtain ⟨he, hh, hf, hw, hd⟩ := hq
  have hrest := h.rest
  unfold OnlyLinkWork at hrest
  exact ⟨by rw [← he, ← hrest], by rw [← hh, ← hrest], h.unarmed hf, by rw [← hw, ← hrest], by rw [← hd, ← hrest]⟩

end SendsOver

/-! ### The fields of a message that this device builds (R324) -/

theorem leNat_drop (l : List Byte) (o : Nat) : leNat (l.drop o) = leNat l / 256 ^ o := by
  induction o generalizing l with
  | zero => simp
  | succ o ih =>
    cases l with
    | nil => simp [leNat]
    | cons b l =>
      have := b.isLt
      rw [List.drop_succ_cons, ih, leNat, pow_succ', ← Nat.div_div_eq_div_mul, show (b.toNat + 256 * leNat l) / 256 = leNat l by omega]

theorem leNat_take (l : List Byte) (w : Nat) : leNat (l.take w) = leNat l % 256 ^ w := by
  induction w generalizing l with
  | zero => simp [leNat, Nat.mod_one]
  | succ w ih =>
    cases l with
    | nil => simp [leNat]
    | cons b l =>
      have := b.isLt
      rw [List.take_succ_cons, leNat, leNat, ih, pow_succ', Nat.mod_mul, Nat.add_mul_mod_self_left, Nat.mod_eq_of_lt this,
        show (b.toNat + 256 * leNat l) / 256 = leNat l by omega]

/-- A field of a header that bytes make up is the number that its own bytes hold. -/
theorem f_of_bytes {bs : List Byte} (data : List Byte) (hlen : bs.length = 32) (o w : Nat) :
    Msg.f ⟨BitVec.ofNat 256 (leNat bs), data⟩ o w = leNat ((bs.drop o).take w) := by
  have hlt : leNat bs < 2 ^ 256 := by
    have := leNat_lt bs
    rw [hlen] at this
    exact this
  rw [Msg.f, BitVec.toNat_ofNat, Nat.mod_eq_of_lt hlt, leNat_take, leNat_drop, pow_mul, pow_mul]
  norm_num

theorem mkMsg_fields (s : State) (m : MsgSpec) : (s.mkMsg m).type = m.type % 256 ∧ (s.mkMsg m).tag = m.tag % 65536
    ∧ (s.mkMsg m).op = m.op % 256 ∧ (s.mkMsg m).data = m.data := by
  refine ⟨?_, ?_, ?_, rfl⟩
  · rw [State.mkMsg, Msg.type, f_of_bytes _ (by simp [length_leBytes])]
    simp [leBytes, leNat]
  · rw [State.mkMsg, Msg.tag, f_of_bytes _ (by simp [length_leBytes])]
    simp [leBytes, leNat]
    omega
  · rw [State.mkMsg, Msg.op, f_of_bytes _ (by simp [length_leBytes])]
    simp [leBytes, leNat]

theorem tag_lt (m : Msg) : m.tag < 65536 := Nat.mod_lt _ (by decide)

/-- A message that is accepted is acknowledged. -/
theorem ack_replied (s : State) (l : Fin 48) (m : Msg) : SendsOver l s (s.ack l m 0) ∧ replied (s.ack l m 0) l m 0x09 0 [] := by
  obtain ⟨hsends, hgoes⟩ := sendMsg_sendsOver s l
    (s.mkMsg { MsgSpec.zero with type := 0x09, dctx := s.farCtx m.dctx l, tag := m.tag, op := 0 })
  obtain ⟨htype, htag, hop, hdata⟩ := mkMsg_fields s
    { MsgSpec.zero with type := 0x09, dctx := s.farCtx m.dctx l, tag := m.tag, op := 0 }
  exact ⟨hsends, _, hgoes, htype, htag.trans (Nat.mod_eq_of_lt (tag_lt m)), hop, hdata⟩

theorem SendsOver.replied {l : Fin 48} {s t : State} (h : SendsOver l s t) {m : Msg} {type reason : Nat} {data : List Byte}
    (hr : replied s l m type reason data) : replied t l m type reason data := by
  obtain ⟨r, hgoes, hfields⟩ := hr
  exact ⟨r, h.out r hgoes, hfields⟩

/-! ### A message that arrives (R318) -/

/-- The state in which a message that has arrived is performed. -/
def State.heard (s : State) (l : Fin 48) (m : Msg) : State := s.updLink l (fun k => { k with rx := k.rx.erase m })

theorem heard_sendsOver {s : State} {l : Fin 48} {m : Msg} {type : Nat} (h : arrives s l m type) : SendsOver l s (s.heard l m) := by
  obtain ⟨-, hrx, -, -⟩ := h
  refine .of_updLink s l ?_ (fun _ => id)
  unfold Link.OnlySends
  rw [hrx, List.erase_nil, ← hrx]

/-- Only parts of a coded chunk, which reductions and shards alone are, keep their credit. -/
theorem keepsCredit_eq_false {m : Msg} (h : (m.type ≠ 0x04 ∧ m.type ≠ 0x07) ∨ m.coded = false) : m.keepsCredit = false := by
  obtain ⟨h4, h7⟩ | hcoded := h
  · cases hc : m.coded
    · simp [Msg.keepsCredit, hc]
    · simp [Msg.keepsCredit, Msg.broken, hc, h4, h7]
  · simp [Msg.keepsCredit, hcoded]

theorem arrives_keepsCredit {s : State} {l : Fin 48} {m : Msg} {type : Nat} (h : arrives s l m type)
    (htype : type ≠ 0x04 ∧ type ≠ 0x07) : m.keepsCredit = false := by
  obtain ⟨-, -, -, hm⟩ := h
  exact keepsCredit_eq_false (.inl (hm ▸ htype))

/-- A message that arrives with none before it is performed, and then its credit returns. -/
theorem receiveAs_arrives {s t : State} {l : Fin 48} {m : Msg} {type : Nat} (f : State → State × Bool) (h : arrives s l m type)
    (hcredit : m.keepsCredit = false) (hf : f (s.heard l m) = (t, true)) :
    ∃ u, receiveAs type f l m s = .next u ∧ SendsOver l t u := by
  obtain ⟨hactive, hrx, hpll, htype⟩ := h
  obtain ⟨hback, hq, hr⟩ := giveBack_onlySends (t.link l) m.vc m.units
  have hpaid : SendsOver l t (t.updLink l (fun k => k.giveBack m.vc m.units)) :=
    .of_updLink t l hback (fun r hs => by rwa [Link.sends, hq, hr])
  refine ⟨_, if_pos htype, ?_⟩
  have hreceive : s.receive l m f = (t.updLink l (fun k => k.giveBack m.vc m.units)).pump l
      ((t.updLink l (fun k => k.giveBack m.vc m.units)).link l).txQ.length := by
    unfold State.heard at hf
    unfold State.receive
    simp only [hactive, hrx, hpll, hf]
    simp [hcredit]
  rw [hreceive]
  exact hpaid.trans (pump_sendsOver _ l _)

end Sys2Proof.Machine

namespace Sys2Proof.Machine

/-! ## Shards and `END`s of peers (R279, R322, R336, R337, R354) -/

/-! ### A raw shard (R322, R336) -/

/-- The elements of a raw shard that lie in the receive tensor of its collective: target bit and pattern. -/
def Pkt.shardHits (k : Pkt) (m : Msg) : List (Nat × Nat) :=
  shardUpdates k.recvBytes (m.data.take 32)
    (fun n => bitsAt (m.data.drop 32) (n * (shardDesc k.recvBytes).w) (shardDesc k.recvBytes).w)

/-- The addresses of those elements, each once. -/
def Pkt.shardAddrs (k : Pkt) (m : Msg) : List Nat :=
  ((k.shardHits m).flatMap (fun u => bitBytes u.1 (shardDesc k.recvBytes).w)).dedup

/-- The bytes that those elements make, over what the receive tensor holds. -/
def State.shardBytes (s : State) (k : Pkt) (m : Msg) : Tbl Byte :=
  (k.shardHits m).foldl (fun t u => putBits (s.devBytes k) t u.1 (shardDesc k.recvBytes).w u.2) []

theorem OnlyTraffic.links_eq {s t : State} (h : OnlyTraffic s t) : t.links = s.links := by rw [← h.rest]

theorem OnlyTraffic.sameMap {s t : State} (h : OnlyTraffic s t) : SameMap s t :=
  ⟨by rw [← h.rest], by rw [← h.rest], fun p => by rw [← h.part p], fun p => by rw [← h.part p]⟩

theorem OnlyTraffic.quiet {s t : State} (h : OnlyTraffic s t) (hq : quietMemory s) : quietMemory t := by
  obtain ⟨he, hh, hf, hw, hd⟩ := hq
  exact ⟨by rw [← he, ← h.rest], by rw [← hh, ← h.rest], by rw [← hf, ← h.rest], by rw [← hw, ← h.rest], by rw [← hd, ← h.rest]⟩

theorem OnlyBytes.links_eq {s t : State} (h : OnlyBytes s t) : t.links = s.links := by rw [h.rest]

theorem replied_of_links {s t : State} {l : Fin 48} {m : Msg} {type reason : Nat} {data : List Byte} (h : t.links = s.links)
    (hr : replied s l m type reason data) : replied t l m type reason data := by
  obtain ⟨r, hgoes, hfields⟩ := hr
  refine ⟨r, ?_, hfields⟩
  rw [goesOut, State.link_of_links s t h]
  exact hgoes

/-- What an element's bytes held is read through the same translations. -/
theorem shardBytes_congr {s t : State} (hmap : SameMap s t) (hbyte : ∀ pl, t.byteAt pl = s.byteAt pl) (k : Pkt) (m : Msg) :
    t.shardBytes k m = s.shardBytes k m := by
  have hdev : t.devBytes k = s.devBytes k := by
    funext a
    simp only [State.devBytes, hmap.translate_eq, hbyte]
  rw [State.shardBytes, State.shardBytes, hdev]

/-- An accepted message has been acknowledged, and its pages are cached. -/
theorem reductionMet_spec {s : State} {l : Fin 48} (m : Msg) (ts : List Xlat) (hland : (s.link l).landed = []) :
    ∃ v, SendsOver l s v ∧ replied v l m 0x09 0 [] ∧ OnlyTraffic v (s.reductionMet l m ts) := by
  obtain ⟨hsends, hreplied⟩ := ack_replied s l m
  have herase : SendsOver l (s.ack l m 0) ((s.ack l m 0).updLink l (fun k => { k with landed := k.landed.erase m })) := by
    refine .of_updLink _ l ?_ (fun _ => id)
    unfold Link.OnlySends
    rw [hsends.landed_eq, hland, List.erase_nil, ← hland, ← hsends.landed_eq]
  exact ⟨_, hsends.trans herase, herase.replied hreplied, cachePages_onlyTraffic _ _ _ _ ts⟩

/-- What a good raw shard that nothing holds up does: it is acknowledged, and then the bytes of its elements are written. -/
theorem serveShard_accepted {s : State} {l : Fin 48} {m : Msg} {k : Pkt} {ts tw : List Xlat} (hreason : s.shardReason l m = .ok k)
    (hland : s.hasLanded l m = false) (hdatum : mdatBad m = false) (hpoison : m.poison = false) (hraw : bit (pf k.pkt 37 1) 0 = false)
    (hreach : s.reach l m (k.shardAddrs m) (Region.writable false) = .ok ts)
    (hheld : (s.ack l m 0).heldUp (ownerOfLink l) true ts = none)
    (htw : (s.reductionMet l m ts).translateAll (ownerOfLink l) m.dctx (((s.reductionMet l m ts).shardBytes k m).map Prod.fst)
      = some tw) :
    s.serveShard l m = ((s.reductionMet l m ts).devWrite none tw (((s.reductionMet l m ts).shardBytes k m).map Prod.snd), true) := by
  unfold Pkt.shardAddrs Pkt.shardHits at hreach
  unfold State.shardBytes Pkt.shardHits State.reductionMet at *
  unfold State.serveShard
  simp only [hreason, State.keepBox, hraw, hdatum, hpoison, State.accept, hland, Bool.false_eq_true, if_false, hreach,
    State.landReason, State.perform, hheld, htw]

/-- Where memory is quiet, a raw shard writes the bytes of its elements and no other, and is acknowledged. -/
theorem serveShard_writes {s : State} {l : Fin 48} {m : Msg} {k : Pkt} {ts tw : List Xlat} (hq : quietMemory s)
    (hreason : s.shardReason l m = .ok k) (hland : (s.link l).landed = []) (hdatum : mdatBad m = false) (hpoison : m.poison = false)
    (hraw : bit (pf k.pkt 37 1) 0 = false) (hreach : s.reach l m (k.shardAddrs m) (Region.writable false) = .ok ts)
    (hheld : reaches s (ownerOfLink l) true ts)
    (htw : s.translateAll (ownerOfLink l) m.dctx ((s.shardBytes k m).map Prod.fst) = some tw) (hn : (placesOf tw).Nodup) :
    ∃ t, s.serveShard l m = (t, true) ∧ replied t l m 0x09 0 [] ∧ t.bytesAt (placesOf tw) = (s.shardBytes k m).map Prod.snd
      ∧ ∀ pl, pl ∉ placesOf tw → t.byteAt pl = s.byteAt pl := by
  obtain ⟨v, hsends, hreplied, hway⟩ := reductionMet_spec m ts hland
  have hbyte : ∀ pl, (s.reductionMet l m ts).byteAt pl = s.byteAt pl := fun pl => (hway.byteAt_eq pl).trans (hsends.rest.byteAt_eq pl)
  have hbytes : (s.reductionMet l m ts).shardBytes k m = s.shardBytes k m :=
    (shardBytes_congr hway.sameMap hway.byteAt_eq k m).trans (shardBytes_congr hsends.rest.sameMap hsends.rest.byteAt_eq k m)
  have hnone : (s.ack l m 0).heldUp (ownerOfLink l) true ts = none :=
    Option.isNone_iff_eq_none.1 (((ack_replied s l m).1.rest.sameHolds.heldAt_eq _ true (placesOf ts)).trans hheld)
  have htw' : (s.reductionMet l m ts).translateAll (ownerOfLink l) m.dctx ((s.shardBytes k m).map Prod.fst) = some tw := by
    rw [hway.sameMap.translateAll_eq, hsends.rest.sameMap.translateAll_eq, htw]
  obtain ⟨he, -, hf, hw, -⟩ := hway.quiet (hsends.quiet hq)
  obtain ⟨⟨u, htraffic, honly⟩, hstored, hkept⟩ := devWrite_quiet (bs := (s.shardBytes k m).map Prod.snd) hw he hf hn
    (by rw [translateAll_length htw', List.length_map, List.length_map])
  refine ⟨_, serveShard_accepted hreason (by simp [State.hasLanded, hland]) hdatum hpoison hraw hreach hnone (by rw [hbytes, htw']),
    ?_, ?_, fun pl hpl => ?_⟩ <;> rw [hbytes]
  · exact replied_of_links (honly.links_eq.trans (htraffic.links_eq.trans hway.links_eq)) hreplied
  · exact hstored
  · exact (hkept pl hpl).trans (hbyte pl)

/-! ### The `END` of a collective (R337) -/

/-- A collective's packet that runs in a context that runs, has sent all, and awaits `END`s at most. -/
structure LastStage (s : State) (k : Pkt) : Prop where
  status : k.status = .ok
  parked : k.parked = false
  done : k.done = false
  joined : k.joined = 3
  ctx : (s.ctx k.part k.ctx).st = .running
  awaiting : s.awaiting k.part k.waiter = false
  landed : ∀ x ∈ linksOf k.part, (s.link x).landed = []

theorem SendsOver.lastStage {l : Fin 48} {s t : State} (h : SendsOver l s t) {k : Pkt} (hk : LastStage s k) : LastStage t k :=
  { hk with
    ctx := by rw [h.rest.ctx_eq, hk.ctx]
    awaiting := (h.awaiting_eq _ _).trans hk.awaiting
    landed := fun x hx => (h.landed_eq x).trans (hk.landed x hx) }

/-- A collective all of whose sends and `END`s are out is done once no `END` and no landed shard of it is awaited. -/
theorem collNext_last {s : State} {k : Pkt} {c : Coll} (hpkts : s.pkts = [k]) (hcolls : s.colls = [c]) (hof : c.of k = true)
    (hkind : k.kind = .collective) (hk : LastStage s k) (n : Nat) :
    s.collNext k (n + 1) = if c.endIn = [] then { s with pkts := [{ k with effect := true }] } else s := by
  obtain ⟨hstatus, hparked, hdone, hjoined, hctx, hawait, hland⟩ := hk
  have hnow : s.now k = some k := by simp [State.now, hpkts, same_self]
  have hlands : (linksOf k.part).any (fun l => (s.link l).landed.any (fun m =>
      m.type = 7 && m.dctx = k.ctx && m.value % 65536 = pf k.pkt 32 2)) = false :=
    List.any_eq_false.2 fun x hx => by simp [hland x hx]
  rw [State.collNext]
  simp only [hnow, hstatus, hkind, hparked, hdone, hjoined, hctx, hawait, hlands, hcolls, updPkt_only hpkts]
  simp [hof]

/-- A collective with the sender of an `END` crossed off its list. -/
def Coll.crossed (c : Coll) (l : Fin 48) (m : Msg) : Coll := { c with endIn := c.endIn.erase (m.src, l.val) }

/-- What an `END` does for the only collective: its sender is crossed off the list, and with the list empty the work is done. -/
theorem endArrives_only {s : State} {l : Fin 48} {m : Msg} {k : Pkt} {c : Coll} (hpkts : s.pkts = [k]) (hcolls : s.colls = [c])
    (hcoll : s.collAt (ownerOfLink l) m.dctx (m.value % 65536) = some c) (hpkt : s.collPkt c = some k) (hk : LastStage s k) :
    (s.endArrives l m).colls = [c.crossed l m]
      ∧ (s.endArrives l m).pkts = [if (c.crossed l m).endIn = [] then { k with effect := true } else k]
      ∧ (s.endArrives l m).mem = s.mem ∧ (s.endArrives l m).links = s.links := by
  have hfound := List.find?_some hpkt
  simp only [Bool.and_eq_true, decide_eq_true_eq] at hfound
  obtain ⟨⟨hof, hkind⟩, -⟩ := hfound
  have hcrossed : s.updColl k (Coll.crossed · l m) = { s with colls := [c.crossed l m] } := by simp [State.updColl, hcolls, hof]
  have hends : s.endArrives l m = ({ s with colls := [c.crossed l m] } : State).collNext k 5 := by
    rw [State.endArrives, hcoll, Option.bind_some, hpkt, ← hcrossed]
    rfl
  rw [hends, collNext_last (c := c.crossed l m) (s := { s with colls := [c.crossed l m] }) hpkts rfl hof hkind { hk with } 4]
  split
  · exact ⟨rfl, rfl, rfl, rfl⟩
  · exact ⟨rfl, hpkts, rfl, rfl⟩

/-- An `END` for a collective whose context runs is acknowledged and takes effect. -/
theorem serveEnd_running {s : State} {l : Fin 48} {m : Msg} {c : Coll} (hdenies : s.denies l m = 0)
    (hcoll : s.collAt (ownerOfLink l) m.dctx (m.value % 65536) = some c) (hctx : (s.ctx (ownerOfLink l) m.dctx).st = .running) :
    s.serveEnd l m = ((s.ack l m 0).endArrives l m, true) := by
  have hctx' : ((s.ack l m 0).ctx (ownerOfLink l) m.dctx).st = .running := by rw [(ack_replied s l m).1.rest.ctx_eq, hctx]
  simp only [State.serveEnd, hdenies, hcoll, hctx', if_true]

/-! ### The mailbox of a context that is out (R348, R354) -/

/-- What a message leaves in the mailbox of a context, with the operation that awaits it. -/
def State.mailed (s : State) (p : Fin 4) (x : Fin 16) (l : Fin 48) (o : RemoteOp) (m : Msg) : State :=
  (s.writeMail p x m).updCtx p x (fun c => { c with mail := c.mail ++ [⟨l, o, m⟩] })

/-- A message in the mailbox changes no link, packet or collective. -/
theorem mailed_spec (s : State) (p : Fin 4) (x : Fin 16) (l : Fin 48) (o : RemoteOp) (m : Msg) :
    (s.mailed p x l o m).links = s.links ∧ (s.mailed p x l o m).colls = s.colls ∧ (s.mailed p x l o m).pkts = s.pkts
      ∧ ((s.mailed p x l o m).ctx p x).mail = (s.ctx p x).mail ++ [⟨l, o, m⟩] := by
  have hwrite : ∃ u, OnlyMemory s u ∧ s.writeMail p x m = u.draw 1 := ⟨_, writePart_onlyMemory s _ _ _, rfl⟩
  obtain ⟨u, honly, hu⟩ := hwrite
  have hctx : (u.draw 1).ctx p x = s.ctx p x := State.ctx_of_parts s _ honly.parts_eq p x
  rw [State.mailed, hu]
  refine ⟨honly.links_eq, ?_, honly.pkts_eq, ?_⟩
  · show u.colls = s.colls
    rw [← honly]
  · rw [ctx_updCtx, if_pos rfl, hctx]

/-- What stands in a mailbox for the request that an `END` does not answer. -/
def endOp (l : Fin 48) (m : Msg) : RemoteOp := ⟨0, ⟨.packet 0 0, ownerOfLink l, m.dctx, 0, 0⟩, m, false⟩

/-- An `END` for a collective whose context is out is acknowledged and goes to the mailbox. -/
theorem serveEnd_out {s : State} {l : Fin 48} {m : Msg} {c : Coll} (hdenies : s.denies l m = 0)
    (hcoll : s.collAt (ownerOfLink l) m.dctx (m.value % 65536) = some c) (hctx : (s.ctx (ownerOfLink l) m.dctx).st ≠ .running) :
    s.serveEnd l m = ((s.ack l m 0).mailed (ownerOfLink l) m.dctx l (endOp l m) m, true) := by
  have hctx' : ((s.ack l m 0).ctx (ownerOfLink l) m.dctx).st ≠ .running := by rwa [(ack_replied s l m).1.rest.ctx_eq]
  simp only [State.serveEnd, hdenies, hcoll, hctx', if_false]
  rfl

end Sys2Proof.Machine

namespace Sys2Proof.Machine

/-! ## Replies of peers (R282, R319, R326, R330, R354) -/

/-! ### Taking a reply (R319, R326) -/

/-- The request that a link awaits a reply to is gone, with the room reserved for it. -/
def State.roomFreed (s : State) (l : Fin 48) (o : RemoteOp) : State :=
  s.updLink l (fun k => { k with ops := [], rspRes := k.rspRes - 32 * o.msg.replyUnits })

/-- Between two states the only request of a link has gone, and the room for its reply is free again. -/
def Freed (s : State) (l : Fin 48) (o : RemoteOp) (t : State) : Prop :=
  (t.link l).ops = [] ∧ (t.link l).rspRes = (s.link l).rspRes - 32 * o.msg.replyUnits

theorem roomFreed_freed {s v : State} {l : Fin 48} (o : RemoteOp) (h : SendsOver l s v) : Freed s l o (v.roomFreed l o) := by
  rw [Freed, ← h.rspRes_eq]
  simp [State.roomFreed]

theorem SendsOver.freed {s t u : State} {l : Fin 48} {o : RemoteOp} (h : SendsOver l t u) (hf : Freed s l o t) : Freed s l o u := by
  rwa [Freed, h.ops_eq, h.rspRes_eq]

theorem Freed.of_links {s t u : State} {l : Fin 48} {o : RemoteOp} (hf : Freed s l o t) (h : u.links = t.links) : Freed s l o u := by
  rwa [Freed, State.link_of_links t u h]

theorem find_only_op {k : Link} {o : RemoteOp} {m : Msg} (hops : k.ops = [o]) (htag : o.tag.toNat = m.tag) :
    k.ops.find? (fun o => o.tag.toNat = m.tag) = some o := by
  simp [hops, htag]

/-- A reply to the only request of a link frees its room, and takes effect. -/
theorem takeReply_only {s : State} {l : Fin 48} {m : Msg} {o : RemoteOp} (hops : (s.link l).ops = [o]) (htag : o.tag.toNat = m.tag)
    (hwait : (s.link l).reqWait = []) (hop : m.op ≠ 6) : s.takeReply l m = ((s.roomFreed l o).arriveReply l o m, true) := by
  have hfree : s.updLink l (fun k => { k with
      ops := k.ops.filter (fun e => e.tag ≠ o.tag)
      rspRes := k.rspRes - 32 * o.msg.replyUnits }) = s.roomFreed l o := by
    simp [State.roomFreed, hops]
  have hnone : ((s.roomFreed l o).link l).reqWait = [] := by simp [State.roomFreed, hwait]
  rw [State.takeReply, find_only_op hops htag]
  dsimp only
  rw [if_neg hop, hfree, hnone]
  rfl

/-- A request refused `NOT_READY` keeps its room, and is marked to be sent again. -/
theorem takeReply_notReady {s : State} {l : Fin 48} {m : Msg} {o : RemoteOp} (hops : (s.link l).ops = [o])
    (htag : o.tag.toNat = m.tag) (hop : m.op = 6) :
    s.takeReply l m = (s.updLink l (fun k => { k with ops := [{ o with resend := true }] }), true) := by
  rw [State.takeReply, find_only_op hops htag]
  simp [hop, hops]

theorem arriveReply_running {s : State} {l : Fin 48} {o : RemoteOp} {m : Msg} (hlane : o.who.lane ≠ 3)
    (hctx : (s.ctx o.who.part o.who.ctx).st = .running) : s.arriveReply l o m = s.deliver l o m := by
  simp [State.arriveReply, hlane, hctx]

theorem arriveReply_out {s : State} {l : Fin 48} {o : RemoteOp} {m : Msg} (hlane : o.who.lane ≠ 3)
    (hctx : (s.ctx o.who.part o.who.ctx).st ≠ .running) : s.arriveReply l o m = s.mailed o.who.part o.who.ctx l o m := by
  simp only [State.arriveReply, hlane, hctx, if_false]
  rfl

/-- A request that the link holds alone is sent again by itself. -/
theorem notReadyResend_only {s : State} {l : Fin 48} {o : RemoteOp} (hops : (s.link l).ops = [o]) (hwait : (s.link l).reqWait = [])
    (hresend : o.resend = true) : execNotReadyResend l o.tag s
      = .next ((s.updLink l (fun k => { k with ops := [{ o with resend := false }] })).sendMsg l o.msg) := by
  have hchunk : chunkOps [o] [] o.tag = [o] := by
    by_cases hfirst : (!o.msg.coded || decide (o.msg.mark = 0) || decide (o.msg.mark = 1)) = true <;> simp [chunkOps, hfirst]
  have hmark : s.updLink l (fun k => { k with ops := [({ o with resend := false } : RemoteOp)] })
      = s.updLink l (fun k => { k with ops := k.ops.map (fun e => if [o].any (fun x => x.tag = e.tag) then { e with resend := false } else e) }) := by
    simp [hops]
  unfold execNotReadyResend
  rw [hmark]
  simp only [hops, hwait]
  simp [hresend, hchunk]

/-! ### Replies for packets (R326) -/

theorem pktAt_only {s : State} {k : Pkt} (hpkts : s.pkts = [k]) (hq : k.q < 256) : s.pktAt (k.q % 256) k.i k.lane k.laneIdx = some k := by
  simp [State.pktAt, hpkts, Nat.mod_eq_of_lt hq]

/-- An `ACK` for the only packet reaches it. -/
theorem deliver_ack {s : State} {l : Fin 48} {o : RemoteOp} {m : Msg} {k : Pkt} (htype : m.type = 0x09) (hwho : o.who = k.waiter)
    (hpkts : s.pkts = [k]) (hq : k.q < 256) : s.deliver l o m = s.pktReply k o m.op := by
  rw [State.deliver, if_neg (by omega), if_neg (by omega), hwho]
  dsimp only [Pkt.waiter]
  rw [pktAt_only hpkts hq]

/-- An `ACK` for the only packet reaches it where its context runs. -/
theorem arriveReply_ack {s t : State} {l : Fin 48} {o : RemoteOp} {m : Msg} {k : Pkt} (harr : arrives s l m 0x09)
    (hpkts : t.pkts = [k]) (hq : k.q < 256) (hlane : k.lane < 3) (hwho : o.who = k.waiter)
    (hctx : (t.ctx k.part k.ctx).st = .running) : t.arriveReply l o m = t.pktReply k o m.op := by
  obtain ⟨-, -, -, htype⟩ := harr
  have hnot : o.who.lane ≠ 3 := by
    rw [hwho]
    exact hlane.ne
  rw [arriveReply_running hnot (by rw [hwho]; exact hctx), deliver_ack htype hwho hpkts hq]

/-- No packet comes or goes, and no link's reserved room or number of requests changes. -/
structure KeepsRequests (s t : State) : Prop where
  pkts : t.pkts = s.pkts
  room : ∀ l, (t.link l).rspRes = (s.link l).rspRes ∧ (t.link l).ops.length = (s.link l).ops.length

namespace KeepsRequests

theorem of_links {s t : State} (hp : t.pkts = s.pkts) (hl : t.links = s.links) : KeepsRequests s t :=
  ⟨hp, fun l => by rw [State.link_of_links s t hl]; exact ⟨rfl, rfl⟩⟩

theorem refl (s : State) : KeepsRequests s s := of_links rfl rfl

theorem trans {s t u : State} (h : KeepsRequests s t) (g : KeepsRequests t u) : KeepsRequests s u :=
  ⟨g.pkts.trans h.pkts, fun l => ⟨(g.room l).1.trans (h.room l).1, (g.room l).2.trans (h.room l).2⟩⟩

theorem foldl {α : Type} (f : State → α → State) (hf : ∀ s a, KeepsRequests s (f s a)) (l : List α) (s : State) :
    KeepsRequests s (l.foldl f s) := foldl_keeps KeepsRequests refl (fun _ _ _ => trans) f hf l s

end KeepsRequests

theorem get_map_values {α : Type} (d : α) {f : α → α} (hd : f d = d) (t : Tbl α) (n : Nat) :
    Tbl.get d (t.map (fun e => (e.1, f e.2))) n = f (Tbl.get d t n) := by
  induction t with
  | nil => exact hd.symm
  | cons e t ih =>
    rw [List.map_cons, Tbl.get_cons, Tbl.get, ih]
    split <;> rfl

/-- A link whose waiters that a test picks are gone. -/
def Link.orphaned (t : Waiter → Bool) (k : Link) : Link :=
  { k with
    ops := k.ops.map (fun o => if t o.who then { o with who := deadWaiter } else o)
    reqWait := k.reqWait.filter (fun o => !t o.who)
    drains := k.drains.map (fun w => if t w then deadWaiter else w) }

theorem orphan_link (s : State) (t : Waiter → Bool) (l : Fin 48) : (s.orphan t).link l = (s.link l).orphaned t :=
  get_map_values Link.reset (f := Link.orphaned t) rfl s.links l.val

theorem orphan_keepsRequests (s : State) (t : Waiter → Bool) : KeepsRequests s (s.orphan t) :=
  ⟨rfl, fun l => by rw [orphan_link]; exact ⟨rfl, List.length_map _⟩⟩

theorem updCore_keepsRequests (s : State) (c : CoreId) (f : Core → Core) : KeepsRequests s (s.updCore c f) := .of_links rfl rfl

theorem updStack_keepsRequests (s : State) (k : Fin 12) (f : Stack → Stack) : KeepsRequests s (s.updStack k f) := .of_links rfl rfl

theorem regate_keepsRequests (s : State) (c : CoreId) : KeepsRequests s (s.regate c) := .of_links rfl rfl

theorem stopEngines_keepsRequests (s : State) (c : CoreId) : KeepsRequests s (s.stopEngines c) := by
  unfold State.stopEngines
  extract_lets +onlyGivenNames takes releasing kept a mine b d e
  have ha : KeepsRequests s a := by
    unfold a
    split <;> exact .of_links rfl rfl
  have hb : KeepsRequests a b := KeepsRequests.trans (t := a.withdraw c) (.of_links rfl rfl) (orphan_keepsRequests _ _)
  have hd : KeepsRequests b d := .of_links rfl rfl
  have he : KeepsRequests d e := .of_links rfl rfl
  clear_value a b d e
  exact ha.trans (hb.trans (hd.trans (he.trans ((updCore_keepsRequests e c _).trans (regate_keepsRequests _ c)))))

/-- The only packet ends `FAILED`. -/
theorem failPkt_only {s : State} {k : Pkt} (hpkts : s.pkts = [k]) (hlane : k.lane < 3) (detail : Word) :
    (∃ j, (s.failPkt k detail).pkts = [j] ∧ j.status = .failed)
      ∧ ∀ l, ((s.failPkt k detail).link l).rspRes = (s.link l).rspRes
        ∧ ((s.failPkt k detail).link l).ops.length = (s.link l).ops.length := by
  unfold State.failPkt
  extract_lets +onlyGivenNames a b c mine d e same f
  have ha : KeepsRequests s a := .foldl _ (fun s c => (stopEngines_keepsRequests s c).trans (updCore_keepsRequests _ c _)) _ s
  have hb : KeepsRequests a b := .foldl _ (fun s st => updStack_keepsRequests s st _) _ a
  have hc : KeepsRequests b c := .of_links rfl rfl
  have hd : KeepsRequests c d := .of_links rfl rfl
  have he : KeepsRequests d e := orphan_keepsRequests d _
  have hall : KeepsRequests s e := ha.trans (hb.trans (hc.trans (hd.trans he)))
  have hf : f.pkts = [k] := by
    show e.pkts.filter _ = [k]
    rw [hall.pkts, hpkts, List.filter_eq_self]
    intro j hj
    rw [List.mem_singleton.1 hj]
    simp
    omega
  have hlinks : f.links = e.links := rfl
  clear_value f
  refine ⟨⟨_, by rw [State.updPkts, hf]; simp [same]; rfl, rfl⟩, fun l => ?_⟩
  obtain ⟨hroom, hlen⟩ := hall.room l
  rw [← State.link_of_links e f hlinks l] at hroom hlen
  exact ⟨hroom, hlen⟩

/-- The only packet meets a fault. -/
theorem faultPkt_only {s : State} {k : Pkt} (hpkts : s.pkts = [k]) (hlane : k.lane < 3) (reason addr detail : Nat) :
    (∃ j, (s.faultPkt k reason addr detail).pkts = [j] ∧ j.status = .failed)
      ∧ ∀ l, ((s.faultPkt k reason addr detail).link l).rspRes = (s.link l).rspRes
        ∧ ((s.faultPkt k reason addr detail).link l).ops.length = (s.link l).ops.length := by
  unfold State.faultPkt
  extract_lets +onlyGivenNames seq
  generalize workFault k.part 1 reason addr detail k.wtag (if k.lane = 4 then 0 else s.evqOf k.q) = ev
  have hlink := State.link_of_links s (s.raise ev) (raise_links s ev)
  simp only [← hlink]
  exact failPkt_only ((raise_pkts s ev).trans hpkts) hlane seq

/-! ### A drain marker that comes back (R282) -/

/-- A link's oldest marker has come back. -/
def State.markerBack (s : State) (l : Fin 48) (rest : List Waiter) : State := s.updLink l (fun k => { k with drains := rest })

/-- Whoever awaits one marker of a link, and none of another, awaits none once it is back. -/
theorem draining_markerBack {s : State} {l : Fin 48} {p : Fin 4} {w : Waiter} {rest : List Waiter} (hnot : w ∉ rest)
    (hothers : ∀ x ∈ linksOf p, x ≠ l → w ∉ (s.link x).drains) : (s.markerBack l rest).draining p w = false := by
  refine List.any_eq_false.2 fun x hx => ?_
  by_cases hxl : x = l
  · subst hxl
    simpa [State.markerBack] using hnot
  · simpa [State.markerBack, hxl] using hothers x hx hxl

/-- The last marker of the only packet, a `FENCE`, ends its work. -/
theorem drained_fence {s : State} {k : Pkt} (hpkts : s.pkts = [k]) (hkind : k.kind = .fence) (hq : k.q < 256)
    (hdrain : s.draining k.part k.waiter = false) : s.drained k.waiter = { s with pkts := [{ k with effect := true }] } := by
  have hrelease : s.afterRelease k = { s with pkts := [{ k with effect := true }] } := by
    simp [State.afterRelease, hdrain, hkind, State.updPkts, hpkts]
  have hpart : k.waiter.part = k.part := rfl
  rw [State.drained, hpart, hdrain, if_neg Bool.false_ne_true]
  dsimp only [Pkt.waiter]
  rw [pktAt_only hpkts hq]
  dsimp only
  rw [hrelease, State.pktGoesOn, hkind]

/-! ### The data of a read (R156, R330) -/

/-- An entry that is put into a table is read back, whether its key had one or not. -/
theorem ins_get (d : Byte) (t : Tbl Byte) (k : Nat) (v : Byte) (n : Nat) : (Tbl.ins k v t).get d n = if n = k then v else t.get d n := by
  induction t with
  | nil => simp [Tbl.ins, eq_comm]
  | cons e t ih =>
    obtain ⟨k', v'⟩ := e
    rw [Tbl.ins]
    split
    · simp [eq_comm]
    · split
      · next h =>
        subst h
        by_cases hn : k = n <;> simp [hn, eq_comm]
      · next h =>
        rw [Tbl.get_cons, Tbl.get_cons, ih]
        by_cases hn : k' = n
        · subst hn
          simp [Ne.symm h]
        · simp [hn]

/-- A reply for a running operation reaches it. -/
theorem deliver_inst {s : State} {l : Fin 48} {o : RemoteOp} {m : Msg} {c : CoreId} {n : Nat} (hend : m.type ≠ 0x08)
    (hdrain : m.type ≠ 0x0B) (hwho : o.who.agent = .inst c n) : s.deliver l o m = s.instReply c n o m := by
  rw [State.deliver, if_neg hend, if_neg hdrain, hwho]

/-- Bytes laid into a table from an address on. -/
def layBytes (a : Nat) (bs : List (Byte × Nat)) (t : Tbl Byte) : Tbl Byte :=
  bs.foldl (fun (t : Tbl Byte) (e : Byte × Nat) => Tbl.ins (a + e.2) e.1 t) t

theorem layBytes_get (a : Nat) (bs : List Byte) (from' : Nat) (t : Tbl Byte) :
    (∀ n < a + from', (layBytes a (bs.zipIdx from') t).get 0 n = t.get 0 n)
      ∧ ∀ n < bs.length, bs[n]? = some ((layBytes a (bs.zipIdx from') t).get 0 (a + from' + n)) := by
  induction bs generalizing from' t with
  | nil => simp [layBytes]
  | cons b bs ih =>
    obtain ⟨hbelow, hlaid⟩ := ih (from' + 1) (Tbl.ins (a + from') b t)
    refine ⟨fun n hn => ?_, fun n hn => ?_⟩
    · refine (hbelow n (by omega)).trans ?_
      rw [ins_get, if_neg (by omega)]
    · cases n with
      | zero =>
        refine congrArg some (Eq.symm ((hbelow _ (by omega)).trans ?_))
        rw [ins_get, if_pos (Nat.add_zero _)]
      | succ n =>
        rw [List.getElem?_cons_succ, hlaid n (by simpa using hn), show a + (from' + 1) + n = a + from' + (n + 1) by omega]
        rfl

/-- A running operation that has been given the data of one of its reads. -/
def Inst.given (o : RemoteOp) (m : Msg) (j : Inst) : Inst :=
  { j with
    buf := layBytes o.msg.addr m.data.zipIdx j.buf
    rdats := if m.rdatum then j.rdats ++ [(o.msg.addr, m.rdat)] else j.rdats }

theorem inst_updInst {s : State} {c : CoreId} {n : Nat} {i : Inst} (h : (s.core c).inst n = some i) {f : Inst → Inst}
    (hf : ∀ j, (f j).id = j.id) : ((s.updInst c n f).core c).inst n = some (f i) := by
  have hcore : (s.updInst c n f).core c = (s.core c).updInst n f := by simp [State.updInst]
  have hid : (fun j : Inst => decide (j.id = n)) ∘ (fun j => if j.id = n then f j else j) = fun j => decide (j.id = n) := by
    funext j
    by_cases hj : j.id = n <;> simp [hj, hf]
  have hn : i.id = n := by simpa using List.find?_some h
  rw [Core.inst] at h
  rw [hcore, Core.inst, Core.updInst, List.find?_map, hid, h, Option.map_some, if_pos hn]

/-- Whether a running operation waits on, asks for more or is ready: its data stay, and only a coded `LOAD` asks. -/
theorem instGoesOn_spec {s : State} {c : CoreId} {n : Nat} {i : Inst} (h : (s.core c).inst n = some i) :
    (∃ j, ((s.instGoesOn c n).core c).inst n = some j ∧ j.buf = i.buf) ∧ (s.instGoesOn c n).mem = s.mem
      ∧ (i.op.spCoded = false → (s.instGoesOn c n).links = s.links) := by
  have hready : (∃ j, ((s.updInst c n (fun j => { j with st := .ready })).core c).inst n = some j ∧ j.buf = i.buf) :=
    ⟨_, inst_updInst h fun _ => rfl, rfl⟩
  unfold State.instGoesOn
  dsimp only
  rw [h]
  dsimp only
  split
  · exact ⟨⟨i, h, rfl⟩, rfl, fun _ => rfl⟩
  · split
    · next l hask =>
      refine ⟨⟨i, ?_, rfl⟩, (askFor_onlyLinkWork s _ _ _ _ _).mem_eq, fun hraw => ?_⟩
      · rw [(askFor_onlyLinkWork s _ _ _ _ _).core_eq, h]
      · simp [hraw] at hask
    · exact ⟨hready, rfl, fun _ => rfl⟩

/-- Good data are kept for the operation that asked. -/
theorem instReply_data {s : State} {c : CoreId} {i : Inst} {o : RemoteOp} {m : Msg} (h : (s.core c).inst i.id = some i)
    (hop : m.op = 0) (htype : m.type = 0x02) (hdatum : mdatBad m = false) (hpoison : m.poison = false) :
    s.instReply c i.id o m = (s.updInst c i.id (Inst.given o m)).instGoesOn c i.id := by
  simp only [State.instReply, h, hop, htype, hdatum, hpoison]
  rfl

end Sys2Proof.Machine

namespace Sys2Proof.Machine

/-! ### The commands (R282, R322, R326, R336, R337, R354) -/

variable {s : State} {l : Fin 48} {m : Msg}

theorem shard_answered {k : Pkt} {ts tw : List Xlat} (harr : arrives s l m 0x07) (hq : quietMemory s)
    (hreason : s.shardReason l m = .ok k) (hland : (s.link l).landed = []) (hdatum : mdatBad m = false) (hcoded : m.coded = false)
    (hpoison : m.poison = false) (hraw : bit (pf k.pkt 37 1) 0 = false)
    (hreach : s.reach l m (k.shardAddrs m) (Region.writable false) = .ok ts) (hheld : reaches s (ownerOfLink l) true ts)
    (htw : s.translateAll (ownerOfLink l) m.dctx ((s.shardBytes k m).map Prod.fst) = some tw) (hn : (placesOf tw).Nodup) :
    ∃ t, exec (.shard l m) s = .next t ∧ replied t l m 0x09 0 [] ∧ t.bytesAt (placesOf tw) = (s.shardBytes k m).map Prod.snd
      ∧ ∀ pl, pl ∉ placesOf tw → t.byteAt pl = s.byteAt pl := by
  have hheard := heard_sendsOver harr
  have hmap := hheard.rest.sameMap
  have hbytes := shardBytes_congr hmap hheard.rest.byteAt_eq k m
  obtain ⟨t, hserved, hreplied, hstored, hkept⟩ := serveShard_writes (hheard.quiet hq) ((hheard.shardReason_eq l m).trans hreason)
    ((hheard.landed_eq l).trans hland) hdatum hpoison hraw ((hheard.reach_eq l m _ _).trans hreach)
    ((hheard.rest.sameHolds.heldAt_eq _ true (placesOf ts)).trans hheld) (by rw [hbytes, hmap.translateAll_eq, htw]) hn
  obtain ⟨u, hexec, hpaid⟩ := receiveAs_arrives (fun s => s.serveCoded l m (s.serveShard l m)) harr
    (keepsCredit_eq_false (.inr hcoded)) (t := t) (by rw [hserved]; simp [State.serveCoded, hcoded])
  refine ⟨u, hexec, hpaid.replied hreplied, ?_, fun pl hpl => ?_⟩
  · rw [← hbytes, ← hstored]
    exact List.map_congr_left fun pl _ => hpaid.rest.byteAt_eq pl
  · rw [hpaid.rest.byteAt_eq, hkept pl hpl, hheard.rest.byteAt_eq]

theorem end_answered {k : Pkt} {c : Coll} (harr : arrives s l m 0x08) (hdenies : s.denies l m = 0) (hcolls : s.colls = [c])
    (hpkts : s.pkts = [k]) (hcoll : s.collAt (ownerOfLink l) m.dctx (m.value % 65536) = some c) (hpkt : s.collPkt c = some k)
    (hk : LastStage s k) (hrun : (s.ctx (ownerOfLink l) m.dctx).st = .running) :
    ∃ t, exec (.collectiveEnd l m) s = .next t ∧ replied t l m 0x09 0 [] ∧ t.colls = [c.crossed l m]
      ∧ t.pkts = [if (c.crossed l m).endIn = [] then { k with effect := true } else k] ∧ t.mem = s.mem := by
  have hheard := heard_sendsOver harr
  obtain ⟨hacked, hreplied⟩ := ack_replied (s.heard l m) l m
  have hway := hheard.trans hacked
  obtain ⟨hcolls', hpkts', hmem, hlinks⟩ := endArrives_only (hway.rest.pkts_eq.trans hpkts) (hway.rest.colls_eq.trans hcolls)
    ((hway.rest.collAt_eq _ _ _).trans hcoll) ((hway.rest.collPkt_eq c).trans hpkt) (hway.lastStage hk)
  obtain ⟨u, hexec, hpaid⟩ := receiveAs_arrives (fun s => s.serveEnd l m) harr (arrives_keepsCredit harr (by decide))
    (serveEnd_running ((hheard.denies_eq l m).trans hdenies) ((hheard.rest.collAt_eq _ _ _).trans hcoll)
      (by rw [hheard.rest.ctx_eq, hrun]))
  exact ⟨u, hexec, hpaid.replied (replied_of_links hlinks hreplied), hpaid.rest.colls_eq.trans hcolls',
    hpaid.rest.pkts_eq.trans hpkts', hpaid.rest.mem_eq.trans (hmem.trans hway.rest.mem_eq)⟩

theorem end_mailed {c : Coll} (harr : arrives s l m 0x08) (hdenies : s.denies l m = 0)
    (hcoll : s.collAt (ownerOfLink l) m.dctx (m.value % 65536) = some c) (hout : (s.ctx (ownerOfLink l) m.dctx).st ≠ .running) :
    ∃ t o, exec (.collectiveEnd l m) s = .next t ∧ replied t l m 0x09 0 [] ∧ t.colls = s.colls ∧ t.pkts = s.pkts
      ∧ (t.ctx (ownerOfLink l) m.dctx).mail = (s.ctx (ownerOfLink l) m.dctx).mail ++ [⟨l, o, m⟩] := by
  have hheard := heard_sendsOver harr
  obtain ⟨hacked, hreplied⟩ := ack_replied (s.heard l m) l m
  have hway := hheard.trans hacked
  obtain ⟨u, hexec, hpaid⟩ := receiveAs_arrives (fun s => s.serveEnd l m) harr (arrives_keepsCredit harr (by decide))
    (serveEnd_out ((hheard.denies_eq l m).trans hdenies) ((hheard.rest.collAt_eq _ _ _).trans hcoll) (by rwa [hheard.rest.ctx_eq]))
  obtain ⟨hlinks, hcolls, hpkts, hmail⟩ := mailed_spec ((s.heard l m).ack l m 0) (ownerOfLink l) m.dctx l (endOp l m) m
  refine ⟨u, endOp l m, hexec, hpaid.replied (replied_of_links hlinks hreplied),
    hpaid.rest.colls_eq.trans (hcolls.trans hway.rest.colls_eq), hpaid.rest.pkts_eq.trans (hpkts.trans hway.rest.pkts_eq), ?_⟩
  rw [hpaid.rest.ctx_eq, hmail, hway.rest.ctx_eq]

/-! #### Replies to the only request of a link -/

section
variable {o : RemoteOp} (hops : (s.link l).ops = [o]) (htag : o.tag.toNat = m.tag)
include hops htag

theorem ack_notReady (harr : arrives s l m 0x09) (hop : m.op = 6) :
    ∃ t, exec (.ackMsg l m) s = .next t ∧ (t.link l).ops = [{ o with resend := true }]
      ∧ (t.link l).rspRes = (s.link l).rspRes ∧ t.pkts = s.pkts := by
  have hheard := heard_sendsOver harr
  obtain ⟨u, hexec, hpaid⟩ := receiveAs_arrives (fun s => s.takeReply l m) harr (arrives_keepsCredit harr (by decide))
    (takeReply_notReady ((hheard.ops_eq l).trans hops) htag hop)
  refine ⟨u, hexec, ?_, ?_, hpaid.rest.pkts_eq.trans hheard.rest.pkts_eq⟩
  · rw [hpaid.ops_eq]
    simp
  · rw [hpaid.rspRes_eq, ← hheard.rspRes_eq]
    simp

variable (hwait : (s.link l).reqWait = [])
include hwait

/-- A reply that is no `NOT_READY` takes effect with its room freed. -/
theorem reply_arrives {type : Nat} (harr : arrives s l m type) (htype : type = 0x02 ∨ type = 0x09) (hop : m.op ≠ 6) :
    ∃ v u, SendsOver l s v ∧ receiveAs type (fun s => s.takeReply l m) l m s = .next u
      ∧ SendsOver l ((v.roomFreed l o).arriveReply l o m) u := by
  have hheard := heard_sendsOver harr
  have hcredit : m.keepsCredit = false := arrives_keepsCredit harr (by obtain rfl | rfl := htype <;> decide)
  obtain ⟨u, hexec, hpaid⟩ := receiveAs_arrives (fun s => s.takeReply l m) harr hcredit
    (takeReply_only ((hheard.ops_eq l).trans hops) htag ((hheard.reqWait_eq l).trans hwait) hop)
  exact ⟨_, u, hheard, hexec, hpaid⟩

theorem ack_done {k : Pkt} (harr : arrives s l m 0x09) (hpkts : s.pkts = [k]) (hkind : k.kind = .flagSet) (hq : k.q < 256)
    (hlane : k.lane < 3) (hwho : o.who = k.waiter) (hctx : (s.ctx k.part k.ctx).st = .running) (hop : m.op = 0) :
    ∃ t, exec (.ackMsg l m) s = .next t ∧ Freed s l o t ∧ t.pkts = [{ k with effect := true }] ∧ t.mem = s.mem := by
  obtain ⟨v, u, hheard, hexec, hpaid⟩ := reply_arrives hops htag hwait harr (.inr rfl) (by omega)
  have hpkts' : (v.roomFreed l o).pkts = [k] := hheard.rest.pkts_eq.trans hpkts
  rw [arriveReply_ack harr hpkts' hq hlane hwho ((hheard.rest.ctx_eq _ _).symm ▸ hctx), State.pktReply, hop, if_neg (by decide), hkind]
    at hpaid
  dsimp only at hpaid
  rw [updPkt_only hpkts'] at hpaid
  exact ⟨u, hexec, hpaid.freed (roomFreed_freed o hheard), hpaid.rest.pkts_eq, hpaid.rest.mem_eq.trans hheard.rest.mem_eq⟩

theorem ack_fails {k : Pkt} (harr : arrives s l m 0x09) (hpkts : s.pkts = [k]) (hq : k.q < 256) (hlane : k.lane < 3)
    (hwho : o.who = k.waiter) (hctx : (s.ctx k.part k.ctx).st = .running) (hop : m.op ≠ 0) (hready : m.op ≠ 6) :
    ∃ t j, exec (.ackMsg l m) s = .next t ∧ Freed s l o t ∧ t.pkts = [j] ∧ j.status = .failed := by
  obtain ⟨v, u, hheard, hexec, hpaid⟩ := reply_arrives hops htag hwait harr (.inr rfl) hready
  have hpkts' : (v.roomFreed l o).pkts = [k] := hheard.rest.pkts_eq.trans hpkts
  rw [arriveReply_ack harr hpkts' hq hlane hwho ((hheard.rest.ctx_eq _ _).symm ▸ hctx), State.pktReply, if_pos hop] at hpaid
  obtain ⟨⟨j, hj, hstatus⟩, hroom⟩ := faultPkt_only hpkts' hlane 3 o.msg.addr m.op
  obtain ⟨hrsp, hlen⟩ := hroom l
  obtain ⟨hnone, hfree⟩ := roomFreed_freed o hheard
  have hfreed : Freed s l o ((v.roomFreed l o).faultPkt k 3 o.msg.addr m.op) :=
    ⟨List.length_eq_zero_iff.1 (by rw [hlen, hnone, List.length_nil]), hrsp.trans hfree⟩
  exact ⟨u, j, hexec, hpaid.freed hfreed, hpaid.rest.pkts_eq.trans hj, hstatus⟩

theorem ack_mailed (harr : arrives s l m 0x09) (hop : m.op ≠ 6) (hlane : o.who.lane ≠ 3)
    (hout : (s.ctx o.who.part o.who.ctx).st ≠ .running) :
    ∃ t, exec (.ackMsg l m) s = .next t ∧ Freed s l o t ∧ t.pkts = s.pkts
      ∧ (t.ctx o.who.part o.who.ctx).mail = (s.ctx o.who.part o.who.ctx).mail ++ [⟨l, o, m⟩] := by
  obtain ⟨v, u, hheard, hexec, hpaid⟩ := reply_arrives hops htag hwait harr (.inr rfl) hop
  have hctx : (v.roomFreed l o).ctx o.who.part o.who.ctx = s.ctx o.who.part o.who.ctx := hheard.rest.ctx_eq _ _
  rw [arriveReply_out hlane (by rwa [hctx])] at hpaid
  obtain ⟨hlinks, -, hpkts, hmail⟩ := mailed_spec (v.roomFreed l o) o.who.part o.who.ctx l o m
  refine ⟨u, hexec, hpaid.freed ((roomFreed_freed o hheard).of_links hlinks), ?_, ?_⟩
  · exact hpaid.rest.pkts_eq.trans (hpkts.trans hheard.rest.pkts_eq)
  · rw [hpaid.rest.ctx_eq, hmail, hctx]

theorem read_answered {c : CoreId} {i : Inst} (harr : arrives s l m 0x02) (hop : m.op = 0) (hdatum : mdatBad m = false)
    (hpoison : m.poison = false) (hinst : (s.core c).inst i.id = some i) (hwho : o.who = s.instWaiter c i.id)
    (hctx : (s.ctx c.p o.who.ctx).st = .running) :
    ∃ t j, exec (.rdRsp l m) s = .next t ∧ (i.op.spCoded = false → Freed s l o t) ∧ (t.core c).inst i.id = some j
      ∧ (∀ n < m.data.length, m.data[n]? = some (j.buf.get 0 (o.msg.addr + n))) ∧ t.mem = s.mem := by
  obtain ⟨v, u, hheard, hexec, hpaid⟩ := reply_arrives hops htag hwait harr (.inl rfl) (by omega)
  obtain ⟨-, -, -, htype⟩ := harr
  have hcore : (v.roomFreed l o).core c = s.core c := hheard.rest.core_eq c
  have hlane : o.who.lane ≠ 3 := by
    rw [hwho]
    exact (by decide : 0 ≠ 3)
  have hrun : ((v.roomFreed l o).ctx o.who.part o.who.ctx).st = .running := by
    rw [show (v.roomFreed l o).ctx o.who.part o.who.ctx = s.ctx o.who.part o.who.ctx from hheard.rest.ctx_eq _ _, ← hctx, hwho]
    rfl
  rw [arriveReply_running hlane hrun, deliver_inst (by omega) (by omega) (n := i.id) (c := c) (by rw [hwho]; rfl),
    instReply_data (by rw [hcore, hinst]) hop htype hdatum hpoison] at hpaid
  obtain ⟨⟨j, hj, hjbuf⟩, hmem, hlinks⟩ := instGoesOn_spec
    (inst_updInst (s := v.roomFreed l o) (hcore ▸ hinst) (f := Inst.given o m) fun _ => rfl)
  refine ⟨u, j, hexec, fun hraw => hpaid.freed ((roomFreed_freed o hheard).of_links (hlinks hraw)), ?_, fun n hn => ?_, ?_⟩
  · rw [hpaid.rest.core_eq, hj]
  · rw [hjbuf, (layBytes_get o.msg.addr m.data 0 i.buf).2 n hn]
    rfl
  · exact hpaid.rest.mem_eq.trans (hmem.trans hheard.rest.mem_eq)

end

theorem resend_goesOut {o : RemoteOp} (hops : (s.link l).ops = [o]) (hwait : (s.link l).reqWait = []) (hresend : o.resend = true) :
    ∃ t, exec (.notReadyResend l o.tag) s = .next t ∧ (t.link l).ops = [{ o with resend := false }] ∧ goesOut t l o.msg := by
  obtain ⟨hsends, hgoes⟩ := sendMsg_sendsOver (s.updLink l (fun k => { k with ops := [{ o with resend := false }] })) l o.msg
  exact ⟨_, notReadyResend_only hops hwait hresend, by rw [hsends.ops_eq]; simp, hgoes⟩

theorem drain_returned {k : Pkt} {rest : List Waiter} (harr : arrives s l m 0x0B) (hpkts : s.pkts = [k]) (hkind : k.kind = .fence)
    (hq : k.q < 256) (hlane : k.lane < 3) (hdrains : (s.link l).drains = k.waiter :: rest) (hnot : k.waiter ∉ rest)
    (hothers : ∀ x ∈ linksOf k.part, x ≠ l → k.waiter ∉ (s.link x).drains) (hctx : (s.ctx k.part k.ctx).st = .running) :
    ∃ t, exec (.drainRet l m) s = .next t ∧ (t.link l).drains = rest ∧ t.pkts = [{ k with effect := true }] ∧ t.mem = s.mem := by
  have hheard := heard_sendsOver harr
  obtain ⟨-, -, -, htype⟩ := id harr
  have hback : ((s.heard l m).markerBack l rest).arriveReply l ⟨0, k.waiter, m, false⟩ m
      = { (s.heard l m).markerBack l rest with pkts := [{ k with effect := true }] } := by
    rw [arriveReply_running (o := ⟨0, k.waiter, m, false⟩) hlane.ne ((hheard.rest.ctx_eq _ _).symm ▸ hctx),
      State.deliver, if_neg (by omega), if_pos htype]
    exact drained_fence (hheard.rest.pkts_eq.trans hpkts) hkind hq
      (draining_markerBack hnot fun x hx hxl => by rw [hheard.drains_eq]; exact hothers x hx hxl)
  obtain ⟨u, hexec, hpaid⟩ : ∃ u, execDrainRet l m s = .next u
      ∧ SendsOver l { (s.heard l m).markerBack l rest with pkts := [{ k with effect := true }] } u := by
    unfold execDrainRet
    refine receiveAs_arrives _ harr (arrives_keepsCredit harr (by decide)) ?_
    simp only [hheard.drains_eq, hdrains]
    exact Prod.ext hback rfl
  refine ⟨u, hexec, ?_, hpaid.rest.pkts_eq, hpaid.rest.mem_eq.trans hheard.rest.mem_eq⟩
  rw [hpaid.drains_eq]
  simp [State.link, State.markerBack, State.setLink]

end Sys2Proof.Machine

section
open Sys2Proof Sys2Proof.Machine

/-- Settles O56, from what serving each message does, and from what the return of its credit leaves. -/
theorem peerReplies : Obligations.PeerReplies := by
  refine ⟨?_, ?_, ?_, ?_, ?_⟩
  · intro s l m k ts tw harr hq hreason hland hdatum hcoded hpoison hraw w us tbl hreach hheld htw hn
    exact shard_answered harr hq hreason hland hdatum hcoded hpoison hraw hreach hheld htw hn
  · intro s l m c k harr hdenies hcolls hpkts hcoll hpkt hstatus hparked hdone hstage hctx hawait hrun hland
    exact end_answered harr hdenies hcolls hpkts hcoll hpkt ⟨hstatus, hparked, hdone, hstage, hctx, hawait, hland⟩ hrun
  · intro s l m c harr hdenies hcoll hout
    exact end_mailed harr hdenies hcoll hout
  · intro s l m o hops htag hwait freed
    refine ⟨fun k harr hpkts hkind hq hlane hwho hctx => ⟨?_, ?_⟩, ack_notReady hops htag, resend_goesOut hops hwait,
      fun c i harr hop hdatum hpoison hinst _ => ?_, ack_mailed hops htag hwait⟩
    · exact ack_done hops htag hwait harr hpkts hkind hq hlane hwho hctx
    · exact ack_fails hops htag hwait harr hpkts hq hlane hwho hctx
    · exact read_answered hops htag hwait harr hop hdatum hpoison hinst
  · intro s l m k rest harr hpkts hkind hq hlane hdrains hnot hothers hctx
    exact drain_returned harr hpkts hkind hq hlane hdrains hnot hothers hctx

end

namespace Sys2Proof.Machine

/-! ## Operations at a home slice (R192, R196, R293 to R300, R358) -/

/-! ### The slice's input arbiter (R196, R197) -/

theorem Arbiter.atGrant_grants_lt (a : Arbiter) : a.atGrant.grants < 50 := by
  unfold Arbiter.atGrant
  split
  · assumption
  · exact Nat.zero_lt_succ _

/-- A class that alone waits is granted: no other is owed a grant. -/
theorem Arbiter.choose_alone (a : Arbiter) (c : Class) : a.choose [c] = some c := by
  have hopen := a.atGrant_grants_lt
  unfold Arbiter.choose
  cases c with
  | lc => simp; omega
  | bulk => simp; omega
  | background => simp

/-- A port that alone requests has its turn. -/
theorem Arbiter.turn_alone (a : Arbiter) (p : Nat) : a.turn [p] = some p := by
  unfold Arbiter.turn
  by_cases h : a.port < p <;> simp [h, lowest]

/-- A request is granted where no other agent has one out. -/
theorem sliceGrants_alone {s : State} {r : HomeReq} (h : ∀ q ∈ s.homeReqs, q.agent = r.agent) : s.sliceGrants r = true := by
  have hnear : s.homeReqs.filter (fun q => q.agent ≠ r.agent && s.sliceAt q.place = s.sliceAt r.place
      && Config.arrived s.freeCtr q.place) = [] := List.filter_eq_nil_iff.2 fun q hq => by simp [h q hq]
  unfold State.sliceGrants
  rw [hnear]
  simp [Arbiter.turn_alone, Arbiter.choose_alone]

/-- Nothing changes but arbiters of slices, and the counter of free values. -/
structure OnlyArbs (s t : State) : Prop where
  rest : { t with freeCtr := s.freeCtr, parts := s.parts } = s
  part : ∀ p, { t.part p with arbs := (s.part p).arbs } = s.part p

theorem sliceGranted_onlyArbs (s : State) (h : HomeAgent) : OnlyArbs s (s.sliceGranted h) := by
  unfold State.sliceGranted
  split
  · exact ⟨rfl, fun _ => rfl⟩
  · refine ⟨rfl, fun p => ?_⟩
    rw [State.updPart_eq, State.part_setPart]
    split
    · next hp => rw [hp]; rfl
    · rfl

/-- What a home slice does for an agent whose request it grants. -/
def State.homeDoes (s : State) : HomeAgent → State
  | .inst c n => s.homeInst c n
  | .packet q i => match (s.pktsAt q.val i).find? s.homeDue with
    | some k => s.homeOf1 k
    | none => s

/-- The operation of the only agent with a request is performed. -/
theorem exec_homeOperation_alone {s : State} {h : HomeAgent} (halone : ∀ r ∈ s.homeReqs, r.agent = h) :
    exec (.homeOperation h) s = .next ((s.sliceGranted h).homeDoes h) := by
  have hdoes : execHomeOperation h s = if (match s.reqOf h with | some r => !s.sliceGrants r | none => false) then .next s
      else .next ((s.sliceGranted h).homeDoes h) := by
    cases h with
    | inst c n => rfl
    | packet q i =>
      unfold execHomeOperation State.homeDoes
      dsimp only
      cases ((s.sliceGranted (.packet q i)).pktsAt q.val i).find? (s.sliceGranted (.packet q i)).homeDue <;> rfl
  refine Eq.trans hdoes (if_neg ?_)
  cases hr : s.reqOf h with
  | none => exact Bool.false_ne_true
  | some r =>
    have hagent : r.agent = h := by simpa using List.find?_some hr
    simp [sliceGrants_alone (r := r) fun q hq => (halone q hq).trans hagent.symm]

namespace OnlyArbs

variable {s t : State} (h : OnlyArbs s t)
include h

theorem pkts_eq : t.pkts = s.pkts := by rw [← h.rest]
theorem cores_eq : t.cores = s.cores := by rw [← h.rest]
theorem waits_eq : t.waits = s.waits := by rw [← h.rest]
theorem core_eq (c : CoreId) : t.core c = s.core c := State.core_of_cores s t h.cores_eq c
theorem pll_eq (p : Fin 4) : (t.part p).pll = (s.part p).pll := by rw [← h.part p]
theorem ctx_eq (p : Fin 4) (x : Fin 16) : t.ctx p x = s.ctx p x := by rw [State.ctx_eq, State.ctx_eq, ← h.part p]; rfl

theorem quiet (hq : quietMemory s) : quietMemory t := by
  rw [← h.rest] at hq
  exact hq

theorem draining_eq (p : Fin 4) (w : Waiter) : t.draining p w = s.draining p w := by rw [← h.rest]; rfl

theorem enginesRun_eq (c : CoreId) : t.enginesRun c = s.enginesRun c := by
  simp only [State.enginesRun, h.core_eq, h.ctx_eq, h.pll_eq]

theorem homeDue_eq (k : Pkt) : t.homeDue k = s.homeDue k := by
  simp only [State.homeDue, State.addsDue, State.live, h.ctx_eq, h.pll_eq, h.draining_eq, h.waits_eq]

theorem sameMap : SameMap s t :=
  ⟨by rw [← h.rest], by rw [← h.rest], fun p => by rw [← h.part p], fun p => by rw [← h.part p]⟩

theorem sameHolds : SameHolds s t :=
  ⟨h.pll_eq, fun p => by rw [← h.part p], fun k => by rw [← h.rest]; rfl, by rw [← h.rest]⟩

/-- The grant changes neither what a word's address reaches nor what holds its access up. -/
theorem wordReached {p : Fin 4} {x : Fin 16} {a k : Nat} {write : Bool} {ok : Region → Bool}
    (hr : wordReached s p x a k write ok) : wordReached t p x a k write ok := by
  obtain ⟨ts, hts, hplaces, hreach⟩ := hr
  exact ⟨ts, (h.sameMap.access_eq p x _ ok).trans hts, hplaces, (h.sameHolds.heldAt_eq p write _).trans hreach⟩

end OnlyArbs

/-! ### What an operation leaves of its agents -/

/-- The cores, the packets, the registrations and the contexts are as they were. -/
structure KeepsAgents (s t : State) : Prop where
  cores : t.cores = s.cores
  pkts : t.pkts = s.pkts
  waits : t.waits = s.waits
  ctx : ∀ p x, t.ctx p x = s.ctx p x

namespace KeepsAgents

theorem trans {s t u : State} (h : KeepsAgents s t) (g : KeepsAgents t u) : KeepsAgents s u :=
  ⟨g.cores.trans h.cores, g.pkts.trans h.pkts, g.waits.trans h.waits, fun p x => (g.ctx p x).trans (h.ctx p x)⟩

theorem of_onlyArbs {s t : State} (h : OnlyArbs s t) : KeepsAgents s t := ⟨h.cores_eq, h.pkts_eq, h.waits_eq, h.ctx_eq⟩

theorem of_onlyTraffic {s t : State} (h : OnlyTraffic s t) : KeepsAgents s t :=
  ⟨by rw [← h.rest], h.pkts_eq, by rw [← h.rest], fun p x => by rw [State.ctx_eq, State.ctx_eq, ← h.part p]; rfl⟩

theorem of_onlyMemory {s t : State} (h : OnlyMemory s t) : KeepsAgents s t :=
  ⟨h.cores_eq, h.pkts_eq, h.waits_eq, fun p x => State.ctx_of_parts s t h.parts_eq p x⟩

theorem of_countAtomic (s : State) (k : Nat) : KeepsAgents s (s.countAtomic k) :=
  ⟨rfl, rfl, rfl, fun p x => ctx_updPart_kept s (homeOf k) rfl p x⟩

theorem of_dropWord (s : State) (c : CoreId) (k : Nat) : KeepsAgents s (s.dropWord c k) := ⟨rfl, rfl, rfl, fun _ _ => rfl⟩

/-- A running operation that stands as it did is made ready. -/
theorem readies {s t : State} {c : CoreId} {i : Inst} (h : KeepsAgents s t) (hinst : (s.core c).inst i.id = some i) :
    ((t.updInst c i.id (fun j => { j with st := .ready })).core c).inst i.id = some { i with st := .ready } :=
  inst_updInst (by rw [State.core_of_cores s t h.cores, hinst]) fun _ => rfl

end KeepsAgents

/-! ### What dropping a copy and marking an operation leave alone -/

@[simp] theorem dropWord_mem (s : State) (c : CoreId) (k : Nat) : (s.dropWord c k).mem = s.mem := rfl
@[simp] theorem updInst_mem (s : State) (c : CoreId) (n : Nat) (f : Inst → Inst) : (s.updInst c n f).mem = s.mem := rfl
@[simp] theorem updInst_ctx (s : State) (c : CoreId) (n : Nat) (f : Inst → Inst) (p : Fin 4) (x : Fin 16) :
    (s.updInst c n f).ctx p x = s.ctx p x := rfl

/-! ### Words (R293, R298) -/

theorem wordAt_lt (s : State) (k : Nat) : s.wordAt k 8 < 2 ^ 64 := by
  have h := leNat_lt (s.mem.getMany 0 k 8)
  rw [Tbl.getMany_length] at h
  exact h.trans_eq (by norm_num)

theorem semTaken_lt (v : Nat) (p : Fin 4) (x : Fin 16) : semTaken v (ctxNo p x) < 2 ^ 64 := by
  have hp := p.isLt
  have hx := x.isLt
  unfold semTaken ctxNo
  omega

theorem semFreed_lt {v : Nat} (h : v < 2 ^ 64) : semFreed v < 2 ^ 64 := lt_of_le_of_lt (Nat.sub_le v _) h

theorem wordAt_congr {s t : State} (h : t.mem = s.mem) (k w : Nat) : t.wordAt k w = s.wordAt k w := by
  rw [State.wordAt, h, State.wordAt]

/-- What a word becomes depends on stack memory alone. -/
theorem wordBecomes_congr {s s' t t' : State} {k v : Nat} (h : wordBecomes s t k v) (hs : s'.mem = s.mem) (ht : t'.mem = t.mem) :
    wordBecomes s' t' k v := by
  obtain ⟨hword, hkept⟩ := h
  refine ⟨?_, fun a ha => ?_⟩
  · rw [wordAt_congr ht, hword]
  · rw [ht, hs]
    exact hkept a ha

/-- A word that is written where no word holds an error. -/
theorem putWord_wordBecomes {s : State} (he : s.memErr = []) (k : Nat) {v : Nat} (hv : v < 2 ^ 64) :
    wordBecomes s (s.putWord k 8 v) k v := by
  have hlen : (leBytes 8 v).length = (dramRun k 8).length := by rw [length_leBytes, dramRun, List.length_map, List.length_range]
  have hfst : ((dramRun k 8).zip (leBytes 8 v)).map Prod.fst = dramRun k 8 := List.map_fst_zip hlen.ge
  have hstored : (s.putWord k 8 v).bytesAt (dramRun k 8) = leBytes 8 v := bytesAt_writeAt s true (dramRun_nodup k 8) hlen
  have hkept (pl : Place) : pl ∉ dramRun k 8 → (s.putWord k 8 v).byteAt pl = s.byteAt pl := by
    have h := (byteAt_writeAt s true ((dramRun k 8).zip (leBytes 8 v)) he (hfst ▸ dramRun_nodup k 8) pl).2
    rw [hfst] at h
    exact h
  generalize s.putWord k 8 v = t at hstored hkept ⊢
  have hbytes : t.mem.getMany 0 k 8 = leBytes 8 v := by
    rw [← hstored]
    refine List.ext_getElem (by simp [State.bytesAt, dramRun]) fun j hj _ => ?_
    have hget := Tbl.getMany_get 0 t.mem k 8 j (by simpa using hj)
    rw [List.getElem?_eq_getElem hj] at hget
    simpa [State.bytesAt, dramRun, State.byteAt] using hget
  have hword : t.wordAt k 8 = v := by
    rw [State.wordAt, hbytes, leNat_leBytes]
    exact Nat.mod_eq_of_lt (hv.trans_eq (by norm_num))
  refine ⟨hword, fun a ha => hkept (.dram a) fun hin => ?_⟩
  obtain ⟨b, hb, hbk, hab⟩ := mem_dramRun.1 hin
  cases hab
  omega

/-- A flag add where nothing is registered (R294). -/
theorem addFlag_spec {s : State} (hw : s.waits = []) (he : s.memErr = []) (k amount : Nat) :
    KeepsAgents s (s.addFlag k amount) ∧ wordBecomes s (s.addFlag k amount) k ((s.wordAt k 8 + amount) % 2 ^ 64) := by
  have hline := lineAccess_onlyTraffic s true true (k / 128)
  have hmem := lineAccess_mem s true true (k / 128)
  unfold State.addFlag
  generalize s.lineAccess true true (k / 128) = u at hline hmem ⊢
  dsimp only
  rw [wordAt_congr hmem]
  have hput := putWord_wordBecomes (s := u) (by rw [← he, ← hline.rest]) k
    (Nat.mod_lt (s.wordAt k 8 + amount) (show 2 ^ 64 > 0 by norm_num))
  have honly := putWord_onlyMemory u k 8 ((s.wordAt k 8 + amount) % 2 ^ 64)
  generalize u.putWord k 8 ((s.wordAt k 8 + amount) % 2 ^ 64) = t at hput honly ⊢
  have hkept := (KeepsAgents.of_onlyTraffic hline).trans ((KeepsAgents.of_onlyMemory honly).trans (.of_countAtomic t k))
  rw [retest_nothing (hkept.waits.trans hw)]
  exact ⟨hkept, wordBecomes_congr hput hmem.symm (countAtomic_mem t k)⟩

/-- The first wait is registered (R297). -/
theorem register_first {s : State} (h : s.waits = []) (w : WaitReg) : s.register w = { s with waits := [w] } := by
  simp [State.register, h]

/-- A semaphore that nothing waits for is freed (R300). -/
theorem giveSem_spec {s : State} (hw : s.waits = []) (he : s.memErr = []) (k : Nat) :
    KeepsAgents s (s.giveSem k) ∧ wordBecomes s (s.giveSem k) k (semFreed (s.wordAt k 8)) := by
  have hput := putWord_wordBecomes he k (semFreed_lt (wordAt_lt s k))
  have honly := putWord_onlyMemory s k 8 (semFreed (s.wordAt k 8))
  unfold State.giveSem
  rw [hw, List.find?_nil]
  dsimp only
  rw [retest_nothing (honly.waits_eq.trans hw)]
  exact ⟨.of_onlyMemory honly, hput⟩

/-- A take of a free semaphore (R299, R351). -/
theorem takeSem_spec {s : State} (he : s.memErr = []) (p : Fin 4) (x : Fin 16) (k : Nat) (a : Addr) :
    (s.takeSem p x k a).cores = s.cores ∧ (s.takeSem p x k a).waits = s.waits
      ∧ ((s.takeSem p x k a).ctx p x).held = (s.ctx p x).held ++ [(k, a)]
      ∧ wordBecomes s (s.takeSem p x k a) k (semTaken (s.wordAt k 8) (ctxNo p x)) := by
  have hkept := KeepsAgents.of_onlyMemory (putWord_onlyMemory s k 8 (semTaken (s.wordAt k 8) (ctxNo p x)))
  have hput := putWord_wordBecomes he k (semTaken_lt (s.wordAt k 8) p x)
  unfold State.takeSem
  generalize s.putWord k 8 (semTaken (s.wordAt k 8) (ctxNo p x)) = t at hkept hput ⊢
  exact ⟨hkept.cores, hkept.waits, by rw [ctx_updCtx, if_pos rfl, hkept.ctx], wordBecomes_congr hput rfl rfl⟩

/-! ### A turn of the scheduler takes no semaphore away (R341, R352) -/

theorem woken_held (s : State) (p : Fin 4) (x : Fin 16) (c : Ctx) : (s.woken p x c).held = c.held := by
  unfold State.woken
  split <;> rfl

theorem switchDue_held (s : State) (p : Fin 4) (x y : Fin 16) : ((s.switchDue p x).ctx p y).held = (s.ctx p y).held := by
  rw [ctx_switchDue]
  split
  · next hy =>
    subst hy
    split <;> rfl
  · rfl

theorem elect_held (s : State) (p : Fin 4) (y : Fin 16) : ((s.elect p).ctx p y).held = (s.ctx p y).held := by
  unfold State.elect
  split
  · split
    · exact switchDue_held s p _ y
    · rfl
  · split
    · rw [ctx_updPart_kept s p (f := fun q => { q with st := .stopped }) rfl]
    · split
      · split
        · next x _ =>
          have hchosen := ctx_updPart_kept s p (f := fun q => { q with cur := some x }) rfl p
          rw [ctx_updCtx, hchosen, hchosen]
          split
          · next hy => rw [hy]
          · rfl
        · rfl
      · rfl

theorem schedule_held (s : State) (p : Fin 4) (y : Fin 16) : ((s.schedule p).ctx p y).held = (s.ctx p y).held := by
  rw [schedule_eq, elect_held, (readied_ctxs s p).2, woken_held]

/-! ### Running operations at a home (R293 to R300) -/

/-- The state in which a home slice meets the word of a running operation: memory and the agents are as the request found them. -/
structure MeetsInst (s u : State) (c : CoreId) (i : Inst) (x : Fin 16) : Prop where
  agents : KeepsAgents s u
  mem : u.mem = s.mem
  clean : u.memErr = []
  idle : u.waits = []
  inst : (u.core c).inst i.id = some i
  ctx : (u.core c).ctx = x

section

variable {s u : State} {c : CoreId} {i : Inst} {x : Fin 16} {k : Nat}

/-- `SIGNAL` (R293, R294). -/
theorem homeFlag_signal (h : MeetsInst s u c i x) (hop : i.op.op = 0x18) :
    ((u.homeFlag c i k).core c).inst i.id = some { i with st := .ready }
      ∧ wordBecomes s (u.homeFlag c i k) k ((s.wordAt k 8 + i.op.x 0) % 2 ^ 64) := by
  have hadds : u.homeFlag c i k
      = ((u.addFlag k (i.op.x 0)).dropWord c k).updInst c i.id (fun j => { j with st := .ready }) := by
    simp only [State.homeFlag, hop]
  obtain ⟨hkept, hadded⟩ := addFlag_spec h.idle h.clean k (i.op.x 0)
  rw [wordAt_congr h.mem] at hadded
  rw [hadds]
  generalize u.addFlag k (i.op.x 0) = t at hkept hadded ⊢
  exact ⟨(hkept.trans (.of_dropWord t c k)).readies h.inst, wordBecomes_congr hadded h.mem.symm (by simp)⟩

/-- The target of a `WAIT` (R295). -/
def MacroOp.goal (m : MacroOp) : Nat := m.x 0 + 4294967296 * m.x 1

theorem homeFlag_wait (hop : i.op.op = 0x19) : u.homeFlag c i k = if i.op.goal ≤ u.wordAt k 8 then
      (u.countAtomic k).updInst c i.id (fun j => { j with st := .ready })
    else u.register ⟨.inst c i.id, c.p, (u.core c).ctx, 0, 0, k, BitVec.ofNat 48 (i.op.addr 0 i.n),
      .flag (BitVec.ofNat 64 i.op.goal)⟩ := by
  simp only [State.homeFlag, hop]
  rfl

/-- `WAIT` for a flag that has reached its target (R295). -/
theorem homeFlag_wait_met (h : MeetsInst s u c i x) (hop : i.op.op = 0x19) (hmet : i.op.goal ≤ s.wordAt k 8) :
    ((u.homeFlag c i k).core c).inst i.id = some { i with st := .ready } ∧ (u.homeFlag c i k).mem = s.mem := by
  rw [homeFlag_wait hop, wordAt_congr h.mem, if_pos hmet]
  exact ⟨(KeepsAgents.of_countAtomic u k).readies h.inst, h.mem⟩

/-- The wait of a running operation is registered, and nothing else of it changes (R297, R299). -/
theorem register_inst (h : MeetsInst s u c i x) (f : WaitFor) :
    let t := u.register ⟨.inst c i.id, c.p, (u.core c).ctx, 0, 0, k, BitVec.ofNat 48 (i.op.addr 0 i.n), f⟩
    t.mem = s.mem ∧ (t.core c).inst i.id = some i
      ∧ t.waits = [⟨.inst c i.id, c.p, x, 0, 0, k, BitVec.ofNat 48 (i.op.addr 0 i.n), f⟩] := by
  intro t
  have ht : t = { u with waits := [⟨.inst c i.id, c.p, (u.core c).ctx, 0, 0, k, BitVec.ofNat 48 (i.op.addr 0 i.n), f⟩] } :=
    register_first h.idle _
  rw [ht, h.ctx]
  exact ⟨h.mem, h.inst, rfl⟩

/-- `WAIT` for a flag below its target (R297). -/
theorem homeFlag_wait_short (h : MeetsInst s u c i x) (hop : i.op.op = 0x19) (hshort : s.wordAt k 8 < i.op.goal) :
    (u.homeFlag c i k).mem = s.mem ∧ ((u.homeFlag c i k).core c).inst i.id = some i
      ∧ (u.homeFlag c i k).waits = [⟨.inst c i.id, c.p, x, 0, 0, k, BitVec.ofNat 48 (i.op.addr 0 i.n),
        .flag (BitVec.ofNat 64 i.op.goal)⟩] := by
  rw [homeFlag_wait hop, wordAt_congr h.mem, if_neg (Nat.not_le.2 hshort)]
  exact register_inst h _

/-- What `SEMTAKE` does with a sound word where its context's switch is not deferred (R299). -/
theorem homeFlag_semtake (h : MeetsInst s u c i x) (hop : i.op.op = 0x1B) (hbroken : bit (s.wordAt k 8) 1 = false)
    (hbad : semBad (s.wordAt k 8) = false) (hdefer : (s.ctx c.p x).deferred = false) :
    u.homeFlag c i k = if bit (s.wordAt k 8) 0 then
        u.register ⟨.inst c i.id, c.p, (u.core c).ctx, 0, 0, k, BitVec.ofNat 48 (i.op.addr 0 i.n), .sem⟩
      else ((((u.takeSem c.p x k (BitVec.ofNat 48 (i.op.addr 0 i.n))).countAtomic k).dropWord c k).retest).updInst c i.id
        (fun j => { j with st := .ready }) := by
  have hdefer' : (u.ctx c.p x).deferred = false := by rw [h.agents.ctx, hdefer]
  simp only [State.homeFlag, hop, wordAt_congr h.mem, semFault, hbroken, hbad, h.ctx, hdefer', Bool.or_false,
    Bool.false_eq_true, if_false]

/-- `SEMTAKE` of a free semaphore (R299). -/
theorem homeFlag_semtake_free (h : MeetsInst s u c i x) (hop : i.op.op = 0x1B) (hbroken : bit (s.wordAt k 8) 1 = false)
    (hbad : semBad (s.wordAt k 8) = false) (hdefer : (s.ctx c.p x).deferred = false) (hfree : bit (s.wordAt k 8) 0 = false) :
    ((u.homeFlag c i k).core c).inst i.id = some { i with st := .ready }
      ∧ wordBecomes s (u.homeFlag c i k) k (semTaken (s.wordAt k 8) (ctxNo c.p x))
      ∧ ((u.homeFlag c i k).ctx c.p x).held = (s.ctx c.p x).held ++ [(k, BitVec.ofNat 48 (i.op.addr 0 i.n))] := by
  obtain ⟨hcores, hwaits, hheld, hword⟩ := takeSem_spec h.clean c.p x k (BitVec.ofNat 48 (i.op.addr 0 i.n))
  rw [wordAt_congr h.mem] at hword
  rw [homeFlag_semtake h hop hbroken hbad hdefer, hfree, if_neg Bool.false_ne_true]
  generalize u.takeSem c.p x k (BitVec.ofNat 48 (i.op.addr 0 i.n)) = t at hcores hwaits hheld hword ⊢
  have hkept := (KeepsAgents.of_countAtomic t k).trans (.of_dropWord _ c k)
  rw [retest_nothing (hkept.waits.trans (hwaits.trans h.idle))]
  refine ⟨hkept.readies (by rw [State.core_of_cores u t hcores, h.inst]), wordBecomes_congr hword h.mem.symm (by simp), ?_⟩
  rw [updInst_ctx, hkept.ctx, hheld, h.agents.ctx]

/-- `SEMTAKE` of a semaphore that is held (R299). -/
theorem homeFlag_semtake_held (h : MeetsInst s u c i x) (hop : i.op.op = 0x1B) (hbroken : bit (s.wordAt k 8) 1 = false)
    (hbad : semBad (s.wordAt k 8) = false) (hdefer : (s.ctx c.p x).deferred = false) (hheld : bit (s.wordAt k 8) 0 = true) :
    (u.homeFlag c i k).mem = s.mem ∧ ((u.homeFlag c i k).core c).inst i.id = some i
      ∧ (u.homeFlag c i k).waits = [⟨.inst c i.id, c.p, x, 0, 0, k, BitVec.ofNat 48 (i.op.addr 0 i.n), .sem⟩] := by
  rw [homeFlag_semtake h hop hbroken hbad hdefer, if_pos hheld]
  exact register_inst h _

/-- A context without one of its semaphores. -/
def Ctx.without (k : Nat) (y : Ctx) : Ctx := { y with held := y.held.filter (fun h => h.1 ≠ k) }

/-- What `SEMGIVE` does with a sound word that its context holds (R300). -/
theorem homeFlag_semgive_owner (h : MeetsInst s u c i x) (hop : i.op.op = 0x1C) (hbad : semBad (s.wordAt k 8) = false)
    (hheld : bit (s.wordAt k 8) 0 = true) (howner : bits (s.wordAt k 8) 13 8 = ctxNo c.p x) :
    u.homeFlag c i k = (((((u.updCtx c.p x (Ctx.without k)).giveSem k).countAtomic k).dropWord c k).updInst c i.id
      (fun j => { j with st := .ready })).schedule c.p := by
  simp only [State.homeFlag, hop, wordAt_congr h.mem, h.ctx]
  exact if_neg (by simp [hbad, hheld, howner])

/-- `SEMGIVE` by the owner (R300): the turn of the scheduler that follows leaves the cores and what is held. -/
theorem homeFlag_semgive (h : MeetsInst s u c i x) (hop : i.op.op = 0x1C) (hbad : semBad (s.wordAt k 8) = false)
    (hheld : bit (s.wordAt k 8) 0 = true) (howner : bits (s.wordAt k 8) 13 8 = ctxNo c.p x) :
    ((u.homeFlag c i k).core c).inst i.id = some { i with st := .ready }
      ∧ wordBecomes s (u.homeFlag c i k) k (semFreed (s.wordAt k 8))
      ∧ ((u.homeFlag c i k).ctx c.p x).held = (s.ctx c.p x).held.filter (fun h => h.1 ≠ k) := by
  rw [homeFlag_semgive_owner h hop hbad hheld howner]
  have hctx : (u.updCtx c.p x (Ctx.without k)).ctx c.p x = (s.ctx c.p x).without k := by
    rw [ctx_updCtx, if_pos rfl, h.agents.ctx]
  have hmem : (u.updCtx c.p x (Ctx.without k)).mem = s.mem := h.mem
  have hclean : (u.updCtx c.p x (Ctx.without k)).memErr = [] := h.clean
  have hidle : (u.updCtx c.p x (Ctx.without k)).waits = [] := h.idle
  have hinst : ((u.updCtx c.p x (Ctx.without k)).core c).inst i.id = some i := h.inst
  generalize u.updCtx c.p x (Ctx.without k) = d at hctx hmem hclean hidle hinst ⊢
  obtain ⟨hgives, hword⟩ := giveSem_spec hidle hclean k
  rw [wordAt_congr hmem] at hword
  generalize d.giveSem k = t at hgives hword ⊢
  have hkept := hgives.trans ((KeepsAgents.of_countAtomic t k).trans (.of_dropWord _ c k))
  have hready := hkept.readies hinst
  generalize hr : ((t.countAtomic k).dropWord c k).updInst c i.id (fun j => { j with st := .ready }) = r at hready ⊢
  have hrmem : r.mem = t.mem := by simp [← hr]
  have hrctx : r.ctx c.p x = d.ctx c.p x := by rw [← hr, updInst_ctx, hkept.ctx]
  have hturn := (schedule_scheduled r c.p).rest
  refine ⟨?_, wordBecomes_congr hword hmem.symm (hturn.mem_eq.trans hrmem), ?_⟩
  · rw [State.core_of_cores r _ hturn.cores_eq, hready]
  · rw [schedule_held, hrctx, hctx, Ctx.without]

/-- An operation whose word nothing holds up is performed at its home, the accesses of its lines counted. -/
theorem homeWord_reached (hq : quietMemory u) (hatom : i.op.op ≠ 0x11)
    (hr : wordReached u c.p (u.core c).ctx (i.op.addr 0 i.n) k (i.op.op ≠ 0x19)
      (if i.op.op = 0x19 then Region.homed else Region.atomicOk)) :
    ∃ v, OnlyTraffic u v ∧ u.homeWord c i = v.homeFlag c i k := by
  obtain ⟨ts, hts, hplaces, hreach⟩ := hr
  obtain ⟨he, hh, -⟩ := hq
  have hheld : u.heldUp c.p (i.op.op ≠ 0x19) ts = none := Option.isNone_iff_eq_none.1 hreach
  have hhead : (placesOf ts).head? = some (.dram k) := by rw [hplaces]; rfl
  have hword : u.homeWord c i
      = (if i.op.op = 0x18 then u else u.accessLines (i.op.op ≠ 0x19) true ts).homeFlag c i k := by
    simp only [State.homeWord, hatom, if_false, hts, hheld, poisonIn_clean he hh, hhead, decide_false, Bool.false_and,
      Bool.false_eq_true]
  refine ⟨_, ?_, hword⟩
  split
  · exact .refl u
  · exact accessLines_onlyTraffic u _ true ts

/-- A flag or semaphore operation that waits, none of its markers out, goes to its word's home. -/
theorem homeInst_word {n : Nat} (hinst : (u.core c).inst n = some i) (hst : i.st = .waiting) (hruns : u.enginesRun c = true)
    (hremote : i.op.remote = false) (hdrain : u.draining c.p (u.instWaiter c n) = false)
    (hop : i.op.op ∈ [0x18, 0x19, 0x1B, 0x1C]) : u.homeInst c n = u.homeWord c i := by
  have hfence : ∀ o ∈ [0x18, 0x19, 0x1B, 0x1C], o ≠ 0x1A ∧ o ≠ 0x10 ∧ o ≠ 0x02 := by decide
  obtain ⟨hnotFence, hnotReduce, hnotStore⟩ := hfence _ hop
  simp [State.homeInst, hinst, hst, hruns, hremote, hdrain, hnotFence, MacroOp.reduces, hnotReduce, hnotStore]

/-- The home slice performs the operation that alone has a request out. -/
theorem exec_homeOperation_inst {sh : Share} (hq : quietMemory s) (hsh : (s.core c).share = some sh)
    (hinst : (s.core c).inst i.id = some i) (hst : i.st = .waiting) (hruns : s.enginesRun c = true) (hremote : i.op.remote = false)
    (hdrain : s.draining c.p (s.instWaiter c i.id) = false) (halone : ∀ r ∈ s.homeReqs, r.agent = .inst c i.id)
    (hop : i.op.op ∈ [0x18, 0x19, 0x1B, 0x1C])
    (hr : wordReached s c.p sh.ctx (i.op.addr 0 i.n) k (i.op.op ≠ 0x19)
      (if i.op.op = 0x19 then Region.homed else Region.atomicOk)) :
    ∃ u, exec (.homeOperation (.inst c i.id)) s = .next (u.homeFlag c i k) ∧ MeetsInst s u c i sh.ctx := by
  have harbs := sliceGranted_onlyArbs s (.inst c i.id)
  have hexec : exec (.homeOperation (.inst c i.id)) s = .next ((s.sliceGranted (.inst c i.id)).homeInst c i.id) :=
    exec_homeOperation_alone halone
  generalize s.sliceGranted (.inst c i.id) = g at harbs hexec
  have hgq := harbs.quiet hq
  obtain ⟨-, -, -, hw, -⟩ := hq
  have hcore := harbs.core_eq c
  have hwaiter : g.instWaiter c i.id = s.instWaiter c i.id := by rw [State.instWaiter, State.instWaiter, hcore]
  have hword := homeInst_word (u := g) (hcore ▸ hinst) hst ((harbs.enginesRun_eq c).trans hruns) hremote
    ((harbs.draining_eq c.p _).trans (hwaiter ▸ hdrain)) hop
  have hatom : ∀ o ∈ [0x18, 0x19, 0x1B, 0x1C], o ≠ 0x11 := by decide
  have hctx : (s.core c).ctx = sh.ctx := Core.ctx_of_share hsh
  obtain ⟨u, htraffic, hflag⟩ := homeWord_reached hgq (hatom _ hop) (hcore ▸ hctx ▸ harbs.wordReached hr)
  have hkept := (KeepsAgents.of_onlyArbs harbs).trans (.of_onlyTraffic htraffic)
  have hucore := State.core_of_cores s u hkept.cores c
  refine ⟨u, by rw [hexec, hword, hflag], hkept, ?_, ?_, hkept.waits.trans hw, hucore ▸ hinst, hucore ▸ hctx⟩
  · rw [← harbs.sameMap.mem, ← htraffic.rest]
  · obtain ⟨hclean, -⟩ := hgq
    rw [← hclean, ← htraffic.rest]

end

/-! ### Packets at a home (R293, R297, R358) -/

/-- A packet's word that nothing holds up. -/
theorem pktFlag_reached {s : State} {j : Pkt} {a k : Nat} {write : Bool} (hq : quietMemory s)
    (hr : wordReached s j.part j.ctx a k write (if write then Region.atomicOk else Region.homed)) (f : State → Nat → State) :
    s.pktFlag j a write f = f s k := by
  obtain ⟨ts, hts, hplaces, hreach⟩ := hr
  obtain ⟨he, hh, -⟩ := hq
  have hheld : s.heldUp j.part write ts = none := Option.isNone_iff_eq_none.1 hreach
  have hhead : (placesOf ts).head? = some (.dram k) := by rw [hplaces]; rfl
  simp only [State.pktFlag, hts, hheld, poisonIn_clean he hh, hhead]

/-- The only packet at an index is found there, whether a queue's or a lane's. -/
theorem pktsAt_only {s : State} {j : Pkt} (hpkts : s.pkts = [j]) (hlane : j.lane < 3) : ∃ l, s.pktsAt j.q j.i = j :: l := by
  have hmine : s.pkts.filter (fun k => k.q = j.q && k.i = j.i && decide (k.lane < 3)) = [j] := by simp [hpkts, hlane]
  unfold State.pktsAt
  rw [hmine]
  by_cases hzero : j.lane = 0
  · by_cases hstep : j.kind = .step <;> simp [hzero, hstep]
  · simp [hzero]

section

variable {s u : State} {q : Fin 256} {i : Word} {j : Pkt} {k : Nat}

/-- The home slice performs what the only packet awaits. -/
theorem exec_homeOperation_packet (hpkts : s.pkts = [j]) (hjq : j.q = q.val) (hji : j.i = i) (hlane : j.lane < 3)
    (hdue : s.homeDue j = true) (halone : ∀ r ∈ s.homeReqs, r.agent = .packet q i) :
    ∃ u, exec (.homeOperation (.packet q i)) s = .next (u.homeOf1 j) ∧ OnlyArbs s u := by
  have harbs := sliceGranted_onlyArbs s (.packet q i)
  have hexec := exec_homeOperation_alone halone
  generalize s.sliceGranted (.packet q i) = u at harbs hexec
  obtain ⟨l, hat⟩ := pktsAt_only (harbs.pkts_eq.trans hpkts) hlane
  have hdoes : u.homeDoes (.packet q i) = u.homeOf1 j := by
    rw [State.homeDoes, ← hjq, ← hji, hat, List.find?_cons_of_pos (by rw [harbs.homeDue_eq, hdue])]
  exact ⟨u, by rw [hexec, hdoes], harbs⟩

variable (harbs : OnlyArbs s u) (hq : quietMemory s)
include harbs hq

/-- What a home slice does for a `FLAG_WAIT` (R297). -/
theorem homeOf1_flagWait (hkind : j.kind = .flagWait) (hr : wordReached s j.part j.ctx (pa j.pkt 8) k false Region.homed) :
    u.homeOf1 j = if pf j.pkt 16 8 ≤ s.wordAt k 8 then
        ((u.lineAccess false true (k / 128)).countAtomic k).updPkt j (fun x => { x with effect := true })
      else (u.lineAccess false true (k / 128)).register ⟨j.waiter.agent, j.part, j.ctx, j.lane, j.laneIdx, k,
        BitVec.ofNat 48 (pa j.pkt 8), .flag (BitVec.ofNat 64 (pf j.pkt 16 8))⟩ := by
  rw [State.homeOf1, hkind, ← wordAt_congr ((lineAccess_mem u false true (k / 128)).trans harbs.sameMap.mem)]
  exact pktFlag_reached (harbs.quiet hq) (harbs.wordReached hr) _

variable (hpkts : s.pkts = [j])
include hpkts

/-- A home slice adds to a flag for the only packet, and marks what it has done. -/
theorem addFlag_updPkt (amount : Nat) (f : Pkt → Pkt) :
    ((u.addFlag k amount).updPkt j f).pkts = [f j]
      ∧ wordBecomes s ((u.addFlag k amount).updPkt j f) k ((s.wordAt k 8 + amount) % 2 ^ 64) := by
  obtain ⟨he, -, -, hw, -⟩ := harbs.quiet hq
  obtain ⟨hkept, hadded⟩ := addFlag_spec hw he k amount
  rw [wordAt_congr harbs.sameMap.mem] at hadded
  generalize u.addFlag k amount = t at hkept hadded ⊢
  rw [updPkt_only (hkept.pkts.trans (harbs.pkts_eq.trans hpkts))]
  exact ⟨rfl, wordBecomes_congr hadded harbs.sameMap.mem.symm rfl⟩

/-- `FLAG_SET` (R293). -/
theorem homeOf1_flagSet (hkind : j.kind = .flagSet) (hr : wordReached s j.part j.ctx (pa j.pkt 8) k true Region.atomicOk) :
    (u.homeOf1 j).pkts = [{ j with effect := true }]
      ∧ wordBecomes s (u.homeOf1 j) k ((s.wordAt k 8 + pf j.pkt 16 8) % 2 ^ 64) := by
  have hadds : u.homeOf1 j = (u.addFlag k (pf j.pkt 16 8)).updPkt j (fun x => { x with effect := true }) := by
    rw [State.homeOf1, hkind]
    exact pktFlag_reached (harbs.quiet hq) (harbs.wordReached hr) _
  rw [hadds]
  exact addFlag_updPkt harbs hq hpkts _ _

/-- A lane of a `STEP` joins (R358). -/
theorem homeOf1_step {l : Nat} {r : List Nat} (hkind : j.kind = .step) (hlanes : j.lanesDue = l :: r)
    (hr : wordReached s j.part j.ctx (pa j.pkt 24) k true Region.atomicOk) :
    (u.homeOf1 j).pkts = [{ j with joined := j.joined + l }] ∧ wordBecomes s (u.homeOf1 j) k ((s.wordAt k 8 + 1) % 2 ^ 64) := by
  have hadds : u.homeOf1 j = (u.addFlag k 1).updPkt j (fun x => { x with joined := x.joined + l }) := by
    rw [State.homeOf1, hkind]
    dsimp only
    rw [hlanes]
    exact pktFlag_reached (harbs.quiet hq) (harbs.wordReached hr) _
  rw [hadds]
  exact addFlag_updPkt harbs hq hpkts _ _

/-- `FLAG_WAIT` for a flag that has reached its target (R295). -/
theorem homeOf1_flagWait_met (hkind : j.kind = .flagWait) (hr : wordReached s j.part j.ctx (pa j.pkt 8) k false Region.homed)
    (hmet : pf j.pkt 16 8 ≤ s.wordAt k 8) :
    (u.homeOf1 j).pkts = [{ j with effect := true }] ∧ (u.homeOf1 j).mem = s.mem := by
  have hmem := (lineAccess_mem u false true (k / 128)).trans harbs.sameMap.mem
  have hline := (KeepsAgents.of_onlyArbs harbs).trans (.of_onlyTraffic (lineAccess_onlyTraffic u false true (k / 128)))
  rw [homeOf1_flagWait harbs hq hkind hr, if_pos hmet]
  generalize u.lineAccess false true (k / 128) = t at hmem hline ⊢
  rw [updPkt_only ((hline.trans (.of_countAtomic t k)).pkts.trans hpkts)]
  exact ⟨rfl, hmem⟩

/-- `FLAG_WAIT` for a flag below its target (R297). -/
theorem homeOf1_flagWait_short (hkind : j.kind = .flagWait) (hr : wordReached s j.part j.ctx (pa j.pkt 8) k false Region.homed)
    (hshort : s.wordAt k 8 < pf j.pkt 16 8) :
    (u.homeOf1 j).pkts = [j] ∧ (u.homeOf1 j).mem = s.mem
      ∧ (u.homeOf1 j).waits = [⟨j.waiter.agent, j.part, j.ctx, j.lane, j.laneIdx, k, BitVec.ofNat 48 (pa j.pkt 8),
        .flag (BitVec.ofNat 64 (pf j.pkt 16 8))⟩] := by
  obtain ⟨-, -, -, hw, -⟩ := id hq
  have hmem := (lineAccess_mem u false true (k / 128)).trans harbs.sameMap.mem
  have hline := (KeepsAgents.of_onlyArbs harbs).trans (.of_onlyTraffic (lineAccess_onlyTraffic u false true (k / 128)))
  rw [homeOf1_flagWait harbs hq hkind hr, if_neg (Nat.not_le.2 hshort)]
  generalize u.lineAccess false true (k / 128) = t at hmem hline ⊢
  rw [register_first (hline.waits.trans hw)]
  exact ⟨hline.pkts.trans hpkts, hmem, rfl⟩

end

end Sys2Proof.Machine

section
open Sys2Proof Sys2Proof.Machine

/-- Settles O49: the only request is granted, and its operation meets the word and the agents as the request found them. -/
theorem homeOperations : Obligations.HomeOperations := by
  refine ⟨fun s c i sh k hq hsh hinst hst hruns hremote hdrain hdefer halone => ?_,
    fun s q i j k hq hpkts hjq hji hlane hdue halone => ?_⟩
  · have hhome := exec_homeOperation_inst (k := k) hq hsh hinst hst hruns hremote hdrain halone
    refine ⟨fun hop hr => ?_, fun hop hr => ?_, fun hop hr hbroken hbad => ?_, fun hop hr hbad hheld howner => ?_⟩
    all_goals obtain ⟨u, hexec, hmeets⟩ := hhome (by simp [hop]) (by simpa [hop] using hr)
    · exact ⟨_, hexec, homeFlag_signal hmeets hop⟩
    · exact ⟨fun hmet => ⟨_, hexec, homeFlag_wait_met hmeets hop hmet⟩,
        fun hshort => ⟨_, hexec, homeFlag_wait_short hmeets hop hshort⟩⟩
    · exact ⟨fun hfree => ⟨_, hexec, homeFlag_semtake_free hmeets hop hbroken hbad hdefer hfree⟩,
        fun hheld => ⟨_, hexec, homeFlag_semtake_held hmeets hop hbroken hbad hdefer hheld⟩⟩
    · exact ⟨_, hexec, homeFlag_semgive hmeets hop hbad hheld howner⟩
  · obtain ⟨u, hexec, harbs⟩ := exec_homeOperation_packet hpkts hjq hji hlane hdue halone
    have hagent : j.waiter.agent = .packet q i := by simp [Pkt.waiter, hjq, hji, Nat.mod_eq_of_lt q.isLt]
    refine ⟨fun hkind hr => ?_, fun hkind hr => ⟨fun hmet => ?_, fun hshort => ?_⟩, fun l r hkind hlanes hr => ?_⟩
    · exact ⟨_, hexec, homeOf1_flagSet harbs hq hpkts hkind hr⟩
    · exact ⟨_, hexec, homeOf1_flagWait_met harbs hq hpkts hkind hr hmet⟩
    · exact ⟨_, hexec, hagent ▸ homeOf1_flagWait_short harbs hq hpkts hkind hr hshort⟩
    · exact ⟨_, hexec, homeOf1_step harbs hq hpkts hkind hlanes hr⟩

end

namespace Sys2Proof.Machine

/-! ## Upkeep of a stack (R232 to R242, R394 to R408) -/

/-! ### Found words hold no error but poison (R394 to R396) -/

/-- A word's pattern reads as good or as poison: nothing in it is left to find. -/
def Found (e : BitVec 39) : Prop := eccOf e = .good ∨ eccOf e = .poison

theorem found_zero : Found 0 := .inl (if_pos rfl)

theorem found_poisonPattern : Found poisonPattern := .inr (by simp [eccOf, poisonPattern]; decide)

theorem poisonGroup_memErr (s : State) (g n : Nat) :
    (s.poisonGroup g).memErr.get 0 n = if n / 16 = g then poisonPattern else s.memErr.get 0 n := by
  unfold State.poisonGroup
  split
  · refine (foldl_sets (fun s n => s.memErr.get 0 n) _ (fun j n => n = g * 16 + j) (fun _ => poisonPattern) (fun s j n => ?_)
      (List.range 16) s n).1 ⟨n % 16, List.mem_range.2 (by omega), by omega⟩
    exact Tbl.get_set (0 : BitVec 39) s.memErr (g * 16 + j) poisonPattern n
  · refine (foldl_sets (fun s n => s.memErr.get 0 n) _ (fun j n => n = g * 16 + j) (fun _ => poisonPattern) (fun s j n => ?_)
      (List.range 16) s n).2 fun j hj => by rw [List.mem_range] at hj; omega
    exact Tbl.get_set (0 : BitVec 39) s.memErr (g * 16 + j) poisonPattern n

/-- A word that is found is found for good, and a word keeps its pattern unless it is found with it. -/
theorem fixWord_memErr (s : State) (w n : Nat) :
    Found ((s.fixWord w).memErr.get 0 n) ∨ (n ≠ w ∧ (s.fixWord w).memErr.get 0 n = s.memErr.get 0 n) := by
  have hkept (he : Found (s.memErr.get 0 w)) : Found (s.memErr.get 0 n) ∨ (n ≠ w ∧ s.memErr.get 0 n = s.memErr.get 0 n) := by
    by_cases hn : n = w
    · exact .inl (hn ▸ he)
    · exact .inr ⟨hn, rfl⟩
  have hset {e : BitVec 39} (he : Found e) {t : State} (ht : t.memErr = s.memErr.set 0 w e) :
      Found (t.memErr.get 0 n) ∨ (n ≠ w ∧ t.memErr.get 0 n = s.memErr.get 0 n) := by
    rw [ht, Tbl.get_set]
    split
    · exact .inl he
    · next hn => exact .inr ⟨hn, rfl⟩
  unfold State.fixWord
  extract_lets +onlyGivenNames e r stands
  have hstands (e' : BitVec 39) : (stands e').memErr = s.memErr.set 0 w e' := rfl
  clear_value stands
  split
  · next hgood =>
    split
    · exact hkept (.inl hgood)
    · exact hset found_zero (hstands 0)
  · next hpoison =>
    split
    · exact hkept (.inr hpoison)
    · exact hset found_poisonPattern (hstands _)
  · split
    · exact hset found_zero ((countSram_counted _ _ _ _).memErr_eq.trans (hstands 0))
    · exact hset found_zero ((countCorrected_counted _ _ _).memErr_eq.trans (hstands 0))
  · extract_lets +onlyGivenNames at_ a b c
    have ha : a.memErr.get 0 n = if n / 16 = w / 16 then poisonPattern else s.memErr.get 0 n := poisonGroup_memErr s (w / 16) n
    have hb : b.memErr = a.memErr := State.memErr_setStack ..
    have hc : c.memErr = b.memErr := (raise_records b _).counted.memErr_eq
    clear_value at_ a b c
    have hfound {t : State} (ht : OnlyCounted c t) :
        Found (t.memErr.get 0 n) ∨ (n ≠ w ∧ t.memErr.get 0 n = s.memErr.get 0 n) := by
      rw [ht.memErr_eq, hc, hb, ha]
      split
      · exact .inl found_poisonPattern
      · next hn => exact .inr ⟨fun h => hn (h ▸ rfl), rfl⟩
    cases at_ with
    | some a => exact hfound (countSram_counted c a _ _)
    | none => exact hfound (retireRow_counted c r)

/-- A visit of words finds each of them, and leaves the others as they are or found. -/
theorem foldl_fixWord_found (ws : List Nat) (s : State) (n : Nat) (h : n ∈ ws ∨ Found (s.memErr.get 0 n)) :
    Found ((ws.foldl State.fixWord s).memErr.get 0 n) := by
  induction ws generalizing s with
  | nil => simpa using h
  | cons w ws ih =>
    refine ih (s.fixWord w) ?_
    rcases fixWord_memErr s w n with hfound | ⟨hne, hsame⟩
    · exact .inr hfound
    · rw [hsame]
      exact h.imp_left fun hmem => (List.mem_cons.1 hmem).resolve_left hne

/-- A visit of the words with errors that a test picks finds every word that it picks. -/
theorem visit_found (s : State) (pick : Nat → Bool) (n : Nat) (h : pick n = true) :
    Found ((((s.memErr.map Prod.fst).filter pick).foldl State.fixWord s).memErr.get 0 n) := by
  refine foldl_fixWord_found _ s n ?_
  by_cases hn : s.memErr.get 0 n = 0
  · exact .inr (by rw [hn]; exact found_zero)
  · exact .inl (List.mem_filter.2 ⟨List.mem_map.2 ⟨_, Tbl.mem_of_get_ne _ _ _ hn, rfl⟩, h⟩)

theorem touch_found (s : State) (gs : List Nat) (n : Nat) (h : n / 16 ∈ gs) : Found ((s.touch gs).memErr.get 0 n) :=
  visit_found s (fun w => gs.contains (w / 16)) n (by simpa using h)

theorem touchPair_found (s : State) (st die pair n : Nat) (hst : keyStack (4 * n) = st) (hdie : keyDie (4 * n) = die)
    (hpair : keyPair (4 * n) = pair) : Found ((s.touchPair st die pair).memErr.get 0 n) :=
  visit_found s (fun w => keyStack (4 * w) = st && keyDie (4 * w) = die && keyPair (4 * w) = pair) n
    (by simp [hst, hdie, hpair])

theorem touchPair_clean {s : State} (h : s.memErr = []) (st die pair : Nat) : s.touchPair st die pair = s := by
  simp [State.touchPair, h]

/-! ### What found errors leave of a stack (R394 to R408) -/

/-- What an error that is found, and a part that is retired for it, may change of a stack. -/
def Stack.OnlyErrors (k l : Stack) : Prop :=
  { l with
    postponed := k.postponed, unitFail := k.unitFail, spares := k.spares, proxied := k.proxied, migrating := k.migrating,
    ceCount := k.ceCount, ueCount := k.ueCount, remapPending := k.remapPending, remaps := k.remaps, pendingRows := k.pendingRows,
    spareRows := k.spareRows, rowCnt := k.rowCnt, laneCnt := k.laneCnt, units := k.units } = k

/-- The stacks change by found errors alone. -/
def OnlyErrors (s t : State) : Prop := ∀ k, (s.stack k).OnlyErrors (t.stack k)

namespace OnlyErrors

theorem refl (s : State) : OnlyErrors s s := fun _ => rfl

theorem trans {s t u : State} (h : OnlyErrors s t) (g : OnlyErrors t u) : OnlyErrors s u := fun k => by
  have hk := h k
  have gk := g k
  unfold Stack.OnlyErrors at *
  rw [← hk, ← gk]

theorem of_stks {s t : State} (h : t.stks = s.stks) : OnlyErrors s t := fun k => by
  rw [State.stack_of_stks s t h]
  rfl

theorem of_records {s t : State} (h : OnlyRecords s t) : OnlyErrors s t := of_stks h.stks_eq

theorem of_updStack (s : State) (st : Fin 12) (f : Stack → Stack) (h : (s.stack st).OnlyErrors (f (s.stack st))) :
    OnlyErrors s (s.updStack st f) := fun k => by
  rw [State.updStack_eq, State.stack_setStack]
  split
  · next hk => exact hk ▸ h
  · rfl

theorem of_updUnit (s : State) (u : UnitId) (f : BankUnit → BankUnit) : OnlyErrors s (s.updUnit u f) :=
  of_updStack s u.s (fun k => k.setUnit u (f (s.unit u))) rfl

theorem foldl {α : Type} (f : State → α → State) (hf : ∀ s a, OnlyErrors s (f s a)) (l : List α) (s : State) :
    OnlyErrors s (l.foldl f s) := foldl_keeps OnlyErrors refl (fun _ _ _ => trans) f hf l s

end OnlyErrors

theorem addDefect_onlyErrors (s : State) (kind origin : Nat) (a b : BitVec 32) : OnlyErrors s (s.addDefect kind origin a b) := by
  unfold State.addDefect
  extract_lets +onlyGivenNames e
  split
  · exact .refl s
  · extract_lets +onlyGivenNames c u
    have hu : OnlyErrors s u := .of_stks rfl
    split
    · exact hu.trans (.of_records (raise_records _ _))
    · exact hu

theorem freeBanks_onlyErrors (s : State) (u : UnitId) (ts : List Step) : OnlyErrors s (s.freeBanks u ts) := by
  unfold State.freeBanks
  split
  · exact .of_updStack s u.s _ (by exact rfl)
  · exact .refl s

theorem failUnit_onlyErrors (s : State) (u : UnitId) : OnlyErrors s (s.failUnit u) := by
  unfold State.failUnit
  split
  · exact .refl s
  · extract_lets +onlyGivenNames a f b sp
    have hb : OnlyErrors s b := ((addDefect_onlyErrors s _ _ _ _).trans (freeBanks_onlyErrors a u _)).trans (.of_updUnit f u _)
    clear_value b
    split
    · extract_lets +onlyGivenNames j pair c
      have hc : OnlyErrors s c := hb.trans (.of_updStack b u.s _ (by exact rfl))
      clear_value c
      split
      · exact hc
      · exact (hc.trans (.of_updUnit c u _)).trans (.of_updStack _ u.s _ (by exact rfl))
    · extract_lets +onlyGivenNames j pair d c
      have hc : OnlyErrors s c := hb.trans (.of_updStack b u.s _ (by exact rfl))
      clear_value c
      split
      · exact hc.trans (.of_updStack c u.s _ (by exact rfl))
      · exact hc

theorem retireRow_onlyErrors (s : State) (r : RowId) : OnlyErrors s (s.retireRow r) := by
  unfold State.retireRow
  extract_lets +onlyGivenNames k
  split
  · exact .refl s
  · extract_lets +onlyGivenNames u freed a live used reason ev
    have ha : OnlyErrors s a := (OnlyErrors.of_updStack s r.s _ (by exact rfl)).trans (addDefect_onlyErrors freed _ _ _ _)
    clear_value a
    split
    · exact ha.trans (failUnit_onlyErrors _ _)
    · split <;> exact ha.trans ((OnlyErrors.of_updStack a r.s _ (by exact rfl)).trans (.of_records (raise_records _ _)))

theorem countSram_onlyErrors (s : State) (a : SramArray) (group : Nat) (now : Bool) : OnlyErrors s (s.countSram a group now) := by
  unfold State.countSram
  extract_lets +onlyGivenNames win tbl
  generalize countFault _ _ _ _ _ _ = x
  obtain ⟨tbl', lasting⟩ := x
  dsimp -zeta only
  extract_lets +onlyGivenNames b
  have hb : OnlyErrors s b := .of_stks rfl
  clear_value b
  split
  · exact hb.trans (addDefect_onlyErrors _ _ _ _ _)
  · exact hb

theorem countCorrected_onlyErrors (s : State) (r : RowId) (e : BitVec 39) : OnlyErrors s (s.countCorrected r e) := by
  unfold State.countCorrected
  extract_lets +onlyGivenNames win k
  generalize countFault k.rowCnt 256 3 r.key s.hkCount win = x
  obtain ⟨rows, lasting⟩ := x
  dsimp -zeta only
  extract_lets +onlyGivenNames a b
  have hb : OnlyErrors s b := by
    show OnlyErrors s (if lasting = true then a.retireRow r else a)
    have ha : OnlyErrors s a := .of_updStack s r.s _ (by exact rfl)
    split
    · exact ha.trans (retireRow_onlyErrors _ _)
    · exact ha
  clear_value b
  split
  · extract_lets +onlyGivenNames channel lane
    generalize countFault _ _ _ _ _ _ = y
    obtain ⟨lanes, lastingLane⟩ := y
    dsimp -zeta only
    extract_lets +onlyGivenNames c
    have hc : OnlyErrors s c := hb.trans (.of_updStack b r.s _ (by exact rfl))
    clear_value c
    split
    · exact hc.trans (addDefect_onlyErrors _ _ _ _ _)
    · exact hc
  · exact hb

theorem poisonGroup_stks (s : State) (g : Nat) : (s.poisonGroup g).stks = s.stks :=
  foldl_keeps (fun s t => t.stks = s.stks) (fun _ => rfl) (fun _ _ _ h g => g.trans h) _ (fun _ _ => by exact rfl) _ s

theorem fixWord_onlyErrors (s : State) (w : Nat) : OnlyErrors s (s.fixWord w) := by
  unfold State.fixWord
  extract_lets +onlyGivenNames e r stands
  have hs : ∀ e', OnlyErrors s (stands e') := fun e' => .of_stks rfl
  clear_value stands
  split
  · split
    · exact .refl s
    · exact hs _
  · split
    · exact .refl s
    · exact hs _
  · split
    · exact (hs _).trans (countSram_onlyErrors _ _ _ _)
    · exact (hs _).trans (countCorrected_onlyErrors _ _ _)
  · extract_lets +onlyGivenNames at_ a b c
    have ha : OnlyErrors s a := .of_stks (poisonGroup_stks s _)
    have hc : OnlyErrors s c := (ha.trans (.of_updStack a r.s _ (by exact rfl))).trans (.of_records (raise_records b _))
    clear_value at_ a b c
    cases at_ with
    | some a => exact hc.trans (countSram_onlyErrors _ _ _ _)
    | none => exact hc.trans (retireRow_onlyErrors c r)

theorem touch_onlyErrors (s : State) (gs : List Nat) : OnlyErrors s (s.touch gs) := .foldl _ fixWord_onlyErrors _ s


/-! ### A unit that fails (R241) -/

/-- A unit out of service, with no run and nothing to send. -/
def BankUnit.gone (x : BankUnit) : Prop := x.out = true ∧ x.inRun = false ∧ x.outQ = []

theorem unit_updUnit (s : State) (u : UnitId) (f : BankUnit → BankUnit) : (s.updUnit u f).unit u = f (s.unit u) := by simp

/-- An update of a stack that keeps its units' table. -/
theorem unit_updStack (s : State) (k : Fin 12) (f : Stack → Stack) (h : ∀ x : Stack, (f x).units = x.units) (u : UnitId) :
    (s.updStack k f).unit u = s.unit u := by
  rw [State.updStack_eq, State.unit_setStack]
  split
  · next hu => rw [Stack.unit, h, hu.symm]; rfl
  · rfl

theorem gone_updStack {s : State} {u : UnitId} (k : Fin 12) (f : Stack → Stack) (h : ∀ x : Stack, (f x).units = x.units)
    (hu : (s.unit u).gone) : ((s.updStack k f).unit u).gone := by
  rwa [unit_updStack s k f h]

/-- A unit that fails leaves its run behind, whether its pair is copied to a spare or served in proxy mode alone. -/
theorem failUnit_gone {s : State} {u : UnitId} (h : (s.unit u).out = false) : ((s.failUnit u).unit u).gone := by
  unfold State.failUnit
  rw [if_neg (by simp [h])]
  extract_lets +onlyGivenNames a f b sp
  have hb : (b.unit u).gone := by
    rw [show b.unit u = { (f.unit u).emptied with st := .bypassed } from unit_updUnit f u _]
    exact ⟨rfl, rfl, rfl⟩
  clear_value b
  split
  · extract_lets +onlyGivenNames j pair c
    have hc : (c.unit u).gone := gone_updStack u.s _ (by exact fun _ => rfl) hb
    clear_value c
    split
    · exact hc
    · refine gone_updStack u.s _ (by exact fun _ => rfl) ?_
      rw [unit_updUnit]
      exact ⟨rfl, hc.2⟩
  · extract_lets +onlyGivenNames j pair d c
    have hc : (c.unit u).gone := gone_updStack u.s _ (by exact fun _ => rfl) hb
    clear_value c
    split
    · exact gone_updStack u.s _ (by exact fun _ => rfl) hc
    · exact hc

/-- A run that does not end takes its unit out of service. -/
theorem unitRunTimeout_spec {s : State} {u : UnitId} (hrun : (s.unit u).inRun = true) (hout : (s.unit u).out = false) :
    ∃ t, exec (.unitRunTimeout u) s = .next t ∧ (t.unit u).gone ∧ t.mem = s.mem := by
  have hexec : exec (.unitRunTimeout u) s = .next
      ((s.raise (((mkEvent 0x04 1 0).withReason 1).atUnit u.s.val u.d.val u.u.val)).failUnit u) := by
    show execUnitRunTimeout u s = _
    simp only [execUnitRunTimeout, hrun, State.unitFault, hout, if_true, Bool.false_eq_true, if_false]
  have hunit : ∀ ev, (s.raise ev).unit u = s.unit u := fun ev => State.unit_of_stks s _ (raise_stks s ev) u
  exact ⟨_, hexec, failUnit_gone ((congrArg BankUnit.out (hunit _)).trans hout),
    (failUnit_counted _ u).mem_eq.trans (raise_mem s _)⟩

/-! ### Migrations (R242) -/

/-- A stack whose spare `j` of die `d` has taken over the unit's pair. -/
def Stack.migrated (k : Stack) (d : Fin 16) (n : BitVec 6) (failed : Bool) : Stack :=
  { k.leavePair d.val n.toNat with
    migrating := k.migrating.set false (64 * d.val + n.toNat) false
    proxied := if failed then k.proxied else k.proxied.set false (64 * d.val + n.toNat) false }

section

variable {s : State} {st : Fin 12} {d : Fin 16} {j : Fin 4} {sp : SparePair}

theorem exec_migrationComplete (hsp : (s.stack st).spares.get SparePair.reset (4 * d.val + j.val) = sp) (huse : sp.inUse = true)
    (hmig : (s.stack st).migrating.get false (64 * d.val + sp.replaced.toNat) = true) :
    exec (.migrationComplete st d j) s = .next
      (((s.touchPair st.val d.val sp.replaced.toNat).updStack st (fun k => k.migrated d sp.replaced sp.failed)).updUnit
        ⟨st, d, ⟨sp.replaced.toNat, by omega⟩⟩ (fun x => { x with st := .retired })) := by
  show execMigrationComplete st d j s = _
  subst hsp
  unfold execMigrationComplete
  dsimp only
  rw [if_pos (by simp [huse, hmig])]
  rfl

/-- The pair's addresses lead to the spare, and the unit is retired. -/
theorem migrationComplete_clean (hsp : (s.stack st).spares.get SparePair.reset (4 * d.val + j.val) = sp) (huse : sp.inUse = true)
    (hmig : (s.stack st).migrating.get false (64 * d.val + sp.replaced.toNat) = true) (hclean : s.memErr = []) :
    ∃ t, exec (.migrationComplete st d j) s = .next t
      ∧ t.pairOf ⟨st, d, ⟨64 + j.val, by omega⟩⟩ = some sp.replaced.toNat
      ∧ (t.unit ⟨st, d, ⟨sp.replaced.toNat, by omega⟩⟩).st = .retired
      ∧ (sp.failed = false → (t.stack st).proxied.get false (64 * d.val + sp.replaced.toNat) = false) ∧ t.mem = s.mem := by
  refine ⟨_, exec_migrationComplete hsp huse hmig, ?_⟩
  rw [touchPair_clean hclean]
  set v := s.updStack st (fun k => k.migrated d sp.replaced sp.failed) with hv
  set u : UnitId := ⟨st, d, ⟨sp.replaced.toNat, by omega⟩⟩
  have hstack : (v.updUnit u (fun x => { x with st := .retired })).stack st
      = ((s.stack st).migrated d sp.replaced sp.failed).setUnit u { v.unit u with st := .retired } := by
    simp [hv, u]
  refine ⟨?_, by rw [unit_updUnit], fun hfailed => ?_, rfl⟩
  · unfold State.pairOf
    rw [if_neg (by simp), hstack]
    simp [Stack.setUnit, Stack.migrated, Stack.leavePair, hsp, huse]
  · rw [hstack]
    simp [Stack.setUnit, Stack.migrated, hfailed]

/-- The copy leaves no error but poison in the pair. -/
theorem migrationComplete_found (hsp : (s.stack st).spares.get SparePair.reset (4 * d.val + j.val) = sp) (huse : sp.inUse = true)
    (hmig : (s.stack st).migrating.get false (64 * d.val + sp.replaced.toNat) = true) :
    ∃ t, exec (.migrationComplete st d j) s = .next t ∧ ∀ w, keyStack (4 * w) = st.val → keyDie (4 * w) = d.val →
      keyPair (4 * w) = sp.replaced.toNat → Found (t.memErr.get 0 w) :=
  ⟨_, exec_migrationComplete hsp huse hmig, fun w hst hdie hpair => touchPair_found s _ _ _ w hst hdie hpair⟩

end

/-! ### The ledger's visit (R235) -/

/-- One entry of the ledger is visited and freed. -/
def State.visitEntry (s : State) (st : Fin 12) (e : Nat × LedgerEntry) : State :=
  (match s.reportWord st e.2 with
    | some w => s.fixWord w
    | none => s).updStack st (fun k => { k with ledger := k.ledger.set none e.1 none })

theorem visitEntry_ledger (s : State) (st : Fin 12) (e : Nat × LedgerEntry) (n : Nat) :
    ((s.visitEntry st e).stack st).ledger.get none n = if n = e.1 then none else (s.stack st).ledger.get none n := by
  unfold State.visitEntry
  split
  · next w _ =>
    have hsame : ((s.fixWord w).stack st).ledger = (s.stack st).ledger := by rw [← fixWord_onlyErrors s w st]
    simp [hsame]
  · simp

/-- A visit frees the entries that it picks. -/
theorem visitLedger_frees (s : State) (st : Fin 12) (pick : LedgerEntry → Bool) (n : Nat) (y : LedgerEntry)
    (hy : (s.stack st).ledger.get none n = some y) (hpick : pick y = true) :
    ((s.visitLedger st pick).stack st).ledger.get none n = none := by
  have hentry : (n, some y) ∈ (s.stack st).ledger := hy ▸ Tbl.mem_of_get_ne _ none n (by rw [hy]; exact Option.some_ne_none y)
  refine (foldl_sets (fun s n => (s.stack st).ledger.get none n) (fun s e => s.visitEntry st e) (fun e n => n = e.1)
    (fun _ => none) (fun s e n => visitEntry_ledger s st e n) _ s n).1 ⟨(n, y), ?_, rfl⟩
  exact List.mem_filter.2 ⟨List.mem_filterMap.2 ⟨_, hentry, rfl⟩, hpick⟩

/-! ### Rows (R231, R405, R408) -/

theorem keyRowId_physKey (r : RowId) : keyRowId (physKey r.s.val r.d.val r.pair.val r.bank.val r.row.toNat 0) = r := by
  obtain ⟨s, d, pair, bank, row⟩ := r
  have hrow := row.isLt
  have hs := s.isLt
  have hd := d.isLt
  have hp := pair.isLt
  have hb := bank.isLt
  simp only [keyRowId, keyStack, keyDie, keyPair, keyBank, keyRow, physKey, RowId.mk.injEq, Fin.ext_iff]
  refine ⟨by omega, by omega, by omega, by omega, BitVec.eq_of_toNat_eq ?_⟩
  rw [BitVec.toNat_ofNat]
  omega

/-- A row begins at a whole group. -/
theorem physKey_row (st die pair bank row : Nat) : ∃ m, physKey st die pair bank row 0 = 2048 * m :=
  ⟨(((st * 16 + die) * 64 + pair) * 2 + bank) * 16384 + row, by unfold physKey; omega⟩

/-- A visit of a row's groups finds each of its words. -/
theorem touch_row_found (s : State) (st die pair bank row n : Nat) (hn : n < 512) :
    Found ((s.touch ((List.range 32).map (physKey st die pair bank row 0 / 64 + ·))).memErr.get 0
      (physKey st die pair bank row 0 / 4 + n)) := by
  obtain ⟨m, hm⟩ := physKey_row st die pair bank row
  rw [hm]
  exact touch_found s _ _ (List.mem_map.2 ⟨n / 16, List.mem_range.2 (by omega), by omega⟩)

/-! ### Refresh (R232, R233) -/

/-- A step of a unit holds a bank of its pair open. -/
def BankUnit.opens (x : BankUnit) (bank : Nat) : Prop := ∃ e : Step, (x.cur = some e ∨ x.ahead = some e) ∧ e.bank.val = bank

theorem bankOpen_row (s : State) (r : RowId) :
    s.bankOpen (physKey r.s.val r.d.val r.pair.val r.bank.val r.row.toNat 0) = true ↔ (s.unit (s.servedBy r)).opens r.bank.val := by
  simp [State.bankOpen, keyRowId_physKey, BankUnit.opens, Fin.ext_iff, or_and_right, exists_or]

/-- The bank that a refresh is for, by the first row of it. -/
def refreshed (st : Fin 12) (h : Fin 64) (k : Fin 32) : RowId :=
  ⟨st, ⟨h.val / 4, by omega⟩, ⟨16 * (h.val % 4) + k.val / 2, by omega⟩, ⟨k.val % 2, by omega⟩, 0⟩

/-- A stack that owes a refresh more. -/
def Stack.owing (x : Stack) (h : Fin 64) (k : Fin 32) : Stack := { x with postponed := x.postponed.set 0 (32 * h.val + k.val) 1 }

/-- The peak of refreshes owed. -/
def Stack.peaked (x : Stack) (n : Nat) : Stack :=
  { x with refPeak := if x.refPeak.toNat < n then BitVec.ofNat 4 (min 8 n) else x.refPeak }

theorem exec_refresh (s : State) (st : Fin 12) (h : Fin 64) (k : Fin 32) :
    exec (.refresh st h k) s
      = if s.bankOpen (physKey st.val (h.val / 4) (16 * (h.val % 4) + k.val / 2) (k.val % 2) 0 0)
          && decide ((s.stack st).owed h.val < 8) then
        .next ((s.updStack st (fun x => x.owing h k)).updStack st
          (fun x => x.peaked (((s.updStack st (fun x => x.owing h k)).stack st).owed h.val)))
      else .next s := rfl

section

variable {s : State} {st : Fin 12} {h : Fin 64} {k : Fin 32}

theorem refresh_idle (hidle : ¬ (s.unit (s.servedBy (refreshed st h k))).opens (k.val % 2) ∨ 8 ≤ (s.stack st).owed h.val) :
    exec (.refresh st h k) s = .next s := by
  rw [exec_refresh, if_neg]
  rw [Bool.and_eq_true, decide_eq_true_iff, not_and_or, Nat.not_lt]
  exact hidle.imp_left fun hno hopen => hno ((bankOpen_row s (refreshed st h k)).1 hopen)

theorem refresh_owed (hopen : (s.unit (s.servedBy (refreshed st h k))).opens (k.val % 2)) (howed : (s.stack st).owed h.val < 8) :
    ∃ t, exec (.refresh st h k) s = .next t ∧ (t.stack st).postponed.get 0 (32 * h.val + k.val) = 1
      ∧ { t with stks := s.stks } = s := by
  rw [exec_refresh, if_pos (by rw [Bool.and_eq_true, decide_eq_true_iff]; exact ⟨(bankOpen_row s (refreshed st h k)).2 hopen, howed⟩)]
  generalize (((s.updStack st (fun x => x.owing h k)).stack st).owed h.val) = n
  refine ⟨_, rfl, ?_, (updStack_onlyStacks s st _).trans (updStack_onlyStacks _ st _)⟩
  simp [Stack.peaked, Stack.owing]

end

/-! ### The scrubber and a row's copy (R405, R408) -/

/-- The groups of a row. -/
def rowGroups (r : RowId) : List Nat :=
  (List.range 32).map (physKey r.s.val r.d.val r.pair.val r.bank.val r.row.toNat 0 / 64 + ·)

/-- An arrival changes partitions alone. -/
theorem arrive_onlyParts (s : State) (p : Fin 4) (a : ArrivalKind) : OnlyParts s (s.arrive p a) := arriveHeld_onlyParts s p _

theorem OnlyParts.memErr_eq {s t : State} (h : OnlyParts s t) : t.memErr = s.memErr := by rw [h.rest]

/-- A stack whose scrubber has visited a row. -/
def Stack.scrubbed (k : Stack) (r : RowId) : Stack :=
  let seen := if k.visited.contains r.key then k.visited else k.visited ++ [r.key]
  if seen.length < rowsOfStack then { k with visited := seen }
  else { k with visited := [], passes := satAdd k.passes 1 }

theorem Stack.scrubbed_visited {k : Stack} {r : RowId} (hnew : r.key ∉ k.visited) (hroom : k.visited.length + 1 < rowsOfStack) :
    (k.scrubbed r).visited = k.visited ++ [r.key] := by
  simp [Stack.scrubbed, hnew, hroom]

section

variable {s : State} {r : RowId}

/-- A row whose visit nothing puts off is visited. -/
theorem exec_scrubVisit (hen : (s.stack r.s).scrubEn = true)
    (hidle : ∀ n, (s.unit ⟨r.s, r.d, n⟩).inRun = true → s.pairOf ⟨r.s, r.d, n⟩ ≠ some r.pair.val)
    (htest : ¬ (s.hk.mtBusy = true ∧ s.hk.mtStacks.getLsbD r.s.val = true)) :
    ∃ u, OnlyParts (s.touch (rowGroups r)) u ∧ exec (.scrubVisit r) s = .next (u.updStack r.s (fun k => k.scrubbed r)) := by
  have hbusy : (List.finRange 68).any (fun n => (s.unit ⟨r.s, r.d, n⟩).inRun && decide (s.pairOf ⟨r.s, r.d, n⟩ = some r.pair.val))
      = false := by
    simpa using hidle
  have hgo : ¬ (!(s.stack r.s).scrubEn || (List.finRange 68).any (fun n => (s.unit ⟨r.s, r.d, n⟩).inRun
      && decide (s.pairOf ⟨r.s, r.d, n⟩ = some r.pair.val)) || (s.hk.mtBusy && s.hk.mtStacks.getLsbD r.s.val)) = true := by
    simpa [hen, hbusy] using htest
  refine ⟨_, ?_, if_neg hgo⟩
  split
  · exact arrive_onlyParts _ _ _
  · rfl

theorem scrubVisit_spec (hen : (s.stack r.s).scrubEn = true)
    (hidle : ∀ n, (s.unit ⟨r.s, r.d, n⟩).inRun = true → s.pairOf ⟨r.s, r.d, n⟩ ≠ some r.pair.val)
    (htest : ¬ (s.hk.mtBusy = true ∧ s.hk.mtStacks.getLsbD r.s.val = true)) (hnew : r.key ∉ (s.stack r.s).visited)
    (hroom : (s.stack r.s).visited.length + 1 < rowsOfStack) :
    ∃ t, exec (.scrubVisit r) s = .next t ∧ (t.stack r.s).visited = (s.stack r.s).visited ++ [r.key]
      ∧ t.memErr = (s.touch (rowGroups r)).memErr := by
  obtain ⟨u, hparts, hexec⟩ := exec_scrubVisit hen hidle htest
  have hvisited : (u.stack r.s).visited = (s.stack r.s).visited := by
    rw [hparts.rest, ← touch_onlyErrors s (rowGroups r) r.s]
    rfl
  refine ⟨_, hexec, ?_, ?_⟩
  · rw [State.updStack_eq, State.stack_setStack, if_pos rfl, Stack.scrubbed_visited (hvisited ▸ hnew) (hvisited ▸ hroom), hvisited]
  · exact (State.memErr_setStack ..).trans hparts.memErr_eq

/-- A stack in which the copy of a row has been made. -/
def Stack.remapped (k : Stack) (r : RowId) : Stack :=
  { k with
    remapLive := satAdd k.remapLive 1
    remaps := k.remaps.map (fun m => if m.row = r then { m with done := true } else m) }

theorem exec_rowRemapComplete (hshut : s.bankOpen (physKey r.s.val r.d.val r.pair.val r.bank.val r.row.toNat 0) = false)
    (hdue : ∃ m ∈ (s.stack r.s).remaps, m.row = r ∧ m.done = false) :
    exec (.rowRemapComplete r) s = .next ((s.touch (rowGroups r)).updStack r.s (fun k => k.remapped r)) := by
  have hany : (s.stack r.s).remaps.any (fun m => m.row = r && !m.done) = true := by simpa using hdue
  show execRowRemapComplete r s = _
  unfold execRowRemapComplete
  rw [if_neg (by simp [hshut]), if_pos hany]
  rfl

theorem rowRemapComplete_spec (hshut : s.bankOpen (physKey r.s.val r.d.val r.pair.val r.bank.val r.row.toNat 0) = false)
    (hdue : ∃ m ∈ (s.stack r.s).remaps, m.row = r ∧ m.done = false) :
    ∃ t, exec (.rowRemapComplete r) s = .next t ∧ t.memErr = (s.touch (rowGroups r)).memErr
      ∧ (∀ m ∈ (t.stack r.s).remaps, m.row = r → m.done = true)
      ∧ (t.stack r.s).remapLive = satAdd (s.stack r.s).remapLive 1 := by
  refine ⟨_, exec_rowRemapComplete hshut hdue, rfl, fun m hm hrow => ?_, ?_⟩
  · simp only [State.updStack_eq, State.stack_setStack, if_true, Stack.remapped, List.mem_map] at hm
    obtain ⟨o, -, rfl⟩ := hm
    split
    · rfl
    · next hne =>
      rw [if_neg hne] at hrow
      exact absurd hrow hne
  · have hlive : ((s.touch (rowGroups r)).stack r.s).remapLive = (s.stack r.s).remapLive := by rw [← touch_onlyErrors s (rowGroups r) r.s]
    rw [State.updStack_eq, State.stack_setStack, if_pos rfl, Stack.remapped, hlive]

end

end Sys2Proof.Machine

section
open Sys2Proof Sys2Proof.Machine

/-- Settles O53: a visit of words leaves each of them found, and what found errors change of a stack is neither its ledger nor its
scrubber's pass. -/
theorem stackUpkeep : Obligations.StackUpkeep := by
  intro s
  refine ⟨fun u hrun hout => ?_, fun st d j => ?_, fun u hbegun => ?_, fun st h k => ⟨fun hidle => ?_, fun e he howed => ?_⟩,
    fun r => ⟨fun hen hidle htest hnew hroom => ?_, fun hshut hdue => ?_⟩⟩
  · obtain ⟨t, hexec, ⟨ht, hstopped, hempty⟩, hmem⟩ := unitRunTimeout_spec hrun hout
    exact ⟨t, hexec, ht, hstopped, hempty, hmem⟩
  · exact fun huse hmig => ⟨migrationComplete_clean rfl huse hmig, migrationComplete_found rfl huse hmig⟩
  · exact ⟨_, if_neg (by simp [hbegun]), fun n y hy hd hu => visitLedger_frees s u.s _ n y hy (by simp [hd, hu])⟩
  · exact refresh_idle (hidle.imp_left fun hno ⟨e, he⟩ => hno e he)
  · exact refresh_owed ⟨e, he⟩ howed
  · obtain ⟨t, hexec, hvisited, herr⟩ := scrubVisit_spec hen hidle htest hnew hroom
    exact ⟨t, hexec, fun n hn => by rw [herr]; exact touch_row_found s _ _ _ _ _ n hn, hvisited⟩
  · have hkey : 4 * (physKey r.s.val r.d.val r.pair.val r.bank.val r.row.toNat 0 / 4 + 0)
        = physKey r.s.val r.d.val r.pair.val r.bank.val r.row.toNat 0 := by
      obtain ⟨m, hm⟩ := physKey_row r.s.val r.d.val r.pair.val r.bank.val r.row.toNat
      omega
    obtain ⟨t, hexec, herr, hdone, hlive⟩ := rowRemapComplete_spec (hkey ▸ hshut) hdue
    exact ⟨t, hexec, fun n hn => by rw [herr]; exact touch_row_found s _ _ _ _ _ n hn, hdone, hlive⟩

end

namespace Sys2Proof.Machine

/-! ## Bank units (R202 to R216, R233 to R240) -/

/-! ### One unit of a stack -/

theorem unit_updUnit_of (s : State) (u : UnitId) (f : BankUnit → BankUnit) (v : UnitId) :
    (s.updUnit u f).unit v = if v = u then f (s.unit u) else s.unit v := by
  by_cases hv : v = u
  · rw [hv, if_pos rfl, unit_updUnit]
  · rw [if_neg hv, State.updUnit_eq, State.setUnit_eq, State.unit_setStack]
    split
    · next hs =>
      rw [Stack.unit_setUnit, if_neg fun hkey => hv (UnitId.key_inj v u hs hkey), ← hs]
      rfl
    · rfl

/-- Nothing changes but stacks, and in them not this unit. -/
def SameUnit (u : UnitId) (s t : State) : Prop := OnlyStacks s t ∧ t.unit u = s.unit u

namespace SameUnit

variable {u : UnitId}

theorem refl (s : State) : SameUnit u s s := ⟨rfl, rfl⟩

theorem trans {s t v : State} (h : SameUnit u s t) (g : SameUnit u t v) : SameUnit u s v := ⟨h.1.trans g.1, g.2.trans h.2⟩

theorem of_updStack (s : State) (k : Fin 12) (f : Stack → Stack) (h : ∀ x : Stack, (f x).units = x.units) :
    SameUnit u s (s.updStack k f) := ⟨updStack_onlyStacks s k f, unit_updStack s k f h u⟩

end SameUnit

theorem OnlyStacks.mem_eq {s t : State} (h : OnlyStacks s t) : t.mem = s.mem := by rw [h.rest]
theorem OnlyStacks.memErr_eq {s t : State} (h : OnlyStacks s t) : t.memErr = s.memErr := by rw [h.rest]

theorem updUnit_onlyStacks (s : State) (u : UnitId) (f : BankUnit → BankUnit) : OnlyStacks s (s.updUnit u f) := rfl

/-! ### Columns that hold no error (R203, R234) -/

/-- The first byte of a column. -/
theorem colWord_key (u : UnitId) (pair bank row col : Nat) :
    4 * colWord u pair bank row col = physKey u.s.val u.d.val pair bank row (32 * col) := by
  unfold colWord physKey
  omega

theorem leBytes_leNat (bs : List Byte) : leBytes bs.length (leNat bs) = bs := by
  induction bs with
  | nil => rfl
  | cons b bs ih =>
    have hb := b.isLt
    rw [List.length_cons, leNat, leBytes, show (b.toNat + 256 * leNat bs) / 256 = leNat bs by omega, ih]
    congr 1
    exact BitVec.eq_of_toNat_eq (by rw [BitVec.toNat_ofNat]; omega)

theorem getMany_add {α : Type} (d : α) (t : Tbl α) (k m n : Nat) : t.getMany d k (m + n) = t.getMany d k m ++ t.getMany d (k + m) n := by
  induction m generalizing k with
  | zero => simp [Tbl.getMany]
  | succ m ih =>
    rw [Nat.succ_add, Tbl.getMany, Tbl.getMany, ih, List.cons_append, Nat.succ_add_eq_add_succ]

/-- Words that hold no error, read one by one, are the bytes that they hold. -/
theorem flatMap_words (m : Tbl Byte) (w0 n : Nat) :
    (List.range n).flatMap (fun j => leBytes 4 (BitVec.ofNat 32 (leNat (m.getMany 0 (4 * (w0 + j)) 4))).toNat) = m.getMany 0 (4 * w0) (4 * n) := by
  induction n with
  | zero => rfl
  | succ n ih =>
    have hlt := leNat_lt (m.getMany 0 (4 * (w0 + n)) 4)
    have hword := leBytes_leNat (m.getMany 0 (4 * (w0 + n)) 4)
    rw [Tbl.getMany_length] at hlt hword
    rw [List.range_succ, List.flatMap_append, ih, List.flatMap_singleton, BitVec.toNat_ofNat,
      Nat.mod_eq_of_lt (hlt.trans_eq (by norm_num)), hword, Nat.mul_succ, getMany_add, Nat.mul_add]

theorem eccOf_zero : eccOf 0#39 = .good := if_pos rfl

theorem eccData_zero (w : Word) : eccData 0#39 w = w := by
  simp only [eccData, eccOf_zero]
  exact BitVec.xor_zero

theorem readColumn_clean {s : State} (h : s.memErr = []) (w0 : Nat) :
    s.readColumn w0 = ⟨s.mem.getMany 0 (4 * w0) 32, List.replicate 8 false, []⟩ := by
  have hbytes := flatMap_words s.mem w0 8
  simp [List.range_succ] at hbytes
  simp [State.readColumn, h, hbytes, eccOf_zero, eccData_zero, List.range_succ]

/-- A column without errors is read as it is, and nothing is reported. -/
theorem column_clean {s : State} (h : s.memErr = []) (u : UnitId) (pair : Nat) (t : Step) (k : Nat) :
    (s.column u pair t k).2 = ⟨s.mem.getMany 0 (stepColumn u pair t k) 32, List.replicate 8 false, []⟩
      ∧ SameUnit u s (s.column u pair t k).1 := by
  have hcol : s.readColumn (colWord u pair t.bank.val t.row.toNat (t.first.toNat + k))
      = ⟨s.mem.getMany 0 (stepColumn u pair t k) 32, List.replicate 8 false, []⟩ := by
    rw [readColumn_clean h, colWord_key]
    rfl
  refine ⟨hcol, updUnit_onlyStacks s u _, ?_⟩
  rw [State.column, unit_updUnit, hcol]
  have hce : satAdd (s.unit u).ce 0 = (s.unit u).ce := by simp [satAdd, (s.unit u).ce.isLt]
  simp [BankUnit.report, BankUnit.emit, hce]

/-! ### A step starts (R204, R210, R216, R233) -/

section

variable {s : State} {u : UnitId} {pair : Nat} {t : Step}

/-- A step that nothing holds enters its wave and streams. -/
theorem startStep_starts (h : stepStarts s u pair t) : ∃ w, s.startStep u t = (s.enterStep u pair w t).streamStep u pair t := by
  obtain ⟨hmay, hpair, hrefresh, hparity, -, -⟩ := h
  have hcur : (s.unit u).cur = none := by
    simp only [State.mayStep, Bool.and_eq_true, Option.isNone_iff_eq_none] at hmay
    obtain ⟨⟨⟨hcur, -⟩, -⟩, -⟩ := hmay
    exact hcur
  have hahead : s.mayOpenAhead u t = false := by simp [State.mayOpenAhead, hcur]
  cases hw : (s.stack u.s).waveOf u with
  | none => simp [State.mayStep, hw] at hmay
  | some w => exact ⟨w, by simp [State.startStep, hahead, hmay, hrefresh, hparity, hpair, hw]⟩

/-- What the start of a step leaves of its unit. -/
theorem enterStep_unit (s : State) (u : UnitId) (pair : Nat) (w : Wave) (t : Step) :
    OnlyStacks s (s.enterStep u pair w t)
      ∧ ∃ n, (s.enterStep u pair w t).unit u = { (s.unit u).openStep t with waveStep := n } := by
  unfold State.enterStep
  extract_lets n slots a b
  have ha : SameUnit u s a := .of_updStack s u.s _ fun _ => rfl
  have hb : SameUnit u s b := ha.trans (.of_updStack a u.s _ fun _ => rfl)
  clear_value a b
  exact ⟨hb.1.trans (updUnit_onlyStacks b u _), n, by rw [unit_updUnit, hb.2]⟩

end

/-! ### A step ends (R204, R233, R240) -/

theorem fixWord_clean {s : State} (h : s.memErr = []) (w : Nat) : s.fixWord w = s := by
  simp [State.fixWord, h, eccOf_zero]

theorem log_units (k : Stack) (e : LedgerEntry) : (k.log e).units = k.units := by
  unfold Stack.log
  split
  · rfl
  · split <;> rfl

/-- Where no word holds an error, a report changes at most its stack's ledger. -/
theorem takeReport_sameUnit {s : State} (h : s.memErr = []) (u : UnitId) (st : Fin 12) (n : Nat) : SameUnit u s (s.takeReport st n) := by
  unfold State.takeReport
  extract_lets e
  split
  · exact .of_updStack s st _ fun k => log_units k e
  · split
    · rw [fixWord_clean h]
      exact .refl s
    · exact .refl s
  · exact .refl s

theorem takeReports_sameUnit (u : UnitId) (st : Fin 12) (ns : List Nat) (s : State) (h : s.memErr = []) :
    SameUnit u s (ns.foldl (fun s n => s.takeReport st n) s) := by
  induction ns generalizing s with
  | nil => exact .refl s
  | cons n ns ih =>
    have hn := takeReport_sameUnit h u st n
    exact hn.trans (ih _ (hn.1.memErr_eq.trans h))

theorem freeBanks_sameUnit (s : State) (u v : UnitId) (ts : List Step) : SameUnit v s (s.freeBanks u ts) := by
  unfold State.freeBanks
  split
  · exact .of_updStack s u.s _ fun _ => rfl
  · exact .refl s

theorem queueForSlot_unit (s : State) (u : UnitId) :
    OnlyStacks s (s.queueForSlot u) ∧ ∃ n, (s.queueForSlot u).unit u = { s.unit u with waited := n } := by
  have h : SameUnit u s (s.updStack u.s (fun k => { k with turnNo := (s.stack u.s).turnNo + 1 })) := .of_updStack s u.s _ fun _ => rfl
  exact ⟨h.1.trans (updUnit_onlyStacks _ u _), _, by rw [State.queueForSlot, unit_updUnit, h.2]⟩

/-- A unit between runs keeps what it has to send. -/
theorem endRun_spec (x : BankUnit) : x.endRun.inRun = false ∧ x.endRun.outQ = x.outQ := by
  have hload : ∀ (l : List (Bool × List Step)) (y : BankUnit), y.inRun = false ∧ y.outQ = x.outQ →
      (l.foldl (fun y e => y.loadHalf e.1 e.2) y).inRun = false ∧ (l.foldl (fun y e => y.loadHalf e.1 e.2) y).outQ = x.outQ := by
    intro l
    induction l with
    | nil => exact fun _ h => h
    | cons e l ih => exact fun y h => ih _ h
  exact hload x.loads _ ⟨rfl, rfl⟩

/-- Where no word holds an error, the end of a step changes stacks alone, leaves what its unit has to send, and its run where the step
ends it. -/
theorem closeStep_spec {s : State} (h : s.memErr = []) (u : UnitId) (t : Step) :
    OnlyStacks s (s.closeStep u t) ∧ ((s.closeStep u t).unit u).outQ = (s.unit u).outQ
      ∧ ((s.closeStep u t).unit u).inRun = ((s.unit u).inRun && !t.runEnd)
      ∧ (t.runEnd = false → ((s.closeStep u t).unit u).pc = nextPc (s.unit u).program (s.unit u).pc) := by
  unfold State.closeStep
  extract_lets a reports b c
  have ha : SameUnit u s a := freeBanks_sameUnit s u u [t]
  have hb : OnlyStacks s b := ha.1.trans (updUnit_onlyStacks a u _)
  have hunit : b.unit u = if t.runEnd then { s.unit u with cur := none, beats := 0 }.endRun
      else { s.unit u with cur := none, beats := 0, st := .hold, pc := nextPc (s.unit u).program (s.unit u).pc } := by
    rw [show b.unit u = _ from unit_updUnit a u _, ha.2]
  clear_value b
  cases hend : t.runEnd with
  | false =>
    rw [hend] at hunit
    simp only [Bool.false_eq_true, if_false] at hunit ⊢
    exact ⟨hb, by rw [hunit], by rw [hunit]; simp, fun _ => by rw [hunit]⟩
  | true =>
    rw [hend, if_pos rfl] at hunit
    obtain ⟨hq, n, hwaits⟩ := queueForSlot_unit b u
    have hc : SameUnit u (b.queueForSlot u) c := takeReports_sameUnit u u.s reports _ ((hb.trans hq).memErr_eq.trans h)
    have hlast : SameUnit u c (c.updStack u.s (fun k => { k with slots := c.liveSlots u.s })) := .of_updStack c u.s _ fun _ => rfl
    obtain ⟨hrun, hout⟩ := endRun_spec { s.unit u with cur := none, beats := 0 }
    rw [if_pos rfl]
    refine ⟨(hb.trans hq).trans (hc.1.trans hlast.1), ?_, ?_, fun hno => by cases hno⟩
    · rw [hlast.2, hc.2, hwaits, hunit]
      exact hout
    · rw [hlast.2, hc.2, hwaits, hunit]
      simpa using hrun

end Sys2Proof.Machine

namespace Sys2Proof.Machine

/-! ### A dot step opens (R203, R204) -/

section

variable {s : State} {u : UnitId} {pair : Nat} {t : Step}

theorem readStep_opens (h : stepStarts s u pair t) (hkind : t.kind = .read) (houter : t.outer = false) :
    ∃ v, exec (.readStep u t) s = .next v ∧ OnlyStacks s v
      ∧ v.unit u = { (s.unit u).openStep t with waveStep := (v.unit u).waveStep, st := .step, cur := some t, beats := 0 } := by
  obtain ⟨w, hstart⟩ := startStep_starts h
  obtain ⟨hframe, n, hunit⟩ := enterStep_unit s u pair w t
  have hexec : exec (.readStep u t) s = .next (s.startStep u t) := if_neg (not_not.mpr hkind)
  rw [hstart, State.streamStep, hkind] at hexec
  simp only [houter, Bool.false_eq_true, if_false] at hexec
  exact ⟨_, hexec, hframe.trans (updUnit_onlyStacks _ u _), by rw [unit_updUnit, hunit]⟩

end

/-! ### A `COPY` step sends its columns (R204, R209) -/

/-- One half of a column as `COPY` sends it. -/
def columnFlit (u : UnitId) (c : Column) (h : Nat) : Flit :=
  ⟨u.u, 2, ((c.bad.drop (4 * h)).take 4).any id, 0, BitVec.ofNat 128 (leNat ((c.bytes.drop (16 * h)).take 16))⟩

/-- One column of a `COPY` step. -/
def State.copyColumn (s : State) (u : UnitId) (pair : Nat) (t : Step) (k : Nat) : State :=
  (s.column u pair t k).1.updUnit u
    (fun x => x.emit [columnFlit u (s.column u pair t k).2 0, columnFlit u (s.column u pair t k).2 1])

theorem copyColumns_eq (s : State) (u : UnitId) (pair : Nat) (t : Step) :
    s.copyColumns u pair t = ((List.range t.count).foldl (fun s k => s.copyColumn u pair t k) s).closeStep u t := rfl

/-- A flit that carries 16 bytes of memory as they are stored. -/
def Flit.Copies (m : Tbl Byte) (u : UnitId) (key : Nat) (f : Flit) : Prop :=
  f.unit = u.u ∧ f.kind = 2 ∧ f.poison = false ∧ f.payload.toNat = leNat (m.getMany 0 key 16)

/-- The flits of a run of columns, two to a column. -/
def CopyFlits (m : Tbl Byte) (u : UnitId) (pair : Nat) (t : Step) (n : Nat) (fs : List Flit) : Prop :=
  fs.length = 2 * n ∧ ∀ i f, fs[i]? = some f → Flit.Copies m u (stepColumn u pair t (i / 2) + 16 * (i % 2)) f

/-- Flits have gone out of a unit, and nothing else of it has changed but what numbers them. -/
def BankUnit.Sent (x y : BankUnit) (fs : List Flit) : Prop :=
  ∃ n e, y = { x with outQ := x.outQ ++ fs, seq := n, emitted := e }

theorem BankUnit.Sent.append {x y z : BankUnit} {fs gs : List Flit} (h : x.Sent y fs) (g : y.Sent z gs) : x.Sent z (fs ++ gs) := by
  obtain ⟨n, e, rfl⟩ := h
  obtain ⟨n', e', rfl⟩ := g
  exact ⟨n', e', by simp⟩

theorem columnFlit_copies (m : Tbl Byte) (u : UnitId) (key h : Nat) (hh : h < 2) (errs : List (Nat × Nat)) (q : BitVec 6) :
    Flit.Copies m u (key + 16 * h) { columnFlit u ⟨m.getMany 0 key 32, List.replicate 8 false, errs⟩ h with seq := q } := by
  have hsplit : m.getMany 0 key 32 = m.getMany 0 key 16 ++ m.getMany 0 (key + 16) 16 := getMany_add 0 m key 16 16
  have hhalf : ((m.getMany 0 key 32).drop (16 * h)).take 16 = m.getMany 0 (key + 16 * h) 16 := by
    rw [hsplit]
    obtain rfl | rfl : h = 0 ∨ h = 1 := by omega
    · simp
    · simp
  have hlt := leNat_lt (m.getMany 0 (key + 16 * h) 16)
  rw [Tbl.getMany_length] at hlt
  refine ⟨rfl, rfl, ?_, ?_⟩
  · obtain rfl | rfl : h = 0 ∨ h = 1 := by omega
    · rfl
    · rfl
  · rw [← hhalf] at hlt ⊢
    exact (BitVec.toNat_ofNat ..).trans (Nat.mod_eq_of_lt (hlt.trans_eq (by norm_num)))

theorem copyColumn_spec {s : State} (h : s.memErr = []) (u : UnitId) (pair : Nat) (t : Step) (k : Nat) :
    OnlyStacks s (s.copyColumn u pair t k) ∧ ∃ f g, (s.unit u).Sent ((s.copyColumn u pair t k).unit u) [f, g]
      ∧ Flit.Copies s.mem u (stepColumn u pair t k + 16 * 0) f ∧ Flit.Copies s.mem u (stepColumn u pair t k + 16 * 1) g := by
  obtain ⟨hread, hframe, hunit⟩ := column_clean h u pair t k
  refine ⟨hframe.trans (updUnit_onlyStacks _ u _), _, _,
    ⟨(s.unit u).seq + 1 + 1, (s.unit u).emitted + 1 + 1, ?_⟩, columnFlit_copies s.mem u _ 0 (by decide) [] (s.unit u).seq,
    columnFlit_copies s.mem u _ 1 (by decide) [] ((s.unit u).seq + 1)⟩
  rw [State.copyColumn, unit_updUnit, hunit, hread]
  simp [BankUnit.emit]

theorem copyFold_spec {s : State} (h : s.memErr = []) (u : UnitId) (pair : Nat) (t : Step) (n : Nat) :
    OnlyStacks s ((List.range n).foldl (fun s k => s.copyColumn u pair t k) s)
      ∧ ∃ fs, (s.unit u).Sent (((List.range n).foldl (fun s k => s.copyColumn u pair t k) s).unit u) fs
        ∧ CopyFlits s.mem u pair t n fs := by
  induction n with
  | zero => exact ⟨rfl, [], ⟨(s.unit u).seq, (s.unit u).emitted, by simp⟩, rfl, by simp⟩
  | succ n ih =>
    obtain ⟨hframe, fs, hsent, hlen, hfs⟩ := ih
    rw [List.range_succ, List.foldl_append, List.foldl_cons, List.foldl_nil]
    obtain ⟨hnext, f, g, hfg, hf, hg⟩ := copyColumn_spec (hframe.memErr_eq.trans h) u pair t n
    rw [hframe.mem_eq] at hf hg
    refine ⟨hframe.trans hnext, _, hsent.append hfg, by simp [hlen]; omega, fun i e he => ?_⟩
    rw [List.getElem?_append, hlen] at he
    split at he
    · exact hfs i e he
    · next hi =>
      have hlt : i - 2 * n < 2 := (List.getElem?_eq_some_iff.mp he).1
      obtain hi | hi : i = 2 * n ∨ i = 2 * n + 1 := by omega
      · rw [hi, Nat.sub_self] at he
        obtain rfl : f = e := Option.some.inj he
        simpa only [hi, show 2 * n / 2 = n by omega, show 2 * n % 2 = 0 by omega] using hf
      · rw [hi, Nat.add_sub_cancel_left] at he
        obtain rfl : g = e := Option.some.inj he
        simpa only [hi, show (2 * n + 1) / 2 = n by omega, show (2 * n + 1) % 2 = 1 by omega] using hg

/-- A unit between steps is at its next entry, or out of its run. -/
def BankUnit.StepEnded (x y : BankUnit) (t : Step) : Prop :=
  y.inRun = !t.runEnd ∧ (t.runEnd = false → (x.program.get none (x.pc + 1).toNat).isSome = true → y.pc = x.pc + 1)

theorem closeStep_ends {s : State} (h : s.memErr = []) (u : UnitId) (t : Step) (x : BankUnit) (hrun : (s.unit u).inRun = true)
    (hprogram : (s.unit u).program = x.program) (hpc : (s.unit u).pc = x.pc) : x.StepEnded ((s.closeStep u t).unit u) t := by
  obtain ⟨-, -, hin, hnext⟩ := closeStep_spec h u t
  refine ⟨by rw [hin, hrun, Bool.true_and], fun hend hsome => ?_⟩
  rw [hnext hend, hprogram, hpc, nextPc, if_pos hsome]

section

variable {s : State} {u : UnitId} {pair : Nat} {t : Step}

theorem copyStep_sends (h : stepStarts s u pair t) (hkind : t.kind = .copy) :
    ∃ v fs, exec (.copyStep u t) s = .next v ∧ OnlyStacks s v ∧ (v.unit u).outQ = (s.unit u).outQ ++ fs
      ∧ CopyFlits s.mem u pair t t.count fs ∧ (s.unit u).StepEnded (v.unit u) t := by
  obtain ⟨w, hstart⟩ := startStep_starts h
  obtain ⟨-, -, -, -, herr, -⟩ := h
  obtain ⟨hframe, n, hunit⟩ := enterStep_unit s u pair w t
  have hexec : exec (.copyStep u t) s = .next (s.startStep u t) := if_neg (not_not.mpr hkind)
  rw [hstart, State.streamStep, hkind] at hexec
  simp only [copyColumns_eq] at hexec
  obtain ⟨hfold, fs, ⟨q, e, hsent⟩, hfs⟩ := copyFold_spec (hframe.memErr_eq.trans herr) u pair t t.count
  rw [hunit] at hsent
  rw [hframe.mem_eq] at hfs
  generalize (List.range t.count).foldl (fun s k => s.copyColumn u pair t k) (s.enterStep u pair w t) = v at hexec hfold hsent
  have hv : OnlyStacks s v := hframe.trans hfold
  have hverr := hv.memErr_eq.trans herr
  obtain ⟨hclose, hout, -⟩ := closeStep_spec hverr u t
  exact ⟨_, fs, hexec, hv.trans hclose, by rw [hout, hsent]; rfl, hfs,
    closeStep_ends hverr u t _ (by rw [hsent]; rfl) (by rw [hsent]; rfl) (by rw [hsent]; rfl)⟩

end

/-! ### A `WRITE` step that one fill of the register file serves (R205) -/

/-- Memory with a run of bytes given anew. -/
def Patched (m m' : Tbl Byte) (base n : Nat) (f : Nat → Byte) : Prop :=
  ∀ a, m'.get 0 a = if base ≤ a ∧ a < base + n then f (a - base) else m.get 0 a

namespace Patched

theorem zero (m : Tbl Byte) (base : Nat) (f : Nat → Byte) : Patched m m base 0 f := fun a => by
  rw [if_neg (by omega)]

theorem append {m m1 m2 : Tbl Byte} {base n k : Nat} {f : Nat → Byte} (h : Patched m m1 base n f)
    (g : Patched m1 m2 (base + n) k (fun i => f (n + i))) : Patched m m2 base (n + k) f := fun a => by
  rw [g a, h a]
  by_cases h1 : base + n ≤ a ∧ a < base + n + k
  · rw [if_pos h1, if_pos (by omega)]
    exact congrArg f (by omega)
  · rw [if_neg h1]
    by_cases h2 : base ≤ a ∧ a < base + n
    · rw [if_pos h2, if_pos (by omega)]
    · rw [if_neg h2, if_neg (by omega)]

theorem of_setMany (m : Tbl Byte) (k : Nat) (bs : List Byte) : Patched m (m.setMany 0 k bs) k bs.length (fun i => bs.getD i 0) := fun a => by
  rw [Tbl.get_setMany]
  by_cases h : k ≤ a ∧ a < k + bs.length
  · rw [dif_pos h, if_pos h]
    exact (List.getD_eq_getElem bs 0 (by omega)).symm
  · rw [dif_neg h, if_neg h]

theorem congr {m m' : Tbl Byte} {base n : Nat} {f g : Nat → Byte} (h : Patched m m' base n f) (hfg : ∀ i < n, f i = g i) :
    Patched m m' base n g := fun a => by
  rw [h a]
  split
  · exact hfg _ (by omega)
  · rfl

theorem getMany_eq {m m' : Tbl Byte} {base n : Nat} {f : Nat → Byte} (h : Patched m m' base n f) (k : Nat) (bs : List Byte)
    (hk : k + bs.length ≤ n) (hbs : ∀ i < bs.length, f (k + i) = bs.getD i 0) : m'.getMany 0 (base + k) bs.length = bs := by
  refine List.ext_getElem? fun i => ?_
  by_cases hi : i < bs.length
  · have hpos : base ≤ base + k + i ∧ base + k + i < base + n := by omega
    rw [Tbl.getMany_get _ _ _ _ _ hi, h, if_pos hpos, show base + k + i - base = k + i by omega, hbs i hi,
      List.getD_eq_getElem _ _ hi, List.getElem?_eq_getElem hi]
  · rw [List.getElem?_eq_none (by simpa using hi), List.getElem?_eq_none (by simpa using hi)]

end Patched

theorem flipUnit_unarmed {s : State} (h : s.hk.flips = []) (u : UnitId) (wd w : Nat) : s.flipUnit u wd w = s := by
  simp only [State.flipUnit, fire_unarmed s _ h, if_true]

/-- One word of a column that is written whole. -/
def State.wholeWord (s : State) (k : Nat) (new : List Byte) (j : Nat) : State :=
  { s with mem := s.mem.setMany 0 (k + 4 * j) [new.getD (4 * j) 0, new.getD (4 * j + 1) 0, new.getD (4 * j + 2) 0, new.getD (4 * j + 3) 0] }

theorem wholeWord_patched (s : State) (k : Nat) (new : List Byte) (j : Nat) :
    Patched s.mem (s.wholeWord k new j).mem (k + 4 * j) 4 (fun i => new.getD (4 * j + i) 0) :=
  (Patched.of_setMany s.mem (k + 4 * j) _).congr fun i hi => by
    rw [List.length_cons, List.length_cons, List.length_cons, List.length_cons, List.length_nil] at hi
    interval_cases i <;> rfl

theorem wholeWords_patched (s : State) (k : Nat) (new : List Byte) (n : Nat) :
    OnlyBytes s ((List.range n).foldl (fun s j => s.wholeWord k new j) s)
      ∧ Patched s.mem ((List.range n).foldl (fun s j => s.wholeWord k new j) s).mem k (4 * n) (fun i => new.getD i 0) := by
  induction n with
  | zero => exact ⟨rfl, Patched.zero s.mem k _⟩
  | succ n ih =>
    rw [List.range_succ, List.foldl_append]
    exact ⟨ih.1, ih.2.append (wholeWord_patched _ k new n)⟩

theorem OnlyBytes.memErr_eq {s t : State} (h : OnlyBytes s t) : t.memErr = s.memErr := by rw [h.rest]
theorem OnlyBytes.hk_eq {s t : State} (h : OnlyBytes s t) : t.hk = s.hk := by rw [h.rest]

/-- One word of a column that a `WRITE` step writes under its byte mask. -/
def State.columnWord (s : State) (u : UnitId) (mask : BitVec 32) (w0 : Nat) (new : List Byte) (old : Column) (j : Nat) : State :=
  let byte (i : Nat) : Byte := if mask.getLsbD (4 * j + i) then new.getD (4 * j + i) 0 else old.bytes.getD (4 * j + i) 0
  let bad := old.bad.getD j false && !((List.range 4).all (fun i => mask.getLsbD (4 * j + i)))
  State.flipUnit { s with
    mem := s.mem.setMany 0 (4 * (w0 + j)) [byte 0, byte 1, byte 2, byte 3]
    memErr := s.memErr.set 0 (w0 + j) (if bad then poisonPattern else 0) } u j (w0 + j)

theorem columnWord_whole {s : State} (herr : s.memErr = []) (hflips : s.hk.flips = []) (u : UnitId) (mask : BitVec 32) (w0 : Nat)
    (new : List Byte) (j : Nat) (hj : j < 8) :
    s.columnWord u mask w0 new ⟨new, List.replicate 8 false, []⟩ j = s.wholeWord (4 * w0) new j := by
  have hgood : (List.replicate 8 false).getD j false = false := List.getD_replicate _ hj
  have hclean : s.memErr.set 0 (w0 + j) 0 = s.memErr := by
    rw [herr]
    rfl
  unfold State.columnWord
  rw [flipUnit_unarmed (by exact hflips), hgood]
  simp only [State.wholeWord, Nat.mul_add, Nat.add_zero, Bool.false_and, Bool.false_eq_true, if_false, ite_self, hclean]

/-- A column that is written whole takes the new bytes. -/
theorem writeColumn_whole {s : State} (herr : s.memErr = []) (hflips : s.hk.flips = []) (u : UnitId) (pair : Nat) (t : Step) (k : Nat)
    (new : List Byte) (hmask : t.bytes.getD k 0 = 0xFFFFFFFF#32) :
    OnlyBytes s (s.writeColumn u pair t k new)
      ∧ Patched s.mem (s.writeColumn u pair t k new).mem (stepColumn u pair t k) 32 (fun i => new.getD i 0) := by
  have hwords (n : Nat) (hn : n ≤ 8) : (List.range n).foldl (fun s j => s.columnWord u 0xFFFFFFFF#32
      (colWord u pair t.bank.val t.row.toNat (t.first.toNat + k)) new ⟨new, List.replicate 8 false, []⟩ j) s
        = (List.range n).foldl (fun s j => s.wholeWord (stepColumn u pair t k) new j) s := by
    induction n with
    | zero => rfl
    | succ n ih =>
      have hsame := (wholeWords_patched s (stepColumn u pair t k) new n).1
      rw [List.range_succ, List.foldl_append, List.foldl_append, ih (by omega), List.foldl_cons, List.foldl_nil, List.foldl_cons,
        List.foldl_nil, columnWord_whole (hsame.memErr_eq.trans herr) (by rw [hsame.hk_eq]; exact hflips) u _ _ new n (by omega), colWord_key]
      rfl
  have heq : s.writeColumn u pair t k new = (List.range 8).foldl (fun s j => s.columnWord u 0xFFFFFFFF#32
      (colWord u pair t.bank.val t.row.toNat (t.first.toNat + k)) new ⟨new, List.replicate 8 false, []⟩ j) s := by
    unfold State.writeColumn
    rw [hmask]
    rfl
  rw [heq, hwords 8 le_rfl]
  exact wholeWords_patched s _ new 8

/-- The bytes of a run of columns as the register file gives them. -/
def BankUnit.fillByte (x : BankUnit) (i : Nat) : Byte := (x.fileBytes (i / 32)).getD (i % 32) 0

theorem stepColumn_eq (u : UnitId) (pair : Nat) (t : Step) (k : Nat) : stepColumn u pair t k = stepColumn u pair t 0 + 32 * k := by
  unfold stepColumn physKey
  omega

/-- Whole columns are written one behind the other. -/
theorem writeColumns_whole {s : State} (herr : s.memErr = []) (hflips : s.hk.flips = []) (u : UnitId) (pair : Nat) (t : Step)
    (x : BankUnit) (n : Nat) (hmask : ∀ k < n, t.bytes.getD k 0 = 0xFFFFFFFF#32) :
    OnlyBytes s ((List.range n).foldl (fun s k => s.writeColumn u pair t (0 + k) (x.fileBytes k)) s)
      ∧ Patched s.mem ((List.range n).foldl (fun s k => s.writeColumn u pair t (0 + k) (x.fileBytes k)) s).mem (stepColumn u pair t 0)
        (32 * n) x.fillByte := by
  induction n with
  | zero => exact ⟨rfl, Patched.zero s.mem _ _⟩
  | succ n ih =>
    obtain ⟨hframe, hpatch⟩ := ih fun k hk => hmask k (by omega)
    rw [List.range_succ, List.foldl_append, List.foldl_cons, List.foldl_nil, Nat.zero_add]
    obtain ⟨hnext, hcolumn⟩ := writeColumn_whole (hframe.memErr_eq.trans herr) (by rw [hframe.hk_eq]; exact hflips) u pair t n
      (x.fileBytes n) (hmask n (by omega))
    refine ⟨hframe.trans hnext, hpatch.append ?_⟩
    rw [← stepColumn_eq]
    refine hcolumn.congr fun i hi => ?_
    rw [BankUnit.fillByte, show (32 * n + i) / 32 = n by omega, show (32 * n + i) % 32 = i by omega]

section

variable {s : State} {u : UnitId} {pair : Nat} {t : Step}

/-- One fill of the register file serves the step: it writes its columns and ends. -/
theorem writeStep_writes (h : stepStarts s u pair t) (hkind : t.kind = .write) (hcount : t.count ≤ 16) (hcost : writeCost t ≤ 64)
    (hmask : ∀ k < t.count, t.bytes.getD k 0 = 0xFFFFFFFF#32) :
    ∃ v, exec (.writeStep u t) s = .next v ∧ (s.unit u).StepEnded (v.unit u) t
      ∧ Patched s.mem v.mem (stepColumn u pair t 0) (32 * t.count) (s.unit u).fillByte := by
  obtain ⟨w, hstart⟩ := startStep_starts h
  obtain ⟨-, -, -, -, herr, hflips⟩ := h
  obtain ⟨hframe, n, hunit⟩ := enterStep_unit s u pair w t
  have hexec : exec (.writeStep u t) s = .next (s.startStep u t) := if_neg (by simp [hkind, hcost])
  rw [hstart, State.streamStep, hkind] at hexec
  generalize s.enterStep u pair w t = a at hexec hframe hunit
  have hflips' : a.hk.flips = [] := by rw [hframe.rest]; exact hflips
  obtain ⟨hbytes, hpatch⟩ := writeColumns_whole (hframe.memErr_eq.trans herr) hflips' u pair t (a.unit u) t.count hmask
  have hfill : (a.writeFill u pair t 0).afterFill u t fileColumns
      = ((List.range t.count).foldl (fun s k => s.writeColumn u pair t (0 + k) ((a.unit u).fileBytes k)) a).closeStep u t := by
    rw [State.writeFill, State.afterFill, if_pos (show t.count ≤ fileColumns from hcount), Nat.sub_zero,
      show min fileColumns t.count = t.count from min_eq_right hcount]
  simp only [hfill] at hexec
  generalize (List.range t.count).foldl _ a = b at hexec hbytes hpatch
  have hberr : b.memErr = [] := hbytes.memErr_eq.trans (hframe.memErr_eq.trans herr)
  have hbunit : b.unit u = { (s.unit u).openStep t with waveStep := n } := by
    rw [← hunit, hbytes.rest]
    rfl
  obtain ⟨hclose, -⟩ := closeStep_spec hberr u t
  refine ⟨_, hexec, closeStep_ends hberr u t _ (by rw [hbunit]; rfl) (by rw [hbunit]; rfl) (by rw [hbunit]; rfl), ?_⟩
  rw [hclose.mem_eq, ← hframe.mem_eq]
  rw [hunit] at hpatch
  exact hpatch

end

theorem fileBytes_length (x : BankUnit) (n : Nat) : (x.fileBytes n).length = 32 := length_leBytes 32 _

/-- Each column of the step holds what the register file gave it. -/
theorem patched_column {m m' : Tbl Byte} {u : UnitId} {pair : Nat} {t : Step} {x : BankUnit} {n : Nat}
    (h : Patched m m' (stepColumn u pair t 0) (32 * n) x.fillByte) (k : Nat) (hk : k < n) :
    m'.getMany 0 (stepColumn u pair t k) 32 = x.fileBytes k := by
  have hlen := fileBytes_length x k
  have hcolumn := h.getMany_eq (32 * k) (x.fileBytes k) (by omega) fun i hi => by
    rw [BankUnit.fillByte, show (32 * k + i) / 32 = k by omega, show (32 * k + i) % 32 = i by omega]
  rwa [hlen, ← stepColumn_eq] at hcolumn

end Sys2Proof.Machine

namespace Sys2Proof.Machine

/-! ### Beats (R204, R208, R211, R216) -/

/-- No unit of a die has a step open ahead. -/
def NoneAhead (s : State) (st : Fin 12) (d : Fin 16) : Prop := ∀ m, (s.unit ⟨st, d, m⟩).ahead = none

theorem wavesGoOn_idle {s : State} {st : Fin 12} {d : Fin 16} (h : NoneAhead s st d) : s.wavesGoOn st d = s := by
  refine List.foldl_fixed' (fun w => ?_) _
  have hstay : (w.units.map (fun n => (⟨st, d, n⟩ : UnitId))).foldl (fun s u => s.streamAhead u w) s = s := by
    rw [List.foldl_map]
    exact List.foldl_fixed' (fun n => by rw [State.streamAhead, h n]) _
  simp only [hstay, ite_self]

theorem NoneAhead.updUnit {s : State} {st : Fin 12} {d : Fin 16} (h : NoneAhead s st d) (u : UnitId) (f : BankUnit → BankUnit)
    (hf : ∀ x, (f x).ahead = x.ahead) : NoneAhead (s.updUnit u f) st d := fun m => by
  rw [unit_updUnit_of]
  split
  · next hu => rw [hf, ← hu, h m]
  · exact h m

/-- An addressed beat reaches its unit and, with no step open ahead, does no more. -/
theorem exec_beat {s : State} {st : Fin 12} {d : Fin 16} {n : Fin 68} {b : Beat} (hdest : b.dest = some n)
    (hface : b.what = 0 → s.facesBeat ⟨st, d, n⟩ = true) (hahead : NoneAhead (s.beatAt ⟨st, d, n⟩ b) st d) :
    exec (.beat st d b) s = .next (s.beatAt ⟨st, d, n⟩ b) := by
  show execBeat st d b s = _
  unfold execBeat
  rw [hdest]
  simp only [List.map_cons, List.map_nil, List.all_cons, List.all_nil, Bool.and_true, List.foldl_cons, List.foldl_nil,
    wavesGoOn_idle hahead]
  exact if_neg (by simpa using hface)

/-- A run of entries set one by one. -/
theorem get_foldl_set {α : Type} [DecidableEq α] (d : α) (t : Tbl α) (base n : Nat) (f : Nat → α) (i : Nat) :
    ((List.range n).foldl (fun p k => p.set d (base + k) (f k)) t).get d i
      = if base ≤ i ∧ i < base + n then f (i - base) else t.get d i := by
  induction n with
  | zero => exact (if_neg (by omega)).symm
  | succ n ih =>
    rw [List.range_succ, List.foldl_append, List.foldl_cons, List.foldl_nil, Tbl.get_set, ih]
    by_cases hlast : i = base + n
    · rw [if_pos hlast, if_pos (by omega), hlast, Nat.add_sub_cancel_left]
    · rw [if_neg hlast]
      by_cases hin : base ≤ i ∧ i < base + n
      · rw [if_pos hin, if_pos (by omega)]
      · rw [if_neg hin, if_neg (by omega)]

/-- The register file with the operands of a beat. -/
def BankUnit.filled (x : BankUnit) (data : BitVec 4096) : Tbl (BitVec 512) :=
  (List.range 8).foldl (fun t l => t.set 0 l (BitVec.ofNat 512 (bits data.toNat (512 * l + 511) (512 * l)))) x.regFile

theorem filled_get (x : BankUnit) (data : BitVec 4096) (l : Nat) (hl : l < 8) : (x.filled data).get 0 l = data.extractLsb' (512 * l) 512 := by
  have hget := get_foldl_set 0 x.regFile 0 8 (fun l => BitVec.ofNat 512 (bits data.toNat (512 * l + 511) (512 * l))) l
  simp only [Nat.zero_add, Nat.zero_le, true_and, Nat.sub_zero, if_pos hl] at hget
  rw [BankUnit.filled, hget]
  exact bits_toNat data _ _ 512 (by omega)

theorem flipFile_unarmed {s : State} (h : s.hk.flips = []) (u : UnitId) :
    s.flipFile u = s.updUnit u (fun x => { x with parBad := x.parBad.clear 0 512 }) := by
  simp only [State.flipFile, fire_unarmed s _ h]
  rfl

/-- With no flip mask armed, operands that no step waits for are kept in the register file. -/
theorem operandBeat_idle {s : State} (u : UnitId) (data : BitVec 4096) (hcur : (s.unit u).cur = none) (hflips : s.hk.flips = []) :
    (NoneAhead s u.s u.d → NoneAhead (s.operandBeat u data) u.s u.d)
      ∧ ((s.operandBeat u data).unit u).regFile = (s.unit u).filled data := by
  unfold State.operandBeat
  extract_lets a b x
  have ha : a.unit u = { s.unit u with regFile := (s.unit u).filled data } := unit_updUnit s u _
  have hahead : NoneAhead s u.s u.d → NoneAhead a u.s u.d := fun h => h.updUnit u _ fun _ => rfl
  have hb : b = a.updUnit u (fun x => { x with parBad := x.parBad.clear 0 512 }) := flipFile_unarmed (s := a) hflips u
  clear_value a b
  have hx : x = { a.unit u with parBad := (a.unit u).parBad.clear 0 512 } := by
    rw [show x = b.unit u from rfl, hb, unit_updUnit]
  have hnone : x.cur = none := by rw [hx, ha, ← hcur]
  simp only [hnone]
  refine ⟨fun h => hb ▸ (hahead h).updUnit u _ fun _ => rfl, ?_⟩
  rw [show b.unit u = x from rfl, hx, ha]

/-! ### A program reaches a unit (R204, R216) -/

/-- Units keep all but their places in their waves and in the order of their slots. -/
def UnitsKept (s t : State) : Prop := ∀ v, ∃ n k, t.unit v = { s.unit v with waveStep := n, waited := k }

namespace UnitsKept

theorem refl (s : State) : UnitsKept s s := fun v => ⟨(s.unit v).waveStep, (s.unit v).waited, rfl⟩

theorem trans {s t v : State} (h : UnitsKept s t) (g : UnitsKept t v) : UnitsKept s v := fun x => by
  obtain ⟨n, k, hx⟩ := h x
  obtain ⟨n', k', hx'⟩ := g x
  exact ⟨n', k', by rw [hx', hx]⟩

theorem of_updStack (s : State) (k : Fin 12) (f : Stack → Stack) (h : ∀ x : Stack, (f x).units = x.units) :
    UnitsKept s (s.updStack k f) := fun v => ⟨(s.unit v).waveStep, (s.unit v).waited, unit_updStack s k f h v⟩

theorem of_updUnit (s : State) (u : UnitId) (f : BankUnit → BankUnit)
    (hf : ∀ x, ∃ n k, f x = { x with waveStep := n, waited := k }) : UnitsKept s (s.updUnit u f) := fun v => by
  rw [unit_updUnit_of]
  split
  · next hv =>
    rw [hv]
    exact hf _
  · exact refl s v

end UnitsKept

theorem joinWave_kept {s t : State} {u : UnitId} {ws : List (Fin 68)} {writes : Bool} (h : s.joinWave u ws writes = some t) :
    UnitsKept s t := by
  unfold State.joinWave at h
  extract_lets k live mine a us b at h
  have ha : UnitsKept s a := .of_updStack s u.s _ fun _ => rfl
  have hb : UnitsKept a b := .of_updStack a u.s _ fun _ => rfl
  clear_value a b
  split at h
  · split at h
    · exact Option.some.inj h ▸ ha
    · cases h
  · split at h
    · cases h
    · refine Option.some.inj h ▸ (ha.trans hb).trans ?_
      exact foldl_keeps UnitsKept .refl (fun _ _ _ => .trans) _
        (fun s n => .of_updUnit s _ _ fun x => ⟨0, x.waited, rfl⟩) us b

theorem queueForSlot_kept (s : State) (u : UnitId) : UnitsKept s (s.queueForSlot u) :=
  (UnitsKept.of_updStack s u.s (fun k => { k with turnNo := (s.stack u.s).turnNo + 1 }) fun _ => rfl).trans
    (.of_updUnit _ u _ fun x => ⟨x.waveStep, _, rfl⟩)

/-- A program beat that its wave takes reaches its unit, and changes of the other units at most their waiting. -/
theorem programTo_joins {s : State} {u : UnitId} {b : Beat} (h : joins s u b) :
    ∃ t, s.programTo u b = t.updUnit u (fun x => x.programBeat b.half b.program) ∧ UnitsKept s t := by
  obtain ⟨a, ha⟩ := Option.isSome_iff_exists.mp h
  refine ⟨_, by rw [State.programTo, ha], (joinWave_kept ha).trans ?_⟩
  split
  · exact .refl a
  · exact queueForSlot_kept a u

theorem loadHalf_program (x : BankUnit) (half : Bool) (l : List Step) (i : Nat) :
    (x.loadHalf half l).program.get none i = if (if half then 32 else 0) ≤ i ∧ i < (if half then 32 else 0) + 32
      then l[i - if half then 32 else 0]? else x.program.get none i :=
  get_foldl_set none x.program _ 32 (fun n => l[n]?) i

theorem programBeat_ahead (x : BankUnit) (half : Bool) (l : List Step) : (x.programBeat half l).ahead = x.ahead := by
  unfold BankUnit.programBeat
  split <;> rfl

section

variable {s : State} {st : Fin 12} {d : Fin 16} {n : Fin 68} {b : Beat}

theorem operands_fill (hdest : b.dest = some n) (hwhat : b.what = 0) (hin : (s.unit ⟨st, d, n⟩).out = false) (hflips : s.hk.flips = [])
    (hahead : NoneAhead s st d) (hcur : (s.unit ⟨st, d, n⟩).cur = none) :
    ∃ t, exec (.beat st d b) s = .next t ∧ ∀ l < 8, (t.unit ⟨st, d, n⟩).regFile.get 0 l = b.data.extractLsb' (512 * l) 512 := by
  have hat : s.beatAt ⟨st, d, n⟩ b = s.operandBeat ⟨st, d, n⟩ b.data := by
    rw [State.beatAt, hin, hwhat]
    rfl
  obtain ⟨hkeep, hfile⟩ := operandBeat_idle ⟨st, d, n⟩ b.data hcur hflips
  have hexec := exec_beat hdest (fun _ => by rw [State.facesBeat, hcur]) (by
    rw [hat]
    exact hkeep hahead)
  refine ⟨_, hexec, fun l hl => ?_⟩
  rw [hat, hfile]
  exact filled_get _ _ l hl

theorem scales_fill (hdest : b.dest = some n) (hwhat : b.what = 1) (hin : (s.unit ⟨st, d, n⟩).out = false) (hahead : NoneAhead s st d) :
    ∃ t, exec (.beat st d b) s = .next t ∧ t.unit ⟨st, d, n⟩
      = { s.unit ⟨st, d, n⟩ with scales := b.data, parBad := (s.unit ⟨st, d, n⟩).parBad.clear 512 1024 } := by
  have hat : s.beatAt ⟨st, d, n⟩ b
      = s.updUnit ⟨st, d, n⟩ (fun x => { x with scales := b.data, parBad := x.parBad.clear 512 1024 }) := by
    rw [State.beatAt, hin, hwhat]
    rfl
  have hexec := exec_beat hdest (fun h => by rw [hwhat] at h; cases h) (by
    rw [hat]
    exact hahead.updUnit _ _ fun _ => rfl)
  exact ⟨_, hexec, by rw [hat, unit_updUnit]⟩

/-- A program beat that its wave takes. -/
theorem program_reaches (hdest : b.dest = some n) (hwhat : b.what = 2) (hin : (s.unit ⟨st, d, n⟩).out = false)
    (hahead : NoneAhead s st d) (hjoins : joins s ⟨st, d, n⟩ b) :
    ∃ t k m, exec (.beat st d b) s = .next t
      ∧ t.unit ⟨st, d, n⟩ = ({ s.unit ⟨st, d, n⟩ with waveStep := k, waited := m } : BankUnit).programBeat b.half b.program := by
  obtain ⟨t, hto, hkept⟩ := programTo_joins hjoins
  have hat : s.beatAt ⟨st, d, n⟩ b = s.programTo ⟨st, d, n⟩ b := by
    rw [State.beatAt, hin, hwhat]
    rfl
  rw [hto] at hat
  have hexec := exec_beat hdest (fun h => by rw [hwhat] at h; cases h) (by
    rw [hat]
    refine NoneAhead.updUnit (fun m => ?_) _ _ fun x => programBeat_ahead x _ _
    obtain ⟨k, w, hm⟩ := hkept ⟨st, d, m⟩
    rw [hm]
    exact hahead m)
  obtain ⟨k, m, hu⟩ := hkept ⟨st, d, n⟩
  exact ⟨_, k, m, hexec, by rw [hat, unit_updUnit, hu]⟩

end

/-! ### Flits (R209, R235, R240) -/

theorem exec_flit {s : State} {st : Fin 12} {d : Fin 16} {f : Flit} {rest : List Flit} (h : (s.unit ⟨st, d, f.unit⟩).outQ = f :: rest) :
    exec (.flit st d f) s = .next (s.flitArrives ⟨st, d, f.unit⟩ f rest) := by
  show execFlit st d f s = _
  unfold execFlit
  simp only [h, if_true]

/-- The ledger entry that a report of a corrected word asks for (R235). -/
def reportEntry (r : Nat) : LedgerEntry :=
  ⟨BitVec.ofNat 4 (bits r 4 1), BitVec.ofNat 7 (bits r 11 5), ⟨bits r 12 12 % 2, by omega⟩, BitVec.ofNat 14 (bits r 26 13),
    BitVec.ofNat 6 (bits r 32 27), BitVec.ofNat 3 (bits r 35 33), 0⟩

theorem takeReport_corrected (s : State) (st : Fin 12) (r : Nat) (h : bits r 127 124 = 1) :
    s.takeReport st r = s.updStack st (fun k => k.log (reportEntry r)) := by
  rw [State.takeReport, h]
  rfl

theorem log_empty {k : Stack} (h : k.ledger = []) (e : LedgerEntry) : (k.log e).ledger = [(0, some { e with count := 1 })] := by
  simp only [Stack.log, h, List.find?_nil]
  rfl

theorem ledger_updUnit (s : State) (u : UnitId) (f : BankUnit → BankUnit) : ((s.updUnit u f).stack u.s).ledger = (s.stack u.s).ledger := by
  rw [State.updUnit_eq, State.setUnit_eq, State.stack_setStack, if_pos rfl]
  rfl

theorem toNat_ofNat_bits (w n hi lo : Nat) (h : w = hi + 1 - lo) : (BitVec.ofNat w (bits n hi lo)).toNat = bits n hi lo := by
  subst h
  rw [BitVec.toNat_ofNat, Nat.mod_eq_of_lt (bits_lt n hi lo)]

section

variable {s : State} {u : UnitId} {f : Flit} {rest : List Flit}

theorem flitArrives_data (hkind : f.kind ≠ 3) :
    OnlyStacks s (s.flitArrives u f rest) ∧ ((s.flitArrives u f rest).unit u).outQ = rest := by
  rw [State.flitArrives, if_pos hkind, unit_updUnit]
  exact ⟨updUnit_onlyStacks s u _, rfl⟩

/-- A report of a run that has not ended waits for its end. -/
theorem flitArrives_ofRun (hkind : f.kind = 3) (hrun : (s.unit u).outQ.length ≤ (s.unit u).emitted) :
    ((s.flitArrives u f rest).unit u).outQ = rest
      ∧ ((s.flitArrives u f rest).unit u).reports = (s.unit u).reports ++ [f.payload.toNat]
      ∧ ((s.flitArrives u f rest).stack u.s).ledger = (s.stack u.s).ledger := by
  rw [State.flitArrives, if_neg (not_not.mpr hkind), if_pos (decide_eq_true hrun), unit_updUnit, unit_updUnit, ledger_updUnit, ledger_updUnit]
  exact ⟨rfl, rfl, rfl⟩

/-- A report of a corrected word that comes after its run enters the ledger. -/
theorem flitArrives_logged (hkind : f.kind = 3) (hrun : (s.unit u).emitted < (s.unit u).outQ.length)
    (hcorrected : bits f.payload.toNat 127 124 = 1) (hledger : (s.stack u.s).ledger = []) :
    ((s.flitArrives u f rest).unit u).outQ = rest
      ∧ ((s.flitArrives u f rest).stack u.s).ledger = [(0, some { reportEntry f.payload.toNat with count := 1 })] := by
  rw [State.flitArrives, if_neg (not_not.mpr hkind), if_neg (by simpa using hrun), takeReport_corrected _ _ _ hcorrected,
    unit_updStack _ _ _ (fun k => log_units k _), unit_updUnit, State.updStack_eq, State.stack_setStack, if_pos rfl]
  exact ⟨rfl, log_empty ((ledger_updUnit s u _).trans hledger) _⟩

end

end Sys2Proof.Machine

section
open Sys2Proof Sys2Proof.Machine

/-- Settles O52: a step that starts enters its wave and streams, and without errors in memory a column is read as it is stored; a beat
changes its unit alone but for the places in waves and slots; a flit leaves the queue, and an empty ledger takes a report at its first
entry. -/
theorem bankUnits : Obligations.BankUnits := by
  unfold Obligations.BankUnits
  refine ⟨fun s u pair st h => ⟨fun hkind houter => ?_, fun hkind => ?_, fun hkind hcount hcost hmask => ?_⟩, fun s st d n =>
    ⟨fun b hdest hin hflips hahead => ⟨fun hwhat hcur => ?_, fun hwhat => ?_, fun hwhat hjoins hrun => ?_, fun hwhat hjoins hrun => ?_⟩,
      fun f rest hn hout => ⟨fun hkind => ?_, fun hkind hrun => ?_, fun hkind hrun hcorrected hledger => ?_⟩⟩⟩
  · obtain ⟨t, hexec, hframe, hunit⟩ := readStep_opens h hkind houter
    exact ⟨t, hexec, hunit, hframe⟩
  · obtain ⟨t, fs, hexec, hframe, hout, ⟨hlen, hfs⟩, hin, hpc⟩ := copyStep_sends h hkind
    exact ⟨t, fs, hexec, hout, hlen, hfs, hin, hpc, hframe⟩
  · obtain ⟨t, hexec, ⟨hin, hpc⟩, hpatch⟩ := writeStep_writes h hkind hcount hcost hmask
    exact ⟨t, hexec, hin, hpc, patched_column hpatch, fun a ha => (hpatch a).trans (if_neg (by omega))⟩
  · exact operands_fill hdest hwhat hin hflips hahead hcur
  · exact scales_fill hdest hwhat hin hahead
  · obtain ⟨t, k, m, hexec, hunit⟩ := program_reaches hdest hwhat hin hahead hjoins
    have hload : t.unit ⟨st, d, n⟩ = ({ s.unit ⟨st, d, n⟩ with waveStep := k, waited := m } : BankUnit).loadHalf b.half b.program :=
      hunit.trans (if_neg (by simp [hrun]))
    refine ⟨t, hexec, fun i hi => ?_, fun i hi => ?_⟩
    · rw [hload, loadHalf_program, if_pos (by omega), Nat.add_sub_cancel_left]
    · rw [hload, loadHalf_program, if_neg (by split <;> omega)]
  · obtain ⟨t, k, m, hexec, hunit⟩ := program_reaches hdest hwhat hin hahead hjoins
    rw [BankUnit.programBeat, if_pos hrun] at hunit
    exact ⟨t, hexec, by rw [hunit], by rw [hunit], by rw [hunit]; exact hrun⟩
  · subst hn
    obtain ⟨hframe, hrest⟩ := flitArrives_data (s := s) (u := ⟨st, d, f.unit⟩) (rest := rest) hkind
    exact ⟨_, exec_flit hout, hrest, hframe⟩
  · subst hn
    exact ⟨_, exec_flit hout, flitArrives_ofRun (u := ⟨st, d, f.unit⟩) hkind hrun⟩
  · subst hn
    obtain ⟨hrest, hlogged⟩ := flitArrives_logged (u := ⟨st, d, f.unit⟩) (rest := rest) hkind hrun (by
      rw [bits, hcorrected]
      rfl) hledger
    refine ⟨_, _, exec_flit hout, hrest, hlogged, toNat_ofNat_bits 4 _ 4 1 rfl, toNat_ofNat_bits 7 _ 11 5 rfl, ?_,
      toNat_ofNat_bits 14 _ 26 13 rfl, toNat_ofNat_bits 6 _ 32 27 rfl, toNat_ofNat_bits 3 _ 35 33 rfl, rfl⟩
    exact Nat.mod_eq_of_lt (bits_lt _ 12 12)

end

namespace Sys2Proof.Machine

/-! ## Packets of the library, lists and peers are taken and placed (R198, R343, R344, R379) -/

/-! ### What a verdict that starts a packet says -/

/-- A property of a verdict's state, packet and what it then does, where it starts the packet. -/
def Verdict.Goes (P : State → Pkt → (State → State) → Prop) : Verdict → Prop
  | .go s j f => P s j f
  | _ => True

section

variable {P : State → Pkt → (State → State) → Prop}

theorem go_goes {s : State} {j : Pkt} {f : State → State} (h : P s j f) : (Verdict.go s j f).Goes P := h

theorem ite_goes {c : Prop} [Decidable c] {v v' : Verdict} (h : v.Goes P) (h' : v'.Goes P) : (if c then v else v').Goes P := by
  split
  · exact h
  · exact h'

theorem passing_goes {cs : List (Nat × Bool)} {v : Verdict} (h : (∀ c ∈ cs, c.2 = false) → v.Goes P) : (passing cs v).Goes P := by
  unfold passing
  split
  · trivial
  · next hnone => exact h ((firstBad_eq_none cs).1 hnone)

theorem passUnless_goes {bad : Bool} {st : Status} {v : Verdict} (h : v.Goes P) : (passUnless bad st v).Goes P := by
  unfold passUnless
  split
  · trivial
  · exact h

theorem withSeq_goes {s : State} {j : Pkt} {n : Nat} {cs : List (Nat × Bool)} {f : SeqDesc → Verdict} (h : (f (s.seqd n)).Goes P) :
    (s.withSeq j n cs f).Goes P :=
  passing_goes fun _ => passUnless_goes (passUnless_goes h)

theorem OnlyTraffic.wqs_eq {s t : State} (h : OnlyTraffic s t) : t.wqs = s.wqs := by rw [← h.rest]

theorem placesOf_length (ts : List Xlat) : (placesOf ts).length = ts.length := List.length_map _

/-- A packet's read of its arguments leaves the work queues, and gives as many bytes as it asks for. -/
theorem withArg_goes {s : State} {j : Pkt} {cs : List (Nat × Bool)} {field a n : Nat} {f : State → List Byte → Verdict}
    (h : ∀ v bs, v.wqs = s.wqs → bs.length = n → (f v bs).Goes P) : (s.withArg j cs field a n f).Goes P := by
  unfold State.withArg
  split
  · exact passing_goes fun _ => trivial
  · split
    · exact passing_goes fun _ => trivial
    · next ts hts =>
      split
      · trivial
      · dsimp only [State.poisonIn]
        split
        · exact passing_goes fun _ => trivial
        · refine h _ _ ((fetched_onlyTraffic _ _ _ ts).wqs_eq.trans (touch_onlyMemory s _).wqs_eq) ?_
          rw [State.bytesAt, List.length_map, placesOf_length, translateAll_length hts, addrRun, List.length_map, List.length_range]

theorem withDesc_goes {s : State} {j : Pkt} {cs : List (Nat × Bool)} {field a : Nat} {f : State → List Byte → Verdict}
    (h : ∀ v bs, v.wqs = s.wqs → (f v bs).Goes P) : (s.withDesc j cs field a f).Goes P := by
  refine withArg_goes fun v l hv _ => ?_
  split
  · exact withArg_goes fun x bs hx _ => h x bs (hx.trans hv)
  · exact h v _ hv

end

/-! ### What a packet that starts keeps -/

/-- What `packetAt` says of a packet. -/
def Pkt.head (j : Pkt) : (PktKind × Packet) × (Nat × Word × Nat × Nat) × (Fin 4 × Fin 16) × (Bool × Bool) :=
  ((j.kind, j.pkt), (j.q, j.i, j.lane, j.laneIdx), (j.part, j.ctx), (j.started, j.done))

theorem packetAt_of_head {q : Fin 256} {w : WorkQ} {e : Seat} {kd : PktKind} {k : Packet} {j : Pkt}
    (h : j.head = (newPkt q w e kd k).head) : packetAt q w e kd k j := by
  simp only [Pkt.head, Prod.mk.injEq] at h
  obtain ⟨⟨hkind, hpkt⟩, ⟨hq, hi, hlane, hidx⟩, ⟨hpart, hctx⟩, hstarted, hdone⟩ := h
  exact ⟨hkind, hpkt, hq, hi, hlane, hidx, hpart, hctx, hstarted, hdone⟩

/-- The work queues stay, and of every packet but a serve for a peer one stays that looks the same. -/
def Carries {α : Type} (g : Pkt → α) (s t : State) : Prop :=
  t.wqs = s.wqs ∧ ∀ j ∈ s.pkts, j.lane ≠ 4 → ∃ i ∈ t.pkts, g i = g j

/-- A packet starts: the queues are as they were, it is the packet that was read, and what it then does carries it on. -/
def Begins {α : Type} (g : Pkt → α) (s : State) (j0 : Pkt) (good : Pkt → Prop) (v : State) (j : Pkt) (f : State → State) : Prop :=
  v.wqs = s.wqs ∧ j.head = j0.head ∧ good j ∧ ∀ u, Carries g u (f u)

theorem carries_id (u : State) : Carries id u (id u) := ⟨rfl, fun j hj _ => ⟨j, hj, rfl⟩⟩

theorem Carries.of_eq {α : Type} {g : Pkt → α} {s t : State} (hwqs : t.wqs = s.wqs) (hpkts : t.pkts = s.pkts) : Carries g s t :=
  ⟨hwqs, fun j hj _ => ⟨j, hpkts ▸ hj, rfl⟩⟩

theorem OnlyCoresClusters.carries {α : Type} {g : Pkt → α} {s t : State} (h : OnlyCoresClusters s t) : Carries g s t := by
  unfold OnlyCoresClusters at h
  exact .of_eq (by rw [← h]) (by rw [← h])

/-- The sequencer takes from a queue or from a lane of a `STEP`. -/
theorem seat_lane {s : State} {q : Fin 256} {w : WorkQ} {kd : PktKind} {k : Packet} {e : Seat} (h : s.seat q w kd k = some e) : e.lane < 3 := by
  unfold State.seat at h
  split at h
  · cases h
  · split at h
    · next e' hlane =>
      cases h
      obtain ⟨j, -, hj⟩ := List.exists_of_findSome?_eq_some hlane
      unfold State.laneSeat at hj
      split at hj
      · obtain ⟨l, hl, rfl⟩ := Option.map_eq_some_iff.1 hj
        have hmem := List.mem_of_find?_eq_some hl
        simp only [List.mem_cons, List.not_mem_nil, or_false] at hmem
        show l < 3
        omega
      · cases hj
    · dsimp only at h
      split at h
      · cases h
      · split at h
        · cases h
        · cases h
          exact Nat.zero_lt_succ 2

theorem takes_lane {s : State} {q : Fin 256} {w : WorkQ} {e : Seat} {kd : PktKind} {k : Packet} (h : takes s q w e kd k) : e.lane < 3 := by
  obtain ⟨-, -, hseat, -⟩ := h
  exact seat_lane hseat

theorem takes_checks {s : State} {q : Fin 256} {w : WorkQ} {e : Seat} {kd : PktKind} {k : Packet} (h : takes s q w e kd k) :
    ∀ c ∈ workChecks kd k, c.2 = false := by
  obtain ⟨-, -, -, -, -, hchecks⟩ := h
  exact hchecks

/-- A packet that is taken and starts is at its place, and its queue has moved. -/
theorem takeWork_gives {α : Type} {g : Pkt → α} {s : State} {q : Fin 256} {w : WorkQ} {e : Seat} {kd : PktKind} {k : Packet} {i : Instr}
    {good : Pkt → Prop} {body : State → Pkt → List (Nat × Bool) → Verdict} (htakes : takes s q w e kd k)
    (hstarts : starts (body s (newPkt q w e kd k) (workChecks kd k))) (hexec : exec i s = takeWork kd q k body s)
    (hhead : ∀ i j, g i = g j → i.head = j.head) (hgood : ∀ i j, g i = g j → good j → good i)
    (hgoes : (body s (newPkt q w e kd k) (workChecks kd k)).Goes (Begins g s (newPkt q w e kd k) good)) :
    ∃ t j, exec i s = .next t ∧ j ∈ t.pkts ∧ packetAt q w e kd k j ∧ queueMoved s t q w e ∧ good j := by
  obtain ⟨v, j, f, hgo⟩ := hstarts
  rw [hgo] at hgoes
  obtain ⟨hwqs, hj, hplaced, hcarries⟩ := hgoes
  obtain ⟨-, -, hjq, -, hlane, -⟩ := packetAt_of_head hj
  have hqueue (o : Fin 256) : v.queue o = s.queue o := by rw [State.queue, hwqs, State.queue]
  obtain ⟨hpkts, -, -, hmoved, hothers⟩ := enlist_spec ((hqueue q).trans htakes.1) hjq
  obtain ⟨hkept, hfound⟩ := hcarries (v.enlist j)
  have hafter (o : Fin 256) : (f (v.enlist j)).queue o = (v.enlist j).queue o := by rw [State.queue, hkept, State.queue]
  have hseat := takes_lane htakes
  obtain ⟨i, hi, hsame⟩ := hfound j (by rw [hpkts]; simp) (by omega)
  refine ⟨_, i, hexec.trans (takeWork_go htakes hgo), hi, packetAt_of_head ((hhead i j hsame).trans hj), ⟨?_, fun o ho => ?_⟩,
    hgood i j hsame hplaced⟩
  · rw [hafter, hmoved, hlane]
  · rw [hafter, hothers o ho, hqueue]

/-! ### Where a packet is placed (R198, R200, R344) -/

/-- A packet that runs on cores of its partition. -/
def OnCores (j : Pkt) : Prop := j.inStacks = false ∧ j.cores ≠ [] ∧ ∀ c ∈ j.cores, c.p = j.part

/-- A packet that runs in the stacks. -/
def InStacks (j : Pkt) : Prop := j.inStacks = true ∧ j.cmdsLeft = j.plan.length

theorem coresOfPart_part {p : Fin 4} {c : CoreId} (h : c ∈ coresOfPart p) : c.p = p := by
  obtain ⟨cl, hcl, hcore⟩ := List.mem_flatMap.1 h
  obtain ⟨n, -, rfl⟩ := List.mem_map.1 hcl
  obtain ⟨k, -, rfl⟩ := List.mem_map.1 hcore
  rfl

theorem acquireFor_onlyCoresClusters (u : State) (cs : List CoreId) : OnlyCoresClusters u (u.acquireFor cs) :=
  foldl_keeps OnlyCoresClusters (fun _ => rfl) (fun _ _ _ => .trans) (fun s cl => s.updCluster cl Cluster.acquire) (fun _ _ => rfl) _ u

section

variable {s v : State} {j0 j : Pkt} {good : Pkt → Prop} (hv : v.wqs = s.wqs) (hj : j.head = j0.head)

include hv hj

theorem inStack_begins (plan : List Nat) (hgood : ∀ i, InStacks i → good i) : Begins id s j0 good v (j.inStack plan) id :=
  ⟨hv, hj, hgood _ ⟨rfl, rfl⟩, carries_id⟩

theorem onCores_goes {n args : Nat} {outs ins : List (Nat × Nat)} (hn : 1 ≤ n) (hout : j.inStacks = false)
    (hgood : ∀ i, OnCores i → good i) : (v.onCores j n args outs ins).Goes (Begins id s j0 good) := by
  unfold State.onCores State.withCores
  split
  · trivial
  · split
    · trivial
    · next hfree =>
      obtain ⟨hlen, hnodup, hmem⟩ := pickMany_free (ctr := v.freeCtr) (n := n) (by omega) (freeCores_nodup v j.part)
      refine ⟨hv, hj, hgood _ ⟨hout, List.ne_nil_of_length_pos (hn.trans_eq hlen.symm), fun c hc => ?_⟩,
        fun u => (startShares_spec u _ args 0 [] hnodup).1.carries⟩
      exact coresOfPart_part (List.mem_of_mem_filter (hmem c hc))

theorem copyOnEngines_goes (hout : j.inStacks = false) : (v.copyOnEngines j).Goes (Begins id s j0 placed) := by
  unfold State.copyOnEngines
  split
  · trivial
  · next cl hcl =>
    obtain ⟨n, -, rfl⟩ := List.mem_map.1 (List.mem_of_find?_eq_some hcl)
    refine ⟨hv, hj, .inr ⟨hout, by simp, fun c hc => ?_⟩, fun u => (acquireFor_onlyCoresClusters u _).carries⟩
    rw [List.mem_singleton] at hc
    rw [hc]

end

end Sys2Proof.Machine

namespace Sys2Proof.Machine

/-! ### `LINEAR`, `ATTEND`, `ATTEND_BWD`, `APPEND_KV`, `COPY` and `STEP` -/

section

variable (s : State) (q : Fin 256) (w : WorkQ) (e : Seat) (k : Packet)

theorem takeLinear_goes (hcs : ∀ c ∈ workChecks .linear k, c.2 = false) :
    (takeLinear s (newPkt q w e .linear k) (workChecks .linear k)).Goes (Begins id s (newPkt q w e .linear k) placed) := by
  have hcount : 1 ≤ pf k 46 1 := by
    have hbad := hcs (46, decide (pf k 46 1 < 1) || decide (80 < pf k 46 1)) (by simp [workChecks])
    simp only [Bool.or_eq_false_iff, decide_eq_false_iff_not] at hbad
    omega
  unfold takeLinear
  exact withArg_goes fun v l hv _ => passing_goes fun _ => ite_goes (go_goes (inStack_begins hv rfl _ fun i hi => .inl hi))
    (onCores_goes hv rfl hcount rfl fun i hi => .inr hi)

/-- A block that passes its checks asks for at least one core (R252). -/
theorem attBlock_cores {v : State} {j : Pkt} {bwd : Bool} {l : List Byte} (h : ∀ c ∈ v.attBlock j bwd l, c.2 = false) :
    1 ≤ (Att.ofBytes l).cores := by
  have hown : (68, decide ((Att.ofBytes l).cores < 1) || decide (80 < (Att.ofBytes l).cores)) ∈ attChecks bwd l := by
    simp [attChecks]
  have hbad := h _ (List.mem_map_of_mem (List.mem_append_left _ (List.mem_append_left _ hown)))
  simp only [Bool.or_eq_false_iff, decide_eq_false_iff_not] at hbad
  omega

theorem attInStacks_goes {s v : State} {j0 j : Pkt} (hv : v.wqs = s.wqs) (hj : j.head = j0.head) (a : Att) (d : SeqDesc) (l : List Byte) :
    (v.attInStacks j a d l).Goes (Begins id s j0 placed) := by
  unfold State.attInStacks
  extract_lets len
  split
  · trivial
  · split
    · trivial
    · extract_lets pb seen js groups gps
      split
      · trivial
      · exact go_goes <| inStack_begins ((cachePages_onlyTraffic v _ _ _ _).wqs_eq.trans hv) (by exact hj) _ fun i hi => .inl hi

theorem takeAttend_goes (cs : List (Nat × Bool)) :
    (takeAttend s (newPkt q w e .attend k) cs).Goes (Begins id s (newPkt q w e .attend k) placed) := by
  unfold takeAttend
  refine withArg_goes fun v l hv _ => passing_goes fun hcs => ?_
  have hcount := attBlock_cores fun c hc => hcs c (List.mem_append_right _ hc)
  exact ite_goes (onCores_goes hv rfl hcount rfl fun i hi => .inr hi)
    (withSeq_goes (ite_goes (attInStacks_goes hv rfl _ _ l) (onCores_goes hv rfl hcount rfl fun i hi => .inr hi)))

theorem takeAttendBwd_goes (cs : List (Nat × Bool)) :
    (takeAttendBwd s (newPkt q w e .attendBwd k) cs).Goes
      (Begins id s (newPkt q w e .attendBwd k) fun j => placed j ∧ j.inStacks = false) := by
  unfold takeAttendBwd
  refine withArg_goes fun v l hv _ => passing_goes fun hcs => ?_
  have hcount := attBlock_cores fun c hc => hcs c (List.mem_append_right _ hc)
  exact onCores_goes hv rfl hcount rfl fun i hi => ⟨.inr hi, hi.1⟩

theorem takeAppend_goes (cs : List (Nat × Bool)) :
    (takeAppend s (newPkt q w e .appendKv k) cs).Goes
      (Begins id s (newPkt q w e .appendKv k) fun j => placed j ∧ j.inStacks = true) := by
  unfold takeAppend
  refine passing_goes fun _ => ite_goes trivial (withSeq_goes (passUnless_goes (passUnless_goes ?_)))
  split
  · trivial
  · refine go_goes (inStack_begins rfl ?_ _ ?_)
    · rfl
    · exact fun i hi => ⟨.inl hi, hi.1⟩

theorem takeCopy_goes (cs : List (Nat × Bool)) :
    (takeCopy s (newPkt q w e .copy k) cs).Goes (Begins id s (newPkt q w e .copy k) placed) := by
  unfold takeCopy
  extract_lets x
  refine ite_goes ?_ (ite_goes (passing_goes fun _ => trivial) ?_)
  · exact withDesc_goes fun v sl hv => withDesc_goes fun y dl hy => passing_goes fun _ => copyOnEngines_goes (hy.trans hv) rfl rfl
  · exact withArg_goes fun v sl hv _ => withArg_goes fun y idx hy _ => passing_goes fun _ =>
      ite_goes (go_goes (inStack_begins (hy.trans hv) rfl _ fun i hi => .inl hi)) (copyOnEngines_goes (hy.trans hv) rfl rfl)

theorem takeStep_goes (cs : List (Nat × Bool)) :
    (takeStep s (newPkt q w e .step k) cs).Goes
      (Begins id s (newPkt q w e .step k) fun j => j.args.length = 64 * (laneCount k 1 + laneCount k 2)) := by
  unfold takeStep
  extract_lets x all
  refine ite_goes (passing_goes fun _ => trivial) ?_
  refine withArg_goes fun v thick hv hthick => withArg_goes fun y thin hy hthin => passing_goes fun _ =>
    go_goes ⟨hy.trans hv, rfl, ?_, carries_id⟩
  show (thick ++ thin).length = _
  rw [List.length_append, hthick, hthin, Nat.mul_add]
  rfl

end

end Sys2Proof.Machine

namespace Sys2Proof.Machine

/-! ### What a serve or a collective goes through leaves its packet (R274, R337) -/

/-- The work queues and the packets stay. -/
def WorkKept (s t : State) : Prop := t.wqs = s.wqs ∧ t.pkts = s.pkts

namespace WorkKept

theorem refl (s : State) : WorkKept s s := ⟨rfl, rfl⟩

theorem trans {s t u : State} (h : WorkKept s t) (g : WorkKept t u) : WorkKept s u := ⟨g.1.trans h.1, g.2.trans h.2⟩

theorem foldl {α : Type} (f : State → α → State) (hf : ∀ s a, WorkKept s (f s a)) (l : List α) (s : State) : WorkKept s (l.foldl f s) :=
  foldl_keeps WorkKept refl (fun _ _ _ => trans) f hf l s

/-- The same for a state that a fold carries with something else. -/
theorem foldl_fst {α β : Type} (f : State × β → α → State × β) (hf : ∀ r a, WorkKept r.1 (f r a).1) (l : List α) (r : State × β) :
    WorkKept r.1 (l.foldl f r).1 := by
  induction l generalizing r with
  | nil => exact refl r.1
  | cons a l ih => exact (hf r a).trans (ih _)

end WorkKept

theorem OnlyLinkWork.workKept {s t : State} (h : OnlyLinkWork s t) : WorkKept s t := by
  unfold OnlyLinkWork at h
  exact ⟨by rw [← h], by rw [← h]⟩

theorem OnlyTraffic.workKept {s t : State} (h : OnlyTraffic s t) : WorkKept s t := ⟨h.wqs_eq, h.pkts_eq⟩
theorem OnlyMemory.workKept {s t : State} (h : OnlyMemory s t) : WorkKept s t := ⟨h.wqs_eq, h.pkts_eq⟩

theorem raise_workKept (s : State) (ev : Event) : WorkKept s (s.raise ev) :=
  (OnlyCounted.onlyMemory (raise_records s ev).counted).workKept

theorem request_workKept (s : State) (l : Fin 48) (who : Waiter) (m : Msg) : WorkKept s (s.request l who m) :=
  (request_onlyLinkWork s l who m).workKept

theorem markPkt_workKept (s : State) (k : Pkt) (l : Fin 48) : WorkKept s (s.markPkt k l) := ⟨rfl, rfl⟩

theorem drainLinks_workKept (s : State) (p : Fin 4) (who : Waiter) (mine : Nat × Nat → Bool) : WorkKept s (s.drainLinks p who mine) := by
  refine WorkKept.foldl _ (fun s l => ?_) _ s
  dsimp only
  split
  · exact WorkKept.trans (t := s.setLink l _) ⟨rfl, rfl⟩ (sendMsg_sendsOver _ l _).1.rest.workKept
  · exact .refl s

theorem heldUp_workKept {s t : State} {p : Fin 4} {write : Bool} {ts : List Xlat} (h : s.heldUp p write ts = some t) : WorkKept s t := by
  unfold State.heldUp State.heldAt at h
  split at h
  · next b hb =>
    unfold State.bridgeWaits at hb
    split at hb
    · cases hb
    · cases hb
      cases h
      refine WorkKept.foldl _ (fun s q => ?_) _ s
      unfold State.arriveOnce
      split
      · exact .refl s
      · exact ⟨rfl, rfl⟩
  · split at h
    · cases h
      exact .refl s
    · split at h
      · cases h
      · cases h
        exact ⟨rfl, rfl⟩

theorem park_workKept (s : State) (p : Fin 4) (x : Fin 16) (who : Parker) (pl : Place) (a : Nat) (wtag : Word) (evq : Nat) :
    WorkKept s (s.park p x who pl a wtag evq) := by
  unfold State.park
  extract_lets b s1 s2 ev
  split
  · exact ⟨rfl, rfl⟩
  · exact WorkKept.trans (t := s2) ⟨rfl, rfl⟩ (raise_workKept s2 _)

theorem stopEngines_workKept (s : State) (c : CoreId) : WorkKept s (s.stopEngines c) := by
  unfold State.stopEngines
  extract_lets +onlyGivenNames takes releasing kept a mine b d e
  have ha : WorkKept s a := by
    unfold a
    split <;> exact ⟨rfl, rfl⟩
  exact ha.trans (WorkKept.trans (t := b) ⟨rfl, rfl⟩ (WorkKept.trans (t := d) ⟨rfl, rfl⟩ (WorkKept.trans (t := e) ⟨rfl, rfl⟩ ⟨rfl, rfl⟩)))

section

variable {α : Type} {g : Pkt → α}

theorem WorkKept.carries {s t : State} (h : WorkKept s t) : Carries g s t := .of_eq h.1 h.2

theorem updPkts_carries (s : State) (t : Pkt → Bool) {f : Pkt → Pkt} (hf : ∀ x, g (f x) = g x) : Carries g s (s.updPkts t f) := by
  refine ⟨rfl, fun j hj _ => ⟨_, List.mem_map_of_mem hj, ?_⟩⟩
  split
  · exact hf j
  · rfl

variable (hlane : ∀ i j, g i = g j → i.lane = j.lane)

include hlane

theorem Carries.trans {s t u : State} (h : Carries g s t) (h' : Carries g t u) : Carries g s u := by
  refine ⟨h'.1.trans h.1, fun j hj hj4 => ?_⟩
  obtain ⟨i, hi, hij⟩ := h.2 j hj hj4
  obtain ⟨x, hx, hxi⟩ := h'.2 i hi (hlane i j hij ▸ hj4)
  exact ⟨x, hx, hxi.trans hij⟩

end

/-- What `placed` says of a packet in the stacks, with its place. -/
def Pkt.placement (j : Pkt) := (j.head, j.inStacks, j.cmdsLeft, j.plan)

theorem head_lane (i j : Pkt) (h : i.head = j.head) : i.lane = j.lane := by
  simp only [Pkt.head, Prod.mk.injEq] at h
  obtain ⟨-, ⟨-, -, hlane, -⟩, -⟩ := h
  exact hlane

theorem placement_lane (i j : Pkt) (h : i.placement = j.placement) : i.lane = j.lane := head_lane i j (congrArg Prod.fst h)

theorem now_lane {s : State} {k x : Pkt} (h : s.now k = some x) : x.lane = k.lane := by
  have hsame := List.find?_some h
  simp only [Pkt.same, Bool.and_eq_true, decide_eq_true_eq] at hsame
  exact hsame.1.2

/-- The stages of a serve for a queue's packet carry it on (R274). -/
theorem serveNext_carries (n : Nat) (s : State) (k : Pkt) (hk : k.lane ≠ 4) : Carries Pkt.placement s (s.serveNext k n) := by
  induction n generalizing s k with
  | zero => exact (WorkKept.refl s).carries
  | succ n ih =>
    rw [State.serveNext]
    split
    · exact (WorkKept.refl s).carries
    · next x hx =>
      have hx4 : x.lane ≠ 4 := now_lane hx ▸ hk
      have hstage (s : State) (m : Nat) : Carries Pkt.placement s (s.updPkt x fun j => { j with joined := m }) :=
        updPkts_carries s _ fun _ => rfl
      have htrans {a b c : State} := Carries.trans placement_lane (s := a) (t := b) (u := c)
      split
      · exact (WorkKept.refl s).carries
      · split
        · exact (WorkKept.refl s).carries
        · next l hl =>
          dsimp only
          split
          · exact htrans (htrans (drainLinks_workKept s _ _ _).carries (hstage _ 1)) (ih _ x hx4)
          · exact htrans (htrans (hstage s 2) ((markPkt_workKept _ x l).trans (request_workKept _ l _ _)).carries) (ih _ x hx4)
          · rw [if_neg (by simp [hx4])]
            exact htrans (hstage s 3) (ih _ x hx4)
          · exact updPkts_carries s _ fun _ => rfl

/-! ### The stages of a collective (R337) -/

/-- A packet that fails stays, unless it is a serve for a peer, and is the same packet (R360). -/
theorem failPkt_carries (s : State) (k : Pkt) (detail : Word) : Carries Pkt.head s (s.failPkt k detail) := by
  unfold State.failPkt
  extract_lets +onlyGivenNames a b c mine d e same f
  have ha : WorkKept s a := by
    refine WorkKept.foldl _ (fun s c => ?_) _ s
    exact (stopEngines_workKept s c).trans ⟨rfl, rfl⟩
  have hb : WorkKept a b := by
    refine WorkKept.foldl _ (fun s st => ?_) _ a
    exact ⟨rfl, rfl⟩
  have he : WorkKept b e := WorkKept.trans (t := c) ⟨rfl, rfl⟩ (WorkKept.trans (t := d) ⟨rfl, rfl⟩ ⟨rfl, rfl⟩)
  have hf : Carries Pkt.head e f := ⟨rfl, fun j hj hj4 => ⟨j, List.mem_filter.2 ⟨hj, by simp [hj4]⟩, rfl⟩⟩
  clear_value a b e f
  exact Carries.trans head_lane (ha.trans (hb.trans he)).carries (Carries.trans head_lane hf (updPkts_carries f same fun _ => rfl))

theorem faultPkt_carries (s : State) (k : Pkt) (reason addr detail : Nat) : Carries Pkt.head s (s.faultPkt k reason addr detail) :=
  Carries.trans head_lane (raise_workKept s _).carries (failPkt_carries _ k _)

theorem sendShard_workKept (s : State) (k : Pkt) (l : Fin 48) (fmt op : Nat) (coded bad : Bool) (ext data : List Byte) :
    WorkKept s (s.sendShard k l fmt op coded bad ext data) := (markPkt_workKept s k l).trans (request_workKept _ l _ _)

theorem sendTensor_workKept (s : State) (k : Pkt) (l : Fin 48) (n : Nat) : WorkKept s (s.sendTensor k l n) := by
  unfold State.sendTensor
  extract_lets hd d mem
  split
  · exact WorkKept.foldl_fst _ (fun r j => WorkKept.foldl _ (fun s e => sendShard_workKept s ..) _ r.1) _ (s, 0)
  · exact WorkKept.foldl _ (fun s b => sendShard_workKept s ..) _ s

theorem parks_carries (s : State) (t : Pkt → Bool) (p : Fin 4) (x : Fin 16) (who : Parker) (pl : Place) (a : Nat) (wtag : Word)
    (evq : Nat) : Carries Pkt.head s ((s.updPkts t fun j => { j with parked := true }).park p x who pl a wtag evq) := by
  have hparked : Carries Pkt.head s (s.updPkts t fun j => { j with parked := true }) := updPkts_carries s t fun _ => rfl
  exact Carries.trans head_lane hparked (park_workKept _ p x who pl a wtag evq).carries

theorem collSend_carries (s : State) (k : Pkt) : Carries Pkt.head s (s.collSend k).1 := by
  unfold State.collSend
  extract_lets as
  split
  · exact faultPkt_carries s k _ _ _
  · next ts _ =>
    split
    · next t ht => exact (heldUp_workKept ht).carries
    · dsimp only [State.poisonIn]
      have htouch := (touch_onlyMemory s (groupsOf (placesOf ts))).workKept
      split
      · exact Carries.trans head_lane htouch.carries (parks_carries ..)
      · have hsent := WorkKept.foldl (fun s (e : CollPeer) => s.sendTensor k e.on e.send) (fun s e => sendTensor_workKept s k _ _) k.collSends
          ((s.touch (groupsOf (placesOf ts))).fetched k.part k.ctx ts)
        exact (htouch.trans ((fetched_onlyTraffic _ _ _ ts).workKept.trans hsent)).carries

theorem sendEnds_workKept (s : State) (k : Pkt) : WorkKept s (s.sendEnds k) := by
  unfold State.sendEnds
  extract_lets out a
  exact WorkKept.trans (t := a) ⟨rfl, rfl⟩ (WorkKept.foldl _ (fun s n => request_workKept s ..) _ a)

/-- The stages of a collective carry its packet on. -/
theorem collNext_carries (n : Nat) (s : State) (k : Pkt) : Carries Pkt.head s (s.collNext k n) := by
  induction n generalizing s k with
  | zero => exact (WorkKept.refl s).carries
  | succ n ih =>
    rw [State.collNext]
    split
    · exact (WorkKept.refl s).carries
    · next x hx =>
      have hstage (s : State) (m : Nat) : Carries Pkt.head s (s.updPkt x fun j => { j with joined := m }) :=
        updPkts_carries s _ fun _ => rfl
      have htrans {a b c : State} := Carries.trans head_lane (s := a) (t := b) (u := c)
      split
      · exact (WorkKept.refl s).carries
      · dsimp only
        split
        · have hsend := collSend_carries s x
          split
          · next t ht =>
            rw [ht] at hsend
            exact htrans (htrans hsend (hstage t 1)) (ih _ x)
          · next t ht =>
            rw [ht] at hsend
            exact hsend
        · exact htrans (htrans (drainLinks_workKept s _ _ _).carries (hstage _ 2)) (ih _ x)
        · exact htrans (htrans (sendEnds_workKept s x).carries (hstage _ 3)) (ih _ x)
        · split
          · exact updPkts_carries s _ fun _ => rfl
          · exact (WorkKept.refl s).carries

end Sys2Proof.Machine

namespace Sys2Proof.Machine

/-! ### `PAGE_SERVE` and `COLLECTIVE` -/

section

variable (s : State) (q : Fin 256) (w : WorkQ) (e : Seat) (k : Packet) (cs : List (Nat × Bool))

theorem takePageServe_goes (hlane : e.lane ≠ 4) :
    (takePageServe s (newPkt q w e .pageServe k) cs).Goes
      (Begins Pkt.placement s (newPkt q w e .pageServe k) fun j => placed j ∧ j.inStacks = true) := by
  unfold takePageServe
  refine passing_goes fun _ => passUnless_goes (withSeq_goes ?_)
  extract_lets gps
  split
  · trivial
  · refine go_goes ⟨rfl, rfl, ⟨.inl ⟨rfl, rfl⟩, rfl⟩, fun u => serveNext_carries 5 u _ ?_⟩
    exact hlane

theorem takeCollective_goes :
    (takeCollective s (newPkt q w e .collective k) cs).Goes
      (Begins Pkt.head s (newPkt q w e .collective k) fun _ => True) := by
  unfold takeCollective
  refine ite_goes (passing_goes fun _ => trivial) ?_
  refine withArg_goes fun v r hv _ => withArg_goes fun x sd hx _ => withArg_goes fun y ps hy _ => passing_goes fun _ =>
    passUnless_goes (passUnless_goes (go_goes ⟨hy.trans (hx.trans hv), rfl, trivial, fun u => ?_⟩))
  exact Carries.trans head_lane (WorkKept.carries ⟨rfl, rfl⟩) (collNext_carries 5 _ _)

end

theorem placement_placed (i j : Pkt) (h : i.placement = j.placement) (hj : placed j ∧ j.inStacks = true) : placed i ∧ i.inStacks = true := by
  simp only [Pkt.placement, Prod.mk.injEq] at h
  obtain ⟨-, hstacks, hleft, hplan⟩ := h
  obtain ⟨⟨-, hcmds⟩ | ⟨hout, -⟩, hin⟩ := hj
  · exact ⟨.inl ⟨hstacks.trans hin, by rw [hleft, hplan, hcmds]⟩, hstacks.trans hin⟩
  · simp [hin] at hout

end Sys2Proof.Machine

section
open Sys2Proof Sys2Proof.Machine

/-- Settles O47: a packet that starts is taken unchanged but for its placement, in the stacks with its commands or on free cores of its
partition; what a serve or a collective then does leaves it among the packets that have not completed. -/
theorem libraryPacketsStart : Obligations.LibraryPacketsStart := by
  intro s q w e k
  have hsame (i j : Pkt) (h : id i = id j) : i.head = j.head := congrArg Pkt.head h
  have hkeep {good : Pkt → Prop} (i j : Pkt) (h : id i = id j) (hj : good j) : good i := (show i = j from h) ▸ hj
  refine ⟨fun h hs => ?_, fun h hs => ?_, fun h hs => ?_, fun h hs => ?_, fun h hs => ?_, fun h hs => ?_, fun h hs => ?_, fun h hs => ?_⟩
  · exact takeWork_gives h hs rfl hsame hkeep (takeLinear_goes s q w e k (takes_checks h))
  · exact takeWork_gives h hs rfl hsame hkeep (takeAttend_goes s q w e k _)
  · exact takeWork_gives h hs rfl hsame hkeep (takeAttendBwd_goes s q w e k _)
  · exact takeWork_gives h hs rfl hsame hkeep (takeAppend_goes s q w e k _)
  · exact takeWork_gives h hs rfl hsame hkeep (takeCopy_goes s q w e k _)
  · exact takeWork_gives h hs rfl hsame hkeep (takeStep_goes s q w e k _)
  · exact takeWork_gives h hs rfl (fun _ _ => id) (fun _ _ _ => id) (takeCollective_goes s q w e k _)
  · have hlane := takes_lane h
    exact takeWork_gives h hs rfl (fun _ _ => congrArg Prod.fst) placement_placed (takePageServe_goes s q w e k _ (by omega))

end

namespace Sys2Proof.Machine

/-! ## The end of a packet (R263, R265, R375, R378) -/

/-! ### The packet that has finished -/

section

variable {s : State} {q : Fin 256} {j : Pkt}

theorem pktsAt_alone (hpkts : s.pkts = [j]) (hq : j.q = q.val) (hlane : j.lane = 0) : s.pktsAt q.val j.i = [j] := by
  by_cases hstep : j.kind = .step <;> simp [State.pktsAt, hpkts, hq, hlane, hstep]

theorem now_alone (hpkts : s.pkts = [j]) : s.now j = some j := by simp [State.now, hpkts, Pkt.same]

/-- Of a packet that has not failed, its own work is over: the stages of its kind are done. -/
theorem finishWork_finished (hok : j.status = .ok) (h : finished j) : s.finishWork j = (s, true) := by
  obtain hfailed | hnop | ⟨hrun, hshares⟩ | ⟨hflag, heffect⟩ | ⟨hstep, hjoined⟩ | ⟨happend | ⟨o, hedit⟩, hcmds⟩ := h
  · exact absurd hok hfailed
  · simp [State.finishWork, Pkt.runsLibrary, hnop]
  · simp [State.finishWork, Pkt.runsLibrary, hrun, hshares]
  · simp only [List.mem_cons, List.not_mem_nil, or_false] at hflag
    obtain hkind | hkind | hkind | hkind := hflag <;> simp [State.finishWork, Pkt.runsLibrary, hkind, heffect]
  · simp [State.finishWork, Pkt.runsLibrary, hstep, hjoined]
  · simp [State.finishWork, Pkt.runsLibrary, happend, hcmds]
  · simp [State.finishWork, Pkt.runsLibrary, hedit, hcmds]

/-- A `STEP` that has finished has failed, or both its lanes have joined. -/
theorem finished_joined (h : finished j) (hok : j.status = .ok) (hstep : j.kind = .step) : j.joined = 3 := by
  simpa [finished, hok, hstep] using h

/-- The command picks the one packet there is. -/
theorem exec_packetComplete_alone (hpkts : s.pkts = [j]) (hq : j.q = q.val) (hlane : j.lane = 0) (hdone : j.done = false)
    (h : finished j) : exec (.packetComplete q j.i) s = .next (s.tryComplete j) := by
  have hended : (j.status ≠ .ok || j.kind ≠ .step || j.joined = 3 : Bool) = true := by
    by_cases hok : j.status = .ok <;> by_cases hstep : j.kind = .step <;> simp [hok, hstep]
    exact finished_joined h hok hstep
  show execPacketComplete q j.i s = _
  unfold execPacketComplete
  rw [pktsAt_alone hpkts hq hlane]
  dsimp only
  rw [List.filter_cons_of_pos (by simp [hdone]), List.filter_nil, List.find?_cons_of_pos (a := j) hended,
    List.filter_cons_of_pos (a := j) hended, List.filter_nil]
  dsimp only
  split
  · next k hpick => rw [List.mem_singleton.1 (List.mem_of_find?_eq_some hpick)]
  · rfl

/-- With no record that waits, and none that the packet raises, there is room. -/
theorem roomFor_quiet (hlate : s.evLate = []) (htells : j.tells = false) : s.roomFor j = true := by
  simp [State.roomFor, hlate, htells]

theorem tells_quiet (hspans : j.spans = []) (hrecord : bit (pf j.pkt 37 1) 3 = false) : j.tells = false := by
  simp [Pkt.tells, hspans, hrecord]

/-- A packet that has finished completes: at once where it has failed, and after its last changes where it has not. -/
theorem tryComplete_alone (hpkts : s.pkts = [j]) (hdone : j.done = false) (hspans : j.spans = []) (h : finished j)
    (hctx : (s.ctx j.part j.ctx).st = .running) (hpll : (s.part j.part).pll = .running) (hroom : s.roomFor j = true)
    (hstops : j.status ≠ .ok → s.stillStops j = false) (hkept : (s.endOk j).pkts = [j]) :
    s.tryComplete j = (if j.status = .ok then s.endOk j else s).completePkt j := by
  unfold State.tryComplete
  by_cases hok : j.status = .ok
  · have hmay : s.mayComplete j = true := by simp [State.mayComplete, hdone, hroom, hok, hctx, hpll]
    simp [hmay, hok, finishWork_finished hok h, now_alone hpkts, hspans, now_alone hkept]
  · have hmay : s.mayComplete j = true := by simp [State.mayComplete, hdone, hroom, hok, hstops hok]
    simp [hmay, hok]

end

/-! ### What its completion changes of descriptors (R263, R265) -/

/-- The last changes of an append: `LENGTH`. -/
theorem endOk_append {s : State} {j : Pkt} (hspans : j.spans = []) (hkind : j.kind = .appendKv) :
    s.endOk j = s.updSeqd (pf j.pkt 32 2) (fun d => { d with length := BitVec.ofNat 32 (pf j.pkt 24 4 + pf j.pkt 28 4) }) := by
  simp [State.endOk, hspans, hkind]

/-- The last change of an edit without a release flag that raises no record: the generation, where it changes the table. -/
theorem endOk_edit {s : State} {j : Pkt} {o : Nat} (hspans : j.spans = []) (hkind : j.kind = .edit o) (ho : o ≠ 5)
    (hkey : lf j.args 0 8 = 0) (hrecord : bit (pf j.pkt 37 1) 3 = false) :
    s.endOk j = if o = 0 ∨ o = 9 then s else s.updSeqd (j.seq.getD 0) (fun d => { d with gen := d.gen + 1 }) := by
  simp [State.endOk, State.endEdit, hspans, hkind, ho, hkey, hrecord]

theorem endOk_other {s : State} {j : Pkt} (hspans : j.spans = []) (happend : j.kind ≠ .appendKv) (hedit : ∀ o, j.kind ≠ .edit o) :
    s.endOk j = s := by
  unfold State.endOk
  rw [hspans]
  split
  · next hk => exact absurd hk happend
  · next o hk => exact absurd hk (hedit o)
  · rfl

theorem endOk_onlySeqs {s : State} {j : Pkt} (hspans : j.spans = []) (hrecord : bit (pf j.pkt 37 1) 3 = false)
    (hedit : ∀ o, j.kind = .edit o → o ≠ 5 ∧ lf j.args 0 8 = 0) : OnlySeqs s (s.endOk j) := by
  by_cases happend : j.kind = .appendKv
  · rw [endOk_append hspans happend]
    exact updSeqd_onlySeqs s _ _
  · by_cases hkind : ∃ o, j.kind = .edit o
    · obtain ⟨o, hkind⟩ := hkind
      obtain ⟨ho, hkey⟩ := hedit o hkind
      rw [endOk_edit hspans hkind ho hkey hrecord]
      split
      · rfl
      · exact updSeqd_onlySeqs s _ _
    · rw [endOk_other hspans happend fun o h => hkind ⟨o, h⟩]
      rfl

/-! ### Its reply, and `HEAD` (R375, R378) -/

/-- What the completion of the oldest packet of a queue sends to the host: its reply, and the head write-back where one is set. -/
def completionWrites (w : WorkQ) (j : Pkt) : List HostReq :=
  [.write (w.base + 64 * (j.i.toNat % 2 ^ w.log2n) + 56) (replyBytes j.status j.detail)]
    ++ (if w.headWb = 0 then [] else [.write w.headWb (leBytes 4 (w.head + 1).toNat)])

/-- `HEAD` moves past the one packet there is, once it is done. -/
theorem headMoves_alone {q : Nat} {h : Word} {k : Pkt} (hsame : samePkt q h k = true) (hdone : k.done = true) :
    headMoves q 2 h [k] = (h + 1, [], b2n (bit (pf k.pkt 1 1) 1)) := by
  simp [headMoves, hsame, hdone, Pkt.same]

/-- The state in which the oldest packet of a queue has left it. -/
def State.departed (s : State) (q : Fin 256) (w : WorkQ) (j : Pkt) : State :=
  { s.setQueue q (some { w with head := w.head + 1 }) with pkts := [], cxlOut := s.cxlOut ++ completionWrites w j }

theorem queue_departed (s : State) (q : Fin 256) (w : WorkQ) (j : Pkt) (o : Fin 256) :
    (s.departed q w j).queue o = if o = q then some { w with head := w.head + 1 } else s.queue o :=
  State.queue_setQueue s q (some { w with head := w.head + 1 }) o

theorem replied_oldest {s : State} {q : Fin 256} {w : WorkQ} {j : Pkt} (hpkts : s.pkts = [j]) (hqueue : s.queue q = some w)
    (hq : j.q = q.val) (hi : j.i = w.head) (hlane : j.lane = 0) (hirq : bit (pf j.pkt 1 1) 1 = false) :
    s.replied j = s.departed q w j := by
  have hq' : (⟨j.q % 256, by omega⟩ : Fin 256) = q := Fin.ext (by simp [hq, Nat.mod_eq_of_lt q.isLt])
  have hmoves : headMoves j.q 2 w.head [{ j with done := true }] = (w.head + 1, [], 0) := by
    rw [headMoves_alone (by simp [samePkt, hi, hlane]) rfl]
    simp [hirq, b2n]
  unfold State.replied
  extract_lets q'
  rw [show q' = q from hq', hqueue]
  dsimp -zeta only
  extract_lets a b r c d
  have hpkt : b.pkts = [{ j with done := true }] := by
    show (s.pkts.map _ : List Pkt) = _
    simp [hpkts, Pkt.same]
  have hr : r = (w.head + 1, [], 0) := by
    unfold r
    rw [hpkt]
    exact hmoves
  clear_value r
  subst hr
  rw [if_pos rfl, State.departed, completionWrites, ← List.append_assoc]
  by_cases hwb : w.headWb = 0
  · rw [if_pos hwb, List.append_nil, show d = c from if_pos (by simp [hwb])]
    rfl
  · rw [if_neg hwb, show d = c.toHost _ _ from if_neg (by simp [hwb])]
    rfl

namespace OnlyCoresClusters

variable {s t : State} (h : OnlyCoresClusters s t)
include h

theorem pkts_eq : t.pkts = s.pkts := by rw [← h]
theorem queue_eq (o : Fin 256) : t.queue o = s.queue o := State.queue_of_wqs s t (by rw [← h]) o
theorem cxlOut_eq : t.cxlOut = s.cxlOut := by rw [← h]
theorem mem_eq : t.mem = s.mem := by rw [← h]
theorem parts_eq : t.parts = s.parts := by rw [← h]
theorem seqs_eq : t.seqs = s.seqs := by rw [← h]

end OnlyCoresClusters

theorem freeCoresOf_onlyCoresClusters (s : State) (j : Pkt) : OnlyCoresClusters s (s.freeCoresOf j) := by
  refine foldl_keeps OnlyCoresClusters (fun _ => rfl) (fun _ _ _ => .trans) _ (fun s c => ?_) _ s
  have htrace : OnlyCoresClusters s (s.trace c 9 0 (s.core c).curPc.toNat (s.core c).mtag 0) := (trace_onlyCore ..).1
  exact htrace.trans rfl

/-! ### What follows it (R266, R269, R341) -/

/-- A descriptor stays as it is, or its CLOSING sequence becomes FREE with its generation. -/
def SeqDesc.settles (d e : SeqDesc) : Prop := e = d ∨ e = { SeqDesc.reset with gen := d.gen }

theorem SeqDesc.settles.trans {d e f : SeqDesc} (h : d.settles e) (g : e.settles f) : d.settles f := by
  obtain rfl | rfl := h
  · exact g
  · obtain rfl | rfl := g
    · exact .inr rfl
    · exact .inr rfl

/-- Nothing changes but partitions, collectives, and sequences that become FREE. -/
structure Settles (s t : State) : Prop where
  rest : { t with parts := s.parts, seqs := s.seqs, colls := s.colls } = s
  seqd : ∀ n, (s.seqd n).settles (t.seqd n)

theorem Settles.refl (s : State) : Settles s s := ⟨rfl, fun _ => .inl rfl⟩

theorem Settles.trans {s t u : State} (h : Settles s t) (g : Settles t u) : Settles s u :=
  ⟨by rw [← h.rest, ← g.rest], fun n => (h.seqd n).trans (g.seqd n)⟩

namespace Settles

variable {s t : State} (h : Settles s t)
include h

theorem pkts_eq : t.pkts = s.pkts := by rw [← h.rest]
theorem queue_eq (o : Fin 256) : t.queue o = s.queue o := State.queue_of_wqs s t (by rw [← h.rest]) o
theorem cxlOut_eq : t.cxlOut = s.cxlOut := by rw [← h.rest]
theorem mem_eq : t.mem = s.mem := by rw [← h.rest]

end Settles

theorem OnlyParts.settles {s t : State} (h : OnlyParts s t) : Settles s t := by
  refine ⟨by rw [h.rest], fun n => .inl ?_⟩
  rw [h.rest]
  rfl

theorem Settles.of_updSeqd (s : State) (n : Nat) : Settles s (s.updSeqd n fun d => { SeqDesc.reset with gen := d.gen }) := by
  refine ⟨rfl, fun m => ?_⟩
  rw [State.updSeqd_eq, State.seqd_setSeqd]
  split
  · next hm => exact .inr (by rw [hm])
  · exact .inl rfl

/-- With no release flag that waits for the quarantine, pages leave it and CLOSING sequences become FREE. -/
theorem settle_settles {s : State} {p : Fin 4} (hflags : (s.part p).relFlags = []) : Settles s (s.settle p) := by
  unfold State.settle
  extract_lets a b closing
  have ha : Settles s a := (updPart_onlyParts s p _).settles
  have hb : b = a := by
    have : (a.part p).relFlags = [] := by
      unfold a
      rw [State.updPart_eq, State.part_setPart, if_pos rfl]
      exact hflags
    unfold b
    rw [this]
    rfl
  rw [hb]
  exact ha.trans (foldl_keeps Settles .refl (fun _ _ _ => .trans) _ Settles.of_updSeqd closing a)

theorem afterPkt_settles {s : State} {j : Pkt} (hflags : (s.part j.part).relFlags = []) : Settles s (s.afterPkt j) := by
  unfold State.afterPkt
  extract_lets a b
  have hb : Settles s b := Settles.trans (t := a) ⟨rfl, fun _ => .inl rfl⟩ (updPart_onlyParts a j.part _).settles
  have hbflags : (b.part j.part).relFlags = [] := by
    unfold b
    rw [State.updPart_eq, State.part_setPart, if_pos rfl]
    exact hflags
  exact (hb.trans (settle_settles hbflags)).trans (schedule_scheduled _ j.part).rest.settles

theorem completePkt_queue {s : State} {j : Pkt} (hlane : j.lane = 0) :
    s.completePkt j = ((s.freeCoresOf j).replied j).afterPkt j := by
  simp only [State.completePkt, hlane, if_true]

/-- The oldest packet of a queue leaves: its reply and `HEAD` are written, and nothing but cores, partitions, collectives and CLOSING
sequences changes besides. -/
theorem completePkt_oldest {s : State} {q : Fin 256} {w : WorkQ} {j : Pkt} (hpkts : s.pkts = [j]) (hqueue : s.queue q = some w)
    (hq : j.q = q.val) (hi : j.i = w.head) (hlane : j.lane = 0) (hirq : bit (pf j.pkt 1 1) 1 = false)
    (hflags : (s.part j.part).relFlags = []) :
    (s.completePkt j).pkts = [] ∧ (s.completePkt j).queue q = some { w with head := w.head + 1 }
      ∧ (∀ o, o ≠ q → (s.completePkt j).queue o = s.queue o) ∧ (s.completePkt j).cxlOut = s.cxlOut ++ completionWrites w j
      ∧ (s.completePkt j).mem = s.mem ∧ ∀ n, (s.seqd n).settles ((s.completePkt j).seqd n) := by
  rw [completePkt_queue hlane]
  have hcores := freeCoresOf_onlyCoresClusters s j
  generalize s.freeCoresOf j = u at hcores ⊢
  rw [replied_oldest (hcores.pkts_eq.trans hpkts) ((hcores.queue_eq q).trans hqueue) hq hi hlane hirq]
  have hafter : Settles (u.departed q w j) ((u.departed q w j).afterPkt j) := by
    refine afterPkt_settles (Eq.trans ?_ hflags)
    exact congrArg Part.relFlags (State.part_of_parts s _ hcores.parts_eq j.part)
  have hqueues (o : Fin 256) := (hafter.queue_eq o).trans (queue_departed u q w j o)
  refine ⟨hafter.pkts_eq, (hqueues q).trans (if_pos rfl), fun o ho => ?_, ?_, hafter.mem_eq.trans hcores.mem_eq, fun n => ?_⟩
  · rw [hqueues, if_neg ho, hcores.queue_eq]
  · rw [hafter.cxlOut_eq, ← hcores.cxlOut_eq]
    rfl
  · have hseqd : (u.departed q w j).seqd n = s.seqd n := State.seqd_of_seqs s _ hcores.seqs_eq n
    rw [← hseqd]
    exact hafter.seqd n

end Sys2Proof.Machine

section
open Sys2Proof Sys2Proof.Machine

/-- Settles O50: the command picks the packet, which has nothing left to do but its last changes; the reply, `HEAD` and the write-back
follow, and the settling of the partition takes no `LENGTH` or generation away but with its sequence. -/
theorem packetCompletes : Obligations.PacketCompletes := by
  intro s q w j hqueue hpkts hq hi hpart hctx hlane hdone hspans hfinished hrunning hpll hlate hflags hirq hrecord hedit hstops
  have hroom := roomFor_quiet hlate (tells_quiet hspans hrecord)
  have hend := endOk_onlySeqs (s := s) hspans hrecord hedit
  have hexec := exec_packetComplete_alone hpkts hq hlane hdone hfinished
  rw [hi, tryComplete_alone hpkts hdone hspans hfinished hrunning hpll hroom hstops (by rw [hend.rest]; exact hpkts)] at hexec
  have hlast : OnlySeqs s (if j.status = .ok then s.endOk j else s) := by
    split
    · exact hend
    · rfl
  generalize hv : (if j.status = .ok then s.endOk j else s) = v at hexec hlast
  obtain ⟨hnone, hhead, hothers, hsent, hmem, hseqd⟩ := completePkt_oldest (s := v) (q := q) (w := w) (j := j)
    (by rw [hlast.rest]; exact hpkts) (by rw [hlast.rest]; exact hqueue) hq hi hlane hirq (by rw [hlast.rest]; exact hflags)
  refine ⟨_, hexec, hnone, hhead, fun o ho => (hothers o ho).trans (by rw [hlast.rest]; rfl), ?_, hmem.trans (by rw [hlast.rest]),
    fun hok hkind => ?_, fun o hok hkind ho0 ho9 => ?_⟩
  · rw [hsent, completionWrites, hi, ← List.append_assoc]
    rw [hlast.rest]
  · rw [if_pos hok, endOk_append hspans hkind] at hv
    obtain hkept | hfree := hseqd (pf j.pkt 32 2)
    · exact .inl (by rw [hkept, ← hv]; simp)
    · exact .inr (by rw [hfree]; rfl)
  · obtain ⟨ho5, hkey⟩ := hedit o hkind
    rw [if_pos hok, endOk_edit hspans hkind ho5 hkey hrecord, if_neg (by omega)] at hv
    obtain hkept | hfree := hseqd (j.seq.getD 0)
    · rw [hkept, ← hv]
      simp
    · rw [hfree, ← hv]
      simp

end

namespace Sys2Proof.Machine

/-! ## Edits of a sequence (R265, R266, R269) -/

/-! ### What reading a packet's arguments and taking it change (R343) -/

/-- Nothing changes but what accesses count and cache, the packets and their queues, and a partition's turn and watchdog. -/
structure OnlyTaken (s t : State) : Prop where
  rest : { t with freeCtr := s.freeCtr, parts := s.parts, stks := s.stks, pkts := s.pkts, wqs := s.wqs } = s
  part : ∀ p, { t.part p with
    lines := (s.part p).lines, hits := (s.part p).hits, misses := (s.part p).misses, xlat := (s.part p).xlat,
    wdArmed := (s.part p).wdArmed, wdCount := (s.part p).wdCount, turn := (s.part p).turn } = s.part p

theorem OnlyTraffic.onlyTaken {s t : State} (h : OnlyTraffic s t) : OnlyTaken s t :=
  ⟨by rw [← h.rest], fun p => by rw [← h.part p]⟩

namespace OnlyTaken

theorem trans {s t u : State} (h : OnlyTaken s t) (g : OnlyTaken t u) : OnlyTaken s u :=
  ⟨by rw [← h.rest, ← g.rest], fun p => by rw [← h.part p, ← g.part p]⟩

theorem of_updPart (s : State) (p : Fin 4) {f : Part → Part} (hf : { f (s.part p) with
    lines := (s.part p).lines, hits := (s.part p).hits, misses := (s.part p).misses, xlat := (s.part p).xlat,
    wdArmed := (s.part p).wdArmed, wdCount := (s.part p).wdCount, turn := (s.part p).turn } = s.part p) :
    OnlyTaken s (s.updPart p f) := by
  refine ⟨rfl, fun o => ?_⟩
  rw [State.updPart_eq, State.part_setPart]
  split
  · next ho =>
    rw [ho]
    exact hf
  · rfl

section

variable {s t : State} (h : OnlyTaken s t)
include h

theorem mem_eq : t.mem = s.mem := by rw [← h.rest]
theorem seqs_eq : t.seqs = s.seqs := by rw [← h.rest]
theorem seqd_eq (n : Nat) : t.seqd n = s.seqd n := State.seqd_of_seqs s t h.seqs_eq n
theorem quar_eq (p : Fin 4) : (t.part p).quar = (s.part p).quar := by rw [← h.part p]

theorem byteAt_eq (pl : Place) : t.byteAt pl = s.byteAt pl := byteAt_congr h.mem_eq (by rw [← h.rest]) pl

theorem sameMap : SameMap s t :=
  ⟨h.mem_eq, by rw [← h.rest], fun p => by rw [← h.part p], fun p => by rw [← h.part p]⟩

theorem quiet (hq : quietMemory s) : quietMemory t := by
  obtain ⟨herr, hhost, hflips, hwaits, hdir⟩ := hq
  exact ⟨by rw [← herr, ← h.rest], by rw [← hhost, ← h.rest], by rw [← hflips, ← h.rest], by rw [← hwaits, ← h.rest],
    by rw [← hdir, ← h.rest]⟩

end

end OnlyTaken

theorem enlist_onlyTaken (s : State) (j : Pkt) : OnlyTaken s (s.enlist j) := by
  unfold State.enlist
  extract_lets a b q
  have hb : OnlyTaken s b := OnlyTaken.trans (t := a) ⟨rfl, fun _ => rfl⟩ (.of_updPart a j.part rfl)
  split
  · split
    · next w _ =>
      have hmoved : OnlyTaken b (b.setQueue q (some { w with taken := w.taken + 1 })) := ⟨rfl, fun _ => rfl⟩
      exact hb.trans (hmoved.trans (.of_updPart _ w.part rfl))
    · exact hb
  · exact hb

/-- A packet that starts is taken: it is the last of those that have not completed, at its place, and its queue has moved. -/
theorem takeWork_takes {s v : State} {q : Fin 256} {w : WorkQ} {e : Seat} {kd : PktKind} {k : Packet} {j : Pkt} {f : State → State}
    {body : State → Pkt → List (Nat × Bool) → Verdict} (htakes : takes s q w e kd k)
    (hgo : body s (newPkt q w e kd k) (workChecks kd k) = .go v j f) (hv : OnlyTraffic s v) (hj : j.head = (newPkt q w e kd k).head) :
    ∃ u, takeWork kd q k body s = .next (f u) ∧ OnlyTaken s u ∧ u.pkts = s.pkts ++ [j] ∧ packetAt q w e kd k j
      ∧ queueMoved s u q w e := by
  obtain ⟨-, -, hjq, -, hlane, -⟩ := packetAt_of_head hj
  obtain ⟨hpkts, -, -, hmoved, hothers⟩ := enlist_spec ((State.queue_of_wqs s v hv.wqs_eq q).trans htakes.1) hjq
  refine ⟨v.enlist j, takeWork_go htakes hgo, hv.onlyTaken.trans (enlist_onlyTaken v j), by rw [hpkts, hv.pkts_eq],
    packetAt_of_head hj, ?_, fun o ho => (hothers o ho).trans (State.queue_of_wqs s v hv.wqs_eq o)⟩
  rw [hmoved, hlane]

/-- A packet's read of its arguments, where no word holds an error, changes what accesses count and cache. -/
theorem withArg_goes_traffic {P : State → Pkt → (State → State) → Prop} {s : State} {j : Pkt} {cs : List (Nat × Bool)}
    {field a n : Nat} {f : State → List Byte → Verdict} (he : s.memErr = []) (h : ∀ v bs, OnlyTraffic s v → (f v bs).Goes P) :
    (s.withArg j cs field a n f).Goes P := by
  unfold State.withArg
  split
  · exact passing_goes fun _ => trivial
  · split
    · exact passing_goes fun _ => trivial
    · next ts _ =>
      split
      · trivial
      · dsimp only [State.poisonIn]
        rw [touch_clean s _ he]
        split
        · exact passing_goes fun _ => trivial
        · exact h _ _ (fetched_onlyTraffic s _ _ ts)

/-! ### Page tables as walks read them (R246 to R250) -/

/-- Two states hold the same tables, free of errors, and no flip mask is armed. -/
structure SameTables (s t : State) : Prop where
  map : SameMap s t
  clean : s.memErr = [] ∧ t.memErr = []
  unarmed : s.hk.flips = [] ∧ t.hk.flips = []

theorem SameMap.sameTables {s t : State} (h : SameMap s t) (hs : quietMemory s) (ht : quietMemory t) : SameTables s t := by
  obtain ⟨hse, -, hsf, -⟩ := hs
  obtain ⟨hte, -, htf, -⟩ := ht
  exact ⟨h, ⟨hse, hte⟩, hsf, htf⟩

theorem readPart_congr {s t : State} (h : t.mem = s.mem) (p x n : Nat) : t.readPart p x n = s.readPart p x n := by
  simp [State.readPart, State.bytesAt, State.byteAt, h]

/-- Where no word holds an error, what the sequencer reads of a table is not poisoned. -/
theorem tableRead_clean {s : State} (he : s.memErr = []) (p : Fin 4) (x n : Nat) : s.tableRead p x n = (s.readPart p.val x n, false) := by
  have hnone : s.firstPoison ((List.range n).map (fun j => Place.dram (partPlace p.val (x + j)))) = none := by
    rw [State.firstPoison, List.find?_eq_none]
    intro pl hpl
    obtain ⟨o, -, rfl⟩ := List.mem_map.1 hpl
    simp [groupPoisoned_clean he]
  simp only [State.tableRead, hnone]
  rfl

namespace SameTables

variable {s t : State} (h : SameTables s t)
include h

theorem tableRead_eq (p : Fin 4) (x n : Nat) : t.tableRead p x n = s.tableRead p x n := by
  obtain ⟨hs, ht⟩ := h.clean
  rw [tableRead_clean hs, tableRead_clean ht, readPart_congr h.map.mem]

theorem dirEnt_eq (p : Fin 4) (d : SeqDesc) (g m : Nat) : t.dirEnt p d g m = s.dirEnt p d g m := by
  have hsize : t.partSize p = s.partSize p := by rw [State.partSize, State.partSize, h.map.rowsPart]
  unfold State.dirEnt
  rw [h.tableRead_eq, hsize]

theorem pageBad_eq (p : Fin 4) (n d fmt base scale : Nat) : t.pageBad p n d fmt base scale = s.pageBad p n d fmt base scale := by
  have hsize : t.bankSize (base / 2 ^ 36) = s.bankSize (base / 2 ^ 36) := by
    rw [State.bankSize, State.bankSize, h.map.rowsPartOf_eq, h.map.rowsDev]
  unfold State.pageBad
  rw [h.map.bankPlace_eq, hsize]

theorem pageEnt_eq (p : Fin 4) (d : SeqDesc) (g m kv : Nat) : t.pageEnt p d g m kv = s.pageEnt p d g m kv := by
  have hparse (l : List Byte) (bad : Bool) : t.parseEnt p d kv l bad = s.parseEnt p d kv l bad := by
    simp only [State.parseEnt, h.pageBad_eq]
  unfold State.pageEnt
  simp only [h.dirEnt_eq, h.tableRead_eq, hparse]

theorem editTakes_eq (p : Fin 4) (d : SeqDesc) (k : Packet) : t.editTakes p d k = s.editTakes p d k := by
  have hall : t.allPages p d = s.allPages p d := by simp only [State.allPages, h.dirEnt_eq, h.pageEnt_eq]
  unfold State.editTakes
  simp only [hall, h.pageEnt_eq]

end SameTables

/-! ### Writes of page tables (R247, R265) -/

/-- Where no word holds an error, a write stores its bytes one after the other. -/
theorem writeAt_mem {s : State} (cached : Bool) (ps : List (Place × Byte)) (he : s.memErr = []) :
    (s.writeAt cached ps).mem = (ps.foldl putByte s).mem := by
  obtain ⟨gs, full, u, hu, h⟩ := writeAt_eq s cached ps
  rw [touch_clean s gs he, clearGroups_clean full he] at hu
  obtain h | ⟨k, h⟩ := h
  · rw [h, hu]
  · rw [h, (flipWrite_mem u cached k).1, hu]

theorem foldl_putByte_mem_congr (ps : List (Place × Byte)) {s t : State} (h : t.mem = s.mem) :
    (ps.foldl putByte t).mem = (ps.foldl putByte s).mem := by
  induction ps generalizing s t with
  | nil => exact h
  | cons p ps ih =>
    refine ih ?_
    obtain ⟨k | a, b⟩ := p
    · exact congrArg (Tbl.set 0 · k b) h
    · exact h

/-- The same byte stored at many places. -/
theorem byteAt_foldl_putByte_const (b : Byte) (ps : List (Place × Byte)) (hb : ∀ p ∈ ps, p.2 = b) (s : State) (pl : Place) :
    (ps.foldl putByte s).byteAt pl = if pl ∈ ps.map Prod.fst then b else s.byteAt pl := by
  induction ps generalizing s with
  | nil => simp
  | cons p ps ih =>
    rw [List.foldl_cons, ih (fun x hx => hb x (List.mem_cons_of_mem _ hx)), byteAt_putByte, hb p List.mem_cons_self]
    by_cases htail : pl ∈ ps.map Prod.fst <;> simp [htail]

/-- The places of a run of bytes of a PART space. -/
def partRun (p x n : Nat) : List Place := (List.range n).map (fun o => .dram (partPlace p (x + o)))

theorem mem_partRun {p x n a : Nat} : Place.dram a ∈ partRun p x n ↔ ∃ o < n, partPlace p (x + o) = a := by
  simp [partRun]

/-- Zeros written to a PART space. -/
theorem writePart_zeros {s : State} (he : s.memErr = []) (p x n a : Nat) :
    (s.writePart p x (List.replicate n 0)).mem.get 0 a = if ∃ o < n, partPlace p (x + o) = a then 0 else s.mem.get 0 a := by
  have hmem : (s.writePart p x (List.replicate n 0)).mem = (((partRun p x n).zip (List.replicate n 0)).foldl putByte s).mem := by
    rw [State.writePart, writeAt_mem _ _ he, List.length_replicate]
    rfl
  have hfst : ((partRun p x n).zip (List.replicate n (0 : Byte))).map Prod.fst = partRun p x n :=
    List.map_fst_zip (by simp [partRun])
  have hzero : ∀ e ∈ (partRun p x n).zip (List.replicate n (0 : Byte)), e.2 = 0 :=
    fun e hmem => List.eq_of_mem_replicate (List.of_mem_zip hmem).2
  have hstored := byteAt_foldl_putByte_const 0 _ hzero s (.dram a)
  simp only [hfst, mem_partRun] at hstored
  rw [hmem]
  exact hstored

theorem SameTables.writePart {s t : State} (h : SameTables s t) (p x : Nat) (bs : List Byte) :
    SameTables (s.writePart p x bs) (t.writePart p x bs) := by
  obtain ⟨hs, ht⟩ := h.clean
  obtain ⟨hsf, htf⟩ := h.unarmed
  unfold State.writePart
  generalize ((List.range bs.length).map (fun j => Place.dram (partPlace p (x + j)))).zip bs = ps
  have hsb := writeAt_onlyBytes false ps hs hsf
  have htb := writeAt_onlyBytes false ps ht htf
  have hmem : (t.writeAt false ps).mem = (s.writeAt false ps).mem := by
    rw [writeAt_mem _ _ ht, writeAt_mem _ _ hs, foldl_putByte_mem_congr ps h.map.mem]
  rw [hsb.rest, htb.rest]
  exact ⟨⟨hmem, h.map.rowsDev, h.map.regions, h.map.rowsPart⟩, h.clean, h.unarmed⟩

theorem SameTables.foldl {α : Type} (f : State → α → State) (hf : ∀ s t a, SameTables s t → SameTables (f s a) (f t a))
    (l : List α) {s t : State} (h : SameTables s t) : SameTables (l.foldl f s) (l.foldl f t) := by
  induction l generalizing s t with
  | nil => exact h
  | cons a l ih => exact ih (hf s t a h)

/-- An entry written to the same tables leaves the same tables. -/
theorem SameTables.writeEnt {s t : State} (h : SameTables s t) (p : Fin 4) (d : SeqDesc) (g m kv : Nat) (e : PageEnt) :
    SameTables (s.writeEnt p d g m kv e) (t.writeEnt p d g m kv e) := by
  unfold State.writeEnt
  rw [h.dirEnt_eq]
  extract_lets de leaf a b a' b'
  have ha : SameTables a a' := by
    unfold a a'
    split
    · exact h
    · exact h.foldl _ (fun s t n hst => hst.writePart p.val (leaf + 16 * n + 6) [0]) _
  have hb : SameTables b b' := ha.writePart p.val (entAt leaf m kv) (entBytes d kv e)
  have hused : b'.leafUsed p leaf = b.leafUsed p leaf := by simp only [State.leafUsed, readPart_congr hb.map.mem]
  rw [hused]
  exact hb.writePart p.val _ _

theorem writeEnt_onlyMemory (s : State) (p : Fin 4) (d : SeqDesc) (g m kv : Nat) (e : PageEnt) :
    OnlyMemory s (s.writeEnt p d g m kv e) := by
  unfold State.writeEnt
  extract_lets de leaf a b
  have ha : OnlyMemory s a := by
    unfold a
    split
    · exact .refl s
    · exact foldl_onlyMemory _ (fun s n => writePart_onlyMemory s _ _ _) _ s
  exact ha.trans ((writePart_onlyMemory a _ _ _).trans (writePart_onlyMemory b _ _ _))

end Sys2Proof.Machine

namespace Sys2Proof.Machine

theorem SameMap.trans {s t u : State} (h : SameMap s t) (g : SameMap t u) : SameMap s u :=
  ⟨g.mem.trans h.mem, g.rowsDev.trans h.rowsDev, fun p => (g.regions p).trans (h.regions p),
    fun p => (g.rowsPart p).trans (h.rowsPart p)⟩

/-! ### An edit takes effect (R265, R266) -/

section

variable (s : State) (j : Pkt) (n : Nat)

/-- `OPEN` clears the directory and writes the descriptor. -/
theorem editStart_open (hop : pf j.pkt 34 1 = 0) : s.editStart j n =
    (s.writePart j.part.val (pa j.pkt 8) (List.replicate (16 * pf j.pkt 40 1 * pf j.pkt 42 2) 0)).setSeqd n
      ⟨1, BitVec.ofNat 8 (pf j.pkt 39 1), BitVec.ofNat 8 (pf j.pkt 40 1), BitVec.ofNat 8 (pf j.pkt 41 1), BitVec.ofNat 4 j.ctx.val,
        BitVec.ofNat 16 (pf j.pkt 42 2), 1, 0, BitVec.ofNat 40 (pa j.pkt 8)⟩ := by
  unfold State.editStart
  simp only [hop]

theorem editStart_truncate (hop : pf j.pkt 34 1 = 6) :
    s.editStart j n = s.updSeqd n (fun d => { d with length := BitVec.ofNat 32 (pf j.pkt 24 4) }) := by
  unfold State.editStart
  simp only [hop]

theorem editStart_close (hop : pf j.pkt 34 1 = 8) : s.editStart j n =
    (s.quarantine j.part n ((s.seqd n).gen + 1) (s.editTakes j.part (s.seqd n) j.pkt)).updSeqd n (fun d => { d with st := 2 }) := by
  unfold State.editStart State.editTakes
  simp only [hop]

/-- `REENCODE` and `SYNC` change nothing as they start. -/
theorem editStart_none (hop : pf j.pkt 34 1 = 5 ∨ pf j.pkt 34 1 = 7) : s.editStart j n = s := by
  unfold State.editStart
  obtain hop | hop := hop <;> simp only [hop]

/-- `MAP`, `COMMIT`, `DROP` and `FREE` change entries. -/
theorem editStart_entries (hop : pf j.pkt 34 1 = 1 ∨ pf j.pkt 34 1 = 2 ∨ pf j.pkt 34 1 = 3 ∨ pf j.pkt 34 1 = 4) : s.editStart j n =
    (s.quarantine j.part n ((s.seqd n).gen + 1) (s.editTakes j.part (s.seqd n) j.pkt)).editApply j (s.seqd n) ((s.seqd n).gen + 1) := by
  unfold State.editStart
  obtain hop | hop | hop | hop := hop <;> simp only [hop]

/-- What an edit makes of an entry that it names, but for `MAP`: state and generation. -/
def editedEnt (op : Nat) (gen : Word) (e : PageEnt) : PageEnt :=
  { e with st := if op = 2 then 1 else if op = 3 then 2 else 0, gen := gen.toNat }

/-- An edit that names one entry writes it. -/
theorem editApply_single {d : SeqDesc} {gen : Word} {g m kv : Nat} (hents : editEnts d j.pkt = [(g, m, kv)])
    (hop : pf j.pkt 34 1 = 2 ∨ pf j.pkt 34 1 = 3 ∨ pf j.pkt 34 1 = 4) :
    s.editApply j d gen = s.writeEnt j.part d g m kv (editedEnt (pf j.pkt 34 1) gen (s.pageEnt j.part d g m kv)) := by
  unfold State.editApply
  dsimp only
  rw [hents]
  obtain hop | hop | hop := hop <;> simp [hop, editedEnt]

theorem editApply_onlyMemory (d : SeqDesc) (gen : Word) : OnlyMemory s (s.editApply j d gen) :=
  foldl_onlyMemory _ (fun s _ => writeEnt_onlyMemory s _ _ _ _ _ _) _ s

/-- An edit takes no page out of the table as it starts but by `DROP`, `FREE`, `REENCODE` and `CLOSE`. -/
theorem editTakes_none {p : Fin 4} {d : SeqDesc} {k : Packet} (hop : pf k 34 1 = 1 ∨ pf k 34 1 = 2) : s.editTakes p d k = [] := by
  unfold State.editTakes
  obtain hop | hop := hop <;> simp [hop]

theorem quar_quarantine (p : Fin 4) (gen : Word) (l : List Nat) :
    ((s.quarantine p n gen l).part p).quar = (s.part p).quar ++ l.map (fun b => ⟨b, n, gen⟩) := by
  simp [State.quarantine]

theorem quarantine_sameMap (p : Fin 4) (gen : Word) (l : List Nat) : SameMap s (s.quarantine p n gen l) := by
  refine ⟨rfl, rfl, fun o => ?_, fun o => ?_⟩ <;> rw [State.quarantine, State.updPart_eq, State.part_setPart] <;> split
  · next ho => rw [ho]
  · rfl
  · next ho => rw [ho]
  · rfl

/-- The operations of an edit, by what they change as they start. -/
theorem pageEdit_cases {op : Nat} (h : op < 9) :
    op = 0 ∨ op = 6 ∨ op = 8 ∨ (op = 5 ∨ op = 7) ∨ (op = 1 ∨ op = 2 ∨ op = 3 ∨ op = 4) := by omega

variable (hop : pf j.pkt 34 1 < 9)
include hop

theorem editStart_workKept : WorkKept s (s.editStart j n) := by
  obtain h | h | h | h | h := pageEdit_cases hop
  · rw [editStart_open s j n h]
    exact (writePart_onlyMemory s _ _ _).workKept.trans ⟨rfl, rfl⟩
  · rw [editStart_truncate s j n h]
    exact ⟨rfl, rfl⟩
  · rw [editStart_close s j n h]
    exact ⟨rfl, rfl⟩
  · rw [editStart_none s j n h]
    exact .refl s
  · rw [editStart_entries s j n h]
    exact WorkKept.trans (t := s.quarantine ..) ⟨rfl, rfl⟩ (editApply_onlyMemory _ j _ _).workKept

/-- No other edit changes the descriptor as it starts. -/
theorem editStart_seqd (hkept : pf j.pkt 34 1 ∉ [0, 6, 8]) : (s.editStart j n).seqd n = s.seqd n := by
  simp only [List.mem_cons, List.not_mem_nil, or_false, not_or] at hkept
  obtain ⟨h0, h6, h8⟩ := hkept
  obtain h | h | h | h | h := pageEdit_cases hop
  · exact absurd h h0
  · exact absurd h h6
  · exact absurd h h8
  · rw [editStart_none s j n h]
  · rw [editStart_entries s j n h, State.seqd_of_seqs _ _ (editApply_onlyMemory _ j _ _).seqs_eq]
    rfl

/-- The pages that `DROP`, `FREE` and `CLOSE` take out of the table enter the quarantine with the new generation. -/
theorem editStart_quar : ((s.editStart j n).part j.part).quar = (s.part j.part).quar
    ++ (if pf j.pkt 34 1 ∈ [3, 4, 8] then (s.editTakes j.part (s.seqd n) j.pkt).map (fun b => ⟨b, n, (s.seqd n).gen + 1⟩)
      else []) := by
  obtain h | h | h | h | h := pageEdit_cases hop
  · rw [editStart_open s j n h, if_neg (by simp [h]), List.append_nil]
    exact congrArg Part.quar (State.part_of_parts s _ (writePart_onlyMemory s _ _ _).parts_eq j.part)
  · rw [editStart_truncate s j n h, if_neg (by simp [h]), List.append_nil]
    rfl
  · rw [editStart_close s j n h, if_pos (by simp [h])]
    exact quar_quarantine s n j.part _ _
  · rw [editStart_none s j n h, if_neg (by obtain h | h := h <;> simp [h]), List.append_nil]
  · have hents : ((s.editStart j n).part j.part).quar = (s.part j.part).quar
        ++ (s.editTakes j.part (s.seqd n) j.pkt).map (fun b => ⟨b, n, (s.seqd n).gen + 1⟩) := by
      rw [editStart_entries s j n h, State.part_of_parts _ _ (editApply_onlyMemory _ j _ _).parts_eq, quar_quarantine]
    rw [hents]
    obtain h | h | h | h := h
    · rw [editTakes_none s (.inl h), if_neg (by simp [h])]
      rfl
    · rw [editTakes_none s (.inr h), if_neg (by simp [h])]
      rfl
    · rw [if_pos (by simp [h])]
    · rw [if_pos (by simp [h])]

end

theorem editStart_mem (s : State) (j : Pkt) (n : Nat) (h : pf j.pkt 34 1 ∈ [5, 6, 7, 8]) : (s.editStart j n).mem = s.mem := by
  simp only [List.mem_cons, List.not_mem_nil, or_false] at h
  obtain h | h | h | h := h
  · rw [editStart_none s j n (.inl h)]
  · rw [editStart_truncate s j n h]
    rfl
  · rw [editStart_none s j n (.inr h)]
  · rw [editStart_close s j n h]
    rfl

/-- `COMMIT`, `DROP` or `FREE` of one entry leaves memory as the entry's write does. -/
theorem editStart_single {s u : State} {j : Pkt} {n : Nat} (hu : SameTables s u) {g m kv : Nat}
    (hents : editEnts (u.seqd n) j.pkt = [(g, m, kv)]) (hop : pf j.pkt 34 1 = 2 ∨ pf j.pkt 34 1 = 3 ∨ pf j.pkt 34 1 = 4) :
    (u.editStart j n).mem = (s.writeEnt j.part (u.seqd n) g m kv
      (editedEnt (pf j.pkt 34 1) ((u.seqd n).gen + 1) (s.pageEnt j.part (u.seqd n) g m kv))).mem := by
  have hquar : SameTables s (u.quarantine j.part n ((u.seqd n).gen + 1) (u.editTakes j.part (u.seqd n) j.pkt)) :=
    ⟨hu.map.trans (quarantine_sameMap ..), hu.clean, hu.unarmed⟩
  rw [editStart_entries u j n (.inr hop), editApply_single _ j hents hop, hquar.pageEnt_eq]
  exact (hquar.writeEnt j.part _ g m kv _).map.mem

/-! ### A `PAGE_EDIT` is taken (R265 to R267) -/

/-- An edit starts: it is the packet that was read, on its sequence, and then takes effect. -/
def Edits (s : State) (j0 : Pkt) (v : State) (j : Pkt) (f : State → State) : Prop :=
  OnlyTraffic s v ∧ j.head = j0.head ∧ j.seq = some (pf j0.pkt 32 2) ∧ ∀ u, f u = u.editStart j (pf j0.pkt 32 2)

theorem editState_goes {s v : State} (hv : OnlyTraffic s v) (j : Pkt) (l : List Byte) :
    (v.editState j (pf j.pkt 32 2) l).Goes (Edits s j) := by
  unfold State.editState
  extract_lets k op d q es gps taken busy j'
  refine passUnless_goes (passUnless_goes ?_)
  split
  · trivial
  · refine passUnless_goes (passUnless_goes (passUnless_goes ?_))
    split
    · next hop =>
      split
      · trivial
      · have hpkt : pf j.pkt 34 1 = 5 := hop
        refine go_goes ⟨hv, rfl, rfl, fun u => Eq.symm ?_⟩
        apply editStart_none
        exact .inl hpkt
    · refine go_goes ⟨hv, rfl, rfl, fun u => ?_⟩
      rfl

theorem takeEdit_goes {s : State} (he : s.memErr = []) (j : Pkt) (cs : List (Nat × Bool)) : (takeEdit s j cs).Goes (Edits s j) := by
  unfold takeEdit
  extract_lets k op n d own meets rel
  refine passing_goes fun _ => ite_goes trivial (ite_goes ?_ ?_)
  · exact withArg_goes_traffic he fun v l hv => passing_goes fun _ => editState_goes hv j l
  · exact passing_goes fun _ => editState_goes (.refl s) j []

theorem exec_pageEdit {x : Nat × (Fin 256 → Packet → Instr)} (hx : x ∈ pageEdits) (q : Fin 256) (k : Packet) (s : State) :
    exec (x.2 q k) s = takeWork (.edit x.1) q k takeEdit s ∧ x.1 < 9 := by
  simp only [pageEdits, List.mem_cons, List.not_mem_nil, or_false] at hx
  obtain rfl | rfl | rfl | rfl | rfl | rfl | rfl | rfl | rfl := hx <;> exact ⟨rfl, by decide⟩

/-- The operation that an edit's kind names is the one in its packet. -/
theorem workKind_edit {k : Packet} {o : Nat} (h : workKind k = some (.edit o)) : pf k 34 1 = o := by
  unfold workKind at h
  split at h <;> simp_all
  split at h <;> cases h

end Sys2Proof.Machine

namespace Sys2Proof.Machine

/-! ### `READ` (R245, R265) -/

theorem queueMoved_of_wqs {s u t : State} {q : Fin 256} {w : WorkQ} {e : Seat} (h : queueMoved s u q w e) (ht : t.wqs = u.wqs) :
    queueMoved s t q w e :=
  ⟨(State.queue_of_wqs u t ht q).trans h.1, fun o ho => (State.queue_of_wqs u t ht o).trans (h.2 o ho)⟩

/-- A `READ` starts: it is the packet that was read, on its sequence, and then copies the descriptor. -/
def Reads (s : State) (j0 : Pkt) (ts : List Xlat) (v : State) (j : Pkt) (f : State → State) : Prop :=
  v = s ∧ j = { j0 with seq := some (pf j0.pkt 32 2) }
    ∧ ∀ u, f u = (u.devWrite none ts (u.descBytes j0.part (pf j0.pkt 32 2))).cachePages j0.part 10 j0.ctx ts

theorem takeRead_goes {s : State} {j : Pkt} {ts : List Xlat} (cs : List (Nat × Bool))
    (hts : s.translateAll j.part j.ctx (addrRun (pa j.pkt 8) 64) = some ts) : (takeRead s j cs).Goes (Reads s j ts) := by
  unfold takeRead
  extract_lets k n
  refine passing_goes fun _ => passUnless_goes ?_
  rw [show s.translateAll j.part j.ctx (addrRun (pa k 8) 64) = some ts from hts]
  dsimp only
  split
  · trivial
  · exact go_goes ⟨rfl, rfl, fun _ => rfl⟩

theorem descBytes_length (s : State) (p : Fin 4) (n : Nat) : (s.descBytes p n).length = 64 := by
  simp [State.descBytes, length_leBytes]

/-- A packet that walks no pages leaves every descriptor as it reads. -/
theorem descBytes_taken {s u : State} {j : Pkt} (hu : OnlyTaken s u) (hpkts : u.pkts = s.pkts ++ [j]) (hj : j.walks = false)
    (p : Fin 4) (n : Nat) : u.descBytes p n = s.descBytes p n := by
  have hinflight : u.inflight p n = s.inflight p n := by
    simp [State.inflight, State.onSeq, hpkts, hj]
  have hquar : u.quarOf p n = s.quarOf p n := by rw [State.quarOf, State.quarOf, hu.quar_eq]
  unfold State.descBytes
  rw [hu.seqd_eq, hinflight, hquar]

theorem OnlyBytes.workKept {s t : State} (h : OnlyBytes s t) : WorkKept s t := by
  rw [h.rest]
  exact ⟨rfl, rfl⟩

/-- What `READ` does leaves packets, queues and descriptors, and of memory every byte but those that it writes. -/
theorem read_copies {u : State} {ts : List Xlat} {bs : List Byte} (hq : quietMemory u) (hn : (placesOf ts).Nodup)
    (hlen : bs.length = ts.length) (p : Fin 4) (x : Fin 16) :
    let t := (u.devWrite none ts bs).cachePages p 10 x ts
    WorkKept u t ∧ t.seqs = u.seqs ∧ t.bytesAt (placesOf ts) = bs ∧ ∀ pl, pl ∉ placesOf ts → t.byteAt pl = u.byteAt pl := by
  obtain ⟨herr, -, hflips, hwaits, -⟩ := hq
  obtain ⟨⟨v, hway, hbytes⟩, hstored, hkept⟩ := devWrite_quiet hwaits herr hflips hn hlen
  intro t
  have hcached : OnlyTraffic (u.devWrite none ts bs) t := cachePages_onlyTraffic _ p 10 x ts
  have hbyte (pl : Place) : t.byteAt pl = (u.devWrite none ts bs).byteAt pl := hcached.byteAt_eq pl
  refine ⟨hway.workKept.trans (hbytes.workKept.trans hcached.workKept), ?_, ?_, fun pl hpl => (hbyte pl).trans (hkept pl hpl)⟩
  · have hstate : (u.devWrite none ts bs).seqs = u.seqs := by rw [hbytes.rest, ← hway.rest]
    rw [← hstate, ← hcached.rest]
  · rw [State.bytesAt, List.map_congr_left fun pl _ => hbyte pl]
    exact hstored

/-! ### A request for a page serve (R275, R319, R334) -/

/-- A tag lies above the type in a header (R324). -/
theorem retag_type (m : Msg) (tag : BitVec 16) : (retag m tag).type = m.type := by
  have hlow : (retag m tag).hdr.setWidth 8 = m.hdr.setWidth 8 := by
    have hones : ∀ i : Fin 8, (255#8)[i.val] = true := by decide
    ext i hi
    simpa [retag] using fun _ => hones ⟨i, hi⟩
  have hnat := congrArg BitVec.toNat hlow
  simp only [BitVec.toNat_setWidth] at hnat
  simpa [Msg.type, Msg.f] using hnat

/-- A request is kept until its reply arrives, sent or waiting for room (R319). -/
theorem request_asks (s : State) (l : Fin 48) (who : Waiter) (m : Msg) :
    ∃ o ∈ ((s.request l who m).link l).ops ++ ((s.request l who m).link l).reqWait,
      o.who = who ∧ o.msg.type = m.type ∧ o.msg.data = m.data := by
  unfold State.request
  dsimp only
  split
  · have hsent := fun v => (sendMsg_sendsOver v l (retag m (s.link l).nextTag)).1
    refine ⟨⟨(s.link l).nextTag, who, retag m (s.link l).nextTag, false⟩, ?_, rfl, retag_type m _, rfl⟩
    rw [(hsent _).ops_eq l]
    simp
  · exact ⟨⟨0, who, m, false⟩, by simp, rfl, rfl, rfl⟩

/-- The message with which a request asks the peer for a serve (R334). -/
def State.serveAsk (s : State) (j : Pkt) (l : Fin 48) (datum : Bool) : Msg :=
  s.mkMsg { MsgSpec.zero with type := 0x06, dctx := s.farCtx j.ctx l, len := 2, data := psReqData j.pkt datum }

theorem serveAsk_fields (s : State) (j : Pkt) (l : Fin 48) (datum : Bool) :
    (s.serveAsk j l datum).type = 6 ∧ (s.serveAsk j l datum).data = psReqData j.pkt datum := by
  obtain ⟨htype, -, -, hdata⟩ := mkMsg_fields s
    { MsgSpec.zero with type := 0x06, dctx := s.farCtx j.ctx l, len := 2, data := psReqData j.pkt datum }
  exact ⟨htype, hdata⟩

/-- The region that covers a device address is Datum-checked. -/
def State.regionDatum (s : State) (p : Fin 4) (x : Fin 16) (a : Nat) : Bool :=
  match s.regionAt p x a with
  | some r => r.2.datum
  | none => false

/-- A request whose fields pass over a link that is granted starts, and then asks the peer. -/
theorem takeServeReq_go {s : State} {j : Pkt} {cs : List (Nat × Bool)} {datum : Bool} {l : Fin 48} (hcs : ∀ c ∈ cs, c.2 = false)
    (hdatum : s.regionDatum j.part j.ctx (pa j.pkt 8) = datum) (hdest : ∀ c ∈ serveDest j.pkt datum, c.2 = false)
    (hstride : datum = true → 4096 * cdiv (farFoot j.pkt) 4096 ≤ pf j.pkt 40 4) (hpeer : j.peer = some l)
    (hgrant : s.granted j.part j.ctx l = true) :
    takeServeReq s j cs = .go s j (fun u => u.request l j.waiter (u.serveAsk j l datum)) := by
  have hfits : (datum && decide (pf j.pkt 40 4 < 4096 * cdiv (farFoot j.pkt) 4096)) = false := by
    simpa using hstride
  have hchecks : ∀ c ∈ cs ++ serveDest j.pkt datum ++ [(40, datum && decide (pf j.pkt 40 4 < 4096 * cdiv (farFoot j.pkt) 4096))],
      c.2 = false := by
    simp only [List.mem_append, List.mem_singleton]
    rintro c ((hc | hc) | rfl)
    · exact hcs c hc
    · exact hdest c hc
    · exact hfits
  have hdenied : s.peerDenied j = false := by simp [State.peerDenied, hpeer, hgrant]
  unfold takeServeReq
  extract_lets k d
  rw [show d = datum from hdatum, passing_checks hchecks, hdenied, hpeer]
  rfl

/-! ### Edits, reads and requests are taken -/

section

variable {s : State} {q : Fin 256} {w : WorkQ} {e : Seat} {k : Packet}

theorem pageEdit_taken {x : Nat × (Fin 256 → Packet → Instr)} (hx : x ∈ pageEdits) (he : s.memErr = [])
    (htakes : takes s q w e (.edit x.1) k)
    (hstarts : starts (takeEdit s (newPkt q w e (.edit x.1) k) (workChecks (.edit x.1) k))) :
    ∃ u j, exec (x.2 q k) s = .next (u.editStart j (pf k 32 2)) ∧ OnlyTaken s u ∧ u.pkts = s.pkts ++ [j]
      ∧ packetAt q w e (.edit x.1) k j ∧ queueMoved s u q w e ∧ j.seq = some (pf k 32 2) ∧ pf j.pkt 34 1 = x.1 ∧ x.1 < 9 := by
  obtain ⟨v, j, f, hgo⟩ := hstarts
  have hgoes := takeEdit_goes he (newPkt q w e (.edit x.1) k) (workChecks (.edit x.1) k)
  rw [hgo] at hgoes
  obtain ⟨hv, hhead, hseq, hf⟩ := hgoes
  obtain ⟨hexec, hop⟩ := exec_pageEdit hx q k s
  obtain ⟨u, htaken, hu, hpkts, hat, hmoved⟩ := takeWork_takes htakes hgo hv hhead
  obtain ⟨-, hpkt, -⟩ := id hat
  exact ⟨u, j, hexec.trans (htaken.trans (congrArg _ (hf u))), hu, hpkts, hat, hmoved, hseq,
    (congrArg (pf · 34 1) hpkt).trans (workKind_edit htakes.2.1), hop⟩

theorem readSeq_taken {ts : List Xlat} (htakes : takes s q w e (.edit 9) k)
    (hstarts : starts (takeRead s (newPkt q w e (.edit 9) k) (workChecks (.edit 9) k)))
    (hts : s.translateAll w.part w.ctx (addrRun (pa k 8) 64) = some ts) :
    ∃ u j, exec (.readSeq q k) s
        = .next ((u.devWrite none ts (s.descBytes w.part (pf k 32 2))).cachePages w.part 10 w.ctx ts)
      ∧ OnlyTaken s u ∧ u.pkts = s.pkts ++ [j] ∧ packetAt q w e (.edit 9) k j ∧ queueMoved s u q w e := by
  obtain ⟨v, j, f, hgo⟩ := hstarts
  have hgoes := takeRead_goes (j := newPkt q w e (.edit 9) k) (workChecks (.edit 9) k) hts
  rw [hgo] at hgoes
  obtain ⟨rfl, rfl, hf⟩ := hgoes
  obtain ⟨u, htaken, hu, hpkts, hat, hmoved⟩ := takeWork_takes htakes hgo (.refl v) rfl
  refine ⟨u, _, htaken.trans (congrArg _ ?_), hu, hpkts, hat, hmoved⟩
  rw [hf, descBytes_taken hu hpkts rfl]
  rfl

theorem serveReq_taken {datum : Bool} {l : Fin 48} (htakes : takes s q w e .serveReq k)
    (hdatum : s.regionDatum w.part w.ctx (pa k 8) = datum) (hdest : ∀ c ∈ serveDest k datum, c.2 = false)
    (hstride : datum = true → 4096 * cdiv (farFoot k) 4096 ≤ pf k 40 4) (hpeer : peerLink (BitVec.ofNat 32 (pf k 44 4)) = some l)
    (hgrant : s.granted w.part w.ctx l = true) :
    ∃ u, exec (.pageServeRequest q k) s
        = .next (u.request l (newPkt q w e .serveReq k).waiter (u.serveAsk (newPkt q w e .serveReq k) l datum))
      ∧ OnlyTaken s u ∧ u.pkts = s.pkts ++ [newPkt q w e .serveReq k] ∧ queueMoved s u q w e := by
  have hgo := takeServeReq_go (j := newPkt q w e .serveReq k) (takes_checks htakes) hdatum hdest hstride hpeer hgrant
  obtain ⟨u, htaken, hu, hpkts, -, hmoved⟩ := takeWork_takes htakes hgo (.refl s) rfl
  exact ⟨u, htaken, hu, hpkts, hmoved⟩

end

end Sys2Proof.Machine

section
open Sys2Proof Sys2Proof.Machine

/-- Settles O48: an edit that starts is taken and then does what its operation does to entries, descriptor and quarantine; the taking
leaves the tables, so that it meets them as they were. `READ` writes 64 bytes, and a request is kept at its link. -/
theorem pageEdits_hold : Obligations.PageEdits := by
  intro s q w e k hquiet n p d
  refine ⟨fun x hx htakes hstarts => ?_, fun ts htakes hstarts hts hnodup => ?_, ?_⟩
  · obtain ⟨u, j, hexec, hu, hpkts, hat, hmoved, hseq, hop, hlt⟩ := pageEdit_taken hx hquiet.1 htakes hstarts
    obtain ⟨-, hpkt, -, -, -, -, hpart, hctx, -, -⟩ := id hat
    have hwork := editStart_workKept u j n (hop ▸ hlt)
    have hquar := editStart_quar u j n (hop ▸ hlt)
    have htables := hu.sameMap.sameTables hquiet (hu.quiet hquiet)
    have hd : u.seqd n = d := hu.seqd_eq n
    refine ⟨_, j, hexec, hwork.2.trans hpkts, hat, queueMoved_of_wqs hmoved hwork.1, hseq, fun h0 => ?_, fun h6 => ?_, fun h8 => ?_,
      fun hother => ?_, ?_, fun hkept => ?_, fun h0 => ?_, fun g m kv hents hone => ?_⟩
    · rw [editStart_open u j n (hop.trans h0), hpkt, hctx]
      simp
    · rw [editStart_truncate u j n (hop.trans h6), hpkt]
      simp [hd]
    · rw [editStart_close u j n (hop.trans h8), State.updSeqd_eq, State.seqd_setSeqd, if_pos rfl]
      exact congrArg (fun d : SeqDesc => { d with st := 2 }) hd
    · rw [editStart_seqd u j n (hop ▸ hlt) (hop ▸ hother), hd]
    · rw [hop, hpkt, hpart, hd, htables.editTakes_eq, hu.quar_eq] at hquar
      exact hquar
    · rw [editStart_mem u j n (hop ▸ hkept), hu.mem_eq]
    · have hzeros (a : Nat) := writePart_zeros htables.clean.2 p.val (pa k 8) (16 * pf k 40 1 * pf k 42 2) a
      have hmem : (u.editStart j n).mem = (u.writePart p.val (pa k 8) (List.replicate (16 * pf k 40 1 * pf k 42 2) 0)).mem := by
        rw [editStart_open u j n (hop.trans h0), hpkt, hpart]
        rfl
      rw [hmem]
      refine ⟨fun o ho => (hzeros _).trans (if_pos ⟨o, ho, rfl⟩), fun a ha => (hzeros a).trans ?_⟩
      rw [if_neg fun ⟨o, ho, h⟩ => ha o ho h, hu.mem_eq]
    · have hcases : pf j.pkt 34 1 = 2 ∨ pf j.pkt 34 1 = 3 ∨ pf j.pkt 34 1 = 4 := by simpa [hop] using hone
      rw [editStart_single htables (by rw [hd, hpkt]; exact hents) hcases, hd, hpart, hop]
      rfl
  · obtain ⟨u, j, hexec, hu, hpkts, hat, hmoved⟩ := readSeq_taken htakes hstarts hts
    have hlen : (s.descBytes p n).length = ts.length := by
      rw [descBytes_length, translateAll_length hts, addrRun, List.length_map, List.length_range]
    obtain ⟨hwork, hseqs, hstored, hkept⟩ := read_copies (hu.quiet hquiet) hnodup hlen p w.ctx
    exact ⟨_, j, hexec, hwork.2.trans hpkts, hat, queueMoved_of_wqs hmoved hwork.1, hstored, hseqs.trans hu.seqs_eq,
      fun pl hpl => (hkept pl hpl).trans (hu.byteAt_eq pl)⟩
  · intro l htakes datum hdest hstride hpeer hgrant
    obtain ⟨u, hexec, hu, hpkts, hmoved⟩ := serveReq_taken (datum := datum) htakes rfl hdest hstride hpeer hgrant
    have hsent := request_onlyLinkWork u l (newPkt q w e .serveReq k).waiter (u.serveAsk (newPkt q w e .serveReq k) l datum)
    obtain ⟨o, ho, hwho, htype, hdata⟩ :=
      request_asks u l (newPkt q w e .serveReq k).waiter (u.serveAsk (newPkt q w e .serveReq k) l datum)
    obtain ⟨hmtype, hmdata⟩ := serveAsk_fields u (newPkt q w e .serveReq k) l datum
    exact ⟨_, hexec, hsent.pkts_eq.trans hpkts, queueMoved_of_wqs hmoved hsent.workKept.1, hsent.mem_eq.trans hu.mem_eq, o, ho, hwho,
      htype.trans hmtype, hdata.trans hmdata⟩

end
